-- ==== Sys2Proof/Word.lean ====
section
/-! DEFINITION. Word types of the Kamolo K4 and their plainest arithmetic. -/
namespace Sys2Proof

/-- One byte of memory. -/
abbrev Byte := BitVec 8
/-- A 32-bit register of one lane (R39). -/
abbrev Word := BitVec 32
/-- A 64-bit value: an instruction word (R9), a pair (R26), a lane mask. -/
abbrev DWord := BitVec 64

end Sys2Proof
end

