-- ==== Sys2Proof/Config.lean ====
section
/-! DEFINITION. What an implementation fixes and the spec leaves open, as constants without a body: no proof can use a value. -/
namespace Sys2Proof.Config

/-- Which of the results inside the bound of R178 an approximating instruction gives: a fixed function of the instruction, the
format, the source bits and FLUSHCTL (log 9). -/
opaque approxPick (op fmt bits ctl : Nat) : Nat

/-- The first of the two keys between which a node or leaf of n keys is interpolated at a time outside R239's range (log 54). -/
opaque strayKey (t n : Nat) : Nat

/-- A value that the spec does not state, one for each number drawn from `State.freeCount` (log 10). -/
opaque freeValue : Nat → Nat

/-- The digests and signatures of R412, of the bytes signed (log 11). -/
opaque attestBytes (what : Nat) (msg : List (BitVec 8)) : List (BitVec 8)

end Sys2Proof.Config
end

