-- ==== Sys2Proof/Machine/Bits.lean ====
section
/-! DEFINITION. Bit fields, byte order, sign extension, and sparse tables: lists of keys and values with strictly rising keys
and no entry that equals the default, so that equal tables are equal data. -/
namespace Sys2Proof.Machine

/-- Bits `lo + len - 1` down to `lo` of a number. -/
def fldN (x lo len : Nat) : Nat := (x >>> lo) % 2 ^ len

/-- Bit `i` of a number. -/
def bitN (x i : Nat) : Bool := x.testBit i

/-- The integer that the low `w` bits of a number stand for in two's complement. -/
def sextN (w x : Nat) : Int :=
  let y := x % 2 ^ w
  if 2 ^ (w - 1) ≤ y then (y : Int) - (2 ^ w : Nat) else y

/-- The low `w` bits of an integer. -/
def wrapI (w : Nat) (x : Int) : Nat := (x % ((2 ^ w : Nat) : Int)).toNat

/-- The number of one bits among the low `w` bits. -/
def popcN (w x : Nat) : Nat := (List.range w).foldl (fun n i => if x.testBit i then n + 1 else n) 0

/-- Little-endian bytes of a number (R2). -/
def leBytes : Nat → Nat → List Byte
  | 0, _ => []
  | n + 1, x => BitVec.ofNat 8 x :: leBytes n (x / 256)

/-- The number whose little-endian bytes are given (R2). -/
def ofLeBytes : List Byte → Nat
  | [] => 0
  | b :: bs => b.toNat + 256 * ofLeBytes bs

/-- `x` rounded down to a multiple of `a`. -/
def alignDown (x a : Nat) : Nat := x - x % a

/-- `x` rounded up to a multiple of `a`. -/
def alignUp (x a : Nat) : Nat := alignDown (x + (a - 1)) a

/-- The lowest set bit of a mask, if any. -/
def lowestBit (w x : Nat) : Option Nat := (List.range w).find? (fun i => x.testBit i)

/-- The mask with the bits of a list set. -/
def maskOf (l : List Nat) : Nat := l.foldl (fun m i => m ||| (1 <<< i)) 0

/-- The positions of the set bits of a mask, rising. -/
def bitsOf (w x : Nat) : List Nat := (List.range w).filter (fun i => x.testBit i)

/-- Integer square root with a remainder flag: the greatest r below 2^k with r * r ≤ x, found bit by bit. -/
def isqrtFrom : Nat → Nat → Nat → Nat
  | 0, r, _ => r
  | k + 1, r, x =>
    let r' := r + 2 ^ k
    if r' * r' ≤ x then isqrtFrom k r' x else isqrtFrom k r x

/-- ⌊√x⌋. -/
def isqrt (x : Nat) : Nat := isqrtFrom (x.log2 / 2 + 1) 0 x

/-- ⌈log2 x⌉ for x above 0. -/
def clog2 (x : Nat) : Nat := if x ≤ 1 then 0 else (x - 1).log2 + 1

/-- Lookup in a sparse table. (DESIGN CHOICE: log 1) -/
def Sparse.get (d : α) : List (Nat × α) → Nat → α
  | [], _ => d
  | (k, a) :: t, i => if i = k then a else Sparse.get d t i

/-- An entry placed before the first entry of a higher key. -/
def Sparse.ins (i : Nat) (x : α) : List (Nat × α) → List (Nat × α)
  | [] => [(i, x)]
  | (k, a) :: t => if i < k then (i, x) :: (k, a) :: t else (k, a) :: Sparse.ins i x t

/-- A value placed in a sparse table; placing the default removes the entry. -/
def Sparse.put [DecidableEq α] (d : α) (t : List (Nat × α)) (i : Nat) (x : α) : List (Nat × α) :=
  if x = d then t.filter (fun e => e.1 != i) else Sparse.ins i x (t.filter (fun e => e.1 != i))

/-- The canonical form: every key above the bound, keys rising, no default value. -/
def Sparse.wfFrom [DecidableEq α] (d : α) : Nat → List (Nat × α) → Bool
  | _, [] => true
  | lo, (k, a) :: t => decide (lo ≤ k) && decide (a ≠ d) && Sparse.wfFrom d (k + 1) t

/-- The canonical form of a sparse table. -/
def Sparse.wf [DecidableEq α] (d : α) (t : List (Nat × α)) : Bool := Sparse.wfFrom d 0 t

/-- Consecutive values placed from a key up. -/
def Sparse.putMany [DecidableEq α] (d : α) (t : List (Nat × α)) (i : Nat) : List α → List (Nat × α)
  | [] => t
  | x :: xs => Sparse.putMany d (Sparse.put d t i x) (i + 1) xs

/-- Consecutive values from a key up. -/
def Sparse.getMany (d : α) (t : List (Nat × α)) (i n : Nat) : List α :=
  (List.range n).map (fun j => Sparse.get d t (i + j))

/-- The first element of a list that satisfies `p` replaced by its image. -/
def updWhere (p : α → Bool) (f : α → α) (l : List α) : List α := l.map (fun a => if p a then f a else a)

/-- The entries of a sparse table from a key up, without those below it. -/
def Sparse.from (i : Nat) (t : List (Nat × α)) : List (Nat × α) := t.dropWhile (fun e => decide (e.1 < i))

/-- The first `n` values of a sparse table whose keys start at `i` or above. -/
def Sparse.denseFrom (d : α) : Nat → Nat → List (Nat × α) → List α
  | _, 0, _ => []
  | _, n + 1, [] => List.replicate (n + 1) d
  | i, n + 1, (k, a) :: t => if k = i then a :: Sparse.denseFrom d (i + 1) n t else d :: Sparse.denseFrom d (i + 1) n ((k, a) :: t)

/-- `n` values of a sparse table from a key up, as a list. -/
def Sparse.dense (d : α) (t : List (Nat × α)) (i n : Nat) : List α := Sparse.denseFrom d i n (Sparse.from i t)

/-- The sparse table of a list of values from a key up. -/
def Sparse.ofDense [DecidableEq α] (d : α) (i : Nat) : List α → List (Nat × α)
  | [] => []
  | x :: xs => if x = d then Sparse.ofDense d (i + 1) xs else (i, x) :: Sparse.ofDense d (i + 1) xs

/-- Element `i` replaced by its image. -/
def updAt (i : Nat) (f : α → α) (l : List α) : List α := l.mapIdx (fun j a => if j = i then f a else a)

end Sys2Proof.Machine
end

