-- ==== Sys2Proof/Machine/Formats.lean ====
section
/-! DEFINITION. Number formats of chapter 06: decoding of patterns, rounding (R154), overflow (R155), flushing (R158), NaNs
(R149 to R151), and the FP constants of R25. Exact values are sign, natural significand and power of two. -/
namespace Sys2Proof.Machine

/-- The floating-point formats of R147. -/
inductive Fmt where
  | f64 | f32 | f16 | bf16 | e5m2 | e4m3 | e2m1 | e8m0
  deriving DecidableEq, Repr

/-- Width in bits (R147). -/
def Fmt.width : Fmt → Nat
  | .f64 => 64 | .f32 => 32 | .f16 => 16 | .bf16 => 16 | .e5m2 => 8 | .e4m3 => 8 | .e2m1 => 4 | .e8m0 => 8

/-- Fraction bits (R147). -/
def Fmt.frac : Fmt → Nat
  | .f64 => 52 | .f32 => 23 | .f16 => 10 | .bf16 => 7 | .e5m2 => 2 | .e4m3 => 3 | .e2m1 => 1 | .e8m0 => 0

/-- Exponent bits (R147). -/
def Fmt.ebits : Fmt → Nat
  | .f64 => 11 | .f32 => 8 | .f16 => 5 | .bf16 => 8 | .e5m2 => 5 | .e4m3 => 4 | .e2m1 => 2 | .e8m0 => 8

/-- Exponent bias (R147). -/
def Fmt.bias : Fmt → Nat
  | .f64 => 1023 | .f32 => 127 | .f16 => 15 | .bf16 => 127 | .e5m2 => 15 | .e4m3 => 7 | .e2m1 => 1 | .e8m0 => 127

/-- Precision: the fraction width plus one (R154). -/
def Fmt.prec (f : Fmt) : Nat := f.frac + 1

/-- The least normal exponent (R148). -/
def Fmt.emin (f : Fmt) : Int := match f with | .e8m0 => -127 | _ => 1 - (f.bias : Int)

/-- The format has infinities (R147). -/
def Fmt.hasInf : Fmt → Bool
  | .f64 | .f32 | .f16 | .bf16 | .e5m2 => true
  | _ => false

/-- The largest finite value as significand and exponent of its unit (R148). -/
def Fmt.maxFin (f : Fmt) : Nat × Int :=
  match f with
  | .e4m3 => (14, 5)
  | .e2m1 => (3, 1)
  | .e8m0 => (1, 127)
  | _ => (2 ^ f.prec - 1, ((2 ^ f.ebits : Nat) : Int) - 2 - f.bias - f.frac)

/-- The pattern of the largest finite value without sign (R148). -/
def Fmt.maxBits : Fmt → Nat
  | .f64 => 0x7FEFFFFFFFFFFFFF | .f32 => 0x7F7FFFFF | .f16 => 0x7BFF | .bf16 => 0x7F7F | .e5m2 => 0x7B | .e4m3 => 0x7E
  | .e2m1 => 0x7 | .e8m0 => 0xFE

/-- The default NaN (R148); E2M1 has none and reads 0 (R150). -/
def Fmt.nanBits : Fmt → Nat
  | .f64 => 0x7FF8000000000000 | .f32 => 0x7FC00000 | .f16 => 0x7E00 | .bf16 => 0x7FC0 | .e5m2 => 0x7E | .e4m3 => 0x7F
  | .e2m1 => 0 | .e8m0 => 0xFF

/-- The sign bit's pattern. -/
def Fmt.signBit (f : Fmt) : Nat := match f with | .e8m0 => 0 | _ => 2 ^ (f.width - 1)

/-- The pattern of +∞ where the format has it. -/
def Fmt.infBits (f : Fmt) : Nat := (2 ^ f.ebits - 1) * 2 ^ f.frac

/-- Flags in the bit positions of FPSTAT (R159). -/
abbrev FFlags := BitVec 6
def FFlags.iv : FFlags := 1
def FFlags.dz : FFlags := 2
def FFlags.ofl : FFlags := 4
def FFlags.ufl : FFlags := 8
def FFlags.ix : FFlags := 16
def FFlags.fl : FFlags := 32

/-- A decoded value: a NaN with its sign, whether it signals and its fraction bits aligned to the top of 52 bits; an infinity;
an exact finite value (-1)^neg × m × 2^e. -/
inductive FVal where
  | nan (neg sig : Bool) (top52 : Nat)
  | inf (neg : Bool)
  | fin (neg : Bool) (m : Nat) (e : Int)
  deriving DecidableEq, Repr

def FVal.isNan : FVal → Bool | .nan .. => true | _ => false
def FVal.isSig : FVal → Bool | .nan _ s _ => s | _ => false
def FVal.isInf : FVal → Bool | .inf _ => true | _ => false
def FVal.isZero : FVal → Bool | .fin _ 0 _ => true | _ => false
def FVal.neg : FVal → Bool | .nan n _ _ => n | .inf n => n | .fin n _ _ => n
def FVal.withSign (n : Bool) : FVal → FVal
  | .nan _ s t => .nan n s t | .inf _ => .inf n | .fin _ m e => .fin n m e

/-- Decoding of a pattern (R147, R149). -/
def Fmt.decode (f : Fmt) (x : Nat) : FVal :=
  match f with
  | .e8m0 => if x % 256 = 255 then .nan false false (2 ^ 51) else .fin false 1 ((x % 256 : Nat) - 127 : Int)
  | _ =>
    let neg := x.testBit (f.width - 1)
    let ex := fldN x f.frac f.ebits
    let fr := x % 2 ^ f.frac
    if ex = 0 then .fin neg fr (f.emin - f.frac)
    else if f.hasInf && ex == 2 ^ f.ebits - 1 then
      if fr = 0 then .inf neg
      else .nan neg (! fr.testBit (f.frac - 1)) (fr <<< (52 - f.frac))
    else if f = .e4m3 && ex == 15 && fr == 7 then .nan neg false (7 <<< 49)
    else .fin neg (2 ^ f.frac + fr) (f.emin - f.frac + (ex - 1 : Nat))

/-- A subnormal pattern: zero exponent field and a nonzero fraction; E8M0 has none (R148). -/
def Fmt.isSubnormal (f : Fmt) (x : Nat) : Bool :=
  match f with
  | .e8m0 => false
  | _ => fldN x f.frac f.ebits == 0 && x % 2 ^ f.frac != 0

/-- The flush class of a format as bit positions of FLUSHCTL: input bit, result bit (R156); E8M0 has none. -/
def Fmt.flushBits : Fmt → Option (Nat × Nat)
  | .f64 => some (0, 4) | .f32 => some (1, 5) | .f16 => some (2, 6) | .bf16 => some (2, 6)
  | .e5m2 => some (3, 7) | .e4m3 => some (3, 7) | .e2m1 => some (3, 7) | .e8m0 => none

/-- Input flushing of R158: the pattern as read and the flags raised. -/
def Fmt.flushIn (f : Fmt) (ctl : Nat) (x : Nat) : Nat × FFlags :=
  match f.flushBits with
  | some (i, _) => if ctl.testBit i && f.isSubnormal x then (x &&& f.signBit, .fl) else (x, 0)
  | none => (x, 0)

/-- The five rounding modes, in the order of their codes (R154). -/
inductive Rnd where
  | rne | rtz | rup | rdn | rto
  deriving DecidableEq, Repr

/-- The mode of a rounding field; codes 5 to 7 are refused by the legality check. -/
def Rnd.ofCode (c : Nat) : Rnd :=
  match c with | 0 => .rne | 1 => .rtz | 2 => .rup | 3 => .rdn | _ => .rto

/-- The increment of R154's case block: `n` kept, `rem` of `2^sh` dropped. -/
def roundUp (r : Rnd) (neg : Bool) (n rem half : Nat) : Bool :=
  match r with
  | .rne => decide (half < rem) || (rem == half && half != 0 && n % 2 == 1)
  | .rtz => false
  | .rup => rem != 0 && !neg
  | .rdn => rem != 0 && neg
  | .rto => rem != 0 && n % 2 == 0

/-- ⌊x / u⌋ rounded under a mode for x = m × 2^e and u = 2^q, and whether anything was dropped. -/
def roundUnit (r : Rnd) (neg : Bool) (m : Nat) (e q : Int) : Nat × Bool :=
  if q ≤ e then (m <<< (e - q).toNat, false)
  else
    let sh := (q - e).toNat
    let n := m >>> sh
    let rem := m % 2 ^ sh
    (if roundUp r neg n rem (2 ^ (sh - 1)) then n + 1 else n, rem != 0)

/-- The overflow results of R155, as a pattern and extra flags beyond OF and IX (none). -/
def overflowBits (f : Fmt) (r : Rnd) (sat neg : Bool) : Nat :=
  let s := if neg then f.signBit else 0
  let big := match f with
    | .e4m3 => f.nanBits
    | _ => f.infBits
  let toBig := match r with
    | .rne => true | .rtz => false | .rup => !neg | .rdn => neg | .rto => false
  match f with
  | .e2m1 => s + f.maxBits
  | .e8m0 => 0xFF
  | .e5m2 | .e4m3 => if sat then s + f.maxBits else if toBig then s + big else s + f.maxBits
  | _ => if toBig then s + big else s + f.maxBits

/-- What `round` of R154 gives: the pattern, the flags, and whether the value was tiny. -/
structure Rounded where
  bits : Nat
  flags : FFlags
  tiny : Bool
  deriving DecidableEq, Repr

/-- `round(x, mode)` of R154 for nonzero x = (-1)^neg × m × 2^e, with the overflow of R155. A significand whose lowest bit
stands for a dropped nonzero remainder rounds as the exact value does when it holds at least p + 3 bits. -/
def roundFmt (f : Fmt) (r : Rnd) (sat neg : Bool) (m : Nat) (e : Int) : Rounded :=
  let lg : Int := (m.log2 : Int) + e
  let ex := max lg f.emin
  let p : Int := f.prec
  let (n, inex) := roundUnit r neg m e (ex - p + 1)
  let (n2, _) := roundUnit r neg m e (lg - p + 1)
  let carry := n == 2 ^ f.prec
  let ex' := if carry then ex + 1 else ex
  let n' := if carry then 2 ^ f.frac else n
  let (mm, me) := f.maxFin
  let ovf := decide (me + p - 1 < ex') && n' ≥ 2 ^ f.frac || (ex' - p + 1 == me && decide (mm < n'))
  let tiny := decide (lg + (if n2 == 2 ^ f.prec then 1 else 0) < f.emin)
  if ovf then ⟨overflowBits f r sat neg, .ofl ||| .ix, false⟩
  else
    let s := if neg then f.signBit else 0
    let mag := if n' < 2 ^ f.frac then n' else (ex' - f.emin + 1).toNat * 2 ^ f.frac + (n' - 2 ^ f.frac)
    ⟨s + mag, (if inex then .ix else 0) ||| (if tiny && inex then .ufl else 0), tiny⟩

/-- Result flushing of R158 applied to a rounded nonzero result. A value that is tiny before its bounded rounding makes it the smallest normal
counts as tiny and is flushed. (DESIGN CHOICE: log 59) -/
def flushOut (f : Fmt) (ctl : Nat) (neg : Bool) (r : Rounded) : Nat × FFlags :=
  match f.flushBits with
  | some (_, o) =>
    if ctl.testBit o && r.tiny then (if neg then f.signBit else 0, r.flags ||| .ufl ||| .ix ||| .fl) else (r.bits, r.flags)
  | none => (r.bits, r.flags)

/-- A nonzero exact value rounded and flushed to a format. -/
def roundFlush (f : Fmt) (ctl : Nat) (r : Rnd) (sat neg : Bool) (m : Nat) (e : Int) : Nat × FFlags :=
  flushOut f ctl neg (roundFmt f r sat neg m e)

/-- A zero of a sign. -/
def Fmt.zeroBits (f : Fmt) (neg : Bool) : Nat := if neg then f.signBit else 0

/-- An infinity of a sign. -/
def Fmt.infSigned (f : Fmt) (neg : Bool) : Nat := f.zeroBits neg + f.infBits

/-- The default NaN with the flag that E2M1 raises for want of one (R150). -/
def Fmt.defaultNan (f : Fmt) : Nat × FFlags := match f with | .e2m1 => (0, .iv) | _ => (f.nanBits, 0)

/-- A NaN carried to a format, quieted (R150, R151); the flag of E2M1. -/
def Fmt.nanFrom (f : Fmt) (neg : Bool) (top52 : Nat) : Nat × FFlags :=
  match f with
  | .e2m1 => (0, .iv)
  | .e8m0 => (0xFF, 0)
  | .e4m3 => (f.zeroBits neg + 0x7F, 0)
  | _ => (f.zeroBits neg + f.infBits + ((top52 ||| 2 ^ 51) >>> (52 - f.frac)), 0)

/-- The first NaN among the sources, in their order (R150), and IV when a source signals. -/
def nanResult (f : Fmt) (srcs : List FVal) : Option (Nat × FFlags) :=
  let iv : FFlags := if srcs.any FVal.isSig then .iv else 0
  (srcs.find? FVal.isNan).bind fun
    | .nan n _ t => let (b, fl) := f.nanFrom n t; some (b, fl ||| iv)
    | _ => none

/-- The default NaN as the result of an invalid operation (R150). -/
def invalidResult (f : Fmt) : Nat × FFlags := let (b, fl) := f.defaultNan; (b, fl ||| .iv)

/-- The exact finite values of the constants 0x1C0 to 0x1D7 of R25: sign, significand, exponent. -/
def fpcFinite : List (Bool × Nat × Int) :=
  [(false, 0, 0), (true, 0, 0), (false, 1, 0), (true, 1, 0), (false, 1, -1), (true, 1, -1), (false, 1, 1), (true, 1, 1),
   (false, 1, -2), (false, 1, 2), (false, 1, -3), (false, 1, 3), (false, 3, -1), (false, 3, 0), (false, 3, -2), (false, 3, 1)]
  ++ [(false, 1, 4), (false, 1, -4), (false, 5, 1), (false, 25, 2), (false, 255, 0), (false, 1, 10), (true, 1, 2), (true, 1, 3)]

/-- The pattern of FP constant 0x1C0 + n in a format, where it exists there (R25). -/
def Fmt.const (f : Fmt) (n : Nat) : Option Nat :=
  if n < 24 then
    match fpcFinite[n]? with
    | some (neg, 0, _) => if f = .e8m0 then none else some (f.zeroBits neg)
    | some (neg, m, e) =>
      if f = .e8m0 && neg then none
      else
        let r := roundFmt f .rne false neg m e
        if r.flags = 0 then some (if f = .e8m0 then (e + 127).toNat else r.bits) else none
    | none => none
  else
    match n with
    | 24 => if f.hasInf then some (f.infSigned false) else none
    | 25 => if f.hasInf then some (f.infSigned true) else none
    | 26 => if f = .e2m1 then none else some f.nanBits
    | 27 => some f.maxBits
    | 28 => some (if f = .e8m0 then 0 else 2 ^ f.frac)
    | 29 => if f = .e8m0 then none else some 1
    | 30 => some (if f = .e8m0 then 127 else (roundFmt f .rne false false 1 (1 - (f.prec : Int))).bits)
    | _ => some (if f = .e8m0 then 129 else (roundFmt f .rne false false 0x6487ED5110B4611A62633145C06E0E68 (-125)).bits)

end Sys2Proof.Machine
end

