-- ==== Sys2Proof/Machine/Arith.lean ====
section
/-! DEFINITION. Floating-point arithmetic on decoded values: exact results rounded once, special cases, comparisons (R150, R154,
R158, R174 to R181), and the approximating functions within the bounds of R178. -/
namespace Sys2Proof.Machine

/-- A result pattern and the flags raised. -/
abbrev FRes := Nat × FFlags

/-- A signed integer times a power of two. -/
def fvInt (neg : Bool) (m : Nat) : Int := if neg then -(m : Int) else m

/-- A finite value as an integer of unit 2^q, for q at most its exponent. -/
def fvAt (neg : Bool) (m : Nat) (e q : Int) : Int := fvInt neg (m <<< (e - q).toNat)

/-- An exact integer times 2^q rounded and flushed; zero takes the sign given. -/
def fromInt (f : Fmt) (ctl : Nat) (r : Rnd) (sat zneg : Bool) (v : Int) (q : Int) : FRes :=
  if v = 0 then (f.zeroBits zneg, 0) else roundFlush f ctl r sat (decide (v < 0)) v.natAbs q

/-- The sum of two values (R174): NaNs first, then infinities, then the exact sum; an exact zero sum is +0, or −0 under RDN. -/
def fpAdd (f : Fmt) (ctl : Nat) (r : Rnd) (a b : FVal) : FRes :=
  match nanResult f [a, b] with
  | some x => x
  | none =>
    match a, b with
    | .inf n, .inf m => if n = m then (f.infSigned n, 0) else invalidResult f
    | .inf n, _ => (f.infSigned n, 0)
    | _, .inf m => (f.infSigned m, 0)
    | .fin n x e, .fin m y d =>
      let q := min e d
      let z := if x = 0 ∧ y = 0 ∧ n = m then n else r == .rdn
      fromInt f ctl r false z (fvAt n x e q + fvAt m y d q) q
    | _, _ => invalidResult f

/-- Sign reversed; a NaN's too. -/
def fvNeg (a : FVal) : FVal := a.withSign (!a.neg)

/-- The difference: no sign of a NaN changes (R174). -/
def fpSub (f : Fmt) (ctl : Nat) (r : Rnd) (a b : FVal) : FRes :=
  match nanResult f [a, b] with
  | some x => x
  | none => fpAdd f ctl r a (fvNeg b)

/-- The product of two values. -/
def fpMul (f : Fmt) (ctl : Nat) (r : Rnd) (a b : FVal) : FRes :=
  match nanResult f [a, b] with
  | some x => x
  | none =>
    let s := xor a.neg b.neg
    match a, b with
    | .fin _ x e, .fin _ y d => fromInt f ctl r false s (fvInt s (x * y)) (e + d)
    | _, _ => if a.isZero || b.isZero then invalidResult f else (f.infSigned s, 0)

/-- a × b + c rounded once; 0 × ∞ is invalid whatever c holds (R174). -/
def fpFma (f : Fmt) (ctl : Nat) (r : Rnd) (a b c : FVal) : FRes :=
  let bad := (a.isZero && b.isInf) || (a.isInf && b.isZero)
  match nanResult f [a, b, c] with
  | some (x, fl) => (x, if bad then fl ||| .iv else fl)
  | none =>
    if bad then invalidResult f
    else
      let s := xor a.neg b.neg
      match a, b, c with
      | .fin _ x e, .fin _ y d, .fin n z g =>
        let q := min (e + d) g
        let sum := fvAt s (x * y) (e + d) q + fvAt n z g q
        let zn := if x * y = 0 ∧ z = 0 ∧ s = n then s else r == .rdn
        fromInt f ctl r false zn sum q
      | .fin .., .fin .., .inf n => (f.infSigned n, 0)
      | _, _, .inf n => if n = s then (f.infSigned n, 0) else invalidResult f
      | _, _, _ => (f.infSigned s, 0)

/-- A quotient of significands with its remainder sticky below at least p + 3 bits. -/
def quoSticky (p m n : Nat) : Nat × Nat :=
  let k := p + 4 + n.log2
  let q := (m <<< k) / n
  (2 * q + (if (m <<< k) % n = 0 then 0 else 1), k + 1)

/-- a ÷ b correctly rounded (R174). -/
def fpDiv (f : Fmt) (ctl : Nat) (r : Rnd) (a b : FVal) : FRes :=
  match nanResult f [a, b] with
  | some x => x
  | none =>
    let s := xor a.neg b.neg
    match a, b with
    | .inf _, .inf _ => invalidResult f
    | .inf _, _ => (f.infSigned s, 0)
    | _, .inf _ => (f.zeroBits s, 0)
    | .fin _ x e, .fin _ y d =>
      if y = 0 then (if x = 0 then invalidResult f else (f.infSigned s, .dz))
      else if x = 0 then (f.zeroBits s, 0)
      else
        let (q, k) := quoSticky f.prec x y
        roundFlush f ctl r false s q (e - d - k)
    | _, _ => invalidResult f

/-- A square root with its remainder sticky. -/
def sqrtSticky (p m : Nat) (e : Int) : Nat × Int :=
  let k0 := 2 * (p + 4)
  let k := if (e - k0) % 2 = 0 then k0 else k0 + 1
  let x := m <<< k
  let r := isqrt x
  (2 * r + (if r * r = x then 0 else 1), (e - k) / 2 - 1)

/-- √a correctly rounded; √−0 is −0 (R174). -/
def fpSqrt (f : Fmt) (ctl : Nat) (r : Rnd) (a : FVal) : FRes :=
  match nanResult f [a] with
  | some x => x
  | none =>
    match a with
    | .fin n 0 _ => (f.zeroBits n, 0)
    | .fin false m e => let (q, d) := sqrtSticky f.prec m e; roundFlush f ctl r false false q d
    | .inf false => (f.infSigned false, 0)
    | _ => invalidResult f

/-- a × 2^n (R174); an amount beyond every exponent gives what the nearest such amount gives. -/
def fpScale (f : Fmt) (ctl : Nat) (r : Rnd) (a : FVal) (n : Int) : FRes :=
  match nanResult f [a] with
  | some x => x
  | none =>
    match a with
    | .fin s 0 _ => (f.zeroBits s, 0)
    | .fin s m e => roundFlush f ctl r false s m (e + max (-5000) (min 5000 n))
    | _ => (f.infSigned a.neg, 0)

/-- a rounded to an integral value; no IX, no UF (R174). -/
def fpRound (f : Fmt) (r : Rnd) (a : FVal) : FRes :=
  match nanResult f [a] with
  | some x => x
  | none =>
    match a with
    | .fin s m e =>
      if 0 ≤ e then (if m = 0 then (f.zeroBits s, 0) else ((roundFmt f .rne false s m e).bits, 0))
      else
        let n := (roundUnit r s m e 0).1
        if n = 0 then (f.zeroBits s, 0) else ((roundFmt f .rne false s n 0).bits, 0)
    | _ => (f.infSigned a.neg, 0)

/-- Order of two values that are no NaN: −1, 0, 1, with +0 equal to −0. -/
def fvCmp (a b : FVal) : Int :=
  match a, b with
  | .inf n, .inf m => if n = m then 0 else if n then -1 else 1
  | .inf n, _ => if n then -1 else 1
  | _, .inf m => if m then 1 else -1
  | .fin n x e, .fin m y d =>
    let q := min e d
    let z := fvAt n x e q - fvAt m y d q
    if z < 0 then -1 else if z = 0 then 0 else 1
  | _, _ => 0

/-- The same with −0 less than +0 (R175). -/
def fvLess (a b : FVal) : Bool :=
  let c := fvCmp a b
  decide (c < 0) || (c == 0 && a.neg && !b.neg)

/-- Result flushing of a source kept as it is (R158, R175). -/
def keepFlush (f : Fmt) (ctl x : Nat) : FRes :=
  match f.flushBits with
  | some (_, o) => if ctl.testBit o && f.isSubnormal x then (x &&& f.signBit, .ufl ||| .ix ||| .fl) else (x, 0)
  | none => (x, 0)

/-- `fmin`, `fmax`, `fminx`, `fmaxx` on patterns (R175): `mx` picks the larger, `nanWins` is the x form. -/
def fpMinMax (f : Fmt) (ctl : Nat) (mx nanWins : Bool) (xa xb : Nat) : FRes :=
  let a := f.decode xa
  let b := f.decode xb
  let iv : FFlags := if a.isSig || b.isSig then .iv else 0
  let nan := (nanResult f [a, b]).getD (f.nanBits, 0)
  if a.isNan && b.isNan then nan
  else if a.isNan || b.isNan then
    if nanWins then nan else let (y, fl) := keepFlush f ctl (if a.isNan then xb else xa); (y, fl ||| iv)
  else
    let lo := if fvLess b a then xb else xa
    let hi := if fvLess b a then xa else xb
    keepFlush f ctl (if mx then hi else lo)

/-- The conditions of R176. -/
def fcmpTrue (cc : Nat) (a b : FVal) : Bool :=
  let un := a.isNan || b.isNan
  let c := fvCmp a b
  let base (k : Nat) : Bool :=
    match k with
    | 0 => c == 0 | 1 => decide (c < 0) | 2 => decide (c ≤ 0) | 3 => decide (0 < c) | 4 => decide (0 ≤ c) | _ => c != 0
  if cc = 6 then un else if cc = 7 then !un
  else if cc < 6 then !un && base cc else un || base (cc - 8)

/-- The class code of R177. -/
def fclassCode (f : Fmt) (x : Nat) : Nat :=
  let a := f.decode x
  match a with
  | .nan _ true _ => 1
  | .nan _ false _ => 2
  | .inf true => 4
  | .inf false => 512
  | .fin n m _ => if m = 0 then (if n then 32 else 64) else if f.isSubnormal x then (if n then 16 else 128) else if n then 8 else 256

/-! ### Approximating functions (R178) -/

/-- An exact value known as an integer of unit 2^q, less than `below` units under it and less than `above` units over it; the bound on the
result's distance in that unit; and whether the result is exact. -/
structure Near where
  v : Int
  q : Int
  bound : Nat
  exact : Bool
  below : Nat
  above : Nat
  deriving DecidableEq, Repr

/-- The bound of R178 in units 2^q: k units in the last place of the value's binade, or an absolute 2^-a. (DESIGN CHOICE: log 9) -/
def nearBound (f : Fmt) (v q : Int) (k : Nat) (absLog : Option Nat) : Nat :=
  let lg := max ((v.natAbs.log2 : Int) + q) f.emin
  let ulp := k * 2 ^ (lg - f.prec + 1 - q).toNat
  match absLog with
  | some a => max ulp (2 ^ (-(a : Int) - q).toNat)
  | none => ulp

/-- A result inside the bound: the exact one, or the one that `Config.approxPick` places, rounded toward the exact value; a zero stands for a tiny
value and raises UF and IX (R154). (DESIGN CHOICE: log 9) -/
def nearPick (f : Fmt) (ctl op bits : Nat) (n : Near) : FRes :=
  let neg := decide (n.v < 0)
  if n.exact then fromInt f ctl .rne false false n.v n.q
  else
    let near := roundFmt f .rne false neg n.v.natAbs n.q
    if near.flags &&& .ofl != 0 then (f.infSigned neg, .ofl ||| .ix)
    else
      let room := 2 * n.bound - n.below - n.above
      let w : Int := n.v - n.bound + n.above + (Config.approxPick op f.width bits ctl % (room + 1) : Nat)
      let wneg := decide (w < 0)
      let r := roundFmt f (if n.v ≤ w then .rdn else .rup) false wneg w.natAbs n.q
      let r : Rounded := if r.flags &&& .ofl != 0 then ⟨f.zeroBits wneg + f.maxBits, 0, false⟩ else r
      if w = 0 ∨ r.bits = f.zeroBits wneg then flushOut f ctl neg ⟨f.zeroBits neg, .ufl ||| .ix, true⟩
      else flushOut f ctl wneg { r with flags := .ix ||| (if r.tiny then .ufl else 0) }

/-- Fraction bits of the fixed-point evaluation. -/
def fxBits : Nat := 200

/-- More units than the fixed-point evaluation is off. -/
def fxSlack : Nat := 65536

/-- A nonzero argument below 2^-60, for which the first terms of a series say on which side of it, or of 1, the exact value lies. -/
def tinyArg (m : Nat) (e : Int) : Bool := decide ((m.log2 : Int) + e < -60)

/-- arctan(1/n) in units 2^-b by its series. -/
def atanInv : Nat → Nat → Nat → Nat → Int → Int
  | 0, _, _, _, acc => acc
  | t + 1, n, k, x, acc =>
    let term : Int := (x / k : Nat)
    atanInv t n (k + 2) (x / (n * n)) (if k % 4 = 1 then acc + term else acc - term)

/-- π in units 2^-b by Machin's formula. -/
def piFix (b : Nat) : Nat :=
  let g := b + 40
  let one := 2 ^ g
  ((16 * atanInv (g / 4 + 4) 5 1 (one / 5) 0 - 4 * atanInv (g / 14 + 4) 239 1 (one / 239) 0).toNat) >>> 40

/-- ln 2 in units 2^-b: the sum of 1 / (k 2^k). -/
def ln2Fix (b : Nat) : Nat :=
  ((List.range (b + 20)).foldl (fun a k => a + 2 ^ (b + 20) / ((k + 1) * 2 ^ (k + 1))) 0) >>> 20

/-- Σ x^k / k! with alternating steps of the series: `step` 1 for exp, 2 with signs for sine and cosine; x in units 2^-b. -/
def taylor : Nat → Nat → Nat → Int → Int → Nat → Bool → Int → Int
  | 0, _, _, _, _, _, _, acc => acc
  | t + 1, b, k, x, term, st, alt, acc =>
    let t1 : Int := if st = 1 then term * x / (2 ^ b : Nat) / (k + 1 : Nat)
      else (term * x / (2 ^ b : Nat)) * x / (2 ^ b : Nat) / ((k + 1) * (k + 2) : Nat)
    let t2 := if alt then -t1 else t1
    taylor t b (k + st) x t2 st alt (acc + t2)

/-- 2^a for a finite a, as a value of `fxBits` fraction bits times a power of two. -/
def exp2Near (f : Fmt) (neg : Bool) (m : Nat) (e : Int) : Near :=
  let b := fxBits
  -- a in units 2^-b, held inside the range in which a result can be nonzero and finite
  let lim : Int := 5000 * (2 ^ b : Nat)
  let big := decide (13 < (m.log2 : Int) + e)
  let a : Int := if big then (if neg then -lim else lim)
    else if e + b < 0 then (fvInt neg m) / ((2 ^ (-(e + b)).toNat : Nat) : Int) else fvInt neg (m <<< (e + b).toNat)
  let i := a / ((2 ^ b : Nat) : Int)
  let fr := a % ((2 ^ b : Nat) : Int)
  let ex := !big && decide (fr = 0) && (e ≥ 0 || m % 2 ^ (-e).toNat == 0)
  let v := if ex then ((2 ^ b : Nat) : Int)
    else taylor 60 b 0 (fr * ln2Fix b / (2 ^ b : Nat)) (2 ^ b : Nat) 1 false (2 ^ b : Nat)
  let q : Int := i - b
  let exactRep := ex && decide (f.emin - f.frac ≤ i) && decide (i < ((2 ^ f.ebits : Nat) : Int) - 1 - f.bias)
  let one : Int := (2 ^ b : Nat)
  if tinyArg m e then
    (if neg then ⟨one, -(b : Int), nearBound f (one - 1) (-(b : Int)) 2 none, false, 2 ^ 140, 0⟩
     else ⟨one, -(b : Int), nearBound f one (-(b : Int)) 2 none, false, 0, 2 ^ 140⟩)
  else
    let off := if ex then 0 else fxSlack
    ⟨v, q, nearBound f v q 2 none, exactRep, off, off⟩

/-- Fraction bits of log2 of y in [1, 2), y in units 2^-b, by repeated squaring. -/
def log2Bits : Nat → Nat → Nat → Nat → Nat
  | 0, _, _, acc => acc
  | t + 1, b, y, acc =>
    let z := (y * y) >>> b
    if 2 ^ (b + 1) ≤ z then log2Bits t b (z / 2) (2 * acc + 1) else log2Bits t b z (2 * acc)

/-- log2 a for a finite positive a. -/
def log2Near (f : Fmt) (m : Nat) (e : Int) : Near :=
  let b := fxBits
  let i := (m.log2 : Int) + e
  let pow := m == 2 ^ m.log2
  let y := m <<< b >>> m.log2
  let fr : Nat := if pow then 0 else log2Bits b b y 0
  let v : Int := i * (2 ^ b : Nat) + fr
  let inside := (i == -1) || (i == 0) || (i == 1 && pow)
  ⟨v, -(b : Int), nearBound f v (-(b : Int)) 2 (if inside then some (if f = .f64 then 51 else 22) else none), pow, fxSlack, fxSlack⟩

/-- sin a or cos a with exact argument reduction. -/
def sinNear (f : Fmt) (cos neg : Bool) (m : Nat) (e : Int) : Near :=
  let w : Nat := 1500
  let a : Nat := m <<< (e + w).toNat
  let r : Nat := (a % (2 * piFix w)) >>> (w - fxBits)
  let b := fxBits
  let x : Int := if neg then -(r : Int) else r
  let abs : Option Nat := some (if f = .f64 then 51 else 22)
  if tinyArg m e then
    if cos then ⟨(2 ^ b : Nat), -(b : Int), nearBound f ((2 ^ b : Nat) - 1) (-(b : Int)) 2 abs, false, 2 ^ 80, 0⟩
    else
      let q := min e (-(b : Int))
      let v := fvInt neg (m <<< (e - q).toNat)
      let cube := v.natAbs / 2 ^ 120 + 1
      ⟨v, q, nearBound f v q 2 abs, false, if neg then 0 else cube, if neg then cube else 0⟩
  else
    let v := if cos then taylor 60 b 0 x (2 ^ b : Nat) 2 true (2 ^ b : Nat) else taylor 60 b 1 x x 2 true x
    ⟨v, -(b : Int), nearBound f v (-(b : Int)) 2 abs, false, fxSlack, fxSlack⟩

/-- 1/a for a finite nonzero a. -/
def rcpNear (f : Fmt) (neg : Bool) (m : Nat) (e : Int) : Near :=
  let pow := m == 2 ^ m.log2
  let k := f.prec + 60 + m.log2
  let v : Int := fvInt neg (2 ^ k / m)
  let q : Int := -e - k
  let ex := -(e + m.log2)
  ⟨v, q, nearBound f v q 1 none, pow && decide (f.emin - f.frac ≤ ex) && decide (ex < ((2 ^ f.ebits : Nat) : Int) - 1 - f.bias),
   if neg && !pow then 1 else 0, if neg || pow then 0 else 1⟩

/-- 1/√a for a finite positive a. -/
def rsqNear (f : Fmt) (m : Nat) (e : Int) : Near :=
  let pow := m == 2 ^ m.log2 && ((m.log2 : Int) + e) % 2 == 0
  let k0 := 2 * (f.prec + 60) + m.log2
  let k := if (e + k0) % 2 = 0 then k0 else k0 + 1
  -- 1/√(m 2^e) = √(2^k / m) · 2^(-(e + k) / 2)
  let v : Int := isqrt (2 ^ k * 2 ^ 60 / m)
  let q : Int := -((e + k) / 2) - 30
  ⟨v, q, nearBound f v q 1 none, pow, 0, 2⟩

/-- The approximating instructions in their opcodes' order: 0 frcp, 1 frsq, 2 fex2, 3 flg2, 4 fsin, 5 fcos; special cases of
R178's table first. (DESIGN CHOICE: log 9) -/
def approx (op : Nat) (f : Fmt) (ctl bits : Nat) : FRes :=
  let a := f.decode bits
  match nanResult f [a] with
  | some x => x
  | none =>
    match a with
    | .nan .. => invalidResult f
    | .fin n 0 _ =>
      match op with
      | 0 => (f.infSigned n, .dz)
      | 1 => (f.infSigned n, .dz)
      | 2 => ((roundFmt f .rne false false 1 0).bits, 0)
      | 3 => (f.infSigned true, .dz)
      | 4 => (f.zeroBits n, 0)
      | _ => ((roundFmt f .rne false false 1 0).bits, 0)
    | .inf n =>
      match op with
      | 0 => (f.zeroBits n, 0)
      | 1 => if n then invalidResult f else (f.zeroBits false, 0)
      | 2 => if n then (f.zeroBits false, 0) else (f.infSigned false, 0)
      | 3 => if n then invalidResult f else (f.infSigned false, 0)
      | _ => invalidResult f
    | .fin n m e =>
      match op with
      | 0 => nearPick f ctl op bits (rcpNear f n m e)
      | 1 => if n then invalidResult f else nearPick f ctl op bits (rsqNear f m e)
      | 2 => nearPick f ctl op bits (exp2Near f n m e)
      | 3 => if n then invalidResult f else nearPick f ctl op bits (log2Near f m e)
      | 4 => nearPick f ctl op bits (sinNear f false n m e)
      | _ => nearPick f ctl op bits (sinNear f true n m e)

/-- A 16-bit element: the f32 result of the widened element, rounded with RNE (R178). The f32 step flushes nothing, and its UF counts only where
its result is zero; the flush bits of the 16-bit class act on the element's own source and result. (DESIGN CHOICE: log 9) -/
def approx16 (op : Nat) (f : Fmt) (ctl bits : Nat) : FRes :=
  let wide : Nat :=
    match f.decode bits with
    | .nan n s t => (Fmt.zeroBits .f32 n) + Fmt.infBits .f32 + ((if s then t else t ||| 2 ^ 51) >>> 29)
    | .inf n => Fmt.infSigned .f32 n
    | .fin n 0 _ => Fmt.zeroBits .f32 n
    | .fin n m e => (roundFmt .f32 .rne false n m e).bits
  let (y, fl) := approx op .f32 0 wide
  let fl' : FFlags := fl &&& (.iv ||| .dz ||| .ix ||| .ofl)
  match Fmt.decode .f32 y with
  | .nan n _ t => let (z, g) := f.nanFrom n t; (z, fl' ||| g)
  | .inf n => (f.infSigned n, fl')
  | .fin n 0 _ => (f.zeroBits n, fl' ||| (fl &&& .ufl))
  | .fin n m e => let (z, g) := roundFlush f ctl .rne false n m e; (z, fl' ||| g)

end Sys2Proof.Machine
end

