-- ==== Sys2Proof/Machine/Lacc.lean ====
section
/-! DEFINITION. The long accumulator (R153, R212, R213), slicing (R208 to R211), the narrow path (R205, R206), conversion on entering
and leaving a slot (R216, R225): the arithmetic of the matrix engine on values. -/
namespace Sys2Proof.Machine

/-! ### Conditions of MSTAT (R217) -/

/-- What an instruction changes in MSTAT: SPEC, OVF, WIN, SUBN, BELOW in bits 5 to 1, loss of exactness in bit 0; the largest
⌈log2 b⌉ that left. -/
structure MFlags where
  bits : Nat
  bexp : Option Int
  deriving DecidableEq, Repr

def mNone : MFlags := ⟨0, none⟩
def mBit (n : Nat) : MFlags := ⟨2 ^ n, none⟩
def mSPEC : MFlags := mBit 5
def mOVF : MFlags := mBit 4
def mWIN : MFlags := mBit 3
def mSUBN : MFlags := mBit 2
def mBELOW : MFlags := mBit 1
def mLOST : MFlags := mBit 0
def MFlags.join (a b : MFlags) : MFlags :=
  ⟨a.bits ||| b.bits, match a.bexp, b.bexp with | some x, some y => some (max x y) | some x, none => some x | none, y => y⟩
def mIf (c : Bool) (f : MFlags) : MFlags := if c then f else mNone

/-- MSTAT after `mst.clr` (R217). -/
def mstatReset : DWord := 0x0000800000000001#64

/-- Changes merged into MSTAT: EXACT only falls, BEXP only rises, the other flags stick (R217). -/
def mergeMstat (m : DWord) (f : MFlags) : DWord :=
  let old := sextN 16 (fldN m.toNat 32 16)
  let be := match f.bexp with | some b => max old (min b 0x7FFF) | none => old
  let ex := m.getLsbD 0 && !f.bits.testBit 0
  BitVec.ofNat 64 (wrapI 16 be <<< 32 + (fldN m.toNat 1 5 ||| fldN f.bits 1 5) * 2 + ex.toNat)

/-! ### LACC elements (R153) -/

structure LaccE where
  v : Int
  l : Int
  bm : Nat
  be : Int
  deriving DecidableEq, Repr

def laccOf (x : BitVec 128) : LaccE :=
  let n := x.toNat
  ⟨sextN 104 n, (fldN n 104 12 : Int) - 2048, fldN n 116 4, sextN 8 (fldN n 120 8)⟩
def laccBits (e : LaccE) : BitVec 128 :=
  BitVec.ofNat 128 (wrapI 8 e.be <<< 120 + (e.bm % 16) <<< 116 + wrapI 12 (e.l + 2048) <<< 104 + wrapI 104 e.v)

/-- ⌊log2 n⌋ of a positive integer times 2^e. -/
def msbAt (n : Nat) (e : Int) : Int := (n.log2 : Int) + e

/-- An exact bound contribution: num / den × 2^e. -/
structure Frac where
  num : Nat
  den : Nat
  e : Int
  deriving DecidableEq, Repr

/-- ⌈x / 2^t⌉ of a fraction. -/
def Frac.ceilAt (x : Frac) (t : Int) : Nat :=
  let d := x.e - t
  if 0 ≤ d then (x.num * 2 ^ d.toNat + x.den - 1) / x.den
  else (x.num + x.den * 2 ^ (-d).toNat - 1) / (x.den * 2 ^ (-d).toNat)

/-- The sum of two fractions. -/
def Frac.add (a b : Frac) : Frac :=
  let e := min a.e b.e
  ⟨a.num * 2 ^ (a.e - e).toNat * b.den + b.num * 2 ^ (b.e - e).toNat * a.den, a.den * b.den, e⟩

/-- The smallest exponent t, at least lo, with ⌈x / 2^t⌉ ≤ 15, looked for from a lower limit up. -/
def Frac.fitFrom (x : Frac) : Nat → Int → Int
  | 0, t => t
  | n + 1, t => if x.ceilAt t ≤ 15 then t else x.fitFrom n (t + 1)

def Frac.fit (x : Frac) (lo : Int) : Int :=
  let t := msbAt x.num x.e - msbAt x.den 0 - 6
  x.fitFrom 12 (max lo t)

/-- ⌊log2⌋ of a positive fraction. -/
def Frac.msb (x : Frac) : Int :=
  let t := msbAt x.num x.e - msbAt x.den 0 - 1
  if 2 * x.den ≤ (Frac.mk x.num 1 x.e).ceilAt t ∧ x.den * 2 ≤ (x.num * 2 ^ (x.e - t).toNat) then t + 1 else t

/-- A value moved to a higher window exponent, truncated toward zero, and what is lost of it (R212). -/
def laccShift (v : Int) (d : Nat) : Int × Nat :=
  let q := v.natAbs / 2 ^ d
  (if v < 0 then -(q : Int) else q, v.natAbs % 2 ^ d)

/-- A bound stored upward at an element's window (R213); the window rises where BE would pass 127. -/
def boundStore (e : LaccE) (y : Frac) : Nat → LaccE × MFlags × Bool
  | 0 => (e, mNone, false)
  | n + 1 =>
    if y.num = 0 then ({ e with bm := 0, be := 0 }, mNone, false)
    else
      let t := y.fit (e.l - 128)
      let be := t - e.l
      if be ≤ 127 then ({ e with bm := y.ceilAt t, be := be }, mNone, false)
      else
        let l' := e.l + (be - 127)
        if 2046 < l' then (e, mWIN.join mOVF, true)
        else
          let (v, lost) := laccShift e.v (be - 127).toNat
          let (e', f, inf) := boundStore { e with v := v, l := l' } (y.add ⟨lost, 1, e.l⟩) n
          (e', (f.join mWIN).join (mIf (lost != 0) mLOST), inf)

/-- The bound of an element. -/
def LaccE.bound (e : LaccE) : Frac := ⟨e.bm, 1, e.l + e.be⟩

/-- `bound_add` (R213); the last component says that the window passed its top. -/
def boundAdd (e : LaccE) (z : Frac) : LaccE × MFlags × Bool := boundStore e (e.bound.add z) 4

/-- `bound_add` of what a chunk leaves out: before any nonzero contribution the bound places the window (R213). -/
def boundPlace (e : LaccE) (z : Frac) : LaccE × MFlags × Bool :=
  boundAdd (if e.v = 0 ∧ e.bm = 0 ∧ z.num ≠ 0 then { e with l := max (z.msb - 94) (-2048) } else e) z

/-- `lacc_add` of an exact nonzero n × 2^q (R212). The last component is the infinity that the element becomes: 0 none, 1 +∞, 2 −∞. -/
def laccAdd (e : LaccE) (n : Int) (q : Int) : LaccE × MFlags × Nat :=
  let e := if e.v = 0 ∧ e.bm = 0 then { e with l := max (msbAt n.natAbs q - 94) (-2048) } else e
  let u := min e.l q
  let sum : Int := e.v * 2 ^ (e.l - u).toNat + n * 2 ^ (q - u).toNat
  let lim : Nat := 2 ^ (e.l + 103 - u).toNat
  let out := decide (sum < -(lim : Int)) || decide ((lim : Int) ≤ sum)
  let l' := if out then msbAt sum.natAbs u - 94 else e.l
  if 2046 < l' then (e, mWIN.join mOVF, if sum < 0 then 2 else 1)
  else
    let (e, f, inf) := if out then (let r := boundStore { e with v := 0, l := l' } e.bound 4; (r.1, r.2.1.join mWIN, r.2.2)) else (e, mNone, false)
    let (v, lost) := if u ≤ e.l then laccShift sum (e.l - u).toNat else (sum * 2 ^ (u - e.l).toNat, 0)
    let (e, f2, inf2) := boundAdd { e with v := v } ⟨lost, 1, u⟩
    (e, (f.join f2).join (mIf (lost != 0) mLOST), if inf || inf2 then (if sum < 0 then 2 else 1) else 0)

/-- An exact finite value entering a LACC element: the window placed from its own msb (R225). -/
def laccEnter (neg : Bool) (m : Nat) (q : Int) : LaccE :=
  if m = 0 then ⟨0, -2048, 0, 0⟩
  else
    let l := max (msbAt m q - 94) (-2048)
    ⟨fvInt neg (if l ≤ q then m * 2 ^ (q - l).toNat else m / 2 ^ (l - q).toNat), l, 0, 0⟩

/-! ### Element types (R197) -/

/-- Bits of an element type. -/
def etBits (t : Nat) : Nat :=
  match t with | 0 | 1 | 2 | 3 => 8 | 4 => 4 | 6 | 7 => 16 | 8 | 0xA => 32 | 9 => 64 | _ => 128
/-- The floating-point format of an element type. -/
def etFmt (t : Nat) : Option Fmt :=
  match t with | 2 => some .e4m3 | 3 => some .e5m2 | 4 => some .e2m1 | 6 => some .bf16 | 7 => some .f16 | 8 => some .f32 | 9 => some .f64 | _ => none

/-- An operand element flushed under its class, and decoded; whether a flush happened (R206, R208). -/
def matElem (t ctl x : Nat) : FVal × Bool :=
  match etFmt t with
  | some f => let (y, fl) := f.flushIn ctl x; (f.decode y, fl != 0)
  | none => let i := if t = 1 then (x % 256 : Int) else sextN 8 x; (.fin (decide (i < 0)) i.natAbs 0, false)

/-! ### Side classes (R215) -/

/-- A value's class: 0 finite, 1 +∞, 2 −∞, 3 NaN. -/
def sideOf (a : FVal) : Nat := match a with | .nan .. => 3 | .inf n => if n then 2 else 1 | .fin .. => 0
/-- The IEEE sum of two classes. -/
def sideSum (a b : Nat) : Nat := if a = 0 then b else if b = 0 then a else if a = b then a else 3
/-- The class of a product. -/
def sideMul (a b : FVal) : Nat :=
  if sideOf a = 3 ∨ sideOf b = 3 then 3
  else if sideOf a = 0 ∧ sideOf b = 0 then 0
  else if a.isZero ∨ b.isZero then 3
  else if a.neg != b.neg then 2 else 1

/-! ### The narrow path -/

/-- A term of a narrow sum: two values whose product enters it. -/
abbrev Term := FVal × FVal

/-- Row 1: one chunk into an i32 element (R205). -/
def narrowInt (acc : Nat) (ts : List Term) : Nat × MFlags :=
  let s := ts.foldl (fun n t => match t with
    | (.fin x a _, .fin y b _) => n + fvInt x a * fvInt y b
    | _ => n) (0 : Int)
  let t := sextN 32 acc + s
  (wrapI 32 t, mIf (decide (t < -(2 ^ 31)) || decide ((2 ^ 31 : Int) ≤ t)) (mOVF.join mLOST))

/-- The product of two finite values as sign, significand and exponent. -/
def finMul (a b : FVal) : Bool × Nat × Int :=
  match a, b with | .fin x m e, .fin y n d => (x != y, m * n, e + d) | _, _ => (false, 0, 0)

/-- Rows 2 to 4: one chunk into an f32 element (R206). -/
def narrowF32 (acc : Nat) (ts : List Term) : Nat × MFlags :=
  let a := Fmt.f32.decode acc
  let cls := ts.foldl (fun c t => sideSum c (sideMul t.1 t.2)) (sideOf a)
  if cls = 3 then (Fmt.f32.nanBits, mSPEC)
  else if cls != 0 then (Fmt.f32.infSigned (cls == 2), mSPEC)
  else
    let ps := (match a with | .fin x m e => [(x, m, e)] | _ => []) ++ ts.map (fun t => finMul t.1 t.2)
    let q := ps.foldl (fun q p => min q p.2.2) 0
    let sum := ps.foldl (fun n p => n + fvAt p.1 p.2.1 p.2.2 q) (0 : Int)
    if sum = 0 then (Fmt.f32.zeroBits (ps.all (fun p => p.1 && p.2.1 == 0)), mNone)
    else
      let r := roundFmt .f32 .rne false (decide (sum < 0)) sum.natAbs q
      (r.bits, (mIf (r.flags &&& .ix != 0) mLOST).join (mIf (r.flags &&& .ofl != 0) mOVF))

/-! ### Slicing -/

/-- The smallest E with |x| < 2^E for every finite element; none where all are zero (R208). -/
def blockExp (l : List FVal) : Option Int :=
  l.foldl (fun m x => match x with
    | .fin _ 0 _ => m
    | .fin _ n e => some (match m with | some k => max k (msbAt n e + 1) | none => msbAt n e + 1)
    | _ => m) none

/-- Digit i of an element under a block exponent (R209). -/
def digitOf (x : FVal) (e : Int) (i : Nat) : Int :=
  match x with
  | .fin neg m q =>
    let k := q - e + 7 * (i + 1)
    fvInt neg ((if 0 ≤ k then m * 2 ^ k.toNat else m / 2 ^ (-k).toNat) % 128)
  | _ => 0

def digitsOf (x : FVal) (e : Int) (s : Nat) : List Int := (List.range s).map (digitOf x e)

/-- The tail beyond s digits is zero. -/
def exactIn (x : FVal) (e : Int) (s : Nat) : Bool :=
  match x with
  | .fin _ m q => let k := q - e + 7 * s; decide (0 ≤ k) || m % 2 ^ (-k).toNat == 0
  | _ => true

/-- A row's or column's chunk sliced: its elements unflushed, block exponent, digits by element, whether every element is exact, the
number of digits up to the highest nonzero one, and the conditions met. -/
structure Sliced where
  raw : List FVal
  e : Int
  none_ : Bool
  digits : List (List Int)
  exact : Bool
  used : Nat
  deriving DecidableEq, Repr

/-- The number of digits up to the highest nonzero one of a list. -/
def usedDigits (ds : List (List Int)) (s : Nat) : Nat :=
  (List.range s).foldl (fun u i => if ds.any (fun d => (d[i]?).getD 0 != 0) then i + 1 else u) 0

def sliceChunk (t ctl s : Nat) (xs : List Nat) : Sliced × MFlags :=
  let fl := xs.map (matElem t ctl)
  let raw := xs.map (fun x => (matElem t 0 x).1)
  let vs := fl.map (fun p => match p.1 with | .fin n m e => FVal.fin n m e | _ => .fin false 0 0)
  let subn := mIf (fl.any (·.2)) mSUBN
  match blockExp vs with
  | none => (⟨raw, 0, true, vs.map (fun _ => List.replicate s 0), true, 0⟩, subn)
  | some e =>
    let ds := vs.map (fun v => digitsOf v e s)
    let below := (vs.zip ds).any (fun p => !p.1.isZero && p.2.all (· == 0))
    (⟨raw, e, false, ds, vs.all (fun v => exactIn v e s), usedDigits ds s⟩, subn.join (mIf below mBELOW))

/-- The product set (R210). -/
def inSet (ps s i j : Nat) : Bool := match ps with | 0 => decide (i + j + 1 ≤ s) | 1 => decide (i + j ≤ s) | _ => true

/-- The digit pairs in the order of the passes: for each j, its A digits ascending (R210, R211). -/
def passOrder (ps s : Nat) : List (Nat × Nat) :=
  (List.range s).flatMap (fun j => ((List.range s).filter (fun i => inSet ps s i j)).map (fun i => (i, j)))

/-- C(PS, s) as a fraction (R211). -/
def boundConst (ps s : Nat) (e : Int) : Frac :=
  match ps with | 0 => ⟨16 * (s + 1), 1, e⟩ | 1 => ⟨32 * 127 + 16 * (s + 2), 127, e⟩ | _ => ⟨32, 1, e⟩

/-- An element of a `lacc` tile: its value and side class. -/
abbrev LElem := LaccE × Nat

/-- One chunk of a sliced multiply into one element (R211, R215, R233): an element that holds or takes a side class keeps its value and bound,
which are not used; a chunk that is not exact clears EXACT in either case. (DEDUCED: log 39) A zero row against an infinity sets the side class, and a bound that
rises past the window over a value of 0 gives the positive infinity. (DESIGN CHOICE: log 77) -/
def slicedChunk (ps s : Nat) (e : LElem) (a b : Sliced) : LElem × MFlags :=
  let cls := sideSum e.2 ((a.raw.zip b.raw).foldl (fun c t => sideSum c (sideMul t.1 t.2)) 0)
  let spec := mIf (cls != 0) mSPEC
  let exact := a.exact && b.exact && (a.used == 0 || b.used == 0 || inSet ps s (a.used - 1) (b.used - 1))
  let lost := mIf (!exact) mLOST
  if a.none_ || b.none_ then ((e.1, cls), spec)
  else if cls != 0 then ((e.1, cls), spec.join lost)
  else
    let at_ (d : List Int) (i : Nat) : Int := (d[i]?).getD 0
    let step (r : LaccE × MFlags × Nat) (p : Nat × Nat) : LaccE × MFlags × Nat :=
      if r.2.2 != 0 then r
      else
        let n := (a.digits.zip b.digits).foldl (fun n t => n + at_ t.1 p.1 * at_ t.2 p.2) (0 : Int)
        if n = 0 then r
        else let (x, f, inf) := laccAdd r.1 n (a.e + b.e - 7 * (p.1 + p.2 + 2)); (x, r.2.1.join f, inf)
    let (x, f, inf) := (passOrder ps s).foldl step (e.1, mNone, 0)
    if inf != 0 then ((x, inf), f.join lost)
    else if exact then ((x, 0), f)
    else
      let (x, f2, inf) := boundPlace x (boundConst ps s (a.e + b.e - 7 * s))
      ((x, if inf then (if x.v < 0 then 2 else 1) else 0), (f.join f2).join lost)

/-! ### Entering and leaving a slot -/

/-- The side class of a raw element with W = 0xFFF (R225). -/
def rawSide (x : Nat) : Nat := if fldN x 104 12 = 0xFFF then (let k := x % 4; if k = 0 then 3 else k) else 0
/-- A raw element as written with a side class (R216). -/
def rawOf (e : BitVec 128) (side : Nat) : Nat := if side = 0 then e.toNat else 0xFFF <<< 104 + side

/-- An element entering a slot (R225): its pattern there, its side class, the conditions met. -/
def enterElem (et tacc x : Nat) : BitVec 128 × Nat × MFlags :=
  let spec (f : Fmt) (y : Nat) : MFlags := mIf (sideOf (f.decode y) != 0) mSPEC
  match tacc, etFmt et with
  | 0xB, some f =>
    match f.decode x with
    | .fin n m q => (laccBits (laccEnter n m q), 0, mNone)
    | v => (0, sideOf v, mSPEC)
  | 0xB, none => let k := rawSide x; (if k = 0 then BitVec.ofNat 128 x else 0, k, mIf (k != 0) mSPEC)
  | 8, some f =>
    if f = .f32 then (BitVec.ofNat 128 x, 0, spec .f32 x)
    else
      match f.decode x with
      | .fin n m q => (BitVec.ofNat 128 (if m = 0 then Fmt.f32.zeroBits n else (roundFmt .f32 .rne false n m q).bits), 0, mNone)
      | .inf n => (BitVec.ofNat 128 (Fmt.f32.infSigned n), 0, mSPEC)
      | .nan n _ t => (BitVec.ofNat 128 (Fmt.f32.nanFrom n t).1, 0, mSPEC)
  | _, _ => (BitVec.ofNat 128 x, 0, mNone)

/-- ⌈log2 x⌉ of a positive fraction. -/
def Frac.clog (x : Frac) : Int := let k := x.msb; if x.ceilAt k ≤ 1 then k else k + 1

/-- A `lacc` element leaving as a floating-point type (R216). -/
def leaveLacc (f : Fmt) (ctl : Nat) (r : Rnd) (e : LaccE) (side : Nat) : Nat × MFlags :=
  if side = 3 then (f.nanBits, mSPEC)
  else if side != 0 then (f.infSigned (side == 2), mSPEC)
  else
    let y := (if e.v = 0 then (f.zeroBits (r == .rdn), (0 : FFlags)) else roundFlush f ctl r false (decide (e.v < 0)) e.v.natAbs e.l).1
    let lost := mIf (e.bm != 0) mLOST
    match f.decode y with
    | .fin n m q =>
      let u := min q e.l
      let d := (fvAt n m q u - fvAt (decide (e.v < 0)) e.v.natAbs e.l u).natAbs
      let b := e.bound.add ⟨d, 1, u⟩
      (y, lost.join ⟨0, if b.num = 0 then none else some b.clog⟩)
    | _ => (y, (lost.join mOVF).join ⟨0, some 0x7FFF⟩)

/-- An element leaving a slot (R216). -/
def leaveElem (et tacc ctl : Nat) (r : Rnd) (sat : Bool) (x : BitVec 128) (side : Nat) : Nat × MFlags :=
  match tacc, etFmt et with
  | 0xB, some f => leaveLacc f ctl r (laccOf x) side
  | 0xB, none => (rawOf x side, mIf (side != 0) mSPEC)
  | 8, some f =>
    let v := Fmt.f32.decode x.toNat
    if f = .f32 then (x.toNat, mIf (sideOf v != 0) mSPEC)
    else
      match v with
      | .nan n _ t => ((f.nanFrom n t).1, mSPEC)
      | .inf n => if f = .e4m3 then (if sat then f.zeroBits n + f.maxBits else f.nanBits, mSPEC.join (mIf sat mOVF)) else (f.infSigned n, mSPEC)
      | .fin n m q =>
        if m = 0 then (f.zeroBits n, mNone)
        else let r := roundFlush f ctl r sat n m q; (r.1, mIf (r.2 &&& .ofl != 0) mOVF)
  | _, _ =>
    if et = 0xA then (x.toNat, mNone)
    else
      let i := sextN 32 x.toNat
      let (lo, hi) : Int × Int := if et = 0 then (-128, 127) else (0, 255)
      if sat then (wrapI 8 (max lo (min hi i)), mIf (decide (i < lo) || decide (hi < i)) mOVF) else (wrapI 8 i, mNone)

end Sys2Proof.Machine
end

