-- ==== Sys2Proof/Syntax.lean ====
section
/-! DEFINITION. The syntax of the machine's steps: operands, instruction frames and one constructor of `Instr` for each
row of the table of operations and events (chapters 01 and 95). Instructions carry their fields with the operand codes
already turned into constructors; the other agents' steps carry the data that says what they act on. -/
namespace Sys2Proof

/-- The special sources of R23, in the order of their codes from 0x144. -/
inductive Special where
  | laneid | grpid | teamid | clrank | vcore | lcore | dispid | taskid | seedLo | seedHi | gwidth | tgrps | clid | ncl
  | clsize | nvcore | amaskLo | amaskHi | targLo | targHi | tcrdLo | tcrdHi | taskidHi
  deriving DecidableEq, Repr

/-- The operand codes of R22 that are not reserved. -/
inductive Opnd where
  /-- v0-v255, codes 0x000-0x0FF -/
  | v (n : BitVec 8)
  /-- k0-k63, codes 0x100-0x13F -/
  | k (n : BitVec 6)
  /-- b0-b3, codes 0x140-0x143 -/
  | b (n : BitVec 2)
  /-- special sources, codes 0x144-0x15A -/
  | sp (s : Special)
  /-- inline integers 0-63, codes 0x180-0x1BF -/
  | imm (n : BitVec 6)
  /-- FP constants of R25, codes 0x1C0-0x1DF -/
  | fpc (n : BitVec 5)
  deriving DecidableEq, Repr

/-- The fields of an F word but its opcode (R13). -/
structure FWord where
  hold : Bool
  mod : BitVec 10
  pred : BitVec 4
  sc : Opnd
  sb : Opnd
  sa : Opnd
  nwb : Bool
  dst : Opnd
  deriving DecidableEq, Repr

/-- The fields of an X instruction but its opcode (R20); `modb` is MODB, bits 63:2 of the tail. -/
structure XWord where
  moda : BitVec 12
  pred : BitVec 4
  sc : Opnd
  sb : Opnd
  sa : Opnd
  dst : Opnd
  modb : BitVec 62
  deriving DecidableEq, Repr

/-- The P operations of R19. -/
inductive POp where
  | iadd | isub | imul | imin | imax | nmin | nmax | and | or | xor | shl | shr | sar | mov | not
  | fadd | fmul | fmin | fmax | faddH | fmulH | faddB | fmulB | fminH | fmaxH
  deriving DecidableEq, Repr

/-- One half of a P word (R17). -/
structure PHalf where
  op : POp
  sb : BitVec 8
  sa : BitVec 8
  dst : BitVec 8
  deriving DecidableEq, Repr

/-- A P word (R17): half 0 and half 1. -/
structure PWord where
  h0 : PHalf
  h1 : PHalf
  deriving DecidableEq, Repr

/-- The atomic operations of R301, in the order of their codes. -/
inductive AtomOp where
  | add | min | max | and | or | xor | exch | cas | inc | dec | fadd | fmin | fmax
  deriving DecidableEq, Repr

/-- The types of R300, in the order of their codes. -/
inductive AtomTy where
  | i32 | n32 | i64 | n64 | f32 | f64
  deriving DecidableEq, Repr

/-- An access that reaches a die's sampler (R90). `ty`: 0 load, 1 store, 2 atomic, 3 engine read, 4 engine write, 5 fetch. -/
structure SampledAccess where
  va : Nat
  lcore : Nat
  ty : Nat
  asid : Nat
  deriving DecidableEq, Repr

/-- The two inner edges of a die (R49). -/
inductive Edge where
  | a | b
  deriving DecidableEq, Repr

/-- What another rank of a device group brings to a collective (R120, R121): its command's fields and its source bytes. -/
structure CollPeer where
  op : Nat
  red : Nat
  ty : Nat
  count : Nat
  data : List Byte
  deriving DecidableEq, Repr

/-- What waits for room in a task ring (R354, R356). -/
inductive RingWaiter where
  | group (grp : Nat)
  | node (k : Nat)
  deriving DecidableEq, Repr

/-- The clusters that a request of pre-emption covers (R393). -/
inductive PreemptScope where
  | all
  | core (core : Nat)
  | die (die : Nat)
  deriving DecidableEq, Repr

/-- The die units of R399. -/
inductive DieUnit where
  | tape | equinox | dicing | sampling | collective | firstTouch | sampler
  deriving DecidableEq, Repr

/-- A unit under self-test (R399): a core by its number, one way of a slice, or a die unit. -/
inductive TestUnit where
  | core (core : Nat)
  | sliceWay (slice way : Nat)
  | dieUnit (die : Nat) (u : DieUnit)
  deriving DecidableEq, Repr

/-- The queues that records and notifications are posted to (R83, R91, R386, R408). -/
inductive PostQueue where
  | sysnq | sysfq
  | host (queue : Nat)
  | hotPage (die : Nat)
  deriving DecidableEq, Repr

/-- What PARTCREATE fixes (R409, R410, R416). -/
structure PartSpec where
  dies : List Nat
  hbmStacks : List Nat
  chanImage : Option (List Nat)
  pbase : Nat
  slices : List Nat
  sliceImage : Option (List Nat)
  lent : List Nat
  expBase : Nat
  expLen : Nat
  deriving DecidableEq, Repr

/-- A performance counter of a die (R415). -/
inductive DieCounter where
  | redirect | issue | packed | edgeA | edgeB
  deriving DecidableEq, Repr

/-- An access of the companion processor (R404) or of another device (R410), indivisible at its place of execution; the companion processor also
reads over the management channel. -/
inductive HostOp where
  | load | store
  | atomic (op : AtomOp) (ty : AtomTy)
  /-- a read of CAPPTR, and one of the capability region (R413) -/
  | capptr | region
  /-- a read of a counter of the die that `addr` numbers (R415) -/
  | counter (c : DieCounter)
  deriving DecidableEq, Repr

/-- Such an access: `addr` is a physical address (R404), an offset in the exported range (R410), or of the management channel's space. -/
structure HostAccess where
  op : HostOp
  addr : Nat
  size : Nat
  value : DWord
  cmp : DWord
  deriving DecidableEq, Repr

/-- A 64-bit word of an array that carries the code of R397. -/
inductive ArrayLoc where
  /-- a word of main memory or of the slice that holds it, by its place (`Machine/Mem.lean`) -/
  | mem (place : Nat)
  /-- a word of a core's local memory, by its byte offset -/
  | lmem (core off : Nat)
  /-- a v register of a lane of a group -/
  | reg (grp lane r : Nat)
  /-- an element of an accumulator slot -/
  | acc (core slot elem : Nat)
  /-- a word of a core's network slab -/
  | slab (core net word : Nat)
  /-- a unit of a die's tape store -/
  | tape (die idx : Nat)
  /-- a word of a die's Equinox SRAM -/
  | equinox (die word : Nat)
  deriving DecidableEq, Repr

/-- One constructor for each row of the table of operations and events. -/
inductive Instr where
  /-- `ISSUE` (R330). -/
  | issue (core sector : Nat)
  /-- `AGING` (R330). -/
  | aging (grp : Nat)
  /-- `P_WORD` (R18). -/
  | pWord (p : PWord)
  /-- `iadd` (R163). -/
  | iadd (f : FWord)
  /-- `isub` (R163). -/
  | isub (f : FWord)
  /-- `iadd3` (R163). -/
  | iadd3 (f : FWord)
  /-- `imul` (R163). -/
  | imul (f : FWord)
  /-- `imulhi` (R163). -/
  | imulhi (f : FWord)
  /-- `imad` (R163). -/
  | imad (f : FWord)
  /-- `imadw` (R163). -/
  | imadw (f : FWord)
  /-- `imin` (R163). -/
  | imin (f : FWord)
  /-- `imax` (R163). -/
  | imax (f : FWord)
  /-- `iabs` (R163). -/
  | iabs (f : FWord)
  /-- `ineg` (R163). -/
  | ineg (f : FWord)
  /-- `and` (R164). -/
  | and (f : FWord)
  /-- `or` (R164). -/
  | or (f : FWord)
  /-- `xor` (R164). -/
  | xor (f : FWord)
  /-- `not` (R164). -/
  | not (f : FWord)
  /-- `lfn3` (R164). -/
  | lfn3 (f : FWord)
  /-- `shl` (R165). -/
  | shl (f : FWord)
  /-- `shr` (R165). -/
  | shr (f : FWord)
  /-- `sar` (R165). -/
  | sar (f : FWord)
  /-- `fsh` (R165). -/
  | fsh (f : FWord)
  /-- `fext` (R166). -/
  | fext (f : FWord)
  /-- `fdep` (R166). -/
  | fdep (f : FWord)
  /-- `bsel` (R166). -/
  | bsel (f : FWord)
  /-- `popc` (R167). -/
  | popc (f : FWord)
  /-- `clz` (R167). -/
  | clz (f : FWord)
  /-- `ctz` (R167). -/
  | ctz (f : FWord)
  /-- `brev` (R167). -/
  | brev (f : FWord)
  /-- `sel` (R168). -/
  | sel (f : FWord)
  /-- `icmp` (R169). -/
  | icmp (f : FWord)
  /-- `setp` (R170). -/
  | setp (f : FWord)
  /-- `mov` (R171). -/
  | mov (f : FWord)
  /-- `li` (R171). -/
  | li (x : XWord)
  /-- `lea` (R171). -/
  | lea (f : FWord)
  /-- `rand` (R172). -/
  | rand (f : FWord)
  /-- `fadd` (R174). -/
  | fadd (f : FWord)
  /-- `fsub` (R174). -/
  | fsub (f : FWord)
  /-- `fmul` (R174). -/
  | fmul (f : FWord)
  /-- `fma` (R174). -/
  | fma (f : FWord)
  /-- `fdiv` (R174). -/
  | fdiv (f : FWord)
  /-- `fsqrt` (R174). -/
  | fsqrt (f : FWord)
  /-- `fscale` (R174). -/
  | fscale (f : FWord)
  /-- `fround` (R174). -/
  | fround (f : FWord)
  /-- `fmin` (R175). -/
  | fmin (f : FWord)
  /-- `fmax` (R175). -/
  | fmax (f : FWord)
  /-- `fminx` (R175). -/
  | fminx (f : FWord)
  /-- `fmaxx` (R175). -/
  | fmaxx (f : FWord)
  /-- `fcmp` (R176). -/
  | fcmp (f : FWord)
  /-- `fclass` (R177). -/
  | fclass (f : FWord)
  /-- `frcp` (R178). -/
  | frcp (f : FWord)
  /-- `frsq` (R178). -/
  | frsq (f : FWord)
  /-- `fex2` (R178). -/
  | fex2 (f : FWord)
  /-- `flg2` (R178). -/
  | flg2 (f : FWord)
  /-- `fsin` (R178). -/
  | fsin (f : FWord)
  /-- `fcos` (R178). -/
  | fcos (f : FWord)
  /-- `cvt` (R180). -/
  | cvt (x : XWord)
  /-- `mxscale` (R181). -/
  | mxscale (f : FWord)
  /-- `shfl` (R183). -/
  | shfl (f : FWord)
  /-- `vote` (R184). -/
  | vote (f : FWord)
  /-- `match` (R185). -/
  | matchLanes (f : FWord)
  /-- `elect` (R185). -/
  | elect (f : FWord)
  /-- `lred` (R186). -/
  | lred (f : FWord)
  /-- `lscan` (R186). -/
  | lscan (f : FWord)
  /-- `bra` (R188). -/
  | bra (x : XWord)
  /-- `brx` (R188). -/
  | brx (f : FWord)
  /-- `call` (R188). -/
  | call (x : XWord)
  /-- `ret` (R188). -/
  | ret (f : FWord)
  /-- `exit` (R189). -/
  | exit (f : FWord)
  /-- `yield` (R190). -/
  | yield (f : FWord)
  /-- `nap` (R192). -/
  | nap (f : FWord)
  /-- `NAP_EXPIRY` (R192). -/
  | napExpiry (grp lane : Nat)
  /-- `trap` (R193). -/
  | trap (f : FWord)
  /-- `brk` (R193). -/
  | brk (f : FWord)
  /-- `ld.l` (R137). -/
  | ldL (f : FWord)
  /-- `ld.lp` (R137). -/
  | ldLp (f : FWord)
  /-- `ld.g` (R137). -/
  | ldG (f : FWord)
  /-- `ld.c` (R137). -/
  | ldC (f : FWord)
  /-- `st.l` (R138). -/
  | stL (f : FWord)
  /-- `st.lp` (R138). -/
  | stLp (f : FWord)
  /-- `st.g` (R138). -/
  | stG (f : FWord)
  /-- `prf` (R144). -/
  | prf (f : FWord)
  /-- `rgrow` (R128). -/
  | rgrow (f : FWord)
  /-- `RGROW_GRANT` (R130). -/
  | rgrowGrant (grp : Nat)
  /-- `rshrink` (R129). -/
  | rshrink (f : FWord)
  /-- `segld` (R75). -/
  | segld (f : FWord)
  /-- `LOAD_REPLY` (R419). -/
  | loadReply (grp seq : Nat) (errLanes : DWord)
  /-- `STORE_REGISTRATION_ACK` (R310). -/
  | storeRegistrationAck (grp seq : Nat) (err : Bool)
  /-- `PARKED_ACCESS_RESUME` (R95). -/
  | parkedAccessResume (grp : Nat)
  /-- `WINDOW_EVICTION` (R100). -/
  | windowEviction (core line : Nat)
  /-- `ACCESS_SAMPLE` (R90). -/
  | accessSample (die : Nat) (a : SampledAccess)
  /-- `HOT_PAGE_PENDING_POST` (R91). -/
  | hotPagePendingPost (die : Nat)
  /-- `SLICE_ACCESS` (R61). -/
  | sliceAccess (grp seq : Nat)
  /-- `SWEEP_WAIT_RELEASE` (R65). -/
  | sweepWaitRelease (grp seq : Nat)
  /-- `FLIT_CRC_RESEND` (R52). -/
  | flitCrcResend (die : Nat) (edge : Edge) (module : Nat) (ok : Bool)
  /-- `MODULE_RETRAIN` (R52). -/
  | moduleRetrain (die : Nat) (edge : Edge) (module : Nat) (trained : Bool)
  /-- `MODULE_DISABLE` (R52). -/
  | moduleDisable (die : Nat) (edge : Edge) (module : Nat)
  /-- `ATOMIC_RETURN` (R317). -/
  | atomicReturn (grp seq : Nat) (errLanes : DWord)
  /-- `atom` (R302). -/
  | atom (x : XWord)
  /-- `red` (R302). -/
  | red (x : XWord)
  /-- `atom.agg` (R303). -/
  | atomAgg (x : XWord)
  /-- `ldx` (R307). -/
  | ldx (f : FWord)
  /-- `stx` (R307). -/
  | stx (f : FWord)
  /-- `ld.acq` (R307). -/
  | ldAcq (f : FWord)
  /-- `st.rel` (R307). -/
  | stRel (f : FWord)
  /-- `fence.acq` (R309). -/
  | fenceAcq (f : FWord)
  /-- `fence.rel` (R309). -/
  | fenceRel (f : FWord)
  /-- `fence.ar` (R309). -/
  | fenceAr (f : FWord)
  /-- `dro.add` (R305). -/
  | droAdd (x : XWord)
  /-- `dro.get` (R306). -/
  | droGet (x : XWord)
  /-- `cp.g2l` (R113). -/
  | cpG2l (x : XWord)
  /-- `cp.l2g` (R113). -/
  | cpL2g (x : XWord)
  /-- `cp.g2g` (R113). -/
  | cpG2g (x : XWord)
  /-- `cp.l2l` (R113). -/
  | cpL2l (x : XWord)
  /-- `cp.t2l` (R117). -/
  | cpT2l (x : XWord)
  /-- `cp.l2t` (R117). -/
  | cpL2t (x : XWord)
  /-- `COPY_ENGINE_PERFORM` (R113). -/
  | copyEnginePerform (cmd : Nat)
  /-- `ENGINE_QUEUE_ROOM` (R109). -/
  | engineQueueRoom (grp : Nat)
  /-- `coll` (R120). -/
  | coll (x : XWord)
  /-- `COLL_START` (R121). -/
  | collStart (cmd : Nat) (peers : List CollPeer)
  /-- `bar.init` (R107). -/
  | barInit (x : XWord)
  /-- `bar.arrive` (R107). -/
  | barArrive (x : XWord)
  /-- `bar.expect` (R107). -/
  | barExpect (x : XWord)
  /-- `bar.wait` (R107). -/
  | barWait (x : XWord)
  /-- `bar.test` (R107). -/
  | barTest (f : FWord)
  /-- `bar.inval` (R107). -/
  | barInval (x : XWord)
  /-- `pres.q` (R97). -/
  | presQ (f : FWord)
  /-- `pres.f` (R97). -/
  | presF (f : FWord)
  /-- `pres.clr` (R97). -/
  | presClr (f : FWord)
  /-- `wmap` (R102). -/
  | wmap (x : XWord)
  /-- `wunmap` (R102). -/
  | wunmap (x : XWord)
  /-- `wflush` (R102). -/
  | wflush (x : XWord)
  /-- `qfence` (R110). -/
  | qfence (x : XWord)
  /-- `mma` (R220). -/
  | mma (x : XWord)
  /-- `mma.sp` (R221). -/
  | mmaSp (x : XWord)
  /-- `mma.t` (R222). -/
  | mmaT (x : XWord)
  /-- `ARRAY_PERFORM` (R194). -/
  | arrayPerform (core : Nat)
  /-- `azero` (R223). -/
  | azero (f : FWord)
  /-- `aload` (R225). -/
  | aload (x : XWord)
  /-- `astore` (R225). -/
  | astore (x : XWord)
  /-- `aread` (R225). -/
  | aread (x : XWord)
  /-- `awrite` (R225). -/
  | awrite (x : XWord)
  /-- `omap` (R228). -/
  | omap (x : XWord)
  /-- `thdl` (R228). -/
  | thdl (x : XWord)
  /-- `mst.rd` (R227). -/
  | mstRd (f : FWord)
  /-- `mst.clr` (R227). -/
  | mstClr (f : FWord)
  /-- `rq.init` (R254). -/
  | rqInit (x : XWord)
  /-- `rq.run` (R255). -/
  | rqRun (x : XWord)
  /-- `rq.acc` (R256). -/
  | rqAcc (f : FWord)
  /-- `rq.rej` (R256). -/
  | rqRej (f : FWord)
  /-- `rq.get` (R257). -/
  | rqGet (f : FWord)
  /-- `rq.set` (R257). -/
  | rqSet (f : FWord)
  /-- `rq.end` (R257). -/
  | rqEnd (f : FWord)
  /-- `dice` (R263). -/
  | dice (x : XWord)
  /-- `grid.emit` (R268). -/
  | gridEmit (x : XWord)
  /-- `smp.begin` (R265). -/
  | smpBegin (x : XWord)
  /-- `smp.end` (R265). -/
  | smpEnd (x : XWord)
  /-- `smp.res` (R273). -/
  | smpRes (x : XWord)
  /-- `stat.rd` (R274). -/
  | statRd (f : FWord)
  /-- `BIN_ACTIVATE` (R270). -/
  | binActivate (sid bin : Nat)
  /-- `BIN_DONE` (R271). -/
  | binDone (sid bin : Nat)
  /-- `rcq` (R286). -/
  | rcq (x : XWord)
  /-- `rct` (R286). -/
  | rct (x : XWord)
  /-- `RCT_OFFER` (R288). -/
  | rctOffer (grp : Nat)
  /-- `rc.sync` (R292). -/
  | rcSync (x : XWord)
  /-- `EQUINOX_TRAIN` (R289). -/
  | equinoxTrain (net : Nat)
  /-- `EQUINOX_STEP` (R291). -/
  | equinoxStep (net : Nat)
  /-- `PUBLICATION` (R284). -/
  | publication (net : Nat)
  /-- `rc.cfg.attach` (R293). -/
  | rcCfgAttach (x : XWord)
  /-- `rc.cfg.detach` (R293). -/
  | rcCfgDetach (x : XWord)
  /-- `rc.cfg.stat` (R293). -/
  | rcCfgStat (x : XWord)
  /-- `launch` (R358). -/
  | launch (x : XWord)
  /-- `spawn` (R354). -/
  | spawn (x : XWord)
  /-- `RING_ROOM_RESUME` (R354). -/
  | ringRoomResume (disp : Nat) (who : RingWaiter)
  /-- `task.end` (R347). -/
  | taskEnd (f : FWord)
  /-- `TASK_DELIVERY` (R346). -/
  | taskDelivery (grp : Nat)
  /-- `TASK_WDOG` (R350). -/
  | taskWdog (grp : Nat)
  /-- `coal.flush.now` (R357). -/
  | coalFlushNow (x : XWord)
  /-- `coal.flush.done` (R357). -/
  | coalFlushDone (x : XWord)
  /-- `coal.flush.prod` (R357). -/
  | coalFlushProd (x : XWord)
  /-- `NODE_FLUSH_TIMER` (R356). -/
  | nodeFlushTimer (disp node : Nat)
  /-- `NODE_RELEASE` (R356). -/
  | nodeRelease (disp node : Nat)
  /-- `tape.rec` (R362). -/
  | tapeRec (x : XWord)
  /-- `tape.stop` (R365). -/
  | tapeStop (f : FWord)
  /-- `tape.play` (R366). -/
  | tapePlay (x : XWord)
  /-- `tape.patch.slot` (R365). -/
  | tapePatchSlot (x : XWord)
  /-- `tape.patch` (R365). -/
  | tapePatchGuard (x : XWord)
  /-- `tape.drop` (R365). -/
  | tapeDrop (x : XWord)
  /-- `cv.sign` (R336). -/
  | cvSign (f : FWord)
  /-- `cv.wait` (R336). -/
  | cvWait (f : FWord)
  /-- `bar.team` (R337). -/
  | barTeam (f : FWord)
  /-- `bar.cl` (R337). -/
  | barCl (f : FWord)
  /-- `prio.set` (R339). -/
  | prioSet (f : FWord)
  /-- `loc` (R67). -/
  | loc (f : FWord)
  /-- `sysrd` (R382). -/
  | sysrd (f : FWord)
  /-- `syswr` (R382). -/
  | syswr (f : FWord)
  /-- `REGISTER_WRITE` (R382). -/
  | registerWrite (grp sreg index : Nat) (value : DWord)
  /-- `SEED_WRITE` (R323). -/
  | seedWrite (value : DWord)
  /-- `PRIO_WRITE` (R382). -/
  | prioWrite (grp : Nat) (value : Word)
  /-- `FANS_RETRY` (R386). -/
  | fansRetry (tag : Nat)
  /-- `FANS_DELIVER` (R386). -/
  | fansDeliver (tag : Nat)
  /-- `clk` (R382). -/
  | clk (f : FWord)
  /-- `tlbinv` (R86). -/
  | tlbinv (x : XWord)
  /-- `cwb` (R68). -/
  | cwb (x : XWord)
  /-- `cinv` (R68). -/
  | cinv (x : XWord)
  /-- `dom.sw` (R64). -/
  | domSw (x : XWord)
  /-- `route.sw` (R70). -/
  | routeSw (x : XWord)
  /-- `die.q` (R401). -/
  | dieQ (f : FWord)
  /-- `die.rst.frost` (R402). -/
  | dieRstFrost (x : XWord)
  /-- `DIE_QUIESCE` (R402). -/
  | dieQuiesce (die : Nat)
  /-- `die.rst.reset` (R402). -/
  | dieRstReset (x : XWord)
  /-- `DIE_RESET_DONE` (R400). -/
  | dieResetDone (die : Nat) (pass : Bool)
  /-- `die.rst.thaw` (R402). -/
  | dieRstThaw (x : XWord)
  /-- `iret` (R389). -/
  | iret (f : FWord)
  /-- `ctxsave.pre` (R391). -/
  | ctxsavePre (x : XWord)
  /-- `ctxsave.dump` (R391). -/
  | ctxsaveDump (x : XWord)
  /-- `ctxrest.load` (R391). -/
  | ctxrestLoad (x : XWord)
  /-- `ctxrest.resume` (R391). -/
  | ctxrestResume (x : XWord)
  /-- `ctxrest.end` (R391). -/
  | ctxrestEnd (x : XWord)
  /-- `smpcfg.conf` (R92). -/
  | smpcfgConf (x : XWord)
  /-- `smpcfg.ring` (R92). -/
  | smpcfgRing (x : XWord)
  /-- `smpcfg.ack` (R92). -/
  | smpcfgAck (x : XWord)
  /-- `smpcfg.reset` (R92). -/
  | smpcfgReset (x : XWord)
  /-- `smpcfg.stat` (R92). -/
  | smpcfgStat (x : XWord)
  /-- `DISPATCH_ACCEPT` (R321). -/
  | dispatchAccept (sub : Nat)
  /-- `LEASE_PREPARATION` (R82). -/
  | leasePreparation (disp : Nat)
  /-- `TEAM_LAUNCH` (R328). -/
  | teamLaunch (disp : Nat)
  /-- `GROUP_RETIRE` (R334). -/
  | groupRetire (grp : Nat)
  /-- `DISPATCH_END` (R349). -/
  | dispatchEnd (disp : Nat)
  /-- `PREEMPTION_REQUEST` (R393). -/
  | preemptionRequest (disp : Nat) (scope : PreemptScope)
  /-- `CLUSTER_SAVE` (R394). -/
  | clusterSave (disp clid : Nat)
  /-- `CLUSTER_RESUME` (R341). -/
  | clusterResume (disp clid : Nat)
  /-- `SELF_TEST_START` (R399). -/
  | selfTestStart (u : TestUnit)
  /-- `SELF_TEST_DONE` (R399). -/
  | selfTestDone (u : TestUnit) (pass : Bool)
  /-- `QUEUE_ROOM_POST` (R386). -/
  | queueRoomPost (q : PostQueue)
  /-- `QDOOR` (R405). -/
  | qdoor (queue : Nat) (t : DWord)
  /-- `DISPATCH` (R407). -/
  | dispatch (queue : Nat)
  /-- `HOST_TAPE_PLAY` (R406). -/
  | hostTapePlay (queue : Nat)
  /-- `SIGNAL` (R407). -/
  | signal (queue : Nat)
  /-- `WAIT` (R407). -/
  | wait (queue : Nat)
  /-- `WAIT_MET` (R407). -/
  | waitMet (queue : Nat)
  /-- `QCREATE` (R405). -/
  | qcreate (queue part : Nat) (descPa : DWord)
  /-- `PARTCREATE` (R409). -/
  | partcreate (spec : PartSpec)
  /-- `PARTDESTROY` (R409). -/
  | partdestroy (part : Nat)
  /-- `DEVNUM` (R410). -/
  | devnum (n : Nat)
  /-- `STATUS` (R411). -/
  | status
  /-- `ATTEST` (R412). -/
  | attest (nonce : BitVec 384)
  /-- `PCAP` (R414). -/
  | pcap (watts : Nat)
  /-- `HOST_COHERENT_ACCESS` (R404). -/
  | hostCoherentAccess (a : HostAccess)
  /-- `KFL_REMOTE_REQUEST` (R410). -/
  | kflRemoteRequest (part : Nat) (a : HostAccess)
  /-- `POWER_ON` (R411). -/
  | powerOn
  /-- `CLOCK_THROTTLE` (R414). -/
  | clockThrottle (num den : Nat)
  /-- `THERMAL_CRITICAL` (R414). -/
  | thermalCritical (die temp : Nat)
  /-- `SAVE_POOL_FRAMES_ARRIVE` (R396). -/
  | savePoolFramesArrive
  /-- `L1_EVICTION` (R311). -/
  | l1Eviction (core pa : Nat)
  /-- `SCRUBBER_PASS` (R397). -/
  | scrubberPass (loc : ArrayLoc)
  deriving DecidableEq, Repr

end Sys2Proof
end

