-- ==== Sys2Proof/Machine/Shape.lean ====
section
/-! DEFINITION. The shape of an instruction: what each operand field may hold, which registers it names, and the causes of R43
that its own words give. Each family's file states the shapes of its instructions with the words of this one. -/
namespace Sys2Proof.Machine

/-- A field of MOD (R13). -/
def fmod (f : FWord) (lo len : Nat) : Nat := fldN f.mod.toNat lo len

/-- A field of MODA (R20). -/
def xmod (x : XWord) (lo len : Nat) : Nat := fldN x.moda.toNat lo len

/-- A field of the tail by the bit positions of R20; MODB begins at bit 2. -/
def xtail (x : XWord) (lo len : Nat) : Nat := fldN x.modb.toNat (lo - 2) len

/-- The code of a special source (R23). -/
def specialCode : Special → Nat
  | .laneid => 0x144 | .grpid => 0x145 | .teamid => 0x146 | .clrank => 0x147 | .vcore => 0x148 | .lcore => 0x149
  | .dispid => 0x14A | .taskid => 0x14B | .seedLo => 0x14C | .seedHi => 0x14D | .gwidth => 0x14E | .tgrps => 0x14F
  | .clid => 0x150 | .ncl => 0x151 | .clsize => 0x152 | .nvcore => 0x153 | .amaskLo => 0x154 | .amaskHi => 0x155
  | .targLo => 0x156 | .targHi => 0x157 | .tcrdLo => 0x158 | .tcrdHi => 0x159 | .taskidHi => 0x15A

/-- The special sources in the order of their codes. -/
def specials : List Special :=
  [.laneid, .grpid, .teamid, .clrank, .vcore, .lcore, .dispid, .taskid, .seedLo, .seedHi, .gwidth, .tgrps, .clid, .ncl,
   .clsize, .nvcore, .amaskLo, .amaskHi, .targLo, .targHi, .tcrdLo, .tcrdHi, .taskidHi]

/-- The code of an operand (R22). -/
def opndCode : Opnd → Nat
  | .v n => n.toNat | .k n => 0x100 + n.toNat | .b n => 0x140 + n.toNat | .sp s => specialCode s
  | .imm n => 0x180 + n.toNat | .fpc n => 0x1C0 + n.toNat

/-- The operand of a 9-bit code; none where R22 reserves the code. -/
def opndOfCode (c : Nat) : Option Opnd :=
  if c < 0x100 then some (.v (BitVec.ofNat 8 c))
  else if c < 0x140 then some (.k (BitVec.ofNat 6 (c - 0x100)))
  else if c < 0x144 then some (.b (BitVec.ofNat 2 (c - 0x140)))
  else if c < 0x15B then (specials[c - 0x144]?).map .sp
  else if c < 0x180 then none
  else if c < 0x1C0 then some (.imm (BitVec.ofNat 6 (c - 0x180)))
  else if c < 0x1E0 then some (.fpc (BitVec.ofNat 5 (c - 0x1C0)))
  else none

/-- What a field may hold. A source names `words` 32-bit registers; the flags say which other codes of R22 it takes. -/
inductive Use where
  | unused
  | src (words : Nat) (k latch special imm : Bool) (fmt : Option Fmt)
  | dst (words : Nat) (k : Bool)
  /-- one of the codes 0x180 to 0x187, naming a predicate (R170) -/
  | predIx
  /-- v registers that the field names and that the instruction reads or writes only in part -/
  | named (words : Nat)
  deriving DecidableEq, Repr

/-- An integer or bit-pattern source. -/
def Use.int (words : Nat) : Use := .src words true true true true none
/-- A floating-point source of a format. -/
def Use.fp (f : Fmt) (words : Nat) : Use := .src words true true true true (some f)
/-- A 64-bit base: a pair, and no inline integer (R133). -/
def Use.base : Use := .src 2 true true true false none
/-- A data operand (R133, R300, R307, R380): a register or an inline integer, where the rule lists no more. (DEDUCED: log 13) -/
def Use.data (words : Nat) : Use := .src words true false false true none
/-- The operand of a float atomic (R300): a register, an inline integer or an FP constant. (DEDUCED: log 13) -/
def Use.fpData (f : Fmt) (words : Nat) : Use := .src words true false false true (some f)
/-- A contribution (R305): a register, or an FP constant of a float type. (DEDUCED: log 13) -/
def Use.contrib (f : Option Fmt) (words : Nat) : Use := .src words true false false false f
/-- A target block count (R127): a register, an inline integer or a latch. -/
def Use.count : Use := .src 1 true true false true none
/-- A length register (R111): a v or k operand code. -/
def Use.vk : Use := .src 1 true false false false none
/-- A register source, v or k, or a latch. -/
def Use.reg (words : Nat) : Use := .src words true true false false none
/-- A register source, v or k, and nothing else (R71, R75). -/
def Use.rpair : Use := .src 2 true false false false none
/-- A source that must be v registers. -/
def Use.vreg (words : Nat) : Use := .src words false false false false none
/-- A destination in v or k registers. -/
def Use.out (words : Nat) : Use := .dst words true
/-- A destination that must be v registers. -/
def Use.vout (words : Nat) : Use := .dst words false

/-- Registers named by other fields than DST, SA, SB and SC, or beyond the words of those. -/
structure Extra where
  first : Opnd
  words : Nat
  reads : Bool
  writes : Bool
  deriving DecidableEq, Repr

/-- The shape of one instruction. `preads` and `pwrites` name predicates besides PRED; `causes` are the causes of R43 that the
instruction's own fields give. -/
structure Sig where
  dst : Use := .unused
  sa : Use := .unused
  sb : Use := .unused
  sc : Use := .unused
  extra : List Extra := []
  preads : List Nat := []
  pwrites : List Nat := []
  causes : List Nat := []
  deriving DecidableEq, Repr

/-- A cause if a condition holds. -/
def causeIf (b : Bool) (c : Nat) : List Nat := if b then [c] else []

/-- Causes 0x04 and 0x05 of a run of v or k registers (R22, R26); a quad or more is of v registers. -/
def runCauses (o : Opnd) (words : Nat) (allowK : Bool) : List Nat :=
  let al := if words ≤ 1 then 1 else if words = 2 then 2 else 4
  match o with
  | .v n => causeIf (n.toNat % al != 0 || decide (256 < n.toNat + words)) 4
  | .k n => if !allowK || 2 < words then [5] else causeIf (n.toNat % al != 0 || decide (64 < n.toNat + words)) 4
  | _ => [5]

/-- The causes of one field by R16, R22 to R26. -/
def Use.causes (u : Use) (o : Opnd) : List Nat :=
  match u with
  | .unused => causeIf (opndCode o != 0) 3
  | .dst w k => runCauses o w k
  | .named w => runCauses o w false
  | .predIx => match o with | .imm n => causeIf (decide (7 < n.toNat)) 5 | _ => [5]
  | .src w k latch special imm fmt =>
    match o with
    | .v _ => runCauses o w k
    | .k _ => runCauses o w k
    | .b _ => causeIf (!latch) 5
    | .sp _ => causeIf (!special) 5
    | .imm _ => causeIf (!imm) 5
    | .fpc n => match fmt with | none => [5] | some f => causeIf ((f.const n.toNat).isNone) 5

/-- The causes of an F word by its shape (R13 to R16, R31); `base` says that its opcode lies below 0x140. -/
def Sig.causesF (g : Sig) (f : FWord) (base : Bool) : List Nat :=
  (if f.nwb then causeIf (opndCode f.dst != 0) 3 else g.dst.causes f.dst)
  ++ g.sa.causes f.sa ++ g.sb.causes f.sb ++ g.sc.causes f.sc ++ causeIf (f.hold && !base) 9 ++ g.causes

/-- The causes of an X instruction by its shape (R20). -/
def Sig.causesX (g : Sig) (x : XWord) : List Nat :=
  g.dst.causes x.dst ++ g.sa.causes x.sa ++ g.sb.causes x.sb ++ g.sc.causes x.sc ++ g.causes

/-- Registers as numbers: v0 to v255 are 0 to 255, k0 to k63 are 256 to 319, p0 to p7 are 512 to 519. -/
def opndRegs (o : Opnd) (words : Nat) : List Nat :=
  match o with
  | .v n => (List.range words).map (n.toNat + ·)
  | .k n => (List.range words).map (256 + n.toNat + ·)
  | _ => []

/-- The registers that a field reads. -/
def Use.reads (u : Use) (o : Opnd) : List Nat :=
  match u with
  | .src w .. => opndRegs o w
  | .predIx => match o with | .imm n => [512 + n.toNat % 8] | _ => []
  | _ => []

/-- The registers that a field writes. -/
def Use.writes (u : Use) (o : Opnd) : List Nat := match u with | .dst w _ => opndRegs o w | _ => []

/-- A predicate register's number, unless it is p7. -/
def predReg (n : Nat) : List Nat := if n = 7 then [] else [512 + n]

/-- The predicate of PRED as a register read (R14). -/
def predRead (p : BitVec 4) : List Nat := predReg (p.toNat % 8)

/-- The registers that an instruction reads or writes. -/
structure RegUse where
  reads : List Nat
  writes : List Nat
  deriving DecidableEq, Repr

/-- The registers of the extra fields and of the predicates. -/
def Sig.extraUse (g : Sig) : RegUse :=
  ⟨(g.extra.filter (·.reads)).flatMap (fun e => opndRegs e.first e.words) ++ g.preads.flatMap predReg,
   (g.extra.filter (·.writes)).flatMap (fun e => opndRegs e.first e.words) ++ g.pwrites.flatMap predReg⟩

/-- The registers of an F word; NWB writes no destination (R15). -/
def Sig.regsF (g : Sig) (f : FWord) : RegUse :=
  let e := g.extraUse
  ⟨predRead f.pred ++ g.sa.reads f.sa ++ g.sb.reads f.sb ++ g.sc.reads f.sc ++ e.reads,
   (if f.nwb then [] else g.dst.writes f.dst) ++ e.writes⟩

/-- The registers of an X instruction. -/
def Sig.regsX (g : Sig) (x : XWord) : RegUse :=
  let e := g.extraUse
  ⟨predRead x.pred ++ g.sa.reads x.sa ++ g.sb.reads x.sb ++ g.sc.reads x.sc ++ e.reads, g.dst.writes x.dst ++ e.writes⟩

/-- The latches that a source names, with the width of the read in bits (R33). -/
def Use.latch (u : Use) (o : Opnd) : List (Nat × Nat) :=
  match u, o with
  | .src w .., .b n => [(n.toNat, 32 * w)]
  | _, _ => []

def Sig.latchesF (g : Sig) (f : FWord) : List (Nat × Nat) := g.sa.latch f.sa ++ g.sb.latch f.sb ++ g.sc.latch f.sc
def Sig.latchesX (g : Sig) (x : XWord) : List (Nat × Nat) := g.sa.latch x.sa ++ g.sb.latch x.sb ++ g.sc.latch x.sc

/-- The causes of an operand code held in another field than the four (R22). -/
def codeCauses (u : Use) (c : Nat) : List Nat :=
  match opndOfCode c with
  | none => [2]
  | some o => u.causes o

/-- The extra register run that a code names, for the register checks. -/
def codeExtra (c words : Nat) (reads writes : Bool) : List Extra :=
  match opndOfCode c with
  | some o => [⟨o, words, reads, writes⟩]
  | none => []

/-! ### Engine-command fields (R36 to R38) -/

/-- QID (R36). -/
def xqid (x : XWord) : Nat := xtail x 44 4
/-- The two patch tags (R36), TAG0 first. -/
def xtags (x : XWord) : List Nat := [xtail x 48 8, xtail x 56 8]

/-- Cause 0x0A: a queue id that R38 does not permit. -/
def qidCauses (x : XWord) (ok : List Nat) : List Nat := causeIf (!ok.contains (xqid x)) 0x0A

/-- Cause 0x0B: a tag without V but with other bits, two valid tags of one operand, or an operand that may carry no tag (R37);
`ok` lists the OPD values that the instruction permits. -/
def tagCauses (x : XWord) (ok : List Nat) : List Nat :=
  let ts := xtags x
  let bad := ts.any (fun t => if t.testBit 7 then !ok.contains (fldN t 5 2) else t != 0)
  let twice := match ts with
    | [a, b] => a.testBit 7 && b.testBit 7 && fldN a 5 2 == fldN b 5 2
    | _ => false
  causeIf (bad || twice) 0x0B

end Sys2Proof.Machine
end

