-- ==== Sys2Proof/Machine/Encoding.lean ====
section
/-! DEFINITION. The opcode map of R41 and the frames of R9, R13, R17, R20: words to instructions and back. -/
namespace Sys2Proof.Machine

/-- The P opcodes of R19. -/
def popOfCode (c : Nat) : Option POp :=
  match c with
  | 0x00 => some .iadd
  | 0x01 => some .isub
  | 0x02 => some .imul
  | 0x03 => some .imin
  | 0x04 => some .imax
  | 0x05 => some .nmin
  | 0x06 => some .nmax
  | 0x07 => some .and
  | 0x08 => some .or
  | 0x09 => some .xor
  | 0x0A => some .shl
  | 0x0B => some .shr
  | 0x0C => some .sar
  | 0x0D => some .mov
  | 0x0E => some .not
  | 0x10 => some .fadd
  | 0x11 => some .fmul
  | 0x12 => some .fmin
  | 0x13 => some .fmax
  | 0x14 => some .faddH
  | 0x15 => some .fmulH
  | 0x16 => some .faddB
  | 0x17 => some .fmulB
  | 0x18 => some .fminH
  | 0x19 => some .fmaxH
  | _ => none

/-- The code of a P operation (R19). -/
def popCode (p : POp) : Nat :=
  match p with
  | .iadd => 0x00
  | .isub => 0x01
  | .imul => 0x02
  | .imin => 0x03
  | .imax => 0x04
  | .nmin => 0x05
  | .nmax => 0x06
  | .and => 0x07
  | .or => 0x08
  | .xor => 0x09
  | .shl => 0x0A
  | .shr => 0x0B
  | .sar => 0x0C
  | .mov => 0x0D
  | .not => 0x0E
  | .fadd => 0x10
  | .fmul => 0x11
  | .fmin => 0x12
  | .fmax => 0x13
  | .faddH => 0x14
  | .fmulH => 0x15
  | .faddB => 0x16
  | .fmulB => 0x17
  | .fminH => 0x18
  | .fmaxH => 0x19

/-- The F words of the opcode map (R41). A field that picks one of several constructors picks the first of them for its
illegal codes, whose shape then refuses the word with cause 0x0D. -/
def fOfOpcode (opc : Nat) (f : FWord) : Option Instr :=
  match opc with
  | 0x000 => some (.iadd f)
  | 0x001 => some (.isub f)
  | 0x002 => some (.iadd3 f)
  | 0x003 => some (.imul f)
  | 0x004 => some (.imulhi f)
  | 0x005 => some (.imad f)
  | 0x006 => some (.imadw f)
  | 0x007 => some (.imin f)
  | 0x008 => some (.imax f)
  | 0x009 => some (.iabs f)
  | 0x00A => some (.ineg f)
  | 0x010 => some (.and f)
  | 0x011 => some (.or f)
  | 0x012 => some (.xor f)
  | 0x013 => some (.not f)
  | 0x014 => some (.lfn3 f)
  | 0x018 => some (.shl f)
  | 0x019 => some (.shr f)
  | 0x01A => some (.sar f)
  | 0x01B => some (.fsh f)
  | 0x020 => some (.fext f)
  | 0x021 => some (.fdep f)
  | 0x022 => some (.bsel f)
  | 0x028 => some (.popc f)
  | 0x029 => some (.clz f)
  | 0x02A => some (.ctz f)
  | 0x02B => some (.brev f)
  | 0x030 => some (.sel f)
  | 0x031 => some (.icmp f)
  | 0x032 => some (.setp f)
  | 0x038 => some (.mov f)
  | 0x03A => some (.lea f)
  | 0x040 => some (.rand f)
  | 0x080 => some (.fadd f)
  | 0x081 => some (.fsub f)
  | 0x082 => some (.fmul f)
  | 0x083 => some (.fma f)
  | 0x088 => some (.fmin f)
  | 0x089 => some (.fmax f)
  | 0x08A => some (.fminx f)
  | 0x08B => some (.fmaxx f)
  | 0x090 => some (.fcmp f)
  | 0x091 => some (.fclass f)
  | 0x092 => some (.fscale f)
  | 0x093 => some (.fround f)
  | 0x098 => some (.frcp f)
  | 0x099 => some (.frsq f)
  | 0x09A => some (.fsqrt f)
  | 0x09B => some (.fdiv f)
  | 0x0A0 => some (.fex2 f)
  | 0x0A1 => some (.flg2 f)
  | 0x0A2 => some (.fsin f)
  | 0x0A3 => some (.fcos f)
  | 0x0B8 => some (.mxscale f)
  | 0x100 => some (.shfl f)
  | 0x108 => some (.vote f)
  | 0x110 => some (.matchLanes f)
  | 0x111 => some (.elect f)
  | 0x118 => some (.lred f)
  | 0x119 => some (.lscan f)
  | 0x141 => some (.brx f)
  | 0x143 => some (.ret f)
  | 0x144 => some (.exit f)
  | 0x148 => some (.yield f)
  | 0x149 => some (.nap f)
  | 0x150 => some (.trap f)
  | 0x151 => some (.brk f)
  | 0x180 => some (.ldL f)
  | 0x181 => some (.ldLp f)
  | 0x182 => some (.ldG f)
  | 0x183 => some (.ldC f)
  | 0x188 => some (.stL f)
  | 0x189 => some (.stLp f)
  | 0x18A => some (.stG f)
  | 0x190 => some (.prf f)
  | 0x198 => some (.rgrow f)
  | 0x199 => some (.rshrink f)
  | 0x1A0 => some (.segld f)
  | 0x1C8 => some (.ldx f)
  | 0x1C9 => some (.stx f)
  | 0x1CA => some (.ldAcq f)
  | 0x1CB => some (.stRel f)
  | 0x1D0 => some (.fenceAcq f)
  | 0x1D1 => some (.fenceRel f)
  | 0x1D2 => some (.fenceAr f)
  | 0x214 => some (.barTest f)
  | 0x218 => match fmod f 0 2 with | 1 => some (.presF f) | 2 => some (.presClr f) | _ => some (.presQ f)
  | 0x248 => some (.azero f)
  | 0x258 => some (.mstRd f)
  | 0x259 => some (.mstClr f)
  | 0x282 => some (.rqAcc f)
  | 0x283 => some (.rqRej f)
  | 0x284 => some (.rqGet f)
  | 0x285 => some (.rqSet f)
  | 0x286 => some (.rqEnd f)
  | 0x29B => some (.statRd f)
  | 0x2C2 => some (.taskEnd f)
  | 0x2C9 => some (.tapeStop f)
  | 0x2D0 => some (.cvSign f)
  | 0x2D1 => some (.cvWait f)
  | 0x2D8 => some (.barTeam f)
  | 0x2D9 => some (.barCl f)
  | 0x2E0 => some (.prioSet f)
  | 0x2E8 => some (.loc f)
  | 0x300 => some (.sysrd f)
  | 0x301 => some (.syswr f)
  | 0x302 => some (.clk f)
  | 0x318 => some (.dieQ f)
  | 0x320 => some (.iret f)
  | _ => none

/-- The X instructions of the opcode map (R41). -/
def xOfOpcode (opc : Nat) (x : XWord) : Option Instr :=
  match opc with
  | 0x039 => some (.li x)
  | 0x0B0 => some (.cvt x)
  | 0x140 => some (.bra x)
  | 0x142 => some (.call x)
  | 0x1C0 => some (.atom x)
  | 0x1C1 => some (.red x)
  | 0x1C2 => some (.atomAgg x)
  | 0x1D8 => some (.droAdd x)
  | 0x1D9 => some (.droGet x)
  | 0x200 => some (.cpG2l x)
  | 0x201 => some (.cpL2g x)
  | 0x202 => some (.cpG2g x)
  | 0x203 => some (.cpL2l x)
  | 0x204 => some (.cpT2l x)
  | 0x205 => some (.cpL2t x)
  | 0x208 => some (.coll x)
  | 0x210 => some (.barInit x)
  | 0x211 => some (.barArrive x)
  | 0x212 => some (.barExpect x)
  | 0x213 => some (.barWait x)
  | 0x215 => some (.barInval x)
  | 0x220 => some (.wmap x)
  | 0x221 => some (.wunmap x)
  | 0x222 => some (.wflush x)
  | 0x228 => some (.qfence x)
  | 0x240 => some (.mma x)
  | 0x241 => some (.mmaSp x)
  | 0x242 => some (.mmaT x)
  | 0x249 => some (.aload x)
  | 0x24A => some (.astore x)
  | 0x24C => some (.aread x)
  | 0x24D => some (.awrite x)
  | 0x250 => some (.omap x)
  | 0x251 => some (.thdl x)
  | 0x280 => some (.rqInit x)
  | 0x281 => some (.rqRun x)
  | 0x290 => some (.dice x)
  | 0x291 => some (.gridEmit x)
  | 0x298 => some (.smpBegin x)
  | 0x299 => some (.smpEnd x)
  | 0x29A => some (.smpRes x)
  | 0x2A0 => some (.rcq x)
  | 0x2A1 => some (.rct x)
  | 0x2A2 => some (.rcSync x)
  | 0x2A3 => match xmod x 2 2 with | 1 => some (.rcCfgDetach x) | 2 => some (.rcCfgStat x) | _ => some (.rcCfgAttach x)
  | 0x2C0 => some (.launch x)
  | 0x2C1 => some (.spawn x)
  | 0x2C3 => match xmod x 0 2 with | 1 => some (.coalFlushDone x) | 2 => some (.coalFlushProd x) | _ => some (.coalFlushNow x)
  | 0x2C8 => some (.tapeRec x)
  | 0x2CA => some (.tapePlay x)
  | 0x2CB => match xmod x 0 1 with | 0 => some (.tapePatchSlot x) | _ => some (.tapePatchGuard x)
  | 0x2CC => some (.tapeDrop x)
  | 0x308 => some (.tlbinv x)
  | 0x309 => some (.cwb x)
  | 0x30A => some (.cinv x)
  | 0x310 => some (.domSw x)
  | 0x311 => some (.routeSw x)
  | 0x319 => match xmod x 0 2 with | 1 => some (.dieRstReset x) | 2 => some (.dieRstThaw x) | _ => some (.dieRstFrost x)
  | 0x321 => match xmod x 0 2 with | 1 => some (.ctxsaveDump x) | _ => some (.ctxsavePre x)
  | 0x322 => match xmod x 0 2 with | 1 => some (.ctxrestResume x) | 2 => some (.ctxrestEnd x) | _ => some (.ctxrestLoad x)
  | 0x328 => match xmod x 0 3 with | 1 => some (.smpcfgRing x) | 2 => some (.smpcfgAck x) | 3 => some (.smpcfgReset x) | 4 => some (.smpcfgStat x) | _ => some (.smpcfgConf x)
  | _ => none

/-- How an instruction stands in words: its frame, opcode and fields; the other agents' steps have no words. -/
inductive Frame where
  | f (opc : Nat) (f : FWord)
  | x (opc : Nat) (x : XWord)
  | p (p : PWord)
  | event
  deriving DecidableEq, Repr

/-- The frame, opcode and fields of an instruction (R41). -/
def frameOf (i : Instr) : Frame :=
  match i with
  | .issue _ _ => .event
  | .aging _ => .event
  | .pWord p => .p p
  | .iadd f => .f 0x000 f
  | .isub f => .f 0x001 f
  | .iadd3 f => .f 0x002 f
  | .imul f => .f 0x003 f
  | .imulhi f => .f 0x004 f
  | .imad f => .f 0x005 f
  | .imadw f => .f 0x006 f
  | .imin f => .f 0x007 f
  | .imax f => .f 0x008 f
  | .iabs f => .f 0x009 f
  | .ineg f => .f 0x00A f
  | .and f => .f 0x010 f
  | .or f => .f 0x011 f
  | .xor f => .f 0x012 f
  | .not f => .f 0x013 f
  | .lfn3 f => .f 0x014 f
  | .shl f => .f 0x018 f
  | .shr f => .f 0x019 f
  | .sar f => .f 0x01A f
  | .fsh f => .f 0x01B f
  | .fext f => .f 0x020 f
  | .fdep f => .f 0x021 f
  | .bsel f => .f 0x022 f
  | .popc f => .f 0x028 f
  | .clz f => .f 0x029 f
  | .ctz f => .f 0x02A f
  | .brev f => .f 0x02B f
  | .sel f => .f 0x030 f
  | .icmp f => .f 0x031 f
  | .setp f => .f 0x032 f
  | .mov f => .f 0x038 f
  | .li x => .x 0x039 x
  | .lea f => .f 0x03A f
  | .rand f => .f 0x040 f
  | .fadd f => .f 0x080 f
  | .fsub f => .f 0x081 f
  | .fmul f => .f 0x082 f
  | .fma f => .f 0x083 f
  | .fdiv f => .f 0x09B f
  | .fsqrt f => .f 0x09A f
  | .fscale f => .f 0x092 f
  | .fround f => .f 0x093 f
  | .fmin f => .f 0x088 f
  | .fmax f => .f 0x089 f
  | .fminx f => .f 0x08A f
  | .fmaxx f => .f 0x08B f
  | .fcmp f => .f 0x090 f
  | .fclass f => .f 0x091 f
  | .frcp f => .f 0x098 f
  | .frsq f => .f 0x099 f
  | .fex2 f => .f 0x0A0 f
  | .flg2 f => .f 0x0A1 f
  | .fsin f => .f 0x0A2 f
  | .fcos f => .f 0x0A3 f
  | .cvt x => .x 0x0B0 x
  | .mxscale f => .f 0x0B8 f
  | .shfl f => .f 0x100 f
  | .vote f => .f 0x108 f
  | .matchLanes f => .f 0x110 f
  | .elect f => .f 0x111 f
  | .lred f => .f 0x118 f
  | .lscan f => .f 0x119 f
  | .bra x => .x 0x140 x
  | .brx f => .f 0x141 f
  | .call x => .x 0x142 x
  | .ret f => .f 0x143 f
  | .exit f => .f 0x144 f
  | .yield f => .f 0x148 f
  | .nap f => .f 0x149 f
  | .napExpiry _ _ => .event
  | .trap f => .f 0x150 f
  | .brk f => .f 0x151 f
  | .ldL f => .f 0x180 f
  | .ldLp f => .f 0x181 f
  | .ldG f => .f 0x182 f
  | .ldC f => .f 0x183 f
  | .stL f => .f 0x188 f
  | .stLp f => .f 0x189 f
  | .stG f => .f 0x18A f
  | .prf f => .f 0x190 f
  | .rgrow f => .f 0x198 f
  | .rgrowGrant _ => .event
  | .rshrink f => .f 0x199 f
  | .segld f => .f 0x1A0 f
  | .loadReply _ _ _ => .event
  | .storeRegistrationAck _ _ _ => .event
  | .parkedAccessResume _ => .event
  | .windowEviction _ _ => .event
  | .accessSample _ _ => .event
  | .hotPagePendingPost _ => .event
  | .sliceAccess _ _ => .event
  | .sweepWaitRelease _ _ => .event
  | .flitCrcResend _ _ _ _ => .event
  | .moduleRetrain _ _ _ _ => .event
  | .moduleDisable _ _ _ => .event
  | .atomicReturn _ _ _ => .event
  | .atom x => .x 0x1C0 x
  | .red x => .x 0x1C1 x
  | .atomAgg x => .x 0x1C2 x
  | .ldx f => .f 0x1C8 f
  | .stx f => .f 0x1C9 f
  | .ldAcq f => .f 0x1CA f
  | .stRel f => .f 0x1CB f
  | .fenceAcq f => .f 0x1D0 f
  | .fenceRel f => .f 0x1D1 f
  | .fenceAr f => .f 0x1D2 f
  | .droAdd x => .x 0x1D8 x
  | .droGet x => .x 0x1D9 x
  | .cpG2l x => .x 0x200 x
  | .cpL2g x => .x 0x201 x
  | .cpG2g x => .x 0x202 x
  | .cpL2l x => .x 0x203 x
  | .cpT2l x => .x 0x204 x
  | .cpL2t x => .x 0x205 x
  | .copyEnginePerform _ => .event
  | .engineQueueRoom _ => .event
  | .coll x => .x 0x208 x
  | .collStart _ _ => .event
  | .barInit x => .x 0x210 x
  | .barArrive x => .x 0x211 x
  | .barExpect x => .x 0x212 x
  | .barWait x => .x 0x213 x
  | .barTest f => .f 0x214 f
  | .barInval x => .x 0x215 x
  | .presQ f => .f 0x218 f
  | .presF f => .f 0x218 f
  | .presClr f => .f 0x218 f
  | .wmap x => .x 0x220 x
  | .wunmap x => .x 0x221 x
  | .wflush x => .x 0x222 x
  | .qfence x => .x 0x228 x
  | .mma x => .x 0x240 x
  | .mmaSp x => .x 0x241 x
  | .mmaT x => .x 0x242 x
  | .arrayPerform _ => .event
  | .azero f => .f 0x248 f
  | .aload x => .x 0x249 x
  | .astore x => .x 0x24A x
  | .aread x => .x 0x24C x
  | .awrite x => .x 0x24D x
  | .omap x => .x 0x250 x
  | .thdl x => .x 0x251 x
  | .mstRd f => .f 0x258 f
  | .mstClr f => .f 0x259 f
  | .rqInit x => .x 0x280 x
  | .rqRun x => .x 0x281 x
  | .rqAcc f => .f 0x282 f
  | .rqRej f => .f 0x283 f
  | .rqGet f => .f 0x284 f
  | .rqSet f => .f 0x285 f
  | .rqEnd f => .f 0x286 f
  | .dice x => .x 0x290 x
  | .gridEmit x => .x 0x291 x
  | .smpBegin x => .x 0x298 x
  | .smpEnd x => .x 0x299 x
  | .smpRes x => .x 0x29A x
  | .statRd f => .f 0x29B f
  | .binActivate _ _ => .event
  | .binDone _ _ => .event
  | .rcq x => .x 0x2A0 x
  | .rct x => .x 0x2A1 x
  | .rctOffer _ => .event
  | .rcSync x => .x 0x2A2 x
  | .equinoxTrain _ => .event
  | .equinoxStep _ => .event
  | .publication _ => .event
  | .rcCfgAttach x => .x 0x2A3 x
  | .rcCfgDetach x => .x 0x2A3 x
  | .rcCfgStat x => .x 0x2A3 x
  | .launch x => .x 0x2C0 x
  | .spawn x => .x 0x2C1 x
  | .ringRoomResume _ _ => .event
  | .taskEnd f => .f 0x2C2 f
  | .taskDelivery _ => .event
  | .taskWdog _ => .event
  | .coalFlushNow x => .x 0x2C3 x
  | .coalFlushDone x => .x 0x2C3 x
  | .coalFlushProd x => .x 0x2C3 x
  | .nodeFlushTimer _ _ => .event
  | .nodeRelease _ _ => .event
  | .tapeRec x => .x 0x2C8 x
  | .tapeStop f => .f 0x2C9 f
  | .tapePlay x => .x 0x2CA x
  | .tapePatchSlot x => .x 0x2CB x
  | .tapePatchGuard x => .x 0x2CB x
  | .tapeDrop x => .x 0x2CC x
  | .cvSign f => .f 0x2D0 f
  | .cvWait f => .f 0x2D1 f
  | .barTeam f => .f 0x2D8 f
  | .barCl f => .f 0x2D9 f
  | .prioSet f => .f 0x2E0 f
  | .loc f => .f 0x2E8 f
  | .sysrd f => .f 0x300 f
  | .syswr f => .f 0x301 f
  | .registerWrite _ _ _ _ => .event
  | .seedWrite _ => .event
  | .prioWrite _ _ => .event
  | .fansRetry _ => .event
  | .fansDeliver _ => .event
  | .clk f => .f 0x302 f
  | .tlbinv x => .x 0x308 x
  | .cwb x => .x 0x309 x
  | .cinv x => .x 0x30A x
  | .domSw x => .x 0x310 x
  | .routeSw x => .x 0x311 x
  | .dieQ f => .f 0x318 f
  | .dieRstFrost x => .x 0x319 x
  | .dieQuiesce _ => .event
  | .dieRstReset x => .x 0x319 x
  | .dieResetDone _ _ => .event
  | .dieRstThaw x => .x 0x319 x
  | .iret f => .f 0x320 f
  | .ctxsavePre x => .x 0x321 x
  | .ctxsaveDump x => .x 0x321 x
  | .ctxrestLoad x => .x 0x322 x
  | .ctxrestResume x => .x 0x322 x
  | .ctxrestEnd x => .x 0x322 x
  | .smpcfgConf x => .x 0x328 x
  | .smpcfgRing x => .x 0x328 x
  | .smpcfgAck x => .x 0x328 x
  | .smpcfgReset x => .x 0x328 x
  | .smpcfgStat x => .x 0x328 x
  | .dispatchAccept _ => .event
  | .leasePreparation _ => .event
  | .teamLaunch _ => .event
  | .groupRetire _ => .event
  | .dispatchEnd _ => .event
  | .preemptionRequest _ _ => .event
  | .clusterSave _ _ => .event
  | .clusterResume _ _ => .event
  | .selfTestStart _ => .event
  | .selfTestDone _ _ => .event
  | .queueRoomPost _ => .event
  | .qdoor _ _ => .event
  | .dispatch _ => .event
  | .hostTapePlay _ => .event
  | .signal _ => .event
  | .wait _ => .event
  | .waitMet _ => .event
  | .qcreate _ _ _ => .event
  | .partcreate _ => .event
  | .partdestroy _ => .event
  | .devnum _ => .event
  | .status => .event
  | .attest _ => .event
  | .pcap _ => .event
  | .hostCoherentAccess _ => .event
  | .kflRemoteRequest _ _ => .event
  | .powerOn => .event
  | .clockThrottle _ _ => .event
  | .thermalCritical _ _ => .event
  | .savePoolFramesArrive => .event
  | .l1Eviction _ _ => .event
  | .scrubberPass _ => .event

/-- A step of another agent, which no word encodes. (DESIGN CHOICE: log 2) -/
def isEvent (i : Instr) : Bool := match frameOf i with | .event => true | _ => false

/-- The length of an instruction in bytes (R9). -/
def instrLen (i : Instr) : Nat := match frameOf i with | .x .. => 16 | _ => 8

/-- A legal opcode of F words, whatever its fields. -/
def isFOpcode (opc : Nat) : Bool :=
  (fOfOpcode opc ⟨false, 0, 0, .v 0, .v 0, .v 0, false, .v 0⟩).isSome

/-- A legal opcode of X instructions, whatever its fields. -/
def isXOpcode (opc : Nat) : Bool := (xOfOpcode opc ⟨0, 0, .v 0, .v 0, .v 0, .v 0, 0⟩).isSome

/-- The least of some causes. -/
def minCause (l : List Nat) : Option Nat := l.foldl (fun m c => match m with | none => some c | some d => some (min c d)) none

/-- The four operand codes of a word at bit positions. -/
def operandCodes (w dst sa sb sc : Nat) : Option (Opnd × Opnd × Opnd × Opnd) :=
  match opndOfCode (fldN w dst 9), opndOfCode (fldN w sa 9), opndOfCode (fldN w sb 9), opndOfCode (fldN w sc 9) with
  | some d, some a, some b, some c => some (d, a, b, c)
  | _, _, _, _ => none

/-- A P word (R17 to R19): causes 0x01, 0x03, 0x06 of R43. -/
def decodeP (w : Nat) : Except Nat PWord :=
  let half (o : Nat) : Nat × Nat × Nat × Nat := (fldN w (o + 2) 7, fldN w (o + 9) 8, fldN w (o + 17) 8, fldN w (o + 25) 8)
  let (o0, d0, a0, b0) := half 0
  let (o1, d1, a1, b1) := half 31
  match popOfCode o0, popOfCode o1 with
  | some p0, some p1 =>
    .ok ⟨⟨p0, BitVec.ofNat 8 b0, BitVec.ofNat 8 a0, BitVec.ofNat 8 d0⟩, ⟨p1, BitVec.ofNat 8 b1, BitVec.ofNat 8 a1, BitVec.ofNat 8 d1⟩⟩
  | _, _ => .error 1

/-- The head word of fields (R13). -/
def encodeF (opc : Nat) (f : FWord) : Nat :=
  opc <<< 2 + opndCode f.dst <<< 12 + f.nwb.toNat <<< 21 + opndCode f.sa <<< 22 + opndCode f.sb <<< 31 + opndCode f.sc <<< 40
  + f.pred.toNat <<< 49 + f.mod.toNat <<< 53 + f.hold.toNat <<< 63

/-- The head word of an X instruction (R20). -/
def encodeXHead (opc : Nat) (x : XWord) : Nat :=
  2 + opc <<< 2 + opndCode x.dst <<< 12 + opndCode x.sa <<< 21 + opndCode x.sb <<< 30 + opndCode x.sc <<< 39
  + x.pred.toNat <<< 48 + x.moda.toNat <<< 52

/-- The tail word of an X instruction (R20). -/
def encodeXTail (x : XWord) : Nat := 3 + x.modb.toNat <<< 2

/-- A P word (R17). -/
def encodeP (p : PWord) : Nat :=
  let half (h : PHalf) : Nat := popCode h.op + h.dst.toNat <<< 7 + h.sa.toNat <<< 15 + h.sb.toNat <<< 23
  1 + half p.h0 <<< 2 + half p.h1 <<< 33

end Sys2Proof.Machine
end

