-- ==== Sys2Proof/Machine/ShapeAlu.lean ====
section
/-! DEFINITION. Shapes of the instructions of chapter 07. -/
namespace Sys2Proof.Machine

/-- Words of an operand of width W (R162). -/
def wWords (w : Nat) : Nat := if w = 1 then 2 else 1

/-- The causes of the standard integer layout (R162). -/
def stdIntCauses (f : FWord) (uOk satOk : Bool) (wMax : Nat) : List Nat :=
  causeIf (fmod f 4 6 != 0 || (fmod f 3 1 == 1 && !satOk) || (fmod f 2 1 == 1 && !uOk)) 3
  ++ causeIf (decide (wMax < fmod f 0 2)) 0x0D

/-- Integer instructions of the standard layout: sources of width W (R162 to R164). -/
def sigInt (f : FWord) (nsrc : Nat) (uOk satOk : Bool) : Sig :=
  let w := wWords (fmod f 0 2)
  { dst := .out w, sa := .int w, sb := if 2 ≤ nsrc then .int w else .unused, sc := if 3 ≤ nsrc then .int w else .unused,
    causes := stdIntCauses f uOk satOk 1 }

/-- `iabs`: U 1 is illegal with cause 0x0D (R163). -/
def sigIabs (f : FWord) : Sig :=
  let g := sigInt f 1 true true
  { g with causes := g.causes ++ causeIf (fmod f 2 1 == 1) 0x0D }

/-- `imadw` (R163). -/
def sigImadw (f : FWord) : Sig :=
  { dst := .out 2, sa := .int 1, sb := .int 1, sc := .int 2, causes := stdIntCauses f true false 0 }

/-- `lfn3` (R164). -/
def sigLfn3 (f : FWord) : Sig :=
  let w := wWords (fmod f 0 2)
  { dst := .out w, sa := .int w, sb := .int w, sc := .int w, causes := causeIf (decide (1 < fmod f 0 2)) 0x0D }

/-- `shl`, `shr`, `sar`: the amount is 32 bits (R165). (DEDUCED: log 14) -/
def sigShift (f : FWord) : Sig :=
  let w := wWords (fmod f 0 2)
  { dst := .out w, sa := .int w, sb := .int 1, causes := stdIntCauses f false false 1 }

/-- `fsh`: MOD[4] is DIR (R165). -/
def sigFsh (f : FWord) : Sig :=
  let w := wWords (fmod f 0 2)
  { dst := .out w, sa := .int w, sb := .int w, sc := .int 1,
    causes := causeIf (fmod f 5 5 != 0 || fmod f 2 2 != 0) 3 ++ causeIf (decide (1 < fmod f 0 2)) 0x0D }

/-- `fext` (R166). -/
def sigFext (f : FWord) : Sig :=
  let w := wWords (fmod f 0 2)
  { dst := .out w, sa := .int w, sb := .int 1, causes := stdIntCauses f true false 1 }

/-- `fdep` (R166). -/
def sigFdep (f : FWord) : Sig :=
  let w := wWords (fmod f 0 2)
  { dst := .out w, sa := .int w, sb := .int w, sc := .int 1, causes := stdIntCauses f false false 1 }

/-- `bsel`: 32 bits only (R166). -/
def sigBsel (f : FWord) : Sig :=
  { dst := .out 1, sa := .int 1, sb := .int 1, sc := .int 1, causes := stdIntCauses f false false 0 }

/-- `popc`, `clz`, `ctz`: a 32-bit result (R167). -/
def sigCount (f : FWord) : Sig :=
  { dst := .out 1, sa := .int (wWords (fmod f 0 2)), causes := stdIntCauses f false false 1 }

/-- `sel` (R168). -/
def sigSel (f : FWord) : Sig :=
  let w := wWords (fmod f 0 2)
  { dst := .out w, sa := .int w, sb := .int w, preads := [fmod f 2 3],
    causes := causeIf (fmod f 6 4 != 0) 3 ++ causeIf (decide (1 < fmod f 0 2)) 0x0D }

/-- `icmp` (R169). -/
def sigIcmp (f : FWord) : Sig :=
  let w := wWords (fmod f 0 2)
  { dst := .out 1, sa := .int w, sb := .int w, pwrites := [fmod f 6 3],
    causes := causeIf (fmod f 9 1 != 0) 3 ++ causeIf (decide (1 < fmod f 0 2) || decide (5 < fmod f 3 3)) 0x0D }

/-- `setp` (R170). -/
def sigSetp (f : FWord) : Sig :=
  { sa := .predIx, sb := .predIx, sc := .predIx, pwrites := [fmod f 0 3],
    causes := causeIf (fmod f 3 2 == 3 || fmod f 5 2 == 3) 0x0D }

/-- `mov`: an FP constant is read in FP32 or FP64; a quad takes none (R171). -/
def sigMov (f : FWord) : Sig :=
  let w := fmod f 0 2
  let n := if w = 2 then 4 else wWords w
  { dst := .out n, sa := if w = 0 then .fp .f32 1 else if w = 1 then .fp .f64 2 else .int n,
    causes := causeIf (fmod f 2 8 != 0) 3 ++ causeIf (w == 3) 0x0D }

/-- The immediate of `li`: imm[63:62] in MODA, imm[61:0] in MODB (R171). -/
def liImm (x : XWord) : Nat := xmod x 0 2 <<< 62 + x.modb.toNat

/-- `li` (R171). -/
def sigLi (x : XWord) : Sig :=
  let w := xmod x 11 1
  { dst := .out (wWords w), causes := causeIf (xmod x 2 9 != 0 || (w == 0 && liImm x >>> 32 != 0)) 3 }

/-- `lea` (R171). -/
def sigLea (f : FWord) : Sig :=
  let w := wWords (fmod f 0 2)
  { dst := .out w, sa := .int w, sb := .int 1,
    causes := causeIf (fmod f 6 4 != 0) 3 ++ causeIf (decide (1 < fmod f 0 2)) 0x0D }

/-- `rand` (R172). -/
def sigRand (f : FWord) : Sig :=
  { dst := .out (wWords (fmod f 0 1)), sa := .int 1, sb := .int 1, causes := causeIf (fmod f 1 9 != 0) 3 }

/-- The TYPE codes of R29. -/
inductive FpTy where
  | f32 | f64 | f16x2 | bf16x2
  deriving DecidableEq, Repr

def fpTyOf (c : Nat) : FpTy := match c with | 0 => .f32 | 1 => .f64 | 2 => .f16x2 | _ => .bf16x2
/-- The format of the elements. -/
def fpTyFmt (t : FpTy) : Fmt := match t with | .f32 => .f32 | .f64 => .f64 | .f16x2 => .f16 | .bf16x2 => .bf16
/-- Registers of an operand. -/
def fpTyWords (t : FpTy) : Nat := match t with | .f64 => 2 | _ => 1
/-- Elements of an operand. -/
def fpTyElems (t : FpTy) : Nat := match t with | .f16x2 | .bf16x2 => 2 | _ => 1

/-- The type of the standard FP layout. -/
def stdTy (f : FWord) : FpTy := fpTyOf (fmod f 3 2)

/-- The standard FP layout (R29, R173): the sources read, whether SB is the integer of `fscale`, whether the instruction
rounds. -/
def sigFp (f : FWord) (nsrc : Nat) (scale rounds : Bool) : Sig :=
  let t := stdTy f
  let u : Use := .fp (fpTyFmt t) (fpTyWords t)
  { dst := .out (fpTyWords t), sa := u,
    sb := if scale then .int 1 else if 2 ≤ nsrc then u else .unused, sc := if 3 ≤ nsrc then u else .unused,
    causes := causeIf ((fmod f 9 1 == 1 && decide (nsrc < 3)) || (fmod f 7 2 != 0 && (decide (nsrc < 2) || scale))) 3
      ++ causeIf (decide (4 < fmod f 0 3) || (!rounds && fmod f 0 3 != 0)) 0x0D }

/-- `fcmp` (R176). -/
def sigFcmp (f : FWord) : Sig :=
  let t := stdTy f
  let u : Use := .fp (fpTyFmt t) (fpTyWords t)
  { dst := .out 1, sa := u, sb := u, pwrites := [fmod f 0 3], causes := causeIf (decide (13 < fmod f 5 4)) 0x0D }

/-- `fclass` (R177). -/
def sigFclass (f : FWord) : Sig :=
  let t := stdTy f
  { dst := .out 1, sa := .fp (fpTyFmt t) (fpTyWords t), sb := .int 1, pwrites := [fmod f 0 3],
    causes := causeIf (fmod f 5 5 != 0) 3 }

/-- The types of `cvt` (R179): a width and signedness, a format, or a packed format. -/
inductive CvtTy where
  | int (signed : Bool) (w : Nat)
  | fp (f : Fmt)
  | packed (f : Fmt)
  deriving DecidableEq, Repr

/-- The type codes of R179. -/
def cvtTys : List CvtTy :=
  [.int true 8, .int true 16, .int true 32, .int true 64, .int false 8, .int false 16, .int false 32, .int false 64, .fp .f16,
   .fp .bf16, .fp .f32, .fp .f64, .fp .e4m3, .fp .e5m2, .fp .e2m1, .fp .e8m0, .packed .f16, .packed .bf16, .packed .e4m3,
   .packed .e5m2, .packed .e2m1]

def cvtTyWords (t : CvtTy) : Nat := match t with | .int _ 64 => 2 | .fp .f64 => 2 | _ => 1
def cvtTyPacked (t : CvtTy) : Bool := match t with | .packed _ => true | _ => false
/-- SAT is allowed for this destination type (R179). -/
def cvtTySat (t : CvtTy) : Bool :=
  match t with
  | .fp f | .packed f => f == .e4m3 || f == .e5m2 || f == .e2m1
  | _ => false
/-- A source of a type. -/
def cvtUse (t : CvtTy) : Use :=
  match t with | .int _ _ => .int (cvtTyWords t) | .fp f => .fp f (cvtTyWords t) | .packed f => .fp f 1

/-- The destination and source types of `cvt`. -/
def cvtTypes (x : XWord) : Option (CvtTy × CvtTy) :=
  match cvtTys[xtail x 7 5]?, cvtTys[xtail x 2 5]? with
  | some d, some s => some (d, s)
  | _, _ => none

/-- `cvt` (R179). -/
def sigCvt (x : XWord) : Sig :=
  let res := causeIf (xmod x 5 7 != 0 || xtail x 12 52 != 0) 3
  match cvtTypes x with
  | none => { dst := .out 1, sa := .int 1, causes := res ++ [0x0D] }
  | some (d, s) =>
    let bad := (cvtTyPacked d && s != .fp .f32) || (cvtTyPacked s && cvtTyPacked d) || (xmod x 4 1 == 1 && !cvtTyPacked s)
      || (xmod x 3 1 == 1 && !cvtTySat d) || decide (4 < xmod x 0 3)
    { dst := .out (cvtTyWords d), sa := cvtUse s, sb := if cvtTyPacked d then cvtUse s else .unused,
      causes := res ++ causeIf bad 0x0D }

/-- `mxscale` (R181). -/
def sigMxscale (f : FWord) : Sig :=
  { dst := .out 1, sa := if fmod f 2 1 = 1 then .fp .f64 2 else .fp .f32 1, causes := causeIf (fmod f 4 6 != 0) 3 }

/-- `shfl` (R183). -/
def sigShfl (f : FWord) : Sig :=
  let w := wWords (fmod f 2 1)
  { dst := .out w, sa := .int w, sb := .int 1, sc := .int 1, pwrites := [fmod f 3 3], causes := causeIf (fmod f 6 4 != 0) 3 }

/-- `vote` (R184): W 1 only with `.ballot`. -/
def sigVote (f : FWord) : Sig :=
  { dst := .out (wWords (fmod f 9 1)), preads := [fmod f 2 3], pwrites := [fmod f 6 3],
    causes := causeIf (fmod f 0 2 == 3) 0x0D ++ causeIf (fmod f 9 1 == 1 && decide (fmod f 0 2 < 2)) 3 }

/-- `match` (R185). -/
def sigMatch (f : FWord) : Sig :=
  { dst := .out (wWords (fmod f 2 1)), sa := .int (wWords (fmod f 1 1)), pwrites := [fmod f 3 3],
    causes := causeIf (fmod f 6 4 != 0) 3 }

/-- `elect` (R185). -/
def sigElect (f : FWord) : Sig := { dst := .out 1, pwrites := [fmod f 0 3], causes := causeIf (fmod f 3 7 != 0) 3 }

/-- `lred` and `lscan` (R186). -/
def sigLane (f : FWord) (scan : Bool) : Sig :=
  let op := fmod f 0 4
  let ty := fmod f 4 2
  let fl := decide (6 ≤ op)
  let w := if 2 ≤ ty then 2 else 1
  let u : Use := if fl then .fp (if ty = 2 then .f64 else .f32) w else .int w
  { dst := .out w, sa := u,
    causes := causeIf (fmod f 9 1 == 1 && !scan) 3
      ++ causeIf (decide (8 < op) || (fl && ty % 2 == 1) || decide (4 < fmod f 6 3) || (op != 6 && fmod f 6 3 != 0)) 0x0D }

/-- `bra` (R188). -/
def sigBra (x : XWord) : Sig := { causes := causeIf (xtail x 34 30 != 0 || x.moda != 0) 3 }
/-- `call` (R188). -/
def sigCall (x : XWord) : Sig := { sigBra x with dst := .out 2 }
/-- `brx` (R188). -/
def sigBrx (f : FWord) : Sig := { sa := if fmod f 0 1 = 1 then .int 1 else .int 2, causes := causeIf (fmod f 1 9 != 0) 3 }
/-- `ret` (R188). -/
def sigRet (f : FWord) : Sig := { sa := .int 2, causes := causeIf (f.mod != 0) 3 }
/-- `exit`, `yield` and other words without operands (R189, R190). -/
def sigBare (f : FWord) : Sig := { causes := causeIf (f.mod != 0) 3 }
/-- `nap` (R192). -/
def sigNap (f : FWord) : Sig := { sa := .int 1, causes := causeIf (f.mod != 0) 3 }
/-- `trap` and `brk` (R193). -/
def sigTrap (f : FWord) : Sig := { causes := causeIf (fmod f 8 2 != 0) 3 }

/-- The causes of a P word: an SB that is not read, pairing (R18). -/
def causesP (p : PWord) : List Nat :=
  let one (h : PHalf) : Bool := h.op == .mov || h.op == .not
  let par (h : PHalf) (b : Nat) : Bool := h.sa.toNat % 2 != b || (!one h && h.sb.toNat % 2 != b)
  causeIf ((one p.h0 && p.h0.sb != 0) || (one p.h1 && p.h1.sb != 0)) 3
  ++ causeIf (par p.h0 0 || par p.h1 1 || p.h0.dst == p.h1.dst) 6

/-- The registers of a P word. -/
def regsP (p : PWord) : RegUse :=
  let one (h : PHalf) : Bool := h.op == .mov || h.op == .not
  let rd (h : PHalf) : List Nat := h.sa.toNat :: (if one h then [] else [h.sb.toNat])
  ⟨rd p.h0 ++ rd p.h1, [p.h0.dst.toNat, p.h1.dst.toNat]⟩

end Sys2Proof.Machine
end

