-- ==== Sys2Proof/Machine/ShapeMem.lean ====
section
/-! DEFINITION. Shapes of the instructions of chapters 02 to 05, 14, 16 and 19. -/
namespace Sys2Proof.Machine

/-! ### Loads, stores, prefetch, registers (chapter 05) -/

/-- Bytes of a WID code (R134). -/
def widSize (w : Nat) : Nat := match w with | 0 => 1 | 1 => 1 | 2 => 2 | 3 => 2 | 4 => 4 | 5 => 8 | _ => 16
/-- Registers of a WID code (R134). -/
def widWords (w : Nat) : Nat := match w with | 5 => 2 | 6 => 4 | _ => 1
/-- WID codes of sign-extending loads. -/
def widSigned (w : Nat) : Bool := w == 1 || w == 3

/-- A local or constant base: 32 bits (R133). (DEDUCED: log 14) -/
def useBase (glob : Bool) : Use := if glob then .src 2 true true false false none else .int 1

/-- The cache-hint field: `.g` only, code 3 illegal (R134). -/
def chCauses (f : FWord) (glob : Bool) : List Nat :=
  if glob then causeIf (fmod f 3 2 == 3) 0x0D else causeIf (fmod f 3 2 != 0) 3

/-- `ld.l`, `ld.lp`, `ld.g`, `ld.c` (R133, R134). -/
def sigLd (f : FWord) (glob : Bool) : Sig :=
  { dst := .out (widWords (fmod f 0 3)), sa := useBase glob, sb := .int 1,
    causes := chCauses f glob ++ causeIf (fmod f 0 3 == 7) 0x0D }

/-- `st.l`, `st.lp`, `st.g`: NWB must be 0 (R133, R134). (DEDUCED: log 13) -/
def sigSt (f : FWord) (glob : Bool) : Sig :=
  let w := fmod f 0 3
  { sa := useBase glob, sb := .int 1, sc := .data (widWords w),
    causes := chCauses f glob ++ causeIf f.nwb 3 ++ causeIf (w == 7 || w == 1 || w == 3) 0x0D }

/-- `prf` (R144). -/
def sigPrf (f : FWord) : Sig :=
  { sa := useBase (fmod f 0 1 == 0), sb := .int 1,
    causes := causeIf (f.nwb || fmod f 3 2 != 0) 3 ++ causeIf (decide (1 < fmod f 1 2)) 0x0D }

/-- `rgrow` and `rshrink` (R127). (DEDUCED: log 13) -/
def sigGrow (f : FWord) (grow : Bool) : Sig :=
  { dst := .out 1, sa := .count, pwrites := [fmod f 0 3],
    causes := causeIf (fmod f 4 6 != 0 || (!grow && fmod f 3 1 == 1)) 3 }

/-- `segld` (R75). -/
def sigSegld (f : FWord) : Sig :=
  { sa := .rpair, sb := .rpair, causes := causeIf (fmod f 2 8 != 0) 3 ++ causeIf (fmod f 0 2 == 3) 0x0D }

/-! ### Atomics and ordering (chapter 14) -/

def atomOps : List AtomOp := [.add, .min, .max, .and, .or, .xor, .exch, .cas, .inc, .dec, .fadd, .fmin, .fmax]
def atomTys : List AtomTy := [.i32, .n32, .i64, .n64, .f32, .f64]
def atomTyWords (t : AtomTy) : Nat := match t with | .i64 | .n64 | .f64 => 2 | _ => 1
def atomTyInt (t : AtomTy) : Bool := match t with | .f32 | .f64 => false | _ => true
def atomTyUns (t : AtomTy) : Bool := match t with | .n32 | .n64 => true | _ => false

/-- The pairings of R301. -/
def atomPairOk (o : AtomOp) (t : AtomTy) : Bool :=
  match o with
  | .inc | .dec => atomTyUns t
  | .fadd | .fmin | .fmax => !atomTyInt t
  | _ => atomTyInt t

def xAtomOp (x : XWord) : Option AtomOp := atomOps[xmod x 2 4]?
def xAtomTy (x : XWord) : Option AtomTy := atomTys[xmod x 6 3]?

/-- Address operand of a space code: `.l` and `.lp` 32 bits, `.g` a pair (R300). -/
def useSpace (sp : Nat) : Use := if sp = 2 then .src 2 true true false false none else .int 1

/-- `atom`, `red` and `atom.agg` (R300, R301, R303). (DEDUCED: log 13) -/
def sigAtom (x : XWord) (red agg : Bool) : Sig :=
  let sp := xmod x 0 2
  let res := causeIf (xmod x 11 1 != 0 || x.modb != 0) 3
  match xAtomOp x, xAtomTy x with
  | some o, some t =>
    let w := atomTyWords t
    let val : Use := if atomTyInt t then .data w else .fpData (if w = 2 then .f64 else .f32) w
    { dst := if red then .unused else .out w, sa := useSpace sp, sb := val, sc := if o = .cas then .int w else .unused,
      causes := res ++ causeIf (sp == 3 || !atomPairOk o t || (red && xmod x 9 1 == 1)
        || (agg && !(o == .add || o == .min || o == .max || o == .and || o == .or || o == .xor))) 0x0D }
  | _, _ => { dst := if red then .unused else .out 1, sa := useSpace sp, sb := .int 1, causes := res ++ [0x0D] }

/-- `ldx`, `stx`, `ld.acq`, `st.rel` (R307). (DEDUCED: log 13) -/
def sigLdx (f : FWord) (store : Bool) : Sig :=
  let w := if fmod f 0 3 = 5 then 2 else 1
  { dst := if store then .unused else .out w, sa := useSpace (fmod f 3 2), sb := .int 1, sc := if store then .data w else .unused,
    causes := causeIf (store && f.nwb) 3 ++ causeIf (fmod f 3 2 == 3 || !(fmod f 0 3 == 4 || fmod f 0 3 == 5)) 0x0D }

/-- Words without operands, NWB 0 (R309, R340). -/
def sigNone (f : FWord) : Sig := { causes := causeIf (f.mod != 0 || f.nwb) 3 }

/-- Words of a DTY of R304. -/
def droWords (t : Nat) : Nat := t % 2 + 1
/-- `dro.add` (R305). (DEDUCED: log 13) -/
def sigDroAdd (x : XWord) : Sig :=
  let t := xmod x 0 2
  let w := droWords t
  { dst := .out 1, sa := .reg 2, sb := .contrib (if t = 0 then some .f32 else if t = 1 then some .f64 else none) w,
    sc := .int 1, causes := causeIf (xmod x 2 10 != 0 || x.modb != 0) 3 }
/-- `dro.get` (R306). -/
def sigDroGet (x : XWord) : Sig :=
  { dst := .out (droWords (xmod x 0 2)), sa := .reg 2, causes := causeIf (xmod x 2 10 != 0 || x.modb != 0) 3 }

/-! ### Engines (chapter 04) -/

/-- The barrier operand of a command with BSP and NB (R104, R111). -/
def useBar (x : XWord) : Use := if xmod x 2 1 = 1 then .unused else if xmod x 0 2 = 2 then .reg 2 else .int 1
def barCauses (x : XWord) : List Nat :=
  if xmod x 2 1 = 1 then causeIf (xmod x 0 2 != 0) 3 else causeIf (xmod x 0 2 == 3) 0x0D

/-- The length register of a command with LR (R111). -/
def lregExtra (x : XWord) : List Extra := if xmod x 3 1 = 1 then codeExtra (xtail x 34 9) 1 true false else []
def lregCauses (x : XWord) : List Nat :=
  if xmod x 3 1 = 1 then codeCauses .vk (xtail x 34 9) else causeIf (xtail x 34 9 != 0) 3

/-- Patch tags OPD 3 only without LR (R111, R122). -/
def lrTags (x : XWord) : List Nat :=
  [0, 1] ++ (if xmod x 2 1 = 1 then [] else [2]) ++ (if xmod x 3 1 = 1 then [] else [3])

/-- The copies (R111, R112): whether destination and source are global, and whether PEER may be set. -/
def sigCopy (x : XWord) (gd gs peer : Bool) : Sig :=
  let u (g : Bool) : Use := if g then .reg 2 else .int 1
  { sa := u gd, sb := u gs, sc := useBar x, extra := lregExtra x,
    causes := causeIf (xmod x 5 7 != 0 || xtail x 43 1 != 0 || (xmod x 4 1 == 1 && !peer) || (xmod x 3 1 == 1 && xtail x 2 32 != 0)) 3
      ++ lregCauses x ++ barCauses x ++ qidCauses x [0, 1] ++ tagCauses x (lrTags x) }

/-- `coll` (R119). -/
def sigColl (x : XWord) : Sig :=
  let op := xmod x 4 2
  let red := xmod x 6 2
  let ty := xmod x 8 4
  let lr := xmod x 3 1
  { sa := .reg 2, sb := .reg 2, sc := useBar x, extra := lregExtra x,
    causes := causeIf (xtail x 43 1 != 0 || (lr == 1 && xtail x 2 28 != 0)) 3 ++ lregCauses x ++ barCauses x ++ qidCauses x [4]
      ++ tagCauses x (lrTags x)
      ++ causeIf (op == 3 || red == 3 || (op == 1 && red != 0) || !([6, 7, 8, 9, 10].contains ty) || (lr == 0 && xtail x 2 28 == 0)) 0x0D }

/-- The barrier address operand of R107. -/
def useBarA (bsp : Nat) : Use := if bsp = 2 then .reg 2 else .int 1

/-- The barrier commands (R107): whether they have a destination, an SB operand, and ARV; the operands that take tags (R122). -/
def sigBar (x : XWord) (dst sb arv : Bool) (tags : List Nat) : Sig :=
  let bsp := xmod x 0 2
  { dst := if dst then .out 1 else .unused, sa := useBarA bsp, sb := if sb then .int 1 else .unused,
    causes := causeIf (xmod x (if arv then 3 else 2) (if arv then 9 else 10) != 0 || xtail x 2 42 != 0) 3
      ++ causeIf (bsp == 3) 0x0D ++ qidCauses x [0] ++ tagCauses x tags }

/-- `bar.test` (R107). -/
def sigBarTest (f : FWord) : Sig :=
  { dst := .out 1, sa := useBarA (fmod f 0 2), sb := .int 1, causes := causeIf (fmod f 2 8 != 0) 3 ++ causeIf (fmod f 0 2 == 3) 0x0D }

/-- `pres` (R97): `op` is the form's code. -/
def sigPres (f : FWord) (op : Nat) : Sig :=
  { dst := .out 1, sa := .int 1, causes := causeIf (fmod f 2 8 != 0) 3 ++ causeIf (fmod f 0 2 != op) 0x0D }

/-- `wmap`, `wunmap`, `wflush` (R102). -/
def sigWin (x : XWord) (map inv : Bool) : Sig :=
  { dst := .out 1, sa := if map then .int 1 else .unused, sb := if map then .reg 2 else .unused, sc := if map then .int 1 else .unused,
    causes := causeIf (xmod x (if inv then 1 else 0) (if inv then 11 else 12) != 0 || xtail x 6 38 != 0) 3 ++ qidCauses x [0]
      ++ tagCauses x (if map then [0, 1] else []) }

/-- `qfence` (R110). -/
def sigQfence (x : XWord) : Sig :=
  { dst := if xmod x 0 1 = 1 then .out 1 else .unused,
    causes := causeIf (xmod x 1 11 != 0 || xtail x 10 34 != 0) 3 ++ causeIf (xtail x 2 8 == 0) 0x0D ++ qidCauses x [0]
      ++ tagCauses x [] }

/-! ### Synchronisation and priority (chapter 16) -/

/-- `cv.sign` and `cv.wait` (R340). -/
def sigCv (f : FWord) : Sig := { dst := .out 1, sa := .int 1, causes := causeIf (fmod f 4 6 != 0) 3 }
/-- `prio.set` (R340). -/
def sigPrio (f : FWord) : Sig := { dst := .out 1, sa := .int 1, causes := causeIf (f.mod != 0) 3 }

/-! ### Locality, write-back, domains, routes (chapter 02), translation (chapter 03) -/

/-- `loc` (R66). -/
def sigLoc (f : FWord) : Sig := { dst := .out 1, sa := .rpair, causes := causeIf (f.mod != 0) 3 }
/-- `cwb` and `cinv` (R66). -/
def sigCwb (x : XWord) (inv : Bool) : Sig :=
  { dst := .out 1, sa := .rpair, sb := .int 1,
    causes := causeIf (xmod x (if inv then 2 else 1) (if inv then 10 else 11) != 0 || x.modb != 0) 3 }
/-- `dom.sw` (R66). -/
def sigDomSw (x : XWord) : Sig := { dst := .out 1, sa := .rpair, causes := causeIf (x.moda != 0 || x.modb != 0) 3 }
/-- `route.sw` (R66). -/
def sigRouteSw (x : XWord) : Sig := { dst := .out 1, sa := .int 1, causes := causeIf (xmod x 2 10 != 0 || x.modb != 0) 3 }
/-- `tlbinv` (R85). -/
def sigTlbinv (x : XWord) : Sig :=
  let all := xmod x 0 1 == 1
  let allas := xmod x 2 1 == 1
  { dst := .out 1, sa := if all then .unused else .reg 2, sb := if all then .unused else .int 2,
    sc := if allas then .unused else .int 1,
    causes := causeIf (xmod x 3 9 != 0 || x.modb != 0) 3 ++ causeIf (allas && !all) 0x0D }
/-- `smpcfg` (R92): `op` is the form's code. -/
def sigSmpcfg (x : XWord) (op : Nat) : Sig :=
  { dst := .out 1, sa := if op < 3 then .int 2 else .unused, sb := if op = 1 || op = 4 then .int 1 else .unused,
    causes := causeIf (xmod x 5 7 != 0 || x.modb != 0) 3 ++ causeIf (xmod x 0 3 != op) 0x0D }

/-! ### System instructions (chapter 19) -/

/-- What R381 says of a system register: words, the number of its indices (0 where it has none), access 0 RW, 1 W1C, 2 RO, 3 WO,
and privilege. -/
structure SregInfo where
  words : Nat
  count : Nat
  access : Nat
  priv : Bool
  deriving DecidableEq, Repr

/-- The table of R381. -/
def sregInfo (n : Nat) : Option SregInfo :=
  match n with
  | 0x000 => some ⟨1, 0, 0, false⟩
  | 0x001 => some ⟨1, 0, 1, false⟩
  | 0x002 => some ⟨1, 0, 0, false⟩
  | 0x003 => some ⟨2, 0, 2, false⟩
  | 0x004 => some ⟨1, 0, 0, false⟩
  | 0x005 => some ⟨2, 8, 2, false⟩
  | 0x040 => some ⟨2, 0, 0, true⟩
  | 0x041 => some ⟨2, 0, 0, true⟩
  | 0x042 => some ⟨2, 0, 0, true⟩
  | 0x043 => some ⟨2, 0, 0, true⟩
  | 0x044 => some ⟨2, 0, 0, true⟩
  | 0x045 => some ⟨2, 0, 3, true⟩
  | 0x048 => some ⟨2, 16, 0, true⟩
  | 0x050 => some ⟨1, 4, 2, true⟩
  | 0x051 => some ⟨1, 4, 2, true⟩
  | 0x052 => some ⟨2, 4, 0, true⟩
  | 0x053 => some ⟨1, 0, 2, true⟩
  | 0x054 => some ⟨1, 4096, 2, true⟩
  | 0x055 => some ⟨1, 4096, 2, true⟩
  | 0x058 => some ⟨2, 4, 2, true⟩
  | _ => none

/-- `sysrd` (R380). -/
def sigSysrd (f : FWord) : Sig :=
  match sregInfo f.mod.toNat with
  | some r => { dst := .out r.words, sa := if r.count = 0 then .unused else .int 1 }
  | none => { dst := .out 1, sa := .int 1, causes := [0x0D] }

/-- `syswr` (R380). -/
def sigSyswr (f : FWord) : Sig :=
  match sregInfo f.mod.toNat with
  | some r => { sa := if r.count = 0 then .unused else .int 1, sb := .data r.words,
                causes := causeIf f.nwb 3 ++ causeIf (r.access == 2) 0x0D }
  | none => { sa := .int 1, sb := .data 1, causes := causeIf f.nwb 3 ++ [0x0D] }

/-- `clk` (R380). -/
def sigClk (f : FWord) : Sig := { dst := .out 2, causes := causeIf (f.mod != 0) 3 }
/-- `die.q` (R401). -/
def sigDieQ (f : FWord) : Sig := { dst := .out 1, sa := .int 1, causes := causeIf (f.mod != 0) 3 }
/-- `iret` (R389): PRED must be 0b0111. -/
def sigIret (f : FWord) : Sig := { causes := causeIf (fmod f 1 9 != 0) 3 ++ causeIf (f.pred != 7) 0x0D }
/-- `die.rst` (R402): `op` is the form's code. -/
def sigDieRst (x : XWord) (op : Nat) : Sig :=
  { dst := .out 1, sa := .int 1,
    causes := causeIf (xmod x 3 9 != 0 || x.modb != 0) 3 ++ causeIf (xmod x 0 2 != op || (xmod x 2 1 == 1 && op != 0)) 0x0D }
/-- `ctxsave` and `ctxrest` (R391): `op` is the form's code; whether the form takes a team and a frame. -/
def sigCtx (x : XWord) (op : Nat) (full resume : Bool) : Sig :=
  let tm := xmod x 2 1 == 1
  { dst := .out 1, sa := .int 1, sb := if full || (resume && tm) then .int 1 else .unused, sc := if full then .reg 2 else .unused,
    causes := causeIf (xmod x 3 9 != 0 || x.modb != 0 || (tm && !resume)) 3 ++ causeIf (xmod x 0 2 != op) 0x0D }

end Sys2Proof.Machine
end

