-- ==== Sys2Proof/Machine/ShapeUnits.lean ====
section
/-! DEFINITION. Shapes of the instructions of chapters 08, 10, 11, 12 and 17. -/
namespace Sys2Proof.Machine

/-! ### The matrix engine (chapter 08) -/

/-- The row of R198 that a multiply's types match; `sp` says `mma.sp`. -/
def matRow (ta tb tacc trt mxs slc ps : Nat) (sp : Bool) : Option Nat :=
  let narrow := slc == 0 && ps == 0
  let i8s (t : Nat) : Bool := t == 0 || t == 1
  let f8s (t : Nat) : Bool := t == 2 || t == 3
  let wide (t : Nat) : Bool := decide (6 ≤ t) && decide (t ≤ 9)
  if narrow && i8s ta && i8s tb && tacc == 0xA && trt == 0xA && mxs == 0 then some 1
  else if narrow && ta == 0 && tb == 0 && tacc == 8 && trt == 8 && mxs == 1 then some 2
  else if narrow && f8s ta && f8s tb && tacc == 8 && trt == 8 then some 3
  else if narrow && ta == 4 && tb == 4 && tacc == 8 && trt == 8 then some 4
  else if !sp && wide ta && wide tb && tacc == 0xB && trt == 9 && mxs == 0 && decide (1 ≤ slc) && decide (slc ≤ 10) && decide (ps ≤ 2) then
    some 5
  else none

/-- The fields of a multiply's tail (R218). -/
def matTA (x : XWord) : Nat := xtail x 2 4
def matTB (x : XWord) : Nat := xtail x 6 4
def matTACC (x : XWord) : Nat := xtail x 10 4
def matTRT (x : XWord) : Nat := xtail x 14 4
def matSlot (x : XWord) : Nat := xtail x 18 3
def matSLC (x : XWord) : Nat := xtail x 21 4
def matPS (x : XWord) : Nat := xtail x 25 2
def matKC (x : XWord) : Nat := xtail x 27 4
def matZA (x : XWord) : Bool := xtail x 31 1 == 1
def matMXS (x : XWord) : Nat := xtail x 33 1
def matASRC (x : XWord) : Nat := xtail x 34 1

/-- The multiplies (R218): `kind` 0 `mma`, 1 `mma.sp`, 2 `mma.t`. (DEDUCED: log 39) -/
def sigMma (x : XWord) (kind : Nat) : Sig :=
  let xs := xmod x 0 9
  let mxs := matMXS x == 1
  let map := matASRC x == 1
  { sa := if map && kind != 2 then .int 1 else .vreg 1, sb := .int 1, sc := if kind = 1 then .vreg 1 else .unused,
    extra := if mxs then codeExtra xs 1 true false else [],
    causes := causeIf (xmod x 9 3 != 0 || xtail x 49 15 != 0 || (kind != 2 && xtail x 45 4 != 0) || (kind != 1 && xtail x 43 2 != 0)
        || (!map && xtail x 35 3 != 0) || (!mxs && xs != 0) || (kind == 2 && map)) 3
      ++ (if mxs then codeCauses (.vreg 1) xs else [])
      ++ causeIf ((matRow (matTA x) (matTB x) (matTACC x) (matTRT x) (matMXS x) (matSLC x) (matPS x) (kind == 1)).isNone
        || matKC x == 0 || decide (8 < matKC x) || (xtail x 38 1 == 0 && decide (8 ≤ xtail x 39 4))
        || (matTACC x == 0xB && matSlot x % 2 == 1) || (xtail x 32 1 == 1 && (map || kind == 2))) 0x0D }

/-- `azero` (R223). -/
def sigAzero (f : FWord) : Sig :=
  { causes := causeIf (fmod f 7 3 != 0 || f.nwb) 3
      ++ causeIf (!([8, 0xA, 0xB].contains (fmod f 3 4)) || (fmod f 3 4 == 0xB && fmod f 0 3 % 2 == 1)) 0x0D }

/-- The types of a slot (R196). -/
def slotTypes : List Nat := [8, 0xA, 0xB]

/-- Pairs of ET and TACC that leave a slot (R216). -/
def outPair (et tacc : Nat) : Bool :=
  match tacc with
  | 0xA => [0xA, 0, 1].contains et
  | 8 => [8, 7, 6, 2, 3].contains et
  | 0xB => [9, 8, 6, 7, 0xB].contains et
  | _ => false

/-- Pairs of ET and TACC that enter a slot (R224). -/
def inPair (et tacc : Nat) : Bool :=
  match tacc with
  | 0xA => et == 0xA
  | 8 => [8, 7, 6].contains et
  | 0xB => [0xB, 9, 8].contains et
  | _ => false

/-- SAT has a meaning for the conversion (R216, R155). -/
def satMeans (et tacc : Nat) : Bool :=
  match tacc with
  | 0xA => et == 0 || et == 1
  | 8 => [7, 6, 2, 3].contains et
  | _ => false

/-- `aload`, `astore`, `aread`, `awrite` (R224): whether the instruction takes from a slot, and whether it moves a fragment. An odd SLOT
with `lacc` has cause 0x0D in each of them, and no code of NRM1 has a cause of its own. (DEDUCED: log 76) -/
def sigAcc (x : XWord) (out frag : Bool) : Sig :=
  let et := xtail x 14 4
  let tacc := xtail x 10 4
  let rnd := xtail x 21 3
  let sat := xtail x 24 1
  { dst := if out && frag then .vout 1 else .unused, sa := if frag then (if out then .unused else .vreg 1) else .int 1,
    sb := if frag then .int 1 else .unused,
    causes := causeIf (x.moda != 0 || xtail x 38 26 != 0 || (!frag && xtail x 30 8 != 0) || (frag && xtail x 25 5 != 0)
        || (!out && (sat != 0 || rnd != 0)) || xtail x 2 8 != 0) 3
      ++ causeIf (!(if out then outPair et tacc else inPair et tacc) || decide (4 < rnd) || (sat == 1 && !satMeans et tacc)
        || (out && tacc == 0xB && et == 0xB && rnd != 0) || (!frag && xtail x 25 1 == 0 && decide (8 ≤ xtail x 26 4))
        || (tacc == 0xB && xtail x 18 3 % 2 == 1)) 0x0D }

/-- The element types of a map or handle: every type of R197. -/
def etypeOk (t : Nat) : Bool := decide (t ≤ 4) || (decide (6 ≤ t) && decide (t ≤ 0xB))

/-- `omap` (R228). -/
def sigOmap (x : XWord) : Sig :=
  let sc := xtail x 11 1 == 1
  { sa := .int 1, sb := .int 1,
    causes := causeIf (x.moda != 0 || xtail x 12 52 != 0 || (sc && (xtail x 5 4 != 0 || xtail x 9 2 != 0))) 3
      ++ causeIf (decide (2 ≤ xtail x 9 2) || !etypeOk (xtail x 5 4)) 0x0D }

/-- `thdl` (R228). -/
def sigThdl (x : XWord) : Sig :=
  let sc := xtail x 10 1 == 1
  { sa := .reg 2, sb := .int 1, sc := if sc then .unused else .int 1,
    causes := causeIf (x.moda != 0 || xtail x 11 53 != 0 || (sc && xtail x 6 4 != 0)) 3 ++ causeIf (!etypeOk (xtail x 6 4)) 0x0D }

/-- `mst.rd` and `mst.clr` (R227). -/
def sigMst (f : FWord) (rd : Bool) : Sig :=
  { dst := if rd then .out 2 else .unused, causes := causeIf (f.mod != 0) 3 }

/-! ### Ray queries (chapter 10) -/

/-- A query's sixteen registers, named by their first (R248). -/
def useQ : Use := .named 16
/-- Some registers of a query from its Qi on. -/
def qRegs (o : Opnd) (i words : Nat) (reads writes : Bool) : Extra :=
  ⟨match o with | .v n => .v (n + BitVec.ofNat 8 i) | o => o, words, reads, writes⟩
def vOf (o : Opnd) : Nat := match o with | .v n => n.toNat | _ => 256

/-- `rq.init` (R253, R254). -/
def sigRqInit (x : XWord) : Sig :=
  { dst := useQ, sa := .reg 2, sb := .int 1, sc := .int 1, extra := [qRegs x.dst 0 9 true false, qRegs x.dst 8 8 false true],
    causes := causeIf (x.moda != 0 || x.modb != 0) 3 }

/-- The candidate block is a multiple of 8, and does not meet the query (R253). -/
def blockCauses (c q : Opnd) : List Nat :=
  causeIf (vOf c % 8 != 0) 4 ++ causeIf (decide (vOf c < vOf q + 16) && decide (vOf q < vOf c + 8)) 0x0D

/-- What a traversal reads and writes of a query (R242 to R255). -/
def qRun (o : Opnd) : List Extra := [qRegs o 0 7 true false, qRegs o 7 1 true true, qRegs o 8 1 true false, qRegs o 9 1 true true, qRegs o 10 4 false true, qRegs o 14 2 true false]

/-- `rq.run` (R253). -/
def sigRqRun (x : XWord) : Sig :=
  { dst := .dst 8 false, sa := useQ, sb := .int 1, extra := qRun x.sa,
    causes := causeIf (x.moda != 0 || xtail x 2 42 != 0) 3 ++ blockCauses x.dst x.sa ++ qidCauses x [3] ++ tagCauses x [] }

/-- `rq.acc` (R253, R256). -/
def sigRqAcc (f : FWord) : Sig :=
  { sa := useQ, sb := .vreg 8,
    extra := [qRegs f.sa 3 1 true false, qRegs f.sa 7 1 true true, qRegs f.sa 9 1 true true, qRegs f.sa 10 4 false true],
    causes := causeIf (f.nwb || f.mod != 0) 3 ++ blockCauses f.sb f.sa }

/-- `rq.rej` and `rq.end` (R253). -/
def sigRqRej (f : FWord) : Sig := { sa := useQ, extra := [qRegs f.sa 9 1 true true], causes := causeIf (f.nwb || f.mod != 0) 3 }

/-- `rq.get` (R253, R257). -/
def sigRqGet (f : FWord) : Sig :=
  { dst := .out 1, sa := useQ, extra := [qRegs f.sa (match fmod f 0 4 with | 2 | 4 => 10 | 3 | 5 => 11 | 6 => 7 | _ => 9) 1 true false], causes := causeIf (f.nwb || fmod f 4 6 != 0) 3 ++ causeIf (decide (8 ≤ fmod f 0 4)) 0x0D }

/-- `rq.set` (R253, R257). -/
def sigRqSet (f : FWord) : Sig :=
  { sa := useQ, sb := .int 1,
    extra := if fmod f 0 4 = 0 then [qRegs f.sa 3 1 true false, qRegs f.sa 7 1 true true, qRegs f.sa 9 1 true false] else [qRegs f.sa 9 1 true true],
    causes := causeIf (f.nwb || fmod f 4 6 != 0) 3 ++ causeIf (decide (3 ≤ fmod f 0 4)) 0x0D }

/-! ### Dicing and sampling (chapter 11) -/

/-- The engine commands of R272: the address operands, the queue, the first reserved bit of MODB, and whether NU and NV are named. -/
def sigSamp (x : XWord) (sa sb : Bool) (q lo : Nat) (dims : Bool) : Sig :=
  { sa := if sa then .reg 2 else .unused, sb := if sb then .reg 2 else .unused, sc := useBar x,
    causes := causeIf (xmod x 3 9 != 0 || xtail x lo (44 - lo) != 0) 3 ++ barCauses x ++ qidCauses x [q]
      ++ tagCauses x ((if sa then [0] else []) ++ (if sb then [1] else []) ++ (if xmod x 2 1 = 1 then [] else [2]))
      ++ causeIf (dims && (xtail x 5 5 == 0 || xtail x 10 5 == 0)) 0x0D }

/-- `stat.rd` (R274). -/
def sigStatRd (f : FWord) : Sig := { dst := .out 2, sa := .int 1, sb := .int 1, causes := causeIf (f.mod != 0) 3 }

/-! ### The radiance cache (chapter 12) -/

/-- An input block of sixteen registers, a multiple of 16 (R285). -/
def blockOk (o : Opnd) : List Nat := causeIf (vOf o % 16 != 0 && vOf o != 256) 4

/-- `rcq` (R285). -/
def sigRcq (x : XWord) : Sig :=
  { dst := .vout 4, sa := .vreg 16, causes := causeIf (xmod x 2 10 != 0 || x.modb != 0) 3 ++ blockOk x.sa }

/-- `rct` (R285). -/
def sigRct (x : XWord) : Sig :=
  { dst := .vout 4, sa := .vreg 16, sb := .vreg 4,
    causes := causeIf (xmod x 2 10 != 0 || xtail x 2 42 != 0) 3 ++ blockOk x.sa ++ qidCauses x [7] ++ tagCauses x [] }

/-- `rc.sync` (R292): SB is a register or an FP constant. -/
def sigRcSync (x : XWord) : Sig :=
  { sb := .src 1 true false false false (some .f32), sc := useBar x,
    causes := causeIf (xmod x 5 7 != 0 || xtail x 2 42 != 0) 3 ++ barCauses x ++ qidCauses x [7]
      ++ tagCauses x ([1] ++ (if xmod x 2 1 = 1 then [] else [2])) }

/-- `rc.cfg` (R293): `op` is the form's code. -/
def sigRcCfg (x : XWord) (op : Nat) : Sig :=
  { dst := .out 1, sa := if op = 0 then .reg 2 else .unused, sb := if op = 2 then .int 1 else .unused,
    causes := causeIf (xmod x 4 8 != 0 || x.modb != 0) 3 ++ causeIf (xmod x 2 2 != op) 0x0D }

/-! ### Tasks and tapes (chapter 17) -/

/-- `spawn` (R353): four quads. -/
def sigSpawn (x : XWord) : Sig :=
  let q := xmod x 0 9
  { dst := .vout 1, sa := .vreg 4, sb := .vreg 4, sc := .vreg 4, extra := codeExtra q 4 true false,
    causes := causeIf (xmod x 9 3 != 0 || x.modb != 0) 3 ++ codeCauses (.vreg 4) q }

/-- `coal.flush` (R357): `op` is the form's code. -/
def sigCoal (x : XWord) (op : Nat) : Sig :=
  { dst := .out 1, sa := .int 1, sb := if op = 2 then .int 1 else .unused,
    causes := causeIf (xmod x 2 10 != 0 || x.modb != 0) 3 ++ causeIf (xmod x 0 2 != op) 0x0D }

/-- `launch` (R358). -/
def sigLaunch (x : XWord) : Sig :=
  let ovr := xmod x 3 2
  { sa := .reg 2, sb := if ovr = 0 then .unused else .int 2, sc := useBar x,
    causes := causeIf (xmod x 5 7 != 0 || xtail x 2 42 != 0) 3 ++ barCauses x ++ qidCauses x [0]
      ++ tagCauses x ([0] ++ (if ovr = 0 then [] else [1]) ++ (if xmod x 2 1 = 1 then [] else [2])) ++ causeIf (ovr == 3) 0x0D }

/-- `tape.rec`, `tape.drop` (R364): the words of SA. -/
def sigTapeX (x : XWord) (sa : Use) : Sig := { dst := .out 1, sa := sa, causes := causeIf (x.moda != 0 || x.modb != 0) 3 }

/-- `tape.stop` (R364). -/
def sigTapeStop (f : FWord) : Sig := { dst := .out 1, causes := causeIf (f.mod != 0 || f.nwb) 3 }

/-- `tape.play` (R364). -/
def sigTapePlay (x : XWord) : Sig :=
  let np := xmod x 0 1 == 1
  { dst := .out 1, sa := .int 1, sb := if np then .unused else .reg 2, sc := if np then .unused else .int 1,
    causes := causeIf (xmod x 1 11 != 0 || x.modb != 0) 3 }

/-- `tape.patch.slot` (R364). -/
def sigPatchSlot (x : XWord) : Sig :=
  { dst := .out 1, sa := .int 1, sb := .int 2, sc := .int 1,
    causes := causeIf (xmod x 1 11 != 0 || x.modb != 0) 3 ++ causeIf (xmod x 0 1 != 0) 0x0D }

/-- `tape.patch` of a guard (R364). -/
def sigPatchGuard (x : XWord) : Sig :=
  let cap := xmod x 4 1 == 1
  { dst := .out 1, sa := .int 1, sb := .reg 2, sc := if cap then .unused else .int 2,
    causes := causeIf (xmod x 5 7 != 0 || xtail x 20 44 != 0) 3 ++ causeIf (xmod x 0 1 != 1) 0x0D }

end Sys2Proof.Machine
end

