-- ==== Sys2Proof/Machine/Legal.lean ====
section
/-! DEFINITION. The shape of every instruction, decoding of words, and the causes of R43, the registers and the latches that follow from it. -/
namespace Sys2Proof.Machine

/-- The shape of an instruction; P words and the other agents' steps have none. (DEDUCED: log 14) -/
def sigOf (i : Instr) : Sig :=
  match i with
  | .iadd f => sigInt f 2 true true
  | .isub f => sigInt f 2 true true
  | .iadd3 f => sigInt f 3 true true
  | .imul f => sigInt f 2 false false
  | .imulhi f => sigInt f 2 true false
  | .imad f => sigInt f 3 false false
  | .imadw f => sigImadw f
  | .imin f => sigInt f 2 true false
  | .imax f => sigInt f 2 true false
  | .iabs f => sigIabs f
  | .ineg f => sigInt f 1 true true
  | .and f => sigInt f 2 false false
  | .or f => sigInt f 2 false false
  | .xor f => sigInt f 2 false false
  | .not f => sigInt f 1 false false
  | .lfn3 f => sigLfn3 f
  | .shl f => sigShift f
  | .shr f => sigShift f
  | .sar f => sigShift f
  | .fsh f => sigFsh f
  | .fext f => sigFext f
  | .fdep f => sigFdep f
  | .bsel f => sigBsel f
  | .popc f => sigCount f
  | .clz f => sigCount f
  | .ctz f => sigCount f
  | .brev f => sigInt f 1 false false
  | .sel f => sigSel f
  | .icmp f => sigIcmp f
  | .setp f => sigSetp f
  | .mov f => sigMov f
  | .li x => sigLi x
  | .lea f => sigLea f
  | .rand f => sigRand f
  | .fadd f => sigFp f 2 false true
  | .fsub f => sigFp f 2 false true
  | .fmul f => sigFp f 2 false true
  | .fma f => sigFp f 3 false true
  | .fdiv f => sigFp f 2 false true
  | .fsqrt f => sigFp f 1 false true
  | .fscale f => sigFp f 2 true true
  | .fround f => sigFp f 1 false true
  | .fmin f => sigFp f 2 false false
  | .fmax f => sigFp f 2 false false
  | .fminx f => sigFp f 2 false false
  | .fmaxx f => sigFp f 2 false false
  | .fcmp f => sigFcmp f
  | .fclass f => sigFclass f
  | .frcp f => sigFp f 1 false false
  | .frsq f => sigFp f 1 false false
  | .fex2 f => sigFp f 1 false false
  | .flg2 f => sigFp f 1 false false
  | .fsin f => sigFp f 1 false false
  | .fcos f => sigFp f 1 false false
  | .cvt x => sigCvt x
  | .mxscale f => sigMxscale f
  | .shfl f => sigShfl f
  | .vote f => sigVote f
  | .matchLanes f => sigMatch f
  | .elect f => sigElect f
  | .lred f => sigLane f false
  | .lscan f => sigLane f true
  | .bra x => sigBra x
  | .brx f => sigBrx f
  | .call x => sigCall x
  | .ret f => sigRet f
  | .exit f => sigBare f
  | .yield f => sigBare f
  | .nap f => sigNap f
  | .trap f => sigTrap f
  | .brk f => sigTrap f
  | .ldL f => sigLd f false
  | .ldLp f => sigLd f false
  | .ldG f => sigLd f true
  | .ldC f => sigLd f false
  | .stL f => sigSt f false
  | .stLp f => sigSt f false
  | .stG f => sigSt f true
  | .prf f => sigPrf f
  | .rgrow f => sigGrow f true
  | .rshrink f => sigGrow f false
  | .segld f => sigSegld f
  | .atom x => sigAtom x false false
  | .red x => sigAtom x true false
  | .atomAgg x => sigAtom x false true
  | .ldx f => sigLdx f false
  | .stx f => sigLdx f true
  | .ldAcq f => sigLdx f false
  | .stRel f => sigLdx f true
  | .fenceAcq f => sigNone f
  | .fenceRel f => sigNone f
  | .fenceAr f => sigNone f
  | .droAdd x => sigDroAdd x
  | .droGet x => sigDroGet x
  | .cpG2l x => sigCopy x false true false
  | .cpL2g x => sigCopy x true false false
  | .cpG2g x => sigCopy x true true false
  | .cpL2l x => sigCopy x false false true
  | .cpT2l x => sigCopy x false true false
  | .cpL2t x => sigCopy x true false false
  | .coll x => sigColl x
  | .barInit x => sigBar x false true false [0, 1]
  | .barArrive x => sigBar x true true false [0, 1]
  | .barExpect x => sigBar x false true true [0, 1]
  | .barWait x => sigBar x true true false [0]
  | .barTest f => sigBarTest f
  | .barInval x => sigBar x false false false [0]
  | .presQ f => sigPres f 0
  | .presF f => sigPres f 1
  | .presClr f => sigPres f 2
  | .wmap x => sigWin x true false
  | .wunmap x => sigWin x false false
  | .wflush x => sigWin x false true
  | .qfence x => sigQfence x
  | .mma x => sigMma x 0
  | .mmaSp x => sigMma x 1
  | .mmaT x => sigMma x 2
  | .azero f => sigAzero f
  | .aload x => sigAcc x false false
  | .astore x => sigAcc x true false
  | .aread x => sigAcc x true true
  | .awrite x => sigAcc x false true
  | .omap x => sigOmap x
  | .thdl x => sigThdl x
  | .mstRd f => sigMst f true
  | .mstClr f => sigMst f false
  | .rqInit x => sigRqInit x
  | .rqRun x => sigRqRun x
  | .rqAcc f => sigRqAcc f
  | .rqRej f => sigRqRej f
  | .rqGet f => sigRqGet f
  | .rqSet f => sigRqSet f
  | .rqEnd f => sigRqRej f
  | .dice x => sigSamp x true true 5 15 true
  | .gridEmit x => sigSamp x true false 5 5 false
  | .smpBegin x => sigSamp x true false 6 5 false
  | .smpEnd x => sigSamp x false false 6 5 false
  | .smpRes x => sigSamp x true false 6 7 false
  | .statRd f => sigStatRd f
  | .rcq x => sigRcq x
  | .rct x => sigRct x
  | .rcSync x => sigRcSync x
  | .rcCfgAttach x => sigRcCfg x 0
  | .rcCfgDetach x => sigRcCfg x 1
  | .rcCfgStat x => sigRcCfg x 2
  | .launch x => sigLaunch x
  | .spawn x => sigSpawn x
  | .taskEnd f => sigNone f
  | .coalFlushNow x => sigCoal x 0
  | .coalFlushDone x => sigCoal x 1
  | .coalFlushProd x => sigCoal x 2
  | .tapeRec x => sigTapeX x (.reg 2)
  | .tapeStop f => sigTapeStop f
  | .tapePlay x => sigTapePlay x
  | .tapePatchSlot x => sigPatchSlot x
  | .tapePatchGuard x => sigPatchGuard x
  | .tapeDrop x => sigTapeX x (.int 1)
  | .cvSign f => sigCv f
  | .cvWait f => sigCv f
  | .barTeam f => sigNone f
  | .barCl f => sigNone f
  | .prioSet f => sigPrio f
  | .loc f => sigLoc f
  | .sysrd f => sigSysrd f
  | .syswr f => sigSyswr f
  | .clk f => sigClk f
  | .tlbinv x => sigTlbinv x
  | .cwb x => sigCwb x true
  | .cinv x => sigCwb x false
  | .domSw x => sigDomSw x
  | .routeSw x => sigRouteSw x
  | .dieQ f => sigDieQ f
  | .dieRstFrost x => sigDieRst x 0
  | .dieRstReset x => sigDieRst x 1
  | .dieRstThaw x => sigDieRst x 2
  | .iret f => sigIret f
  | .ctxsavePre x => sigCtx x 0 false false
  | .ctxsaveDump x => sigCtx x 1 true false
  | .ctxrestLoad x => sigCtx x 0 true false
  | .ctxrestResume x => sigCtx x 1 false true
  | .ctxrestEnd x => sigCtx x 2 false false
  | .smpcfgConf x => sigSmpcfg x 0
  | .smpcfgRing x => sigSmpcfg x 1
  | .smpcfgAck x => sigSmpcfg x 2
  | .smpcfgReset x => sigSmpcfg x 3
  | .smpcfgStat x => sigSmpcfg x 4
  | .issue _ _ => {}
  | .aging _ => {}
  | .pWord _ => {}
  | .napExpiry _ _ => {}
  | .rgrowGrant _ => {}
  | .loadReply _ _ _ => {}
  | .storeRegistrationAck _ _ _ => {}
  | .parkedAccessResume _ => {}
  | .windowEviction _ _ => {}
  | .accessSample _ _ => {}
  | .hotPagePendingPost _ => {}
  | .sliceAccess _ _ => {}
  | .sweepWaitRelease _ _ => {}
  | .flitCrcResend _ _ _ _ => {}
  | .moduleRetrain _ _ _ _ => {}
  | .moduleDisable _ _ _ => {}
  | .atomicReturn _ _ _ => {}
  | .copyEnginePerform _ => {}
  | .engineQueueRoom _ => {}
  | .collStart _ _ => {}
  | .arrayPerform _ => {}
  | .binActivate _ _ => {}
  | .binDone _ _ => {}
  | .rctOffer _ => {}
  | .equinoxTrain _ => {}
  | .equinoxStep _ => {}
  | .publication _ => {}
  | .ringRoomResume _ _ => {}
  | .taskDelivery _ => {}
  | .taskWdog _ => {}
  | .nodeFlushTimer _ _ => {}
  | .nodeRelease _ _ => {}
  | .registerWrite _ _ _ _ => {}
  | .seedWrite _ => {}
  | .prioWrite _ _ => {}
  | .fansRetry _ => {}
  | .fansDeliver _ => {}
  | .dieQuiesce _ => {}
  | .dieResetDone _ _ => {}
  | .dispatchAccept _ => {}
  | .leasePreparation _ => {}
  | .teamLaunch _ => {}
  | .groupRetire _ => {}
  | .dispatchEnd _ => {}
  | .preemptionRequest _ _ => {}
  | .clusterSave _ _ => {}
  | .clusterResume _ _ => {}
  | .selfTestStart _ => {}
  | .selfTestDone _ _ => {}
  | .queueRoomPost _ => {}
  | .qdoor _ _ => {}
  | .dispatch _ => {}
  | .hostTapePlay _ => {}
  | .signal _ => {}
  | .wait _ => {}
  | .waitMet _ => {}
  | .qcreate _ _ _ => {}
  | .partcreate _ => {}
  | .partdestroy _ => {}
  | .devnum _ => {}
  | .status => {}
  | .attest _ => {}
  | .pcap _ => {}
  | .hostCoherentAccess _ => {}
  | .kflRemoteRequest _ _ => {}
  | .powerOn => {}
  | .clockThrottle _ _ => {}
  | .thermalCritical _ _ => {}
  | .savePoolFramesArrive => {}
  | .l1Eviction _ _ => {}
  | .scrubberPass _ => {}

/-- The opcode lies below 0x140, so that the instruction may carry HOLD (R31). -/
def isBaseOp (opc : Nat) : Bool := decide (opc < 0x140)

/-- The causes of R43 that the instruction's own words give. (DEDUCED: log 14) -/
def staticCauses (i : Instr) : List Nat :=
  match frameOf i with
  | .f opc f => (sigOf i).causesF f (isBaseOp opc)
  | .x _ x => (sigOf i).causesX x
  | .p p => causesP p
  | .event => []

/-- The cause of a word whose opcode belongs to another frame (R21): a destination under NWB or a DST code that R22 does not allow is the lower
cause. (DEDUCED: log 14) -/
def otherFrame (nwb : Bool) (d : Opnd) : Nat :=
  if nwb && opndCode d != 0 then 3 else match d with | .v _ | .k _ => 7 | _ => 5

/-- The cause of a head without a tail (R21), or the lower one that the head's own fields give, MODB taken as zero. (DEDUCED: log 14) -/
def noTail (opc : Nat) (x : XWord) : Nat :=
  match xOfOpcode opc x with
  | some i => (minCause (7 :: staticCauses i)).getD 7
  | none => otherFrame false x.dst

/-- An F word's instruction (R13). -/
def decodeF (w : Nat) : Except Nat Instr :=
  let opc := fldN w 2 10
  if !isFOpcode opc && !isXOpcode opc then .error 1
  else
    match operandCodes w 12 22 31 40 with
    | none => .error 2
    | some (d, a, b, c) =>
      match fOfOpcode opc ⟨w.testBit 63, BitVec.ofNat 10 (fldN w 53 10), BitVec.ofNat 4 (fldN w 49 4), c, b, a, w.testBit 21, d⟩ with
      | some i => .ok i
      | none => .error (otherFrame (w.testBit 21) d)

/-- An X instruction (R20); a head whose next word is no tail is illegal (R21). -/
def decodeX (w t : Nat) : Except Nat Instr :=
  let opc := fldN w 2 10
  if !isFOpcode opc && !isXOpcode opc then .error 1
  else
    match operandCodes w 12 21 30 39 with
    | none => .error 2
    | some (d, a, b, c) =>
      let x (modb : Nat) : XWord := ⟨BitVec.ofNat 12 (fldN w 52 12), BitVec.ofNat 4 (fldN w 48 4), c, b, a, d, BitVec.ofNat 62 modb⟩
      if fldN t 0 2 != 3 then .error (noTail opc (x 0))
      else
        match xOfOpcode opc (x (fldN t 2 62)) with
        | some i => .ok i
        | none => .error (otherFrame false d)

/-- The instruction of the words at an issue address, or the cause of R43 that the map and the frames give. -/
def decodeWords (w t : Nat) : Except Nat Instr :=
  match w % 4 with
  | 0 => decodeF w
  | 1 => (decodeP w).map .pWord
  | 2 => decodeX w t
  | _ => .error 7

/-- The registers that an instruction reads and writes. -/
def regUse (i : Instr) : RegUse :=
  match frameOf i with
  | .f _ f => (sigOf i).regsF f
  | .x _ x => (sigOf i).regsX x
  | .p p => regsP p
  | .event => ⟨[], []⟩

/-- The registers that a field names without reading or writing them all (R126, R253). -/
def namedRegs (i : Instr) : List Nat :=
  let of (u : Use) (o : Opnd) : List Nat := match u with | .named w => opndRegs o w | _ => []
  match frameOf i with
  | .f _ f => of (sigOf i).sa f.sa
  | .x _ x => of (sigOf i).dst x.dst ++ of (sigOf i).sa x.sa
  | _ => []

/-- The latches that an instruction names and the widths it reads. -/
def latchUse (i : Instr) : List (Nat × Nat) :=
  match frameOf i with
  | .f _ f => (sigOf i).latchesF f
  | .x _ x => (sigOf i).latchesX x
  | _ => []

/-- PRED of an instruction; a P word has none and acts under p7 (R18). -/
def instrPred (i : Instr) : BitVec 4 :=
  match frameOf i with | .f _ f => f.pred | .x _ x => x.pred | _ => 7

/-- HOLD of an instruction. -/
def instrHold (i : Instr) : Bool := match frameOf i with | .f _ f => f.hold | _ => false

/-- The width of a latch producer's result: an F instruction below 0x140 with a destination field (R30); a wider result,
`mov.b128`'s, fills the latch with its low 64 bits. (DESIGN CHOICE: log 71) -/
def producerWidth (i : Instr) : Option Nat :=
  match frameOf i with
  | .f opc _ => if isBaseOp opc then (match (sigOf i).dst with | .dst w _ => some (min 64 (32 * w)) | _ => none) else none
  | _ => none

/-- The S opcodes of R41. -/
def isPrivOp (opc : Nat) : Bool :=
  [0x1A0, 0x308, 0x309, 0x30A, 0x310, 0x311, 0x318, 0x319, 0x321, 0x322, 0x328].contains opc

/-- Privileged: an S instruction, or an access to a privileged system register (R40, R381). -/
def isPriv (i : Instr) : Bool :=
  match i with
  | .sysrd f | .syswr f => match sregInfo f.mod.toNat with | some r => r.priv | none => false
  | _ => match frameOf i with | .f opc _ | .x opc _ => isPrivOp opc | _ => false

/-- The instructions that are legal only in a task dispatch (R347, R353, R357). -/
def isTaskOnly (i : Instr) : Bool :=
  match i with
  | .taskEnd _ | .spawn _ | .coalFlushNow _ | .coalFlushDone _ | .coalFlushProd _ => true
  | _ => false

end Sys2Proof.Machine
end

