-- ==== Sys2Proof/Machine/Frag.lean ====
section
/-! DEFINITION. The registers that fragments span (R199, R200, R207), and the operand fields that size them. -/
namespace Sys2Proof.Machine

def fragWords (n bits : Nat) : Nat := (n * bits + 31) / 32
/-- Registers of a fragment in a group of width w (R200). -/
def fragRegs (w words : Nat) : Nat := (words + w - 1) / w

/-- The fragment words of a multiply's A, its scales and its indices, for a number of rows (R199, R200, R207). -/
def matAWords (y : XWord) (row m : Nat) : Nat := fragWords (m * ((if row = 5 then 16 else 32) * matKC y)) (etBits (matTA y))
def matSWords (y : XWord) (sp : Bool) (m : Nat) : Nat := fragWords (m * ((if sp then 2 else 1) * matKC y)) 8
def matIWords (y : XWord) : Nat := fragWords (128 * (16 * matKC y)) 4

/-- The row of R198 of a multiply. -/
def mulRow (y : XWord) (sp : Bool) : Nat :=
  (matRow (matTA y) (matTB y) (matTACC y) (matTRT y) (matMXS y) (matSLC y) (matPS y) sp).getD 1
def mulM (y : XWord) : Nat := if matTACC y = 0xB then 64 else 128
def mulK (y : XWord) (sp : Bool) : Nat := (if matTACC y = 0xB then 16 else 32) * matKC y * (if sp then 2 else 1)

/-- The fields of R224; NRM1 is read with all its 8 bits. (DEDUCED: log 76) -/
def accET (y : XWord) : Nat := xtail y 14 4
def accTACC (y : XWord) : Nat := xtail y 10 4
def accN (y : XWord) : Nat := xtail y 30 8 + 1
/-- (DEDUCED: log 39) -/
def accM (y : XWord) : Nat := if accTACC y = 0xB then 64 else 128

/-- The number of a v register operand. -/
def vNum (o : Opnd) : Nat := match o with | .v n => n.toNat | _ => 0

/-- Some registers from a base up. -/
def regSpan (base n : Nat) : List Nat := (List.range n).map (base + ·)

/-- The registers that a multiply's fragments span: A, its scales, the index entries. -/
def mulSpan (w : Nat) (y : XWord) (sp : Bool) (m : Nat) : List Nat :=
  (if matASRC y = 1 then [] else regSpan (vNum y.sa) (fragRegs w (matAWords y (mulRow y sp) m)))
  ++ (if matMXS y = 0 then [] else regSpan (xmod y 0 9) (fragRegs w (matSWords y sp m)))
  ++ (if sp then regSpan (vNum y.sc) (fragRegs (w / 4) (matIWords y)) else [])

/-- The fragment registers of an instruction in a group of width w (R200); `members` divides the rows of `mma.t` (R222). -/
def fragUse (w members : Nat) (i : Instr) : RegUse :=
  match i with
  | .mma y => ⟨mulSpan w y false (mulM y), []⟩
  | .mmaSp y => ⟨mulSpan w y true (mulM y), []⟩
  | .mmaT y => ⟨mulSpan w y false (mulM y / max 1 members), []⟩
  | .aread y => ⟨[], regSpan (vNum y.dst) (fragRegs w (fragWords (accN y * 128) (etBits (accET y))))⟩
  | .awrite y => ⟨regSpan (vNum y.sa) (fragRegs w (fragWords (accN y * 128) (etBits (accET y)))), []⟩
  | _ => ⟨[], []⟩

end Sys2Proof.Machine
end

