-- ==== Sys2Proof/Machine/State.lean ====
section
/-! DEFINITION. The state of the Kamolo K4 as plain data, the reasons a step can stop, and the state after reset.
Tables are lists of keys and values in the canonical form of `Machine/Bits.lean`; what an unlisted key reads as is the default
that each field's docstring names. -/
namespace Sys2Proof.Machine

/-- The life of a group (R334). -/
inductive GState where
  | run | park | fault | handler | held | saved | exit | retired
  deriving DecidableEq, Repr

/-- A chain in progress (R31 to R35): its head's address, the lanes the head served, the lanes that were live as it issued, the members issued,
the widths of its producers' results, the latest first, and the registers its members read. -/
structure Chain where
  head : DWord
  lanes : DWord
  live : DWord
  pos : Nat
  widths : List Nat
  reads : List Nat
  deriving DecidableEq, Repr

/-- What handler entry copies (R388), and the number that the group's accesses have reached (R419). -/
structure Shadow where
  pcv : List DWord
  preds : List (Nat × DWord)
  deferred : DWord
  seq : Nat
  deriving DecidableEq, Repr

/-- A trap record's eight words (R385). -/
abbrev TrapWords := List DWord

/-- Why a group is parked as a whole, and what ends it. -/
inductive Wait where
  | none
  /-- waits for lines of a core's local memory (R95); `write` says that reads of the lines hold it too -/
  | lines (core : Nat) (ls : List Nat) (write : Bool)
  /-- waits for engine counts or a queue to have room (R94, R109) -/
  | queueRoom (core queue : Nat)
  /-- a replayable fault: its tag (R81) -/
  | fault (tag : Nat)
  /-- a mapping under migration (R89) -/
  | migration (asid : Nat)
  /-- the successor update of an ended task meets a mapping under migration (R89, R348) -/
  | succMig (asid : Nat)
  /-- `rgrow` (R128): the target -/
  | rgrow (n : Nat)
  /-- `bar.wait` (R107): the barrier's place, or its offset in a core's local memory, the token, and the operand address -/
  | bar (place : Nat) (core : Option Nat) (token addr : Nat)
  /-- `cv.wait` (R336): the register -/
  | cv (n : Nat)
  /-- `mma.t` parked with its signature in a register (R222) -/
  | mmaT (n : Nat)
  | barTeam
  | barCl
  /-- a `dro.get` (R306): the objects' places -/
  | dro (places : List Nat)
  /-- `qfence.c` (R110): the queues -/
  | qfence (mask : Nat)
  /-- room in a task ring (R354) -/
  | ring
  /-- a query whose version is not yet published (R283) -/
  | query (net : Nat)
  /-- an `rct` whose offers are not yet performed (R286) -/
  | offers
  /-- waits for a task record (R346) -/
  | task
  /-- a system instruction in progress (R394): a number that says which, what it acts on, and the status it will write -/
  | sys (what arg val : Nat)
  /-- `tape.play` (R366): its tape, and whether the replay holds on a `bar.wait` or a `qfence` with C (R371) -/
  | tape (h : Nat) (held : Bool)
  /-- waits for nothing: executes again when resumed -/
  | again
  deriving DecidableEq, Repr

/-- How a parked instruction completes at its release: where its lanes go on, the lanes served and active, its destination. -/
structure ParkInfo where
  next : DWord
  served : DWord
  active : DWord
  dst : Option (Opnd × Nat)
  /-- the predicate that its active lanes set at the release; 7 for none (R127) -/
  pd : Nat
  deriving DecidableEq, Repr

/-- One lane's access of an instruction in flight: lane, first place, physical and virtual address. -/
structure LaneAcc where
  lane : Nat
  place : Nat
  pa : Nat
  va : Nat
  /-- the home slice that the requester chose (R61, R65) -/
  home : Nat
  /-- the time that an access before it in local order gives its read as the least (R312) -/
  low : Nat
  deriving DecidableEq, Repr

/-- What an instruction in flight does when it is performed. -/
inductive FlightOp where
  /-- a plain load (R137) -/
  | load
  /-- a load of the constant space (R141) -/
  | loadc
  /-- a load at the point of coherence (R307); `acq` for `ld.acq` -/
  | loadx (acq : Bool)
  /-- `atom` (R302) with its operands by lane -/
  | atom (op : AtomOp) (ty : AtomTy) (acq : Bool) (b c : List (Nat × Nat))
  /-- `atom.agg` (R303) -/
  | agg (op : AtomOp) (ty : AtomTy) (acq : Bool) (b : List (Nat × Nat))
  deriving DecidableEq, Repr

/-- A load or atomic in flight (R317, R419). -/
structure Flight where
  seq : Nat
  pc : DWord
  op : FlightOp
  size : Nat
  signed : Bool
  dst : Option Opnd
  words : Nat
  lanes : List LaneAcc
  /-- the domain generation under which homes were chosen (R63) -/
  gen : Nat
  /-- the lanes still to be performed (R302) -/
  left : List Nat
  /-- the values by lane once performed, the times of their reads, and the lanes that met uncorrectable data or an error reply -/
  got : List (Nat × Nat)
  times : List (Nat × Nat)
  bad : List Nat
  rem : List Nat
  /-- the write of a release (R308) -/
  rel : Bool
  deriving DecidableEq, Repr

/-- One lane's store or `red` accepted and not yet registered (R139, R310): its bytes by place, or the atomic it performs with its
operand and compare value; `sweep` says that it waits at a slice for a sweep (R65). -/
structure PendStore where
  seq : Nat
  va : DWord
  pa : Nat
  home : Nat
  gen : Nat
  size : Nat
  place : Nat
  bytes : List (Nat × Byte)
  red : Option (AtomOp × AtomTy × DWord × DWord)
  /-- the write of a release (R308) -/
  rel : Bool
  deriving DecidableEq, Repr

/-- An entry of the pending-load errors (R419). -/
structure LateErr where
  seq : Nat
  addr : DWord
  kind : Nat
  cause : Nat
  mask : DWord
  lane : Nat
  daddr : DWord
  acc : Nat
  deriving DecidableEq, Repr

/-- The task a worker runs (R346, R353). -/
structure TaskCtx where
  tidx : DWord
  arg : DWord
  tcrd : DWord
  succ : DWord
  start : Nat
  limit : Nat
  /-- a successor's record released and not yet appended (R348) -/
  pend : List Byte
  deriving DecidableEq, Repr

/-- What the group's tape unit does for it (R362, R371). -/
inductive TapeUse where
  | none
  | recording (h : Nat)
  /-- a replay in progress: its tape, its next unit, its slot values, and the tape that the group records beside it -/
  | playing (h next : Nat) (slots : List DWord) (was : Option Nat)
  deriving DecidableEq, Repr

/-- A traversal that is parked (R255, R258, R259): where its lanes go on, what it writes by lane if pre-emption ends it, the visits that each
lane has made, the lanes that have returned or stopped, and the errors of those that stopped (lane, kind, cause, address, and the access type of a
local access or 0). `stamp` numbers its issue among the accesses to local memory, and `lines` are the lines of its core that its stacks hold (R95). -/
structure RqPause where
  stamp : Nat
  lines : List Nat
  next : DWord
  served : DWord
  first : Nat
  out : List (Nat × List Nat)
  visits : List (Nat × Nat)
  ended : List Nat
  errs : List (Nat × Nat × Nat × Nat × Nat)
  deriving DecidableEq, Repr

/-- A thread group. `v` is keyed by lane * 256 + register, `k` by register, `preds` by predicate with a mask by lane, `lat` by
lane * 4 + latch, `latw` the same with the width held; every default is zero. -/
structure Group where
  id : Nat
  disp : Nat
  teamid : Nat
  grpid : Nat
  core : Nat
  sector : Nat
  col : Nat
  width : Nat
  blocks : List Nat
  v : List (Nat × Word)
  k : List (Nat × Word)
  preds : List (Nat × DWord)
  lat : List (Nat × DWord)
  latw : List (Nat × Nat)
  pcv : List DWord
  deferred : DWord
  parked : DWord
  naps : List (Nat × Nat)
  chain : Option Chain
  segLocal : DWord × DWord
  segConst : DWord × DWord
  segGlob : DWord × DWord
  flushctl : Word
  fpstat : Word
  fptrap : Word
  mstat : DWord
  prio : Word
  age : Nat
  readyClks : Nat
  lastIssue : Option Nat
  born : Nat
  trec : TrapWords
  shadow : Option Shadow
  state : GState
  /-- the state that pre-emption or a fault took it from -/
  before : GState
  wait : Wait
  /-- the instruction that it is parked in is not pre-empted (R394) -/
  keeps : Bool
  parkInfo : Option ParkInfo
  flights : List Flight
  stores : List PendStore
  storeErr : Option DWord
  /-- the times that order its reads (R311 to R313; the MODEL's own, log 55): the least that a later read may take, the greatest of its
  accesses, and by register (lane * 256 + register, 2^16 + k register, 2^17 + lane * 4 + latch, 2^18 + lane * 8 + predicate) that of the reads a value comes from -/
  floor : Nat
  lastT : Nat
  tags : List (Nat × Nat)
  /-- a `fence.rel` passed: no later write before the accesses numbered below it (R309) -/
  relFence : Nat
  /-- the window number that a query in flight took as it issued, its network above bit 32 (R283) -/
  stamp : Option Nat
  lateErrs : List LateErr
  /-- failed commands that named no barrier since the last `qfence.c`, by queue id (R110) -/
  failed : List (Nat × Nat)
  /-- `qfence`s in force: the queues of each and the commands that stand before it (R110) -/
  fences : List (Nat × List Nat)
  /-- an `mma.t` signed and waiting: its fields and its SB value (R222) -/
  mmaT : Option (XWord × Nat)
  /-- an `mma.t` of its set failed before the group issued it: the convergence register and the subcause of its BARERR (R222) -/
  mmaErr : Option (Nat × Nat)
  rq : Option RqPause
  task : Option TaskCtx
  tape : TapeUse
  deriving DecidableEq, Repr

/-- An operand map (R203). -/
structure OMap where
  base : Word
  pitch : Word
  etype : Nat
  swz : Nat
  sbase : Word
  spitch : Word
  deriving DecidableEq, Repr

/-- A tile handle (R203). -/
structure THandle where
  va : DWord
  pitch : DWord
  etype : Nat
  rows : Word
  cols : Word
  sva : DWord
  spitch : DWord
  /-- the operand fetcher's cached translations: a 64 KiB page, its physical address, and whether it may be written -/
  pages : List (Nat × Nat × Bool)
  deriving DecidableEq, Repr

/-- A convergence register (R335). -/
structure Cv where
  phase : Nat
  signed : Word
  set : Word
  deriving DecidableEq, Repr

/-- A team's or cluster's hidden barrier (R337). -/
structure HBar where
  phase : Nat
  arrived : List Nat
  deriving DecidableEq, Repr

/-- A window (R98): local base and length in bytes within the core's local memory, VA, whether lines that fault at its team's retirement have been
reported (R100), the lines that the instruction in progress has written back and the 64 KiB pages whose fault was delivered to it (R102), and the
translations of its pages that the map unit holds (R86). -/
structure Window where
  name : Nat
  base : Nat
  len : Nat
  va : Nat
  reported : Bool
  written : Nat
  skip : List Nat
  pages : List (Nat × Nat)
  deriving DecidableEq, Repr

/-- A resident or saved team (R326, R335, R337). -/
structure Team where
  disp : Nat
  teamid : Nat
  clid : Nat
  rank : Nat
  core : Nat
  vcore : Nat
  tgrps : Nat
  widthc : Nat
  /-- first granule and granules of the local run (R93) -/
  localBase : Nat
  localG : Nat
  /-- physical accumulator slots granted (R195) -/
  slots : List Nat
  om : List OMap
  th : List THandle
  cv : List Cv
  bar : HBar
  windows : List Window
  retired : List Nat
  /-- the frame that holds it while saved (R394) -/
  frame : Option Nat
  deriving DecidableEq, Repr

/-- The state of a cluster (R341, R394). -/
inductive CState where
  | running | saving | saved | done
  deriving DecidableEq, Repr

structure Cluster where
  disp : Nat
  clid : Nat
  state : CState
  bar : HBar
  deriving DecidableEq, Repr

/-- An accumulator slot (R195, R196, R215): the tag 0 NONE, 1 i32, 2 f32, 3 lacc; elements by row * 128 + column; side classes of
LACC elements by the same key, 1 for +∞, 2 for −∞ and 3 for NaN. The even slot of a pair holds the whole of a LACC tile. -/
structure Slot where
  tag : Nat
  elems : List (Nat × BitVec 128)
  side : List (Nat × Nat)
  deriving DecidableEq, Repr

/-- What a line of local memory carries beyond its bytes and counts (R96, R98): FAILED with the cause, window state (0 not in a
window, 1 unfilled, 2 clean, 3 dirty), and the bytes written. -/
structure LineSt where
  failed : Option (Nat × Nat)
  win : Nat
  mask : BitVec 128
  deriving DecidableEq, Repr

/-- Where a command's barrier lies: none, a core's local memory at an offset, with the barrier address that names it (R104), or global at a
virtual address and place. -/
inductive BarRef where
  | none
  | loc (core off addr : Nat)
  | glob (va pa place : Nat)
  deriving DecidableEq, Repr

/-- An engine command queued or started (R109): the instruction's own fields, its operands as resolved at issue, and its progress.
`imm` is MODB [33:2], `len` the length or count after LR. -/
structure Cmd where
  id : Nat
  grp : Nat
  disp : Nat
  teamid : Nat
  core : Nat
  queue : Nat
  opc : Nat
  moda : Nat
  imm : Nat
  len : Nat
  a : Nat
  b : Nat
  c : Nat
  /-- local operands resolved to a core and an offset in its local memory -/
  locA : Option (Nat × Nat)
  locB : Option (Nat × Nat)
  bar : BarRef
  part : Nat
  asid : Nat
  ascr : List Byte
  flushctl : Word
  /-- the mapping of its global barrier was invalidated, and the address is to be translated again (R86) -/
  barOld : Bool
  /-- 32-byte units credited in all (R114), and those credited so far (R113) -/
  credit : Nat
  credited : Nat
  /-- local lines (core, line) it will write and read (R94) -/
  writes : List (Nat × Nat)
  reads : List (Nat × Nat)
  /-- commands that `qfence` placed before it (R110) -/
  after : List Nat
  /-- shape record, descriptor or rank list read at issue -/
  shape : List Byte
  /-- units performed so far -/
  progress : Nat
  /-- the elements of the step in progress that were performed before it was stopped, with what each read, and the step's number; `pos` counts them
  as the step goes on (R81) -/
  log : List (List Byte)
  logKey : Nat
  pos : Nat
  started : Bool
  /-- saved with its group, out of its queue (R123) -/
  saved : Bool
  fault : Option Nat
  /-- collective sequence number (R121), session or network -/
  seq : Nat
  deriving DecidableEq, Repr

/-- A staged multiply (R194, R220): the groups whose MSTAT it changes, its opcode, its fields, its physical slot, the element
patterns of A and B row by row, the scales of A and B, the index entries of `mma.sp`, and the FLUSHCTL that each of the groups sampled for its
own rows. -/
structure Staged where
  grps : List Nat
  opc : Nat
  y : XWord
  slot : Nat
  a : List Nat
  b : List Nat
  sa : List Nat
  sb : List Nat
  sp : List Nat
  flushctl : List Word
  deriving DecidableEq, Repr

/-- A copied byte (R311): its value, the time of the write that it holds, and the time of the first write after it. -/
structure Copy where
  val : Byte
  since : Nat
  ended : Option Nat
  deriving DecidableEq, Repr

/-- A core's local store and units. Local memory is keyed by byte offset, default zero; lines by number, default present and
clear. -/
structure Core where
  lcore : Nat
  die : Nat
  lmem : List (Nat × Byte)
  lines : List (Nat × LineSt)
  slots : List Slot
  array : List Staged
  /-- unowned copies by place -/
  l1 : List (Nat × Option Copy)
  /-- the constant cache (R141), by dispatch * 2^64 + place -/
  kc : List (Nat × Option Copy)
  /-- the clock from which each sector may issue again (R330) -/
  busy : List Nat
  growers : List Nat
  retiredMark : Bool
  testing : Bool
  deriving DecidableEq, Repr

/-- An edge's module (R52). -/
structure Module where
  fails : Nat
  retraining : Bool
  disabled : Bool
  deriving DecidableEq, Repr

/-- Die states (R400). -/
inductive DState where
  | service | freezing | frost | reset | failed
  deriving DecidableEq, Repr

/-- An entry of the hot-page table (R91). -/
structure HotPage where
  key : Nat
  count : Nat
  queued : Bool
  pending : Bool
  deriving DecidableEq, Repr

/-- The access sampler (R90 to R92). -/
structure Sampler where
  log2n : Nat
  thresh : Nat
  hot : Bool
  counter : Nat
  ring : Option Nat
  notify : Option Nat
  smplost : Nat
  overflow : Nat
  hotmiss : Nat
  table : List (Nat × Option HotPage)
  deriving DecidableEq, Repr

/-- A unit of a tape (R361): a 32-byte entry. -/
abbrev TapeUnit := BitVec 256

/-- A tape's state (R360). -/
inductive TState where
  | recording | ready | playing | invalid
  deriving DecidableEq, Repr

/-- A tape (R360, R361): handle, owner, state, slot defaults, units, whether it ran full or holds what cannot be recorded, and the
tokens of the barriers that its replay has named, by space and address (R366). -/
structure Tape where
  handle : Nat
  part : Nat
  asid : Nat
  state : TState
  full : Bool
  unrec : Bool
  slots : List DWord
  units : List TapeUnit
  tokens : List (Nat × Nat)
  deriving DecidableEq, Repr

/-- A die and its units. -/
structure Die where
  num : Nat
  orient : Word
  route : Word
  edgeA : List Module
  edgeB : List Module
  state : DState
  n : Nat
  remap : List Nat
  retiredCores : List Nat
  ftpool : DWord
  lowPosted : Bool
  sampler : Sampler
  ovf : Nat
  uncorr : Nat
  corr : Nat
  tapes : List Tape
  unitsOff : List Nat
  unitsTest : List Nat
  /-- ways of slices that are retired, and those under test (R399) -/
  waysOff : List (Nat × Nat)
  waysTest : List (Nat × Nat)
  /-- the units of recent corrected errors with their clocks, and the units whose self-test is due (R399) -/
  corrTimes : List (TestUnit × Nat)
  due : List TestUnit
  /-- n_d as the harvest fuses give it (R412, R413) -/
  fused : Nat
  /-- performance counters (R415): redirects of R65, issues by its sectors and groups that joined another's issue, requests and replies sent over
  edges A and B (log 53) -/
  redirects : Nat
  issues : Nat
  packed : Nat
  trafA : Nat
  trafB : Nat
  deriving DecidableEq, Repr

/-- A partition (R58 to R63, R409, R410). `chanImage` and `sliceTab` hold 4,096 entries, or none for the default table of the
members listed. -/
structure Partition where
  id : Nat
  dies : List Nat
  channels : List Nat
  chanImage : Option (List Nat)
  pbase : Nat
  lent : List Nat
  slices : List Nat
  sliceImage : Option (List Nat)
  /-- the generation that requesters stamp (R64), and the one that the last completed `dom.sw` left (R63) -/
  gen : Nat
  doneGen : Nat
  members : Nat
  expBase : Nat
  expLen : Nat
  deriving DecidableEq, Repr

/-- The life of a dispatch (R321, R349). -/
inductive DispState where
  | preparing | running | ending | retired
  deriving DecidableEq, Repr

/-- Who submitted a dispatch (R321, R376, R407); a replayed `launch` counts as a command. -/
inductive Submitter where
  | host (queue : Nat)
  | launch (cmd : Nat)
  deriving DecidableEq, Repr

/-- A coalescing node of a task queue, as the device keeps it beside memory (R355, R356): the flush timer's start, and the batches
of records in release that wait for room in the ring. -/
structure NodeSt where
  node : Nat
  since : Option Nat
  batches : List (List (List Byte))
  deriving DecidableEq, Repr

/-- A dispatch (R320 to R328): its record as accepted, and what the scheduler keeps. -/
structure Dispatch where
  id : Nat
  part : Nat
  record : List Byte
  ascr : List Byte
  seed : DWord
  state : DispState
  sub : Submitter
  /-- the entry of the host queue that submitted it, where it signals its end, and the value (R407) -/
  entry : Nat
  signal : Nat × DWord
  /-- the dispatch that it pre-empts once it is accepted (R407) -/
  victim : Nat
  nextTeam : Nat
  /-- pages walked so far in preparation (R82) -/
  prepared : Nat
  waitTag : Option Nat
  pins : List Nat
  /-- pre-empted as a whole: 0 not, 1 by `ctxsave.pre`, 2 for the dispatch `preemptFor` (R393) -/
  preempt : Nat
  preemptFor : Nat
  nodes : List NodeSt
  deriving DecidableEq, Repr

/-- A sampling session (R264, R265, R270, R271): 0 FREE, 1 OPEN, 2 SAMPLING, 3 DONE. -/
structure Session where
  sid : Nat
  state : Nat
  owner : Nat
  part : Nat
  asid : Nat
  desc : List Byte
  seed : DWord
  counters : List (Nat × Nat)
  /-- by bin: 0 PENDING, 1 ACTIVE, 2 DONE -/
  bins : List Nat
  counts : List (Nat × Nat)
  homes : List (Nat × Nat)
  endGrp : Nat
  endCmd : Nat
  deriving DecidableEq, Repr

/-- A network of the radiance cache (R278 to R293): 0 FREE, 1 READY, 2 CLOSING, 3 FAULTED. It is owned by an address space of a
partition. `slab` is the published form that every core's slab holds; the moments and `t`, `p1`, `p2` are those of R291. -/
structure Network where
  net : Nat
  state : Nat
  part : Nat
  asid : Nat
  desc : List Byte
  w : Nat
  published : Nat
  mlp : List (Nat × Word)
  slab : List (Nat × Word)
  m1 : List (Nat × Word)
  m2 : List (Nat × Word)
  t : Nat
  p1 : Word
  p2 : Word
  /-- the `rc.sync` that closes the window, whether the engine trains, and its next step -/
  cmd : Option Nat
  training : Bool
  step : Nat
  /-- counters 0 to 5 of R293 as committed, and 0 to 3 since the last close point -/
  counters : List (Nat × Nat)
  pending : List (Nat × Nat)
  lasterr : Nat
  deriving DecidableEq, Repr

/-- A replay that a host queue plays (R369): its tape, its next unit, its slot values, its entry. -/
structure HostPlay where
  handle : Nat
  next : Nat
  slots : List DWord
  entry : Nat
  /-- where its return is signalled, and the value, as the entry gave them (R406) -/
  signal : Nat × DWord
  deriving DecidableEq, Repr

/-- A host queue (R405 to R408). -/
structure HostQueue where
  id : Nat
  part : Nat
  descPa : Nat
  desc : List Byte
  door : DWord
  next : Nat
  busy : List Nat
  waiting : Option (Nat × Nat × Nat × Nat)
  /-- SIGNALs started and not yet performed: entry, address, value, OP (R407) -/
  signals : List (Nat × Nat × Nat × Nat)
  play : Option HostPlay
  failed : Bool
  deriving DecidableEq, Repr

/-- A submission that waits for acceptance (R321, R407): its record's virtual address and the address space it is read in, the
system right of its submitter, the address space that its record must name where its submitter may name no other (R358), the entry of its
host queue, what a `launch` overrides, and the dispatch that it pre-empts. -/
structure Submission where
  id : Nat
  part : Nat
  sub : Submitter
  recVa : Nat
  asid : Nat
  ascr : List Byte
  die : Nat
  sysRight : Bool
  asidBound : Option Nat
  entry : Nat
  /-- where a host queue's DISPATCH signals its end, and the value (R407) -/
  signal : Nat × DWord
  ovr : Option (Nat × DWord)
  preempt : Nat
  deriving DecidableEq, Repr

/-- A replayable fault that waits for its answer (R81, R386). -/
structure FaultWait where
  tag : Nat
  grp : Option Nat
  cmd : Option Nat
  disp : Nat
  asid : Nat
  va : DWord
  cause : Nat
  acc : Nat
  mask : DWord
  lane : Nat
  /-- 0 the group's, command's or dispatch's own access; 1 a successor update (R348); 2 a window's write-back (R102); 4 `rc.cfg.attach`
  (R293); 5 a replay of the group (R369); 6 a replay of the host queue that `lane` numbers -/
  what : Nat
  /-- the address of the instruction that met the fault -/
  taddr : DWord
  deriving DecidableEq, Repr

/-- A source of records (R387): a group, a queue of a core, a unit of a die, a slice, a module of an edge. -/
inductive RecSource where
  | group (id : Nat)
  | queue (core n : Nat)
  | unit (die n : Nat)
  | slice (n : Nat)
  | module (die : Nat) (edge : Edge) (n : Nat)
  deriving DecidableEq, Repr

/-- A record held back by a full or disabled queue (R386): the queue, its source and the die that posts it. -/
structure HeldRec where
  q : PostQueue
  src : RecSource
  die : Nat
  words : List DWord
  deriving DecidableEq, Repr

/-- A cached translation (R80): level 1 or 2 of a core, 3 of a die, or 4 for a die's page-walk cache of an upper-level entry; address space,
VA base, log2 of the page size, PA base (of the next table for level 4), permissions, D seen, the entry's place. -/
structure Tlb where
  lvl : Nat
  unit : Nat
  asid : Nat
  base : Nat
  lg : Nat
  pa : Nat
  w : Bool
  x : Bool
  d : Bool
  pte : Nat
  deriving DecidableEq, Repr

/-- A byte that a slice or an owning L1 holds and main memory does not yet (R62, R310). -/
structure Dirty where
  val : Byte
  owner : Option Nat
  deriving DecidableEq, Repr

/-- The device's power (R411, R414). -/
inductive Power where
  | boot
  | on
  | safe (code : Nat) (info : Nat)
  deriving DecidableEq, Repr

/-- The whole machine. -/
structure State where
  mem : List (Nat × Byte)
  dirty : List (Nat × Option Dirty)
  /-- words that are uncorrectable or hold a corrected error, by location (R397) -/
  badWords : List ArrayLoc
  corrWords : List ArrayLoc
  tlb : List Tlb
  power : Power
  /-- what the boot ROM will find: 0 passes (DESIGN CHOICE: log 6) -/
  bootCode : Nat
  clk : Nat
  clockNum : Nat
  clockDen : Nat
  powerCap : Nat
  /-- CAPPTR: the offset of the capability region (R413) -/
  capptr : DWord
  devnum : Nat
  seedReg : DWord
  astab : DWord
  sysnq : DWord
  sysfq : DWord
  savepool : DWord
  poolEmptyPosted : Bool
  collgrp : List DWord
  collSeq : List Nat
  dies : List Die
  cores : List Core
  partitions : List Partition
  dispatches : List Dispatch
  nextDisp : Word
  clusters : List Cluster
  teams : List Team
  groups : List Group
  cmds : List Cmd
  sessions : List Session
  networks : List Network
  hostQueues : List HostQueue
  submissions : List Submission
  faults : List FaultWait
  heldRecs : List HeldRec
  /-- `dom.sw` (0), `route.sw` (1) or `die.rst` (2) in progress, with its partition or die and its group (R69, R402) -/
  sysOps : List (Nat × Nat × Nat)
  /-- partitions and slots whose sweep has not finished (R64, R65) -/
  sweeping : List (Nat × Nat)
  nextTag : Nat
  nextId : Nat
  /-- the last answer of the management channel (R404) -/
  reply : List DWord
  /-- the MODEL's own fields from here on (DESIGN CHOICE: logs 2, 3, 10): the group whose instruction the step runs and those that issue with it,
  counters of issues and reads, the schedule of the other agents' steps, the choices that the spec leaves open, the free values drawn -/
  cur : Option Nat
  joined : List Nat
  issueSeq : Nat
  /-- counts writes, and the time of the latest write of a byte: of memory by place, of local memory by 2^60 + core * 2^20 + offset -/
  memSeq : Nat
  wtime : List (Nat × Nat)
  agenda : List Instr
  oracle : List Nat
  freeCount : Nat
  deriving DecidableEq, Repr

/-- Why the machine stops with a fault. -/
inductive Fault where
  /-- an instruction was given to a group that does not issue: raised by every instruction's meaning when the state selects no
  group; safe, since no state that `step` forms reaches it. -/
  | noIssuer
  deriving DecidableEq, Repr

/-- Why an instruction has no meaning. -/
inductive Refusal where
  /-- the arm of `Machine/Dispatch.lean` gives no meaning: raised there only; safe. -/
  | notModelled (mnemonic : String)
  deriving DecidableEq, Repr

/-- An accumulator slot as launch leaves it (R196). (DESIGN CHOICE: log 5) -/
def slotReset : Slot := ⟨0, [], []⟩

/-- A line of local memory as launch leaves it: present and clear (R93). (DESIGN CHOICE: log 5) -/
def lineReset : LineSt := ⟨none, 0, 0⟩

/-- A core after reset. (DESIGN CHOICE: log 5) -/
def coreReset (lcore die : Nat) : Core :=
  { lcore := lcore, die := die, lmem := [], lines := [], slots := List.replicate 8 slotReset, array := [], l1 := [], kc := [], busy := [0, 0, 0, 0], growers := [],
    retiredMark := false, testing := false }

/-- A sampler after reset (DESIGN CHOICE, log 4): sampling off, no ring, counters and table clear. -/
def samplerReset : Sampler := ⟨0, 0, false, 0, none, none, 0, 0, 0, []⟩

/-- ORIENT of a die (R50): CHBASE 64 times DIE, LREVB 1, LREVA 0, ROT and DIE the die number. -/
def orientOf (d : Nat) : Word := BitVec.ofNat 32 (64 * d * 2 ^ 16 + 2 ^ 11 + d * 16 + d)

/-- A die after reset: every module trained (log 6), n_d 44 with the identity remap (log 7). (DESIGN CHOICE: log 4) (DESIGN CHOICE: log 53) -/
def dieReset (d : Nat) : Die :=
  { num := d, orient := orientOf d, route := 0, edgeA := List.replicate 16 ⟨0, false, false⟩,
    edgeB := List.replicate 16 ⟨0, false, false⟩, state := .service, n := 44, remap := List.range 44,
    retiredCores := [], ftpool := 0, lowPosted := false, sampler := samplerReset, ovf := 0, uncorr := 0, corr := 0, tapes := [],
    unitsOff := [], unitsTest := [], waysOff := [], waysTest := [], corrTimes := [], due := [], fused := 44, redirects := 0, issues := 0,
    packed := 0, trafA := 0, trafB := 0 }

/-- A session after reset: FREE (R264); its counters zero (DESIGN CHOICE, log 4). -/
def sessionReset (i : Nat) : Session :=
  { sid := i, state := 0, owner := 0, part := 0, asid := 0, desc := [], seed := 0, counters := [], bins := [],
    counts := [], homes := [], endGrp := 0, endCmd := 0 }

/-- A network after reset: FREE (R283). (DESIGN CHOICE: log 5) -/
def networkReset (i : Nat) : Network :=
  { net := i, state := 0, part := 0, asid := 0, desc := [], w := 0, published := 0, mlp := [], slab := [], m1 := [], m2 := [], t := 0,
    p1 := 0, p2 := 0, cmd := none, training := false, step := 0, counters := [], pending := [], lasterr := 0 }

/-- The machine right after reset: booting, no partition, no dispatch; every register at the value the spec states, and the others
at the values that log 4 names. (DESIGN CHOICE: log 1) (DESIGN CHOICE: log 10) -/
def State.reset : State :=
  { mem := [], dirty := [], badWords := [], corrWords := [], tlb := [], power := .boot, bootCode := 0, clk := 0, clockNum := 1,
    clockDen := 1, powerCap := 2800, capptr := 0, devnum := 0, seedReg := 0, astab := 0, sysnq := 0, sysfq := 0, savepool := 0,
    poolEmptyPosted := false, collgrp := List.replicate 16 0, collSeq := List.replicate 16 0,
    dies := (List.range 4).map dieReset, cores := (List.range 176).map (fun i => coreReset i (i / 44)), partitions := [],
    dispatches := [], nextDisp := 1, clusters := [], teams := [], groups := [], cmds := [],
    sessions := (List.range 8).map sessionReset, networks := (List.range 4).map networkReset, hostQueues := [],
    submissions := [], faults := [], heldRecs := [], sysOps := [], sweeping := [], nextTag := 1, nextId := 1, reply := [],
    cur := none, joined := [], issueSeq := 0, memSeq := 0, wtime := [], agenda := [], oracle := [], freeCount := 0 }

end Sys2Proof.Machine
end

