-- ==== Sys2Proof/Machine/Base.lean ====
section
/-! DEFINITION. Lookup and update of the parts of the state, lane masks, and the registers of a group: the one home of every
register read and write. -/
namespace Sys2Proof.Machine

/-! ### Parts of the state -/

def findGroup (s : State) (id : Nat) : Option Group := s.groups.find? (fun g => g.id == id)
def setGroup (s : State) (g : Group) : State := { s with groups := s.groups.map (fun h => if h.id = g.id then g else h) }
def modGroup (s : State) (id : Nat) (f : Group → Group) : State :=
  { s with groups := s.groups.map (fun h => if h.id = id then f h else h) }

def findCore (s : State) (c : Nat) : Option Core := s.cores.find? (fun x => x.lcore == c)
def modCore (s : State) (c : Nat) (f : Core → Core) : State :=
  { s with cores := s.cores.map (fun x => if x.lcore = c then f x else x) }

def findDie (s : State) (d : Nat) : Option Die := s.dies.find? (fun x => x.num == d)
def modDie (s : State) (d : Nat) (f : Die → Die) : State :=
  { s with dies := s.dies.map (fun x => if x.num = d then f x else x) }

def findTeam (s : State) (disp teamid : Nat) : Option Team := s.teams.find? (fun t => t.disp == disp && t.teamid == teamid)
def modTeam (s : State) (disp teamid : Nat) (f : Team → Team) : State :=
  { s with teams := s.teams.map (fun t => if t.disp = disp ∧ t.teamid = teamid then f t else t) }

def findCluster (s : State) (disp clid : Nat) : Option Cluster := s.clusters.find? (fun t => t.disp == disp && t.clid == clid)
def modCluster (s : State) (disp clid : Nat) (f : Cluster → Cluster) : State :=
  { s with clusters := s.clusters.map (fun t => if t.disp = disp ∧ t.clid = clid then f t else t) }

/-- A dispatch that has been accepted and has not retired. -/
def findDisp (s : State) (id : Nat) : Option Dispatch := s.dispatches.find? (fun d => d.id == id && d.state != .retired)
def modDisp (s : State) (id : Nat) (f : Dispatch → Dispatch) : State :=
  { s with dispatches := s.dispatches.map (fun d => if d.id = id then f d else d) }

def findPart (s : State) (id : Nat) : Option Partition := s.partitions.find? (fun p => p.id == id)
def modPart (s : State) (id : Nat) (f : Partition → Partition) : State :=
  { s with partitions := s.partitions.map (fun p => if p.id = id then f p else p) }

def findCmd (s : State) (id : Nat) : Option Cmd := s.cmds.find? (fun c => c.id == id)
def modCmd (s : State) (id : Nat) (f : Cmd → Cmd) : State := { s with cmds := s.cmds.map (fun c => if c.id = id then f c else c) }

def modSession (s : State) (i : Nat) (f : Session → Session) : State :=
  { s with sessions := s.sessions.map (fun x => if x.sid = i then f x else x) }
def modNetwork (s : State) (i : Nat) (f : Network → Network) : State :=
  { s with networks := s.networks.map (fun x => if x.net = i then f x else x) }
def modQueue (s : State) (i : Nat) (f : HostQueue → HostQueue) : State :=
  { s with hostQueues := s.hostQueues.map (fun x => if x.id = i then f x else x) }

/-- A die unit's number in `unitsOff` and `unitsTest` (R399). -/
def unitNo (u : DieUnit) : Nat :=
  match u with | .tape => 0 | .equinox => 1 | .dicing => 2 | .sampling => 3 | .collective => 4 | .firstTouch => 5 | .sampler => 6
def unitOff (s : State) (die : Nat) (u : DieUnit) : Bool := ((findDie s die).map (fun d => d.unitsOff.contains (unitNo u))).getD false
def unitHeld (s : State) (die : Nat) (u : DieUnit) : Bool := ((findDie s die).map (fun d => d.unitsTest.contains (unitNo u))).getD false

/-- The next choice that the spec leaves open, as plain data; 0 where the schedule names none. (DESIGN CHOICE: log 3) -/
def drawOracle (s : State) : Nat × State :=
  match s.oracle with
  | [] => (0, s)
  | x :: xs => (x, { s with oracle := xs })

/-- A free value (`Config.freeValue`), one for each draw. (DESIGN CHOICE: log 10) -/
def drawFree (s : State) : Nat × State := (Config.freeValue s.freeCount, { s with freeCount := s.freeCount + 1 })

/-! ### Record fields of a dispatch (R320) -/

def recByte (d : Dispatch) (i : Nat) : Nat := (d.record[i]?.getD 0).toNat
def recNum (d : Dispatch) (i n : Nat) : Nat := ofLeBytes ((d.record.drop i).take n)
def dispFlags (d : Dispatch) : Nat := recNum d 28 2
def dispDet (d : Dispatch) : Bool := (dispFlags d).testBit 0
def dispOrd (d : Dispatch) : Bool := (dispFlags d).testBit 1
/-- The system flag (R40). -/
def dispSys (d : Dispatch) : Bool := (dispFlags d).testBit 2
def dispTask (d : Dispatch) : Bool := (dispFlags d).testBit 3
def dispAsid (d : Dispatch) : Nat := recNum d 30 2 % 4096
def dispNcl (d : Dispatch) : Nat := recNum d 32 4
def dispVgrid (d : Dispatch) : Nat := recNum d 36 4
def dispHandler (d : Dispatch) : Nat := recNum d 64 8
def dispTgrps (d : Dispatch) : Nat := recByte d 23
def dispClW (d : Dispatch) : Nat := recByte d 24
def dispClH (d : Dispatch) : Nat := recByte d 25
def dispClsize (d : Dispatch) : Nat := dispClW d * dispClH d
def dispLocalG (d : Dispatch) : Nat := recByte d 22
def dispAccn (d : Dispatch) : Nat := recByte d 26
def dispPrioCeil (d : Dispatch) : Nat := recByte d 27 % 16
/-- The lease ranges in use: VA and length (R320). -/
def dispLeases (d : Dispatch) : List (Nat × Nat) :=
  ((List.range 8).map (fun i => (recNum d (96 + 16 * i) 8, recNum d (104 + 16 * i) 8))).filter (fun r => r.2 != 0)

/-- SYSRIGHT of a host queue (R405). -/
def queueSys (h : HostQueue) : Bool := ((h.desc[9]?).getD 0).getLsbD 0

/-- The partition of a dispatch. -/
def dispPart (s : State) (d : Dispatch) : Option Partition := findPart s d.part

/-- The number of logical cores of a partition (R325). -/
def partCores (s : State) (p : Partition) : Nat := p.dies.foldl (fun n d => n + ((findDie s d).map (·.n)).getD 0) 0

/-- The first logical core of a die in its partition: the cores of the partition's dies numbered below (R325). -/
def dieBase (s : State) (p : Partition) (d : Nat) : Nat :=
  (p.dies.filter (· < d)).foldl (fun n e => n + ((findDie s e).map (·.n)).getD 0) 0

/-- The device's key of a core: 44 per die, then its local index. -/
def coreKey (d i : Nat) : Nat := 44 * d + i
def coreDie (c : Nat) : Nat := c / 44

/-- The logical core number that `lcore` reads for a core (R325). -/
def logicalCore (s : State) (p : Partition) (c : Nat) : Nat := dieBase s p (coreDie c) + c % 44

/-! ### Lanes -/

/-- The lanes of a group. -/
def lanesOf (g : Group) : List Nat := List.range g.width

def pcvOf (g : Group) (l : Nat) : DWord := g.pcv[l]?.getD 0

/-- All ones: the lane has exited (R189, R329). -/
def exitPc : DWord := BitVec.allOnes 64

def laneExited (g : Group) (l : Nat) : Bool := pcvOf g l == exitPc
/-- A lane neither exited, parked nor deferred (R329). -/
def laneLive (g : Group) (l : Nat) : Bool := !laneExited g l && !g.parked.getLsbD l && !g.deferred.getLsbD l

def maskLanes (l : List Nat) : DWord := BitVec.ofNat 64 (maskOf l)
def lanesIn (g : Group) (m : DWord) : List Nat := (lanesOf g).filter (fun l => m.getLsbD l)

/-- The least pcv over the live lanes: the issue address (R329); deferral cleared first where R190 says so. -/
def clearDeferral (g : Group) : Group :=
  if g.deferred != 0 && !(lanesOf g).any (laneLive g) then { g with deferred := 0 } else g

/-- The lanes that a chain in progress serves: those of its head that have not exited (R34, R35). -/
def chainLanes (g : Group) (c : Chain) : List Nat := (lanesOf g).filter (fun l => c.lanes.getLsbD l && !laneExited g l)

/-- The lanes among which the issue address is sought: the live ones, or within a chain those of its head, whatever joins meanwhile (R34). -/
def issueLanes (g : Group) : List Nat :=
  match g.chain with | some c => chainLanes g c | none => (lanesOf g).filter (laneLive g)

/-- The lanes that an issue may serve: the live ones, or within a chain those that were live as its head issued (R14, R34). -/
def liveLanes (g : Group) : List Nat :=
  match g.chain with
  | some c => (lanesOf g).filter (fun l => (c.lanes ||| c.live).getLsbD l && !laneExited g l)
  | none => (lanesOf g).filter (laneLive g)

def issueAddr (g : Group) : Option DWord :=
  let g := clearDeferral g
  (issueLanes g).foldl
    (fun m l => match m with | none => some (pcvOf g l) | some a => if (pcvOf g l).toNat < a.toNat then some (pcvOf g l) else some a)
    none

/-- The lanes that an issue at an address serves: in a chain also a live lane that already stood at the member's address (R14, R187).
(DEDUCED: log 17) -/
def servedLanes (g : Group) (pc : DWord) : List Nat := (liveLanes g).filter (fun l => pcvOf g l == pc)

/-- Every lane whose pcv holds an address and that has not exited: the lanes of an ILLOP and of a REGRANGE trap (R42, R126). -/
def lanesAt (g : Group) (pc : DWord) : List Nat := (lanesOf g).filter (fun l => pcvOf g l == pc && !laneExited g l)

/-- Predicate n of a lane; p7 reads true (R14). -/
def predOf (g : Group) (n l : Nat) : Bool := if n = 7 then true else (Sparse.get 0 g.preds n).getLsbD l

/-- The predicate that PRED selects (R14). -/
def guardOf (g : Group) (p : BitVec 4) (l : Nat) : Bool := xor (predOf g (p.toNat % 8) l) (p.getLsbD 3)

/-- A predicate of a lane written; p7 is never written. -/
def setPred (g : Group) (n l : Nat) (b : Bool) : Group :=
  if n = 7 then g
  else
    let m := Sparse.get 0 g.preds n
    let bit := BitVec.ofNat 64 (1 <<< l)
    { g with preds := Sparse.put 0 g.preds n (if b then m ||| bit else m &&& ~~~bit) }

/-! ### Registers -/

/-- Registers allocated to each lane (R124). -/
def allocRegs (g : Group) : Nat := 8 * g.blocks.length

def readV (g : Group) (l r : Nat) : Word := Sparse.get 0 g.v (l * 256 + r)
def writeV (g : Group) (l r : Nat) (x : Word) : Group := { g with v := Sparse.put 0 g.v (l * 256 + r) x }
def readK (g : Group) (r : Nat) : Word := Sparse.get 0 g.k r
def writeK (g : Group) (r : Nat) (x : Word) : Group := { g with k := Sparse.put 0 g.k r x }

/-- What a debugger's access to a register row answers (R131). -/
inductive DebugStatus where
  | done | notAlloc
  deriving DecidableEq, Repr

/-- A debugger's read of a v register of a lane: zero, with NOTALLOC, of a row that is gated or not allocated to the group (R131). -/
def debugRead (g : Group) (l r : Nat) : DebugStatus × Word :=
  if l < g.width ∧ r < allocRegs g then (.done, readV g l r) else (.notAlloc, 0)

/-- A debugger's write of a v register of a lane: ignored, with NOTALLOC, for such a row (R131). -/
def debugWrite (g : Group) (l r : Nat) (x : Word) : DebugStatus × Group :=
  if l < g.width ∧ r < allocRegs g then (.done, writeV g l r x) else (.notAlloc, g)

/-- `words` registers from a v or k register up, as one number, the lowest register in the low bits (R145). -/
def readRegs (g : Group) (l : Nat) (o : Opnd) (words : Nat) : Nat :=
  (List.range words).foldl (fun x i =>
    x + (match o with
      | .v n => readV g l (n.toNat + i)
      | .k n => readK g (n.toNat + i)
      | _ => 0).toNat <<< (32 * i)) 0

/-- A number written to `words` registers of one lane. -/
def writeRegs (g : Group) (l : Nat) (o : Opnd) (words x : Nat) : Group :=
  (List.range words).foldl (fun g i =>
    let w : Word := BitVec.ofNat 32 (x >>> (32 * i))
    match o with
    | .v n => writeV g l (n.toNat + i) w
    | .k n => writeK g (n.toNat + i) w
    | _ => g) g

/-- The key under which the time of a register's value stands (R312): a v register of a lane, a k register, a latch of a lane. -/
def tagKey (l : Nat) (o : Opnd) (i : Nat) : Nat :=
  match o with | .v n => l * 256 + n.toNat + i | .k n => 2 ^ 16 + n.toNat + i | _ => 0
def latTag (l j : Nat) : Nat := 2 ^ 17 + 4 * l + j

/-- The time of the reads that an operand's value comes from (R312, cases 6 and 7). -/
def tagOf (g : Group) (l : Nat) (o : Opnd) (words : Nat) : Nat :=
  match o with
  | .v _ | .k _ => (List.range words).foldl (fun m i => max m (Sparse.get 0 g.tags (tagKey l o i))) 0
  | _ => 0

/-- The time set of a destination's value in a lane. -/
def setTag (g : Group) (l : Nat) (o : Opnd) (words n : Nat) : Group :=
  match o with
  | .v _ | .k _ => (List.range words).foldl (fun g i => { g with tags := Sparse.put 0 g.tags (tagKey l o i) n }) g
  | _ => g

/-- The times of a destination's values by lane; a k register's is that of the lowest lane (R27). -/
def setTags (g : Group) (o : Opnd) (words : Nat) (ts : List (Nat × Nat)) : Group :=
  match o with
  | .k _ => match ts with | [] => g | (l, n) :: _ => setTag g l o words n
  | _ => ts.foldl (fun g e => setTag g e.1 o words e.2) g

/-- Results by lane written to a destination: a k register takes the value of the lowest lane (R27). -/
def writeDst (g : Group) (o : Opnd) (words : Nat) (vals : List (Nat × Nat)) : Group :=
  match o with
  | .k _ => match vals with | [] => g | (l, x) :: _ => writeRegs g l o words x
  | .v _ => vals.foldl (fun g p => writeRegs g p.1 o words p.2) g
  | _ => g

/-! ### System register and team helpers -/

def teamOf (s : State) (g : Group) : Option Team := findTeam s g.disp g.teamid
def modTeamOf (s : State) (g : Group) (f : Team → Team) : State := modTeam s g.disp g.teamid f
def dispOf (s : State) (g : Group) : Option Dispatch := findDisp s g.disp
/-- The key of the group's die. -/
def dieOf (g : Group) : Nat := coreDie g.core

end Sys2Proof.Machine
end

