-- ==== Sys2Proof/Machine/Mem.lean ====
section
/-! DEFINITION. Memory: where a physical address lies (R57 to R61, R73), bytes as the point of coherence holds them, the bytes
that main memory does not hold yet, stale copies in an L1 (R310, R311), uncorrectable words (R397), and local memory (R93).
A *place* numbers a byte: 2^31 times the channel plus the offset of R60 for device memory, and the physical address itself, at
least 2^51, for host memory and other devices. -/
namespace Sys2Proof.Machine

/-- `rotl12` of R57. -/
def rotl12 (x k : Nat) : Nat := ((x <<< k) ||| (x >>> (12 - k))) % 4096
/-- `cfold` of R57. -/
def cfold (pa : Nat) : Nat := fldN pa 8 12 ^^^ fldN pa 20 12 ^^^ fldN pa 32 12 ^^^ fldN pa 44 8
/-- `sfold` of R57. -/
def sfold (pa : Nat) : Nat := fldN pa 8 12 ^^^ rotl12 (fldN pa 20 12) 4 ^^^ rotl12 (fldN pa 32 12) 8 ^^^ fldN pa 44 8
/-- The port, and so the switch plane, by which a request to a remote device leaves (R410); no order between requests rests on it. -/
def kflPort (pa : Nat) : Nat := sfold pa % 16
/-- `route_bit` of R57. -/
def routeBit (pa : Nat) : Nat := popcN 12 (sfold pa) % 2

/-- A list of numbers in ascending order. -/
def insertNat (n : Nat) : List Nat → List Nat
  | [] => [n]
  | m :: t => if n ≤ m then n :: m :: t else m :: insertNat n t
def sortNat (l : List Nat) : List Nat := l.foldr insertNat []

/-- An entry of a slot table: the image's, or the default table's over the members, which the partition lists in ascending order (R59). -/
def slotEntry (members : List Nat) (image : Option (List Nat)) (i : Nat) : Nat :=
  match image with
  | some t => t[i]?.getD 0
  | none => if members.length = 0 then 0 else members[i % members.length]?.getD 0

def chanSlot (p : Partition) (i : Nat) : Nat := slotEntry p.channels p.chanImage i
def sliceSlot (p : Partition) (i : Nat) : Nat := slotEntry p.slices p.sliceImage i

/-- Slots that hold a channel (R60). -/
def chanCount (p : Partition) (c : Nat) : Nat :=
  match p.chanImage with
  | some t => (t.filter (· == c)).length
  | none =>
    let m := p.channels.length
    let j := p.channels.idxOf c
    if m = 0 then 0 else (4096 - j + m - 1) / m

/-- Slots below `i` that hold the channel of slot `i` (R60). -/
def chanRank (p : Partition) (i : Nat) : Nat :=
  match p.chanImage with
  | some t => ((t.take i).filter (· == chanSlot p i)).length
  | none => if p.channels.length = 0 then 0 else i / p.channels.length

/-- The greatest number of slots of a channel. -/
def chanMax (p : Partition) : Nat :=
  match p.chanImage with
  | some t => (t.eraseDups.map (fun c => (t.filter (· == c)).length)).foldl max 0
  | none => if p.channels.length = 0 then 0 else (4096 + p.channels.length - 1) / p.channels.length

/-- The partition's capacity in bytes (R60). -/
def capacity (p : Partition) : Nat := if chanMax p = 0 then 0 else 2 ^ 20 * (2 ^ 31 / (256 * chanMax p))

/-- Device memory of a partition (R73). -/
def isDevPa (p : Partition) (pa : Nat) : Bool := decide (p.pbase ≤ pa) && decide (pa < p.pbase + capacity p) && decide (pa < 2 ^ 51)

/-- The target of a physical address: 0 device memory, 1 host memory, 2 another device (R73). -/
def paKind (pa : Nat) : Nat := match fldN pa 50 2 with | 2 => 1 | 3 => 2 | _ => 0
def paDevice (pa : Nat) : Nat := fldN pa 40 10

/-- A device number of the load-store domain (R410): every number from 0 to 1,023 (log 12). -/
def inDomain (n : Nat) : Bool := decide (n < 1024)

/-- A valid physical address on behalf of a partition (R73). (DESIGN CHOICE: log 12) -/
def validPa (s : State) (p : Partition) (pa : Nat) : Bool :=
  match paKind pa with
  | 0 => isDevPa p pa
  | 1 => decide (pa < 2 ^ 52)
  | _ => decide (pa < 2 ^ 52) && paDevice pa != s.devnum && inDomain (paDevice pa)

/-- The place of a byte (R60). (DESIGN CHOICE: log 12) -/
def placeOf (p : Partition) (pa : Nat) : Nat :=
  if paKind pa = 0 then
    let i := cfold pa
    2 ^ 31 * chanSlot p i + ((((pa - p.pbase) >>> 8) >>> 12) * chanCount p (chanSlot p i) + chanRank p i) * 256 + pa % 256
  else pa

/-- The home slice of a physical address (R61). -/
def homeSlice (p : Partition) (pa : Nat) : Nat := sliceSlot p (sfold pa)
def homeDie (p : Partition) (pa : Nat) : Nat := homeSlice p pa / 16

/-- The partition in whose device memory a physical address lies. -/
def partOfPa (s : State) (pa : Nat) : Option Partition := s.partitions.find? (fun p => isDevPa p pa)

/-- The die whose channel keeps a physical address of device memory (R56, R60). -/
def chanDie (p : Partition) (pa : Nat) : Nat := placeOf p pa / 2 ^ 37

/-- The edges by which a message from a die to another leaves, die by die (R49, R53). -/
def pathEdges (s : State) (d t rb : Nat) : List (Nat × Bool) :=
  if d = t then []
  else if t = (d + 1) % 4 then [(d, true)]
  else if t = (d + 3) % 4 then [(d, false)]
  else
    let a := match fldN (((findDie s d).map (·.route.toNat)).getD 0) 4 2 with | 0 => rb == 0 | 1 => true | _ => false
    [(d, a), (if a then (d + 1) % 4 else (d + 3) % 4, a)]

/-! ### Bytes -/

/-- A byte as the point of coherence holds it. (DESIGN CHOICE: log 1) -/
def rdPlace (s : State) (a : Nat) : Byte :=
  match Sparse.get none s.dirty a with
  | some d => d.val
  | none => Sparse.get 0 s.mem a

/-- A byte of the place is device memory. -/
def isDevPlace (a : Nat) : Bool := decide (a < 2 ^ 51)

/-- A byte written at the point of coherence: a slice or an owning L1 holds it; host memory and other devices hold their own. -/
def wrPlace (s : State) (owner : Option Nat) (a : Nat) (x : Byte) : State :=
  if isDevPlace a then { s with dirty := Sparse.put none s.dirty a (some ⟨x, owner⟩) }
  else { s with mem := Sparse.put 0 s.mem a x }

/-- Bytes written at a run of places. -/
def wrPlaces (s : State) (owner : Option Nat) : List (Nat × Byte) → State
  | [] => s
  | (a, x) :: t => wrPlaces (wrPlace s owner a x) owner t

/-- Places of a run of bytes at a physical address. -/
def placesOf (p : Partition) (pa n : Nat) : List Nat := (List.range n).map (fun i => placeOf p (pa + i))

/-- The number at a run of places, little-endian (R2). -/
def rdNum (s : State) (ps : List Nat) : Nat := ofLeBytes (ps.map (rdPlace s))

/-- Words of 8 bytes that a run of places touches. -/
def wordsOf (ps : List Nat) : List Nat := (ps.map (· / 8)).eraseDups

/-- An uncorrectable word among some places (R397). -/
def badPlaces (s : State) (ps : List Nat) : Bool := (wordsOf ps).any (fun w => s.badWords.contains (.mem (8 * w)))

/-- The slot of a channel's rank: the inverse of R60's rank. -/
def slotOfRank (p : Partition) (c r : Nat) : Nat :=
  match p.chanImage with
  | some t => (((t.mapIdx (fun i x => (i, x))).filter (fun e => e.2 == c)).map (·.1))[r]?.getD 0
  | none => p.channels.idxOf c + r * p.channels.length

/-- The physical address of a place of the partition's device memory: the inverse of R60. -/
def paOfPlace (p : Partition) (a : Nat) : Nat :=
  let c := a / 2 ^ 31
  let q := a % 2 ^ 31 / 256
  let hi := (q / max (chanCount p c) 1) * 2 ^ 20 + p.pbase
  let i := slotOfRank p c (q % max (chanCount p c) 1)
  hi + (i ^^^ cfold hi) * 256 + a % 256

/-- The die that keeps a word of an array. -/
def arrayDie (s : State) (a : ArrayLoc) : Nat :=
  match a with
  | .mem p => if p < 2 ^ 51 then p / 2 ^ 31 / 64 else 0
  | .lmem c _ => coreDie c
  | .reg g _ _ => ((findGroup s g).map dieOf).getD 0
  | .acc c _ _ => coreDie c
  | .slab c _ _ => coreDie c
  | .tape d _ => d
  | .equinox d _ => d

/-- The unit whose array holds a word: of memory only where an L1 or a slice holds it; which way of a slice holds a line is not the spec's.
(DEDUCED: log 46) -/
def testUnit (s : State) (a : ArrayLoc) : Option TestUnit :=
  match a with
  | .mem p =>
    match (List.range 8).findSome? (fun i => Sparse.get none s.dirty (p + i)) with
    | none => none
    | some ⟨_, some c⟩ => some (.core c)
    | some ⟨_, none⟩ => (s.partitions.find? (fun q => q.channels.contains (p / 2 ^ 31))).map (fun q => .sliceWay (homeSlice q (paOfPlace q p)) (p / 128 % 16))
  | .reg g _ _ => (findGroup s g).map (fun g => .core g.core)
  | .lmem c _ | .acc c _ _ | .slab c _ _ => some (.core c)
  | .tape d _ => some (.dieUnit d .tape)
  | .equinox d _ => some (.dieUnit d .equinox)

/-- The self-test of a unit is due (R399). -/
def Die.dueTest (u : TestUnit) (d : Die) : Die := if d.due.contains u then d else { d with due := d.due ++ [u] }

/-- Uncorrectable words found at some locations: a self-test of each unit is due (R399). -/
def noteBad (s : State) (ls : List ArrayLoc) : State :=
  (ls.filter s.badWords.contains).foldl (fun s a => match testUnit s a with | some u => modDie s (arrayDie s a) (Die.dueTest u) | none => s) s

/-- An uncorrectable word found: UNCORR counts it (R398), and its unit is tested (R399). -/
def countUncorr (s : State) (die : Nat) (ls : List ArrayLoc) : State :=
  modDie (noteBad s ls) die (fun d => { d with uncorr := min 0xFFFF (d.uncorr + 1) })

/-- The words of a run of places, and of a run of a core's local memory. -/
def memLocs (ps : List Nat) : List ArrayLoc := (wordsOf ps).map (fun w => .mem (8 * w))
def lmemLocs (c off n : Nat) : List ArrayLoc := if n = 0 then [] else (List.range ((off + n - 1) / 8 + 1 - off / 8)).map (fun i => .lmem c (8 * (off / 8 + i)))

/-- Uncorrectable words that are wholly overwritten become good (R397). -/
def healPlaces (s : State) (ps : List Nat) : State :=
  { s with badWords := s.badWords.filter (fun b => match b with
      | .mem a => !(List.range 8).all (fun i => ps.contains (a + i))
      | _ => true) }

/-- A corrected error of a unit: 16 within 2^24 clocks make its test due (R399). -/
def Die.corrected (now : Nat) (u : Option TestUnit) (d : Die) : Die :=
  let d := { d with corr := min 0xFFFFFFFF (d.corr + 1) }
  match u with
  | none => d
  | some u =>
    let ts := (u, now) :: d.corrTimes.filter (fun t => decide (now < t.2 + 2 ^ 24))
    if 16 ≤ (ts.filter (fun t => t.1 == u)).length then Die.dueTest u { d with corrTimes := ts.filter (fun t => t.1 != u) } else { d with corrTimes := ts }

/-- A correctable error found in a word is corrected, written back and counted (R397 to R399). -/
def correctWord (s : State) (a : ArrayLoc) : State :=
  if s.corrWords.contains a then
    modDie { s with corrWords := s.corrWords.filter (· != a) } (arrayDie s a) (Die.corrected s.clk (testUnit s a))
  else s

/-- The same for every word of some locations that an access reads. -/
def correctLocs (s : State) (ls : List ArrayLoc) : State := if s.corrWords = [] then s else ls.foldl correctWord s

/-- The same for the listed words that a condition selects. -/
def correctWhere (s : State) (f : ArrayLoc → Bool) : State := (s.corrWords.filter f).foldl correctWord s

/-- The same for every word of a run of places that an access reads. -/
def correctPlaces (s : State) (ps : List Nat) : State :=
  if s.corrWords = [] then s else (wordsOf ps).foldl (fun s w => correctWord s (.mem (8 * w))) s

/-- The key of a byte of a core's local memory among the times of writes. -/
def lmemKey (c off : Nat) : Nat := 2 ^ 60 + c * 2 ^ 20 + off

/-- A copy of a byte that is written now. -/
def Copy.aged (now : Nat) (c : Copy) : Copy := { c with ended := some (c.ended.getD now) }

/-- Copies of the written bytes end their currency (R311). -/
def ageCopies (now : Nat) (ks : List Nat) (t : List (Nat × Option Copy)) : List (Nat × Option Copy) :=
  t.map (fun e => if ks.contains (e.1 % 2 ^ 64) then (e.1, e.2.map (Copy.aged now)) else e)

/-- One write of some bytes dated: their copies end, and each byte has its latest write (R310, R311; the dates are the MODEL's own, log 55).
(DESIGN CHOICE: log 55) -/
def stampWrites (s : State) (ks : List Nat) : State :=
  let now := s.memSeq + 1
  { s with memSeq := now, wtime := ks.foldl (fun t a => Sparse.put 0 t a now) s.wtime,
           cores := s.cores.map (fun k => if k.l1.isEmpty && k.kc.isEmpty then k
             else { k with l1 := ageCopies now ks k.l1, kc := ageCopies now ks k.kc }) }

/-- The latest of the writes of some bytes. -/
def lastWrite (s : State) (ks : List Nat) : Nat := ks.foldl (fun m a => max m (Sparse.get 0 s.wtime a)) 0

/-- Copies of some bytes dropped from a core's L1. -/
def dropCopies (s : State) (c : Nat) (ps : List Nat) : State :=
  modCore s c (fun k => { k with l1 := k.l1.filter (fun e => !ps.contains e.1) })

/-- Bytes stored by a core's group once registered (R310): the words become owned and lose their stale copies. -/
def storePlaces (s : State) (c : Nat) (bs : List (Nat × Byte)) : State :=
  healPlaces (dropCopies (wrPlaces (stampWrites s (bs.map (·.1))) (some c) bs) c (bs.map (·.1))) (bs.map (·.1))

/-- The owned copies of some bytes recalled into their slices (R302, R310). -/
def recallPlaces (s : State) (ps : List Nat) : State :=
  { s with dirty := s.dirty.map (fun e => if ps.contains e.1 then (e.1, e.2.map (fun d => { d with owner := none })) else e) }

/-- Bytes written at their place of execution: owned copies are recalled (R302). -/
def wrCoherent (s : State) (bs : List (Nat × Byte)) : State :=
  healPlaces (wrPlaces (stampWrites s (bs.map (·.1))) none bs) (bs.map (·.1))

/-- A run of bytes at a physical address written by a unit of the device. -/
def wrPa (s : State) (p : Partition) (pa : Nat) (bs : List Byte) : State :=
  wrCoherent s ((bs.mapIdx (fun i b => (placeOf p (pa + i), b))))

/-- A run of bytes at a physical address. -/
def rdPa (s : State) (p : Partition) (pa n : Nat) : List Byte := (placesOf p pa n).map (rdPlace s)
def rdPaNum (s : State) (p : Partition) (pa n : Nat) : Nat := ofLeBytes (rdPa s p pa n)

/-- A group has read at the point of coherence now: its accesses reach up to the latest write (R312, case 1). -/
def touchRead (s : State) (gid : Nat) : State := modGroup s gid fun g => { g with lastT := max g.lastT s.memSeq }

/-- A group has read at a time. -/
def noteRead (s : State) (gid n : Nat) : State := modGroup s gid fun g => { g with lastT := max g.lastT n }

/-- The time at which one read takes copies of all of its bytes (R311): the earliest at which every byte was current and that is not before
`low`; none where a byte has no copy or was written before. (DESIGN CHOICE: log 55) -/
def copyTime (low : Nat) (cs : List (Option Copy)) : Option Nat :=
  let n := cs.foldl (fun m c => max m ((c.map (·.since)).getD 0)) low
  if cs.all (fun c => match c with | some c => (match c.ended with | some m => decide (n < m) | none => true) | none => false) then some n
  else none

/-- The copies that a group's read may take, and the time of the read. -/
def staleCopies (low : Nat) (t : List (Nat × Option Copy)) (base : Nat) (ps : List Nat) : Option (List Byte × Nat) :=
  let cs := ps.map (fun a => Sparse.get none t (base + a))
  (copyTime low cs).map (fun n => (cs.map (fun c => ((c.map (·.val)).getD 0)), n))

/-- A cache filled with the current bytes of some places. -/
def fillCopies (s : State) (base : Nat) (ps : List Nat) (t : List (Nat × Option Copy)) : List (Nat × Option Copy) :=
  ps.foldl (fun t a => Sparse.put none t (base + a) (some ⟨rdPlace s a, Sparse.get 0 s.wtime a, none⟩)) t

/-- One single-copy atomic plain read of a core (R137, R310, R311): copies that the rules of order permit, else the current bytes, which the L1
then copies; its bytes, its time and the state. (DESIGN CHOICE: log 55) -/
def readChunk (s : State) (c low : Nat) (ps : List Nat) : List Byte × Nat × State :=
  match (findCore s c).bind (fun k => staleCopies low k.l1 0 ps) with
  | some (bs, n) => (bs, n, s)
  | none => (ps.map (rdPlace s), max low (lastWrite s ps), modCore s c (fun k => { k with l1 := fillCopies s 0 ps k.l1 }))

/-- Runs of places cut into aligned units of 8 bytes, each single-copy atomic (R137). -/
def chunksOf (ps : List Nat) : List (List Nat) := (wordsOf ps).map (fun w => ps.filter (fun a => a / 8 == w))

/-- What a core's plain load reads, its time, and the state. -/
def readChunks (c low : Nat) : List (List Nat) → State → List Byte × Nat × State
  | [], s => ([], low, s)
  | ps :: t, s =>
    let (bs, n, s) := readChunk s c low ps
    let (cs, m, s) := readChunks c low t s
    (bs ++ cs, max n m, s)

/-- A plain load of a group, with the least time that local order leaves it (R312). -/
def plainLoad (s : State) (gid low : Nat) (ps : List Nat) : List Byte × Nat × State :=
  match findGroup s gid with
  | none => (ps.map (rdPlace s), low, s)
  | some g =>
    let (bs, n, s) := readChunks g.core (max low g.floor) (chunksOf ps) s
    (bs, n, noteRead s gid n)

/-- Self-invalidation of an acquire (R308). -/
def invalidateL1 (s : State) (c : Nat) : State := modCore s c (fun k => { k with l1 := [] })

/-- The dirty bytes of the 128-byte line at a place, written back to main memory (R62, R68). -/
def writeBackLine (s : State) (line : Nat) : State :=
  (List.range 128).foldl (fun s i =>
    match Sparse.get none s.dirty (128 * line + i) with
    | some d => { s with mem := Sparse.put 0 s.mem (128 * line + i) d.val, dirty := Sparse.put none s.dirty (128 * line + i) none }
    | none => s) s

/-- The line's dirty bytes dropped, with the copies of those that an L1 owns (R68). -/
def dropLine (s : State) (line : Nat) : State :=
  (List.range 128).foldl (fun s i =>
    match Sparse.get none s.dirty (128 * line + i) with
    | some d =>
      let s := { s with dirty := Sparse.put none s.dirty (128 * line + i) none }
      (match d.owner with | some c => dropCopies s c [128 * line + i] | none => s)
    | none => s) s

def lineDirty (s : State) (line : Nat) : Bool :=
  (List.range 128).any (fun i => (Sparse.get none s.dirty (128 * line + i)).isSome)

/-- The dirty lines of a partition's device memory, with the physical address of each. -/
def dirtyLines (s : State) (p : Partition) : List (Nat × Nat) :=
  ((s.dirty.map (·.1 / 128)).eraseDups.filter (fun l => p.channels.contains (128 * l / 2 ^ 31))).map (fun l => (l, paOfPlace p (128 * l)))

/-- A message from a die to another and its reply, counted at every edge that they leave by (R415). (DESIGN CHOICE: log 53) -/
def countPair (s : State) (d t rb : Nat) : State :=
  (pathEdges s d t rb ++ pathEdges s t d rb).foldl (fun s e =>
    modDie s e.1 (fun k => if e.2 then { k with trafA := k.trafA + 1 } else { k with trafB := k.trafB + 1 })) s

/-- The write of a line by its home slice to a channel, counted (R415). (DESIGN CHOICE: log 53) -/
def countLine (s : State) (p : Partition) (l : Nat × Nat) : State := countPair s (homeDie p l.2) (chanDie p l.2) (routeBit l.2)

/-- A dirty line, with its physical address, written back by its home slice. -/
def writeBackFrom (s : State) (p : Partition) (l : Nat × Nat) : State := writeBackLine (countLine s p l) l.1

/-- The bytes of a line that its slice holds dirty written back to main memory; words that an L1 owns stay owned (R64). -/
def writeBackHome (s : State) (line : Nat) : State :=
  (List.range 128).foldl (fun s i =>
    match Sparse.get none s.dirty (128 * line + i) with
    | some ⟨v, none⟩ => { s with mem := Sparse.put 0 s.mem (128 * line + i) v, dirty := Sparse.put none s.dirty (128 * line + i) none }
    | _ => s) s

/-- The slices' dirty lines of some slots written back: a sweep (R64). The registrations of owned words go with their blocks to the new home. -/
def sweepSlots (s : State) (p : Partition) (slots : List Nat) : State :=
  ((dirtyLines s p).filter (fun l => slots.contains (sfold l.2))).foldl (fun s l => writeBackHome (countLine s p l) l.1) s

/-- The 128-byte lines that a slice holds: sixteen ways of 3 MiB, without those retired or under test (R62, R399). -/
def sliceLines (s : State) (v : Nat) : Nat :=
  match findDie s (v / 16) with
  | some d => (16 - ((d.waysOff ++ d.waysTest).filter (fun w => w.1 == v)).length) * 24576
  | none => 0

/-- Slices that hold more dirty lines than they have room for write some back, the lowest first; while all dirty bytes fit one way there are
none (R62). (DESIGN CHOICE: log 65) -/
def trimSlices (s : State) : State :=
  if s.dirty.length ≤ 24576 then s
  else
    s.partitions.foldl (fun s p =>
      (List.range 64).foldl (fun s v =>
        let ls := (dirtyLines s p).filter (fun l => homeSlice p l.2 == v)
        (ls.take (ls.length - sliceLines s v)).foldl (fun s l => writeBackFrom s p l) s) s) s

/-- A request to a slot whose sweep has not finished (R65). -/
def swept (s : State) (p : Partition) (pa : Nat) : Bool := paKind pa == 0 && s.sweeping.contains (p.id, sfold pa)

/-- The sweeps that some requests wait for completed, so that they go on (R65). -/
def settleSlots (s : State) (p : Partition) (pas : List Nat) : State :=
  if s.sweeping = [] then s
  else
    let slots := (pas.filter (swept s p)).map sfold
    { sweepSlots s p slots with sweeping := s.sweeping.filter (fun e => !(e.1 == p.id && slots.contains e.2)) }

/-- The canonical forms of main memory and of the bytes it does not hold yet. -/
def Memory.wf (s : State) : Bool := Sparse.wf 0 s.mem && Sparse.wf none s.dirty

/-! ### Paths between dies (R52 to R54) -/

/-- An edge with a working module. (DEDUCED: log 38) -/
def edgeUp (d : Die) (a : Bool) : Bool := (if a then d.edgeA else d.edgeB).any (fun m => !m.disabled)

/-- A die that relays and answers (R54). -/
def dieServing (d : Die) : Bool := d.state == .service || d.state == .freezing

/-- The link from a die over its edge A or B is up on both sides (R49, R403). -/
def linkUp (s : State) (d : Nat) (a : Bool) : Bool :=
  match findDie s d, findDie s (if a then (d + 1) % 4 else (d + 3) % 4) with
  | some x, some y => edgeUp x a && edgeUp y (!a) && x.state != .reset && y.state != .reset
  | _, _ => false

/-- A die's ROUTE entry for its neighbour over an edge is not 3. -/
def routeOk (d : Die) (a : Bool) : Bool := (if a then fldN d.route.toNat 0 2 else fldN d.route.toNat 2 2) != 3

/-- The path from a die through its neighbour over an edge to its diagonal partner is usable (R54). -/
def viaUsable (s : State) (d : Nat) (a : Bool) : Bool :=
  let m := if a then (d + 1) % 4 else (d + 3) % 4
  match findDie s m with
  | some x => linkUp s d a && linkUp s m a && dieServing x && routeOk x a
  | none => false

/-- The path from a die to another for a route bit is usable (R54). -/
def pathUsable (s : State) (d t rb : Nat) : Bool :=
  if d = t then true
  else
    match findDie s d with
    | none => false
    | some x =>
      if t = (d + 1) % 4 then routeOk x true && linkUp s d true
      else if t = (d + 3) % 4 then routeOk x false && linkUp s d false
      else
        match fldN x.route.toNat 4 2 with
        | 0 => viaUsable s d (rb == 0)
        | 1 => viaUsable s d true
        | 2 => viaUsable s d false
        | _ => false

/-- Both paths between two dies for a route bit are usable, and the target answers (R54, R403). -/
def diesReach (s : State) (d t rb : Nat) : Bool :=
  pathUsable s d t rb && pathUsable s t d rb && (match findDie s t with | some x => dieServing x | none => false)

/-- Every die is reached from every die for every address. -/
def allReach (s : State) : Bool := (List.range 4).all (fun d => (List.range 4).all (fun t => diesReach s d t 0 && diesReach s d t 1))

/-- A request from a die to a physical address is sent: its path and the reply's are usable, so is the home slice's own read of a channel on
another die, and the targets still answer (R54, R61, R403); host memory and other devices are reached from every die. (DEDUCED: log 68) -/
def reachable (s : State) (p : Partition) (d pa : Nat) : Bool :=
  if paKind pa != 0 then true
  else
    diesReach s d (homeDie p pa) (routeBit pa) && (homeDie p pa == chanDie p pa || diesReach s (homeDie p pa) (chanDie p pa) (routeBit pa))

/-- Some of the requests to host memory or to another device receive an error reply (R137, R410): whether they do is not this device's to say.
(DESIGN CHOICE: log 70) -/
def errorReply (s : State) (pas : List Nat) : Bool × State :=
  if pas.any (fun pa => paKind pa != 0) then (let (o, s) := drawOracle s; (o != 0, s)) else (false, s)

/-- A request from a die to a physical address and its reply, counted (R415). (DESIGN CHOICE: log 53) -/
def countTraffic (s : State) (p : Partition) (d pa : Nat) : State := if paKind pa != 0 then s else countPair s d (homeDie p pa) (routeBit pa)

/-- The same for the blocks of a run. -/
def countBlocks (s : State) (p : Partition) (d : Nat) (pas : List Nat) : State := pas.foldl (fun s pa => countTraffic s p d pa) s

/-! ### Local memory (R93 to R97) -/

def rdLocal (s : State) (c off : Nat) : Byte :=
  match findCore s c with | some k => Sparse.get 0 k.lmem off | none => 0

def rdLocalNum (s : State) (c off n : Nat) : Nat := ofLeBytes ((List.range n).map (fun i => rdLocal s c (off + i)))

def lineOf (k : Core) (l : Nat) : LineSt := Sparse.get lineReset k.lines l
def getLine (s : State) (c l : Nat) : LineSt := match findCore s c with | some k => lineOf k l | none => lineReset
def modLine (s : State) (c l : Nat) (f : LineSt → LineSt) : State :=
  modCore s c (fun k => { k with lines := Sparse.put lineReset k.lines l (f (lineOf k l)) })

/-- Bytes written to a core's local memory; bytes of window lines become dirty (R98), whole words become good (R397). -/
def wrLocal (s : State) (c off : Nat) (bs : List Byte) : State :=
  let s := modCore (stampWrites s ((List.range bs.length).map (fun i => lmemKey c (off + i)))) c
    (fun k => { k with lmem := Sparse.putMany 0 k.lmem off bs })
  let s := (List.range bs.length).foldl (fun s i =>
    let ln := (off + i) / 128
    if (getLine s c ln).win = 0 then s
    else modLine s c ln (fun l =>
      { l with win := if l.win = 2 then 3 else l.win, mask := l.mask ||| BitVec.ofNat 128 (1 <<< ((off + i) % 128)) })) s
  { s with badWords := s.badWords.filter (fun b => match b with
      | .lmem c' o => !(c' == c && decide (off ≤ o) && decide (o + 8 ≤ off + bs.length))
      | _ => true) }

def badLocal (s : State) (c off n : Nat) : Bool :=
  s.badWords.any (fun b => match b with
    | .lmem c' o => c' == c && decide (o < off + n) && decide (off < o + 8)
    | _ => false)

/-- Words of some places hold uncorrectable bits copied unchanged (R397). -/
def markMem (s : State) (ps : List Nat) : State :=
  let ks := memLocs ps
  { s with badWords := s.badWords.filter (fun b => !ks.contains b) ++ ks }

/-- Bytes of a core's local memory copied to places of memory, as a write-back does: an uncorrectable word stays so (R397). -/
def carryBad (s : State) (c : Nat) (ms : List (Nat × Nat)) : State :=
  if s.badWords = [] then s else markMem s ((ms.filter (fun e => s.badWords.contains (.lmem c (e.1 - e.1 % 8)))).map (·.2))

/-- Engine commands still to write or read a line (R94): a command leaves a line's count with its last access to it. -/
def wpend (s : State) (c l : Nat) : Nat := (s.cmds.filter (fun x => !x.saved && x.writes.contains (c, l))).length
def rpend (s : State) (c l : Nat) : Nat := (s.cmds.filter (fun x => !x.saved && x.reads.contains (c, l))).length

/-- The lines of a local range. (DEDUCED: log 29) -/
def linesOfRange (off n : Nat) : List Nat := if n = 0 then [] else (List.range ((off + n - 1) / 128 + 1 - off / 128)).map (off / 128 + ·)

end Sys2Proof.Machine
end

