-- ==== Sys2Proof/Machine/Rings.lean ====
section
/-! DEFINITION. Rings (R83), the records of R385 and their posting to the system queues (R386, R387), and frame pools. -/
namespace Sys2Proof.Machine

/-- The physical address at which the device finds a host virtual address of R405 (log 21). -/
def hostPa (va : Nat) : Nat := 2 ^ 51 + va % 2 ^ 50

/-- The partition through which a ring's address is placed; a ring outside device memory needs none of its own. -/
def ringPart (s : State) (pa : Nat) : Option Partition := if paKind pa != 0 then s.partitions.head? else partOfPa s pa

/-- A 64-bit field of a ring's header at a physical address. -/
def ringNum (s : State) (p : Partition) (pa off n : Nat) : Nat := rdPaNum s p (pa + off) n

/-- The entry count of a ring (R83). -/
def ringCount (s : State) (p : Partition) (pa : Nat) : Nat := 2 ^ (ringNum s p pa 16 1 % 64)

/-- A die reaches a ring's header and its next entry of some size (R54). -/
def ringReach (s : State) (p : Partition) (die pa off : Nat) : Bool := reachable s p die pa && reachable s p die (pa + off)

/-- A record ring has room (R83): fewer entries than the count lie between the consumer and the producer. A ring that a die does not reach has
none for it (R54). (DEDUCED: log 68) -/
def ringRoom (s : State) (die pa : Nat) : Bool :=
  match ringPart s pa with
  | none => false
  | some p => ringReach s p die pa 64 && decide ((ringNum s p pa 0 8 + 2 ^ 64 - ringNum s p pa 8 8) % 2 ^ 64 < ringCount s p pa)

/-- A record pushed under the protocol of R83: the index is reserved, then the entry is written. -/
def ringPush (s : State) (pa size : Nat) (bs : List Byte) : State :=
  match ringPart s pa with
  | none => s
  | some p =>
    let i := ringNum s p pa 0 8
    let s' := wrPa s p pa (leBytes 8 (i + 1))
    wrPa s' p (pa + 64 + (i % ringCount s p pa) * size) bs

/-- The physical address of an enabled queue register (R386, R76's siblings). -/
def queueRing (r : DWord) : Option Nat := if r.getLsbD 0 then some (fldN r.toNat 6 46 * 64) else none

/-- The ring of a queue, where one is attached. (DEDUCED: log 49) -/
def postRing (s : State) (q : PostQueue) : Option Nat :=
  match q with
  | .sysnq => queueRing s.sysnq
  | .sysfq => queueRing s.sysfq
  | .hotPage d => (findDie s d).bind (·.sampler.notify)
  | .host q => (s.hostQueues.find? (fun h => h.id == q)).map (fun h => hostPa (ofLeBytes ((h.desc.drop 24).take 8)))

def bumpOvf (s : State) (die : Nat) : State := modDie s die (fun d => { d with ovf := min 0xFFFF (d.ovf + 1) })

/-- The first held record of a queue that stands behind no earlier record of its own source (R387). -/
def heldHead (q : PostQueue) : List RecSource → List HeldRec → Option HeldRec
  | _, [] => none
  | seen, h :: t => if h.q = q ∧ h.src ∉ seen then some h else heldHead q (h.src :: seen) t

/-- A record posted, or held in the order of its source while its queue is full or not enabled, with the delay counted (R386, R387). -/
def postRec (s : State) (q : PostQueue) (die : Nat) (src : RecSource) (ws : List DWord) : State :=
  let hold : State := bumpOvf { s with heldRecs := s.heldRecs ++ [⟨q, src, die, ws⟩] } die
  if s.heldRecs.any (fun h => h.src == src) || (heldHead q [] s.heldRecs).isSome then hold
  else
    match postRing s q with
    | none => hold
    | some pa => if ringRoom s die pa then ringPush s pa 64 (ws.flatMap (fun w => leBytes 8 w.toNat)) else hold

/-- The fields of a record (R385). -/
structure RecF where
  kind : Nat
  cause : Nat := 0
  lane : Nat := 0
  half : Bool := false
  nested : Bool := false
  user : Bool := false
  acc : Nat := 0
  asid : Nat := 0
  taddr : DWord := 0
  raddr : DWord := 0
  mask : DWord := 0
  daddr : DWord := 0
  extra : DWord := 0
  team : Nat := 0
  disp : Nat := 0
  deriving DecidableEq, Repr

/-- A record's eight words, VALID set (R385). -/
def recWords (r : RecF) (clk : Nat) : List DWord :=
  [BitVec.ofNat 64 (2 ^ 63 + (r.asid % 4096) * 2 ^ 32 + (r.acc % 16) * 2 ^ 28 + r.user.toNat * 2 ^ 26 + r.nested.toNat * 2 ^ 25
     + r.half.toNat * 2 ^ 24 + (r.lane % 64) * 2 ^ 16 + (r.cause % 256) * 2 ^ 8 + r.kind % 256),
   r.taddr, r.raddr, r.mask, r.daddr, r.extra, BitVec.ofNat 64 ((r.team % 2 ^ 32) * 2 ^ 32 + r.disp % 2 ^ 32), BitVec.ofNat 64 clk]

/-- A notification posted to SYSNQ (R386). -/
def notify (s : State) (die : Nat) (src : RecSource) (r : RecF) : State := postRec s .sysnq die src (recWords r s.clk)

/-- The units of a die that post records: the first-touch unit, the scheduler, the map units, what drives the die's own state, and the unit that
runs self-tests. -/
def unitTouch : Nat := 5
def unitSched : Nat := 7
def unitMap : Nat := 8
def unitDie : Nat := 9
def unitTest : Nat := 10

/-- The kinds of R386's events. -/
def evBadTask : Nat := 0x20
def evBadSucc : Nat := 0x21
def evSuccErr : Nat := 0x22
def evRefused : Nat := 0x23
def evEngFail : Nat := 0x24
def evStoreErr : Nat := 0x25
def evWbFail : Nat := 0x26
def evLowWater : Nat := 0x27
def evPoolEmpty : Nat := 0x28
def evModFail : Nat := 0x29
def evTestPass : Nat := 0x2A
def evRetired : Nat := 0x2B
def evDieState : Nat := 0x2C
def evTapeFault : Nat := 0x2D
def evLoadErr : Nat := 0x2E

/-- The number of a die state (R401). -/
def dstateNum (d : DState) : Nat := match d with | .service => 0 | .freezing => 1 | .frost => 2 | .reset => 3 | .failed => 4

/-- A die's state changed, with its DIESTATE event (R400). (DESIGN CHOICE: log 35) -/
def setDieState (s : State) (d : Nat) (x : DState) : State :=
  notify (modDie s d (fun y => { y with state := x })) d (.unit d unitDie) { kind := evDieState, extra := BitVec.ofNat 64 (d * 256 + dstateNum x) }

/-- A frame taken by a die from a pool of R83, unless it is empty or not reached (R54). (DEDUCED: log 68) -/
def poolPop (s : State) (die pa : Nat) : Option (Nat × State) :=
  match ringPart s pa with
  | none => none
  | some p =>
    let c := ringNum s p pa 8 8
    let ea := pa + 64 + (c % ringCount s p pa) * 8
    let e := rdPaNum s p ea 8
    if ringReach s p die pa (ea - pa) && e % 2 = 1 then some (e - e % 65536, wrPa (wrPa s p ea (leBytes 8 0)) p (pa + 8) (leBytes 8 (c + 1))) else none

/-- A frame returned by a die to a pool as a producer entry (R84, R396); a pool that the die does not reach keeps what it holds (R54).
(DEDUCED: log 68) -/
def poolPush (s : State) (die pa frame : Nat) : State :=
  if ((ringPart s pa).map (fun p => ringReach s p die pa 64)).getD false then ringPush s pa 8 (leBytes 8 (frame + 1)) else s

/-- Entries of a pool that remain: those written, from the consumer on (R83, R84). (DEDUCED: log 51) -/
def poolLeft (s : State) (pa : Nat) : Nat :=
  match ringPart s pa with
  | none => 0
  | some p =>
    let c := ringNum s p pa 8 8
    let n := min (ringCount s p pa) ((ringNum s p pa 0 8 + 2 ^ 64 - c) % 2 ^ 64)
    ((List.range n).takeWhile (fun i => rdPaNum s p (pa + 64 + ((c + i) % ringCount s p pa) * 8) 8 % 2 = 1)).length

/-- The next entries of a pool. -/
def poolNext (s : State) (pa n : Nat) : List Nat :=
  match ringPart s pa with
  | none => []
  | some p => (List.range n).map (fun i => rdPaNum s p (pa + 64 + ((ringNum s p pa 8 8 + i) % ringCount s p pa) * 8) 8)

/-- A die reaches the 2 MiB frame at an address (R54). -/
def frameReach (s : State) (die pa : Nat) : Bool :=
  allReach s || ((ringPart s pa).map (fun p => (List.range 8192).all (fun i => reachable s p die (pa + 256 * i)))).getD false

end Sys2Proof.Machine
end

