-- ==== Sys2Proof/Machine/Xlate.lean ====
section
/-! DEFINITION. Address spaces, the five-level walk, first touch, cached translations (R76 to R84). -/
namespace Sys2Proof.Machine

/-- On whose behalf and from which die an address is translated, with the address-space descriptor read at acceptance (R76); the core, where the
access is a core's own. -/
structure XCtx where
  part : Nat
  asid : Nat
  ascr : List Byte
  die : Nat
  core : Option Nat
  deriving DecidableEq, Repr

/-- The translation context of a dispatch on a die, and on a core. -/
def ctxOf (d : Dispatch) (die : Nat) : XCtx := ⟨d.part, dispAsid d, d.ascr, die, none⟩
def ctxOn (d : Dispatch) (c : Nat) : XCtx := ⟨d.part, dispAsid d, d.ascr, coreDie c, some c⟩

/-- What an access does to its page (R78, R79). -/
inductive Acc where
  | read | write | fetch
  deriving DecidableEq, Repr

/-- The outcome of a translation: the physical address, a cause of R79, a mapping under migration (R89), or an entry on a die that no usable
path reaches (R54). -/
inductive Xl where
  | ok (pa : Nat)
  | fault (cause : Nat)
  | mig
  | rem
  deriving DecidableEq, Repr

/-- Bits [63:57] of a virtual address equal bit 56 (R72). -/
def canonical (va : Nat) : Bool := fldN va 57 7 == (if va.testBit 56 then 127 else 0)
/-- The 57-bit value of a virtual address (R72). -/
def va57 (va : Nat) : Nat := va % 2 ^ 57

/-- The lowest index bit, the index width and the page size's log2 of a walk level (R77). -/
def levelLo (l : Nat) : Nat := match l with | 4 => 48 | 3 => 39 | 2 => 30 | 1 => 21 | _ => 16
def levelBits (l : Nat) : Nat := match l with | 0 => 5 | _ => 9

/-- ADDR of an entry (R78). -/
def pteAddr (e : Nat) : Nat := fldN e 8 44 * 256

/-- A malformed entry at a level (R78). -/
def pteBad (l e : Nat) : Bool :=
  let leaf := e.testBit 1
  fldN e 52 4 != 0 || (leaf && decide (3 ≤ l)) || (!leaf && l == 0) || (!e.testBit 0 && e.testBit 4 && l != 0)
  || (leaf && pteAddr e % 2 ^ levelLo l != 0) || (!leaf && l != 0 && pteAddr e % (if l = 1 then 256 else 4096) != 0)

/-- What a walk finds: a leaf with its level and the entry's physical address, a fault, a migrating mapping, an entry that no usable path
reaches, or a first touch. -/
inductive Walk where
  | leaf (l e ea : Nat)
  | fault (cause : Nat)
  | mig
  | rem
  | first (e ea : Nat)
  deriving DecidableEq, Repr

/-- The walk from a table down through the levels listed, by a die's walker (R54, R77 to R79). -/
def walkFrom (s : State) (p : Partition) (die va : Nat) : List Nat → Nat → Walk
  | [], _ => .fault 2
  | l :: ls, t =>
    if !isDevPa p t && paKind t = 0 then .fault 3
    else
      let ea := t + 8 * fldN va (levelLo l) (levelBits l)
      let e := rdPaNum s p ea 8
      if !reachable s p die ea then .rem
      else if !e.testBit 0 && !e.testBit 4 then .fault 1
      else if e.testBit 0 && e.testBit 5 then .mig
      else if pteBad l e then .fault 2
      else if !e.testBit 0 then .first e ea
      else if e.testBit 1 then (if validPa s p (pteAddr e) then .leaf l e ea else .fault 3)
      else if !validPa s p (pteAddr e) then .fault 3
      else walkFrom s p die va ls (pteAddr e)

/-- The walk from the descriptor's root (R76, R77). (DEDUCED: log 36) -/
def walk (s : State) (p : Partition) (x : XCtx) (va : Nat) : Walk :=
  let d0 := ofLeBytes (x.ascr.take 8)
  if d0 % 2 = 0 then .fault 1
  else if !validPa s p (fldN d0 12 40 * 4096) then .fault 3
  else walkFrom s p x.die va [4, 3, 2, 1, 0] (fldN d0 12 40 * 4096)

/-- The upper-level entries that a walk passes: each level with the table that its entry names (R80). -/
def upperPath (s : State) (p : Partition) (va : Nat) : List Nat → Nat → List (Nat × Nat)
  | [], _ => []
  | l :: ls, t =>
    let e := rdPaNum s p (t + 8 * fldN va (levelLo l) (levelBits l)) 8
    if e.testBit 0 && !e.testBit 5 && !e.testBit 1 && !pteBad l e && validPa s p (pteAddr e) then (l, pteAddr e) :: upperPath s p va ls (pteAddr e)
    else []

/-- W and X checked in the order of R79. -/
def permFault (e : Nat) (a : Acc) : Option Nat :=
  match a with
  | .write => if e.testBit 2 then none else some 4
  | .fetch => if e.testBit 3 then none else some 5
  | .read => none

/-- Fewer than one-eighth of a pool's entries remain: LOWWATER is posted once until the pool is refilled (R84). -/
def lowWater (s : State) (die pool : Nat) : State :=
  match findDie s die, ringPart s pool with
  | some d, some p =>
    let low := decide (8 * poolLeft s pool < ringCount s p pool)
    if low && !d.lowPosted then notify (modDie s die (fun d => { d with lowPosted := true })) die (.unit die unitTouch) { kind := evLowWater }
    else if !low && d.lowPosted then modDie s die (fun d => { d with lowPosted := false })
    else s
  | _, _ => s

/-- A frame taken from a die's pool by its first-touch unit; none where the pool is empty or the unit is disabled (R83, R399). -/
def takeFrame (s : State) (die : Nat) : Option (Nat × Nat × State) :=
  match (findDie s die).bind (fun d => if d.unitsOff.contains 5 || d.unitsTest.contains 5 then none else queueRing d.ftpool) with
  | none => none
  | some pool => (poolPop s die pool).map (fun r => (pool, r.1, r.2))

/-- The entry of a first touch with its frame (R84). -/
def touchedEntry (e f : Nat) : Nat := (e - pteAddr e - 16) + f + 1 + (if e.testBit 6 then 0 else 64)

/-- A first touch by a die's unit (R83, R84); none where the pool is empty. Where the schedule says so, the unit of another die of the partition
touches the page at once and wins the compare-and-swap: this die returns its frame to its pool and the walk finds the other's. (DESIGN CHOICE:
log 3) -/
def firstTouch (s : State) (p : Partition) (die e ea : Nat) : Option (Nat × State) :=
  match takeFrame s die with
  | none => none
  | some (pool, f, s) =>
    let (o, s) := drawOracle s
    match if o = 0 || o % 4 == die || !p.dies.contains (o % 4) || !reachable s p (o % 4) ea then none else takeFrame s (o % 4) with
    | none => some (touchedEntry e f, lowWater (wrPa s p ea (leBytes 8 (touchedEntry e f))) die pool)
    | some (pool', f', s) =>
      let s := lowWater (wrPa s p ea (leBytes 8 (touchedEntry e f'))) (o % 4) pool'
      some (touchedEntry e f', lowWater (poolPush s die pool f) die pool)

/-- A bit set in an entry with an atomic OR at its home slice (R78). -/
def pteOr (s : State) (p : Partition) (ea bit : Nat) : State :=
  let e := rdPaNum s p ea 8
  if e.testBit bit then s else wrPa s p ea (leBytes 8 (e + 2 ^ bit))

/-- The entries that a level holds (R80); the size of the page-walk caches is not the spec's. (DESIGN CHOICE: log 69) -/
def tlbSize (lvl : Nat) : Nat := match lvl with | 1 => 64 | 2 => 2048 | 3 => 16384 | _ => 16384

/-- An entry placed in its level, the oldest leaving where the level is full (R80). (DESIGN CHOICE: log 69) -/
def tlbPut (s : State) (t : Tlb) : State :=
  let mine (u : Tlb) : Bool := u.lvl == t.lvl && u.unit == t.unit
  let same (u : Tlb) : Bool := u.asid == t.asid && u.base == t.base && u.lg == t.lg
  { s with tlb := (t :: s.tlb.filter (fun u => mine u && !same u)).take (tlbSize t.lvl) ++ s.tlb.filter (fun u => !mine u) }

/-- The levels that serve a context, the nearest first. -/
def tlbLevels (x : XCtx) : List (Nat × Nat) := (match x.core with | some c => [(1, c), (2, c)] | none => []) ++ [(3, x.die)]

/-- The cached translations of an address that a context meets, the nearest level first (R80). -/
def tlbHits (s : State) (x : XCtx) (va : Nat) : List Tlb :=
  (tlbLevels x).filterMap (fun l => s.tlb.find? (fun t =>
    t.lvl == l.1 && t.unit == l.2 && t.asid == x.asid && t.base == va - va % 2 ^ t.lg))

/-- A translation placed in every level of a context. -/
def tlbFill (s : State) (x : XCtx) (t : Tlb) : State :=
  (tlbLevels x).foldl (fun s l => tlbPut s { t with lvl := l.1, unit := l.2 }) s

/-- The deepest upper-level entry of an address in the page-walk cache of its die: its level and the table that it names (R80). -/
def cachedUpper (s : State) (x : XCtx) (va : Nat) : Option (Nat × Nat) :=
  [1, 2, 3, 4].findSome? (fun l => (s.tlb.find? (fun t =>
      t.lvl == 4 && t.unit == x.die && t.asid == x.asid && t.lg == levelLo l && t.base == va - va % 2 ^ t.lg)).map (fun t => (l, t.pa)))

/-- The walk of a context through the page-walk cache of its die (R80). -/
def cachedWalk (s : State) (p : Partition) (x : XCtx) (va : Nat) : Walk :=
  match cachedUpper s x va with
  | some (l, t) => walkFrom s p x.die va ((List.range l).reverse) t
  | none => walk s p x va

/-- The entries of device memory that a walk from a table down reads, for the counts of R415. -/
def entriesFrom (s : State) (p : Partition) (va : Nat) : List Nat → Nat → List Nat
  | [], _ => []
  | l :: ls, t =>
    let ea := t + 8 * fldN va (levelLo l) (levelBits l)
    let e := rdPaNum s p ea 8
    if !isDevPa p t then [] else ea :: (if e % 4 = 1 then entriesFrom s p va ls (pteAddr e) else [])

/-- The entries that a walk of a context reads. -/
def walkReads (s : State) (p : Partition) (x : XCtx) (va : Nat) : List Nat :=
  match cachedUpper s x va with
  | some (l, t) => entriesFrom s p va ((List.range l).reverse) t
  | none => entriesFrom s p va [4, 3, 2, 1, 0] (fldN (ofLeBytes (x.ascr.take 8)) 12 40 * 4096)

/-- The leaf that maps an address, whether its mapping migrates or not: the old mapping until a migration ends (R86, R89). -/
def oldLeaf (s : State) (p : Partition) (va : Nat) : List Nat → Nat → Option Nat
  | [], _ => none
  | l :: ls, t =>
    let e := rdPaNum s p (t + 8 * fldN va (levelLo l) (levelBits l)) 8
    if !e.testBit 0 || pteBad l e || !validPa s p (pteAddr e) then none
    else if e.testBit 1 then some (pteAddr e + va % 2 ^ levelLo l)
    else oldLeaf s p va ls (pteAddr e)

/-- The upper-level entries of a walk placed in the page-walk cache of its die. -/
def fillPath (s : State) (p : Partition) (x : XCtx) (va : Nat) : State :=
  (upperPath s p va [4, 3, 2, 1] (fldN (ofLeBytes (x.ascr.take 8)) 12 40 * 4096)).foldl (fun s e =>
    tlbPut s ⟨4, x.die, x.asid, va - va % 2 ^ levelLo e.1, levelLo e.1, e.2, false, false, false, 0⟩) s

/-- The use of a leaf: permissions, A and D, and cached translations inserted (R78 to R80). -/
def useLeaf (s : State) (p : Partition) (x : XCtx) (va : Nat) (a : Acc) (l e ea : Nat) : State × Xl :=
  match permFault e a with
  | some c => (s, .fault c)
  | none =>
    let lg := levelLo l
    let s := pteOr s p ea 6
    let s := if a = .write then pteOr s p ea 7 else s
    (tlbFill s x ⟨3, x.die, x.asid, va - va % 2 ^ lg, lg, pteAddr e, e.testBit 2, e.testBit 3, a == .write, ea⟩, .ok (pteAddr e + va % 2 ^ lg))

/-- A translation by a walk of the tables (R77 to R84); a first-touch unit under test holds first touches, which wait as on a migrating mapping
(R399). A first touch of an entry with MIG set leaves a migrating mapping (R79, R80, R84). (DEDUCED: log 46) -/
def walkXl (s : State) (p : Partition) (x : XCtx) (va : Nat) (a : Acc) : State × Xl :=
  let s := (walkReads s p x va).foldl (fun s ea => countTraffic s p x.die ea) s
  match cachedWalk s p x va with
  | .fault c => (s, .fault c)
  | .mig => (s, .mig)
  | .rem => (s, .rem)
  | .leaf l e ea => useLeaf (fillPath s p x va) p x va a l e ea
  | .first e ea =>
    match permFault e a with
    | some c => (s, .fault c)
    | none =>
      if unitHeld s x.die .firstTouch then (s, .mig)
      else
      match firstTouch s p x.die e ea with
      | none => (match (findDie s x.die).bind (fun d => queueRing d.ftpool) with | some pool => lowWater s x.die pool | none => s, .fault 6)
      | some (e', s) =>
        if e'.testBit 5 then (s, .mig)
        else if validPa s p (pteAddr e') then useLeaf (fillPath s p x va) p x va a 0 e' ea else (s, .fault 3)

/-- A cached translation serves an access: the nearer levels take it, and the first write through it sets D in an entry that its die reaches
(R54, R78, R80). -/
def useCached (s : State) (p : Partition) (x : XCtx) (va : Nat) (a : Acc) (t : Tlb) : State × Xl :=
  let first := a == .write && !t.d
  if first && !reachable s p x.die t.pte then (s, .rem)
  else (tlbFill (if first then pteOr s p t.pte 7 else s) x { t with d := t.d || a == .write }, .ok (t.pa + va % 2 ^ t.lg))

/-- Translation of a canonical address (R77 to R84). The nearest level that holds it serves it; where the schedule says that some were evicted
(log 3), a farther one or a walk does. An address past the end of what its partition may name is invalid (R73, R79). -/
def translate (s : State) (x : XCtx) (va : Nat) (a : Acc) : State × Xl :=
  match findPart s x.part with
  | none => (s, .fault 1)
  | some p =>
    let va := va57 va
    let r : State × Xl := match tlbHits s x va with
      | [] => walkXl s p x va a
      | t :: ts =>
        let (o, s) := drawOracle s
        match (t :: ts)[o]? with
        | none => walkXl s p x va a
        | some t => if (a == .write && !t.w) || (a == .fetch && !t.x) then walkXl s p x va a else useCached s p x va a t
    match r with
    | (s, .ok pa) => if validPa s p pa then (s, .ok pa) else (s, .fault 3)
    | r => r

/-- Every page that a range touches is translated; the physical address of each of its bytes follows from its page. -/
def translateRange (s : State) (x : XCtx) (a : Acc) : List Nat → State × Option Xl
  | [] => (s, none)
  | va :: vs =>
    match translate s x va a with
    | (s, .ok _) => translateRange s x a vs
    | (s, r) => (s, some r)

/-- The 64 KiB pages of a range. -/
def pagesOf (va n : Nat) : List Nat :=
  if n = 0 then [] else (List.range ((va + n - 1) / 65536 + 1 - va / 65536)).map (fun i => max va ((va / 65536 + i) * 65536))

end Sys2Proof.Machine
end

