-- ==== Sys2Proof/Machine/Sampler.lean ====
section
/-! DEFINITION. The access sampler and the hot-page table (R90, R91). -/
namespace Sys2Proof.Machine

/-- A 32-byte sample (R90). -/
def sampleRec (die : Nat) (a : SampledAccess) (clk : Nat) : List Byte :=
  leBytes 8 (va57 a.va) ++ leBytes 2 a.lcore ++ leBytes 1 a.ty ++ leBytes 1 die ++ leBytes 2 a.asid ++ leBytes 2 0 ++ leBytes 8 clk
    ++ leBytes 8 (2 ^ 63)

/-- The key of an access's page (R91). -/
def hotKey (a : SampledAccess) : Nat := (a.asid % 4096) * 2 ^ 41 + va57 a.va / 65536

/-- A 16-byte notification (R91). -/
def hotNote (i : Nat) (h : HotPage) : List Byte :=
  leBytes 8 (h.key % 2 ^ 41 * 65536) ++ leBytes 2 (h.key / 2 ^ 41) ++ leBytes 2 i ++ leBytes 2 h.count ++ leBytes 2 0x8000

def modSampler (s : State) (die : Nat) (f : Sampler → Sampler) : State := modDie s die (fun d => { d with sampler := f d.sampler })

/-- The entry for a key: its own, the lowest free, or the lowest with the smallest count and neither QUEUED nor PENDING (R91). -/
def hotSlot (p : Sampler) (key : Nat) : Option (Nat × HotPage) :=
  let es := p.table.filterMap (fun e => e.2.map (fun h => (e.1, h)))
  match es.find? (fun e => e.2.key == key) with
  | some e => some e
  | none =>
    let fresh (i : Nat) : Option (Nat × HotPage) := some (i, ⟨key, 0, false, false⟩)
    match (List.range (min 4096 (es.length + 1))).find? (fun i => !(es.any (fun e => e.1 == i))) with
    | some i => fresh i
    | none =>
      match (es.filter (fun e => !e.2.queued && !e.2.pending)).foldl
          (fun m e => match m with | none => some e | some b => if e.2.count < b.2.count then some e else some b) none with
      | some e => fresh e.1
      | none => none

/-- The notification queue of a die has room. -/
def hotRoom (s : State) (die : Nat) (p : Sampler) : Bool := match p.notify with | some pa => ringRoom s die pa | none => false

/-- The hot-page table updated by a sample (R91). -/
def hotUpdate (s : State) (die : Nat) (a : SampledAccess) : State :=
  match findDie s die with
  | none => s
  | some d =>
    let p := d.sampler
    match hotSlot p (hotKey a) with
    | none => modSampler s die (fun p => { p with hotmiss := min 0xFFFFFFFF (p.hotmiss + 1) })
    | some (i, h) =>
      let h := { h with count := min (h.count + 1) 0xFFFF }
      let put (s : State) (h : HotPage) (ovf : Nat) : State :=
        modSampler s die (fun p => { p with table := Sparse.put none p.table i (some h), overflow := min 0xFFFFFFFF (p.overflow + ovf) })
      if p.thresh ≤ h.count && !h.queued && !h.pending then
        match p.notify, hotRoom s die p with
        | some pa, true => ringPush (put s { h with queued := true } 0) pa 16 (hotNote i h)
        | _, _ => put s { h with pending := true } 1
      else put s h 0

/-- An access reaches a die's sampler: every N-th is sampled (R90, R91), none while the sampler is under test or disabled (R399). (DEDUCED: log 33) -/
def sampleAccess (s : State) (die : Nat) (a : SampledAccess) : State :=
  match findDie s die with
  | none => s
  | some d =>
    let p := d.sampler
    if p.log2n = 0 || d.unitsOff.contains 6 || d.unitsTest.contains 6 then s
    else if p.counter + 1 < 2 ^ p.log2n then modSampler s die (fun p => { p with counter := p.counter + 1 })
    else
      let s := modSampler s die (fun p => { p with counter := 0 })
      let s := match p.ring with
        | some pa =>
          if ringRoom s die pa then ringPush s pa 32 (sampleRec die a s.clk)
          else modSampler s die (fun p => { p with smplost := min 0xFFFFFFFF (p.smplost + 1) })
        | none => modSampler s die (fun p => { p with smplost := min 0xFFFFFFFF (p.smplost + 1) })
      if p.hot then hotUpdate s die a else s

/-- A pending notification posted when the queue has room: the lowest table index first (R91). -/
def hotPost (s : State) (die : Nat) : State :=
  match findDie s die with
  | none => s
  | some d =>
    match (d.sampler.table.filterMap (fun e => e.2.map (fun h => (e.1, h)))).find? (fun e => e.2.pending), d.sampler.notify with
    | some (i, h), some pa =>
      if ringRoom s die pa then
        ringPush (modSampler s die (fun p => { p with table := Sparse.put none p.table i (some { h with queued := true, pending := false }) }))
          pa 16 (hotNote i h)
      else s
    | _, _ => s

end Sys2Proof.Machine
end

