-- ==== Sys2Proof/Machine/Flight.lean ====
section
/-! DEFINITION. Accesses that have left issue: what an atomic computes (R301), how loads, atomics and stores in flight are performed,
in which order (R312, R313), and how they return (R419, R139). -/
namespace Sys2Proof.Machine

/-! ### The operations of R301 -/

def atomBits (t : AtomTy) : Nat := 32 * atomTyWords t
def atomBytes (t : AtomTy) : Nat := 4 * atomTyWords t
def atomFmt (t : AtomTy) : Fmt := match t with | .f64 => .f64 | _ => .f32

/-- The smaller or larger of two integers of a type. -/
def atomPick (t : AtomTy) (mx : Bool) (a b : Nat) : Nat :=
  let le : Bool := if atomTyUns t then decide (a ≤ b) else decide (sextN (atomBits t) a ≤ sextN (atomBits t) b)
  if le != mx then a else b

/-- A float result of an atomic (R301): a NaN is the default NaN. -/
def atomFloat (f : Fmt) (x : Nat) : Nat := if (f.decode x).isNan then f.nanBits else x

/-- The new value from old, b and c; none where a compare fails and nothing is written (R301, R302). -/
def atomNew (o : AtomOp) (t : AtomTy) (old b c : Nat) : Option Nat :=
  let f := atomFmt t
  match o with
  | .add => some ((old + b) % 2 ^ atomBits t)
  | .min => some (atomPick t false old b)
  | .max => some (atomPick t true old b)
  | .and => some (old &&& b)
  | .or => some (old ||| b)
  | .xor => some (old ^^^ b)
  | .exch => some b
  | .cas => if old = c then some b else none
  | .inc => some (if b ≤ old then 0 else old + 1)
  | .dec => some (if old = 0 ∨ b < old then b else old - 1)
  | .fadd =>
    let x := (fpAdd f 0 .rne (f.decode old) (f.decode b)).1
    some (match f.decode x with | .fin _ 0 _ => 0 | _ => atomFloat f x)
  | .fmin => some (atomFloat f (fpMinMax f 0 false false old b).1)
  | .fmax => some (atomFloat f (fpMinMax f 0 true false old b).1)

/-! ### Order within a group -/

/-- Two runs of places share a byte. -/
def overlap (a n b m : Nat) : Bool := decide (a < b + m) && decide (b < a + n)

/-- Every lane of a flight has been performed. -/
def flightDone (f : Flight) : Bool := f.left.isEmpty

/-- The lanes' accesses of a flight that are still to be performed, and their runs of places. -/
def flightLeft (f : Flight) : List LaneAcc := f.lanes.filter (fun a => f.left.contains a.lane)
def flightRuns (f : Flight) : List (Nat × Nat) := (flightLeft f).map (fun l => (l.place, f.size))

def runsOverlap (a b : List (Nat × Nat)) : Bool := a.any (fun x => b.any (fun y => overlap x.1 x.2 y.1 y.2))

def isPlainLoad (f : Flight) : Bool := match f.op with | .load | .loadc => true | _ => false
def isAtomFlight (f : Flight) : Bool := match f.op with | .atom .. => true | .agg .. => true | _ => false
def flightAcq (f : Flight) : Bool :=
  match f.op with | .load | .loadc => false | .loadx a => a | .atom _ _ a _ _ => a | .agg _ _ a _ => a

/-- An access below a sequence number that is not performed. -/
def pendingBelow (g : Group) (n : Nat) : Bool :=
  g.flights.any (fun h => decide (h.seq < n) && !flightDone h) || g.stores.any (fun w => decide (w.seq < n))

/-- A write after a `fence.rel` waits for every access before the fence (R309, R312, case 5). -/
def relBlocked (g : Group) (seq : Nat) : Bool := decide (g.relFence ≤ seq) && pendingBelow g (min g.relFence seq)

/-- A store that some accesses of a flight must follow: it overlaps, and a plain load does not read its bytes (R313, condition 1). -/
def storeFirst (f : Flight) (runs : List (Nat × Nat)) (w : PendStore) : Bool :=
  decide (w.seq < f.seq) && (!isPlainLoad f || w.red.isSome) && runsOverlap [(w.place, w.size)] runs

/-- An earlier access of the group must be performed before one lane's access of a flight: an overlapping load or atomic, or an overlapping store
unless a plain load reads its bytes (R313, condition 1); an earlier release, for an acquire (R312, case 3); for an atomic, which writes, what a
`fence.rel` or the forerunner ordering mode puts before a write (R312, cases 5 and 8). Lanes to other locations go on (R317). -/
def laneBlocked (ord : Bool) (g : Group) (f : Flight) (a : LaneAcc) : Bool :=
  (flightAcq f && (g.flights.any (fun h => decide (h.seq < f.seq) && !flightDone h && h.rel)
    || g.stores.any (fun w => decide (w.seq < f.seq) && w.rel)))
  || g.flights.any (fun h => decide (h.seq < f.seq) && !flightDone h && runsOverlap (flightRuns h) [(a.place, f.size)])
  || g.stores.any (storeFirst f [(a.place, f.size)])
  || (isAtomFlight f && (relBlocked g f.seq || (ord &&
        (g.flights.any (fun h => decide (h.seq < f.seq) && !flightDone h) || g.stores.any (fun w => decide (w.seq < f.seq) && w.red.isSome)))))

/-- The same for a store; in forerunner ordering mode every earlier read, an atomic's among them, comes first (R312, case 8). -/
def storeBlocked (ord : Bool) (g : Group) (w : PendStore) : Bool :=
  g.flights.any (fun h => decide (h.seq < w.seq) && !flightDone h && (ord || runsOverlap (flightRuns h) [(w.place, w.size)]))
  || g.stores.any (fun u => decide (u.seq < w.seq) && (overlap u.place u.size w.place w.size || (ord && u.red.isSome)))
  || relBlocked g w.seq

/-! ### Homes (R61, R65) -/

/-- The partition of a group's dispatch. -/
def groupPart (s : State) (g : Group) : Option Partition := (dispOf s g).bind (dispPart s)

/-- A request whose home has moved since it was stamped (R65). -/
def moved (p : Partition) (pa home : Nat) : Bool := paKind pa == 0 && homeSlice p pa != home

/-- A redirect counted in REDIRECT (R65). (DESIGN CHOICE: log 53) -/
def countRedirect (s : State) (die : Nat) : State := modDie s die (fun d => { d with redirects := d.redirects + 1 })

def modFlight (s : State) (gid seq : Nat) (f : Flight → Flight) : State :=
  modGroup s gid (fun g => { g with flights := g.flights.map (fun h => if h.seq = seq then f h else h) })
def modStore (s : State) (gid seq : Nat) (f : PendStore → PendStore) : State :=
  modGroup s gid (fun g => { g with stores := g.stores.map (fun h => if h.seq = seq then f h else h) })

/-! ### Performing -/

/-- A byte of one of the group's own stores that a later plain load reads before its registration (R138, R310). -/
def forwarded (g : Group) (seq place : Nat) : Option Byte :=
  g.stores.foldl (fun r w =>
    if w.seq < seq then (match w.bytes.find? (fun b => b.1 == place) with | some b => some b.2 | none => r) else r) none

/-- A constant load reads the constant cache's copies, or where the schedule says so or none is held the current bytes, which the cache then
copies (R141). (DESIGN CHOICE: log 3) -/
def constChunk (s : State) (g : Group) (ps : List Nat) : List Byte × State :=
  let (o, s) := drawOracle s
  let base := g.disp * 2 ^ 64
  match if o = 0 then (findCore s g.core).bind (fun k => staleCopies 0 k.kc base ps) else none with
  | some (bs, _) => (bs, s)
  | none => (ps.map (rdPlace s), modCore s g.core (fun k => { k with kc := fillCopies s base ps k.kc }))

/-- The constant caches invalidated for a dispatch's constant space (R141). -/
def dropConst (s : State) (disp : Nat) : State :=
  { s with cores := s.cores.map (fun k => if k.kc.isEmpty then k else { k with kc := k.kc.filter (fun e => e.1 / 2 ^ 64 != disp) }) }

def constLoad (g : Group) : List (List Nat) → State → List Byte × State
  | [], s => ([], s)
  | ps :: t, s =>
    let (bs, s) := constChunk s g ps
    let (cs, s) := constLoad g t s
    (bs ++ cs, s)

/-- The number that one lane's load reads, and the time of the read. -/
def performLoad (s : State) (g : Group) (f : Flight) (a : LaneAcc) : Nat × Nat × State :=
  let ps := (List.range f.size).map (a.place + ·)
  match f.op with
  | .load =>
    let own := ps.map (fun p => (p, forwarded g f.seq p))
    let rest := (own.filter (fun e => e.2.isNone)).map (·.1)
    let (bs, n, s) := plainLoad s g.id a.low rest
    (ofLeBytes (own.map (fun e => e.2.getD ((bs[rest.idxOf e.1]?).getD 0))), n, s)
  | .loadc =>
    let (bs, s) := constLoad g (chunksOf ps) s
    (ofLeBytes bs, 0, s)
  | _ =>
    let n := max (max a.low g.floor) (lastWrite s ps)
    (rdNum s ps, n, noteRead (dropCopies s g.core ps) g.id n)

/-- One atomic at its place of execution: the old value (R302). -/
def performAtom (s : State) (gid core place : Nat) (o : AtomOp) (t : AtomTy) (b c : Nat) : Nat × State :=
  let ps := (List.range (atomBytes t)).map (place + ·)
  let old := rdNum s ps
  let s := dropCopies (recallPlaces s ps) core ps
  match atomNew o t old b c with
  | some x => (old, touchRead (wrCoherent s (ps.zip (leBytes (atomBytes t) x))) gid)
  | none => (old, touchRead s gid)

/-- The value of `op` over a prefix of operands (R303). -/
def aggFold (o : AtomOp) (t : AtomTy) (a : Nat) (l : List Nat) : Nat := l.foldl (fun x b => (atomNew o t x b 0).getD x) a

/-- The values returned to the lanes of `atom.agg`: old op the operands of the lanes before (R303). -/
def aggReturns (o : AtomOp) (t : AtomTy) (old : Nat) (b : List (Nat × Nat)) : List (Nat × Nat) :=
  b.mapIdx (fun i e => (e.1, aggFold o t old ((b.take i).map (·.2))))

def lookupD (l : List (Nat × Nat)) (i : Nat) : Nat := ((l.find? (fun e => e.1 == i)).map (·.2)).getD 0

/-- A lane's request answered: unreachable or uncorrectable, else performed. -/
def performLane (s : State) (g : Group) (p : Partition) (f : Flight) (a : LaneAcc) : State :=
  let ps := (List.range f.size).map (a.place + ·)
  let out (h : Flight) : Flight := { h with left := h.left.filter (· != a.lane) }
  if !reachable s p (dieOf g) a.pa then modFlight s g.id f.seq (fun h => { out h with rem := h.rem ++ [a.lane] })
  else if badPlaces s ps then countUncorr (modFlight s g.id f.seq (fun h => { out h with bad := h.bad ++ [a.lane] })) (dieOf g) (memLocs ps)
  else
    let s := correctPlaces (countTraffic s p (dieOf g) a.pa) ps
    let (x, n, s) := match f.op with
      | .atom o t _ b c =>
        let (x, s) := performAtom s g.id g.core a.place o t (lookupD b a.lane) (lookupD c a.lane)
        (x, s.memSeq, s)
      | _ => performLoad s g f a
    modFlight s g.id f.seq (fun h => { out h with got := h.got ++ [(a.lane, x)], times := h.times ++ [(a.lane, n)] })

/-- `atom.agg`: one atomic for all lanes (R303). -/
def performAgg (s : State) (g : Group) (p : Partition) (f : Flight) (o : AtomOp) (t : AtomTy) (b : List (Nat × Nat)) : State :=
  let s := modFlight s g.id f.seq (fun h => { h with left := [] })
  match f.lanes with
  | [] => s
  | a :: _ =>
    let ps := (List.range f.size).map (a.place + ·)
    if !reachable s p (dieOf g) a.pa then modFlight s g.id f.seq (fun h => { h with rem := b.map (·.1) })
    else if badPlaces s ps then countUncorr (modFlight s g.id f.seq (fun h => { h with bad := b.map (·.1) })) (dieOf g) (memLocs ps)
    else
      match b.map (·.2) with
      | [] => s
      | x :: xs =>
        let s := correctPlaces (countTraffic s p (dieOf g) a.pa) ps
        let (old, s) := performAtom s g.id g.core a.place o t (aggFold o t x xs) 0
        modFlight s g.id f.seq (fun h => { h with got := aggReturns o t old b, times := b.map (fun e => (e.1, s.memSeq)) })

/-- The lanes of a flight that come next by R302: of lanes that name a common location the lowest comes first; others are unordered. -/
def nextLanes (f : Flight) : List LaneAcc :=
  (flightLeft f).filter (fun a => !(flightLeft f).any (fun b => decide (b.lane < a.lane) && overlap b.place f.size a.place f.size))

/-- The lanes of a flight that may be performed now: nothing of the group comes first, and no sweep holds them (R65, R312, R313). -/
def freeLanes (s : State) (g : Group) (p : Partition) (f : Flight) : List LaneAcc :=
  (nextLanes f).filter (fun a => !laneBlocked (((dispOf s g).map dispOrd).getD false) g f a && !swept s p a.pa)

/-- One lane of a flight performed, chosen by the schedule among those that may be next; `atom.agg` as a whole (R302, R303). (DESIGN CHOICE: log 3) -/
def performNext (s : State) (g : Group) (p : Partition) (f : Flight) : State :=
  match f.op with
  | .agg o t _ b => performAgg s g p f o t b
  | _ =>
    let l := freeLanes s g p f
    let (o, s) := drawOracle s
    match l[o % max 1 l.length]? with | some a => performLane s g p f a | none => s

/-- Every lane of a flight performed at its place of execution, in increasing order (R137, R302, R303). -/
def performFlight (s : State) (gid seq : Nat) : State :=
  match findGroup s gid with
  | none => s
  | some g =>
    match g.flights.find? (fun f => f.seq == seq), groupPart s g with
    | some f, some p =>
      match f.op with
      | .agg o t _ b => if flightDone f then s else performAgg s g p f o t b
      | _ => (flightLeft f).foldl (fun s a => performLane s ((findGroup s gid).getD g) p f a) s
    | _, _ => s

/-- The value that a load writes: zero- or sign-extended to its registers (R134). -/
def loadExt (f : Flight) (x : Nat) : Nat := if f.signed then wrapI (32 * f.words) (sextN (8 * f.size) x) else x

/-- The access type of R385 of a flight. -/
def flightAcc (f : Flight) : Nat := if isAtomFlight f then 3 else 1

/-- The entry of the pending-load errors of a failed flight (R419). -/
def lateErrOf (f : Flight) (rem : List Nat) : LateErr :=
  let m := if rem != [] then rem else f.bad
  let l := (sortNat m).headD 0
  ⟨f.seq, f.pc, if rem != [] then 15 else 7, 0, maskLanes m, l,
   BitVec.ofNat 64 (((f.lanes.find? (fun a => a.lane == l)).map (·.va)).getD (((f.lanes.head?).map (·.va)).getD 0)), flightAcc f⟩

/-- Pairs in increasing lane order. -/
def byLane (l : List (Nat × Nat)) : List (Nat × Nat) := (List.range 64).filterMap (fun i => l.find? (fun e => e.1 == i))

/-- The values of a flight written to its destination, each with the time of its read (R134, R312). -/
def writeFlight (g : Group) (f : Flight) (o : Opnd) : Group :=
  setTags (writeDst g o f.words ((byLane f.got).map (fun v => (v.1, loadExt f v.2)))) o f.words (byLane f.times)

/-- A performed flight returns: its destination is written in every lane, or its error is recorded (R419); an acquire completes
(R308). -/
def returnFlight (s : State) (gid seq : Nat) (errLanes : DWord) : State :=
  match findGroup s gid with
  | none => s
  | some g =>
    match g.flights.find? (fun f => f.seq == seq) with
    | none => s
    | some f =>
      if !flightDone f then s
      else
        let rem := ((f.lanes.map (·.lane)) ++ f.got.map (·.1) ++ f.rem).eraseDups.filter (fun l => f.rem.contains l || errLanes.getLsbD l)
        let g := { g with flights := g.flights.filter (fun h => h.seq != seq) }
        let g := if rem = [] ∧ f.bad = [] then (match f.dst with | some o => writeFlight g f o | none => g)
          else { g with lateErrs := g.lateErrs ++ [lateErrOf f rem] }
        let s := setGroup s g
        if flightAcq f then invalidateL1 s g.core else s

/-- A store or `red` registered, or refused with an error that the group's state keeps (R139, R310); of several errors before a release the
first address is kept. A store that a passed `fence.rel` waited for has its acknowledgement (R309). (DESIGN CHOICE: log 56) -/
def registerStore (s : State) (gid seq : Nat) (err : Bool) : State :=
  match findGroup s gid with
  | none => s
  | some g =>
    match g.stores.find? (fun w => w.seq == seq), groupPart s g with
    | some w, some p =>
      let s := modGroup s gid (fun g => { g with stores := g.stores.filter (fun u => u.seq != seq) })
      let ps := (List.range w.size).map (w.place + ·)
      let sure := decide (w.seq < g.relFence)
      if (!sure && (err || !reachable s p (dieOf g) w.pa)) || (w.red.isSome && badPlaces s ps) then
        let s := if w.red.isSome && badPlaces s ps then countUncorr s (dieOf g) (memLocs ps) else s
        if g.state = .exit ∨ g.state = .retired then
          notify s (dieOf g) (.group gid) { kind := evStoreErr, acc := 2, asid := ((dispOf s g).map dispAsid).getD 0, daddr := w.va, team := g.teamid, disp := g.disp }
        else modGroup s gid (fun g => { g with storeErr := some (g.storeErr.getD w.va) })
      else
        let s := countTraffic s p (dieOf g) w.pa
        match w.red with
        | none => touchRead (storePlaces s g.core w.bytes) gid
        | some (o, t, b, c) => (performAtom s gid g.core w.place o t b.toNat c.toNat).2
    | _, _ => s

/-! ### Steps of the memory side -/

/-- The homes of a flight chosen again from the current table (R65). -/
def rehome (p : Partition) (f : Flight) : Flight :=
  { f with gen := p.gen, lanes := f.lanes.map (fun a => { a with home := if paKind a.pa = 0 then homeSlice p a.pa else a.home }) }

/-- A group's dispatch is in forerunner ordering mode (R315). -/
def ordMode (s : State) (g : Group) : Bool := ((dispOf s g).map dispOrd).getD false

/-- A lane's access of a flight reaches its slice: redirected, held by a sweep, or performed (R65, R137, R302). -/
def sliceAccess (s : State) (gid seq : Nat) : State :=
  match findGroup s gid with
  | none => s
  | some g =>
    match g.flights.find? (fun f => f.seq == seq && !flightDone f), groupPart s g with
    | some f, some p =>
      if (flightLeft f).any (fun a => moved p a.pa a.home) then countRedirect (modFlight s gid seq (rehome p)) (dieOf g)
      else if (freeLanes s g p f).isEmpty then s
      else performNext s g p f
    | _, _ => s

/-- A store's registration is acknowledged (R310), when no earlier access must come first. -/
def storeAck (s : State) (gid seq : Nat) (err : Bool) : State :=
  match findGroup s gid with
  | none => s
  | some g =>
    match g.stores.find? (fun w => w.seq == seq), groupPart s g with
    | some w, some p =>
      if moved p w.pa w.home then
        countRedirect (modStore s gid seq (fun w => { w with gen := p.gen, home := homeSlice p w.pa })) (dieOf g)
      else if storeBlocked (ordMode s g) g w || swept s p w.pa then s
      else registerStore s gid seq err
    | _, _ => s

/-- The redirects of a group's requests whose homes have moved: each chooses its home again (R65). -/
def redirectAll (s : State) (gid : Nat) : State :=
  match findGroup s gid with
  | none => s
  | some g =>
    match groupPart s g with
    | none => s
    | some p =>
      let s := (g.flights.filter (fun f => (flightLeft f).any (fun a => moved p a.pa a.home))).foldl
        (fun s f => countRedirect (modFlight s gid f.seq (rehome p)) (dieOf g)) s
      let s := (g.stores.filter (fun w => moved p w.pa w.home)).foldl (fun s w =>
        countRedirect (modStore s gid w.seq (fun w => { w with gen := p.gen, home := homeSlice p w.pa })) (dieOf g)) s
      settleSlots s p (g.flights.flatMap (fun f => (flightLeft f).map (·.pa)) ++ g.stores.map (·.pa))

/-- Some accesses of a group performed in program order; loads and atomics then return. Requests are redirected and sweeps waited for first
(R64, R65). -/
def drainSeqs (s : State) (gid : Nat) (seqs : List Nat) : State :=
  match findGroup s gid with
  | none => s
  | some g =>
    if seqs = [] then s
    else
      let s := seqs.foldl (fun s q =>
        if g.flights.any (fun f => f.seq == q) then performFlight s gid q else registerStore s gid q false) (redirectAll s gid)
      (seqs.filter (fun q => g.flights.any (fun f => f.seq == q))).foldl (fun s q => returnFlight s gid q 0) s

/-- Every unperformed access of a group up to a sequence number performed. -/
def drainTo (s : State) (gid n : Nat) : State :=
  match findGroup s gid with
  | none => s
  | some g => drainSeqs s gid ((sortNat (g.flights.map (·.seq) ++ g.stores.map (·.seq))).filter (· ≤ n))

/-- Every earlier access of the group performed and returned (R308, R309). -/
def drainGroup (s : State) (gid : Nat) : State := drainTo s gid s.nextId

/-- What a read that is performed at its issue waits for: the group's earlier accesses, where one of them overlaps it (R313, condition 1). -/
def drainOver (s : State) (gid : Nat) (runs : List (Nat × Nat)) : State :=
  match findGroup s gid with
  | none => s
  | some g =>
    if runsOverlap runs (g.flights.flatMap flightRuns ++ g.stores.map (fun w => (w.place, w.size))) then drainGroup s gid else s

/-- A unit's read at its issue: the group's earlier accesses are performed first, or, where the schedule says so, only those that it meets
(R312, R313). (DESIGN CHOICE: log 3) -/
def readPoint (s : State) (gid : Nat) : State :=
  let (o, s) := drawOracle s
  if o = 0 then drainGroup s gid else s

/-- The stores that the group's reads in flight must follow, and those that these must follow. -/
def storesFirst (fs : List Flight) : List PendStore → List PendStore
  | [] => []
  | w :: ws =>
    let r := storesFirst fs ws
    if fs.any (fun f => storeFirst f (flightRuns f) w) || r.any (fun u => overlap u.place u.size w.place w.size) then w :: r else r

/-- Every earlier read of the group, the reads of atomics among them, performed and returned (R309). -/
def drainReads (s : State) (gid : Nat) : State :=
  match findGroup s gid with
  | none => s
  | some g => drainSeqs s gid (sortNat (g.flights.map (·.seq) ++
      ((storesFirst g.flights g.stores).map (·.seq) ++ (g.stores.filter (fun w => w.red.isSome)).map (·.seq))))

/-- What a write that is performed at its issue waits for (R312, cases 5 and 8): the accesses before a `fence.rel`, and in forerunner ordering
mode every earlier read. -/
def drainForWrite (s : State) (gid : Nat) : State :=
  match findGroup s gid with
  | none => s
  | some g =>
    let s := if pendingBelow g g.relFence then drainTo s gid g.relFence else s
    if ordMode s g then drainReads s gid else s

/-- An acquire that completes at once (R308): the releases before it are performed (R312, case 3), and the L1 of its core loses its unowned
copies. -/
def acquireNow (s : State) (gid : Nat) : State :=
  match findGroup s gid with
  | none => s
  | some g =>
    let n := ((g.flights.filter (·.rel)).map (·.seq) ++ (g.stores.filter (·.rel)).map (·.seq)).foldl max 0
    let s := touchRead (if n = 0 then s else drainTo s gid n) gid
    invalidateL1 (modGroup s gid (fun g => { g with floor := max g.floor g.lastT })) g.core

end Sys2Proof.Machine
end

