-- ==== Sys2Proof/Machine/VaMem.lean ====
section
/-! DEFINITION. Runs of virtual addresses translated page by page, and device units' reads and writes through them. -/
namespace Sys2Proof.Machine

/-- Translated 64 KiB pages: a page's number and the physical address of its first byte. -/
abbrev PageTab := List (Nat × Nat)

/-- Some pages translated in order, or the first address that failed with what it met. -/
def xlatePages (s : State) (x : XCtx) (a : Acc) : List Nat → PageTab → State × Except (Nat × Xl) PageTab
  | [], t => (s, .ok t)
  | va :: vs, t =>
    match translate s x va a with
    | (s, .ok pa) => xlatePages s x a vs (t ++ [(va / 65536, pa - va % 65536)])
    | (s, r) => (s, .error (va, r))

/-- The physical address of a byte of a translated page. -/
def paVia (t : PageTab) (va : Nat) : Nat := (((t.find? (fun e => e.1 == va / 65536)).map (·.2)).getD 0) + va % 65536

/-- The places of a run of translated bytes. -/
def placesVia (p : Partition) (t : PageTab) (va n : Nat) : List Nat := (List.range n).map (fun i => placeOf p (paVia t (va + i)))

/-- The pages of a run translated. -/
def xlateRun (s : State) (x : XCtx) (a : Acc) (va n : Nat) : State × Except (Nat × Xl) PageTab := xlatePages s x a (pagesOf va n) []

/-- The physical addresses of a run of translated bytes, one for each 256-byte block. -/
def blocksVia (t : PageTab) (va n : Nat) : List Nat :=
  if n = 0 then [] else (List.range ((va + n - 1) / 256 + 1 - va / 256)).map (fun i => paVia t (max va ((va / 256 + i) * 256)))

/-- A block of a run that no usable path reaches (R54). -/
def unreachable (s : State) (p : Partition) (die : Nat) (t : PageTab) (va n : Nat) : Bool :=
  (blocksVia t va n).any (fun pa => !reachable s p die pa)

/-- A run that no usable path reaches, or that receives an error reply (R54, R137, R410). -/
def runLost (s : State) (p : Partition) (die : Nat) (t : PageTab) (va n : Nat) : Bool × State :=
  if unreachable s p die t va n then (true, s) else errorReply s (blocksVia t va n)

/-- A device unit's read of a run of virtual addresses; nothing where a page fails, a die is not reached (R54), or a word is uncorrectable
(R397). -/
def rdVa (s : State) (x : XCtx) (va n : Nat) : State × Option (List Byte) :=
  match findPart s x.part, xlateRun s x .read va n with
  | some p, (s, .ok t) =>
    let ps := placesVia p t va n
    let s := settleSlots s p (blocksVia t va n)
    let (lost, s) := runLost s p x.die t va n
    if lost then (s, none)
    else
      let s := countBlocks s p x.die (blocksVia t va n)
      if badPlaces s ps then (countUncorr s x.die (memLocs ps), none) else (correctPlaces s ps, some (ps.map (rdPlace s)))
  | _, (s, _) => (s, none)

/-- A run of addresses meets a mapping under migration, as a walk of its pages finds it: what a device unit does there waits and walks again
(R89). (DEDUCED: log 46) -/
def vaMigs (s : State) (x : XCtx) (a : Acc) (va n : Nat) : Bool :=
  match (xlateRun { s with tlb := [] } x a va n).2 with | .error (_, .mig) => true | _ => false

def rdVaNum (s : State) (x : XCtx) (va n : Nat) : Option Nat := (rdVa s x va n).2.map ofLeBytes

/-- A device unit's write of a run of virtual addresses at the point of coherence; nothing where a page fails or a die is not reached (R54). -/
def wrVa (s : State) (x : XCtx) (va : Nat) (bs : List Byte) : Option State :=
  match findPart s x.part, xlateRun s x .write va bs.length with
  | some p, (s, .ok t) =>
    let (lost, s) := runLost s p x.die t va bs.length
    if lost then none
    else some (wrCoherent (settleSlots (countBlocks s p x.die (blocksVia t va bs.length)) p (blocksVia t va bs.length)) ((placesVia p t va bs.length).zip bs))
  | _, _ => none

/-- A device unit's atomic update of a run of virtual addresses; nothing where a page fails, a die is not reached (R54) or a word is
uncorrectable (R397). -/
def updVa (s : State) (x : XCtx) (va n : Nat) (f : List Byte → List Byte) : Option State :=
  match findPart s x.part, xlateRun s x .write va n with
  | some p, (s, .ok t) =>
    let ps := placesVia p t va n
    let s := settleSlots s p (blocksVia t va n)
    let (lost, s) := runLost s p x.die t va n
    if lost || badPlaces s ps then none
    else some (wrCoherent (correctPlaces (countBlocks s p x.die (blocksVia t va n)) ps) (ps.zip (f (ps.map (rdPlace s)))))
  | _, _ => none

/-- Every page of a run of addresses lies inside a lease range of the dispatch, or it has none (R82). -/
def inLease (d : Dispatch) (va n : Nat) : Bool :=
  let ls := dispLeases d
  ls.isEmpty || (pagesOf va n).all (fun a => ls.any (fun r =>
    decide (va57 r.1 ≤ a - a % 65536) && decide (a - a % 65536 + 65536 ≤ va57 r.1 + r.2)))

/-- The dispatch runs in the lease regime (R82). -/
def leased (d : Dispatch) : Bool := !(dispLeases d).isEmpty

end Sys2Proof.Machine
end

