-- ==== Sys2Proof/Machine/Life.lean ====
section
/-! DEFINITION. The life of a group (R334): chains given up (R35), parking, faults of the replayable regime (R81), and its end. -/
namespace Sys2Proof.Machine

/-- Lanes that wait at a convergent instruction (R201): parked without a nap. -/
def convParked (g : Group) (l : Nat) : Bool := g.parked.getLsbD l && !(g.naps.any (fun n => n.1 == l))

/-- Lanes that wait at a convergent instruction count as parked no more. -/
def dropConv (g : Group) : Group := { g with parked := g.parked &&& ~~~ maskLanes ((lanesOf g).filter (convParked g)) }

/-- A group stands in its core's line for register blocks (R130). -/
def inGrowers (s : State) (g : Group) : Bool := ((findCore s g.core).map (fun k => k.growers.contains g.id)).getD false

/-- A group leaves its core's line of parked `rgrow`s (R130). -/
def leaveGrowers (s : State) (g : Group) : State := modCore s g.core (fun k => { k with growers := k.growers.filter (· != g.id) })

/-- Where an involuntary switch leaves a group: latches discarded, the lanes that the chain's head served back at the head, and no
chain in progress (R35). -/
def restartChain (g : Group) : Group :=
  match g.chain with
  | none => g
  | some c =>
    { g with chain := none, lat := [], latw := [],
             pcv := g.pcv.mapIdx (fun l a => if c.lanes.getLsbD l && a != exitPc then c.head else a) }

/-- A fetch fault on a later member of a chain is an involuntary switch (R35): it clears deferral (R190). -/
def switchChain (g : Group) : Group := if g.chain.isSome then { restartChain g with deferred := 0 } else g

/-- The group as a whole parks, from RUN or HANDLER (R334). -/
def parkGroup (g : Group) (w : Wait) : Group :=
  { g with state := .park, before := if g.state = .park ∨ g.state = .fault then g.before else g.state, wait := w, keeps := false, parkInfo := none }

/-- The group leaves PARK or FAULT for the state it was taken from. -/
def unparkGroup (g : Group) : Group :=
  if g.state = .park ∨ g.state = .fault then { g with state := g.before, wait := .none, parkInfo := none } else g

/-- A fault of the replayable regime (R81): a record to the fault queue and a tag, the group in FAULT; a chain in progress is restarted, so that
the retry executes it from its head (R35). -/
def raiseFault (s : State) (gid : Nat) (taddr : DWord) (asid : Nat) (va : DWord) (cause acc : Nat) (mask : List Nat) (what : Nat) :
    State :=
  match findGroup s gid with
  | none => s
  | some g =>
    let tag := s.nextTag
    let w : FaultWait := ⟨tag, some gid, none, g.disp, asid, va, cause, acc, maskLanes mask, mask.headD 0, what, taddr⟩
    let r : RecF := { kind := 5, cause := cause, lane := mask.headD 0, acc := acc, asid := asid, mask := maskLanes mask,
                      taddr := taddr, raddr := match g.chain with | some c => c.head | none => taddr,
                      daddr := va, extra := BitVec.ofNat 64 tag, team := g.teamid, disp := g.disp }
    let g' := { parkGroup (restartChain g) (.fault tag) with state := .fault }
    postRec { setGroup s g' with faults := s.faults ++ [w], nextTag := tag + 1 } .sysfq (dieOf g) (.group gid) (recWords r s.clk)

/-- The address space of a group's accesses. -/
def groupAsid (s : State) (g : Group) : Nat := ((dispOf s g).map dispAsid).getD 0

/-- The posted record of a late error that no instruction reported (R419, R347); TIDX of a task in word 2. -/
def loadErrRec (g : Group) (asid : Nat) (e : LateErr) : RecF :=
  { kind := evLoadErr, lane := e.lane, acc := e.acc, asid := asid, mask := e.mask, daddr := e.daddr, extra := e.addr, taddr := e.addr,
    raddr := (g.task.map (·.tidx)).getD 0, team := g.teamid, disp := g.disp }

/-- The posted record of a store error that no release reported (R139, R347); TIDX of a task in EXTRA. -/
def storeErrRec (g : Group) (asid : Nat) (a : DWord) : RecF :=
  { kind := evStoreErr, acc := 2, asid := asid, daddr := a, extra := (g.task.map (·.tidx)).getD 0, team := g.teamid, disp := g.disp }

/-- Errors that the group still holds are posted as it ends (R139, R419). -/
def postErrors (s : State) (gid : Nat) : State :=
  match findGroup s gid with
  | none => s
  | some g =>
    let s := match g.storeErr with | some a => notify s (dieOf g) (.group gid) (storeErrRec g (groupAsid s g) a) | none => s
    let s := g.lateErrs.foldl (fun s e => notify s (dieOf g) (.group gid) (loadErrRec g (groupAsid s g) e)) s
    modGroup s gid (fun g => { g with storeErr := none, lateErrs := [] })

/-- The tape that a recording group conducts is freed as the group exits, and the tape that it plays is READY again (R362, R373). (DEDUCED: log 45) -/
def endTapes (s : State) (u : TapeUse) : State :=
  let upd (s : State) (f : List Tape → List Tape) : State := { s with dies := s.dies.map (fun d => { d with tapes := f d.tapes }) }
  let free (s : State) (h : Nat) : State := upd s (fun l => l.filter (fun t => t.handle != h))
  match u with
  | .none => s
  | .recording h => free s h
  | .playing h _ _ was =>
    let s := upd s (fun l => l.map (fun t => if t.handle = h then { t with state := .ready } else t))
    match was with | some h => free s h | none => s

/-- Every lane's pcv all ones, the group in EXIT (R189, R334); its accesses are performed, its errors posted, its registers freed
(R125); a recording that it conducts is freed (R362). -/
def exitGroup (s : State) (gid : Nat) : State :=
  let s := postErrors (drainGroup s gid) gid
  match findGroup s gid with
  | none => s
  | some g =>
    let s := endTapes s g.tape
    setGroup s { g with pcv := g.pcv.map (fun _ => exitPc), state := .exit, v := [], blocks := [], chain := none, parked := 0, deferred := 0,
                        naps := [], wait := .none, parkInfo := none, task := none, tape := .none, stamp := none }

/-- A worker's task is over and the worker waits for the next record (R346, R347). -/
def workerWaits (s : State) (gid : Nat) : State :=
  modGroup s gid (fun g =>
    { parkGroup { restartChain g with state := .run } .task with task := none, parked := 0, deferred := 0, naps := [], shadow := none })

/-- LEASE or WDOG ends the task, or the group of a grid dispatch (R82, R350): accesses in flight complete, a notification is posted, no
release and no successor update is made. -/
def endWith (s : State) (gid kind : Nat) (taddr : DWord) (asid acc : Nat) (mask : List Nat) (daddr : DWord) : State :=
  let s := drainGroup s gid
  match findGroup s gid with
  | none => s
  | some g =>
    let r : RecF := { kind := kind, lane := mask.headD 0, acc := acc, asid := asid, taddr := taddr, raddr := taddr, mask := maskLanes mask,
                      daddr := daddr, extra := (g.task.map (·.tidx)).getD 0, team := g.teamid, disp := g.disp }
    let s := notify { s with faults := s.faults.filter (fun w => w.grp != some gid) } (dieOf g) (.group gid) r
    let s := match g.tape with
      | .playing h i l was =>
        modGroup (endTapes s (.playing h i l none)) gid (fun g => { g with tape := match was with | some r => .recording r | none => .none })
      | _ => s
    let s := leaveGrowers (modGroup s gid (fun g => { g with mmaT := none, rq := none, stamp := none })) g
    match g.task with
    | some _ => workerWaits (postErrors s gid) gid
    | none => exitGroup s gid

end Sys2Proof.Machine
end

