-- ==== Sys2Proof/Machine/Worker.lean ====
section
/-! DEFINITION. Task queues, records, successor blocks, coalescing nodes, and the end of a task (R342 to R358). -/
namespace Sys2Proof.Machine

/-- TASKQ (R320), as the 57-bit value. -/
def taskqVa (d : Dispatch) : Nat := va57 (recNum d 88 8)

/-- The queue descriptor as memory holds it (R342). -/
def readQueue (s : State) (d : Dispatch) (die : Nat) : State × Option (List Byte) := rdVa s (ctxOf d die) (taskqVa d) 256

def qNum (q : List Byte) (i n : Nat) : Nat := ofLeBytes ((q.drop i).take n)
def qRing (q : List Byte) : Nat := va57 (qNum q 0 8)
def qCount (q : List Byte) : Nat := 2 ^ qNum q 8 1
def qHead (q : List Byte) : Nat := qNum q 16 8
def qTail (q : List Byte) : Nat := qNum q 24 8
/-- Records in the ring (R342): TAIL − HEAD, and none where HEAD lies above TAIL, which R379's last case has. (DEDUCED: log 51) -/
def qUsed (q : List Byte) : Nat := qTail q - qHead q
def nodeOff (k : Nat) : Nat := 32 * k
def nodeBuf (q : List Byte) (k : Nat) : Nat := va57 (qNum q (nodeOff k) 8)
def nodeThresh (q : List Byte) (k : Nat) : Nat := qNum q (nodeOff k + 8) 1
def nodeF (q : List Byte) (k : Nat) : Nat := let l := qNum q (nodeOff k + 9) 1; 2 ^ (if l = 0 then 14 else l)
def nodeProd (q : List Byte) (k : Nat) : Nat := qNum q (nodeOff k + 12) 4
def nodeHeld (q : List Byte) (k : Nat) : Nat := qNum q (nodeOff k + 16) 4

/-- Fields of a task record (R344). -/
def recTpri (r : List Byte) : Nat := fldN (qNum r 0 8) 60 4
def recCkey (r : List Byte) : Nat := fldN (qNum r 0 8) 0 3
/-- The entry PC, sign-extended from bit 56. -/
def recEntry (r : List Byte) : DWord := BitVec.ofInt 64 (sextN 57 (fldN (qNum r 0 8) 3 54 * 8))
def recSucc (r : List Byte) : Nat := qNum r 24 8
def recTidx (r : List Byte) : Nat := qNum r 32 8

/-- A malformed record (R344). -/
def malformedRec (d : Dispatch) (q r : List Byte) : Bool :=
  let e := qNum r 0 8
  fldN e 58 2 != recByte d 20 || e.testBit 57 || (recCkey r != 0 && nodeThresh q (recCkey r) == 0) || recSucc r % 128 != 0
    || decide (2 ^ 58 ≤ recTidx r)

/-- Records written at consecutive indices of the ring, then TAIL moved over them in one update (R343, R354); none where the ring has
no room or a page fails. -/
def appendRing (s : State) (d : Dispatch) (die : Nat) (rs : List (List Byte)) : Option (Nat × State) :=
  match readQueue s d die with
  | (s, some q) =>
    if qCount q < qUsed q + rs.length then none
    else
      let put (a : Option State) (e : Nat × List Byte) : Option State :=
        a.bind (fun s => wrVa s (ctxOf d die) (qRing q + 64 * ((qTail q + e.1) % qCount q)) e.2)
      (((rs.mapIdx (fun i r => (i, r))).foldl put (some s)).bind
        (fun s => wrVa s (ctxOf d die) (taskqVa d + 24) (leBytes 8 (qTail q + rs.length)))).map (fun s => (qTail q, s))
  | _ => none

def modNode (s : State) (disp k : Nat) (f : NodeSt → NodeSt) : State :=
  modDisp s disp (fun d =>
    let ns := if d.nodes.any (fun n => n.node == k) then d.nodes else d.nodes ++ [⟨k, none, []⟩]
    { d with nodes := ns.map (fun n => if n.node = k then f n else n) })

/-- HELD of a node written (R355). -/
def setHeld (s : State) (d : Dispatch) (die k n : Nat) : State :=
  (wrVa s (ctxOf d die) (taskqVa d + nodeOff k + 16) (leBytes 4 n)).getD s

/-- Records of a node that are in release: the batches that wait for room in the ring. HELD counts them until they are appended (R356). -/
def inRelease (d : Dispatch) (k : Nat) : Nat :=
  match d.nodes.find? (fun n => n.node == k) with | some n => (n.batches.map List.length).sum | none => 0

/-- A batch appended to the ring, and HELD less by its records (R356). -/
def pushBatch (s : State) (disp die k : Nat) (b : List (List Byte)) : Option State :=
  match findDisp s disp with
  | none => none
  | some d =>
    match appendRing s d die b with
    | none => none
    | some (_, s) => match readQueue s d die with | (s, some q) => some (setHeld s d die k (nodeHeld q k - b.length)) | (s, none) => some s

/-- Batches in release appended in order while the ring has room, each with one TAIL update, after which HELD counts it no more (R356).
(DEDUCED: log 32) -/
def pushBatches (s : State) (disp die k : Nat) : List (List (List Byte)) → State
  | [] => modNode s disp k (fun n => { n with batches := [] })
  | b :: bs =>
    match pushBatch s disp die k b with
    | some s => pushBatches s disp die k bs
    | none => modNode s disp k (fun n => { n with batches := b :: bs })

/-- What appends some records to the ring, or to a node other than 0, meets a mapping under migration (R89). -/
def appendMigs (s : State) (d : Dispatch) (die k n : Nat) : Bool :=
  let x := ctxOf d die
  vaMigs s x .write (taskqVa d) 256
    || (match readQueue s d die with
       | (s, some q) =>
         if k = 0 then (List.range n).any (fun i => vaMigs s x .write (qRing q + 64 * ((qTail q + i) % qCount q)) 64)
         else vaMigs s x .write (nodeBuf q k) (64 * (nodeHeld q k - inRelease d k + n))
       | _ => false)

/-- The batches of a node that are in release, tried again (R356). (DEDUCED: log 32) -/
def releaseNode (s : State) (disp die k : Nat) : State :=
  match (findDisp s disp).bind (fun d => d.nodes.find? (fun n => n.node == k)) with
  | some n =>
    if n.batches = [] || ((findDisp s disp).map (fun d => appendMigs s d die 0 (n.batches.headD []).length)).getD false then s
    else pushBatches s disp die k n.batches
  | none => s

/-- A node releases what it holds (R356): the records of the current batch leave its buffer in the order in which they arrived; records that
arrive while the release waits for room start the next batch. (DEDUCED: log 32) -/
def startRelease (s : State) (disp die k : Nat) : State :=
  match findDisp s disp with
  | none => s
  | some d =>
    match readQueue s d die with
    | (s, some q) =>
      let n := nodeHeld q k - inRelease d k
      match rdVa s (ctxOf d die) (nodeBuf q k) (64 * n) with
      | (s, some bs) =>
        if n = 0 then s
        else
          let rs := (List.range n).map (fun i => (bs.drop (64 * i)).take 64)
          releaseNode (modNode s disp k (fun n => { n with since := none, batches := n.batches ++ [rs] })) disp die k
      | (s, none) => s
    | (s, none) => s

/-- A record appended to a node (R354, R355): at THRESH the node releases. -/
def appendNode (s : State) (disp die k : Nat) (r : List Byte) : State :=
  match findDisp s disp with
  | none => s
  | some d =>
    match readQueue s d die with
    | (s, some q) =>
      let h := nodeHeld q k - inRelease d k
      match (wrVa s (ctxOf d die) (nodeBuf q k + 64 * h) r).bind
          (fun s => wrVa s (ctxOf d die) (taskqVa d + nodeOff k + 16) (leBytes 4 (nodeHeld q k + 1))) with
      | none => s
      | some s =>
        let s := if h = 0 then modNode s disp k (fun n => { n with since := some s.clk }) else s
        if nodeThresh q k ≤ h + 1 then startRelease s disp die k else s
    | (s, none) => s

/-- The outcome of a successor update (R348): over, with a record to append where COUNT reached zero, or the worker held. -/
inductive SuccRes where
  | over (s : State) (r : List Byte)
  | held (s : State)

/-- One atomic decrement of COUNT at the block's place of execution (R348). -/
def successorUpdate (s : State) (g : Group) (t : TaskCtx) (d : Dispatch) : SuccRes :=
  let fail (s : State) (k : Nat) : SuccRes :=
    .over (notify s (dieOf g) (.group g.id) { kind := k, taddr := 0, daddr := t.succ, extra := t.tidx, team := g.teamid, disp := g.disp }) []
  let va := va57 t.succ.toNat
  if !canonical t.succ.toNat || !inLease d va 128 then fail s evSuccErr
  else
    match translate s (ctxOn d g.core) va .write, dispPart s d with
    | (s, .fault c), _ =>
      if leased d then fail s evSuccErr
      else .held (raiseFault s g.id ((issueAddr g).getD 0) (dispAsid d) t.succ c 3 (lanesOf g) 1)
    | (s, .mig), _ => .held (modGroup s g.id (fun g => parkGroup g (.succMig (dispAsid d))))
    | (s, .rem), _ => fail s evSuccErr
    | (s, _), none => fail s evSuccErr
    | (s, .ok pa), some p =>
      let ps := placesOf p pa 128
      let (lost, s) := errorReply (sampleAccess s (dieOf g) ⟨va, logicalCore s p g.core, 2, dispAsid d⟩) [pa]
      if paKind pa = 1 || !reachable s p (dieOf g) pa || lost then fail s evSuccErr
      else if badPlaces s ps then fail (countUncorr s (dieOf g) (memLocs ps)) evSuccErr
      else
        let s := correctPlaces s ps
        let n := rdPaNum s p pa 4
        if n = 0 then fail s evBadSucc
        else
          let s := wrPa s p pa (leBytes 4 (n - 1))
          if n != 1 then .over s []
          else
            let s := invalidateL1 s g.core
            let r := rdPa s p (pa + 64) 64
            match readQueue s d (dieOf g) with
            | (s, some q) => if malformedRec d q r then fail s evBadTask else .over s r
            | (s, none) => fail s evSuccErr

/-- The task is done: its record of the successor, if any, is appended, the worker waiting where the ring has no room; then the worker
waits for the next record (R347, R348). The group's earlier accesses have been performed. -/
def endTask (s : State) (gid : Nat) : State :=
  match findGroup s gid with
  | none => s
  | some g =>
    match g.task, dispOf s g with
    | some t, some d =>
      let put (s : State) (r : List Byte) : State :=
        let idle (s : State) : State := workerWaits s gid
        if r = [] then idle s
        else if appendMigs s d (dieOf g) (recCkey r) 1 then
          modGroup s gid (fun g => { parkGroup g (.succMig (dispAsid d)) with task := some { t with succ := 0, pend := r } })
        else if recCkey r != 0 then idle (appendNode s g.disp (dieOf g) (recCkey r) r)
        else
          match appendRing s d (dieOf g) [r] with
          | some (_, s) => idle s
          | none => modGroup s gid (fun g => { parkGroup g .ring with task := some { t with succ := 0, pend := r } })
      if t.pend != [] then put s t.pend
      else if t.succ = 0 then put s []
      else
        match successorUpdate s g t d with
        | .over s r => put s r
        | .held s => s
    | _, _ => s

/-- Every lane of a worker has reached the all-ones PC during a task (R347): with a recorded error the task fails, and otherwise it ends
as at `task.end`. -/
def endTaskByExit (s : State) (gid : Nat) : State :=
  let s := drainGroup s gid
  match findGroup s gid with
  | none => s
  | some g =>
    if g.storeErr.isSome || g.lateErrs != [] then
      workerWaits (postErrors s gid) gid
    else endTask s gid

/-- The group ends when all of its lanes have exited (R189, R347). -/
def exitIfDone (s : State) (gid : Nat) : State :=
  match findGroup s gid with
  | some g =>
    if (g.state = .run ∨ g.state = .handler) ∧ (lanesOf g).all (laneExited g) then
      (if g.task.isSome then endTaskByExit s gid else exitGroup s gid)
    else s
  | none => s

end Sys2Proof.Machine
end

