-- ==== Sys2Proof/Machine/Ops.lean ====
section
/-! DEFINITION. The shared operations of issue: what an instruction's body answers, taking an exception (R388), returning from
one (R389), parking, the end of a group, and the frame around every instruction (R14, R30 to R35, R42 to R44, R187). -/
namespace Sys2Proof.Machine

/-- An instruction at issue: the group, its issue address, the lanes served there, the active lanes, the instruction. -/
structure Issue where
  g : Group
  pc : DWord
  served : List Nat
  act : List Nat
  i : Instr
  deriving DecidableEq, Repr

/-- What a trap reports beyond the group (R385). -/
structure TrapInfo where
  kind : Nat
  cause : Nat := 0
  mask : List Nat
  daddr : DWord := 0
  extra : DWord := 0
  acc : Nat := 0
  asid : Nat := 0
  half : Bool := false
  /-- the group's resumption address is the next instruction (R193) -/
  nextPc : Bool := false
  /-- the reported lane where it is not the lowest of the mask (R419) -/
  lane : Option Nat := none
  deriving DecidableEq, Repr

/-- The trap kinds of R383. -/
def kILLOP : Nat := 1
def kREGRANGE : Nat := 2
def kSEG : Nat := 3
def kALIGN : Nat := 4
def kXLATE : Nat := 5
def kLEASE : Nat := 6
def kMEMERR : Nat := 7
def kATUNSUP : Nat := 8
def kFPX : Nat := 9
def kSWTRAP : Nat := 10
def kBRK : Nat := 11
def kWDOG : Nat := 12
def kRQERR : Nat := 13
def kBARERR : Nat := 14
def kREMERR : Nat := 15

/-- What an instruction's body answers. Every state it carries holds the group as the body left it. -/
inductive IRes where
  /-- completed: every lane served moves on; latch results by active lane -/
  | done (s : State) (lat : List (Nat × Nat))
  /-- completed with the pcv of its active lanes set -/
  | jump (s : State) (dest : List (Nat × DWord))
  /-- a precise trap -/
  | trap (s : State) (t : TrapInfo)
  /-- the group parks; the instruction executes again when it is released -/
  | park (s : State) (w : Wait)
  /-- the group parks; the instruction completes at the release -/
  | parkDone (s : State) (w : Wait)
  /-- a replayable fault (R81): address space, address, cause, access type, lanes -/
  | replay (s : State) (asid : Nat) (va : DWord) (cause acc : Nat) (mask : List Nat)
  /-- the body has disposed of the group itself -/
  | gone (s : State)

/-- A body's answer is a trap. -/
def IRes.trapped (r : IRes) : Bool := match r with | .trap _ _ => true | _ => false

/-- The length of the instruction of an issue. -/
def Issue.next (x : Issue) : DWord := x.pc + BitVec.ofNat 64 (instrLen x.i)

/-- The lowest-indexed active lane (R109). -/
def Issue.lead (x : Issue) : Nat := x.act.headD 0

/-! ### Taking an exception (R383 to R388) -/

/-- The kind is delivered to a user handler (R383). -/
def userKind (t : TrapInfo) : Bool :=
  !(t.kind == kBRK || t.kind == kLEASE || t.kind == kWDOG || (t.kind == kILLOP && t.cause == 0x0C))

/-- The kinds whose record carries a data address (R385). -/
def hasDaddr (k : Nat) : Bool := [kSEG, kALIGN, kXLATE, kLEASE, kMEMERR, kATUNSUP, kREMERR].contains k

/-- RADDR of a trap (R385): the next instruction for SWTRAP and BRK, else the chain's head, else the instruction. (DEDUCED: log 15) -/
def trapRaddr (g : Group) (pc next : DWord) (t : TrapInfo) : DWord :=
  if t.nextPc then next else match g.chain with | some c => c.head | none => pc

/-- The record of a trap (R385). -/
def trapRecord (g : Group) (pc next : DWord) (t : TrapInfo) (user nested : Bool) : RecF :=
  { kind := t.kind, cause := t.cause, lane := t.lane.getD (t.mask.headD 0), half := t.half, nested := nested, user := user,
    acc := t.acc, asid := t.asid, taddr := pc, raddr := trapRaddr g pc next t, mask := maskLanes t.mask,
    daddr := if hasDaddr t.kind then t.daddr else 0, extra := t.extra, team := g.teamid, disp := g.disp }

/-- The uncorrectable words that a MEMERR of a register or an accumulator element met (R397); those of memory are noted where they are read. -/
def trapLocs (s : State) (g : Group) (t : TrapInfo) : List ArrayLoc :=
  s.badWords.filter (fun b => match b with | .acc c _ _ => t.cause == 2 && c == g.core | .reg k _ _ => t.cause == 3 && k == g.id | _ => false)

/-- Taking a precise trap (R388): into the user handler, or into HELD with the record posted (R383). The saved registers are the
shadow and TREC; the pc of every lane that has not exited becomes HANDLER, its low three bits zero (R10). A group that is HELD has its deferral
cleared (R190), and lanes that waited at a convergent instruction are live again. (DEDUCED: log 15; DEDUCED: log 17) -/
def takeTrap (s : State) (gid : Nat) (pc next : DWord) (t : TrapInfo) : State :=
  match findGroup s gid with
  | none => s
  | some g =>
    let handler := ((dispOf s g).map dispHandler).getD 0
    let nested := g.state == .handler
    let user := userKind t && handler != 0 && !nested
    let r := trapRecord g pc next t user nested
    let ws := recWords r s.clk
    let g' := { dropConv (restartChain g) with trec := ws, lat := [], latw := [], wait := .none, stamp := none, rq := none }
    let s := if t.kind == 7 && t.cause != 1 && t.lane.isNone then countUncorr s (dieOf g) (trapLocs s g t) else s
    if user then
      let sh : Shadow := ⟨g'.pcv.mapIdx (fun l a => if a != exitPc && t.mask.contains l then r.raddr else a), g'.preds, g'.deferred, s.nextId⟩
      let g' := { g' with shadow := some sh, state := .handler, deferred := 0,
                          pcv := g'.pcv.map (fun a => if a = exitPc then a else BitVec.ofNat 64 (handler - handler % 8)) }
      let s := setGroup s g'
      if t.kind == kMEMERR then postRec s .sysnq (dieOf g) (.group gid) ws else s
    else
      let g' := { g' with state := .held, deferred := 0, before := if nested then .handler else .run,
                          pcv := g'.pcv.mapIdx (fun l a => if a != exitPc && t.mask.contains l then r.raddr else a) }
      postRec (setGroup s g') .sysnq (dieOf g) (.group gid) ws

/-- Returning from an exception (R389): pcv, predicates and deferral from the shadow; with SKIP, the lanes of MASK resume after
the instruction at TADDR, whose length is given. -/
def returnFromTrap (g : Group) (skip : Bool) (len : Nat) : Group :=
  match g.shadow with
  | none => g
  | some sh =>
    let mask := g.trec[3]?.getD 0
    let taddr := g.trec[1]?.getD 0
    let pcs := sh.pcv.mapIdx (fun l a =>
      if laneExited g l then exitPc else if skip && mask.getLsbD l then taddr + BitVec.ofNat 64 len else a)
    { g with pcv := pcs, preds := sh.preds, deferred := sh.deferred, shadow := none, state := .run }

/-! ### The frame around an instruction -/

/-- The next member of a chain after one completes, or its end (R31 to R34). -/
def advanceChain (g : Group) (x : Issue) : Option Chain :=
  if instrHold x.i then
    let c := g.chain.getD ⟨x.pc, maskLanes x.served, maskLanes ((lanesOf x.g).filter (laneLive x.g)), 0, [], []⟩
    some { c with pos := c.pos + 1, widths := (producerWidth x.i).toList ++ c.widths, reads := c.reads ++ (regUse x.i).reads }
  else none

/-- Instructions that give a register a value from another lane's. -/
def crossLane (i : Instr) : Bool :=
  match i with
  | .shfl _ | .vote _ | .matchLanes _ | .elect _ | .lred _ | .lscan _ | .awrite _ | .aread _ => true
  | _ => false

/-- Instructions that read memory and write a register as they issue: their values come from the group's latest reads. -/
def readsNow (i : Instr) : Bool :=
  match i with
  | .barTest _ | .droAdd _ | .droGet _ | .rqRun _ | .rcq _ | .rct _ => true
  | _ => false

/-- Instructions that set the times of their results themselves. -/
def tagsOwn (i : Instr) : Bool :=
  match i with
  | .ldL _ | .ldLp _ | .ldG _ | .ldC _ | .ldx _ | .ldAcq _ | .atom _ | .atomAgg _ => true
  | _ => false

/-- The key of a register number of `regUse` in a lane: a v register, a k register, or a predicate. -/
def regTag (l r : Nat) : Nat := if r < 256 then l * 256 + r else if r < 512 then 2 ^ 16 + (r - 256) else 2 ^ 18 + 8 * l + (r - 512)

/-- The time of the reads that an instruction's results come from in a lane: its registers and latches (R312, cases 6 and 7). (DESIGN CHOICE: log 55) -/
def srcTag (g : Group) (x : Issue) (l : Nat) : Nat :=
  let r := (regUse x.i).reads.foldl (fun m r => max m (Sparse.get 0 g.tags (regTag l r))) 0
  (latchUse x.i).foldl (fun m b => max m (Sparse.get 0 g.tags (latTag l b.1))) r

/-- The results of an instruction take the times of what they are computed from (R312). (DESIGN CHOICE: log 55) -/
def tagResults (g : Group) (x : Issue) : Group :=
  if tagsOwn x.i || (g.tags == [] && !readsNow x.i) then g
  else
    let own (l : Nat) : Nat := srcTag x.g x l
    let all := x.act.foldl (fun m l => max m (own l)) (if readsNow x.i then g.lastT else 0)
    let n (l : Nat) : Nat := if crossLane x.i || readsNow x.i then all else own l
    { g with tags := x.act.foldl (fun t l => (regUse x.i).writes.foldl (fun t r =>
        Sparse.put 0 t (regTag l r) (if 256 ≤ r ∧ r < 512 then (if crossLane x.i || readsNow x.i then all else own x.lead) else n l)) t) g.tags }

/-- The latches of a lane shift with the times of their values. -/
def pushLatTag (g : Group) (x : Issue) (l : Nat) : Group :=
  if x.g.tags == [] then g
  else
    let b (j : Nat) : Nat := Sparse.get 0 x.g.tags (latTag l j)
    { g with tags := [(3, b 2), (2, b 1), (1, b 0), (0, srcTag x.g x l)].foldl (fun t e => Sparse.put 0 t (latTag l e.1) e.2) g.tags }

/-- Latch results shifted in (R30). -/
def pushLatches (g : Group) (w : Nat) (vals : List (Nat × Nat)) : Group :=
  vals.foldl (fun g (l, x) =>
    let b (j : Nat) : DWord := Sparse.get 0 g.lat (4 * l + j)
    let bw (j : Nat) : Nat := Sparse.get 0 g.latw (4 * l + j)
    let put (g : Group) (j : Nat) (y : DWord) (w : Nat) : Group :=
      { g with lat := Sparse.put 0 g.lat (4 * l + j) y, latw := Sparse.put 0 g.latw (4 * l + j) w }
    put (put (put (put g 3 (b 2) (bw 2)) 2 (b 1) (bw 1)) 1 (b 0) (bw 0)) 0 (BitVec.ofNat 64 (x % 2 ^ w)) w) g

/-- The lanes served move on: an active lane to the target its instruction set, every other to the next instruction (R187). -/
def movePcv (g : Group) (x : Issue) (dest : List (Nat × DWord)) : Group :=
  { g with pcv := g.pcv.mapIdx (fun l a =>
      if x.served.contains l then (match dest.find? (fun p => p.1 == l) with | some (_, t) => t | none => x.next) else a) }

/-- The groups among which the convergence register of an `mma.t` divides its rows (R222). -/
def mmaMembers (s : State) (g : Group) (i : Instr) : Nat :=
  match i with
  | .mmaT y => (bitsOf 32 ((((teamOf s g).bind (fun t => t.cv[xtail y 45 4]?)).map (fun c => c.set.toNat)).getD 0)).length
  | _ => 1

/-- The fragment registers of an instruction of a group (R200). -/
def groupFrags (s : State) (g : Group) (i : Instr) : RegUse := fragUse g.width (mmaMembers s g i) i

/-- The fragment registers of an issue (R200). -/
def issueFrags (s : State) (x : Issue) : RegUse := groupFrags s x.g x.i

/-- Uncorrectable registers that the instruction wrote are good again (R397). -/
def healRegs (s : State) (x : Issue) : State :=
  if s.badWords = [] then s
  else
    let w := (regUse x.i).writes
    let f := (issueFrags s x).writes
    { s with badWords := s.badWords.filter (fun b => match b with
        | .reg g l r => !(g == x.g.id && ((x.act.contains l && w.contains r) || f.contains r))
        | _ => true) }

/-- Registers with a correctable error that the instruction read are corrected and counted (R397). -/
def correctRegs (s : State) (x : Issue) : State :=
  if s.corrWords = [] then s
  else
    let r := (regUse x.i).reads
    let f := (issueFrags s x).reads
    correctWhere s (fun b => match b with | .reg g l n => g == x.g.id && ((x.act.contains l && r.contains n) || f.contains n) | _ => false)

/-- A group's completion of an instruction (R187, R190). -/
def completeIssue (s : State) (x : Issue) (dest : List (Nat × DWord)) (lat : List (Nat × Nat)) : State :=
  match findGroup s x.g.id with
  | none => s
  | some g =>
    let g := tagResults g x
    let g := match producerWidth x.i with | some w => lat.foldl (fun g e => pushLatTag g x e.1) (pushLatches g w lat) | none => g
    let g := { movePcv g x dest with chain := advanceChain g x }
    exitIfDone (correctRegs (healRegs (setGroup s (clearDeferral g)) x) x) g.id

/-- The destination of an instruction and its words; none under NWB (R15). -/
def dstOf (i : Instr) : Option (Opnd × Nat) :=
  match (sigOf i).dst, frameOf i with
  | .dst w _, .f _ f => if f.nwb then none else some (f.dst, w)
  | .dst w _, .x _ y => some (y.dst, w)
  | _, _ => none

/-- What a parked instruction needs to complete; only `rgrow` sets a predicate (R127). -/
def parkInfoOf (x : Issue) : ParkInfo :=
  ⟨x.next, maskLanes x.served, maskLanes x.act, dstOf x.i, match x.i with | .rgrow f => fmod f 0 3 | _ => 7⟩

/-- A parked instruction completes at its release (R334): its lanes move on, and a value goes to DST in every active lane, true to its predicate
where it has one. -/
def releaseGroup (s : State) (gid : Nat) (val : Nat) : State :=
  modGroup s gid fun g =>
    match g.parkInfo with
    | none => unparkGroup g
    | some k =>
      let g' := match k.dst with
        | some (o, w) => writeDst g o w ((lanesIn g k.active).map fun l => (l, val))
        | none => g
      let g' := (lanesIn g k.active).foldl (fun g l => setPred g k.pd l true) g'
      clearDeferral { unparkGroup g' with
        chain := none, pcv := g'.pcv.mapIdx fun l a => if k.served.getLsbD l && a != exitPc then k.next else a }

/-- A parked instruction takes a trap instead of completing (R107, R108, R336). -/
def trapParked (s : State) (gid : Nat) (t : TrapInfo) : State :=
  match findGroup s gid with
  | none => s
  | some g =>
    match g.parkInfo with
    | none => s
    | some k =>
      let pc := ((lanesIn g k.served).map (pcvOf g)).headD 0
      takeTrap (modGroup s gid unparkGroup) gid pc k.next { t with mask := lanesIn g k.active }

/-- The instructions in which a parked group is not pre-empted (R71, R394): `cwb`, `cinv`, `dom.sw`, `route.sw`, `tlbinv`, `rc.cfg`, `ctxsave`,
`ctxrest`, `die.rst`, and the tape instructions other than `tape.play`. -/
def keepsParked (i : Instr) : Bool :=
  match i with
  | .cwb _ | .cinv _ | .domSw _ | .routeSw _ | .tlbinv _ | .rcCfgAttach _ | .rcCfgDetach _ | .rcCfgStat _ | .ctxsavePre _ | .ctxsaveDump _
  | .ctxrestLoad _ | .ctxrestResume _ | .ctxrestEnd _ | .dieRstFrost _ | .dieRstReset _ | .dieRstThaw _ | .tapeRec _ | .tapeStop _
  | .tapePatchSlot _ | .tapePatchGuard _ | .tapeDrop _ => true
  | _ => false

/-- A body's answer made the machine's next state. A group that parks to execute again restarts its chain (R35). -/
def finish (x : Issue) (r : IRes) : State :=
  match r with
  | .done s lat => completeIssue s x [] lat
  | .jump s dest => completeIssue s x dest []
  | .trap s t => takeTrap s x.g.id x.pc x.next t
  | .park s w => modGroup s x.g.id (fun g => { parkGroup (restartChain g) w with keeps := keepsParked x.i })
  | .parkDone s w => modGroup s x.g.id (fun g => { parkGroup g w with keeps := keepsParked x.i, parkInfo := some (parkInfoOf x) })
  | .replay s asid va c a m => raiseFault s x.g.id x.pc asid va c a m 0
  | .gone s => s

/-- The issue of an instruction by a group. -/
def mkIssue (g : Group) (i : Instr) : Option Issue :=
  let g := clearDeferral g
  (issueAddr g).map fun pc =>
    let sv := servedLanes g pc
    ⟨g, pc, sv, sv.filter (guardOf g (instrPred i)), i⟩

/-- The latches may be read as R33 says: enough producers of the chain precede, and no read is wider than what the chain's producer or the
latch of a lane that the issue serves holds, whatever the predicate selects (R42). (DESIGN CHOICE: log 57) -/
def latchCauses (x : Issue) : List Nat :=
  let widths := (x.g.chain.map (·.widths)).getD []
  causeIf ((latchUse x.i).any fun (b, w) =>
    (match widths[b]? with | none => true | some pw => decide (pw < w))
    || x.served.any (fun l => decide (Sparse.get 0 x.g.latw (4 * l + b) < w))) 8

/-- Cause 0x09 by the chain in progress (R31, R32); an `aread` writes every register of its fragment (R200). -/
def chainCauses (s : State) (x : Issue) : List Nat :=
  match x.g.chain with
  | none => []
  | some c =>
    causeIf ((instrHold x.i && decide (3 ≤ c.pos)) || ((regUse x.i).writes ++ (issueFrags s x).writes).any c.reads.contains) 9

/-- The causes that depend on the dispatch and the group (R40, R44). -/
def stateCauses (s : State) (x : Issue) : List Nat :=
  let d := dispOf s x.g
  causeIf (isPriv x.i && !(d.map dispSys).getD false) 0x0C
  ++ causeIf ((isTaskOnly x.i && !(d.map dispTask).getD false)
      || (match x.i with | .iret _ => x.g.state != .handler | _ => false)) 0x0D

/-- The cause that an ILLOP of the issue reports: the lowest of those that hold (R43). -/
def illopCause (s : State) (x : Issue) : Option Nat :=
  minCause (staticCauses x.i ++ latchCauses x ++ chainCauses s x ++ stateCauses s x)

/-- A register named, or spanned by a fragment, at or above the allocation (R126, R200). -/
def regRange (s : State) (x : Issue) : Bool :=
  let u := regUse x.i
  let f := issueFrags s x
  (u.reads ++ u.writes ++ namedRegs x.i).any (fun r => decide (r < 256) && decide (allocRegs x.g ≤ r)) || (f.reads ++ f.writes).any (fun r => decide (allocRegs x.g ≤ r))

/-- The active lanes that read an uncorrectable register (R397); a fragment is read from every lane (R200). -/
def badRegLanes (s : State) (x : Issue) : List Nat :=
  if s.badWords = [] then []
  else
    let r := (regUse x.i).reads
    let bad (l : Nat → Bool) (rs : List Nat) : Bool := s.badWords.any (fun b => match b with | .reg g k n => g == x.g.id && l k && rs.contains n | _ => false)
    x.act.filter (fun l => bad (· == l) r || bad (fun _ => true) (issueFrags s x).reads)

/-- The entries of the pending-load errors that the group's next instruction may report: in a handler only those of accesses that the handler
issued; the others wait for its end (R419). (DEDUCED: log 52) -/
def lateDue (g : Group) : List LateErr :=
  match g.state, g.shadow with
  | .handler, some sh => g.lateErrs.filter (fun e => decide (sh.seq ≤ e.seq))
  | _, _ => g.lateErrs

/-- The entry that the next instruction reports (R419). (DEDUCED: log 52) -/
def earliestLate (g : Group) : Option LateErr :=
  (lateDue g).foldl (fun m e => match m with | none => some e | some f => if e.seq < f.seq then some e else some f) none

/-- A late error reported on the group's next instruction (R419). (DEDUCED: log 52) -/
def lateTrap (s : State) (g : Group) : Option TrapInfo :=
  (earliestLate g).map fun e =>
    { kind := e.kind, cause := e.cause, mask := lanesIn g e.mask, daddr := e.daddr, extra := e.addr, acc := e.acc,
      asid := ((dispOf s g).map dispAsid).getD 0, lane := some e.lane }

/-- The entry that a trap reports is removed (R419). -/
def dropLate (g h : Group) : Group := { g with lateErrs := g.lateErrs.filter (fun e => some e != earliestLate h) }

/-- The trap that meets an instruction before its own effect: a late error (R419), ILLOP (R42, R43), REGRANGE (R126), an
uncorrectable register (R397). (DEDUCED: log 52) -/
def issueTrap (s : State) (x : Issue) : Option TrapInfo :=
  match lateTrap s x.g with
  | some t => some t
  | none =>
    match illopCause s x with
    | some c => some { kind := kILLOP, cause := c, mask := lanesAt x.g x.pc }
    | none =>
      if regRange s x then some { kind := kREGRANGE, mask := lanesAt x.g x.pc }
      else match badRegLanes s x with
        | [] => none
        | m => some { kind := kMEMERR, cause := 3, mask := m }

/-- An issue's trap taken; the entry of a late error is removed once reported (R419). -/
def takeIssueTrap (s : State) (x : Issue) (t : TrapInfo) : State :=
  let s := if (earliestLate x.g).isSome then modGroup s x.g.id (fun g => dropLate g x.g) else s
  takeTrap s x.g.id x.pc x.next t

/-- The instruction at an address as the group would fetch it, without any effect of a fetch; none where it cannot. -/
def peekInstr (s : State) (g : Group) (pc : Nat) : Option Instr :=
  match dispOf s g, groupPart s g with
  | some d, some p =>
    let word (a : Nat) : Option Nat :=
      match cachedWalk s p (ctxOn d g.core) (va57 a) with
      | .leaf l e _ => some (rdPaNum s p (pteAddr e + va57 a % 2 ^ levelLo l) 8)
      | _ => none
    (word pc).bind (fun w => if w % 4 != 2 then (match decodeWords w 0 with | .ok i => some i | .error _ => none)
      else (word (pc + 8)).bind (fun t => match decodeWords w t with | .ok i => some i | .error _ => none))
  | _, _ => none

/-- The registers of the members that follow a chain's head (R34), at most three. -/
def chainRegsFrom (s : State) (g : Group) : Nat → Nat → List Nat
  | 0, _ => []
  | n + 1, pc =>
    match peekInstr s g pc with
    | none => []
    | some i => (regUse i).reads ++ (regUse i).writes ++ (groupFrags s g i).reads ++ (groupFrags s g i).writes ++ (if instrHold i then chainRegsFrom s g n (pc + instrLen i) else [])

/-- The registers that an instruction waits for beyond those its fields name: those of its fragments (R200), and for a chain's head those of
its later members (R34). -/
def chainRegs (s : State) (g : Group) (i : Instr) : List Nat :=
  if g.flights = [] then []
  else
    (groupFrags s g i).reads ++ (groupFrags s g i).writes
      ++ (if instrHold i && g.chain.isNone then
            (match issueAddr g with | some pc => chainRegsFrom s g 3 (pc.toNat + instrLen i) | none => [])
          else [])

/-- The instructions that R419 covers: global and constant loads, and global atomics that return a value. -/
def covered (i : Instr) : Bool :=
  match i with
  | .ldG _ | .ldC _ => true
  | .ldx f | .ldAcq f => decide (2 ≤ fmod f 3 2)
  | .atom y | .atomAgg y => decide (2 ≤ xmod y 0 2)
  | _ => false

/-- The sequence number up to which the group's accesses must have returned before an instruction issues: a destination in flight that
it reads or writes, for a chain's head one that any later member reads or writes from outside the chain (R28, R34, R132), an acquire (R308), a
late error (R419), or, for another of the instructions that R419 covers, sixteen in flight. `more` are the registers of its fragments and of the
chain's later members. -/
def waitSeq (g : Group) (i : Instr) (more : List Nat) : Option Nat :=
  let u := regUse i
  let regs := u.reads ++ u.writes ++ more
  let hit (f : Flight) : Bool :=
    lateDue g != [] || flightAcq f || (match f.dst with | some o => (opndRegs o f.words).any regs.contains | none => false)
  let full := if 16 ≤ g.flights.length && covered i then (g.flights.head?).map (·.seq) else none
  g.flights.foldl (fun m f => if hit f then some (max (m.getD 0) f.seq) else m) full

/-- The machine once the accesses that an instruction waits for have returned. -/
def prepare (s : State) (g : Group) (i : Instr) : State :=
  match waitSeq g i (chainRegs s g i) with | none => s | some n => drainTo s g.id n

/-- One attempt at an instruction by a group, and whether it took a trap. -/
def attempt (i : Instr) (s : State) (gid : Nat) (body : Issue → State → IRes) : State × Bool :=
  match (findGroup s gid).bind (fun g => mkIssue g i) with
  | none => (s, false)
  | some x =>
    match issueTrap s x with
    | some t => (takeIssueTrap s x t, true)
    | none =>
      let r := body x (setGroup s x.g)
      (finish x r, r.trapped)

/-- Loads or atomics of the group are in flight. -/
def inFlight (g : Group) : Bool := g.flights != [] || g.stores.any (fun w => w.red.isSome)

/-- A trap takes effect only after every load and atomic in flight of the group has returned (R318, R419): an attempt that traps while some are
in flight is made again after them. -/
def settleTrap (s : State) (gid : Nat) (a : State → State × Bool) : State :=
  let r := a s
  if r.2 && ((findGroup s gid).map inFlight).getD false then (a (drainReads s gid)).1 else r.1

/-- The frame of every instruction that a group issues: its body runs when no trap of issue meets it. -/
def issue (i : Instr) (s : State) (body : Issue → State → IRes) : Host.Outcome State Fault Refusal :=
  match s.cur.bind (findGroup s) with
  | none => .fault .noIssuer
  | some g => .next (settleTrap (prepare s g i) g.id (fun s => attempt i s g.id body))

/-- Every lane of the group that has not exited holds the address (R201, R337). (DEDUCED: log 17) -/
def converged (x : Issue) : Bool :=
  (lanesOf x.g).all (fun l => laneExited x.g l
    || (pcvOf x.g l == x.pc && (x.served.contains l || convParked x.g l || laneLive x.g l)))

/-- The issue of a convergent instruction with every lane that waits at it. -/
def joinConverged (x : Issue) : Issue :=
  let g := dropConv x.g
  let sv := lanesAt g x.pc
  { x with g := g, served := sv, act := sv.filter (guardOf g (instrPred x.i)) }

/-- One attempt at a convergent instruction: it issues once every lane has arrived. An illegal one raises ILLOP wherever it stands at the issue
address (R42). -/
def attemptConv (i : Instr) (s : State) (gid : Nat) (body : Issue → State → IRes) : State × Bool :=
  match (findGroup s gid).bind (fun g => mkIssue g i) with
  | none => (s, false)
  | some x =>
      if converged x then
        let x := joinConverged x
        match issueTrap s x with
        | some t => (takeIssueTrap (setGroup s x.g) x t, true)
        | none =>
          let r := body x (setGroup s x.g)
          (finish x r, r.trapped)
      else
        match illopCause s x, issueTrap s x with
        | some _, some t => (takeIssueTrap (setGroup s x.g) x t, true)
        | _, _ => (setGroup s { x.g with parked := x.g.parked ||| maskLanes x.served }, false)

/-- The frame of a convergent instruction (R201, R337): until every lane has arrived the lanes served count as parked; then it runs
with all of them. -/
def issueConv (i : Instr) (s : State) (body : Issue → State → IRes) : Host.Outcome State Fault Refusal :=
  match s.cur.bind (findGroup s) with
  | none => .fault .noIssuer
  | some g => .next (settleTrap (prepare s g i) g.id (fun s => attemptConv i s g.id body))

/-- Lanes that wait at one convergent instruction with no lane behind them are live again, so that it issues. -/
def settle (g : Group) : Group :=
  let g := clearDeferral g
  let rest := (lanesOf g).filter (fun l => !laneExited g l)
  match rest with
  | [] => g
  | l :: _ => if rest.all (fun j => convParked g j && pcvOf g j == pcvOf g l) then { g with parked := 0 } else g

/-- A store error that the group holds is raised instead of what follows, and cleared (R139). (DEDUCED: log 29) -/
def reportStore (x : Issue) (s : State) (mask : List Nat) (body : State → IRes) : IRes :=
  match (findGroup s x.g.id).bind (·.storeErr) with
  | some a =>
    .trap (modGroup s x.g.id (fun g => { g with storeErr := none }))
      { kind := kREMERR, mask := mask, daddr := a, acc := 2, asid := ((dispOf s x.g).map dispAsid).getD 0 }
  | none => body s

/-- A release (R308): the group's earlier accesses are performed, and a store error that the group holds is raised instead (R139); later reads
come after those accesses (R312, case 1). (DEDUCED: log 37) (DEDUCED: log 29) -/
def withRelease (x : Issue) (s : State) (mask : List Nat) (body : State → IRes) : IRes :=
  reportStore x (drainGroup s x.g.id) mask fun s => body (modGroup s x.g.id (fun g => { g with floor := max g.floor g.lastT }))

/-- A frame for the steps of other agents: they need no issuing group. -/
def event (f : State → State) (s : State) : Host.Outcome State Fault Refusal := .next (f s)

end Sys2Proof.Machine
end

