-- ==== Sys2Proof/Machine/Operands.lean ====
section
/-! DEFINITION. Every operand form: registers, pairs and quads, latches, special sources, inline integers and FP constants (R22 to
R27), and the writing of results. -/
namespace Sys2Proof.Machine

/-- The value of a special source for a lane of an issue (R23). -/
def specialVal (s : State) (x : Issue) (sp : Special) (l : Nat) : Nat :=
  let g := x.g
  let d := dispOf s g
  let t := teamOf s g
  let part := d.bind (dispPart s)
  let am := (maskLanes x.act).toNat
  let lc := (part.map (fun p => logicalCore s p g.core)).getD 0
  let det := (d.map dispDet).getD false
  match sp with
  | .laneid => l
  | .grpid => g.grpid
  | .teamid => g.teamid
  | .clrank => (t.map (·.rank)).getD 0
  | .vcore => if det then (t.map (·.vcore)).getD 0 else lc
  | .lcore => lc
  | .dispid => g.disp
  | .taskid => (g.task.map (fun k => k.tidx.toNat % 2 ^ 32)).getD 0
  | .seedLo => (d.map (fun d => d.seed.toNat % 2 ^ 32)).getD 0
  | .seedHi => (d.map (fun d => d.seed.toNat / 2 ^ 32)).getD 0
  | .gwidth => g.width
  | .tgrps => (d.map dispTgrps).getD 0
  | .clid => (t.map (·.clid)).getD 0
  | .ncl => (d.map dispNcl).getD 0
  | .clsize => (d.map dispClsize).getD 0
  | .nvcore => if det then (d.map dispVgrid).getD 0 else (part.map (partCores s)).getD 0
  | .amaskLo => am % 2 ^ 32
  | .amaskHi => if g.width < 64 then 0 else am / 2 ^ 32
  | .targLo => (g.task.map (fun k => k.arg.toNat % 2 ^ 32)).getD 0
  | .targHi => (g.task.map (fun k => k.arg.toNat / 2 ^ 32)).getD 0
  | .tcrdLo => (g.task.map (fun k => k.tcrd.toNat % 2 ^ 32)).getD 0
  | .tcrdHi => (g.task.map (fun k => k.tcrd.toNat / 2 ^ 32)).getD 0
  | .taskidHi => (g.task.map (fun k => k.tidx.toNat / 2 ^ 32)).getD 0

/-- A pattern repeated through the elements of a packed operand (R25). -/
def packBoth (f : Fmt) (c : Nat) : Nat :=
  match f with | .f64 | .f32 => c | _ => c + c <<< f.width

/-- The value of a source operand for a lane, zero-extended to the operand's width (R22 to R27, R33). -/
def srcVal (s : State) (x : Issue) (u : Use) (o : Opnd) (l : Nat) : Nat :=
  match u with
  | .src w _ _ _ _ fmt =>
    match o with
    | .v _ => readRegs x.g l o w
    | .k _ => readRegs x.g l o w
    | .b n => (Sparse.get 0 x.g.lat (4 * l + n.toNat)).toNat % 2 ^ (32 * w)
    | .sp p => specialVal s x p l
    | .imm n => n.toNat
    | .fpc n => match fmt with | some f => packBoth f ((f.const n.toNat).getD 0) | none => 0
  | _ => 0

/-- SA, SB and SC of an instruction for a lane. -/
def rdA (s : State) (x : Issue) (l : Nat) : Nat :=
  match frameOf x.i with
  | .f _ f => srcVal s x (sigOf x.i).sa f.sa l
  | .x _ y => srcVal s x (sigOf x.i).sa y.sa l
  | _ => 0
def rdB (s : State) (x : Issue) (l : Nat) : Nat :=
  match frameOf x.i with
  | .f _ f => srcVal s x (sigOf x.i).sb f.sb l
  | .x _ y => srcVal s x (sigOf x.i).sb y.sb l
  | _ => 0
def rdC (s : State) (x : Issue) (l : Nat) : Nat :=
  match frameOf x.i with
  | .f _ f => srcVal s x (sigOf x.i).sc f.sc l
  | .x _ y => srcVal s x (sigOf x.i).sc y.sc l
  | _ => 0

/-- Results by active lane written to the group's destination (R15, R27, R145). -/
def putDst (g : Group) (i : Instr) (vals : List (Nat × Nat)) : Group :=
  match dstOf i with
  | some (o, w) => writeDst g o w vals
  | none => g

/-- Predicate results by active lane. -/
def putPreds (g : Group) (n : Nat) (vals : List (Nat × Bool)) : Group := vals.foldl (fun g p => setPred g n p.1 p.2) g

/-- One value for every active lane. -/
def allLanes (x : Issue) (v : Nat) : List (Nat × Nat) := x.act.map (fun l => (l, v))

/-- A group-wide result written to DST in every active lane (R109). -/
def doneWith (s : State) (x : Issue) (v : Nat) : IRes :=
  .done (modGroup s x.g.id (fun g => putDst g x.i (allLanes x v))) []

/-- An instruction with no active lane has no effect (R14). -/
def groupWide (x : Issue) (s : State) (body : State → IRes) : IRes :=
  if x.act.isEmpty then .done s [] else body s

/-- Results by lane to DST, predicate results to a predicate: the end of a lane instruction without flags. -/
def laneDone (s : State) (x : Issue) (vals : List (Nat × Nat)) (pd : Nat) (ps : List (Nat × Bool)) : IRes :=
  .done (modGroup s x.g.id (fun g => putPreds (putDst g x.i vals) pd ps)) vals

/-- A value computed by each active lane from its own operands. -/
def perLane (s : State) (x : Issue) (f : Nat → Nat) : IRes := laneDone s x (x.act.map (fun l => (l, f l))) 7 []

end Sys2Proof.Machine
end

