-- ==== Sys2Proof/Machine/Flags.lean ====
section
/-! DEFINITION. FPSTAT and FPTRAP: the flags that an instruction's lanes raise, and FPX (R159 to R161). -/
namespace Sys2Proof.Machine

/-- Flags ORed into FPSTAT (R159). -/
def orFpstat (g : Group) (f : FFlags) : Group := { g with fpstat := g.fpstat ||| f.zeroExtend 32 }

/-- The flags of every active lane together. -/
def allFlags (fl : List (Nat × FFlags)) : FFlags := fl.foldl (fun a p => a ||| p.2) 0

/-- The enabled flags: FL cannot be trapped (R160). -/
def enabledFlags (g : Group) : FFlags := (g.fptrap.truncate 5 : BitVec 5).zeroExtend 6

/-- The lanes that raised an enabled flag. -/
def fpxLanes (g : Group) (fl : List (Nat × FFlags)) : List Nat := (fl.filter (fun p => p.2 &&& enabledFlags g != 0)).map (·.1)

/-- The end of a floating-point instruction (R159, R161): FPX when an active lane raises an enabled flag, with FPSTAT updated and
nothing else written; otherwise results, predicates and flags. -/
def fpDone (s : State) (x : Issue) (vals : List (Nat × Nat)) (pd : Nat) (ps : List (Nat × Bool)) (fl : List (Nat × FFlags)) : IRes :=
  let s := modGroup s x.g.id (fun g => orFpstat g (allFlags fl))
  match fpxLanes x.g fl with
  | [] => laneDone s x vals pd ps
  | m =>
    let cause := allFlags (fl.filter (fun p => m.contains p.1)) &&& enabledFlags x.g
    .trap s { kind := kFPX, cause := cause.toNat, mask := m }

end Sys2Proof.Machine
end

