-- ==== Sys2Proof/Machine/IntLogic.lean ====
section
/-! DEFINITION. Integer and logic instructions, selection, predicates, moves, random numbers (R162 to R172). -/
namespace Sys2Proof.Machine

/-- W in bits of the standard layout (R162). -/
def intW (f : FWord) : Nat := if fmod f 0 2 = 1 then 64 else 32

/-- An operand read as signed or unsigned (R162). -/
def readInt (uns : Bool) (w x : Nat) : Int := if uns then (x % 2 ^ w : Nat) else sextN w x

/-- The exact result brought to W bits: wrapped, or clamped with SAT (R162). -/
def intResult (w : Nat) (uns sat : Bool) (r : Int) : Nat :=
  if sat then
    let lo : Int := if uns then 0 else -((2 ^ (w - 1) : Nat) : Int)
    let hi : Int := if uns then (2 ^ w : Nat) - 1 else (2 ^ (w - 1) : Nat) - 1
    wrapI w (max lo (min hi r))
  else wrapI w r

/-- An instruction of the standard layout whose exact result is a function of its three sources (R162, R163). -/
def intOp (x : Issue) (s : State) (f : FWord) (op : Int → Int → Int → Int) : IRes :=
  let w := intW f
  let uns := fmod f 2 1 == 1
  perLane s x fun l =>
    intResult w uns (fmod f 3 1 == 1) (op (readInt uns w (rdA s x l)) (readInt uns w (rdB s x l)) (readInt uns w (rdC s x l)))

/-- A bitwise instruction on W-bit sources (R164 to R167). -/
def bitOp (x : Issue) (s : State) (op : Nat → Nat → Nat → Nat) : IRes := perLane s x fun l => op (rdA s x l) (rdB s x l) (rdC s x l)

def execIadd (f : FWord) (s : State) := issue (.iadd f) s fun x s => intOp x s f fun a b _ => a + b
def execIsub (f : FWord) (s : State) := issue (.isub f) s fun x s => intOp x s f fun a b _ => a - b
def execIadd3 (f : FWord) (s : State) := issue (.iadd3 f) s fun x s => intOp x s f fun a b c => a + b + c
def execImul (f : FWord) (s : State) := issue (.imul f) s fun x s => intOp x s f fun a b _ => a * b
def execImulhi (f : FWord) (s : State) :=
  issue (.imulhi f) s fun x s => intOp x s f fun a b _ => (a * b) / ((2 ^ intW f : Nat) : Int)
def execImad (f : FWord) (s : State) := issue (.imad f) s fun x s => intOp x s f fun a b c => a * b + c
def execImin (f : FWord) (s : State) := issue (.imin f) s fun x s => intOp x s f fun a b _ => min a b
def execImax (f : FWord) (s : State) := issue (.imax f) s fun x s => intOp x s f fun a b _ => max a b
def execIabs (f : FWord) (s : State) := issue (.iabs f) s fun x s => intOp x s f fun a _ _ => a.natAbs
def execIneg (f : FWord) (s : State) := issue (.ineg f) s fun x s => intOp x s f fun a _ _ => -a

/-- `imadw` (R163): 32-bit factors, a 64-bit sum. -/
def execImadw (f : FWord) (s : State) :=
  issue (.imadw f) s fun x s =>
    let uns := fmod f 2 1 == 1
    perLane s x fun l => wrapI 64 (readInt uns 32 (rdA s x l) * readInt uns 32 (rdB s x l) + (rdC s x l : Nat))

def execAnd (f : FWord) (s : State) := issue (.and f) s fun x s => bitOp x s fun a b _ => a &&& b
def execOr (f : FWord) (s : State) := issue (.or f) s fun x s => bitOp x s fun a b _ => a ||| b
def execXor (f : FWord) (s : State) := issue (.xor f) s fun x s => bitOp x s fun a b _ => a ^^^ b
def execNot (f : FWord) (s : State) := issue (.not f) s fun x s => bitOp x s fun a _ _ => a ^^^ (2 ^ intW f - 1)

/-- `lfn3` (R164): bit k of the result is bit a_k + 2 b_k + 4 c_k of FN. -/
def lfn3 (w fn a b c : Nat) : Nat :=
  (List.range w).foldl (fun r k =>
    let i := (a.testBit k).toNat + 2 * (b.testBit k).toNat + 4 * (c.testBit k).toNat
    if fn.testBit i then r + 2 ^ k else r) 0
def execLfn3 (f : FWord) (s : State) := issue (.lfn3 f) s fun x s => bitOp x s fun a b c => lfn3 (intW f) (fmod f 2 8) a b c

/-- The shifts of R165. -/
def shlN (w a n : Nat) : Nat := if w ≤ n then 0 else (a <<< n) % 2 ^ w
def shrN (w a n : Nat) : Nat := if w ≤ n then 0 else a >>> n
def sarN (w a n : Nat) : Nat := wrapI w (sextN w a / ((2 ^ (min n w) : Nat) : Int))
def execShl (f : FWord) (s : State) := issue (.shl f) s fun x s => bitOp x s fun a n _ => shlN (intW f) a n
def execShr (f : FWord) (s : State) := issue (.shr f) s fun x s => bitOp x s fun a n _ => shrN (intW f) a n
def execSar (f : FWord) (s : State) := issue (.sar f) s fun x s => bitOp x s fun a n _ => sarN (intW f) a n

/-- `fsh` (R165): {hi, lo} rotated by n mod 2W, the low or the high half kept. -/
def fshN (left : Bool) (w lo hi n : Nat) : Nat :=
  let v := hi * 2 ^ w + lo
  let k := n % (2 * w)
  if left then ((v <<< k ||| v >>> (2 * w - k)) % 2 ^ (2 * w)) >>> w
  else ((v >>> k ||| v <<< (2 * w - k)) % 2 ^ (2 * w)) % 2 ^ w
def execFsh (f : FWord) (s : State) := issue (.fsh f) s fun x s => bitOp x s fun lo hi n => fshN (fmod f 4 1 == 1) (intW f) lo hi n

/-- LO and HI of a field range (R166). -/
def rangeLo (r : Nat) : Nat := fldN r 0 7
def rangeHi (r : Nat) : Nat := fldN r 8 7

/-- `fext` (R166). -/
def fextN (uns : Bool) (w a r : Nat) : Nat :=
  let lo := rangeLo r
  let hi := rangeHi r
  if hi < lo then 0
  else
    let n := hi - lo + 1
    let wide : Int := readInt uns w a
    let fieldBits := wrapI n (wide / ((2 ^ lo : Nat) : Int))
    wrapI w (readInt uns n fieldBits)
def execFext (f : FWord) (s : State) := issue (.fext f) s fun x s => bitOp x s fun a r _ => fextN (fmod f 2 1 == 1) (intW f) a r

/-- `fdep` (R166). -/
def fdepN (w ins base r : Nat) : Nat :=
  let lo := rangeLo r
  let hi := rangeHi r
  if hi < lo then base
  else
    (List.range w).foldl (fun y k =>
      if (if lo ≤ k ∧ k ≤ hi then ins.testBit (k - lo) else base.testBit k) then y + 2 ^ k else y) 0
def execFdep (f : FWord) (s : State) := issue (.fdep f) s fun x s => bitOp x s fun i b r => fdepN (intW f) i b r

/-- `bsel` (R166). -/
def bselN (a b sel : Nat) : Nat :=
  (List.range 4).foldl (fun y i =>
    let c := fldN sel (8 * i) 8
    let pick := fldN (b * 2 ^ 32 + a) (8 * (c % 8)) 8
    let byte := match fldN c 3 2 with | 0 => pick | 1 => 0 | 2 => if pick.testBit 7 then 0xFF else 0 | _ => 0xFF
    y + byte <<< (8 * i)) 0
def execBsel (f : FWord) (s : State) := issue (.bsel f) s fun x s => bitOp x s bselN

/-- The counts of R167. -/
def clzN (w a : Nat) : Nat := if a = 0 then w else w - 1 - a.log2
def ctzN (w a : Nat) : Nat := (lowestBit w a).getD w
def brevN (w a : Nat) : Nat := (List.range w).foldl (fun y k => if a.testBit k then y + 2 ^ (w - 1 - k) else y) 0
def execPopc (f : FWord) (s : State) := issue (.popc f) s fun x s => bitOp x s fun a _ _ => popcN (intW f) a
def execClz (f : FWord) (s : State) := issue (.clz f) s fun x s => bitOp x s fun a _ _ => clzN (intW f) a
def execCtz (f : FWord) (s : State) := issue (.ctz f) s fun x s => bitOp x s fun a _ _ => ctzN (intW f) a
def execBrev (f : FWord) (s : State) := issue (.brev f) s fun x s => bitOp x s fun a _ _ => brevN (intW f) a

/-- `sel` (R168). -/
def execSel (f : FWord) (s : State) :=
  issue (.sel f) s fun x s =>
    perLane s x fun l => if xor (predOf x.g (fmod f 2 3) l) (fmod f 5 1 == 1) then rdA s x l else rdB s x l

/-- The comparisons of R169. -/
def icmpTrue (cc : Nat) (a b : Int) : Bool :=
  match cc with
  | 0 => a == b | 1 => a != b | 2 => decide (a < b) | 3 => decide (a ≤ b) | 4 => decide (b < a) | _ => decide (b ≤ a)

/-- A mask result: all ones or zero. -/
def maskWord (b : Bool) : Nat := if b then 0xFFFFFFFF else 0

/-- `icmp` (R169). -/
def execIcmp (f : FWord) (s : State) :=
  issue (.icmp f) s fun x s =>
    let uns := fmod f 2 1 == 1
    let t := x.act.map fun l => (l, icmpTrue (fmod f 3 3) (readInt uns (intW f) (rdA s x l)) (readInt uns (intW f) (rdB s x l)))
    laneDone s x (t.map fun p => (p.1, maskWord p.2)) (fmod f 6 3) t

/-- The operations of `setp` (R170). -/
def setpOp (o : Nat) (a b : Bool) : Bool := match o with | 0 => a && b | 1 => a || b | _ => xor a b

/-- The predicate that a field of `setp` names (R170). -/
def predIx (o : Opnd) : Nat := match o with | .imm n => n.toNat % 8 | _ => 7

/-- `setp` (R170). -/
def execSetp (f : FWord) (s : State) :=
  issue (.setp f) s fun x s =>
    let p (o : Opnd) (n : Nat) (l : Nat) : Bool := xor (predOf x.g (predIx o) l) (fmod f n 1 == 1)
    laneDone s x [] (fmod f 0 3)
      (x.act.map fun l => (l, setpOp (fmod f 5 2) (setpOp (fmod f 3 2) (p f.sa 7 l) (p f.sb 8 l)) (p f.sc 9 l)))

/-- `mov` (R171). -/
def execMov (f : FWord) (s : State) := issue (.mov f) s fun x s => perLane s x fun l => rdA s x l

/-- `li` (R171). -/
def execLi (y : XWord) (s : State) := issue (.li y) s fun x s => perLane s x fun _ => liImm y

/-- `lea` (R171). -/
def execLea (f : FWord) (s : State) :=
  issue (.lea f) s fun x s =>
    perLane s x fun l =>
      wrapI (intW f) ((rdA s x l : Nat) + readInt (fmod f 2 1 == 0) 32 (rdB s x l) * ((2 ^ fmod f 3 3 : Nat) : Int))

/-- The rounds of R172. -/
def randRounds : Nat → Nat → Nat → Nat × Nat × Nat × Nat → Nat × Nat × Nat × Nat
  | 0, _, _, x => x
  | n + 1, k0, k1, (x0, x1, x2, x3) =>
    let m := 2 ^ 32
    let p := 0xD2511F53 * x0
    let q := 0xCD9E8D57 * x2
    randRounds n ((k0 + 0x9E3779B9) % m) ((k1 + 0xBB67AE85) % m) ((q / m) ^^^ x1 ^^^ k0, q % m, (p / m) ^^^ x3 ^^^ k1, p % m)

/-- x2 and x3 of R172 for a lane. -/
def randKey (s : State) (x : Issue) (l : Nat) : Nat × Nat :=
  if ((dispOf s x.g).map dispTask).getD false then
    let t := (x.g.task.map (·.tidx.toNat)).getD 0
    (t % 2 ^ 32, (fldN t 32 26 * 64 ||| l) % 2 ^ 32)
  else (specialVal s x .vcore l, (x.g.teamid * 2 ^ 11 ||| x.g.grpid * 2 ^ 6 ||| l) % 2 ^ 32)

/-- `rand` (R172). -/
def execRand (f : FWord) (s : State) :=
  issue (.rand f) s fun x s =>
    perLane s x fun l =>
      let (x2, x3) := randKey s x l
      let r := randRounds 10 (specialVal s x .seedLo l) (specialVal s x .seedHi l) (rdA s x l, rdB s x l, x2, x3)
      if fmod f 0 1 = 1 then r.2.1 * 2 ^ 32 + r.1 else r.1

end Sys2Proof.Machine
end

