-- ==== Sys2Proof/Machine/Fp.lean ====
section
/-! DEFINITION. Floating-point instructions and conversions (R173 to R181). -/
namespace Sys2Proof.Machine

/-- FLUSHCTL as the instruction samples it at issue (R157). -/
def ctlOf (x : Issue) : Nat := x.g.flushctl.toNat

/-- The modifiers of R29 on an element: absolute value, then negation, on the sign bit. -/
def fpMods (f : Fmt) (abs neg : Bool) (b : Nat) : Nat :=
  let b := if abs then b % f.signBit else b
  if neg then b ^^^ f.signBit else b

/-- Element k of an operand. -/
def elemOf (f : Fmt) (k v : Nat) : Nat := fldN v (k * f.width) f.width

/-- An element read through modifiers and input flushing (R173). -/
def readElem (f : Fmt) (ctl : Nat) (abs neg : Bool) (k v : Nat) : Nat × FFlags := f.flushIn ctl (fpMods f abs neg (elemOf f k v))

/-- Elements computed independently, results packed and flags ORed (R145). -/
def packElems (n w : Nat) (el : Nat → FRes) : FRes :=
  (List.range n).foldl (fun (a : FRes) k => let (b, fl) := el k; (a.1 + b <<< (k * w), a.2 ||| fl)) (0, 0)

/-- What an instruction of the standard FP layout gives a lane, from a function on element patterns already modified and flushed (R173). -/
def fpLane (x : Issue) (s : State) (f : FWord) (op : Fmt → Rnd → Nat → Nat → Nat → FRes) (l : Nat) : FRes :=
  let t := stdTy f
  let fm := fpTyFmt t
  let ctl := ctlOf x
  packElems (fpTyElems t) fm.width fun k =>
    let (ea, fa) := readElem fm ctl (fmod f 6 1 == 1) (fmod f 5 1 == 1) k (rdA s x l)
    let (eb, fb) := readElem fm ctl (fmod f 8 1 == 1) (fmod f 7 1 == 1) k (rdB s x l)
    let (ec, fc) := readElem fm ctl false (fmod f 9 1 == 1) k (rdC s x l)
    let u := sigOf x.i
    let (y, fl) := op fm (Rnd.ofCode (fmod f 0 3)) ea eb ec
    (y, fl ||| fa ||| (if u.sb = .unused then 0 else fb) ||| (if u.sc = .unused then 0 else fc))

/-- Results with flags by lane ended as R159 and R161 say. -/
def fpEnd (x : Issue) (s : State) (r : List (Nat × FRes)) : IRes :=
  fpDone s x (r.map fun p => (p.1, p.2.1)) 7 [] (r.map fun p => (p.1, p.2.2))

/-- An instruction of the standard FP layout. -/
def fpOp (x : Issue) (s : State) (f : FWord) (op : Fmt → Rnd → Nat → Nat → Nat → FRes) : IRes :=
  fpEnd x s (x.act.map fun l => (l, fpLane x s f op l))

def execFadd (f : FWord) (s : State) :=
  issue (.fadd f) s fun x s => fpOp x s f fun m r a b _ => fpAdd m (ctlOf x) r (m.decode a) (m.decode b)
def execFsub (f : FWord) (s : State) :=
  issue (.fsub f) s fun x s => fpOp x s f fun m r a b _ => fpSub m (ctlOf x) r (m.decode a) (m.decode b)
def execFmul (f : FWord) (s : State) :=
  issue (.fmul f) s fun x s => fpOp x s f fun m r a b _ => fpMul m (ctlOf x) r (m.decode a) (m.decode b)
def execFma (f : FWord) (s : State) :=
  issue (.fma f) s fun x s => fpOp x s f fun m r a b c => fpFma m (ctlOf x) r (m.decode a) (m.decode b) (m.decode c)
def execFdiv (f : FWord) (s : State) :=
  issue (.fdiv f) s fun x s => fpOp x s f fun m r a b _ => fpDiv m (ctlOf x) r (m.decode a) (m.decode b)
def execFsqrt (f : FWord) (s : State) :=
  issue (.fsqrt f) s fun x s => fpOp x s f fun m r a _ _ => fpSqrt m (ctlOf x) r (m.decode a)
def execFround (f : FWord) (s : State) := issue (.fround f) s fun x s => fpOp x s f fun m r a _ _ => fpRound m r (m.decode a)

/-- `fscale` for a lane (R174): SB is one signed integer for every element. -/
def fscaleLane (x : Issue) (s : State) (f : FWord) (l : Nat) : FRes :=
  let t := stdTy f
  let fm := fpTyFmt t
  packElems (fpTyElems t) fm.width fun k =>
    let (ea, fa) := readElem fm (ctlOf x) (fmod f 6 1 == 1) (fmod f 5 1 == 1) k (rdA s x l)
    let (y, fl) := fpScale fm (ctlOf x) (Rnd.ofCode (fmod f 0 3)) (fm.decode ea) (sextN 32 (rdB s x l))
    (y, fl ||| fa)
def execFscale (f : FWord) (s : State) := issue (.fscale f) s fun x s => fpEnd x s (x.act.map fun l => (l, fscaleLane x s f l))

def execFmin (f : FWord) (s : State) := issue (.fmin f) s fun x s => fpOp x s f fun m _ a b _ => fpMinMax m (ctlOf x) false false a b
def execFmax (f : FWord) (s : State) := issue (.fmax f) s fun x s => fpOp x s f fun m _ a b _ => fpMinMax m (ctlOf x) true false a b
def execFminx (f : FWord) (s : State) := issue (.fminx f) s fun x s => fpOp x s f fun m _ a b _ => fpMinMax m (ctlOf x) false true a b
def execFmaxx (f : FWord) (s : State) := issue (.fmaxx f) s fun x s => fpOp x s f fun m _ a b _ => fpMinMax m (ctlOf x) true true a b

/-- An approximating instruction (R178). -/
def approxOp (op : Nat) (x : Issue) (s : State) (f : FWord) : IRes :=
  fpOp x s f fun m _ a _ _ => match m with | .f32 | .f64 => approx op m (ctlOf x) a | _ => approx16 op m (ctlOf x) a
def execFrcp (f : FWord) (s : State) := issue (.frcp f) s fun x s => approxOp 0 x s f
def execFrsq (f : FWord) (s : State) := issue (.frsq f) s fun x s => approxOp 1 x s f
def execFex2 (f : FWord) (s : State) := issue (.fex2 f) s fun x s => approxOp 2 x s f
def execFlg2 (f : FWord) (s : State) := issue (.flg2 f) s fun x s => approxOp 3 x s f
def execFsin (f : FWord) (s : State) := issue (.fsin f) s fun x s => approxOp 4 x s f
def execFcos (f : FWord) (s : State) := issue (.fcos f) s fun x s => approxOp 5 x s f

/-- The elements' comparisons of `fcmp` for a lane, with their flags (R176). -/
def fcmpLane (x : Issue) (s : State) (f : FWord) (l : Nat) : List (Bool × FFlags) :=
  let fm := fpTyFmt (stdTy f)
  (List.range (fpTyElems (stdTy f))).map fun k =>
    let (ea, fa) := readElem fm (ctlOf x) false false k (rdA s x l)
    let (eb, fb) := readElem fm (ctlOf x) false false k (rdB s x l)
    let a := fm.decode ea
    let b := fm.decode eb
    let iv : FFlags := if a.isSig || b.isSig || (fmod f 9 1 == 1 && (a.isNan || b.isNan)) then .iv else 0
    (fcmpTrue (fmod f 5 4) a b, fa ||| fb ||| iv)

/-- The mask result of `fcmp` (R176). -/
def fcmpVal (es : List (Bool × FFlags)) : Nat :=
  match es with
  | [(c, _)] => maskWord c
  | (c, _) :: (d, _) :: _ => (if c then 0xFFFF else 0) + (if d then 0xFFFF0000 else 0)
  | [] => 0

/-- `fcmp` (R176). -/
def execFcmp (f : FWord) (s : State) :=
  issue (.fcmp f) s fun x s =>
    let r := x.act.map fun l => (l, fcmpLane x s f l)
    fpDone s x (r.map fun p => (p.1, fcmpVal p.2)) (fmod f 0 3) (r.map fun p => (p.1, (p.2.map (·.1)).headD false))
      (r.map fun p => (p.1, p.2.foldl (fun a e => a ||| e.2) 0))

/-- The class masks of `fclass` for a lane (R177). -/
def fclassLane (x : Issue) (s : State) (f : FWord) (l : Nat) : Nat :=
  let fm := fpTyFmt (stdTy f)
  (List.range (fpTyElems (stdTy f))).foldl (fun y k => y + fclassCode fm (elemOf fm k (rdA s x l)) <<< (16 * k)) 0

/-- `fclass` (R177). -/
def execFclass (f : FWord) (s : State) :=
  issue (.fclass f) s fun x s =>
    let r := x.act.map fun l => (l, fclassLane x s f l)
    laneDone s x r (fmod f 0 3) (r.map fun p => (p.1, p.2 &&& rdB s x p.1 != 0))

/-! ### Conversion (R179 to R181) -/

/-- A value converted to a floating-point format (R150, R155, R180). -/
def toFloat (f : Fmt) (ctl : Nat) (r : Rnd) (sat : Bool) (a : FVal) (fromE8 : Bool) : FRes :=
  match a with
  | .nan n sg t =>
    if fromE8 then f.defaultNan else let (y, fl) := f.nanFrom n t; (y, fl ||| (if sg then .iv else 0))
  | .inf n =>
    match f with
    | .e4m3 => if sat then (f.zeroBits n + f.maxBits, .ofl ||| .ix) else (f.nanBits, .iv)
    | .e2m1 => (f.zeroBits n + f.maxBits, .iv)
    | _ => (f.infSigned n, 0)
  | .fin n m e => if m = 0 then (f.zeroBits n, 0) else roundFlush f ctl r sat n m e

/-- A value converted to E8M0 (R180). -/
def toE8m0 (r : Rnd) (a : FVal) : FRes :=
  match a with
  | .fin false m e =>
    if m = 0 then (0xFF, .iv)
    else
      let lg : Int := (m.log2 : Int) + e
      let ex := max lg (-127)
      let (n, inex) := roundUnit r false m e ex
      let ix : FFlags := if inex then .ix else 0
      if n = 0 then (0, .ufl ||| .ix)
      else
        let k := ex + n.log2
        if 127 < k then (0xFF, .ofl ||| .ix) else ((k + 127).toNat, ix)
  | _ => (0xFF, .iv)

/-- A value rounded to an integer type (R180). -/
def toInt (signed : Bool) (w : Nat) (r : Rnd) (a : FVal) : FRes :=
  let lo : Int := if signed then -((2 ^ (w - 1) : Nat) : Int) else 0
  let hi : Int := if signed then (2 ^ (w - 1) : Nat) - 1 else (2 ^ w : Nat) - 1
  match a with
  | .nan .. => (0, .iv)
  | .inf n => (wrapI w (if n then lo else hi), .iv)
  | .fin n m e =>
    if 70 < (m.log2 : Int) + e then (wrapI w (if n then lo else hi), .iv)
    else
      let (k, inex) := roundUnit r n m e 0
      let v := fvInt n k
      if v < lo then (wrapI w lo, .iv) else if hi < v then (wrapI w hi, .iv) else (wrapI w v, if inex then .ix else 0)

/-- One element converted (R180). -/
def cvtElem (dt : CvtTy) (st : CvtTy) (ctl : Nat) (r : Rnd) (sat : Bool) (v : Nat) : FRes :=
  match st with
  | .int sg w =>
    let n := readInt (!sg) w v
    match dt with
    | .int _ w' => (wrapI w' n, 0)
    | .fp .e8m0 => toE8m0 r (.fin (decide (n < 0)) n.natAbs 0)
    | .fp f | .packed f => toFloat f ctl r sat (.fin (decide (n < 0)) n.natAbs 0) false
  | .fp g | .packed g =>
    let (e, fl) := g.flushIn ctl (v % 2 ^ g.width)
    let a := g.decode e
    let (y, h) :=
      match dt with
      | .int sg w => toInt sg w r a
      | .fp .e8m0 => if g = .e8m0 ∧ a.isNan then (0xFF, 0) else toE8m0 r a
      | .fp f | .packed f => toFloat f ctl r sat a (g == .e8m0)
    (y, fl ||| h)

/-- `cvt` for a lane (R179, R180). -/
def cvtLane (x : Issue) (s : State) (y : XWord) (dt st : CvtTy) (l : Nat) : FRes :=
  let conv (v : Nat) : FRes := cvtElem dt st (ctlOf x) (Rnd.ofCode (xmod y 0 3)) (xmod y 3 1 == 1) v
  match dt, st with
  | .packed f, _ =>
    let (a, fa) := conv (rdA s x l)
    let (b, fb) := conv (rdB s x l)
    (a + b <<< f.width, fa ||| fb)
  | _, .packed g => conv (if xmod y 4 1 = 1 then elemOf g 1 (rdA s x l) else rdA s x l)
  | _, _ => conv (rdA s x l)

/-- `cvt` (R179, R180). -/
def execCvt (y : XWord) (s : State) :=
  issue (.cvt y) s fun x s =>
    match cvtTypes y with
    | none => .done s []
    | some (dt, st) => fpEnd x s (x.act.map fun l => (l, cvtLane x s y dt st l))

/-- The scale of R181 for a value, with M = mm × 2^me. -/
def mxScale (et : Nat) (ceil : Bool) (a : FVal) : FRes :=
  let (emax, mm, me) : Int × Nat × Int := match et with | 0 => (8, 7, 6) | 1 => (15, 7, 13) | 2 => (2, 3, 1) | _ => (0, 127, -6)
  match a with
  | .nan _ sg _ => (0xFF, if sg then .iv else 0)
  | .inf _ => (0xFF, .iv)
  | .fin _ m e =>
    if m = 0 then (0x7F, 0)
    else
      let k : Int :=
        if ceil then
          -- the least k with m 2^e ≤ mm 2^(me + k)
          let d := e - me + (m.log2 : Int) - (mm.log2 : Int) - 1
          let ok (k : Int) : Bool := decide (fvAt false m e (min e (me + k)) ≤ fvAt false mm (me + k) (min e (me + k)))
          if ok d then d else if ok (d + 1) then d + 1 else d + 2
        else (m.log2 : Int) + e - emax
      if 127 < k then (0xFE, .ofl) else if k < -127 then (0, 0) else ((k + 127).toNat, 0)

/-- `mxscale` for a lane (R181). -/
def mxscaleLane (x : Issue) (s : State) (f : FWord) (l : Nat) : FRes :=
  let g : Fmt := if fmod f 2 1 = 1 then .f64 else .f32
  let (e, fl) := g.flushIn (ctlOf x) (rdA s x l)
  let (y, h) := mxScale (fmod f 0 2) (fmod f 3 1 == 1) (g.decode e)
  (y, fl ||| h)

/-- `mxscale` (R181). -/
def execMxscale (f : FWord) (s : State) := issue (.mxscale f) s fun x s => fpEnd x s (x.act.map fun l => (l, mxscaleLane x s f l))

end Sys2Proof.Machine
end

