-- ==== Sys2Proof/Machine/LaneOps.lean ====
section
/-! DEFINITION. Lane operations (R182 to R186) and P words (R17 to R19). -/
namespace Sys2Proof.Machine

/-- The value that a source register holds in any lane of the group, as it stands (R182); another source reads as for a lane. -/
def laneVal (s : State) (x : Issue) (j : Nat) : Nat := rdA s x j

/-- The segment width of `shfl` (R183): from the lowest active lane, a power of two, at most the group's width. -/
def shflSeg (w c : Nat) : Nat := if c = 0 then w else min w (2 ^ c.log2)

/-- The source lane and whether it lies in the segment (R183). -/
def shflSrc (mode c l b : Nat) : Nat × Bool :=
  let s := l - l % c
  match mode with
  | 0 => (s + b % c, true)
  | 1 => (l - b, decide (b ≤ l - s))
  | 2 => (l + b, decide (l + b < s + c))
  | _ => let j := l ^^^ b; (j, decide (s ≤ j) && decide (j < s + c))

/-- What `shfl` gives a lane, and whether its source lay in the segment (R183). -/
def shflLane (x : Issue) (s : State) (f : FWord) (l : Nat) : Nat × Bool :=
  let (j, ok) := shflSrc (fmod f 0 2) (shflSeg x.g.width (rdC s x x.lead)) l (rdB s x l)
  ((if ok then laneVal s x j else rdA s x l), ok)

/-- The words of the value that `shfl` reads for a lane, in whatever lane it stands (R182, R397). -/
def shflLocs (x : Issue) (s : State) (f : FWord) (l : Nat) : List ArrayLoc :=
  let (j, ok) := shflSrc (fmod f 0 2) (shflSeg x.g.width (rdC s x x.lead)) l (rdB s x l)
  ((sigOf x.i).sa.reads f.sa).map (.reg x.g.id (if ok then j else l))

/-- `shfl` (R183). -/
def execShfl (f : FWord) (s : State) :=
  issue (.shfl f) s fun x s =>
    match x.act.filter (fun l => (shflLocs x s f l).any s.badWords.contains) with
    | b :: bs => .trap s { kind := kMEMERR, cause := 3, mask := b :: bs }
    | [] =>
    let s := correctLocs s (x.act.flatMap (shflLocs x s f))
    let r := x.act.map fun l => (l, shflLane x s f l)
    laneDone s x (r.map fun p => (p.1, p.2.1)) (fmod f 3 3) (r.map fun p => (p.1, p.2.2))

/-- The value and the predicate that `vote` gives every active lane (R184). -/
def voteVal (x : Issue) (f : FWord) : Nat × Bool :=
  let q (l : Nat) : Bool := xor (predOf x.g (fmod f 2 3) l) (fmod f 5 1 == 1)
  let m := maskOf (x.act.filter q)
  let t := match fmod f 0 2 with | 0 => x.act.any q | 1 => x.act.all q | _ => m != 0
  (if fmod f 0 2 = 2 then (if fmod f 9 1 = 1 then m else m % 2 ^ 32) else maskWord t, t)

/-- `vote` (R184). -/
def execVote (f : FWord) (s : State) :=
  issue (.vote f) s fun x s => laneDone s x (allLanes x (voteVal x f).1) (fmod f 6 3) (x.act.map fun l => (l, (voteVal x f).2))

/-- The value and the predicate that `match` gives a lane (R185). -/
def matchVal (x : Issue) (s : State) (f : FWord) (l : Nat) : Nat × Bool :=
  let a (l : Nat) : Nat := rdA s x l
  let all := x.act.all fun l => a l == a x.lead
  let cut (m : Nat) : Nat := if fmod f 2 1 = 1 then m else m % 2 ^ 32
  if fmod f 0 1 = 1 then (if all then cut (maskOf x.act) else 0, all) else (cut (maskOf (x.act.filter fun j => a j == a l)), true)

/-- `match` (R185). -/
def execMatchLanes (f : FWord) (s : State) :=
  issue (.matchLanes f) s fun x s =>
    laneDone s x (x.act.map fun l => (l, (matchVal x s f l).1)) (fmod f 3 3) (x.act.map fun l => (l, (matchVal x s f l).2))

/-- `elect` (R185). -/
def execElect (f : FWord) (s : State) :=
  issue (.elect f) s fun x s => laneDone s x (allLanes x x.lead) (fmod f 0 3) (x.act.map fun l => (l, l == x.lead))

/-- One level of the tree of R120: neighbours joined, an odd last value kept. -/
def treeLevel (node : α → α → α) : List α → List α
  | a :: b :: t => node a b :: treeLevel node t
  | l => l

/-- The tree of R120 by levels. -/
def treeFuel (node : α → α → α) : Nat → List α → List α
  | 0, l => l
  | n + 1, l => match l with | _ :: _ :: _ => treeFuel node n (treeLevel node l) | _ => l

/-- The tree of R120. -/
def tree (node : α → α → α) (d : α) (l : List α) : α := (treeFuel node (l.length + 1) l).headD d

/-- A value with the flags that its formation raised. -/
abbrev FV := Nat × FFlags

/-- The node operations of R186 on patterns. -/
def laneNode (op ty ctl : Nat) (r : Rnd) (a b : Nat) : FRes :=
  let w := if 2 ≤ ty then 64 else 32
  let uns := ty % 2 == 1
  let fm : Fmt := if ty = 2 then .f64 else .f32
  match op with
  | 0 => ((a + b) % 2 ^ w, 0)
  | 1 => (if readInt uns w a ≤ readInt uns w b then a else b, 0)
  | 2 => (if readInt uns w a ≤ readInt uns w b then b else a, 0)
  | 3 => (a &&& b, 0)
  | 4 => (a ||| b, 0)
  | 5 => (a ^^^ b, 0)
  | 6 => fpAdd fm ctl r (fm.decode a) (fm.decode b)
  | 7 => fpMinMax fm ctl false false a b
  | _ => fpMinMax fm ctl true false a b

/-- The identities of R186. -/
def laneIdentity (op ty : Nat) : Nat :=
  let w := if 2 ≤ ty then 64 else 32
  let uns := ty % 2 == 1
  let fm : Fmt := if ty = 2 then .f64 else .f32
  match op with
  | 0 => 0 | 4 => 0 | 5 => 0
  | 3 => 2 ^ w - 1
  | 1 => if uns then 2 ^ w - 1 else 2 ^ (w - 1) - 1
  | 2 => if uns then 0 else 2 ^ (w - 1)
  | 6 => fm.zeroBits true
  | 7 => fm.infSigned false
  | _ => fm.infSigned true

/-- The values of the active lanes after input flushing, with the flags of the flushing (R186). -/
def laneInputs (s : State) (x : Issue) (op ty : Nat) : List (Nat × FV) :=
  let fm : Fmt := if ty = 2 then .f64 else .f32
  x.act.map fun l => (l, if 6 ≤ op then fm.flushIn (ctlOf x) (rdA s x l) else (rdA s x l, 0))

/-- What `lred` gives every active lane (R186). -/
def lredVal (x : Issue) (s : State) (f : FWord) : FV :=
  let op := fmod f 0 4
  let ty := fmod f 4 2
  let node (a b : FV) : FV := let (y, fl) := laneNode op ty (ctlOf x) (Rnd.ofCode (fmod f 6 3)) a.1 b.1; (y, fl ||| a.2 ||| b.2)
  tree node (0, 0) ((laneInputs s x op ty).map (·.2))

/-- `lred` (R186). -/
def execLred (f : FWord) (s : State) := issue (.lred f) s fun x s => fpEnd x s (x.act.map fun l => (l, lredVal x s f))

/-- One lane of the left fold of R186: the lane, its value, the value before it, its node's flags and its input's. -/
structure ScanStep where
  lane : Nat
  val : Nat
  before : Nat
  nodeFl : FFlags
  inFl : FFlags
  deriving DecidableEq, Repr

/-- The left fold of R186 from a value. -/
def scanFrom (node : Nat → Nat → FRes) : Nat → List (Nat × FV) → List ScanStep
  | _, [] => []
  | y, (l, a, fl) :: t => let (z, g) := node y a; ⟨l, z, y, g, fl⟩ :: scanFrom node z t

/-- The exclusive results: each lane the value before its own, with the flags of the node that formed it. -/
def scanExc : FFlags → List ScanStep → List (Nat × FRes)
  | _, [] => []
  | g, p :: t => (p.lane, p.before, g ||| p.inFl) :: scanExc p.nodeFl t

/-- What `lscan` gives the active lanes (R186). -/
def lscanLanes (x : Issue) (s : State) (f : FWord) : List (Nat × FRes) :=
  let op := fmod f 0 4
  let ty := fmod f 4 2
  match laneInputs s x op ty with
  | [] => []
  | (l0, a0, fl0) :: t =>
    let rest := scanFrom (laneNode op ty (ctlOf x) (Rnd.ofCode (fmod f 6 3))) a0 t
    if fmod f 9 1 = 1 then (l0, laneIdentity op ty, fl0) :: scanExc 0 rest
    else (l0, a0, fl0) :: rest.map fun p => (p.lane, p.val, p.nodeFl ||| p.inFl)

/-- `lscan` (R186). -/
def execLscan (f : FWord) (s : State) := issue (.lscan f) s fun x s => fpEnd x s (lscanLanes x s f)

/-! ### P words (R17 to R19) -/

/-- The result of half a P word (R18, R19): the F instruction of the same mnemonic with RNE. -/
def phalfVal (o : POp) (ctl a b : Nat) : FRes :=
  let two (m : Fmt) (op : Nat → Nat → FRes) : FRes :=
    packElems (32 / m.width) m.width fun k =>
      let (ea, fa) := readElem m ctl false false k a
      let (eb, fb) := readElem m ctl false false k b
      let (y, fl) := op ea eb
      (y, fl ||| fa ||| fb)
  let add (m : Fmt) : FRes := two m fun p q => fpAdd m ctl .rne (m.decode p) (m.decode q)
  let mul (m : Fmt) : FRes := two m fun p q => fpMul m ctl .rne (m.decode p) (m.decode q)
  let mm (m : Fmt) (mx : Bool) : FRes := two m fun p q => fpMinMax m ctl mx false p q
  match o with
  | .iadd => (wrapI 32 (sextN 32 a + sextN 32 b), 0)
  | .isub => (wrapI 32 (sextN 32 a - sextN 32 b), 0)
  | .imul => (wrapI 32 (sextN 32 a * sextN 32 b), 0)
  | .imin => (wrapI 32 (min (sextN 32 a) (sextN 32 b)), 0)
  | .imax => (wrapI 32 (max (sextN 32 a) (sextN 32 b)), 0)
  | .nmin => (min a b, 0)
  | .nmax => (max a b, 0)
  | .and => (a &&& b, 0)
  | .or => (a ||| b, 0)
  | .xor => (a ^^^ b, 0)
  | .shl => (shlN 32 a b, 0)
  | .shr => (shrN 32 a b, 0)
  | .sar => (sarN 32 a b, 0)
  | .mov => (a, 0)
  | .not => (a ^^^ 0xFFFFFFFF, 0)
  | .fadd => add .f32
  | .fmul => mul .f32
  | .fmin => mm .f32 false
  | .fmax => mm .f32 true
  | .faddH => add .f16
  | .fmulH => mul .f16
  | .faddB => add .bf16
  | .fmulB => mul .bf16
  | .fminH => mm .f16 false
  | .fmaxH => mm .f16 true

/-- A half's results by lane served. -/
def phalfLanes (x : Issue) (h : PHalf) : List (Nat × FRes) :=
  x.served.map fun l => (l, phalfVal h.op (ctlOf x) (readV x.g l h.sa.toNat).toNat (readV x.g l h.sb.toNat).toNat)

/-- A P word (R18): both halves read before either writes; a trap of either half keeps both from writing, and half 0's is
reported where both raise one, with its lanes and flags alone. (DESIGN CHOICE: log 75) -/
def execPWord (p : PWord) (s : State) :=
  issue (.pWord p) s fun x s =>
    let r0 := phalfLanes x p.h0
    let r1 := phalfLanes x p.h1
    let fl (r : List (Nat × FRes)) : List (Nat × FFlags) := r.map fun q => (q.1, q.2.2)
    let s := modGroup s x.g.id (fun g => orFpstat g (allFlags (fl r0) ||| allFlags (fl r1)))
    let trapOf (r : List (Nat × FRes)) (half : Bool) : IRes :=
      let m := fpxLanes x.g (fl r)
      let c := allFlags ((fl r).filter (fun q => m.contains q.1)) &&& enabledFlags x.g
      .trap s { kind := kFPX, cause := c.toNat, mask := m, half := half }
    if fpxLanes x.g (fl r0) != [] then trapOf r0 false
    else if fpxLanes x.g (fl r1) != [] then trapOf r1 true
    else
      let wr (g : Group) (h : PHalf) (r : List (Nat × FRes)) : Group := writeDst g (.v h.dst) 1 (r.map fun q => (q.1, q.2.1))
      .done (modGroup s x.g.id (fun g => wr (wr g p.h0 r0) p.h1 r1)) []

end Sys2Proof.Machine
end

