-- ==== Sys2Proof/Machine/Access.lean ====
section
/-! DEFINITION. Addresses of memory instructions, their checks in the order of R136 and R302, local lines and windows (R95 to R99). -/
namespace Sys2Proof.Machine

/-- The spaces of R135. -/
inductive Space where
  | l | lp | g | c
  deriving DecidableEq, Repr

/-- The space of an SP code (R300, R307). -/
def spaceOf (n : Nat) : Space := match n with | 0 => .l | 1 => .lp | _ => .g

/-- Where a lane's access goes: an offset in a core's local memory, or a virtual address. -/
inductive Target where
  | loc (core off : Nat)
  | glob (va : Nat)
  deriving DecidableEq, Repr

/-- A lane's error: its kind, cause and data address. -/
structure LaneErr where
  kind : Nat
  cause : Nat
  daddr : Nat
  deriving DecidableEq, Repr

/-- Where an error stands in the order of R136 and R302. -/
def errRank (k : Nat) : Nat :=
  match k with | 4 => 0 | 3 => 1 | 6 => 2 | 5 => 3 | 8 => 4 | 15 => 5 | 7 => 6 | _ => 7

/-- The team of the same cluster with a rank (R135). -/
def peerTeam (s : State) (g : Group) (rank : Nat) : Option Team :=
  match teamOf s g, dispOf s g with
  | some t, some d => findTeam s g.disp (t.clid * dispClsize d + rank)
  | _, _ => none

/-- A packed peer address resolved for an access of some bytes (R104, R135). -/
def peerTarget (s : State) (g : Group) (a n : Nat) : Option Target :=
  let rank := fldN a 24 4
  let off := fldN a 0 19
  let cls := ((dispOf s g).map dispClsize).getD 0
  if 2 ^ 32 ≤ a ∨ fldN a 28 4 != 0 ∨ fldN a 19 5 != 0 ∨ cls ≤ rank then none
  else (peerTeam s g rank).bind (fun t =>
    if off + n ≤ 4096 * t.localG then some (.loc t.core (4096 * t.localBase + off)) else none)

/-- An own local offset resolved (R74, R135). -/
def localTarget (s : State) (g : Group) (a n : Nat) : Option Target :=
  match teamOf s g with
  | some t => if a + n ≤ g.segLocal.2.toNat then some (.loc g.core (4096 * t.localBase + g.segLocal.1.toNat + a)) else none
  | none => none

/-- A virtual address checked by R72 and `seg.glob` (R74). -/
def globTarget (g : Group) (a n : Nat) : Option Target :=
  if a < 2 ^ 64 && canonical a && decide (g.segGlob.1.toNat ≤ va57 a) && decide (va57 a + n ≤ g.segGlob.1.toNat + g.segGlob.2.toNat)
      && decide (va57 a + n ≤ 2 ^ 57) then
    some (.glob (va57 a))
  else none

/-- A constant-space offset checked by `seg.const` (R74). -/
def constTarget (g : Group) (a n : Nat) : Option Target :=
  if a + n ≤ g.segConst.2.toNat then some (.glob (va57 (g.segConst.1.toNat + a))) else none

/-- SEG of a space (R135): where the access goes, or nothing. -/
def resolve (s : State) (g : Group) (sp : Space) (a n : Nat) : Option Target :=
  match sp with
  | .l => localTarget s g a n
  | .lp => peerTarget s g a n
  | .g => globTarget g a n
  | .c => constTarget g a n

/-- ALIGN, SEG and LEASE of a lane's access, in that order (R136); leases bound global accesses (R82). For `ld.c` ALIGN tests the operand
offset, as it tests the operand address of every space. (DESIGN CHOICE: log 61) -/
def addrCheck (s : State) (g : Group) (sp : Space) (align n a : Nat) : Except LaneErr Target :=
  if a % align != 0 then .error ⟨kALIGN, 0, a⟩
  else
    match resolve s g sp a n with
    | none => .error ⟨kSEG, 0, a⟩
    | some (.loc c o) => .ok (.loc c o)
    | some (.glob va) =>
      match dispOf s g with
      | some d => if sp = .c || inLease d va n then .ok (.glob va) else .error ⟨kLEASE, 0, a⟩
      | none => .ok (.glob va)

/-! ### Errors of several lanes -/

/-- The first kind in the order of R136 that a lane raises, with every lane that raised it. -/
def firstErr (es : List (Nat × LaneErr)) : Option (LaneErr × List Nat) :=
  match es.foldl (fun m e => match m with
      | none => some e
      | some b => if errRank e.2.kind < errRank b.2.kind then some e else some b) (none : Option (Nat × LaneErr)) with
  | none => none
  | some e => some (e.2, (es.filter (fun x => x.2.kind == e.2.kind)).map (·.1))

/-- The same of errors that several checks found: the lanes in increasing order, each once, and the error of the lowest (R136). -/
def firstOfAll (es : List (Nat × LaneErr)) : Option (LaneErr × List Nat) :=
  (firstErr ((List.range 64).flatMap (fun l => es.filter (fun e => e.1 == l)))).map (fun r => (r.1, r.2.eraseDups))

/-- The address space of the group's dispatch. (DEDUCED: log 29) -/
def asidOf (s : State) (g : Group) : Nat := ((dispOf s g).map dispAsid).getD 0

/-- Errors of an access: a trap, a fault of the replayable regime, or the end of the group or task by LEASE (R82, R136). `asid` is the
address space of the access, 0 for a local one. -/
def raiseErr (s : State) (x : Issue) (acc asid : Nat) (e : LaneErr) (mask : List Nat) : IRes :=
  let lease := ((dispOf s x.g).map leased).getD false
  let end_ : IRes := .gone (endWith s x.g.id kLEASE x.pc (asidOf s x.g) acc mask (BitVec.ofNat 64 e.daddr))
  if e.kind = kLEASE then end_
  else if e.kind = kXLATE then
    (if lease then end_ else .replay s (asidOf s x.g) (BitVec.ofNat 64 e.daddr) e.cause acc mask)
  else .trap s { kind := e.kind, cause := e.cause, mask := mask, daddr := BitVec.ofNat 64 e.daddr, acc := acc, asid := asid }

/-! ### Windows (R98, R99) -/

/-- The window that covers an offset of a core's local memory, with its team. -/
def windowAt (s : State) (c off : Nat) : Option (Team × Window) :=
  (s.teams.filter (fun t => t.core == c && t.frame.isNone)).findSome? (fun t =>
    (t.windows.find? (fun w => decide (w.base ≤ off) && decide (off < w.base + w.len))).map (fun w => (t, w)))

/-- What a fill meets (R99). -/
inductive FillRes where
  | ok (s : State)
  | err (s : State) (e : LaneErr)
  | mig (s : State) (asid : Nat)

def modWindow (s : State) (disp teamid w : Nat) (f : Window → Window) : State :=
  modTeam s disp teamid (fun t => { t with windows := t.windows.map (fun x => if x.name = w then f x else x) })

/-- The map unit holds the translation of a page of a window (R86). -/
def holdPage (s : State) (t : Team) (w : Window) (va pa : Nat) : State :=
  modWindow s t.disp t.teamid w.name (fun x => { x with pages := (va / 65536, pa - va % 65536) :: x.pages.filter (fun e => e.1 != va / 65536) })

/-- The virtual address of a line of a window. -/
def windowVa (w : Window) (line : Nat) : Nat := va57 (w.va + (128 * line - w.base))

/-- An access of a core to global memory passes its die's sampler (R90). -/
def sampleCore (s : State) (p : Partition) (d : Dispatch) (c va ty : Nat) : State :=
  sampleAccess s (coreDie c) ⟨va, logicalCore s p c, ty, dispAsid d⟩

/-- An unfilled line filled: 128 bytes read at one moment, every byte not written since written into the line (R99). -/
def fillLine (s : State) (c line : Nat) : FillRes :=
  match windowAt s c (128 * line) with
  | none => .ok s
  | some (t, w) =>
    match findDisp s t.disp with
    | none => .ok s
    | some d =>
      let va := windowVa w line
      match translate s (ctxOn d c) va .read, dispPart s d with
      | (s, .fault k), _ => .err s ⟨kXLATE, k, va⟩
      | (s, .mig), _ => .mig s (dispAsid d)
      | (s, .rem), _ => .err s ⟨kREMERR, 0, va⟩
      | (s, _), none => .ok s
      | (s, .ok pa), some p =>
        let ps := placesOf p pa 128
        if !reachable s p (coreDie c) pa then .err s ⟨kREMERR, 0, va⟩
        else if badPlaces s ps then .err (noteBad s (memLocs ps)) ⟨kMEMERR, 0, va⟩
        else
          let m := (getLine s c line).mask
          let s := countTraffic s p (coreDie c) pa
          let s := correctPlaces (sampleCore (holdPage s t w va pa) p d c va 0) ps
          let s := modCore s c (fun k => { k with lmem := (List.range 128).foldl (fun t i =>
            if m.getLsbD i then t else Sparse.put 0 t (128 * line + i) (rdPlace s ((ps[i]?).getD 0))) k.lmem })
          .ok (modLine s c line (fun l => { l with win := if m = 0 then 2 else 3 }))

/-- Lines of a core's local memory made ready for an access: filled where a window's line is unfilled. -/
def fillLines (s : State) (c : Nat) : List Nat → FillRes
  | [] => .ok s
  | l :: ls =>
    if (getLine s c l).win = 1 then
      match fillLine s c l with
      | .ok s => fillLines s c ls
      | r => r
    else fillLines s c ls

/-- What the fills of some lines meet: the lines that failed, each with its error, and whether a mapping migrates. -/
structure FillAll where
  s : State
  errs : List ((Nat × Nat) × LaneErr)
  mig : Option Nat

/-- Lines of several cores made ready: every line is tried, so that an instruction reports the first kind (R136). -/
def fillAll (s : State) : List (Nat × Nat) → FillAll
  | [] => ⟨s, [], none⟩
  | (c, l) :: ls =>
    match fillLines s c [l] with
    | .ok s => fillAll s ls
    | .err s e => let r := fillAll s ls; { r with errs := ((c, l), e) :: r.errs }
    | .mig s a => let r := fillAll s ls; { r with mig := some a }

/-- A traversal that issued before a number has accesses of its stacks to a line still to make (R95, R250). -/
def stackHeld (s : State) (n c l : Nat) : Bool :=
  s.groups.any (fun g => g.core == c && (g.state == .run || g.state == .park || g.state == .fault)
    && (match g.rq with | some k => decide (k.stamp < n) && k.lines.contains l | none => false))

/-- A line holds an access that issued at a number (R95): an earlier engine write, for a store an earlier engine read too, or an earlier
traversal's stack. -/
def heldFor (s : State) (n : Nat) (store : Bool) (c l : Nat) : Bool :=
  s.cmds.any (fun x => !x.saved && decide (x.id < n) && (x.writes.contains (c, l) || (store && x.reads.contains (c, l)))) || stackHeld s n c l

/-- A line holds an access of a group that issues now (R95). -/
def lineHolds (s : State) (store : Bool) (c l : Nat) : Bool :=
  wpend s c l != 0 || (store && rpend s c l != 0) || stackHeld s s.nextId c l

/-! ### Checks beyond the address -/

/-- One lane's access after its checks: a place in local memory or a physical address with its places. -/
structure LaneOk where
  lane : Nat
  va : Nat
  /-- local: the core and offset -/
  loc : Option (Nat × Nat)
  pa : Nat
  place : Nat
  home : Nat
  deriving DecidableEq, Repr

/-- What the checks of every active lane give. -/
inductive ChkRes where
  | ok (s : State) (ls : List LaneOk)
  | stop (r : IRes)

/-- Translation, ATUNSUP and REMERR of one global access (R79, R298, R54). -/
def globCheck (s : State) (x : Issue) (write unsup : Bool) (va daddr : Nat) : State × Except (Option LaneErr) (Nat × Nat × Nat) :=
  match dispOf s x.g with
  | none => (s, .error (some ⟨kXLATE, 1, daddr⟩))
  | some d =>
    match translate s (ctxOn d x.g.core) va (if write then .write else .read), dispPart s d with
    | (s, .fault c), _ => (s, .error (some ⟨kXLATE, c, daddr⟩))
    | (s, .mig), _ => (s, .error none)
    | (s, .rem), _ => (s, .error (some ⟨kREMERR, 0, daddr⟩))
    | (s, _), none => (s, .error (some ⟨kXLATE, 1, daddr⟩))
    | (s, .ok pa), some p =>
      if unsup && paKind pa = 1 then (s, .error (some ⟨kATUNSUP, 0, daddr⟩))
      else if !reachable s p (dieOf x.g) pa then (s, .error (some ⟨kREMERR, 0, daddr⟩))
      else (s, .ok (pa, placeOf p pa, if paKind pa = 0 then homeSlice p pa else 0))

/-- MEMERR of a local access: a FAILED line, or uncorrectable data that it reads (R96, R397). -/
def localErr (s : State) (reads : Bool) (c off n daddr : Nat) : Option LaneErr :=
  if (linesOfRange off n).any (fun l => (getLine s c l).failed.isSome) then some ⟨kMEMERR, 1, daddr⟩
  else if reads && badLocal s c off n then some ⟨kMEMERR, 0, daddr⟩
  else none

/-- The failed command's kind and cause that a COPYFAIL record carries (R96, R385). -/
def copyFailExtra (s : State) (ts : List (Nat × Nat × Target)) (n : Nat) : Nat :=
  ((ts.findSome? (fun t => match t.2.2 with
    | .loc c off => (linesOfRange off n).findSome? (fun l => (getLine s c l).failed)
    | .glob _ => none)).map (·.1)).getD 0

/-- Global lanes translated in increasing order; every error is kept, the last migrating lane is remembered. -/
def globLanes (s : State) (x : Issue) (write unsup : Bool) :
    List (Nat × Nat × Target) → State × List LaneOk × List (Nat × LaneErr) × Bool
  | [] => (s, [], [], false)
  | (l, a, .loc c o) :: ts =>
    let (s, ok, es, m) := globLanes s x write unsup ts
    (s, ⟨l, a, some (c, o), 0, 0, 0⟩ :: ok, es, m)
  | (l, a, .glob va) :: ts =>
    match globCheck s x write unsup va a with
    | (s, .ok (pa, pl, h)) =>
      let (s, ok, es, m) := globLanes s x write unsup ts
      (s, ⟨l, va, none, pa, pl, h⟩ :: ok, es, m)
    | (s, .error (some e)) =>
      let (s, ok, es, m) := globLanes s x write unsup ts
      (s, ok, (l, e) :: es, m)
    | (s, .error none) =>
      let (s, ok, es, _) := globLanes s x write unsup ts
      (s, ok, es, true)

/-- The words of local memory that a lane's access touches. -/
def laneLocs (n : Nat) (k : LaneOk) : List ArrayLoc := match k.loc with | some (c, o) => lmemLocs c o n | none => []

/-- The checks of the lanes of an instruction, each given as lane and operand address, in the order of R136 and R302: ALIGN, SEG and
LEASE first; then local lines that hold the access, and window lines to fill; then translation and the rest. `acc` is the access type of
R385; `reads` and `write` say what the access does. -/
def checkLanes (s : State) (x : Issue) (sp : Space) (align n acc : Nat) (reads write unsup : Bool) (as : List (Nat × Nat)) : ChkRes :=
  let asid := if sp = .l ∨ sp = .lp then 0 else asidOf s x.g
  let rs := as.map (fun (l, a) => (l, a, addrCheck s x.g sp align n a))
  match firstErr (rs.filterMap (fun (l, _, r) => match r with | .error e => some (l, e) | .ok _ => none)) with
  | some (e, m) => .stop (raiseErr s x acc asid e m)
  | none =>
    let ts := rs.filterMap (fun (l, a, r) => match r with
      | .ok (.glob va) => some (l, (if sp = .c then va else a), Target.glob va)
      | .ok t => some (l, a, t)
      | .error _ => none)
    let lines := ts.flatMap (fun (_, _, t) => match t with | .loc c o => (linesOfRange o n).map (fun k => (c, k)) | .glob _ => [])
    match lines.find? (fun (c, k) => lineHolds s write c k) with
    | some (c, _) => .stop (.park s (.lines c ((lines.filter (fun e => e.1 == c)).map (·.2)).eraseDups write))
    | none =>
      let r := fillAll s lines.eraseDups
      let fes := ts.flatMap (fun (l, _, t) => match t with
        | .loc c o => (r.errs.filter (fun e => e.1.1 == c && (linesOfRange o n).contains e.1.2)).map (fun e => (l, e.2))
        | .glob _ => [])
      let (s, ok, es, mig) := globLanes r.s x write unsup ts
      let les := ok.filterMap (fun k => match k.loc with
        | some (c, o) => (localErr s reads c o n k.va).map (fun e => (k.lane, e))
        | none => none)
      match firstOfAll (fes ++ es ++ les) with
      | some (e, m) =>
        if e.kind = kMEMERR ∧ e.cause = 1 then
          .stop (.trap s { kind := kMEMERR, cause := 1, mask := m, daddr := BitVec.ofNat 64 e.daddr, acc := acc, asid := 0,
                           extra := BitVec.ofNat 64 (copyFailExtra s ts n) })
        else if fes.contains (m.headD 0, e) then .stop (raiseErr s x 1 (asidOf s x.g) e m)
        else .stop (raiseErr (if e.kind = kMEMERR then noteBad s (ok.flatMap (laneLocs n)) else s) x acc asid e m)
      | none =>
        match r.mig with
        | some a => .stop (.park s (.migration a))
        | none =>
          if mig then .stop (.park s (.migration (asidOf s x.g)))
          else .ok (if reads then correctLocs s (ok.flatMap (laneLocs n)) else s) ok

/-- The lanes whose requests receive an error reply of host memory or another device (R137, R410). -/
def lostLanes (s : State) (ls : List LaneOk) : List LaneOk × State :=
  ls.foldl (fun (l, s) k => if k.loc.isSome then (l, s) else let (lost, s) := errorReply s [k.pa]; (if lost then l ++ [k] else l, s)) ([], s)

/-- The trap of the lanes whose requests receive an error reply. -/
def lostTrap (s : State) (x : Issue) (acc : Nat) (k : LaneOk) (ks : List LaneOk) : IRes :=
  .trap s { kind := kREMERR, mask := (k :: ks).map (·.lane), daddr := BitVec.ofNat 64 k.va, acc := acc, asid := asidOf s x.g }

/-- The global lanes of an instruction pass the access sampler in increasing order (R90). (DEDUCED: log 33) -/
def sampleLanes (s : State) (x : Issue) (ty : Nat) (ls : List LaneOk) : State :=
  let lc := ((groupPart s x.g).map (fun p => logicalCore s p x.g.core)).getD 0
  ls.foldl (fun s k => if k.loc.isNone then sampleAccess s (dieOf x.g) ⟨k.va, lc, ty, asidOf s x.g⟩ else s) s

end Sys2Proof.Machine
end

