-- ==== Sys2Proof/Machine/LoadStore.lean ====
section
/-! DEFINITION. Registers, loads, stores, prefetch and segments (chapter 05, R75, R124 to R144). -/
namespace Sys2Proof.Machine

/-! ### Accesses of the lanes -/

/-- The operand address of each active lane: base + index + IMM × size, exactly (R135). -/
def laneAddrs (s : State) (x : Issue) (imm size : Nat) : List (Nat × Nat) := x.act.map (fun l => (l, rdA s x l + rdB s x l + imm * size))

/-- A new sequence number of an access. -/
def takeSeq (s : State) : Nat × State := (s.nextId, { s with nextId := s.nextId + 1 })

/-- The time of the reads that one source operand comes from in a lane (R312, case 7). -/
def opndTag (g : Group) (u : Use) (o : Opnd) (l : Nat) : Nat :=
  match u, o with
  | .src .., .b n => Sparse.get 0 g.tags (latTag l n.toNat)
  | .src w .., _ => tagOf g l o w
  | _, _ => 0

/-- The time of the reads that a lane's address is computed from: base and index of a load, the base of an atomic (R312, case 7). -/
def addrTag (x : Issue) (l : Nat) : Nat :=
  if x.g.tags = [] then 0
  else match frameOf x.i with
    | .f _ f => max (opndTag x.g (sigOf x.i).sa f.sa l) (opndTag x.g (sigOf x.i).sb f.sb l)
    | .x _ y => opndTag x.g (sigOf x.i).sa y.sa l
    | _ => 0

/-- The lanes' accesses as a flight carries them. -/
def laneAccs (x : Issue) (ls : List LaneOk) : List LaneAcc := ls.map (fun k => ⟨k.lane, k.place, k.pa, k.va, k.home, addrTag x k.lane⟩)

/-- The domain generation that a request of the group carries (R63). -/
def genOf (s : State) (g : Group) : Nat := ((groupPart s g).map (·.gen)).getD 0

/-- A load or atomic leaves issue (R419, R317). -/
def launchFlight (s : State) (x : Issue) (op : FlightOp) (size words : Nat) (signed : Bool) (dst : Option Opnd) (ls : List LaneOk)
    (rel : Bool) : State :=
  let (q, s) := takeSeq s
  let f : Flight := ⟨q, x.pc, op, size, signed, dst, words, laneAccs x ls, genOf s x.g, ls.map (·.lane), [], [], [], [], rel⟩
  modGroup s x.g.id (fun g => { g with flights := g.flights ++ [f] })

/-- The values that a local load reads, extended to the destination (R137). -/
def localLoad (s : State) (ls : List LaneOk) (size words : Nat) (signed : Bool) : List (Nat × Nat) :=
  ls.map (fun k => match k.loc with
    | some (c, o) =>
      let v := rdLocalNum s c o size
      (k.lane, if signed then wrapI (32 * words) (sextN (8 * size) v) else v)
    | none => (k.lane, 0))

/-- The times at which the lanes' local reads are made: not before what their addresses come from, nor before the latest write of their bytes. -/
def localTimes (s : State) (x : Issue) (ls : List LaneOk) (size : Nat) : List (Nat × Nat) :=
  ls.map (fun k => (k.lane, match k.loc with
    | some (c, o) => max (max x.g.floor (addrTag x k.lane)) (lastWrite s ((List.range size).map (fun i => lmemKey c (o + i))))
    | none => 0))

/-- The values of local reads written to the destination with the times of the reads (R137, R312). -/
def localDone (s : State) (x : Issue) (vals times : List (Nat × Nat)) : State :=
  let s := modGroup s x.g.id (fun g =>
    match dstOf x.i with | some (o, w) => setTags (writeDst g o w vals) o w times | none => g)
  noteRead s x.g.id (times.foldl (fun m e => max m e.2) 0)

/-- A lane's store accepted (R139, R310). -/
def pendStore (s : State) (x : Issue) (k : LaneOk) (size : Nat) (bs : List Byte) (red : Option (AtomOp × AtomTy × DWord × DWord))
    (rel : Bool) : State :=
  let (q, s) := takeSeq s
  let w : PendStore := ⟨q, BitVec.ofNat 64 k.va, k.pa, k.home, genOf s x.g, size, k.place, bs.mapIdx (fun i b => (k.place + i, b)), red, rel⟩
  modGroup s x.g.id (fun g => { g with stores := g.stores ++ [w] })

/-- The lanes' stores, in increasing lane order (R138): local ones are performed, once what comes before them is (R312), global ones
accepted. -/
def storeLanes (s : State) (x : Issue) (size : Nat) (ls : List LaneOk) (data : Nat → Nat) (rel : Bool) : State :=
  ls.foldl (fun s k =>
    let bs := leBytes size (data k.lane)
    match k.loc with
    | some (c, o) => wrLocal s c o bs
    | none => pendStore s x k size bs none rel) (if ls.any (fun k => k.loc.isSome) then drainForWrite s x.g.id else s)

/-- A load of any space (R137): local ones complete at issue, the others leave in flight. -/
def loadOp (x : Issue) (s : State) (sp : Space) (f : FWord) : IRes :=
  let w := fmod f 0 3
  let n := widSize w
  match checkLanes s x sp n n 1 true false false (laneAddrs s x (fmod f 5 5) n) with
  | .stop r => r
  | .ok s ls =>
    if sp = .l ∨ sp = .lp then
      .done (localDone s x (localLoad s ls n (widWords w) (widSigned w)) (localTimes s x ls n)) []
    else .done (launchFlight (sampleLanes s x 0 ls) x (if sp = .c then .loadc else .load) n (widWords w) (widSigned w) ((dstOf x.i).map (·.1)) ls false) []

/-- A store of any space (R138). -/
def storeOp (x : Issue) (s : State) (sp : Space) (f : FWord) : IRes :=
  let n := widSize (fmod f 0 3)
  match checkLanes s x sp n n 2 false true false (laneAddrs s x (fmod f 5 5) n) with
  | .stop r => r
  | .ok s ls => .done (storeLanes (sampleLanes s x 1 ls) x n ls (rdC s x) false) []

/-- An instruction with no active lane performs nothing (R14). -/
def anyLane (x : Issue) (s : State) (r : IRes) : IRes := if x.act.isEmpty then .done s [] else r

/-- `ld.l`, `ld.lp`, `ld.g` and `ld.c` (R133, R137). -/
def execLdL (f : FWord) (s : State) := issue (.ldL f) s fun x s => anyLane x s (loadOp x s .l f)
def execLdLp (f : FWord) (s : State) := issue (.ldLp f) s fun x s => anyLane x s (loadOp x s .lp f)
def execLdG (f : FWord) (s : State) := issue (.ldG f) s fun x s => anyLane x s (loadOp x s .g f)
def execLdC (f : FWord) (s : State) := issue (.ldC f) s fun x s => anyLane x s (loadOp x s .c f)
/-- `st.l`, `st.lp` and `st.g` (R133, R138). -/
def execStL (f : FWord) (s : State) := issue (.stL f) s fun x s => anyLane x s (storeOp x s .l f)
def execStLp (f : FWord) (s : State) := issue (.stLp f) s fun x s => anyLane x s (storeOp x s .lp f)
def execStG (f : FWord) (s : State) := issue (.stG f) s fun x s => anyLane x s (storeOp x s .g f)

/-! ### Prefetch -/

/-- The 128-byte line of an address copied into the L1 of a core; nothing where the address has no leaf (R144). (DEDUCED: log 33) -/
def prefetchLine (s : State) (x : Issue) (va : Nat) : State :=
  match dispOf s x.g, groupPart s x.g with
  | some d, some p =>
    match cachedWalk s p (ctxOn d x.g.core) va with
    | .leaf l e _ =>
      let pa := alignDown (pteAddr e + va % 2 ^ levelLo l) 128
      let ps := placesOf p pa 128
      if validPa s p pa && reachable s p (dieOf x.g) pa && !badPlaces s ps then
        modCore s x.g.core (fun k => { k with l1 := fillCopies s 0 ps k.l1 })
      else s
    | _ => s
  | _, _ => s

/-- `prf` (R144): a failing lane is dropped; `.l1` fetches the line into L1, and `.slc` changes only timing. The checks of R135 and R136 are those
of an access of one byte. (DESIGN CHOICE: log 60) -/
def execPrf (f : FWord) (s : State) :=
  issue (.prf f) s fun x s =>
    let sp : Space := if fmod f 0 1 = 0 then .g else .c
    .done ((laneAddrs s x (fmod f 5 5) 16).foldl (fun s (_, a) =>
      match addrCheck s x.g sp 1 1 a with
      | .ok (.glob va) => if fmod f 1 2 = 0 then prefetchLine s x va else s
      | _ => s) s) []

/-! ### Register blocks (R124 to R130) -/

/-- Two groups of one core and sector whose column runs share a column. -/
def colsOverlap (g h : Group) : Bool := g.core == h.core && g.sector == h.sector && overlap g.col g.width h.col h.width

/-- A group that occupies its sector. -/
def occupies (g : Group) : Bool := !(g.state == .saved || g.state == .exit || g.state == .retired)

/-- The blocks of a column run that no group holds, by number: block b stands for rows 8b to 8b + 7 (R124). -/
def freeBlocks (s : State) (g : Group) : List Nat :=
  let held := (s.groups.filter (fun h => h.id != g.id && occupies h && colsOverlap g h)).flatMap (·.blocks)
  (List.range 64).filter (fun b => !held.contains b && !g.blocks.contains b)

/-- The groups parked in `rgrow` before a group on a run that overlaps its own (R130). -/
def olderGrowers (s : State) (g : Group) : List Nat :=
  match findCore s g.core with
  | none => []
  | some k => (k.growers.takeWhile (· != g.id)).filter (fun i => match findGroup s i with | some h => colsOverlap g h | none => false)

/-- Blocks that a group may take now (R128, R130). -/
def growBlocks (s : State) (g : Group) (n : Nat) : Option (List Nat) :=
  let fr := freeBlocks s g
  let k := n - g.blocks.length
  if k ≤ fr.length ∧ olderGrowers s g = [] then some (fr.take k) else none

/-- A group's registers at or above a count of blocks given up (R129). -/
def shrinkTo (g : Group) (n : Nat) : Group := { g with blocks := g.blocks.take n, v := g.v.filter (fun e => e.1 % 256 < 8 * n) }

/-- Blocks granted to a group: every register in them is zero in every lane (R128). -/
def growTo (g : Group) (bs : List Nat) : Group := { g with blocks := g.blocks ++ bs, v := g.v.filter (fun e => e.1 % 256 < allocRegs g) }

/-- The errors of a group's registers from a number up go with their rows, or with the zeros written there (R129, R397). -/
def dropRegs (s : State) (gid n : Nat) : State :=
  let keep (b : ArrayLoc) : Bool := match b with | .reg g _ r => !(g == gid && decide (n ≤ r)) | _ => true
  { s with badWords := s.badWords.filter keep, corrWords := s.corrWords.filter keep }

/-- A group gives up the blocks from a count up (R129). -/
def shrinkGroup (s : State) (gid n : Nat) : State := dropRegs (modGroup s gid (fun g => shrinkTo g n)) gid (8 * n)

/-- A group takes blocks (R128). -/
def growGroup (s : State) (gid : Nat) (bs : List Nat) : State :=
  dropRegs (modGroup s gid (fun g => growTo g bs)) gid (((findGroup s gid).map allocRegs).getD 0)

/-- A group joins its core's requests to grow, unless it stands there (R130). -/
def joinGrowers (s : State) (g : Group) : State :=
  modCore s g.core (fun k => if k.growers.contains g.id then k else { k with growers := k.growers ++ [g.id] })

/-- REGRANGE with subcause COUNT (R128). (DEDUCED: log 19) -/
def countTrap (x : Issue) (s : State) : IRes := .trap s { kind := kREGRANGE, cause := 1, mask := lanesAt x.g x.pc }

/-- `rgrow` (R128): granted at once, refused with TRY, or parked until RGROW_GRANT. -/
def execRgrow (f : FWord) (s : State) :=
  issue (.rgrow f) s fun x s => groupWide x s fun s =>
    let n := rdA s x x.lead
    let b := x.g.blocks.length
    let fin (s : State) (ok : Bool) (v : Nat) : IRes :=
      .done (modGroup s x.g.id (fun g => putPreds (putDst g x.i (allLanes x v)) (fmod f 0 3) (x.act.map (fun l => (l, ok))))) []
    if n = 0 ∨ 32 < n then countTrap x s
    else if n ≤ b then fin s true b
    else
      match growBlocks s x.g n with
      | some bs => fin (growGroup s x.g.id bs) true n
      | none =>
        if fmod f 3 1 = 1 then fin s false b
        else .parkDone (joinGrowers s x.g) (.rgrow n)

/-- A parked request is granted (R130): the group takes its blocks and its instruction completes (R128). -/
def execRgrowGrant (grp : Nat) (s : State) :=
  event (fun s =>
    match findGroup s grp with
    | none => s
    | some g =>
      match g.state, g.wait with
      | .park, .rgrow n =>
        match growBlocks s g n with
        | some bs =>
          releaseGroup (leaveGrowers (growGroup s grp bs) g) grp n
        | none => s
      | _, _ => s) s


/-- `rshrink` (R129): pending writes of the blocks given up are waited for. -/
def execRshrink (f : FWord) (s : State) :=
  issue (.rshrink f) s fun x s => groupWide x s fun s =>
    let n := rdA s x x.lead
    let b := x.g.blocks.length
    if n = 0 ∨ 32 < n then countTrap x s
    else if (match dstOf x.i with | some (.v r, _) => decide (n < b) && decide (8 * n ≤ r.toNat) | _ => false) then
      .trap s { kind := kREGRANGE, mask := lanesAt x.g x.pc }
    else
      let s := if n < b then shrinkGroup (drainGroup s x.g.id) x.g.id n else s
      .done (modGroup s x.g.id (fun g =>
        putPreds (putDst g x.i (allLanes x (min n b))) (fmod f 0 3) (x.act.map (fun l => (l, decide (n < b)))))) []

/-! ### Segments -/

/-- `segld` (R75). -/
def execSegld (f : FWord) (s : State) :=
  issue (.segld f) s fun x s => groupWide x s fun s =>
    let b := rdA s x x.lead
    let m := rdB s x x.lead
    let run := ((teamOf s x.g).map (·.localG)).getD 0 * 4096
    let v : DWord × DWord := (BitVec.ofNat 64 b, BitVec.ofNat 64 m)
    let bad : IRes := .trap s { kind := kSEG, mask := x.act }
    match fmod f 0 2 with
    | 0 => if b % 4096 != 0 ∨ run < b + m then bad else .done (modGroup s x.g.id (fun g => { g with segLocal := v })) []
    | 1 => if 2 ^ 57 < b + m then bad else .done (modGroup s x.g.id (fun g => { g with segConst := v })) []
    | _ => if 2 ^ 57 < b + m then bad else .done (modGroup s x.g.id (fun g => { g with segGlob := v })) []

end Sys2Proof.Machine
end

