-- ==== Sys2Proof/Machine/Atomics.lean ====
section
/-! DEFINITION. Atomics, deterministic reduction objects, relaxed atomic, acquire and release accesses, fences (chapter 14). -/
namespace Sys2Proof.Machine

/-- The lanes that a group-wide release reports: the active ones, or those served where none is active. -/
def relMask (x : Issue) : List Nat := if x.act.isEmpty then x.served else x.act

/-- ORD (R300): the read is an acquire, the write is a release. -/
def ordAcq (o : Nat) : Bool := o == 1 || o == 3
def ordRel (o : Nat) : Bool := o == 2 || o == 3

/-- A release comes first where an instruction is one (R139, R308). -/
def relIf (b : Bool) (x : Issue) (s : State) (k : State → IRes) : IRes := if b then withRelease x s (relMask x) k else k s

/-- The operations that the host home agent does not accept (R298). -/
def hostUnsup (o : AtomOp) : Bool := match o with | .inc | .dec | .fadd | .fmin | .fmax => true | _ => false

/-- The base addresses of the active lanes (R300). -/
def baseAddrs (s : State) (x : Issue) : List (Nat × Nat) := x.act.map (fun l => (l, rdA s x l))

/-- One atomic on local memory: the old value (R95, R302). -/
def localAtom (s : State) (c off : Nat) (o : AtomOp) (t : AtomTy) (b v : Nat) : Nat × State :=
  let old := rdLocalNum s c off (atomBytes t)
  match atomNew o t old b v with
  | some x => (old, wrLocal s c off (leBytes (atomBytes t) x))
  | none => (old, s)

/-- The lanes' atomics on local memory, in increasing lane order. (DEDUCED: log 29) -/
def localAtoms (s : State) (o : AtomOp) (t : AtomTy) (b c : Nat → Nat) : List LaneOk → State × List (Nat × Nat)
  | [] => (s, [])
  | k :: ks =>
    match k.loc with
    | some (co, off) =>
      let (old, s) := localAtom s co off o t (b k.lane) (c k.lane)
      let (s, r) := localAtoms s o t b c ks
      (s, (k.lane, old) :: r)
    | none => localAtoms s o t b c ks

/-- The end of local atomics: DST takes the old values, read now; one that is an acquire completes (R308). -/
def localEnd (acq : Bool) (x : Issue) (s : State) (vals : List (Nat × Nat)) : State :=
  let s := touchRead (localDone s x vals (vals.map (fun v => (v.1, s.memSeq)))) x.g.id
  if acq then acquireNow s x.g.id else s

/-- `atom` and `red` (R302). -/
def atomOp (x : Issue) (s : State) (y : XWord) (red : Bool) : IRes :=
  match xAtomOp y, xAtomTy y with
  | some o, some t =>
    let sp := spaceOf (xmod y 0 2)
    let ord := xmod y 9 2
    let n := atomBytes t
    anyLane x s (relIf (ordRel ord) x s fun s =>
      match checkLanes s x sp n n 3 true true (hostUnsup o) (baseAddrs s x) with
      | .stop r => r
      | .ok s ls =>
        if sp != .g then
          let (s, vs) := localAtoms (drainForWrite s x.g.id) o t (rdB s x) (rdC s x) ls
          .done (if red then touchRead s x.g.id else localEnd (ordAcq ord) x s vs) []
        else
          let s := sampleLanes s x 2 ls
          if red then
            .done (ls.foldl (fun s k => pendStore s x k n [] (some (o, t, BitVec.ofNat 64 (rdB s x k.lane), BitVec.ofNat 64 (rdC s x k.lane))) (ordRel ord)) s) []
          else
            .done (launchFlight s x
              (.atom o t (ordAcq ord) (x.act.map fun l => (l, rdB s x l)) (x.act.map fun l => (l, rdC s x l)))
              n (atomTyWords t) false ((dstOf x.i).map (·.1)) ls (ordRel ord)) [])
  | _, _ => .done s []

def execAtom (y : XWord) (s : State) := issue (.atom y) s fun x s => atomOp x s y false
def execRed (y : XWord) (s : State) := issue (.red y) s fun x s => atomOp x s y true

/-- `atom.agg` (R303): one atomic at the address of the lowest active lane. -/
def execAtomAgg (y : XWord) (s : State) :=
  issue (.atomAgg y) s fun x s =>
    match xAtomOp y, xAtomTy y with
    | some o, some t =>
      let sp := spaceOf (xmod y 0 2)
      let ord := xmod y 9 2
      let n := atomBytes t
      let bs := x.act.map fun l => (l, rdB s x l)
      anyLane x s (relIf (ordRel ord) x s fun s =>
        match checkLanes s x sp n n 3 true true false ((baseAddrs s x).take 1) with
        | .stop r => r
        | .ok s ls =>
          match ls, bs with
          | k :: _, b :: rest =>
            (match k.loc with
            | some (c, off) =>
              let (old, s) := localAtom (drainForWrite s x.g.id) c off o t (aggFold o t b.2 (rest.map (·.2))) 0
              .done (localEnd (ordAcq ord) x s (aggReturns o t old bs)) []
            | none =>
              .done (launchFlight (sampleLanes s x 2 ls) x (.agg o t (ordAcq ord) bs) n (atomTyWords t) false
                ((dstOf x.i).map (·.1)) ls (ordRel ord)) [])
          | _, _ => .done s [])
    | _, _ => .done s []

/-! ### Relaxed atomic, acquire and release accesses (R307) -/

/-- `ldx` and `ld.acq`. -/
def ldxOp (x : Issue) (s : State) (f : FWord) (acq : Bool) : IRes :=
  let sp := spaceOf (fmod f 3 2)
  let n := widSize (fmod f 0 3)
  anyLane x s (match checkLanes s x sp n n 1 true false false (laneAddrs s x (fmod f 5 5) n) with
  | .stop r => r
  | .ok s ls =>
    if sp != .g then
      let s := localDone s x (localLoad s ls n (widWords (fmod f 0 3)) false) (localTimes s x ls n)
      .done (if acq then acquireNow s x.g.id else s) []
    else
      .done (launchFlight (sampleLanes s x 0 ls) x (.loadx acq) n (widWords (fmod f 0 3)) false ((dstOf x.i).map (·.1)) ls false) [])

/-- `stx` and `st.rel`. -/
def stxOp (x : Issue) (s : State) (f : FWord) (rel : Bool) : IRes :=
  let sp := spaceOf (fmod f 3 2)
  let n := widSize (fmod f 0 3)
  anyLane x s (relIf rel x s fun s =>
    match checkLanes s x sp n n 2 false true false (laneAddrs s x (fmod f 5 5) n) with
    | .stop r => r
    | .ok s ls => .done (storeLanes (sampleLanes s x 1 ls) x n ls (rdC s x) rel) [])

def execLdx (f : FWord) (s : State) := issue (.ldx f) s fun x s => ldxOp x s f false
def execStx (f : FWord) (s : State) := issue (.stx f) s fun x s => stxOp x s f false
def execLdAcq (f : FWord) (s : State) := issue (.ldAcq f) s fun x s => ldxOp x s f true
def execStRel (f : FWord) (s : State) := issue (.stRel f) s fun x s => stxOp x s f true

/-! ### Fences (R309) -/

/-- `fence.acq`: earlier reads are performed, and the L1 loses its unowned copies. -/
def execFenceAcq (f : FWord) (s : State) := issue (.fenceAcq f) s fun x s => .done (acquireNow (drainReads s x.g.id) x.g.id) []

/-- What `fence.rel` leaves (R309): every earlier access is performed now, or, where the schedule says so and none of them meets an error that the
fence would raise (R139), before the group's next write, with their acknowledgements at hand; it orders no later read. (DESIGN CHOICE: log 3) -/
def relPoint (s : State) (gid : Nat) : State :=
  let (o, s) := drawOracle s
  let t := drainGroup s gid
  if o = 0 || ((findGroup t gid).map (fun g => g.storeErr.isSome)).getD true
      || ((findGroup s gid).map (fun g => g.stores.any (fun w => w.red.isSome))).getD true then t
  else modGroup s gid (fun g => { g with relFence := s.nextId })

/-- `fence.rel`. -/
def execFenceRel (f : FWord) (s : State) :=
  issue (.fenceRel f) s fun x s => reportStore x (relPoint s x.g.id) (relMask x) fun s => .done s []
/-- `fence.ar`. -/
def execFenceAr (f : FWord) (s : State) :=
  issue (.fenceAr f) s fun x s => withRelease x s (relMask x) fun s => .done (acquireNow s x.g.id) []

/-! ### Deterministic reduction objects (R304 to R306) -/

/-- The bits of a value of a reduction object (R304). -/
def droBits (t : Nat) : Nat := 32 * droWords t

/-- A node of the reduction tree: float sums rounded to nearest even without flushing, a NaN the default NaN; integer sums wrap. -/
def droNode (t a b : Nat) : Nat :=
  if t < 2 then
    let f : Fmt := if t = 1 then .f64 else .f32
    let r := (fpAdd f 0 .rne (f.decode a) (f.decode b)).1
    if (f.decode r).isNan then f.nanBits else r
  else (a + b) % 2 ^ droBits t

/-- FLAGS of an object. -/
def droFlags (s : State) (p : Partition) (a : Nat) : Nat := rdPaNum s p (a + 5) 1

/-- An object's header admits updates of a type (R305). -/
def droHeaderOk (s : State) (p : Partition) (a t : Nat) : Bool :=
  let cap := rdPaNum s p a 4
  let res := (rdPa s p (a + 6) 2 ++ rdPa s p (a + 12) 4 ++ rdPa s p (a + 24) 40).any (· != 0)
  (droFlags s p a).testBit 0 && rdPaNum s p (a + 4) 1 == t && cap != 0 && decide (cap ≤ 2 ^ 20) && !res

/-- One lane's update of an object: its header's VA and physical address, the pages translated, the value and the index. -/
structure DroUpd where
  lane : Nat
  va : Nat
  pa : Nat
  tab : PageTab
  val : Nat
  idx : Nat

/-- The number of bytes at an offset of an object, and bytes written there, each through its page (R304). -/
def droNum (s : State) (p : Partition) (u : DroUpd) (off n : Nat) : Nat := rdNum s (placesVia p u.tab (u.va + off) n)
def droPut (s : State) (p : Partition) (u : DroUpd) (off n x : Nat) : State :=
  wrCoherent s ((placesVia p u.tab (u.va + off) n).zip (leBytes n x))

/-- One update of an object: the status (R305). (DEDUCED: log 18) -/
def droUpdate (s : State) (p : Partition) (u : DroUpd) (t : Nat) : Nat × State :=
  let cap := rdPaNum s p u.pa 4
  let fl := droFlags s p u.pa
  if !droHeaderOk s p u.pa t then (3, s)
  else if fl.testBit 1 then (4, s)
  else if cap ≤ u.idx then (2, droPut s p u 5 1 (fl ||| 8))
  else
    let pm := 64 + 8 * cap + u.idx / 8
    let s := correctLocs s (memLocs (placesVia p u.tab (u.va + pm) 1))
    let pb := droNum s p u pm 1
    if pb.testBit (u.idx % 8) then (1, droPut s p u 5 1 (fl ||| 4))
    else
      let n := 4 * droWords t
      let s := droPut (droPut s p u (64 + 8 * u.idx) n u.val) p u pm 1 (pb ||| 2 ^ (u.idx % 8))
      let cnt := (droNum s p u 8 4 + 1) % 2 ^ 32
      let s := droPut s p u 8 4 cnt
      if cnt = cap then
        let s := correctLocs s (memLocs (placesVia p u.tab (u.va + 64) (8 * cap)))
        let xs := (List.range cap).map (fun i => droNum s p u (64 + 8 * i) n)
        (0, droPut (droPut s p u 16 n (tree (droNode t) 0 xs)) p u 5 1 (fl ||| 2))
      else (0, s)

/-- The checks of a DRO instruction's headers (R305, R306): 64-byte alignment first, host memory unsupported; what overlaps them has been
performed. (DEDUCED: log 14) -/
def droCheck (x : Issue) (s : State) (write : Bool) (k : State → Partition → List LaneOk → IRes) : IRes :=
  match checkLanes s x .g 64 64 3 true write true (baseAddrs s x) with
  | .stop r => r
  | .ok s ls =>
    match groupPart s x.g with
    | none => .done s []
    | some p =>
      let s := settleSlots (drainOver s x.g.id (ls.map (fun k => (k.place, 64)))) p (ls.map (·.pa))
      match lostLanes s ls with
      | (k :: ks, s) => lostTrap s x 3 k ks
      | ([], s) =>
      match ls.filter (fun k => badPlaces s (placesOf p k.pa 64)) with
      | b :: bs =>
        .trap (noteBad s (ls.flatMap (fun k => memLocs (placesOf p k.pa 64))))
          { kind := kMEMERR, mask := (b :: bs).map (·.lane), daddr := BitVec.ofNat 64 b.va, acc := 3, asid := asidOf s x.g }
      | [] => k (ls.foldl (fun s k => correctPlaces s (placesOf p k.pa 64)) s) p ls

/-- The runs of an object that an update reaches beyond its header: its contribution, its presence bit, and where it may be the last one every
contribution (R304, R305). `n` lanes update objects. (DEDUCED: log 18) -/
def droRuns (s : State) (p : Partition) (pa t idx n : Nat) : List (Nat × Nat) :=
  let cap := rdPaNum s p pa 4
  if !droHeaderOk s p pa t || (droFlags s p pa).testBit 1 || decide (cap ≤ idx) then []
  else
    [(64 + 8 * idx, 4 * droWords t), (64 + 8 * cap + idx / 8, 1)]
      ++ (if cap ≤ rdPaNum s p (pa + 8) 4 + n then [(64, 8 * cap)] else [])

/-- The pages of some runs of an object translated and checked as R302 says; none where a mapping migrates. (DEDUCED: log 18) -/
def droPages (s : State) (x : Issue) (va : Nat) : List Nat → PageTab → State × Except (Option LaneErr) PageTab
  | [], t => (s, .ok t)
  | a :: as, t =>
    if (globTarget x.g a 1).isNone then (s, .error (some ⟨kSEG, 0, va⟩))
    else if !((dispOf s x.g).map (fun d => inLease d a 1)).getD true then (s, .error (some ⟨kLEASE, 0, va⟩))
    else
      match globCheck s x true true a va with
      | (s, .ok (pa, _, _)) => droPages s x va as (t ++ [(a / 65536, pa - a % 65536)])
      | (s, .error e) => (s, .error e)

/-- Every lane's update with its pages, the errors of the lanes that have one, and whether a mapping migrates. -/
def droLanes (s : State) (x : Issue) (p : Partition) (t : Nat) : List LaneOk → State × List DroUpd × List (Nat × LaneErr) × Bool
  | [] => (s, [], [], false)
  | k :: ks =>
    let idx := rdC s x k.lane
    let pages := ((droRuns s p k.pa t idx x.act.length).flatMap (fun r => (pagesOf (k.va + r.1) r.2))).filter (fun a => a / 65536 != k.va / 65536)
    let r := droPages s x k.va pages [(k.va / 65536, k.pa - k.va % 65536)]
    let (s, us, es, m) := droLanes r.1 x p t ks
    match r.2 with
    | .ok tab => (s, ⟨k.lane, k.va, k.pa, tab, rdB s x k.lane, idx⟩ :: us, es, m)
    | .error (some e) => (s, us, (k.lane, e) :: es, m)
    | .error none => (s, us, es, true)

/-- The words that an update consumes beyond its header: its presence byte, and where it completes the object every contribution, but for the
whole word that the update itself writes (R305, R397). -/
def droReads (s : State) (p : Partition) (t : Nat) (u : DroUpd) : List ArrayLoc :=
  let cap := rdPaNum s p u.pa 4
  if !droHeaderOk s p u.pa t || (droFlags s p u.pa).testBit 1 || decide (cap ≤ u.idx) then []
  else
    let locs (off n : Nat) : List ArrayLoc := memLocs (placesVia p u.tab (u.va + off) n)
    let pm := 64 + 8 * cap + u.idx / 8
    locs pm 1 ++ (if (droNum s p u pm 1).testBit (u.idx % 8) || (droNum s p u 8 4 + 1) % 2 ^ 32 != cap then []
      else (locs 64 (8 * cap)).filter (fun a => droWords t != 2 || !(locs (64 + 8 * u.idx) 8).contains a))

/-- The updates in increasing order, on what those before them leave: the words that one consumes and that are uncorrectable (R302, R397). -/
def droBads (p : Partition) (t : Nat) : List DroUpd → State → List (DroUpd × List ArrayLoc)
  | [], _ => []
  | u :: us, s =>
    let b := (droReads s p t u).filter s.badWords.contains
    (if b = [] then [] else [(u, b)]) ++ droBads p t us (droUpdate s p u t).2

/-- `dro.add` (R305): one indivisible update for each active lane, in increasing order; each a release of the group. (DEDUCED: log 18) -/
def execDroAdd (y : XWord) (s : State) :=
  issue (.droAdd y) s fun x s => anyLane x s (withRelease x s x.act fun s =>
    droCheck x s true fun s p ls =>
      let t := xmod y 0 2
      let (s, us, es, mig) := droLanes s x p t ls
      let bad := if s.badWords = [] then [] else droBads p t us s
      match firstOfAll (es ++ bad.map (fun u => (u.1.lane, ⟨kMEMERR, 0, u.1.va⟩))) with
      | some (e, m) => raiseErr (bad.foldl (fun s u => noteBad s u.2) s) x 3 (asidOf s x.g) e m
      | none =>
        if mig then .park s (.migration (asidOf s x.g))
        else
          let s := settleSlots (sampleLanes s x 2 ls) p (us.flatMap (fun u =>
            ((0, 64) :: droRuns s p u.pa t u.idx x.act.length).flatMap (fun r => blocksVia u.tab (u.va + r.1) r.2)))
          let (s, vs) := us.foldl (fun (s, vs) u => let (st, s) := droUpdate s p u t; (s, vs ++ [(u.lane, st)])) (s, ([] : List (Nat × Nat)))
          .done (touchRead (modGroup s x.g.id (fun g => putDst g x.i vs)) x.g.id) [])

/-- `dro.get` (R306): RESULT once every object is FULL; until then the group parks. -/
def execDroGet (y : XWord) (s : State) :=
  issue (.droGet y) s fun x s => anyLane x s (
    droCheck x s false fun s p ls =>
      let t := xmod y 0 2
      match ls.filter (fun k => !(droFlags s p k.pa).testBit 0 || rdPaNum s p (k.pa + 4) 1 != t) with
      | b :: bs => .trap s { kind := kBARERR, cause := 5, mask := (b :: bs).map (·.lane) }
      | [] =>
        match ls.filter (fun k => !(droFlags s p k.pa).testBit 1) with
        | _ :: _ => .park s (.dro (ls.map (·.place)))
        | [] =>
          .done (acquireNow (modGroup s x.g.id (fun g =>
            putDst g x.i (ls.map fun k => (k.lane, rdPaNum s p (k.pa + 16) (4 * droWords t))))) x.g.id) [])

end Sys2Proof.Machine
end

