-- ==== Sys2Proof/Machine/Sync.lean ====
section
/-! DEFINITION. Convergence registers, team and cluster barriers, priority (R335 to R340). -/
namespace Sys2Proof.Machine

/-! ### Convergence registers -/

def cvOf (t : Team) (n : Nat) : Cv := t.cv[n]?.getD ⟨0, 0, 0⟩

/-- Every group in SET has signed or retired (R335). -/
def cvComplete (c : Cv) (retired : List Nat) : Bool :=
  (bitsOf 32 c.set.toNat).all (fun g => c.signed.getLsbD g || retired.contains g)

/-- The groups of a team that are parked for a reason. -/
def parkedFor (s : State) (disp teamid : Nat) (w : Wait → Bool) : List Nat :=
  (s.groups.filter (fun g => g.disp == disp && g.teamid == teamid && g.state == .park && w g.wait)).map (·.id)

/-- A group released as an acquire, with a value for its destination (R336 to R338). -/
def releaseAcq (s : State) (gid val : Nat) : State := acquireNow (releaseGroup s gid val) gid

/-- A phase completed in one indivisible step (R335): the waiters are released, and groups parked in `mma.t` on it take BARERR (R336), also
where a `cv.sign` completes it. (DESIGN CHOICE: log 73) -/
def completeCv (s : State) (disp teamid n : Nat) : State :=
  match findTeam s disp teamid with
  | none => s
  | some t =>
    let c := cvOf t n
    let ph := (c.phase + 1) % 16
    let s := modTeam s disp teamid (fun t => { t with cv := updAt n (fun c => { c with phase := ph, signed := 0 }) t.cv })
    let s := (parkedFor s disp teamid (· == .cv n)).foldl (fun s g => releaseAcq s g (2 ^ 31 + ph)) s
    (parkedFor s disp teamid (· == .mmaT n)).foldl (fun s g =>
      trapParked (modGroup s g (fun g => { g with mmaT := none })) g { kind := kBARERR, cause := 4, mask := [] }) s

/-- Completion checked at an update of a register (R335). -/
def checkCv (s : State) (disp teamid n : Nat) : State :=
  match findTeam s disp teamid with
  | none => s
  | some t => if cvComplete (cvOf t n) t.retired then completeCv s disp teamid n else s

/-- `cv.sign` (R336): a release, whose held store error comes first (R139); the subcauses in order, then the signature. -/
def execCvSign (f : FWord) (s : State) :=
  issue (.cvSign f) s fun x s => groupWide x s fun s =>
    match teamOf s x.g with
    | none => .done s []
    | some t =>
      let n := fmod f 0 4
      let c := cvOf t n
      let m : Word := BitVec.ofNat 32 (rdA s x x.lead)
      withRelease x s x.act fun s =>
      let err (k : Nat) : IRes := .trap s { kind := kBARERR, cause := k, mask := x.act }
      if m != 0 && (2 ^ ((dispOf s x.g).map dispTgrps).getD 0 ≤ m.toNat || (c.signed != 0 && m != c.set)) then err 1
      else
        let set := if m = 0 then c.set else m
        if !set.getLsbD x.g.grpid then err 2
        else if c.signed.getLsbD x.g.grpid then err 3
        else
          let s := modGroup s x.g.id (fun g => putDst g x.i (allLanes x c.phase))
          let s := modTeamOf s x.g (fun t => { t with cv := updAt n (fun c =>
            { c with set := set, signed := c.signed ||| BitVec.ofNat 32 (2 ^ x.g.grpid) }) t.cv })
          .done (checkCv s x.g.disp x.g.teamid n) []

/-- `cv.wait` (R336). -/
def execCvWait (f : FWord) (s : State) :=
  issue (.cvWait f) s fun x s => groupWide x s fun s =>
    match teamOf s x.g with
    | none => .done s []
    | some t =>
      let c := cvOf t (fmod f 0 4)
      if c.phase != rdA s x x.lead % 16 then
        .done (acquireNow (modGroup s x.g.id (fun g => putDst g x.i (allLanes x (2 ^ 31 + c.phase)))) x.g.id) []
      else .parkDone s (.cv (fmod f 0 4))

/-! ### Team and cluster barriers (R337) -/

/-- A group's number in its cluster's barrier. -/
def barKey (clsize : Nat) (t : Team) (grpid : Nat) : Nat := (t.teamid % max clsize 1) * 32 + grpid

/-- Every group of a team has arrived or retired. -/
def teamArrived (t : Team) : Bool := (List.range t.tgrps).all (fun g => t.bar.arrived.contains g || t.retired.contains g)

/-- The team barrier's phase completed where every group has arrived or retired: all parked groups are released, each as an acquire. -/
def checkTeamBar (s : State) (disp teamid : Nat) : State :=
  match findTeam s disp teamid with
  | none => s
  | some t =>
    if t.bar.arrived != [] && teamArrived t then
      let s := modTeam s disp teamid (fun t => { t with bar := ⟨t.bar.phase + 1, []⟩ })
      (parkedFor s disp teamid (· == .barTeam)).foldl (fun s g => releaseAcq s g 0) s
    else s

/-- The teams of a cluster. -/
def clusterTeams (s : State) (disp clid : Nat) : List Team := s.teams.filter (fun t => t.disp == disp && t.clid == clid)

/-- The cluster barrier's phase completed where every group of every team has arrived or retired. -/
def checkClusterBar (s : State) (disp clid : Nat) : State :=
  match findCluster s disp clid, findDisp s disp with
  | some c, some d =>
    let ts := clusterTeams s disp clid
    let all := ts.all (fun t => (List.range t.tgrps).all (fun g => c.bar.arrived.contains (barKey (dispClsize d) t g) || t.retired.contains g))
    if c.bar.arrived != [] && all then
      let s := modCluster s disp clid (fun c => { c with bar := ⟨c.bar.phase + 1, []⟩ })
      (ts.flatMap (fun t => parkedFor s disp t.teamid (· == .barCl))).foldl (fun s g => releaseAcq s g 0) s
    else s
  | _, _ => s

/-- The end of an arrival: the group goes on where the phase completed at once, and otherwise parks. -/
def afterArrive (x : Issue) (before : Nat) (now : State → Nat) (check : State → State) (s : State) (w : Wait) : IRes :=
  let s' := check s
  if now s' != before then .done (acquireNow s' x.g.id) [] else .parkDone s w

def teamPhase (s : State) (g : Group) : Nat := ((teamOf s g).map (·.bar.phase)).getD 0
def clusterPhase (s : State) (g : Group) : Nat := (((teamOf s g).bind (fun t => findCluster s g.disp t.clid)).map (·.bar.phase)).getD 0

/-- `bar.team`. -/
def barTeamOp (x : Issue) (s : State) : IRes :=
  groupWide x s fun s => withRelease x s x.act fun s =>
    let s := modTeamOf s x.g (fun t => { t with bar := { t.bar with arrived := x.g.grpid :: t.bar.arrived } })
    afterArrive x (teamPhase s x.g) (fun s => teamPhase s x.g) (fun s => checkTeamBar s x.g.disp x.g.teamid) s .barTeam
def execBarTeam (f : FWord) (s : State) := issueConv (.barTeam f) s barTeamOp

/-- `bar.cl`; in a cluster of one team it behaves as `bar.team`. -/
def barClOp (x : Issue) (s : State) : IRes :=
  match teamOf s x.g, dispOf s x.g with
  | some t, some d =>
    if dispClsize d ≤ 1 then barTeamOp x s
    else
      groupWide x s fun s => withRelease x s x.act fun s =>
        let s := modCluster s x.g.disp t.clid (fun c =>
          { c with bar := { c.bar with arrived := barKey (dispClsize d) t x.g.grpid :: c.bar.arrived } })
        afterArrive x (clusterPhase s x.g) (fun s => clusterPhase s x.g) (fun s => checkClusterBar s x.g.disp t.clid) s .barCl
  | _, _ => .done s []
def execBarCl (f : FWord) (s : State) := issueConv (.barCl f) s barClOp

/-- A group has retired: it counts as arrived at every later phase, and it takes its place in every convergence register (R334, R335). -/
def retireMember (s : State) (g : Group) : State :=
  match teamOf s g with
  | none => s
  | some t =>
    let s := modTeamOf s g (fun t => { t with retired := g.grpid :: t.retired })
    let s := (List.range 16).foldl (fun s n => if (cvOf t n).set.getLsbD g.grpid then checkCv s g.disp g.teamid n else s) s
    checkClusterBar (checkTeamBar s g.disp g.teamid) g.disp t.clid

/-! ### Priority (R339) -/

/-- PRIO written: the smaller of the value and PRIOCEIL. -/
def setPrio (s : State) (g : Group) (n : Nat) : State :=
  modGroup s g.id (fun h => { h with prio := BitVec.ofNat 32 (min n (((dispOf s g).map dispPrioCeil).getD 0)) })

/-- `prio.set`. -/
def execPrioSet (f : FWord) (s : State) :=
  issue (.prioSet f) s fun x s => groupWide x s fun s =>
    .done (setPrio (modGroup s x.g.id (fun g => putDst g x.i (allLanes x x.g.prio.toNat))) x.g (rdA s x x.lead)) []

/-- A write of PRIO from outside the group (R339). -/
def execPrioWrite (grp : Nat) (value : Word) (s : State) :=
  event (fun s => match findGroup s grp with | some g => setPrio s g value.toNat | none => s) s

end Sys2Proof.Machine
end

