-- ==== Sys2Proof/Machine/Engine.lean ====
section
/-! DEFINITION. Transaction barriers as 16 bytes (R103 to R108), who issues an engine command, the checks of its operands, and the
queues of a core (R94, R95, R109, R110, R114). -/
namespace Sys2Proof.Machine

/-! ### Barriers (R103 to R105) -/

/-- The fields of a barrier's 128 bits. -/
structure Bar where
  sect : Int
  reload : Nat
  arr : Nat
  val : Bool
  err : Bool
  phase : Nat
  deriving DecidableEq, Repr

def barOfBits (b : Nat) : Bar := ⟨sextN 32 (fldN b 64 32), fldN b 28 20, fldN b 8 20, b.testBit 5, b.testBit 4, fldN b 0 4⟩

/-- The bits of a barrier over those that stood there: reserved bits keep what they hold. -/
def barToBits (old : Nat) (b : Bar) : Nat :=
  fldN old 96 32 <<< 96 + wrapI 32 b.sect <<< 64 + fldN old 48 16 <<< 48 + b.reload <<< 28 + b.arr <<< 8 + fldN old 6 2 <<< 6
    + b.val.toNat <<< 5 + b.err.toNat <<< 4 + b.phase

/-- What `bar.init` writes (R103). -/
def barInitBits (n : Nat) : Nat := n <<< 28 + n <<< 8 + 32

/-- R105: the phase completes where nothing is pending. -/
def barSettle (b : Bar) : Bar × Bool :=
  if b.val ∧ b.arr = 0 ∧ b.sect = 0 then ({ b with phase := (b.phase + 1) % 16, arr := b.reload }, true) else (b, false)

def barRead (s : State) (r : BarRef) : Nat :=
  match r with
  | .none => 0
  | .loc c o _ => rdLocalNum s c o 16
  | .glob _ _ p => rdNum s ((List.range 16).map (p + ·))

def barWrite (s : State) (r : BarRef) (b : Nat) : State :=
  match r with
  | .none => s
  | .loc c o _ => wrLocal s c o (leBytes 16 b)
  | .glob _ _ p => wrCoherent s (((List.range 16).map (p + ·)).zip (leBytes 16 b))

/-- The words of a barrier. -/
def barLocs (r : BarRef) : List ArrayLoc :=
  match r with | .none => [] | .loc c o _ => lmemLocs c o 16 | .glob _ _ p => memLocs ((List.range 16).map (p + ·))

/-- Uncorrectable data in a barrier's 16 bytes (R108). -/
def barBad (s : State) (r : BarRef) : Bool :=
  match r with
  | .none => false
  | .loc c o _ => badLocal s c o 16
  | .glob _ _ p => badPlaces s ((List.range 16).map (p + ·))

/-- A barrier's key: its core and offset, or its place. -/
def barIs (r : BarRef) (w : Wait) : Bool :=
  match r, w with
  | .loc c o _, .bar p (some c') _ _ => c == c' && o == p
  | .glob _ _ q, .bar p none _ _ => p == q
  | _, _ => false

/-- The groups parked in `bar.wait` on a barrier. -/
def barWaiters (s : State) (r : BarRef) : List Group := s.groups.filter (fun g => g.state == .park && barIs r g.wait)

/-- The status of `bar.wait` and `bar.test` (R107). -/
def barStatus (b : Bar) (t : Nat) : Nat := (b.phase != t % 16).toNat * 2 ^ 31 + b.val.toNat * 32 + b.err.toNat * 16 + b.phase

def waitToken (w : Wait) : Nat := match w with | .bar _ _ t _ => t | _ => 0

def waitAddr (w : Wait) : Nat := match w with | .bar _ _ _ a => a | _ => 0

/-- Every waiter of a barrier released, as an acquire (R105, R106). -/
def releaseBar (s : State) (r : BarRef) : State :=
  (barWaiters s r).foldl (fun s g => releaseAcq s g.id (barStatus (barOfBits (barRead s r)) (waitToken g.wait))) s

/-- Every waiter of a barrier takes a trap on its `bar.wait` (R107, R108); a MEMERR names the waiter's own operand (R385). -/
def trapBar (s : State) (r : BarRef) (kind : Nat) : State :=
  (barWaiters s r).foldl (fun s g =>
    trapParked s g.id (if kind = kMEMERR then
      { kind := kind, mask := [], daddr := BitVec.ofNat 64 (waitAddr g.wait), acc := 3,
        asid := match r with | .glob .. => ((dispOf s g).map dispAsid).getD 0 | _ => 0 }
      else { kind := kind, mask := [] })) s

/-- One atomic update of a barrier followed by R105. -/
def barUpdate (s : State) (r : BarRef) (b : Bar) : State :=
  let old := barRead s r
  let (b', done) := barSettle b
  let s := barWrite s r (barToBits old b')
  if done then releaseBar s r else s

/-- Credits of one sector each, the first carrying ERR where the command failed (R105, R114). -/
def barCredits (s : State) (r : BarRef) (err : Bool) : Nat → State
  | 0 => s
  | n + 1 =>
    let b := barOfBits (barRead s r)
    if !b.val then s
    else barCredits (barUpdate s r { b with sect := b.sect - 1, err := b.err || err }) r err n

/-- ERR set by a failed command that has no sector left to credit. -/
def barErr (s : State) (r : BarRef) : State :=
  let b := barOfBits (barRead s r)
  if b.val then barUpdate s r { b with err := true } else s

/-! ### Who issues a command -/

/-- A group with its translation context, or a host queue's replay, whose stand-in group has no team (R369). -/
structure Issuer where
  g : Group
  x : XCtx
  host : Option Nat
  deriving DecidableEq, Repr

def groupIssuer (s : State) (g : Group) : Issuer :=
  match dispOf s g with
  | some d => ⟨g, ctxOn d g.core, none⟩
  | none => ⟨g, ⟨0, 0, [], dieOf g, none⟩, none⟩

/-- An engine command as its operand values give it: `imm` is MODB [33:2], `len` the length or count after LR. -/
structure CmdSpec where
  opc : Nat
  moda : Nat
  qid : Nat
  imm : Nat
  len : Nat
  a : Nat
  b : Nat
  c : Nat
  deriving DecidableEq, Repr

/-- What issuing a command answers. `wait` executes the command again; `held` says that it was performed and completes later; `local`
says that a replay without a team named a local address. -/
inductive CRes where
  | ok (s : State) (val : Nat)
  | err (s : State) (acc : Nat) (e : LaneErr)
  | wait (s : State) (w : Wait)
  | held (s : State) (w : Wait)
  | noLocal (s : State)
  | gone (s : State)

/-- The replayable regime, or the lease regime, of an issuer's dispatch. -/
def issuerLeases (s : State) (i : Issuer) (va n : Nat) : Bool :=
  match i.host with
  | some _ => true
  | none => match findDisp s i.g.disp with | some d => inLease d va n | none => true

/-- One address of a command translated at issue, with ATUNSUP and REMERR (R104). -/
def cmdXlate (s : State) (i : Issuer) (write unsup : Bool) (va daddr : Nat) : State × Except (Option LaneErr) (Nat × Nat) :=
  match findPart s i.x.part, translate s i.x va (if write then .write else .read) with
  | none, (s, _) => (s, .error (some ⟨kXLATE, 1, daddr⟩))
  | some _, (s, .fault c) => (s, .error (some ⟨kXLATE, c, daddr⟩))
  | some _, (s, .mig) => (s, .error none)
  | some _, (s, .rem) => (s, .error (some ⟨kREMERR, 0, daddr⟩))
  | some p, (s, .ok pa) =>
    if unsup && paKind pa = 1 then (s, .error (some ⟨kATUNSUP, 0, daddr⟩))
    else if !reachable s p i.x.die pa then (s, .error (some ⟨kREMERR, 0, daddr⟩))
    else (settleSlots s p [pa], .ok (pa, placeOf p pa))

/-- A local operand of a command: own local memory or a packed peer address. -/
def cmdLocal (s : State) (i : Issuer) (peer : Bool) (a n : Nat) : Option (Nat × Nat) :=
  match (if peer then peerTarget s i.g a n else localTarget s i.g a n) with
  | some (.loc c o) => some (c, o)
  | _ => none

/-- A global range checked by R72 and `seg.glob`. -/
def cmdGlobal (i : Issuer) (a n : Nat) : Option Nat := match globTarget i.g a n with | some (.glob va) => some va | _ => none

/-- What resolving a barrier operand gives. -/
inductive BarRes where
  | ok (s : State) (r : BarRef)
  | stop (c : CRes)

/-- The checks of a barrier address (R104): ALIGN, SEG, LEASE, then translation, ATUNSUP and REMERR; a local barrier waits for its line
and meets FAILED (R95, R96). Every barrier instruction but `bar.init`, which rewrites them, raises MEMERR on damaged bytes: `reads` says so; a command that names
the barrier for its credits does not read it (R108). -/
def resolveBar (s : State) (i : Issuer) (bsp a acc : Nat) (write reads : Bool) : BarRes :=
  if a % 16 != 0 then .stop (.err s acc ⟨kALIGN, 0, a⟩)
  else if bsp = 2 then
    match cmdGlobal i a 16 with
    | none => .stop (.err s acc ⟨kSEG, 0, a⟩)
    | some va =>
      if !issuerLeases s i va 16 then .stop (.err s acc ⟨kLEASE, 0, a⟩)
      else
        match cmdXlate s i write true va a with
        | (s, .error (some e)) => .stop (.err s acc e)
        | (s, .error none) => .stop (.wait s (.migration i.x.asid))
        | (s, .ok (pa, pl)) =>
          let r := BarRef.glob va pa pl
          let (lost, s) := if reads then errorReply s [pa] else (false, s)
          if lost then .stop (.err s acc ⟨kREMERR, 0, a⟩)
          else if reads && barBad s r then .stop (.err (noteBad s (barLocs r)) acc ⟨kMEMERR, 0, a⟩) else .ok (if reads then correctLocs s (barLocs r) else s) r
  else if i.host.isSome then .stop (.noLocal s)
  else
    match cmdLocal s i (bsp == 1) a 16 with
    | none => .stop (.err s acc ⟨kSEG, 0, a⟩)
    | some (c, o) =>
      if lineHolds s write c (o / 128) then .stop (.wait s (.lines c [o / 128] write))
      else
        match fillLines s c [o / 128] with
        | .err s e => .stop (.err s 1 e)
        | .mig s a => .stop (.wait s (.migration a))
        | .ok s =>
          if (getLine s c (o / 128)).failed.isSome then .stop (.err s acc ⟨kMEMERR, 1, a⟩)
          else if reads && badLocal s c o 16 then .stop (.err (noteBad s (lmemLocs c o 16)) acc ⟨kMEMERR, 0, a⟩)
          else .ok (if reads then correctLocs s (lmemLocs c o 16) else s) (.loc c o a)

/-! ### Queues (R94, R109, R110) -/

/-- The number by which the control queue of a group is known among the queues of its core (R109). -/
def ctlQueue : Nat := 8

/-- The group has a command in its control queue that is not performed: its later control commands wait (R109). -/
def ctlBusy (s : State) (gid : Nat) : Bool := s.cmds.any (fun c => c.grp == gid && c.queue == ctlQueue)

/-- Commands of a core's queue. -/
def queueLen (s : State) (core q : Nat) : Nat := (s.cmds.filter (fun c => !c.saved && c.core == core && c.queue == q)).length

/-- A command's line counts stay at 15 or below (R94). -/
def linesFit (s : State) (writes reads : List (Nat × Nat)) : Bool :=
  writes.all (fun l => decide (wpend s l.1 l.2 < 15)) && reads.all (fun l => decide (rpend s l.1 l.2 < 15))

/-- The commands that `qfence` places before a new one of a group in a queue (R110). -/
def fencedBy (g : Group) (q : Nat) : List Nat := (g.fences.filter (fun f => f.1.testBit q)).flatMap (·.2)

/-- The blank form of a command. -/
def newCmd (s : State) (i : Issuer) (q : Nat) (c : CmdSpec) : Cmd :=
  { id := s.nextId, grp := i.g.id, disp := i.g.disp, teamid := i.g.teamid, core := i.g.core, queue := q, opc := c.opc, moda := c.moda,
    imm := c.imm, len := c.len, a := c.a, b := c.b, c := c.c, locA := none, locB := none, bar := .none, part := i.x.part,
    asid := i.x.asid, ascr := i.x.ascr, flushctl := i.g.flushctl, barOld := false, credit := 0, credited := 0, writes := [], reads := [], after := fencedBy i.g q,
    shape := [], progress := 0, log := [], logKey := 0, pos := 0, started := false, saved := false, fault := none, seq := 0 }

/-- A command joins its queue (R109): FAILED is cleared on the lines that it writes (R96); the group waits where the queue is full or a
line's count would pass 15. -/
def enqueueCmd (s : State) (c : Cmd) : CRes :=
  if 64 ≤ queueLen s c.core c.queue ∨ !linesFit s c.writes c.reads then .wait s (.queueRoom c.core c.queue)
  else
    let s := c.writes.foldl (fun s l => modLine s l.1 l.2 (fun x => { x with failed := none })) s
    .ok { s with cmds := s.cmds ++ [c], nextId := s.nextId + 1 } 0

/-- The order of R95 on local lines, of R109 within a queue and of `qfence`: no earlier command stands before this one, nor an earlier access of its
group (R109, R312, case 9). -/
def cmdReady (s : State) (c : Cmd) : Bool :=
  c.fault.isNone && !c.saved && !((findGroup s c.grp).map (fun g => pendingBelow g c.id)).getD false && (s.cmds.takeWhile (fun d => d.id != c.id)).all (fun d => d.saved ||
    !(d.grp == c.grp && d.core == c.core && d.queue == c.queue)
    && !c.writes.any (fun l => d.writes.contains l || d.reads.contains l) && !c.reads.any d.writes.contains)
  && !(c.writes ++ c.reads).any (fun l => stackHeld s c.id l.1 l.2)
  && !c.after.any (fun i => s.cmds.any (fun d => d.id == i))

/-- The translation context of a command. -/
def cmdCtx (c : Cmd) : XCtx := ⟨c.part, c.asid, c.ascr, coreDie c.core, none⟩

/-- A command leaves its queue. -/
def dropCmd (s : State) (id : Nat) : State :=
  { s with cmds := s.cmds.filter (fun c => c.id != id),
           groups := s.groups.map (fun g => { g with fences := (g.fences.map (fun f => (f.1, f.2.filter (· != id)))).filter (fun f => f.2 != []) }) }

/-- Why a command failed: kind and cause, the address, and the type of the global access that it names, 0 where none is concerned (R385). -/
structure CmdFail where
  kind : Nat
  cause : Nat
  daddr : Nat
  acc : Nat
  deriving DecidableEq, Repr

/-- A failed command that named no barrier is counted for `qfence.c` and posted (R114). (DEDUCED: log 31; DESIGN CHOICE: log 35) -/
def countFailed (s : State) (c : Cmd) (f : CmdFail) : State :=
  let s := modGroup s c.grp (fun g => { g with failed := (g.failed.filter (· != (c.queue, c.id))) ++ [(c.queue, c.id)] })
  let r : RecF := { kind := evEngFail, acc := f.acc, asid := if f.acc = 0 then 0 else c.asid, daddr := BitVec.ofNat 64 f.daddr,
                    extra := BitVec.ofNat 64 (c.opc + c.queue * 2 ^ 16 + f.kind * 2 ^ 24 + f.cause % 256 * 2 ^ 32), team := c.teamid, disp := c.disp }
  notify s (coreDie c.core) (.queue c.core c.queue) r

/-- The barrier address of a command (R104, R108): a local offset, a packed peer address, or a virtual address. -/
def barAddr (r : BarRef) : Nat := match r with | .none => 0 | .loc _ _ a => a | .glob va _ _ => va

/-- The barrier of a command as it stands now: a global one whose mapping was invalidated is translated again (R86), an unfilled window line is
filled (R99); or what it meets. -/
def barNow (s : State) (c : Cmd) : State × Except CmdFail BarRef :=
  match c.bar with
  | .none => (s, .ok .none)
  | .loc co o a =>
    (match fillLines s co [o / 128] with
    | .ok s => (s, .ok (.loc co o a))
    | .err s e => (s, .error ⟨e.kind, e.cause, e.daddr, 5⟩)
    | .mig s _ => (s, .error ⟨kXLATE, 0, a, 5⟩))
  | .glob va pa pl =>
    if !c.barOld then (s, .ok (.glob va pa pl))
    else
      match translate s (cmdCtx c) va .write, findPart s c.part with
      | (s, .ok pa), some p => (s, if reachable s p (coreDie c.core) pa then .ok (.glob va pa (placeOf p pa)) else .error ⟨kREMERR, 0, va, 3⟩)
      | (s, .fault k), _ => (s, .error ⟨kXLATE, k, va, 3⟩)
      | (s, .rem), _ => (s, .error ⟨kREMERR, 0, va, 3⟩)
      | (s, _), _ => (s, .error ⟨kXLATE, 0, va, 3⟩)

/-- A command's credits, some sectors and whether with ERR; a barrier that is damaged (R108) or not reached receives none of it, and the command
counts as failed; so does a failed command without a barrier (R114). (DEDUCED: log 30) -/
def creditCmd (s : State) (c : Cmd) (n : Nat) (failed : Option CmdFail) : State :=
  if c.bar = .none then (match failed with | some f => countFailed s c f | none => s)
  else if n = 0 ∧ failed.isNone then s
  else
    match barNow s c with
    | (s, .error f) => countFailed s c f
    | (s, .ok r) =>
      if barBad s r then
        trapBar (countFailed (countUncorr s (coreDie c.core) (barLocs r)) c
          ⟨kMEMERR, 0, barAddr r, match r with | .glob .. => 3 | _ => 0⟩) r kMEMERR
      else if n = 0 then barErr s r
      else barCredits s r failed.isSome n

/-- A command's credits land up to a count (R113). -/
def creditUpTo (s : State) (c : Cmd) (n : Nat) : State :=
  if n ≤ c.credited then s else modCmd (creditCmd s c (n - c.credited) none) c.id (fun k => { k with credited := n })

/-- A command completes: its remaining credits land and it leaves its queue. -/
def finishCmd (s : State) (c : Cmd) : State := dropCmd (creditCmd s c (c.credit - c.credited) none) c.id

/-- A command fails (R96, R114): the lines it had not yet written are FAILED, what is left of its count is credited
with ERR. -/
def failCmd (s : State) (c : Cmd) (unwritten : List (Nat × Nat)) (f : CmdFail) : State :=
  let s := unwritten.foldl (fun s l => modLine s l.1 l.2 (fun x => { x with failed := some (f.kind, f.cause) })) s
  let s := creditCmd s c (c.credit - c.credited) (some f)
  dropCmd s c.id

/-! ### Issuing from a group -/

/-- The kind of the command that left an operand's line FAILED (R96, R385): the line of the core's own local memory, or a peer's for a barrier
in `.lp` (R104). -/
def failedKind (s : State) (x : Issue) (acc a : Nat) : Nat :=
  let peer := acc == 3 && (match frameOf x.i with | .x _ y => y.moda.toNat % 4 == 1 | _ => false)
  match (if peer then peerTarget s x.g a 1 else localTarget s x.g a 1) with
  | some (.loc c o) => ((getLine s c (o / 128)).failed.map (·.1)).getD 0
  | _ => 0

/-- The error of an engine command at issue: the lane mask holds every active lane. -/
def cmdErr (x : Issue) (s : State) (acc : Nat) (e : LaneErr) : IRes :=
  if e.kind = kBARERR ∨ e.kind = kREGRANGE ∨ e.kind = kRQERR then .trap s { kind := e.kind, cause := e.cause, mask := x.act }
  else if e.kind = kMEMERR ∧ e.cause = 1 then
    .trap s { kind := kMEMERR, cause := 1, mask := x.act, daddr := BitVec.ofNat 64 e.daddr, acc := acc,
              extra := BitVec.ofNat 64 (failedKind s x acc e.daddr) }
  else raiseErr s x acc (asidOf s x.g) e x.act

/-- A command's answer as the body of its instruction; `note` records it on the group's tape. -/
def cmdRes (x : Issue) (r : CRes) (note : State → State) : IRes :=
  match r with
  | .ok s v => doneWith (note s) x v
  | .err s acc e => cmdErr x s acc e
  | .wait s w => .park s w
  | .held s w => .parkDone (note s) w
  | .noLocal s => .done s []
  | .gone s => .gone s

end Sys2Proof.Machine
end

