-- ==== Sys2Proof/Machine/Place.lean ====
section
/-! DEFINITION. Where the scheduler places a cluster (R125, R130, R326 to R328), and the state of a group at launch (R322). -/
namespace Sys2Proof.Machine

/-! ### Room on a core -/

/-- A core takes teams (R325, R399, R400): in service, enabled, not under test, not retired without a spare. -/
def coreOpen (s : State) (c : Nat) : Bool :=
  match findCore s c, findDie s (coreDie c) with
  | some k, some d => d.state == .service && decide (c % 44 < d.n) && !k.testing && !k.retiredMark
  | _, _ => false

/-- Every group of a team has retired. -/
def teamDone (t : Team) : Bool := decide (t.tgrps ≤ t.retired.length)

/-- A team holds its local run on its core: it is not saved, and a team of its cluster has not retired (R93, R140) or an engine command of its
groups is not complete (R93). -/
def localHolds (s : State) (t : Team) : Bool :=
  t.frame.isNone && (s.teams.any (fun u => u.disp == t.disp && u.clid == t.clid && !teamDone u)
    || s.cmds.any (fun c => c.disp == t.disp && c.teamid == t.teamid))

/-- A team holds its slots: it is not saved, and a group of it has not retired (R195) or a multiply that it staged is not performed (R220). -/
def slotHolds (s : State) (t : Team) : Bool :=
  t.frame.isNone && (!teamDone t || ((findCore s t.core).map (fun k => k.array.any (fun m => t.slots.contains m.slot))).getD false)

/-- A team holds something on its core. -/
def teamHolds (s : State) (t : Team) : Bool := localHolds s t || slotHolds s t

/-- The first granule of a free run of `n` granules (R93). -/
def localRoom (s : State) (c n : Nat) : Option Nat :=
  let held := s.teams.filter (fun t => t.core == c && localHolds s t)
  (List.range (129 - n)).find? (fun b => !held.any (fun t => overlap b n t.localBase t.localG))

/-- Free physical slots, aligned as R195 says. -/
def slotRoom (s : State) (c n : Nat) : Option (List Nat) :=
  if n = 0 then some []
  else
    let held := (s.teams.filter (fun t => t.core == c && slotHolds s t)).flatMap (·.slots)
    ((List.range (8 / n)).map (fun i => (List.range n).map (n * i + ·))).find? (fun l => !l.any held.contains)

/-- The blocks of a column run that no group holds; none where a parked `rgrow` overlaps the run (R125, R130). -/
def runRoom (s : State) (c sector col w : Nat) : List Nat :=
  let here := s.groups.filter (fun h => h.core == c && h.sector == sector && occupies h && overlap col w h.col h.width)
  let growers := ((findCore s c).map (·.growers)).getD []
  if here.any (fun h => growers.contains h.id) then []
  else
    let held := here.flatMap (·.blocks)
    (List.range 64).filter (fun b => !held.contains b)

/-- The sector, column and blocks for a group of width `w` holding `n` blocks (R125, R326). -/
def groupRoom (s : State) (c w n : Nat) : Option (Nat × Nat × List Nat) :=
  ((List.range 4).flatMap (fun se => (List.range (64 / w)).map (fun i => (se, w * i)))).findSome? fun (se, col) =>
    let fr := runRoom s c se col w
    if n ≤ fr.length then some (se, col, fr.take n) else none

/-- One team of the record's sizes fits on an empty core (R321). -/
def fitsEmpty (widthc regs tgrps localG : Nat) : Bool :=
  decide (tgrps ≤ 4 * (64 / 2 ^ (3 + widthc)) * (64 / regs)) && decide (localG ≤ 128)

/-! ### The state at launch (R322) -/

/-- A group as R322 gives it, every register of its blocks zero. (DESIGN CHOICE: log 4) -/
def newGroup (s : State) (d : Dispatch) (teamid grpid c : Nat) (r : Nat × Nat × List Nat) : Group :=
  let w := 2 ^ (3 + recByte d 20)
  let arg := recNum d 56 8
  let gseg := (dispFlags d).testBit 5
  let g : Group :=
    { id := s.nextId, disp := d.id, teamid := teamid, grpid := grpid, core := c, sector := r.1, col := r.2.1, width := w, blocks := r.2.2,
      v := [], k := [], preds := [], lat := [], latw := [], pcv := List.replicate w (BitVec.ofNat 64 (recNum d 0 8)), deferred := 0,
      parked := 0, naps := [], chain := none, segLocal := (0, BitVec.ofNat 64 (4096 * dispLocalG d)),
      segConst := (BitVec.ofNat 64 (recNum d 8 8), BitVec.ofNat 64 (recNum d 16 4)),
      segGlob := if gseg then (BitVec.ofNat 64 (recNum d 72 8), BitVec.ofNat 64 (recNum d 80 8)) else (0, BitVec.ofNat 64 (2 ^ 57)),
      flushctl := 0, fpstat := 0, fptrap := 0, mstat := mstatReset, prio := BitVec.ofNat 32 (dispPrioCeil d), age := 0, readyClks := 0,
      lastIssue := none, born := s.clk, trec := List.replicate 8 0, shadow := none, state := .run, before := .run, wait := .none,
      keeps := false, parkInfo := none, flights := [], stores := [], storeErr := none, floor := s.memSeq, lastT := s.memSeq, tags := [], relFence := 0, stamp := none, lateErrs := [], failed := [], fences := [],
      mmaT := none, mmaErr := none, rq := none, task := none, tape := .none }
  let g := writeK (writeK g 0 (BitVec.ofNat 32 arg)) 1 (BitVec.ofNat 32 (arg / 2 ^ 32))
  if dispTask d then parkGroup g .task else g

/-- A register as R335 resets it. -/
def cvReset (tgrps : Nat) : Cv := ⟨0, 0, BitVec.ofNat 32 (2 ^ tgrps - 1)⟩

/-- Words of a core's arrays that launch rewrites are good again (R397). -/
def healCore (s : State) (c lo n : Nat) (slots : List Nat) : State :=
  { s with badWords := s.badWords.filter (fun b => match b with
      | .lmem k o => !(k == c && decide (lo ≤ o) && decide (o < lo + n))
      | .acc k i _ => !(k == c && slots.contains i)
      | _ => true) }

/-- A team's local run zeroed and every line present, its slots tagged NONE (R93, R196). -/
def clearRun (s : State) (c base n : Nat) (slots : List Nat) : State :=
  let lo := 4096 * base
  let hi := lo + 4096 * n
  let k1 (k : Core) : Core :=
    { k with lmem := k.lmem.filter (fun e => !(decide (lo ≤ e.1) && decide (e.1 < hi))),
             lines := k.lines.filter (fun e => !(decide (lo ≤ 128 * e.1) && decide (128 * e.1 < hi))),
             slots := k.slots.mapIdx (fun i x => if slots.contains i then slotReset else x) }
  healCore (modCore s c k1) c lo (4096 * n) slots

/-- The groups of a team placed one after another; none where one has no room. -/
def placeGroups (d : Dispatch) (teamid c : Nat) : List Nat → State → Option State
  | [], s => some s
  | i :: is, s =>
    match groupRoom s c (2 ^ (3 + recByte d 20)) (recByte d 21) with
    | none => none
    | some r => placeGroups d teamid c is { s with groups := s.groups ++ [newGroup s d teamid i c r], nextId := s.nextId + 1 }

/-- A team launched on a core with everything that it is granted (R93, R195, R203, R322, R335). -/
def placeTeam (s : State) (d : Dispatch) (clid rank c : Nat) : Option State :=
  if !coreOpen s c then none
  else
    match localRoom s c (dispLocalG d), slotRoom s c (dispAccn d) with
    | some base, some slots =>
      let teamid := clid * dispClsize d + rank
      let t : Team :=
        { disp := d.id, teamid := teamid, clid := clid, rank := rank, core := c,
          vcore := if dispDet d then teamid % max 1 (dispVgrid d) else 0, tgrps := dispTgrps d, widthc := recByte d 20, localBase := base,
          localG := dispLocalG d, slots := slots, om := List.replicate 8 ⟨0, 0, 0, 0, 0, 0⟩, th := List.replicate 16 ⟨0, 0, 0, 0, 0, 0, 0, []⟩,
          cv := List.replicate 16 (cvReset (dispTgrps d)), bar := ⟨0, []⟩, windows := [], retired := [], frame := none }
      placeGroups d teamid c (List.range (dispTgrps d)) { clearRun s c base (dispLocalG d) slots with teams := s.teams ++ [t] }
    | _, _ => none

/-! ### Rectangles (R325, R326) -/

/-- The cores of a rectangle of a die's logical mesh, in the order of `clrank`; none where a position holds no core. -/
def rectangle (die n x y w h : Nat) : Option (List Nat) :=
  if 4 < x + w then none
  else
    let l := (List.range h).flatMap (fun dy => (List.range w).map (fun dx => 4 * (y + dy) + x + dx))
    if l.all (fun i => decide (i < n)) then some (l.map (coreKey die)) else none

/-- The rectangles of a size on a die. -/
def dieRectangles (die n w h : Nat) : List (List Nat) :=
  (List.range ((n + 3) / 4)).flatMap (fun y => (List.range 4).filterMap (fun x => rectangle die n x y w h))

/-- The rectangles of a partition's dies, in the order in which they are tried. -/
def rectangles (s : State) (p : Partition) (w h : Nat) : List (List Nat) :=
  p.dies.flatMap (fun die => match findDie s die with | some d => dieRectangles die d.n w h | none => [])

/-- The first rectangle that an action accepts, the choice among rectangles taken from the schedule (log 3). -/
def tryRectangles (s : State) (p : Partition) (w h : Nat) (f : State → List Nat → Option State) : Option State :=
  let (o, s) := drawOracle s
  let l := rectangles s p w h
  (l.drop o ++ l.take o).findSome? (f s)

/-- The teams of a cluster launched together on a rectangle (R328). -/
def placeCluster (d : Dispatch) (clid : Nat) (s : State) (cs : List Nat) : Option State :=
  (cs.mapIdx (fun i c => (i, c))).foldl (fun a e => a.bind (fun s => placeTeam s d clid e.1 e.2)) (some s)

/-- A dispatch may place groups now: prepared, not pre-empted, and what it pre-empts is saved (R82, R393, R407). -/
def mayPlace (s : State) (d : Dispatch) : Bool :=
  d.state == .running && d.preempt == 0
    && !s.dispatches.any (fun e => e.preemptFor == d.id && s.clusters.any (fun c => c.disp == e.id && (c.state == .running || c.state == .saving)))

/-- TEAM_LAUNCH (R328): the next cluster of the grid, all of its teams together. -/
def launchNext (s : State) (disp : Nat) : Option State :=
  match findDisp s disp with
  | none => none
  | some d =>
    match dispPart s d with
    | none => none
    | some p =>
      let clid := d.nextTeam / max 1 (dispClsize d)
      if dispNcl d ≤ clid ∨ !mayPlace s d then none
      else
        (tryRectangles s p (dispClW d) (dispClH d) (placeCluster d clid)).map fun s =>
          modDisp { s with clusters := s.clusters ++ [⟨disp, clid, .running, ⟨0, []⟩⟩] } disp
            (fun d => { d with nextTeam := d.nextTeam + dispClsize d })
def execTeamLaunch (disp : Nat) (s : State) := event (fun s => (launchNext s disp).getD s) s

end Sys2Proof.Machine
end

