-- ==== Sys2Proof/Machine/Locality.lean ====
section
/-! DEFINITION. Locality, write-back and invalidation, slice domains, routes, and the links between dies (R52 to R71). -/
namespace Sys2Proof.Machine

/-! ### `loc` -/

/-- HOPS from a die to another (R67); where the current ROUTE reaches it over no path, the hops that a path would have. (DESIGN CHOICE: log 62) -/
def hopsOf (d t : Nat) : Nat := if d = t then 0 else if t = (d + 2) % 4 then 2 else 1

/-- What `loc` answers for a virtual address (R67). (DEDUCED: log 36) -/
def locValue (s : State) (g : Group) (va : Nat) : Nat :=
  match (dispOf s g).map (ctxOf · (dieOf g)), groupPart s g with
  | some x, some p =>
    if !canonical va then 3 <<< 29
    else
      match walk s p x (va57 va) with
      | .leaf l e _ =>
        let pa := pteAddr e + va57 va % 2 ^ levelLo l
        if !validPa s p pa then 3 <<< 29 else
        match paKind pa with
        | 0 => homeDie p pa <<< 27 + homeSlice p pa <<< 21 + (placeOf p pa / 2 ^ 31) <<< 13 + hopsOf (dieOf g) (homeDie p pa) <<< 11
        | 1 => 1 <<< 29
        | _ => 2 <<< 29 + paDevice pa
      | _ => 3 <<< 29
  | _, _ => 3 <<< 29

def execLoc (f : FWord) (s : State) := issue (.loc f) s fun x s => perLane s x (fun l => locValue s x.g (rdA s x l))

/-! ### `cwb` and `cinv` -/

/-- The physical runs of a range, or the first address that fails. -/
def physRuns (s : State) (x : XCtx) (va n : Nat) : State × Except (Nat × Xl) (List (Nat × Nat)) :=
  match xlateRun s x .read va n with
  | (s, .error e) => (s, .error e)
  | (s, .ok t) => (s, .ok ((pagesOf va n).map (fun a => (paVia t a, min (va + n) ((a / 65536 + 1) * 65536) - a))))

/-- The lines of the runs acted on: the dirty ones are counted (R68), a line whose only dirty bytes an L1 owns among them. Of a slot whose home
moves, the sweep comes first (R65). (DESIGN CHOICE: log 67) -/
def sweepRuns (s : State) (p : Partition) (runs : List (Nat × Nat)) (f : State → Partition → Nat × Nat → State) : Nat × State :=
  let hit (l : Nat × Nat) : Bool := runs.any (fun r => paKind r.1 == 0 && decide (r.1 ≤ l.2) && decide (l.2 < r.1 + r.2))
  let s := settleSlots s p (((dirtyLines s p).filter hit).map (·.2))
  let ls := (dirtyLines s p).filter hit
  (min ls.length 0xFFFFFFFF, ls.foldl (fun s l => f s p l) s)

/-- A block of the runs has a home that no usable path reaches (R54). -/
def runsCut (s : State) (p : Partition) (d : Nat) (runs : List (Nat × Nat)) : Option Nat :=
  if allReach s then none
  else runs.findSome? (fun r => if paKind r.1 != 0 then none
    else ((List.range (r.2 / 256)).map (fun i => r.1 + 256 * i)).find? (fun pa => isDevPa p pa && !reachable s p d pa))

/-- `cwb` and `cinv` (R68): the group's earlier accesses, the checks, the whole range translated, then line by line. A failed translation leaves
nothing of those before it. (DEDUCED: log 37) -/
def cwbOp (x : Issue) (s : State) (y : XWord) (f : State → Partition → Nat × Nat → State) : IRes :=
  groupWide x s fun s => withRelease x s x.act fun s =>
    let s := acquireNow s x.g.id
    let a := rdA s x x.lead
    let n := rdB s x x.lead
    let phys := xmod y 0 1 == 1
    let err (k d : Nat) : IRes := raiseErr s x 0 (asidOf s x.g) ⟨k, 0, d⟩ x.act
    if a % 256 != 0 then err kALIGN a
    else if n % 256 != 0 then err kALIGN n
    else if n = 0 then doneWith s x 0
    else if phys && decide (2 ^ 52 < a + n) || !phys && (!canonical a || decide (2 ^ 57 < va57 a + n)) then err kSEG a
    else
      match dispOf s x.g, groupPart s x.g with
      | some d, some p =>
        let go (s : State) (runs : List (Nat × Nat)) : IRes :=
          match runsCut s p (dieOf x.g) runs with
          | some pa => err kREMERR (if phys then pa else a)
          | none => let (k, s) := sweepRuns s p runs f; doneWith s x k
        if phys then go s [(a, n)]
        else
          match physRuns s (ctxOn d x.g.core) (va57 a) n with
          | (t, .ok runs) => go t runs
          | (_, .error (va, .fault c)) => raiseErr s x 0 (asidOf s x.g) ⟨kXLATE, c, va⟩ x.act
          | (_, .error (va, .rem)) => err kREMERR va
          | (_, .error _) => .park s (.migration (asidOf s x.g))
      | _, _ => doneWith s x 0

def execCwb (y : XWord) (s : State) := issue (.cwb y) s fun x s => cwbOp x s y writeBackFrom
def execCinv (y : XWord) (s : State) := issue (.cinv y) s fun x s => cwbOp x s y (fun s _ l => dropLine s l.1)

/-! ### `dom.sw` (R64, R69) -/

/-- An operation in progress that makes `dom.sw`, `route.sw` or `die.rst` BUSY (R69, R70). -/
def sysBusy (s : State) (part : Nat) : Bool := s.sysOps.any (fun o => o.1 != 0 || o.2.1 == part)

/-- A table that R59 and R69 allow: assigned slices of dies in SERVICE, spread evenly. -/
def goodTable (s : State) (p : Partition) (t : List Nat) : Bool :=
  let ms := t.eraseDups
  ms.all (fun v => decide (v < 64)
    && ((p.dies.contains (v / 16) && !s.partitions.any (fun q => q.id != p.id && q.lent.contains v)) || p.lent.contains v)
    && ((findDie s (v / 16)).map (fun d => d.state == .service)).getD false
    && (let k := (t.filter (· == v)).length; decide (4096 / ms.length ≤ k) && decide (k ≤ (4096 + ms.length - 1) / ms.length)))

/-- The slots whose home a table moves. -/
def movedSlots (p : Partition) (t : List Nat) : List Nat :=
  ((t.mapIdx (fun i v => (i, v))).filter (fun e => sliceSlot p e.1 != e.2)).map (·.1)

/-- Requests of a partition stamped with an older generation than the current one that have not been performed (R64). -/
def oldRequests (s : State) (p : Partition) : Bool :=
  s.groups.any (fun g => ((dispOf s g).map (fun d => d.part == p.id)).getD false
    && (g.flights.any (fun f => !flightDone f && f.gen != p.gen) || g.stores.any (fun w => w.gen != p.gen)))

/-- The status of a `dom.sw` (R69). -/
def domStatus (code lost gen : Nat) : Nat := code <<< 24 + (lost % 256) <<< 16 + gen % 65536

/-- The number by which a parked system instruction is known. -/
def sysDom : Nat := 0
def sysRst : Nat := 1
def sysPre : Nat := 2
def sysEnd : Nat := 3

/-- `dom.sw` once its checks are over: every die has the new table, the moved slots are to be swept, and the group waits (R64). (DEDUCED: log 37) -/
def switchDomain (s : State) (p : Partition) (gid : Nat) (t : List Nat) : State × Nat :=
  let ms := movedSlots p t
  let lost := (ms.map (sliceSlot p)).eraseDups.length
  let gen := (p.gen + 1) % 65536
  let s := { s with sysOps := s.sysOps ++ [(0, p.id, gid)], sweeping := s.sweeping ++ ms.map (fun i => (p.id, i)) }
  (modPart s p.id (fun q => { q with sliceImage := some t, slices := sortNat t.eraseDups, gen := gen }),
   domStatus 0 lost gen)

/-- `dom.sw` ends: the remaining slots are swept, with every request stamped before performed, and DOMGEN shows the new generation (R63, R64). -/
def domEnd (s : State) (gid part val : Nat) : State :=
  match findPart s part with
  | none => s
  | some p =>
    if oldRequests s p then s
    else
      let s := sweepSlots s p ((s.sweeping.filter (fun e => e.1 == part)).map (·.2))
      let s := modPart s part (fun q => { q with doneGen := q.gen, members := q.slices.length })
      releaseGroup { s with sweeping := s.sweeping.filter (fun e => e.1 != part),
                            sysOps := s.sysOps.filter (fun o => o != (0, part, gid)) } gid val

def execDomSw (y : XWord) (s : State) :=
  issue (.domSw y) s fun x s => groupWide x s fun s => withRelease x s x.act fun s =>
    let s := acquireNow s x.g.id
    let a := rdA s x x.lead
    let err (k : Nat) : IRes := raiseErr s x 0 (asidOf s x.g) ⟨k, 0, a⟩ x.act
    match groupPart s x.g with
    | none => .done s []
    | some p =>
      if a % 4096 != 0 then err kALIGN
      else if !isDevPa p a then err kSEG
      else if (runsCut s p (dieOf x.g) [(a, 4096)]).isSome then err kREMERR
      else if badPlaces s (placesOf p a 4096) then raiseErr (noteBad s (memLocs (placesOf p a 4096))) x 0 (asidOf s x.g) ⟨kMEMERR, 0, a⟩ x.act
      else
        let s := correctPlaces s (placesOf p a 4096)
        let t := (rdPa s p a 4096).map (·.toNat)
        if sysBusy s p.id then doneWith s x (domStatus 1 0 p.doneGen)
        else if !goodTable s p t then doneWith s x (domStatus 2 0 p.doneGen)
        else let (s, v) := switchDomain s p x.g.id t; .parkDone s (.sys sysDom p.id v)

/-- A request that waits at its new home: the sweep of its slot completes, and the request is performed (R65). -/
def execSweepWaitRelease (grp seq : Nat) (s : State) :=
  event (fun s =>
    match findGroup s grp with
    | none => s
    | some g =>
      match groupPart s g with
      | none => s
      | some p =>
        let pas := (g.flights.filter (fun f => f.seq == seq)).flatMap (fun f => (flightLeft f).map (·.pa))
          ++ (g.stores.filter (fun w => w.seq == seq)).map (·.pa)
        if !pas.any (swept s p) then s
        else storeAck (sliceAccess (settleSlots s p pas) grp seq) grp seq false) s

/-! ### `route.sw` (R70) -/

/-- A ROUTE value that may not be installed on a die (R70, R417). -/
def badRoute (s : State) (d v : Nat) : Bool :=
  let na := fldN v 0 2
  let nb := fldN v 2 2
  let dg := fldN v 4 2
  decide (64 ≤ v) || na == 1 || na == 2 || nb == 1 || nb == 2
  || ((dg == 0 || dg == 1) && !viaUsable s d true) || ((dg == 0 || dg == 2) && !viaUsable s d false)
  || ((findDie s d).map (fun x => x.state != .service)).getD true

/-- Everything that a die's groups have sent is performed along its old path. -/
def drainDie (s : State) (d : Nat) : State :=
  ((s.groups.filter (fun g => coreDie g.core == d)).map (·.id)).foldl drainGroup s

def execRouteSw (y : XWord) (s : State) :=
  issue (.routeSw y) s fun x s => groupWide x s fun s =>
    let s := drainGroup s x.g.id
    let d := xmod y 0 2
    let v := rdA s x x.lead
    match groupPart s x.g with
    | none => .done s []
    | some p =>
      if sysBusy s p.id then doneWith s x 1
      else if badRoute s d v then doneWith s x 2
      else doneWith (modDie (drainDie s d) d (fun k => { k with route := BitVec.ofNat 32 v })) x 0

/-! ### Links (R52) -/

def moduleOf (s : State) (d : Nat) (e : Edge) (m : Nat) : Option Module :=
  (findDie s d).bind (fun k => (match e with | .a => k.edgeA | .b => k.edgeB)[m]?)
def modModule (s : State) (d : Nat) (e : Edge) (m : Nat) (f : Module → Module) : State :=
  modDie s d (fun k => match e with | .a => { k with edgeA := updAt m f k.edgeA } | .b => { k with edgeB := updAt m f k.edgeB })

/-- A flit that failed CRC is resent: after 16 consecutive failed resends the module retrains. -/
def execFlitCrcResend (die : Nat) (edge : Edge) (module : Nat) (ok : Bool) (s : State) :=
  event (fun s => modModule s die edge module (fun m =>
    if m.retraining || m.disabled then m
    else if ok then { m with fails := 0 }
    else if m.fails + 1 < 16 then { m with fails := m.fails + 1 }
    else { m with fails := 0, retraining := true })) s

/-- A module that retrained works again; one that has not goes on retraining until it is disabled. (DEDUCED: log 38) -/
def execModuleRetrain (die : Nat) (edge : Edge) (module : Nat) (trained : Bool) (s : State) :=
  event (fun s => modModule s die edge module (fun m => if trained && !m.disabled then { m with retraining := false, fails := 0 } else m)) s

/-- A module that failed retraining is disabled and reported. (DESIGN CHOICE: log 35; DEDUCED: log 38) -/
def execModuleDisable (die : Nat) (edge : Edge) (module : Nat) (s : State) :=
  event (fun s =>
    if ((moduleOf s die edge module).map (fun m => m.retraining && !m.disabled)).getD false then
      notify (modModule s die edge module (fun m => { m with retraining := false, disabled := true })) die (.module die edge module)
        { kind := evModFail, extra := BitVec.ofNat 64 (die * 256 + (match edge with | .a => 0 | .b => 1) * 16 + module) }
    else s) s

/-! ### Copies and codes (R311, R397) -/

/-- An unowned copy of a line leaves an L1 (R311); a slice, which the numbers from 176 on name, evicts a dirty line of its own (R62).
(DESIGN CHOICE: log 65) -/
def execL1Eviction (core pa : Nat) (s : State) :=
  event (fun s =>
    if core < 176 then modCore s core (fun k => { k with l1 := k.l1.filter (fun e => e.1 / 128 != pa / 128) })
    else
      match s.partitions.findSome? (fun p => ((dirtyLines s p).find? (fun l => l.1 == pa / 128 && homeSlice p l.2 == core - 176)).map (fun l => (p, l))) with
      | some (p, l) => writeBackFrom s p l
      | none => s) s

/-- The scrubber reads a word: a correctable error is corrected; an uncorrectable word raises no fault (R397), but it is found: UNCORR counts it and
its unit is tested (R398, R399). -/
def execScrubberPass (loc : ArrayLoc) (s : State) :=
  event (fun s => if s.badWords.contains loc then countUncorr s (arrayDie s loc) [loc] else correctWord s loc) s

end Sys2Proof.Machine
end

