-- ==== Sys2Proof/Machine/TapeRec.lean ====
section
/-! DEFINITION. A die's tape store, its entries (R360, R361), and recording (R362, R363). -/
namespace Sys2Proof.Machine

/-- The die of a handle (R360). -/
def tapeDie (h : Nat) : Nat := fldN h 8 2

def findTape (s : State) (h : Nat) : Option Tape := (findDie s (tapeDie h)).bind (fun d => d.tapes.find? (fun t => t.handle == h))
def modTape (s : State) (h : Nat) (f : Tape → Tape) : State :=
  modDie s (tapeDie h) (fun d => { d with tapes := d.tapes.map (fun t => if t.handle = h then f t else t) })
def freeTape (s : State) (h : Nat) : State := modDie s (tapeDie h) (fun d => { d with tapes := d.tapes.filter (fun t => t.handle != h) })

/-- Units of a die's store in use: ten for each tape's header and slot table, and its entries. -/
def tapeUsed (d : Die) : Nat := d.tapes.foldl (fun n t => n + 10 + t.units.length) 0
def tapeStore : Nat := 262144

/-- The fields of a unit (R361), by byte and length. -/
def unitNum (u : TapeUnit) (i n : Nat) : Nat := fldN u.toNat (8 * i) (8 * n)
def unitKind (u : TapeUnit) : Nat := unitNum u 0 1

/-- The slot value of a tape. -/
def slotVal (slots : List DWord) (n : Nat) : Nat := (slots[n]?.getD 0).toNat

/-- The tag that binds an operand, if one does (R37). -/
def tagFor (tags : List Nat) (opd : Nat) : Option Nat :=
  (tags.find? (fun t => t.testBit 7 && fldN t 5 2 == opd)).map (fun t => fldN t 0 5)

/-- A tagged value as an entry stores it (R363). -/
def tagStore (slots : List DWord) (tags : List Nat) (opd bits x : Nat) : Nat :=
  match tagFor tags opd with
  | some n => (x + 2 ^ 64 - slotVal slots n) % 2 ^ bits
  | none => x

/-- The stored value as a replay resolves it (R363). -/
def tagLoad (slots : List DWord) (tags : List Nat) (opd bits x : Nat) : Nat :=
  match tagFor tags opd with
  | some n => (x + slotVal slots n) % 2 ^ bits
  | none => x

/-- The units of a command entry: one, or two where SC is of 64 bits (R361). -/
def commandUnits (slots : List DWord) (tags : List Nat) (wa wb wc : Nat) (c : CmdSpec) : List TapeUnit :=
  let ext := wc = 2
  let va := tagStore slots tags 0 (32 * wa) c.a
  let vb := tagStore slots tags 1 (32 * wb) c.b
  let vc := tagStore slots tags 2 (32 * wc) c.c
  let imm := tagStore slots tags 3 32 c.imm
  let u := 1 + (c.qid + (if ext then 16 else 0)) <<< 8 + c.opc <<< 16 + c.moda <<< 32 + (tags[0]?.getD 0) <<< 48 + (tags[1]?.getD 0) <<< 56
    + imm <<< 64 + (if ext then 0 else vc) <<< 96 + va <<< 128 + vb <<< 192
  BitVec.ofNat 256 u :: (if ext then [BitVec.ofNat 256 (2 + vc <<< 128)] else [])

/-- Units appended to a tape that records; a store without room marks it FULL (R365). -/
def appendUnits (s : State) (h : Nat) (us : List TapeUnit) : State :=
  match findDie s (tapeDie h) with
  | none => s
  | some d =>
    if tapeStore < tapeUsed d + us.length then modTape s h (fun t => { t with full := true })
    else modTape s h (fun t => if t.full then t else { t with units := t.units ++ us })

/-- The words of a source operand. -/
def useWords (u : Use) : Nat := match u with | .src w .. => w | _ => 0

/-- The operand values of an engine command, from the lowest-indexed active lane (R109); with LR the length comes from its register. -/
def specOf (s : State) (x : Issue) (opc : Nat) (y : XWord) (lr : Bool) : CmdSpec :=
  let imm := xtail y 2 32
  let useLr := lr && xmod y 3 1 == 1
  let len := if useLr then
      (match opndOfCode (xtail y 34 9) with | some o => srcVal s x (.reg 1) o x.lead | none => 0)
    else imm
  { opc := opc, moda := y.moda.toNat, qid := xqid y, imm := imm, len := len, a := rdA s x x.lead, b := rdB s x x.lead, c := rdC s x x.lead }

/-- What a recorded entry holds of a command: LR cleared, the length in IMM; a `coll` keeps its group id above its count (R362). -/
def recordedSpec (c : CmdSpec) (lr : Bool) : CmdSpec :=
  if lr && c.moda.testBit 3 then
    { c with moda := c.moda - 8, imm := if c.opc = 0x208 then fldN c.imm 28 4 <<< 28 + c.len % 2 ^ 28 else c.len }
  else c

/-- A command that a recording conductor issued is appended to its tape (R362). -/
def recordCmd (x : Issue) (y : XWord) (c : CmdSpec) (lr : Bool) (s : State) : State :=
  match (findGroup s x.g.id).map Group.tape with
  | some (.recording h) =>
    match findTape s h with
    | some t =>
      let g := sigOf x.i
      appendUnits s h (commandUnits t.slots (xtags y) (useWords g.sa) (useWords g.sb) (useWords g.sc) (recordedSpec c lr))
    | none => s
  | _ => s

/-- A recording conductor that waits at its last recorded unit records it anew when it executes its instruction again (R362). -/
def unrecordWait (s : State) (gid : Nat) : State :=
  match findGroup s gid with
  | none => s
  | some g =>
    match g.tape, g.state, g.wait with
    | .recording h, .park, .bar .. | .recording h, .park, .qfence _ => modTape s h (fun t => if t.full then t else { t with units := t.units.dropLast })
    | _, _, _ => s

/-- A conductor issued what a tape cannot hold: the tape is marked (R362). -/
def markUnrec (s : State) (gid : Nat) : State :=
  match (findGroup s gid).map Group.tape with
  | some (.recording h) => modTape s h (fun t => { t with unrec := true })
  | _ => s

/-- A command of the control queue that is performed as it issues (R109). -/
def isCtl (opc : Nat) : Bool := [0x210, 0x211, 0x212, 0x213, 0x215, 0x228].contains opc

/-- The accesses of a group that are performed as its command issues: all earlier ones for a command that is performed at once; those of a queued
command wait for them in its queue, where the schedule says so (R109, R312, case 9). (DESIGN CHOICE: log 3) -/
def cmdPoint (s : State) (gid opc : Nat) : State := if isCtl opc then drainGroup s gid else readPoint s gid

/-- The frame of a recordable engine command issued by a group: after the group's earlier accesses (R109), as a release where `rel` says
so, with the values of the lowest-indexed active lane. A control command waits for the earlier ones, but a `qfence` without C, which only orders
commands, lets the group go on at once (R110). -/
def engineCmd (x : Issue) (s : State) (y : XWord) (opc : Nat) (lr rel : Bool) (cmd : State → Issuer → CmdSpec → CRes) : IRes :=
  groupWide x s fun s => relIf rel x s fun s =>
    let s := cmdPoint s x.g.id opc
    let c := specOf s x opc y lr
    if isCtl opc && ctlBusy s x.g.id && !(opc == 0x228 && !c.moda.testBit 0) then .park s (.queueRoom x.g.core ctlQueue)
    else cmdRes x (cmd s (groupIssuer s x.g) c) (recordCmd x y c lr)

end Sys2Proof.Machine
end

