-- ==== Sys2Proof/Machine/BarIns.lean ====
section
/-! DEFINITION. The barrier instructions (R107), `pres` (R97) and `qfence` (R110). -/
namespace Sys2Proof.Machine

def barErrRes (s : State) : CRes := .err s 0 ⟨kBARERR, 0, 0⟩

/-- A barrier command on its resolved barrier. -/
def withBar (s : State) (i : Issuer) (c : CmdSpec) (write reads : Bool) (k : State → BarRef → Bar → CRes) : CRes :=
  match resolveBar s i (c.moda % 4) c.a 3 write reads with
  | .stop r => r
  | .ok s r => k s r (barOfBits (barRead s r))

/-- `bar.init`: the Reset column with a count; parked groups are released with BARERR (R107). -/
def barInit (s : State) (i : Issuer) (c : CmdSpec) : CRes :=
  withBar s i c true false fun s r _ =>
    if c.b = 0 ∨ 2 ^ 20 ≤ c.b then barErrRes s else .ok (trapBar (barWrite s r (barInitBits c.b)) r kBARERR) 0

/-- `bar.arrive`. -/
def barArrive (s : State) (i : Issuer) (c : CmdSpec) : CRes :=
  withBar s i c true true fun s r b =>
    if !b.val || decide (b.arr < c.b) then barErrRes s
    else if c.b = 0 then .ok s b.phase
    else .ok (barUpdate s r { b with arr := b.arr - c.b }) b.phase

/-- `bar.expect` and `bar.expect.arrive`. -/
def barExpect (s : State) (i : Issuer) (c : CmdSpec) : CRes :=
  withBar s i c true true fun s r b =>
    let arv := c.moda.testBit 2
    let n := b.sect + (c.b : Int)
    if !b.val || decide (2 ^ 31 ≤ n) || (arv && b.arr == 0) then barErrRes s
    else .ok (barUpdate s r { b with sect := n, arr := if arv then b.arr - 1 else b.arr }) 0

/-- `bar.wait`: returns at once, as an acquire, where the phase differs from the token. -/
def barWait (s : State) (i : Issuer) (c : CmdSpec) : CRes :=
  withBar s i c false true fun s r b =>
    if !b.val then barErrRes s
    else if b.phase != c.b % 16 then .ok (acquireNow s i.g.id) (barStatus b c.b)
    else
      match r with
      | .loc co o _ => .held s (.bar o (some co) c.b c.a)
      | .glob _ _ p => .held s (.bar p none c.b c.a)
      | .none => .ok s 0

/-- `bar.inval`: VAL cleared; parked groups are released with BARERR. -/
def barInval (s : State) (i : Issuer) (c : CmdSpec) : CRes :=
  withBar s i c true true fun s r b =>
    .ok (trapBar (barWrite s r (barToBits (barRead s r) { b with val := false })) r kBARERR) 0

def execBarInit (y : XWord) (s : State) := issue (.barInit y) s fun x s => engineCmd x s y 0x210 false false barInit
def execBarArrive (y : XWord) (s : State) := issue (.barArrive y) s fun x s => engineCmd x s y 0x211 false true barArrive
def execBarExpect (y : XWord) (s : State) := issue (.barExpect y) s fun x s => engineCmd x s y 0x212 false (xmod y 2 1 == 1) barExpect
def execBarWait (y : XWord) (s : State) := issue (.barWait y) s fun x s => engineCmd x s y 0x213 false false barWait
def execBarInval (y : XWord) (s : State) := issue (.barInval y) s fun x s => engineCmd x s y 0x215 false false barInval

/-- The 16 bytes that a lane's access names. -/
def laneBits (s : State) (k : LaneOk) : Nat :=
  match k.loc with
  | some (c, o) => rdLocalNum s c o 16
  | none => rdNum s ((List.range 16).map (k.place + ·))

/-- Correctable errors in the global barriers that the lanes read are corrected (R397). -/
def barReads (s : State) (ls : List LaneOk) : State :=
  ls.foldl (fun s k => if k.loc.isNone then correctPlaces s ((List.range 16).map (k.place + ·)) else s) s

/-- `bar.test` (R107): each lane reads its barrier once; where one reports DONE it is an acquire (R106). -/
def execBarTest (f : FWord) (s : State) :=
  issue (.barTest f) s fun x s => anyLane x s (
    let s := markUnrec (readPoint s x.g.id) x.g.id
    match checkLanes s x (spaceOf (fmod f 0 2)) 16 16 1 true false true (baseAddrs s x) with
    | .stop r => r
    | .ok s ls =>
      let s := drainOver s x.g.id ((ls.filter (fun k => k.loc.isNone)).map (fun k => (k.place, 16)))
      match lostLanes s ls with
      | (k :: ks, s) => lostTrap s x 1 k ks
      | ([], s) =>
      match ls.filter (fun k => k.loc.isNone && badPlaces s ((List.range 16).map (k.place + ·))) with
      | b :: bs =>
        .trap (noteBad s ((b :: bs).flatMap (fun k => memLocs ((List.range 16).map (k.place + ·))))) { kind := kMEMERR, mask := (b :: bs).map (·.lane), daddr := BitVec.ofNat 64 b.va, acc := 1, asid := asidOf s x.g }
      | [] =>
        let s := barReads s ls
        let vs := ls.map (fun k => (k.lane, barStatus (barOfBits (laneBits s k)) (rdB s x k.lane)))
        let s := modGroup s x.g.id (fun g => putDst g x.i vs)
        .done (if vs.any (fun v => v.2.testBit 31) then acquireNow s x.g.id else touchRead s x.g.id) [])

/-! ### Presence (R97) -/

/-- The core and first line of each active lane's 32 lines, or the first error. -/
def presOp (x : Issue) (s : State) (bit : State → Nat → Nat → Bool) (clear : Bool) : IRes :=
  let as := baseAddrs s x
  let es := as.filterMap (fun (l, a) =>
    if a % 128 != 0 then some (l, (⟨kALIGN, 0, a⟩ : LaneErr))
    else if (localTarget s x.g a 4096).isNone then some (l, ⟨kSEG, 0, a⟩) else none)
  match firstErr es with
  | some (e, m) => .trap s { kind := e.kind, mask := m, daddr := BitVec.ofNat 64 e.daddr }
  | none =>
    let ts := as.filterMap (fun (l, a) => match localTarget s x.g a 4096 with | some (.loc c o) => some (l, c, o / 128) | _ => none)
    let vs := ts.map (fun (l, c, n) => (l, maskOf ((List.range 32).filter (fun i => bit s c (n + i)))))
    let s := if clear then ts.foldl (fun s (_, c, n) => (List.range 32).foldl (fun s i => modLine s c (n + i) (fun k => { k with failed := none })) s) s
      else s
    .done (modGroup s x.g.id (fun g => putDst g x.i vs)) []

def lineFailed (s : State) (c n : Nat) : Bool := (getLine s c n).failed.isSome
def linePresent (s : State) (c n : Nat) : Bool := wpend s c n == 0

/-- `pres.q`, `pres.f` and `pres.clr`. -/
def execPresQ (f : FWord) (s : State) := issue (.presQ f) s fun x s => presOp x s linePresent false
def execPresF (f : FWord) (s : State) := issue (.presF f) s fun x s => presOp x s lineFailed false
def execPresClr (f : FWord) (s : State) := issue (.presClr f) s fun x s => presOp x s lineFailed true

/-! ### `qfence` (R110) -/

/-- The group's earlier commands in the queues of a mask. -/
def cmdsIn (s : State) (gid mask : Nat) : List Cmd := s.cmds.filter (fun c => c.grp == gid && mask.testBit c.queue)

/-- `qfence`: later commands of the group in the queues stand behind the earlier ones; with C the group waits for them and gets the number
that failed and named no barrier. `dst` of a replay is not written. (DEDUCED: log 31) -/
def qfenceCmd (s : State) (i : Issuer) (c : CmdSpec) : CRes :=
  let mask := c.imm % 256
  let cs := cmdsIn s i.g.id mask
  if c.moda.testBit 0 then
    if cs != [] then .wait s (.qfence mask)
    else
      let n := (i.g.failed.filter (fun e => mask.testBit e.1)).length
      let s := modGroup s i.g.id (fun g => { g with failed := g.failed.filter (fun e => !mask.testBit e.1) })
      .ok (acquireNow s i.g.id) n
  else
    .ok (if cs = [] then s else modGroup s i.g.id (fun g => { g with fences := g.fences ++ [(mask, cs.map (·.id))] })) 0

def execQfence (y : XWord) (s : State) := issue (.qfence y) s fun x s => engineCmd x s y 0x228 false (xmod y 0 1 == 1) qfenceCmd

end Sys2Proof.Machine
end

