-- ==== Sys2Proof/Machine/Windows.lean ====
section
/-! DEFINITION. Windows: mapping, write-back, unmapping, eviction (R98 to R102). -/
namespace Sys2Proof.Machine

/-- What a write-back of a line meets. -/
inductive WbRes where
  | ok (s : State)
  | fault (s : State) (cause va : Nat)
  | mig (s : State)

/-- A dirty line's dirty bytes, and only those, stored at a physical address; the line becomes clean (R100), and an
uncorrectable word stays so where it goes (R397). A write-back is a set of global
stores, which the sampler sees (R90, R101). A path that is cut, or an error reply, answers cause 0. -/
def storeLineAt (s : State) (t : Team) (d : Dispatch) (p : Partition) (w : Window) (line pa : Nat) : WbRes :=
  let va := windowVa w line
  let (lost, s) := errorReply s [pa]
  if !reachable s p (coreDie t.core) pa || lost then .fault s 0 va
  else
    let m := (getLine s t.core line).mask
    let bs := (List.range 128).filterMap (fun i => if m.getLsbD i then some (128 * line + i, placeOf p (pa + i)) else none)
    let s := settleSlots (countTraffic (sampleCore (correctLocs s (lmemLocs t.core (128 * line) 128)) p d t.core va 1) p (coreDie t.core) pa) p [pa]
    let s := carryBad (wrCoherent s (bs.map (fun b => (b.2, rdLocal s t.core b.1)))) t.core bs
    .ok (modLine s t.core line (fun l => { l with win := 2, mask := 0 }))

/-- A line written back through a fresh translation, which the map unit then holds (R86, R100). -/
def writeBackWindow (s : State) (t : Team) (w : Window) (line : Nat) : WbRes :=
  match findDisp s t.disp with
  | none => .ok s
  | some d =>
    let va := windowVa w line
    let (s', r) := translate { s with tlb := [] } (ctxOn d t.core) va .write
    let s' := { s' with tlb := s.tlb }
    match r, dispPart s' d with
    | .fault c, _ => .fault s' c va
    | .mig, _ => .mig s'
    | .rem, _ => .fault s' 0 va
    | _, none => .ok s'
    | .ok pa, some p => storeLineAt (holdPage s' t w va pa) t d p w line pa

/-- A line written back through the translation that the map unit holds, or a fresh one where it holds none (R86). (DEDUCED: log 30) -/
def writeBackHeld (s : State) (t : Team) (w : Window) (line : Nat) : WbRes :=
  let va := windowVa w line
  match (findDisp s t.disp).bind (fun d => (dispPart s d).map (fun p => (d, p))), w.pages.find? (fun e => e.1 == va / 65536) with
  | some (d, p), some e => storeLineAt s t d p w line (e.2 + va % 65536)
  | _, _ => writeBackWindow s t w line

/-- A line written back through the leaf of a mapping that migrates (R86, R89). -/
def writeBackOld (s : State) (t : Team) (w : Window) (line : Nat) : State :=
  match (findDisp s t.disp).bind (fun d => (dispPart s d).map (fun p => (d, p))) with
  | none => s
  | some (d, p) =>
    let va := windowVa w line
    match oldLeaf s p va [4, 3, 2, 1, 0] (fldN (ofLeBytes (d.ascr.take 8)) 12 40 * 4096) with
    | none => s
    | some pa => (match storeLineAt s t d p w line pa with | .ok s => s | .fault s _ _ => s | .mig s => s)

/-- The lines of a window in a state. -/
def windowLines (s : State) (t : Team) (w : Window) (st : Nat) : List Nat :=
  (linesOfRange w.base w.len).filter (fun l => (getLine s t.core l).win == st)

/-- Dirty lines written back in order (R102): those of a page whose fault was delivered, and those whose home no path reaches, are passed over; any
other line that faults stops the run. -/
def writeBackAll (s : State) (t : Team) (w : Window) : List Nat → Nat → State × Nat × Option WbRes
  | [], n => (s, n, none)
  | l :: ls, n =>
    if w.skip.contains (windowVa w l / 65536) then writeBackAll s t w ls n
    else
      match writeBackWindow s t w l with
      | .ok s => writeBackAll s t w ls (n + 1)
      | .fault s 0 _ => writeBackAll s t w ls n
      | r => (s, n, some r)

/-- `wmap` (R102). (DEDUCED: log 30) -/
def wmapOp (x : Issue) (s : State) (y : XWord) : IRes :=
  groupWide x s fun s =>
    let s := markUnrec (drainGroup s x.g.id) x.g.id
    let a := rdA s x x.lead
    let va := rdB s x x.lead
    let n := rdC s x x.lead
    let w := xtail y 2 4
    if ctlBusy s x.g.id then .park s (.queueRoom x.g.core ctlQueue) else
    let err (k : Nat) (d : Nat) : IRes := raiseErr s x 0 (asidOf s x.g) ⟨k, 0, d⟩ x.act
    if a % 4096 != 0 ∨ n % 4096 != 0 then err kALIGN a
    else if va % 128 != 0 then err kALIGN va
    else
      match teamOf s x.g, dispOf s x.g, localTarget s x.g a n with
      | some t, some d, some (.loc c o) =>
        if n = 0 then err kSEG a
        else if !canonical va ∨ 2 ^ 57 < va57 va + n then err kSEG va
        else if !inLease d (va57 va) n then err kLEASE va
        else
          let used := ((s.teams.filter (fun t => t.core == c && t.frame.isNone)).map (·.windows.length)).foldl (· + ·) 0
          if 16 ≤ used then doneWith s x (1 <<< 24)
          else if t.windows.any (fun v => overlap v.base v.len o n) then doneWith s x (2 <<< 24)
          else if t.windows.any (fun v => v.name == w) then doneWith s x (3 <<< 24)
          else
            let s := modTeamOf s x.g (fun t => { t with windows := t.windows ++ [⟨w, o, n, va57 va, false, 0, [], []⟩] })
            doneWith ((linesOfRange o n).foldl (fun s l => modLine s c l (fun k => { k with win := 1, mask := 0 })) s) x 0
      | _, _, _ => err kSEG a

def execWmap (y : XWord) (s : State) := issue (.wmap y) s fun x s => wmapOp x s y

/-- `wflush` and `wunmap` (R102): as by `fence.ar`, then every dirty line is written back; a fault parks the instruction, which goes on counting
where it stood, and lines whose fault was delivered or whose home is not reached stay dirty and yield code 1. (DEDUCED: log 30) -/
def wflushOp (x : Issue) (s : State) (y : XWord) (inv unmap : Bool) : IRes :=
  groupWide x s fun s =>
    let w := xtail y 2 4
    if ctlBusy s x.g.id then .park s (.queueRoom x.g.core ctlQueue) else
    withRelease x (markUnrec s x.g.id) x.act fun s =>
    let s := acquireNow s x.g.id
    match teamOf s x.g, dispOf s x.g with
    | some t, some d =>
      match t.windows.find? (fun v => v.name == w) with
      | none => doneWith s x (2 <<< 24)
      | some v =>
        let ls := windowLines s t v 3
        let fin (s : State) (n code : Nat) : IRes :=
          let s := if inv then (windowLines s t v 2).foldl (fun s l => modLine s t.core l (fun k => { k with win := 1, mask := 0 })) s else s
          let s := modWindow s t.disp t.teamid w (fun v => { v with written := 0, skip := [] })
          let s := if unmap ∧ code = 0 then
              modTeamOf ((linesOfRange v.base v.len).foldl (fun s l => modLine s t.core l (fun k => { k with win := 0, mask := 0 })) s) x.g
                (fun t => { t with windows := t.windows.filter (fun u => u.name != w) })
            else s
          doneWith s x (code <<< 24 + n % 2 ^ 24)
        let halt (s : State) (n : Nat) : State := modWindow s t.disp t.teamid w (fun v => { v with written := n })
        match writeBackAll s t v ls v.written with
        | (_, n, some (.mig s)) => .park (halt s n) (.migration (dispAsid d))
        | (_, n, some (.fault s c va)) =>
          if leased d then .gone (endWith s x.g.id kLEASE x.pc (dispAsid d) 2 x.act (BitVec.ofNat 64 va))
          else .gone (raiseFault (halt s n) x.g.id x.pc (dispAsid d) (BitVec.ofNat 64 va) c 2 x.act 2)
        | (s, n, _) => fin s n (if (windowLines s t v 3).isEmpty then 0 else 1)
    | _, _ => .done s []

def execWunmap (y : XWord) (s : State) := issue (.wunmap y) s fun x s => wflushOp x s y false true
def execWflush (y : XWord) (s : State) := issue (.wflush y) s fun x s => wflushOp x s y (xmod y 0 1 == 1) false

/-- The map unit evicts a dirty line (R100): its bytes are written back and it stays, clean; a fault leaves it dirty and is reported at
the next `wflush` or `wunmap`, whose own write-back of the line meets it. -/
def execWindowEviction (core line : Nat) (s : State) :=
  event (fun s =>
    if (getLine s core line).win != 3 then s
    else
      match windowAt s core (128 * line) with
      | none => s
      | some (t, w) =>
        match writeBackWindow s t w line with
        | .ok s => s
        | .mig s => s
        | .fault s _ _ => s) s

end Sys2Proof.Machine
end

