-- ==== Sys2Proof/Machine/Translation.lean ====
section
/-! DEFINITION. Address-space descriptors and epochs (R76, R85), the sampler's configuration (R90 to R92), and the steps of loads,
stores and atomics in flight. -/
namespace Sys2Proof.Machine

/-! ### Address-space descriptors (R76) -/

/-- A die reaches a physical address, wherever it lies (R54). -/
def reachesPa (s : State) (die pa : Nat) : Bool := ((ringPart s pa).map (fun p => reachable s p die pa)).getD true

/-- Where the descriptor of an address space lies. -/
def descriptorPa (s : State) (asid : Nat) : Nat := fldN s.astab.toNat 15 37 * 32768 + 32 * asid

/-- The descriptor of an address space, wherever the table lies (R73, R76), as a die reads it; none where translation is not enabled or the die
does not reach the table (R54). (DEDUCED: log 68) -/
def readDescriptor (s : State) (die asid : Nat) : Option (List Byte) :=
  if s.astab.getLsbD 0 then
    let pa := descriptorPa s asid
    if reachesPa s die pa then (ringPart s pa).map (fun p => rdPa s p pa 32) else none
  else none

/-- The epoch array of a valid address space. -/
def epochsOf (s : State) (die asid : Nat) : Option Nat :=
  (readDescriptor s die asid).bind (fun b => if qNum b 0 8 % 2 = 1 then some (fldN (qNum b 8 8) 10 42 * 1024) else none)

/-- A die does not reach the descriptor of an address space, or the epochs of some of its regions (R54). -/
def epochsCut (s : State) (die asid : Nat) (is : List Nat) : Bool :=
  s.astab.getLsbD 0 && (!reachesPa s die (descriptorPa s asid)
    || ((epochsOf s die asid).map (fun e => is.any (fun i => !reachesPa s die (e + 4 * i)))).getD false)

/-- Epochs incremented, each once, at their home slices. -/
def bumpEpochs (s : State) (base : Nat) (is : List Nat) : State :=
  match ringPart s base with
  | none => s
  | some p => is.foldl (fun s i => wrPa s p (base + 4 * i) (leBytes 4 (rdPaNum s p (base + 4 * i) 4 + 1))) s

/-- The region indices of a range (R86). -/
def regionsOf (va n : Nat) : List Nat :=
  if n = 0 then []
  else
    let k := (va + n - 1) / 2 ^ 37 + 1 - va / 2 ^ 37
    if 256 ≤ k then List.range 256 else ((List.range k).map (fun i => (va / 2 ^ 37 + i) % 256)).eraseDups

/-! ### `smpcfg` (R92) -/

/-- A die that answers requests: in SERVICE, or FREEZING before its quiesce point (R417). -/
def dieAnswers (s : State) (d : Nat) : Bool := ((findDie s d).map dieServing).getD false

/-- The frame of the forms of `smpcfg`: a die that does not answer or that no path reaches raises REMERR (R54, R417), a sampler under test holds the
command (R399), and an operand outside its range raises SEG. (DEDUCED: log 33) -/
def smpcfgOp (x : Issue) (s : State) (y : XWord) (bad : Nat → Nat → Bool) (f : Nat → Nat → Nat → State → Nat × State) : IRes :=
  groupWide x s fun s =>
    let d := xmod y 3 2
    let a := rdA s x x.lead
    let b := rdB s x x.lead
    if !diesReach s (dieOf x.g) d 0 then .trap s { kind := kREMERR, mask := x.act }
    else if unitHeld s d .sampler then .park s .again
    else if bad a b then raiseErr s x 0 0 ⟨kSEG, 0, a⟩ x.act
    else let (v, s) := f d a b s; doneWith s x v

/-- `.conf`: LOG2N, THRESH and HOT; the sampling counter restarts. -/
def execSmpcfgConf (y : XWord) (s : State) :=
  issue (.smpcfgConf y) s fun x s => smpcfgOp x s y
    (fun a _ => let n := fldN a 0 5; (decide (0 < n) && decide (n < 6)) || decide (20 < n) || fldN a 8 12 == 0)
    (fun d a _ s => (0, modSampler s d (fun p =>
      { p with log2n := fldN a 0 5, thresh := fldN a 8 12, hot := a.testBit 20, counter := 0 })))

/-- `.ring`: a ring attached. -/
def execSmpcfgRing (y : XWord) (s : State) :=
  issue (.smpcfgRing y) s fun x s => smpcfgOp x s y (fun a b => a % 64 != 0 || decide (1 < b))
    (fun d a b s => (0, modSampler s d (fun p => if b = 0 then { p with ring := some a } else { p with notify := some a })))

/-- `.ack`: QUEUED cleared and the count reset; the previous count is the answer. -/
def execSmpcfgAck (y : XWord) (s : State) :=
  issue (.smpcfgAck y) s fun x s => smpcfgOp x s y (fun a _ => decide (4095 < a))
    (fun d a _ s =>
      match (findDie s d).bind (fun k => Sparse.get none k.sampler.table a) with
      | none => (0, s)
      | some h => (h.count, modSampler s d (fun p => { p with table := Sparse.put none p.table a (some { h with queued := false, count := 0 }) })))

/-- `.reset`: every entry cleared; notifications still held are counted in OVERFLOW. -/
def execSmpcfgReset (y : XWord) (s : State) :=
  issue (.smpcfgReset y) s fun x s => smpcfgOp x s y (fun _ _ => false)
    (fun d _ _ s => (0, modSampler s d (fun p =>
      { p with table := [],
               overflow := min 0xFFFFFFFF (p.overflow + (p.table.filter (fun e => (e.2.map (·.pending)).getD false)).length) })))

/-- `.stat`: a counter read. -/
def execSmpcfgStat (y : XWord) (s : State) :=
  issue (.smpcfgStat y) s fun x s => smpcfgOp x s y (fun _ b => decide (2 < b))
    (fun d _ b s =>
      let p := ((findDie s d).map (·.sampler)).getD samplerReset
      (match b with | 0 => p.smplost | 1 => p.overflow | _ => p.hotmiss, s))

/-- An access that reaches a die's sampler (R90, R91). -/
def execAccessSample (die : Nat) (a : SampledAccess) (s : State) := event (fun s => sampleAccess s die a) s

/-- The notification queue has room: pending entries are posted (R91). -/
def execHotPagePendingPost (die : Nat) (s : State) := event (fun s => hotPost s die) s

/-! ### Accesses in flight -/

/-- A load's reply (R137, R419). -/
def execLoadReply (grp seq : Nat) (errLanes : DWord) (s : State) :=
  event (fun s =>
    if ((findGroup s grp).map (fun g => g.flights.any (fun f => f.seq == seq && !isAtomFlight f))).getD false then
      returnFlight s grp seq errLanes
    else s) s

/-- An atomic's return (R302, R317, R419). -/
def execAtomicReturn (grp seq : Nat) (errLanes : DWord) (s : State) :=
  event (fun s =>
    if ((findGroup s grp).map (fun g => g.flights.any (fun f => f.seq == seq && isAtomFlight f))).getD false then
      returnFlight s grp seq errLanes
    else s) s

/-- A store's registration acknowledged, or refused (R139, R310). -/
def execStoreRegistrationAck (grp seq : Nat) (err : Bool) (s : State) := event (fun s => storeAck s grp seq err) s

/-- A request served at its home slice (R61, R65). -/
def execSliceAccess (grp seq : Nat) (s : State) := event (fun s => sliceAccess s grp seq) s

end Sys2Proof.Machine
end

