-- ==== Sys2Proof/Machine/Accept.lean ====
section
/-! DEFINITION. Dispatch records, acceptance and refusal, lease preparation, requests of pre-emption (R82, R320 to R324, R342, R393). -/
namespace Sys2Proof.Machine

/-! ### The record's limits (R320, R342) -/

def zeroAt (r : List Byte) (i n : Nat) : Bool := qNum r i n == 0

/-- A field of a dispatch record outside its limits, or a nonzero reserved byte (R320, R321); reserved bits of other fields are ignored (R5). -/
def recordBad (d : Dispatch) : Bool :=
  let b := recByte d
  let n := recNum d
  let det := dispDet d
  n 0 8 % 8 != 0 || decide (3 < b 20) || b 21 == 0 || decide (32 < b 21) || decide (128 < b 22) || b 23 == 0 || decide (32 < b 23)
  || b 24 == 0 || decide (4 < b 24) || b 25 == 0 || decide (11 < b 25) || decide (12 < b 24 * b 25) || !([0, 1, 2, 4, 8].contains (b 26))
  || n 32 4 == 0 || decide (2 ^ 24 ≤ n 32 4)
  || (if det then n 36 4 == 0 || decide (4096 < n 36 4) else n 36 4 != 0)
  || (b 40 != 0 && (decide (b 40 < 10) || decide (30 < b 40))) || !zeroAt d.record 41 3
  || (if dispTask d then n 88 8 == 0 || n 88 8 % 64 != 0 else n 88 8 != 0)
  || (List.range 8).any (fun i => n (96 + 16 * i) 8 % 65536 != 0 || n (104 + 16 * i) 8 % 65536 != 0) || !zeroAt d.record 224 32

/-- A node descriptor outside its limits (R355). -/
def nodeBad (q : List Byte) (k : Nat) : Bool :=
  let o := nodeOff k
  let f := qNum q (o + 9) 1
  qNum q o 8 % 64 != 0 || decide (64 < qNum q (o + 8) 1) || (f != 0 && (decide (f < 10) || decide (20 < f))) || !zeroAt q (o + 10) 2
    || !zeroAt q (o + 16) 4 || !zeroAt q (o + 20) 12

/-- A queue descriptor outside its limits (R342). -/
def queueBad (q : List Byte) : Bool :=
  qNum q 0 8 % 4096 != 0 || decide (qNum q 8 1 < 6) || decide (20 < qNum q 8 1) || !zeroAt q 9 7 || decide (qCount q < qUsed q)
    || (List.range 7).any (fun i => nodeBad q (i + 1))

/-! ### Host queues' entries and refusals (R406 to R408) -/

/-- An entry of a host queue has completed. -/
def doneEntry (s : State) (q e : Nat) : State := modQueue s q (fun h => { h with busy := h.busy.filter (· != e) })

/-- The first die of a partition. -/
def partDie (s : State) (p : Nat) : Nat := ((findPart s p).bind (·.dies.head?)).getD 0

/-- A REFUSED record: to the queue's NOTIFY ring with the entry in EXTRA (R408), or to SYSNQ for a `launch` (R358). -/
def postRefused (s : State) (part : Nat) (sub : Submitter) (entry disp : Nat) : State :=
  let q : PostQueue := match sub with | .host q => .host q | .launch _ => .sysnq
  postRec s q (partDie s part) (.unit (partDie s part) unitSched) (recWords { kind := evRefused, extra := BitVec.ofNat 64 entry, disp := disp } s.clk)

/-- A refusal reported to the submitter: a host queue's entry is over; a `launch` fails with its full credit and ERR (R321, R358). -/
def refuseTo (s : State) (part : Nat) (sub : Submitter) (entry disp : Nat) : State :=
  let s := postRefused s part sub entry disp
  match sub with
  | .host q => doneEntry s q entry
  | .launch c => match findCmd s c with | some k => failCmd s k [] ⟨evRefused, 0, 0, 0⟩ | none => s

/-! ### Requests of pre-emption (R393) -/

/-- The cluster's teams lie inside what a request covers. (DEDUCED: log 47) -/
def covers (s : State) (sc : PreemptScope) (c : Cluster) : Bool :=
  match sc with
  | .all => true
  | .core k => s.teams.any (fun t => t.disp == c.disp && t.clid == c.clid && t.core == k)
  | .die d => s.teams.any (fun t => t.disp == c.disp && t.clid == c.clid && coreDie t.core == d)

/-- The running clusters that a request covers are to be saved. -/
def requestSave (s : State) (disp : Nat) (sc : PreemptScope) : State :=
  { s with clusters := s.clusters.map (fun c => if c.disp = disp ∧ c.state = .running ∧ covers s sc c then { c with state := .saving } else c) }

/-- A dispatch pre-empted whole for another, which resumes it at its end; one that does not run is ignored (R407). -/
def preemptFor (s : State) (victim disp : Nat) : State :=
  match findDisp s victim with
  | some v =>
    if v.preempt != 0 || v.state != .running then s
    else requestSave (modDisp s victim (fun d => { d with preempt := 2, preemptFor := disp })) victim .all
  | none => s

/-- PREEMPTION_REQUEST (R393): a whole dispatch as `ctxsave.pre` asks, or the clusters on a core or die. -/
def execPreemptionRequest (disp : Nat) (scope : PreemptScope) (s : State) :=
  event (fun s =>
    match findDisp s disp with
    | none => s
    | some _ =>
      let s := if scope = .all then modDisp s disp (fun d => { d with preempt := 1, preemptFor := 0 }) else s
      requestSave s disp scope) s

/-! ### Acceptance (R321 to R324) -/

/-- The first id from a count up that no dispatch uses, and never 0 (R324); among two more numbers than there are dispatches there is one. -/
def freshId (s : State) : Nat → Nat → Nat
  | 0, n => n % 2 ^ 32
  | k + 1, n => if n % 2 ^ 32 = 0 ∨ (findDisp s (n % 2 ^ 32)).isSome then freshId s k (n + 1) else n % 2 ^ 32

/-- The record's bytes with a `launch`'s override (R358). -/
def overridden (b : List Byte) (o : Option (Nat × DWord)) : List Byte :=
  match o with
  | some (1, x) => b.take 28 ++ leBytes 1 (qNum b 28 1 ||| 16) ++ (b.drop 29).take 19 ++ leBytes 8 x.toNat ++ b.drop 56
  | some (2, x) => b.take 56 ++ leBytes 8 x.toNat ++ b.drop 64
  | _ => b

/-- The dispatch that a submission pre-empts: one of its own partition that runs, and is not pre-empted; any other number is
ignored (R407). -/
def victimOf (s : State) (b : Submission) : Option Dispatch :=
  if b.preempt = 0 then none else (findDisp s b.preempt).filter (fun v => v.part == b.part && v.state == .running && v.preempt == 0)

/-- The right to pre-empt (R407): the queue's system right, or a common address space. -/
def mayPreempt (s : State) (b : Submission) (d : Dispatch) : Bool :=
  match victimOf s b with
  | some v => b.sysRight || dispAsid v == dispAsid d
  | none => true

/-- The checks of R321 that the record as read decides, and those of R342 and R358. -/
def acceptable (s : State) (b : Submission) (p : Partition) (d : Dispatch) : Bool :=
  !recordBad d && fitsEmpty (recByte d 20) (recByte d 21) (dispTgrps d) (dispLocalG d)
  && !(rectangles s p (dispClW d) (dispClH d)).isEmpty
  && (!dispDet d || dispVgrid d % max 1 (dispClsize d) == 0)
  && (!dispSys d || b.sysRight) && s.astab.getLsbD 0
  && (match b.asidBound with | some a => dispAsid d == a | none => true) && mayPreempt s b d

/-- The queue descriptor of a task dispatch, read at acceptance, is within its limits (R342). (DEDUCED: log 41) -/
def taskQueueOk (s : State) (d : Dispatch) (die : Nat) : State × Bool :=
  if dispTask d then
    match readQueue s d die with
    | (s, some q) => (s, !queueBad q)
    | (s, none) => (s, false)
  else (s, true)

/-- Whether preparation is over: the dispatch runs, and what it pre-empts is asked to stop (R82, R407). -/
def startDispatch (s : State) (id : Nat) : State :=
  match findDisp s id with
  | none => s
  | some d => preemptFor (modDisp s id (fun d => { d with state := .running })) d.victim id

/-- The context in which a submission's record is read. -/
def subCtx (b : Submission) : XCtx := ⟨b.part, b.asid, b.ascr, b.die, none⟩

/-- The dispatch of a submission whose record reads as given (R320 to R324, R358). -/
def submitted (s : State) (b : Submission) (raw : List Byte) : Dispatch :=
  let rec_ := overridden raw b.ovr
  let seed := if (qNum rec_ 28 2).testBit 4 then BitVec.ofNat 64 (qNum rec_ 48 8) else s.seedReg
  { id := freshId s (s.dispatches.length + 2) s.nextDisp.toNat, part := b.part, record := rec_,
    ascr := (readDescriptor s b.die (qNum rec_ 30 2 % 4096)).getD [], seed := seed, state := .preparing, sub := b.sub,
    entry := b.entry, signal := b.signal, victim := ((victimOf s b).map (·.id)).getD 0, nextTeam := 0, prepared := 0, waitTag := none, pins := [], preempt := 0,
    preemptFor := 0, nodes := [] }

/-- A submission's record, or its task queue, lies in a page under migration: it waits (R89). -/
def subMigs (s : State) (b : Submission) : Bool :=
  vaMigs s (subCtx b) .read b.recVa 256 || vaMigs s (subCtx b) .write (b.recVa + 44) 4
    || (match rdVa s (subCtx b) b.recVa 256 with
       | (s, some raw) => let d := submitted s b raw; dispTask d && vaMigs s (ctxOf d b.die) .read (taskqVa d) 256
       | _ => false)

/-- A submission accepted or refused, at one moment (R321). (DEDUCED: log 41) -/
def acceptSub (s : State) (b : Submission) : State :=
  let x := subCtx b
  match findPart s b.part, rdVa s x b.recVa 256 with
  | some p, (s, some raw) =>
    let d := submitted s b raw
    let id := d.id
    if !acceptable s b p d ∨ (readDescriptor s b.die (dispAsid d)).isNone then refuseTo s b.part b.sub b.entry 0
    else
      match taskQueueOk s d b.die with
      | (s, false) => refuseTo s b.part b.sub b.entry 0
      | (s, true) =>
        let s := (wrVa s x (b.recVa + 44) (leBytes 4 id)).getD s
        let s := dropConst { s with dispatches := s.dispatches ++ [d], nextDisp := BitVec.ofNat 32 (id + 1) } id
        if leased d then s else startDispatch s id
  | _, (s, _) => refuseTo s b.part b.sub b.entry 0

/-- DISPATCH_ACCEPT: a submission that waits is read and accepted or refused. -/
def execDispatchAccept (sub : Nat) (s : State) :=
  event (fun s =>
    match s.submissions.find? (fun b => b.id == sub) with
    | some b => if subMigs s b then s else acceptSub { s with submissions := s.submissions.filter (fun c => c.id != sub) } b
    | none => s) s

/-! ### Lease preparation (R82) -/

/-- The pages that preparation makes resident: of the lease ranges, the entry's code and the constant space. (DEDUCED: log 16; DEDUCED: log 41) -/
def prepPages (d : Dispatch) : List Nat :=
  (dispLeases d).flatMap (fun r => pagesOf (va57 r.1) r.2) ++ pagesOf (va57 (recNum d 0 8)) 8 ++ pagesOf (va57 (recNum d 8 8)) (recNum d 16 4)

/-- A fault of preparation: a record that names the dispatch, which waits for the answer. -/
def prepFault (s : State) (d : Dispatch) (va cause : Nat) : State :=
  let tag := s.nextTag
  let w : FaultWait := ⟨tag, none, none, d.id, dispAsid d, BitVec.ofNat 64 va, cause, 7, 0, 0, 0, 0⟩
  let r : RecF := { kind := kXLATE, cause := cause, acc := 7, asid := dispAsid d, daddr := BitVec.ofNat 64 va, extra := BitVec.ofNat 64 tag, disp := d.id }
  let s := modDisp s d.id (fun d => { d with waitTag := some tag })
  postRec { s with faults := s.faults ++ [w], nextTag := tag + 1 } .sysfq (partDie s d.part) (.unit (partDie s d.part) unitSched) (recWords r s.clk)

/-- A delivered fault of preparation, or an entry that no usable path reaches, refuses the dispatch: its pages and its id are freed (R321, R324). -/
def refusePrepared (s : State) (d : Dispatch) : State :=
  refuseTo { s with dispatches := s.dispatches.filter (fun e => e.id != d.id) } d.part d.sub d.entry d.id

/-- LEASE_PREPARATION: the next page walked and pinned, or the end of preparation. -/
def execLeasePreparation (disp : Nat) (s : State) :=
  event (fun s =>
    match findDisp s disp with
    | none => s
    | some d =>
      if d.state != .preparing || d.waitTag.isSome then s
      else
        match (prepPages d)[d.prepared]? with
        | none => startDispatch s disp
        | some va =>
          match translate s (ctxOf d (partDie s d.part)) va .read with
          | (s, .ok _) => modDisp s disp (fun d => { d with prepared := d.prepared + 1, pins := d.pins ++ [va] })
          | (s, .fault c) => prepFault s d va c
          | (s, .rem) => refusePrepared s d
          | (s, .mig) => s) s

end Sys2Proof.Machine
end

