-- ==== Sys2Proof/Machine/Copy.lean ====
section
/-! DEFINITION. The accesses of engine commands, and the copy engines (R96, R111 to R117). -/
namespace Sys2Proof.Machine

/-! ### Engine accesses -/

/-- One end of an engine's move. -/
inductive UEnd where
  | loc (core off : Nat)
  | glob (va : Nat)
  | zero
  | skip
  deriving DecidableEq, Repr

/-- What stops an engine: a translation fault with its access type, a migrating mapping, or an error that fails the command. -/
inductive EngStop where
  | fault (cause va acc : Nat)
  | mig
  | fail (kind cause va acc : Nat)
  deriving DecidableEq, Repr

/-- A window's lines filled for an engine's access (R99). -/
def engFill (s : State) (c o n : Nat) : State × Option EngStop :=
  match fillLines s c (linesOfRange o n) with
  | .ok s => (s, none)
  | .mig s _ => (s, some .mig)
  | .err s e => (s, some (if e.kind = kXLATE then .fault e.cause e.daddr 5 else .fail e.kind e.cause e.daddr 5))

/-- A run lies inside the leases of the command's dispatch (R82). -/
def engLease (s : State) (c : Cmd) (va n : Nat) : Bool := match findDisp s c.disp with | some d => inLease d va n | none => true

/-- An engine's run passes the sampler of its die, element by element; a long run counts as elements of 16 bytes (R90). (DEDUCED: log 33) -/
def sampleRun (s : State) (p : Partition) (c : Cmd) (ty va n : Nat) : State :=
  if ((findDie s (coreDie c.core)).map (fun d => d.sampler.log2n == 0)).getD true then s
  else (List.range ((n + 15) / 16)).foldl (fun s i => sampleAccess s (coreDie c.core) ⟨va + 16 * i, logicalCore s p c.core, ty, c.asid⟩) s

/-- The checks of an engine's run: lease, translation and reachability, without an access. -/
def engCheck (s : State) (c : Cmd) (write : Bool) (va n : Nat) : State × Except EngStop (Partition × PageTab) :=
  let acc := if write then 6 else 5
  if !engLease s c va n then (s, .error (.fault 0 va acc))
  else
  match findPart s c.part, xlateRun s (cmdCtx c) (if write then .write else .read) va n with
  | none, (s, _) => (s, .error (.fault 1 va acc))
  | some _, (s, .error (a, .fault k)) => (s, .error (.fault k a acc))
  | some _, (s, .error (a, .rem)) => (s, .error (.fail kREMERR 0 a acc))
  | some _, (s, .error _) => (s, .error .mig)
  | some p, (s, .ok t) => if unreachable s p (coreDie c.core) t va n then (s, .error (.fail kREMERR 0 va acc)) else (s, .ok (p, t))

/-- An engine's run accessed: its checks, then the sampler, and an error reply of host memory or another device (R137, R410); a sweep that it meets
completes first (R65). -/
def engXlate (s : State) (c : Cmd) (write : Bool) (va n : Nat) : State × Except EngStop (List Nat) :=
  match engCheck s c write va n with
  | (s, .error e) => (s, .error e)
  | (s, .ok (p, t)) =>
    let pas := blocksVia t va n
    let (lost, s) := errorReply (sampleRun s p c (if write then 4 else 3) va n) pas
    if lost then (s, .error (.fail kREMERR 0 va (if write then 6 else 5)))
    else (settleSlots (countBlocks s p (coreDie c.core) pas) p pas, .ok (placesVia p t va n))

/-- An engine's read of a run of bytes: a FAILED line or uncorrectable data fails the command (R96, R397). -/
def engRead (s : State) (c : Cmd) (e : UEnd) (n : Nat) : State × Except EngStop (List Byte) :=
  match e with
  | .zero | .skip => (s, .ok (leBytes n 0))
  | .loc co o =>
    match engFill s co o n with
    | (s, some e) => (s, .error e)
    | (s, none) =>
      if (linesOfRange o n).any (fun l => (getLine s co l).failed.isSome) then (s, .error (.fail kMEMERR 1 o 0))
      else if badLocal s co o n then (countUncorr s (coreDie co) (lmemLocs co o n), .error (.fail kMEMERR 0 o 0))
      else (correctLocs s (lmemLocs co o n), .ok ((List.range n).map (fun i => rdLocal s co (o + i))))
  | .glob va =>
    match engXlate s c false va n with
    | (s, .error e) => (s, .error e)
    | (s, .ok ps) =>
      if badPlaces s ps then (countUncorr s (coreDie c.core) (memLocs ps), .error (.fail kMEMERR 0 va 5))
      else (correctPlaces s ps, .ok (ps.map (rdPlace s)))

/-- An engine's write of a run of bytes. -/
def engWrite (s : State) (c : Cmd) (e : UEnd) (bs : List Byte) : State × Option EngStop :=
  match e with
  | .zero | .skip => (s, none)
  | .loc co o =>
    match engFill s co o bs.length with
    | (s, some e) => (s, some e)
    | (s, none) => (wrLocal s co o bs, none)
  | .glob va =>
    match engXlate s c true va bs.length with
    | (s, .error e) => (s, some e)
    | (s, .ok ps) => (wrCoherent s (ps.zip bs), none)

/-! ### Steps of several elements (R81) -/

/-- A step of a command begins, or goes on at the element that stopped it. -/
def startStep (s : State) (c : Cmd) (key : Nat) : State :=
  modCmd s c.id (fun k => { k with log := if k.logKey = key then k.log else [], logKey := key, pos := 0 })

/-- A step of a command is over. -/
def endStep (s : State) (c : Cmd) : State := modCmd s c.id (fun k => { k with log := [], pos := 0 })

/-- The next element of a step: what it read, where it was performed before the step was stopped. -/
def nextElem (s : State) (c : Cmd) : State × Option (List Byte) :=
  (modCmd s c.id (fun k => { k with pos := k.pos + 1 }), (findCmd s c.id).bind (fun k => k.log[k.pos]?))

def noteElem (s : State) (c : Cmd) (bs : List Byte) : State := modCmd s c.id (fun k => { k with log := k.log ++ [bs] })

/-- An element of a step read. -/
def stepRead (s : State) (c : Cmd) (va n : Nat) : State × Except EngStop (List Byte) :=
  match nextElem s c with
  | (s, some bs) => (s, .ok bs)
  | (s, none) =>
    match engRead s c (.glob va) n with
    | (s, .ok bs) => (noteElem s c bs, .ok bs)
    | r => r

/-- An element of a step written. -/
def stepWrite (s : State) (c : Cmd) (va : Nat) (bs : List Byte) : State × Option EngStop :=
  match nextElem s c with
  | (s, some _) => (s, none)
  | (s, none) =>
    match engWrite s c (.glob va) bs with
    | (s, none) => (noteElem s c [], none)
    | r => r

/-- An engine's fault of the replayable regime: the operation is held at the faulting element (R81). A replay's command carries its host
queue's number in TEAM (R369). -/
def holdCmd (s : State) (c : Cmd) (cause va acc : Nat) : State :=
  let tag := s.nextTag
  let w : FaultWait := ⟨tag, none, some c.id, c.disp, c.asid, BitVec.ofNat 64 va, cause, acc, 0, 0, 0, 0⟩
  let r : RecF := { kind := kXLATE, cause := cause, acc := acc, asid := c.asid, daddr := BitVec.ofNat 64 va, extra := BitVec.ofNat 64 tag,
                    team := c.teamid, disp := c.disp }
  let s := modCmd s c.id (fun k => { k with fault := some tag, started := true })
  postRec { s with faults := s.faults ++ [w], nextTag := tag + 1 } .sysfq (coreDie c.core) (.queue c.core c.queue) (recWords r s.clk)

/-- A command is stopped at some element (R81, R82, R89, R96): `unwritten` are the local lines that it had not yet written. -/
def stopCmd (s : State) (c : Cmd) (e : EngStop) (unwritten : List (Nat × Nat)) : State :=
  match e with
  | .mig => modCmd s c.id (fun k => { k with fault := some 0, started := true })
  | .fail k ca va acc => failCmd s c unwritten ⟨k, ca, va, acc⟩
  | .fault ca va acc =>
    match findDisp s c.disp with
    | some d =>
      if leased d then
        let s := failCmd s c unwritten ⟨kXLATE, ca, va, acc⟩
        match findGroup s c.grp with
        | some g =>
          if g.state = .exit ∨ g.state = .retired ∨ g.state = .saved then s
          else endWith s c.grp kLEASE ((issueAddr g).getD 0) c.asid acc [] (BitVec.ofNat 64 va)
        | none => s
      else holdCmd s c ca va acc
    | none => holdCmd s c ca va acc

/-- The global barrier of a command translated again, where its mapping was invalidated and the command is not held (R86): where the mapping
migrates the command waits, where it fails the command is held (R81, R89) and its barrier translated again once it goes on. -/
def rebar (s : State) (c : Cmd) : State :=
  match c.bar, findPart s c.part with
  | .glob va _ _, some p =>
    if !c.barOld || c.fault.isSome then s
    else
    (match translate s (cmdCtx c) va .write with
    | (s, .ok pa) => modCmd s c.id (fun c => { c with bar := .glob va pa (placeOf p pa), barOld := false })
    | (s, .mig) => modCmd s c.id (fun k => { k with fault := some 0 })
    | (s, .fault k) => stopCmd s c (.fault k va 3) []
    | (s, .rem) => s)
  | _, _ => s

/-- A command goes on: it is held no more, and its barrier is translated again where that is due. -/
def freeCmd (s : State) (id : Nat) : State :=
  let s := modCmd s id (fun c => { c with fault := none })
  match findCmd s id with | some c => rebar s c | none => s

/-- The line of a command's local barrier filled as its engine reaches it (R99), or what stops the command. -/
def barReady (s : State) (c : Cmd) : State × Option EngStop :=
  match c.bar with | .loc co o _ => engFill s co o 16 | _ => (s, none)

/-! ### Shape records (R115) -/

structure ShapeRec where
  elem : Nat
  rank : Nat
  zpad : Bool
  tile : List Nat
  bound : List Nat
  stride : List Nat
  lpitch : Nat
  swz : Nat
  deriving DecidableEq, Repr

def shapeOf (b : List Byte) : ShapeRec :=
  { elem := qNum b 0 1, rank := qNum b 1 1, zpad := (qNum b 2 1).testBit 0, tile := (List.range 4).map (fun i => qNum b (4 + 2 * i) 2),
    bound := (List.range 4).map (fun i => qNum b (16 + 4 * i) 4), stride := 0 :: (List.range 3).map (fun i => qNum b (32 + 8 * i) 8),
    lpitch := qNum b 56 4, swz := qNum b 60 1 }

def nth (l : List Nat) (i : Nat) : Nat := l[i]?.getD 0
def ShapeRec.esize (h : ShapeRec) : Nat := 2 ^ h.elem

/-- A field outside its limits, or a nonzero reserved byte (R115). (DEDUCED: log 14) -/
def ShapeRec.bad (h : ShapeRec) (b : List Byte) : Bool :=
  decide (4 < h.elem) || decide (h.rank < 1) || decide (4 < h.rank) || decide (1 < h.swz)
  || (List.range 4).any (fun i => if i < h.rank then nth h.tile i == 0 else nth h.tile i != 1)
  || (List.range 4).any (fun i => nth h.stride i % h.esize != 0)
  || h.lpitch % 16 != 0 || decide (h.lpitch < nth h.tile 0 * h.esize)
  || qNum b 3 1 != 0 || qNum b 12 4 != 0 || qNum b 61 3 != 0

/-- The elements of a dimension that the engine accesses in global memory: with ZPAD those inside the bound. -/
def ShapeRec.ext (h : ShapeRec) (i : Nat) : Nat := if h.zpad ∧ i < h.rank then min (nth h.tile i) (nth h.bound i) else nth h.tile i

def ShapeRec.empty (h : ShapeRec) : Bool := (List.range 4).any (fun i => h.ext i == 0)

/-- Bytes from the origin to the end of the global span (R115). -/
def ShapeRec.span (h : ShapeRec) : Nat :=
  if h.empty then 0 else (List.range 4).foldl (fun n i => n + (h.ext i - 1) * (if i = 0 then h.esize else nth h.stride i)) h.esize

def ShapeRec.rows (h : ShapeRec) : Nat := nth h.tile 1 * nth h.tile 2 * nth h.tile 3
def ShapeRec.rowBytes (h : ShapeRec) : Nat := nth h.tile 0 * h.esize
def ShapeRec.rowIx (h : ShapeRec) (i1 i2 i3 : Nat) : Nat := i1 + nth h.tile 1 * (i2 + nth h.tile 2 * i3)

/-- Bytes of the local tile span: to the last byte of the last row read or written (R115). -/
def ShapeRec.localSpan (h : ShapeRec) (store : Bool) : Nat :=
  if store && h.empty then 0
  else
    let last := if store then h.rowIx (h.ext 1 - 1) (h.ext 2 - 1) (h.ext 3 - 1) else h.rows - 1
    last * h.lpitch + h.rowBytes

/-- The local offset of an element from the tile's base, whose own offset is given (R117). -/
def swzOff (swz row off : Nat) : Nat := if swz = 1 then off ^^^ ((row % 8) <<< 4) else off

/-- Element n of the tile in the order of R117: coordinates, and whether it is out of bounds. -/
def ShapeRec.coord (h : ShapeRec) (n : Nat) : Nat × Nat × Nat × Nat :=
  let t (i : Nat) := max 1 (nth h.tile i)
  (n % t 0, n / t 0 % t 1, n / (t 0 * t 1) % t 2, n / (t 0 * t 1 * t 2))

def ShapeRec.oob (h : ShapeRec) (i0 i1 i2 i3 : Nat) : Bool :=
  [(0, i0), (1, i1), (2, i2), (3, i3)].any (fun e => decide (e.1 < h.rank) && decide (nth h.bound e.1 ≤ e.2))

/-! ### Copies -/

def isTensor (opc : Nat) : Bool := opc == 0x204 || opc == 0x205
/-- The destination, and the source, lie in global memory (R112). -/
def dstGlobal (opc : Nat) : Bool := [0x201, 0x202, 0x205].contains opc
def srcGlobal (opc : Nat) : Bool := [0x200, 0x202, 0x204].contains opc

/-- The number of moves of a copy: 16-byte pieces, or elements. -/
def copyUnits (c : Cmd) : Nat :=
  if isTensor c.opc then let h := shapeOf c.shape; nth h.tile 0 * h.rows else c.len / 16

/-- Move n of a copy: source, destination, bytes (R113, R117). -/
def copyUnit (c : Cmd) (n : Nat) : UEnd × UEnd × Nat :=
  let at_ (loc : Option (Nat × Nat)) (va k : Nat) : UEnd :=
    match loc with | some (co, o) => .loc co (o + k) | none => .glob (va57 (va + k))
  if isTensor c.opc then
    let h := shapeOf c.shape
    let (i0, i1, i2, i3) := h.coord n
    let row := h.rowIx i1 i2 i3
    let g := i0 * h.esize + i1 * nth h.stride 1 + i2 * nth h.stride 2 + i3 * nth h.stride 3
    let l (loc : Option (Nat × Nat)) : UEnd := match loc with
      | some (co, o) => .loc co (swzOff h.swz row (o + row * h.lpitch + i0 * h.esize))
      | none => .skip
    let out := h.zpad && h.oob i0 i1 i2 i3
    if c.opc = 0x204 then (if out then .zero else .glob (va57 (c.b + g)), l c.locA, h.esize)
    else (l c.locB, if out then .skip else .glob (va57 (c.a + g)), h.esize)
  else (at_ c.locB c.b (16 * n), at_ c.locA c.a (16 * n), 16)

/-- The local lines of a move's end. -/
def endLines (e : UEnd) (n : Nat) : List (Nat × Nat) := match e with | .loc c o => (linesOfRange o n).map (fun l => (c, l)) | _ => []

/-- The lines that a copy has not yet written from a move on. -/
def copyUnwritten (c : Cmd) (from_ : Nat) : List (Nat × Nat) :=
  ((List.range (copyUnits c - from_)).flatMap (fun i => let (_, d, n) := copyUnit c (from_ + i); endLines d n)).eraseDups

/-- Moves performed in order, each read then written. -/
def copyRun (c : Cmd) : Nat → Nat → State → State × Nat × Option EngStop
  | 0, i, s => (s, i, none)
  | n + 1, i, s =>
    let (src, dst, k) := copyUnit c i
    if dst = .skip then copyRun c n (i + 1) s
    else
      match engRead s c src k with
      | (s, .error e) => (s, i, some e)
      | (s, .ok bs) =>
        match engWrite s c dst bs with
        | (s, some e) => (s, i, some e)
        | (s, none) => copyRun c n (i + 1) s

/-- The 32-byte units that a copy's first moves complete (R113, R114): of a tensor copy row by row. -/
def copyLanded (c : Cmd) (n : Nat) : Nat :=
  if isTensor c.opc then
    let h := shapeOf c.shape
    n / max 1 (nth h.tile 0) * ((h.rowBytes + 31) / 32) + n % max 1 (nth h.tile 0) * h.esize / 32
  else n / 2

/-- The local lines that a copy still reads from a move on. -/
def copyUnread (c : Cmd) (from_ : Nat) : List (Nat × Nat) :=
  ((List.range (copyUnits c - from_)).flatMap (fun i => let (a, _, n) := copyUnit c (from_ + i); endLines a n)).eraseDups

/-- A copy that stands at a move: what has landed is credited, and the lines that it accesses no more leave their counts (R94, R113). -/
def landCopy (s : State) (c : Cmd) (i : Nat) : State :=
  let w := copyUnwritten c i
  let r := copyUnread c i
  creditUpTo (modCmd s c.id (fun k => { k with progress := i, started := true, writes := k.writes.filter w.contains, reads := k.reads.filter r.contains }))
    c (min c.credit (copyLanded c i))

/-- A copy performed from where it stands (R113): to its end, or to the element that stops it. -/
def performCopy (s : State) (c : Cmd) : State :=
  match copyRun c (copyUnits c - c.progress) c.progress s with
  | (s, _, none) => finishCmd s c
  | (s, i, some e) =>
    let s := landCopy s c i
    match findCmd s c.id with
    | some c => stopCmd s c e (copyUnwritten c i)
    | none => s

/-- The shape record of a command read at issue (R116): its lines are waited for. Its own checks come before those of the tile's base and the
origin, which need its fields. (DESIGN CHOICE: log 63) -/
def readShape (s : State) (i : Issuer) (a acc : Nat) : Except CRes (State × List Byte) :=
  if i.host.isSome then .error (.noLocal s)
  else if a % 64 != 0 then .error (.err s acc ⟨kALIGN, 0, a⟩)
  else
    match cmdLocal s i false a 64 with
    | none => .error (.err s acc ⟨kSEG, 0, a⟩)
    | some (c, o) =>
      if lineHolds s false c (o / 128) then .error (.wait s (.lines c [o / 128] false))
      else
        match fillLines s c [o / 128] with
        | .err s e => .error (.err s 1 e)
        | .mig s k => .error (.wait s (.migration k))
        | .ok s =>
          match localErr s true c o 64 a with
          | some e => .error (.err (noteBad s (lmemLocs c o 64)) acc e)
          | none => .ok (correctLocs s (lmemLocs c o 64), (List.range 64).map (fun j => rdLocal s c (o + j)))

/-- The barrier's checks of a command that may carry NB (R104). -/
def cmdBar (s : State) (i : Issuer) (c : CmdSpec) : BarRes :=
  if c.moda.testBit 2 then .ok s .none else resolveBar s i (c.moda % 4) c.c 3 true false

/-- The end of a command's issue: the barrier's checks, then the queue. -/
def issueCmd (s : State) (i : Issuer) (spec : CmdSpec) (mk : State → BarRef → Cmd) : CRes :=
  match cmdBar s i spec with
  | .stop r => r
  | .ok s r => enqueueCmd s (mk s r)

/-- A linear copy at issue (R113). -/
def linearCmd (s : State) (i : Issuer) (c : CmdSpec) : CRes :=
  let gd := dstGlobal c.opc
  let gs := srcGlobal c.opc
  let peer := c.opc == 0x203 && c.moda.testBit 4
  if c.a % 16 != 0 then .err s 6 ⟨kALIGN, 0, c.a⟩
  else if c.b % 16 != 0 then .err s 5 ⟨kALIGN, 0, c.b⟩
  else if c.len % 16 != 0 then .err s 0 ⟨kALIGN, 0, c.len⟩
  else if i.host.isSome && (!gd || !gs) then .noLocal s
  else
    let la := if gd then none else cmdLocal s i peer c.a c.len
    let lb := if gs then none else cmdLocal s i false c.b c.len
    if !gd && la.isNone || gd && (cmdGlobal i c.a c.len).isNone then .err s 6 ⟨kSEG, 0, c.a⟩
    else if !gs && lb.isNone || gs && (cmdGlobal i c.b c.len).isNone then .err s 5 ⟨kSEG, 0, c.b⟩
    else if gd && !issuerLeases s i (va57 c.a) c.len then .err s 6 ⟨kLEASE, 0, c.a⟩
    else if gs && !issuerLeases s i (va57 c.b) c.len then .err s 5 ⟨kLEASE, 0, c.b⟩
    else if c.len = 0 then
      (match cmdBar s i c with | .stop r => r | .ok s _ => .ok s 0)
    else
      issueCmd s i c fun s r =>
        { newCmd s i c.qid c with
          locA := la, locB := lb, bar := r, credit := (c.len + 31) / 32,
          writes := match la with | some (co, o) => (linesOfRange o c.len).map (fun l => (co, l)) | none => [],
          reads := match lb with | some (co, o) => (linesOfRange o c.len).map (fun l => (co, l)) | none => [] }

/-- The local lines of a tensor copy: of every row it writes, or of the rows and columns it reads. -/
def tensorLines (h : ShapeRec) (store : Bool) (co o : Nat) : List (Nat × Nat) :=
  let n (i : Nat) := if store then h.ext i else nth h.tile i
  if store && h.empty then []
  else
    ((List.range (n 3)).flatMap (fun i3 => (List.range (n 2)).flatMap (fun i2 => (List.range (n 1)).flatMap (fun i1 =>
      linesOfRange (o + h.rowIx i1 i2 i3 * h.lpitch) (n 0 * h.esize))))).eraseDups.map (fun l => (co, l))

/-- A tensor copy at issue (R115). Where ELEM is outside its limits the origin is asked to be a multiple of 16. (DESIGN CHOICE: log 63) -/
def tensorCmd (s : State) (i : Issuer) (c : CmdSpec) : CRes :=
  let store := c.opc == 0x205
  let (la, ga) := if store then (c.b, c.a) else (c.a, c.b)
  let (accL, accG) := if store then (5, 6) else (6, 5)
  match readShape s i c.len 5 with
  | .error r => r
  | .ok (s, bs) =>
    let h := shapeOf bs
    if la % 16 != 0 then .err s accL ⟨kALIGN, 0, la⟩
    else if ga % 2 ^ min h.elem 4 != 0 then .err s accG ⟨kALIGN, 0, ga⟩
    else if h.bad bs then .err s 5 ⟨kSEG, 0, c.len⟩
    else
      match cmdLocal s i false la (h.localSpan store) with
      | none => .err s accL ⟨kSEG, 0, la⟩
      | some (co, o) =>
        if !h.empty && (cmdGlobal i ga h.span).isNone then .err s accG ⟨kSEG, 0, ga⟩
        else if !h.empty && !issuerLeases s i (va57 ga) h.span then .err s accG ⟨kLEASE, 0, ga⟩
        else
          issueCmd s i c fun s r =>
            let ls := tensorLines h store co o
            { newCmd s i c.qid c with
              locA := if store then none else some (co, o), locB := if store then some (co, o) else none, bar := r, shape := bs,
              credit := h.rows * ((h.rowBytes + 31) / 32), writes := if store then [] else ls, reads := if store then ls else [] }

/-- A copy command at issue. -/
def copyCmd (s : State) (i : Issuer) (c : CmdSpec) : CRes := if isTensor c.opc then tensorCmd s i c else linearCmd s i c

def execCpG2l (y : XWord) (s : State) := issue (.cpG2l y) s fun x s => engineCmd x s y 0x200 true false copyCmd
def execCpL2g (y : XWord) (s : State) := issue (.cpL2g y) s fun x s => engineCmd x s y 0x201 true false copyCmd
def execCpG2g (y : XWord) (s : State) := issue (.cpG2g y) s fun x s => engineCmd x s y 0x202 true false copyCmd
def execCpL2l (y : XWord) (s : State) := issue (.cpL2l y) s fun x s => engineCmd x s y 0x203 true false copyCmd
def execCpT2l (y : XWord) (s : State) := issue (.cpT2l y) s fun x s => engineCmd x s y 0x204 true false copyCmd
def execCpL2t (y : XWord) (s : State) := issue (.cpL2t y) s fun x s => engineCmd x s y 0x205 true false copyCmd

end Sys2Proof.Machine
end

