-- ==== Sys2Proof/Machine/Coll.lean ====
section
/-! DEFINITION. The collective engine (R118 to R121). -/
namespace Sys2Proof.Machine

/-- The element size of a type code of R119. -/
def collSize (t : Nat) : Nat := match t with | 6 => 2 | 7 => 2 | 9 => 8 | _ => 4
def collFmt (t : Nat) : Option Fmt := match t with | 6 => some .bf16 | 7 => some .f16 | 8 => some .f32 | 9 => some .f64 | _ => none

/-- A node of the fixed tree (R120): nothing is flushed, and a NaN result is the default NaN. -/
def collNode (red t a b : Nat) : Nat :=
  match collFmt t with
  | some f =>
    let r := match red with
      | 0 => (fpAdd f 0 .rne (f.decode a) (f.decode b)).1
      | 1 => (fpMinMax f 0 false false a b).1
      | _ => (fpMinMax f 0 true false a b).1
    if (f.decode r).isNan then f.nanBits else r
  | none =>
    match red with
    | 0 => (a + b) % 2 ^ 32
    | 1 => if sextN 32 a ≤ sextN 32 b then a else b
    | _ => if sextN 32 a ≤ sextN 32 b then b else a

/-- A COLLGRP register's fields (R118). -/
def collRanks (r : DWord) : Nat := fldN r.toNat 52 10 + 1
def collList (r : DWord) : Nat := fldN r.toNat 8 44 * 256

/-- The rank list of a device group: a device number for each rank. -/
def rankList (s : State) (p : Partition) (r : DWord) : List Nat :=
  (List.range (collRanks r)).map (fun i => fldN (rdPaNum s p (collList r + 2 * i) 2) 0 10)

/-- Source and destination elements of a rank (R120). -/
def collElems (op n c : Nat) : Nat × Nat := match op with | 0 => (n * c, c) | 1 => (c, n * c) | _ => (c, c)

/-- `coll` at issue (R119): ALIGN, SEG, LEASE, then the barrier's checks. -/
def collCmd (s : State) (i : Issuer) (c : CmdSpec) : CRes :=
  let op := fldN c.moda 4 2
  let ty := fldN c.moda 8 4
  let es := collSize ty
  let gid := fldN c.imm 28 4
  let cnt := if c.moda.testBit 3 then c.len else fldN c.imm 0 28
  let r := s.collgrp[gid]?.getD 0
  if c.a % es != 0 then .err s 6 ⟨kALIGN, 0, c.a⟩
  else if c.b % es != 0 then .err s 5 ⟨kALIGN, 0, c.b⟩
  else
    match findPart s i.x.part with
    | none => .err s 0 ⟨kSEG, 0, 0⟩
    | some p =>
      let ranks := rankList s p r
      let (ns, nd) := collElems op (collRanks r) cnt
      if cnt = 0 ∨ 2 ^ 28 ≤ cnt then .err s 0 ⟨kSEG, 0, 0⟩
      else if !r.getLsbD 0 || (ranks.filter (· == s.devnum)).length != 1 then .err s 0 ⟨kSEG, 0, 0⟩
      else if (cmdGlobal i c.a (nd * es)).isNone then .err s 6 ⟨kSEG, 0, c.a⟩
      else if (cmdGlobal i c.b (ns * es)).isNone then .err s 5 ⟨kSEG, 0, c.b⟩
      else if !issuerLeases s i (va57 c.a) (nd * es) then .err s 6 ⟨kLEASE, 0, c.a⟩
      else if !issuerLeases s i (va57 c.b) (ns * es) then .err s 5 ⟨kLEASE, 0, c.b⟩
      else
        match issueCmd s i c (fun s b =>
            { newCmd s i c.qid c with
              bar := b, len := cnt, credit := (nd * es + 31) / 32, shape := ranks.flatMap (leBytes 2), seq := s.collSeq[gid]?.getD 0 }) with
        | .ok s v => .ok { s with collSeq := updAt gid (· + 1) s.collSeq } v
        | r => r

def execColl (y : XWord) (s : State) := issue (.coll y) s fun x s => engineCmd x s y 0x208 true false collCmd

def cmdRanks (c : Cmd) : List Nat := (List.range (c.shape.length / 2)).map (fun i => qNum c.shape (2 * i) 2)

/-- The number e of a rank's source. -/
def collElem (es : Nat) (bs : List Byte) (e : Nat) : Nat := qNum bs (es * e) es

/-- The destination elements of the rank `own` from every rank's source (R120). -/
def collResult (op red ty cnt own : Nat) (srcs : List (List Byte)) : List Nat :=
  let es := collSize ty
  match op with
  | 1 => srcs.flatMap (fun b => (List.range cnt).map (collElem es b))
  | _ =>
    (List.range cnt).map (fun e =>
      let k := if op = 0 then own * cnt + e else e
      tree (collNode red ty) 0 (srcs.map (fun b => collElem es b k)))

/-- A `coll` whose peers have all issued is performed (R121): the matched commands agree, or the command fails on every rank. (DEDUCED: log 34) -/
def startColl (s : State) (c : Cmd) (peers : List CollPeer) : State :=
  let op := fldN c.moda 4 2
  let red := fldN c.moda 6 2
  let ty := fldN c.moda 8 4
  let ranks := cmdRanks c
  let own := ranks.idxOf s.devnum
  let (ns, _) := collElems op ranks.length c.len
  if peers.any (fun p => p.op != op || p.red != red || p.ty != ty || p.count != c.len) then failCmd s c [] ⟨kMEMERR, 0, c.b, 5⟩
  else
    match engRead s c (.glob (va57 c.b)) (ns * collSize ty) with
    | (s, .error e) => stopCmd s c e []
    | (s, .ok bs) =>
      let srcs := (peers.take own).map (·.data) ++ [bs] ++ (peers.drop own).map (·.data)
      let out := (collResult op red ty c.len own srcs).flatMap (leBytes (collSize ty))
      match engWrite s c (.glob (va57 c.a)) out with
      | (s, some e) => stopCmd s c e []
      | (s, none) => finishCmd s c

/-- Earlier commands of the same device group that have not run. -/
def collFirst (s : State) (c : Cmd) : Bool :=
  !s.cmds.any (fun d => d.opc == 0x208 && d.id != c.id && fldN d.imm 28 4 == fldN c.imm 28 4 && decide (d.seq < c.seq))

/-- COLL_START: the other ranks have issued their matching commands (R121). A disabled engine fails its commands (R399). (DEDUCED: log 34) -/
def execCollStart (cmd : Nat) (peers : List CollPeer) (s : State) :=
  event (fun s =>
    match findCmd s cmd with
    | none => s
    | some c =>
      if c.opc != 0x208 || !cmdReady s c || !collFirst s c || unitHeld s (coreDie c.core) .collective then s
      else if unitOff s (coreDie c.core) .collective then failCmd s c [] ⟨kMEMERR, 0, c.b, 5⟩
      else if peers.length + 1 != (cmdRanks c).length then s
      else startColl s c peers) s

end Sys2Proof.Machine
end

