-- ==== Sys2Proof/Machine/Tiles.lean ====
section
/-! DEFINITION. Fragments (R200), tiles in memory (R203, R204), their checks (R226), slots (R195, R196), and the array (R194). -/
namespace Sys2Proof.Machine

/-! ### Elements, bytes and words -/

/-- A list cut into pieces of n. -/
def cutFuel : Nat → Nat → List α → List (List α)
  | 0, _, _ => []
  | k + 1, n, l => if l.isEmpty then [] else l.take n :: cutFuel k n (l.drop n)
def cut (n : Nat) (l : List α) : List (List α) := cutFuel l.length n l

/-- The elements of a byte stream, packed from the low bits (R152, R200). -/
def elemsOfBytes (bits : Nat) (bs : List Byte) : List Nat :=
  if bits < 8 then bs.flatMap (fun b => [b.toNat % 16, b.toNat / 16]) else (cut (bits / 8) bs).map ofLeBytes
/-- The byte stream of some elements. -/
def bytesOfElems (bits : Nat) (xs : List Nat) : List Byte :=
  if bits < 8 then (cut 2 xs).map (fun p => BitVec.ofNat 8 ((p[0]?.getD 0) % 16 + 16 * (p[1]?.getD 0)))
  else xs.flatMap (leBytes (bits / 8))

/-! ### Fragments (R200) -/

/-- The 32-bit words of a fragment, in every lane of the group. -/
def readFrag (g : Group) (base words : Nat) : List Byte :=
  (List.range words).flatMap (fun q => leBytes 4 (readV g (q % g.width) (base + q / g.width)).toNat)
/-- A fragment written; unused lanes of its last register are zeroed. -/
def writeFrag (g : Group) (base : Nat) (bs : List Byte) : Group :=
  let ws := (cut 4 bs).map ofLeBytes
  (List.range (fragRegs g.width ws.length * g.width)).foldl
    (fun g q => writeV g (q % g.width) (base + q / g.width) (BitVec.ofNat 32 (ws[q]?.getD 0))) g
/-- The index fragment of `mma.sp` (R207). -/
def readIndex (g : Group) (base sel words : Nat) : List Byte :=
  let n := g.width / 4
  (List.range words).flatMap (fun q => leBytes 4 (readV g (4 * (q % n) + sel) (base + q / n)).toNat)

/-! ### Tiles in memory (R203, R204) -/

/-- A tile: the handle through which it lies in global memory, if one; its first byte as an operand address, bytes between rows, swizzle, rows,
columns, bits of an element, the rows and columns that are inside, whether its ETYPE agrees. -/
structure Tile where
  handle : Option Nat
  base : Nat
  pitch : Nat
  swz : Nat
  rows : Nat
  cols : Nat
  bits : Nat
  rin : Nat
  cin : Nat
  typed : Bool
  deriving DecidableEq, Repr

def omOf (t : Team) (n : Nat) : OMap := t.om[n]?.getD ⟨0, 0, 0, 0, 0, 0⟩
def thOf (t : Team) (n : Nat) : THandle := t.th[n]?.getD ⟨0, 0, 0, 0, 0, 0, 0, []⟩

def Tile.glob (t : Tile) : Bool := t.handle.isSome

/-- A tile through a map or a handle, with the offset added. -/
def tileOf (t : Team) (handle : Bool) (id off et rows cols : Nat) : Tile :=
  if handle then
    let h := thOf t id
    let lim (n b : Nat) : Nat := if b = 0 then n else min n b
    ⟨some id, (h.va.toNat + off) % 2 ^ 64, h.pitch.toNat, 0, rows, cols, etBits et, lim rows h.rows.toNat, lim cols h.cols.toNat, h.etype == et⟩
  else
    let m := omOf t id
    ⟨none, m.base.toNat + off, m.pitch.toNat, m.swz, rows, cols, etBits et, rows, cols, m.etype == et⟩

/-- The scales of B: one row of bytes for each block (R204). Scales of outside columns and blocks are not read. -/
def scaleTile (t : Team) (handle : Bool) (id blocks : Nat) : Tile :=
  if handle then
    let h := thOf t id
    let lim (n b : Nat) : Nat := if b = 0 then n else min n b
    ⟨some id, h.sva.toNat, h.spitch.toNat, 0, blocks, 128, 8, lim blocks ((h.rows.toNat + 31) / 32), lim 128 h.cols.toNat, true⟩
  else
    let m := omOf t id
    ⟨none, m.sbase.toNat, m.spitch.toNat, 0, blocks, 128, 8, blocks, 128, true⟩

/-- Bytes of a tile's row that are inside. -/
def Tile.rowBytes (t : Tile) : Nat := (t.cin * t.bits + 7) / 8
def Tile.span (t : Tile) : Nat := if t.rin = 0 ∨ t.cin = 0 then 0 else (t.rin - 1) * t.pitch + t.rowBytes
/-- The rows inside, by number and address. -/
def Tile.runs (t : Tile) (base : Nat) : List (Nat × Nat) :=
  if t.cin = 0 then [] else (List.range t.rin).map (fun i => (i, base + i * t.pitch))

/-- ALIGN, SEG and LEASE of a tile (R226). -/
def tileErr (s : State) (g : Group) (t : Tile) : Option LaneErr :=
  if t.base % max 1 (t.bits / 8) != 0 then some ⟨kALIGN, 0, t.base⟩
  else if t.glob then
    (if t.span != 0 && (globTarget g t.base t.span).isNone then some ⟨kSEG, 0, t.base⟩
    else if !t.typed then some ⟨kSEG, 1, t.base⟩
    else
      match dispOf s g with
      | some d => if (t.runs (va57 t.base)).all (fun r => inLease d r.2 t.rowBytes) then none else some ⟨kLEASE, 0, t.base⟩
      | none => none)
  else if (localTarget s g t.base t.span).isNone then some ⟨kSEG, 0, t.base⟩
  else if !t.typed then some ⟨kSEG, 1, t.base⟩
  else none

/-- The offset of a local tile's first byte in the core's local memory. -/
def tileLocal (s : State) (g : Group) (t : Tile) : Nat := match localTarget s g t.base t.span with | some (.loc _ o) => o | _ => 0

/-- The byte of a local tile at an address of row i: swizzled as R115 says. -/
def swzByte (t : Tile) (i a : Nat) : Nat := if t.swz = 1 then a ^^^ ((i % 8) <<< 4) else a

/-- The words of local memory that a tile's row reads. -/
def tileRowLocs (core : Nat) (t : Tile) (r : Nat × Nat) : List ArrayLoc :=
  if t.swz = 1 then ((List.range t.rowBytes).map (fun k => .lmem core (8 * (swzByte t r.1 (r.2 + k) / 8)))).eraseDups else lmemLocs core r.2 t.rowBytes

/-- The local lines of a tile. -/
def tileLines (s : State) (g : Group) (t : Tile) : List Nat :=
  if t.glob then [] else ((t.runs (tileLocal s g t)).flatMap (fun r => linesOfRange r.2 t.rowBytes)).eraseDups

/-- Addresses with no two in one page. -/
def onePerPage (l : List Nat) : List Nat := l.foldl (fun r a => if r.any (fun b => b / 65536 == a / 65536) then r else r ++ [a]) []

/-- The page addresses of a global tile. -/
def tilePages (t : Tile) : List Nat := if t.glob then onePerPage ((t.runs (va57 t.base)).flatMap (fun r => pagesOf r.2 t.rowBytes)) else []

/-! ### Translations that a handle holds (R203, R228) -/

def modHandle (s : State) (g : Group) (n : Nat) (f : THandle → THandle) : State := modTeamOf s g (fun t => { t with th := updAt n f t.th })

/-- One page of a tile through its handle: the held translation, else a new one, which the handle then holds. A page held for reads is translated
anew for a write. (DESIGN CHOICE: log 66) -/
def handlePage (s : State) (x : Issue) (c : XCtx) (write : Bool) (n va : Nat) : State × Xl :=
  match ((teamOf s x.g).bind (fun t => (thOf t n).pages.find? (fun e => e.1 == va / 65536 && (e.2.2 || !write)))) with
  | some e => (s, .ok (e.2.1 + va % 65536))
  | none =>
    match translate s c va (if write then .write else .read) with
    | (s, .ok pa) =>
      (modHandle s x.g n (fun h => { h with pages := (va / 65536, pa - va % 65536, write) :: h.pages.filter (fun e => e.1 != va / 65536) }), .ok pa)
    | r => r

/-- Pages of tiles, each through its handle, translated in order: the first address that failed with what it met, a failed translation before an
entry that no path reaches (R226). `rem` is the first of those so far. -/
def tileXlate (x : Issue) (c : XCtx) (write : Bool) : List (Nat × Nat) → State → PageTab → Option Nat → State × Except (Nat × Xl) PageTab
  | [], s, t, rem => (s, match rem with | some va => .error (va, .rem) | none => .ok t)
  | (n, va) :: ps, s, t, rem =>
    match handlePage s x c write n va with
    | (s, .ok pa) => tileXlate x c write ps s (t ++ [(va / 65536, pa - va % 65536)]) rem
    | (s, .rem) => tileXlate x c write ps s t (some (rem.getD va))
    | (s, r) => (s, .error (va, r))

/-- What the checks of an instruction's tiles give. -/
inductive TileRes where
  | ok (s : State) (p : Partition) (tabs : List PageTab)
  | stop (r : IRes)

/-- Each tile's pages translated. -/
def tilesXlate (x : Issue) (c : XCtx) (write : Bool) : List Tile → State → List PageTab → Option Nat → State × Except (Nat × Xl) (List PageTab)
  | [], s, tabs, rem => (s, match rem with | some va => .error (va, .rem) | none => .ok tabs)
  | t :: ts, s, tabs, rem =>
    match tileXlate x c write ((tilePages t).map (fun va => (t.handle.getD 0, va))) s [] none with
    | (s, .ok tab) => tilesXlate x c write ts s (tabs ++ [tab]) rem
    | (s, .error (va, .rem)) => tilesXlate x c write ts s tabs (some (rem.getD va))
    | (s, .error e) => (s, .error e)

/-- REMERR and MEMERR of a tile after translation (R226). -/
def tileLate (s : State) (g : Group) (p : Partition) (write : Bool) (t : Tile) (tab : PageTab) : Option LaneErr :=
  if t.glob then
    (if (t.runs (va57 t.base)).any (fun r => unreachable s p (dieOf g) tab r.2 t.rowBytes) then some ⟨kREMERR, 0, t.base⟩
    else if !write && s.badWords != [] && (t.runs (va57 t.base)).any (fun r => badPlaces s (placesVia p tab r.2 t.rowBytes)) then
      some ⟨kMEMERR, 0, t.base⟩
    else none)
  else
    let o := tileLocal s g t
    if (tileLines s g t).any (fun l => (getLine s g.core l).failed.isSome) then some ⟨kMEMERR, 1, t.base⟩
    else if !write && s.badWords != [] && (t.runs o).any (fun r => (tileRowLocs g.core t r).any s.badWords.contains) then some ⟨kMEMERR, 0, t.base⟩
    else none

/-- The blocks of global tiles whose sweep has not finished are swept first (R65). -/
def settleTiles (s : State) (p : Partition) (ts : List (Tile × PageTab)) : State :=
  settleSlots s p (ts.flatMap (fun t => if t.1.glob then (t.1.runs (va57 t.1.base)).flatMap (fun r => blocksVia t.2 r.2 t.1.rowBytes) else []))

/-- Earlier accesses of the group that the tiles of an instruction meet are performed first (R313, condition 1). -/
def drainTiles (s : State) (g : Group) (p : Partition) (ts : List (Tile × PageTab)) : State :=
  match findGroup s g.id with
  | none => s
  | some h =>
    if h.flights = [] ∧ h.stores = [] then s
    else drainOver s g.id (ts.flatMap (fun t => if t.1.glob then
      (t.1.runs (va57 t.1.base)).flatMap (fun r => (placesVia p t.2 r.2 t.1.rowBytes).map (fun a => (a, 1))) else []))

/-- The tiles whose requests receive an error reply of host memory or another device (R137, R410). -/
def tilesLost (s : State) (ts : List (Tile × PageTab)) : List Tile × State :=
  ts.foldl (fun (l, s) t =>
    if !t.1.glob then (l, s)
    else
      let (lost, s) := errorReply s ((t.1.runs (va57 t.1.base)).flatMap (fun r => blocksVia t.2 r.2 t.1.rowBytes))
      (if lost then l ++ [t.1] else l, s)) ([], s)

/-- The words of local tiles. -/
def tileLocs (s : State) (g : Group) (ts : List Tile) : List ArrayLoc :=
  ts.flatMap (fun t => if t.glob then [] else (t.runs (tileLocal s g t)).flatMap (tileRowLocs g.core t))

/-- The words of tiles, local and global, with the pages of each. -/
def wordsOfTiles (s : State) (g : Group) (p : Partition) (ts : List (Tile × PageTab)) : List ArrayLoc :=
  tileLocs s g (ts.map (·.1))
    ++ ts.flatMap (fun t => if t.1.glob then (t.1.runs (va57 t.1.base)).flatMap (fun r => memLocs (placesVia p t.2 r.2 t.1.rowBytes)) else [])

/-- The checks of an instruction's tiles in the order of R226, waiting for absent lines and filling windows; nothing else changes. -/
def checkTiles (s : State) (x : Issue) (write : Bool) (ts : List Tile) : TileRes :=
  let acc := if write then 2 else 1
  let asid (t : Tile) : Nat := if t.glob then asidOf s x.g else 0
  let stop (s : State) (es : List (Nat × LaneErr)) : Option IRes :=
    (firstErr es).map (fun (e, ls) =>
      if e.kind = kMEMERR ∧ e.cause = 1 then
        .trap s { kind := kMEMERR, cause := 1, mask := x.act, daddr := BitVec.ofNat 64 e.daddr, acc := acc,
                  extra := BitVec.ofNat 64 (failedKind s x 1 e.daddr) }
      else raiseErr s x acc (ls.headD 0) e x.act)
  match stop s (ts.filterMap (fun t => (tileErr s x.g t).map (fun e => (asid t, e)))) with
  | some r => .stop r
  | none =>
    let lines := ts.flatMap (tileLines s x.g)
    if lines.any (lineHolds s write x.g.core) then .stop (.park s (.lines x.g.core lines write))
    else
      let r := fillAll s (lines.map (fun l => (x.g.core, l)))
      let fes := r.errs.map (fun e => (asidOf s x.g, e.2))
      match fes.find? (fun e => e.2.kind == kXLATE), r.mig, dispOf s x.g, groupPart s x.g with
      | some e, _, _, _ => .stop (raiseErr r.s x 1 e.1 e.2 x.act)
      | none, some a, _, _ => .stop (.park r.s (.migration a))
      | none, none, some d, some p =>
        (match tilesXlate x (ctxOn d x.g.core) write ts r.s [] none with
        | (s, .error (va, .fault c)) => .stop (raiseErr s x acc (asidOf s x.g) ⟨kXLATE, c, va⟩ x.act)
        | (s, .error (va, .rem)) => .stop (raiseErr s x acc (asidOf s x.g) ⟨kREMERR, 0, va⟩ x.act)
        | (s, .error _) => .stop (.park s (.migration (asidOf s x.g)))
        | (s, .ok tabs) =>
          let rs := if write then [] else ts.zip tabs
          let s := settleTiles (drainTiles s x.g p rs) p rs
          let (lost, s) := tilesLost s rs
          let late := fes ++ lost.map (fun t => (asidOf s x.g, ⟨kREMERR, 0, t.base⟩)) ++ (ts.zip tabs).filterMap (fun t => (tileLate s x.g p write t.1 t.2).map (fun e => (asid t.1, e)))
          match firstErr late with
          | some _ =>
            let s := if write ∨ s.badWords = [] then s else noteBad s (wordsOfTiles s x.g p (ts.zip tabs))
            (match stop s late with | some r => .stop r | none => .ok s p tabs)
          | none => .ok (if write ∨ s.corrWords = [] then s else correctLocs s (wordsOfTiles s x.g p (ts.zip tabs))) p tabs)
      | _, _, _, _ => .stop (.done s [])

/-- A tile read whole, row by row; outside elements read zero. (DEDUCED: log 39) -/
def readTile (s : State) (g : Group) (p : Partition) (tab : PageTab) (t : Tile) : List Nat :=
  let base := if t.glob then va57 t.base else tileLocal s g t
  (List.range t.rows).flatMap (fun i =>
    let a := base + i * t.pitch
    let bs := if t.rin ≤ i then []
      else if t.glob then (placesVia p tab a t.rowBytes).map (rdPlace s)
      else (List.range t.rowBytes).map (fun k => rdLocal s g.core (swzByte t i (a + k)))
    let es := (elemsOfBytes t.bits bs).take t.cin
    es ++ List.replicate (t.cols - es.length) 0)

/-- The pages and runs of global tiles pass the sampler (R90). (DEDUCED: log 33) -/
def sampleTiles (s : State) (x : Issue) (ty : Nat) (ts : List Tile) : State :=
  let lc := ((groupPart s x.g).map (fun p => logicalCore s p x.g.core)).getD 0
  ts.foldl (fun s t => if t.glob then
    (t.runs (va57 t.base)).foldl (fun s r => sampleAccess s (dieOf x.g) ⟨r.2, lc, ty, asidOf s x.g⟩) s else s) s

/-- A run of bytes of a global tile accepted as stores of the group, one for each 256-byte block, each with the home that it goes to (R65, R139,
R232). (DESIGN CHOICE: log 79) -/
def pendRun (s : State) (x : Issue) (p : Partition) (tab : PageTab) (va : Nat) (bs : List Byte) : State :=
  if bs = [] then s
  else
    (List.range ((va + bs.length - 1) / 256 + 1 - va / 256)).foldl (fun s i =>
      let a := max va (256 * (va / 256 + i))
      let cs := (bs.drop (a - va)).take (256 - a % 256)
      let pa := paVia tab a
      pendStore s x ⟨x.lead, a, none, pa, placeOf p pa, if paKind pa = 0 then homeSlice p pa else 0⟩ cs.length cs none false) s

/-- A tile written whole: rows of elements; outside elements are skipped. A global tile's bytes are stores of the group, which go on after the
instruction (R232). -/
def writeTile (s : State) (x : Issue) (p : Partition) (tab : PageTab) (t : Tile) (xs : List Nat) : State :=
  let base := if t.glob then va57 t.base else tileLocal s x.g t
  ((cut t.cols xs).mapIdx (fun i r => (i, r))).foldl (fun s (i, r) =>
    if t.rin ≤ i then s
    else
      let a := base + i * t.pitch
      let bs := bytesOfElems t.bits (r.take t.cin)
      if t.glob then pendRun s x p tab a bs
      else (cut (max 1 (t.bits / 8)) bs).foldl (fun (st : State × Nat) b => (wrLocal st.1 x.g.core (swzByte t i (a + st.2)) b, st.2 + b.length)) (s, 0) |>.1) s

/-! ### Slots (R195, R196) -/

/-- The tag of a slot type (R196). -/
def slotTag (tacc : Nat) : Nat := match tacc with | 0xA => 1 | 8 => 2 | 0xB => 3 | _ => 0
def slotAt (k : Core) (n : Nat) : Slot := k.slots[n]?.getD slotReset
/-- The physical slots of a tile: a pair for `lacc`. -/
def tileSlots (n tacc : Nat) : List Nat := if tacc = 0xB then [n, n + 1] else [n]

/-- A staged multiply writes a slot's tag. -/
def setsTag (st : Staged) (n : Nat) : Bool := matZA st.y && (tileSlots st.slot (matTACC st.y)).contains n
/-- The tag that a slot holds once every staged multiply has been performed. -/
def tagThen (k : Core) (n : Nat) : Nat :=
  match (k.array.filter (fun st => setsTag st n)).getLast? with
  | some st => slotTag (matTACC st.y)
  | none => (slotAt k n).tag

/-- An element of some slots of a core. -/
def accWord (core : Nat) (ns : List Nat) (b : ArrayLoc) : Bool := match b with | .acc c m _ => c == core && ns.contains m | _ => false

/-- Correctable errors in slots that are read are corrected (R397). -/
def correctAcc (s : State) (core : Nat) (ns : List Nat) : State := correctWhere s (accWord core ns)

/-- An uncorrectable element in a slot that no staged multiply rewrites before it is read (R226). -/
def slotBad (s : State) (core n : Nat) : Bool :=
  !((findCore s core).map (fun k => k.array.any (fun st => setsTag st n))).getD false && s.badWords.any (accWord core [n])

/-- The checks of a slot operand (R226): SLOT, SLOTTYPE where the tag must agree. The physical slot, or the subcause. -/
def slotCheck (s : State) (g : Group) (n tacc : Nat) (needTag : Bool) : Except Nat Nat :=
  match teamOf s g, findCore s g.core with
  | some t, some k =>
    if t.slots.length < n + (if tacc = 0xB then 2 else 1) then .error 2
    else
      let m := t.slots[n]?.getD 0
      if needTag && (tileSlots m tacc).any (fun i => tagThen k i != slotTag tacc) then .error 3 else .ok m
  | _, _ => .error 2

/-- A tile's elements and side classes. -/
def slotElems (k : Core) (n tacc : Nat) : List (BitVec 128) × List Nat :=
  let c := if tacc = 0xB then 8192 else 16384
  (Sparse.dense 0 (slotAt k n).elems 0 c, if tacc = 0xB then Sparse.dense 0 (slotAt k n).side 0 c else [])

/-- The uncorrectable elements of slots that an `azero`, `aload`, `awrite` or a multiply with ZA rewrites are good again (R226). -/
def healSlot (s : State) (core n tacc : Nat) : State := { s with badWords := s.badWords.filter (fun b => !accWord core (tileSlots n tacc) b) }

/-- A tile written into its slots with its tag. -/
def putSlot (s : State) (core n tacc : Nat) (els : List (BitVec 128)) (sides : List Nat) : State :=
  let ns := tileSlots n tacc
  modCore s core (fun k => { k with slots := k.slots.mapIdx (fun i sl =>
    if i = n then ⟨slotTag tacc, Sparse.ofDense 0 0 els, Sparse.ofDense 0 0 sides⟩
    else if ns.contains i then ⟨slotTag tacc, [], []⟩ else sl) })

/-! ### The array (R194, R205 to R215) -/

/-- A value under its MX scale (R152); an i8 element of row 2 stands for i × 2^-6. -/
def mxScaled (row : Nat) (sc : Option Nat) (v : FVal) : FVal :=
  let v := if row = 2 then (match v with | .fin n m e => .fin n m (e - 6) | v => v) else v
  match sc with
  | none => v
  | some 255 => .nan false false 0
  | some k => match v with | .fin n m e => .fin n m (e + k - 127) | v => v

/-- Elements decoded, with their scales by block along K; whether one was flushed. -/
def narrowVals (row t ctl : Nat) (xs : List Nat) (sc : Nat → Option Nat) : List FVal × MFlags :=
  let vs := xs.map (matElem t ctl)
  (vs.mapIdx (fun i v => mxScaled row (sc i) v.1), mIf (vs.any (·.2)) mSUBN)

/-- The exact sum of two finite values, or of a special one with another (R207). -/
def addVals (a b : FVal) : FVal :=
  match a, b with
  | .fin x m e, .fin y n d =>
    let q := min e d
    let v := fvAt x m e q + fvAt y n d q
    .fin (decide (v < 0)) v.natAbs q
  | _, _ =>
    match sideSum (sideOf a) (sideOf b) with | 1 => .inf false | 2 => .inf true | _ => .nan false false 0

/-- The stored values of a row of `mma.sp` at their logical positions: every other position is zero, and two at one position are added (R207). -/
def expandRow (n : Nat) (vs : List (Nat × FVal)) : List FVal :=
  (vs.foldl (fun (t : Array (Option FVal)) e =>
    t.modify e.1 (fun o => some (match o with | none => e.2 | some v => addVals v e.2))) (Array.replicate n none)).toList.map
    (fun o => o.getD (.fin false 0 0))

/-- The FLUSHCTL of a multiply's rows. -/
def Staged.ctl (st : Staged) : Nat := (st.flushctl.headD 0).toNat

/-- The rows of a multiply by the group that supplies them, each band with its own FLUSHCTL; one band where all are the same (R8, R222). -/
def Staged.bands (st : Staged) : List Staged :=
  if st.flushctl.eraseDups.length ≤ 1 then [st]
  else
    let n := st.flushctl.length
    let part {α : Type} (i : Nat) (l : List α) : List α := (l.drop (i * (l.length / n))).take (l.length / n)
    st.flushctl.mapIdx (fun i c => { st with a := part i st.a, sa := part i st.sa, sp := part i st.sp, flushctl := [c] })

/-- The rows of A along K, those of `mma.sp` expanded (R207). -/
def narrowRows (st : Staged) (row : Nat) : List (List FVal) × MFlags :=
  let y := st.y
  let k := 32 * matKC y
  let sp := st.opc == 0x241
  let kl := if sp then 2 * k else k
  let saA := st.sa.toArray
  let spA := st.sp.toArray
  let pos (r j : Nat) : Nat :=
    if sp then
      let e := spA[r * (kl / 4) + j / 2]?.getD 0
      4 * (j / 2) + (if j % 2 = 0 then e % 4 else e / 4)
    else j
  let rows := (cut k st.a).mapIdx (fun r xs =>
    let sc (j : Nat) : Option Nat := if matMXS y = 1 then some (saA[r * (kl / 32) + pos r j / 32]?.getD 0) else none
    let (vs, f) := narrowVals row (matTA y) st.ctl xs sc
    (if sp then expandRow kl (vs.mapIdx (fun j v => (pos r j, v))) else vs, f))
  (rows.map (·.1), rows.foldl (fun f r => f.join r.2) mNone)

/-- The narrow multiply (R205, R206): chunks in order into each element. -/
def narrowMul (st : Staged) (row : Nat) (acc : List (BitVec 128)) : List (BitVec 128) × MFlags :=
  let y := st.y
  let (rows, fa) := narrowRows st row
  let sbA := st.sb.toArray
  let (bv, fb) := narrowVals row (matTB y) st.ctl st.b
    (fun i => if matMXS y = 1 then some (sbA[i / 128 / 32 * 128 + i % 128]?.getD 0) else none)
  let bA := bv.toArray
  let elem (vs : List FVal) (c : Nat) (a : BitVec 128) : BitVec 128 × MFlags :=
    (cut (if st.opc = 0x241 then 64 else 32) (vs.mapIdx (fun p v => (v, bA[p * 128 + c]?.getD (.fin false 0 0))))).foldl
      (fun (r : BitVec 128 × MFlags) terms =>
        let (z, f) := if row = 1 then narrowInt r.1.toNat terms else narrowF32 r.1.toNat terms
        (BitVec.ofNat 128 z, r.2.join f)) (a, mNone)
  let out := (rows.zip (cut 128 acc)).flatMap (fun (ts, as) => as.mapIdx (fun c a => elem ts c a))
  (out.map (·.1), out.foldl (fun f e => f.join e.2) (fa.join fb))

/-- The sliced multiply (R211, R215). -/
def slicedMul (st : Staged) (acc : List (BitVec 128)) (sides : List Nat) : List (BitVec 128) × List Nat × MFlags :=
  let y := st.y
  let kc := matKC y
  let ctl := st.ctl
  let slice (t : Nat) (xs : List Nat) : List (Sliced × MFlags) := (cut 16 xs).map (sliceChunk t ctl (matSLC y))
  let rows := (cut (16 * kc) st.a).map (slice (matTA y))
  let bA := st.b.toArray
  let cols := (List.range 128).map (fun c => slice (matTB y) ((List.range (16 * kc)).map (fun k => bA[k * 128 + c]?.getD 0)))
  let f0 := (rows ++ cols).foldl (fun f l => l.foldl (fun f e => f.join e.2) f) mNone
  let elem (r c : List (Sliced × MFlags)) (e : BitVec 128 × Nat) : LElem × MFlags :=
    (r.zip c).foldl (fun (a : LElem × MFlags) ch =>
      let (x, f) := slicedChunk (matPS y) (matSLC y) a.1 ch.1.1 ch.2.1
      (x, a.2.join f)) ((laccOf e.1, e.2), mNone)
  let out := (rows.zip (cut 128 (acc.zip sides))).flatMap (fun (r, es) => (cols.zip es).map (fun (c, e) => elem r c e))
  (out.map (fun e => if e.1.2 = 0 then laccBits e.1.1 else 0), out.map (·.1.2), out.foldl (fun f e => f.join e.2) f0)

/-- A multiply's elements, side classes and conditions, band by band. -/
def mulBands (f : Staged → List (BitVec 128) → List Nat → List (BitVec 128) × List Nat × MFlags) (st : Staged) (els : List (BitVec 128)) (sides : List Nat) :
    List (BitVec 128) × List Nat × MFlags :=
  let bs := st.bands
  let rs := (bs.zip ((cut (els.length / max 1 bs.length) els).zip (cut (els.length / max 1 bs.length) sides))).map (fun e => f e.1 e.2.1 e.2.2)
  (rs.flatMap (·.1), rs.flatMap (·.2.1), rs.foldl (fun m r => m.join r.2.2) mNone)

/-- A staged multiply performed on its slot, and its conditions merged into MSTAT (R220). -/
def performStaged (s : State) (core : Nat) (st : Staged) : State :=
  match findCore s core with
  | none => s
  | some k =>
    let y := st.y
    let tacc := matTACC y
    let row := (matRow (matTA y) (matTB y) tacc (matTRT y) (matMXS y) (matSLC y) (matPS y) (st.opc == 0x241)).getD 1
    let n := if tacc = 0xB then 8192 else 16384
    let (els, sides) := if matZA y then (List.replicate n 0, List.replicate n 0)
      else (let r := slotElems k st.slot tacc; (r.1, if tacc = 0xB then r.2 else List.replicate n 0))
    let (e, sd, f) := mulBands (fun b els sides => if row = 5 then slicedMul b els sides
      else (let r := narrowMul b row els; (r.1, [], r.2))) st els sides
    let s := putSlot (if matZA y then healSlot s core st.slot tacc else s) core st.slot tacc e (if row = 5 then sd else [])
    st.grps.foldl (fun s g => modGroup s g (fun g => { g with mstat := mergeMstat g.mstat f })) s

/-- The array takes its next multiply (R194). -/
def arrayStep (s : State) (core : Nat) : State :=
  match (findCore s core).map (·.array) with
  | some (st :: r) => performStaged (modCore s core (fun k => { k with array := r })) core st
  | _ => s

/-- Every staged multiply of a core performed in order. -/
def drainArrayFuel (core : Nat) : Nat → State → State
  | 0, s => s
  | n + 1, s => drainArrayFuel core n (arrayStep s core)
def drainArray (s : State) (core : Nat) : State := drainArrayFuel core (((findCore s core).map (·.array.length)).getD 0) s

end Sys2Proof.Machine
end

