-- ==== Sys2Proof/Machine/Matrix.lean ====
section
/-! DEFINITION. The instructions of the matrix engine (R218 to R232). -/
namespace Sys2Proof.Machine

/-! ### Multiplies -/

def regTrap (x : Issue) (s : State) (c : Nat) : IRes := .trap s { kind := kREGRANGE, cause := c, mask := x.act }

/-- MEMERR of a slot that holds an uncorrectable element (R226). -/
def accTrap (x : Issue) (s : State) : IRes := .trap s { kind := kMEMERR, cause := 2, mask := x.act }

/-- The memory tiles of a multiply: A through a map, B, B's scales. -/
def mulTiles (s : State) (x : Issue) (t : Team) (y : XWord) (sp : Bool) : List Tile :=
  let k := mulK y sp
  let h := xtail y 38 1 == 1
  (if matASRC y = 1 then [tileOf t false (xtail y 35 3) (rdA s x x.lead) (matTA y) (mulM y) (if sp then k / 2 else k)] else [])
  ++ [tileOf t h (xtail y 39 4) (rdB s x x.lead) (matTB y) k 128]
  ++ (if matMXS y = 1 then [scaleTile t h (xtail y 39 4) (k / 32)] else [])

/-- The groups whose fragments stand one after another in a multiply, each with the first register of its A rows (R222). -/
abbrev Frags := List (Group × Nat)

/-- The staged form of a multiply: its fields, the elements of A and B, the scales and the index entries, all as they stand (R194). The rows that a
group of an `mma.t` supplies are computed under its own FLUSHCTL, and with MXS their scales come from its own XS, a band of M/G rows like that of A
(DESIGN CHOICE: log 74); a member that signed by `cv.sign` supplies the band at v0 (DESIGN CHOICE: log 73). (DESIGN CHOICE: log 20; DESIGN CHOICE:
log 64) -/
def stagedOf (y : XWord) (opc : Nat) (frags : Frags) (slot : Nat) (vals : List (List Nat)) : Staged :=
  let sp := opc == 0x241
  let row := mulRow y sp
  let m := mulM y / max 1 frags.length
  let (a, rest) := if matASRC y = 1 then (vals.headD [], vals.drop 1)
    else (elemsOfBytes (etBits (matTA y)) (frags.flatMap (fun f => readFrag f.1 f.2 (matAWords y row m))), vals)
  { grps := frags.map (·.1.id), opc := opc, y := y, slot := slot, a := a, b := rest.headD [],
    sa := if matMXS y = 1 then elemsOfBytes 8 (frags.flatMap (fun f => readFrag f.1 (xmod y 0 9) (matSWords y sp m))) else [],
    sb := (rest.drop 1).headD [],
    sp := if sp then frags.flatMap (fun f => elemsOfBytes 4 (readIndex f.1 (vNum y.sc) (xtail y 43 2) (matIWords y))) else [],
    flushctl := frags.map (·.1.flushctl) }

/-- The elements of some tiles whose checks have passed. -/
def readTiles (s : State) (g : Group) (p : Partition) (ts : List Tile) (tabs : List PageTab) : List (List Nat) :=
  (ts.zip tabs).map (fun t => readTile s g p t.2 t.1)

/-- The checks and staging of a multiply (R226): the staged form, or what stops it. -/
def stageMul (x : Issue) (s : State) (y : XWord) (opc : Nat) (frags : Frags) (k : State → Staged → IRes) : IRes :=
  match slotCheck s x.g (matSlot y) (matTACC y) (!matZA y), teamOf s x.g with
  | .error c, _ => regTrap x s c
  | .ok _, none => .done s []
  | .ok n, some t =>
    let ts := mulTiles s x t y (opc == 0x241)
    match checkTiles s x false ts with
    | .stop r => r
    | .ok s p tabs =>
      if !matZA y && (tileSlots n (matTACC y)).any (slotBad s x.g.core) then accTrap x s
      else
        let s := correctAcc s x.g.core (if matZA y then [] else tileSlots n (matTACC y))
        let s := sampleTiles (touchRead s x.g.id) x 0 ts
        k s (stagedOf y opc frags n (readTiles s x.g p ts tabs))

/-- A staged multiply joins its core's array (R194). -/
def pushArray (s : State) (core : Nat) (st : Staged) : State := modCore s core (fun k => { k with array := k.array ++ [st] })

/-- `mma` and `mma.sp` (R220, R221). (DEDUCED: log 39) -/
def mulOp (y : XWord) (opc : Nat) (x : Issue) (s : State) : IRes :=
  groupWide x s fun s =>
    let s := readPoint s x.g.id
    stageMul x s y opc [((findGroup s x.g.id).getD x.g, vNum y.sa)] fun s st => .done (pushArray s x.g.core st) []

/-- `mma`: a fragment instruction unless A comes from a map without scales (R201). -/
def execMma (y : XWord) (s : State) :=
  if matASRC y = 1 ∧ matMXS y = 0 then issue (.mma y) s (mulOp y 0x240) else issueConv (.mma y) s (mulOp y 0x240)
def execMmaSp (y : XWord) (s : State) := issueConv (.mmaSp y) s (mulOp y 0x241)

/-- The array performs its next multiply. -/
def execArrayPerform (core : Nat) (s : State) := event (fun s => arrayStep s core) s

/-! ### `mma.t` (R222) -/

/-- The groups of a set parked in `mma.t` on a register. -/
def mmaTWaiters (s : State) (g : Group) (n : Nat) : List Group :=
  s.groups.filter (fun h => h.disp == g.disp && h.teamid == g.teamid && h.state == .park && h.wait == .mmaT n)

/-- The members of a set by ascending `grpid`. -/
def setMembers (s : State) (g : Group) (set : Word) : List Group :=
  (bitsOf 32 set.toNat).filterMap (fun k => s.groups.find? (fun h => h.disp == g.disp && h.teamid == g.teamid && h.grpid == k
    && h.state != .retired))

/-- BARERR in every group of the set (R222): those that wait lose their signatures, the issuing group traps, and a member that has not issued its
`mma.t` takes BARERR when it does. (DEDUCED: log 39) -/
def mmaTFail (x : Issue) (s : State) (n cause : Nat) : IRes :=
  let ws := (mmaTWaiters s x.g n).map (·.id)
  let rest := ((((teamOf s x.g).map (fun t => setMembers s x.g (cvOf t n).set)).getD []).map (·.id)).filter (fun h => !ws.contains h && h != x.g.id)
  let s := ws.foldl (fun s h => trapParked (modGroup s h (fun h => { h with mmaT := none })) h { kind := kBARERR, cause := cause, mask := [] }) s
  let s := rest.foldl (fun s h => modGroup s h (fun h => { h with mmaErr := some (n, cause) })) s
  let s := modTeamOf s x.g (fun t => { t with cv := updAt n (fun c => { c with signed := 0 }) t.cv })
  .trap s { kind := kBARERR, cause := cause, mask := x.act }

/-- A staged `mma.t` performed by its last signer: the array, the phase, the release of every waiting group as an acquire. -/
def mmaTDone (s : State) (x : Issue) (n : Nat) (st : Staged) : State :=
  let s := drainArray (pushArray s x.g.core st) x.g.core
  let ws := mmaTWaiters s x.g n
  let s := ws.foldl (fun s h => modGroup s h.id (fun h => { h with mmaT := none, wait := .again })) s
  let s := completeCv s x.g.disp x.g.teamid n
  acquireNow (ws.foldl (fun s h => releaseAcq s h.id 0) s) x.g.id

/-- `mma.t` performed by the last signer: staged, performed, the phase completed, every group released as an acquire. -/
def mmaTPerform (y : XWord) (n : Nat) (x : Issue) (s : State) (ms : Frags) : IRes :=
  stageMul x s y 0x242 ms fun s st => .done (mmaTDone s x n st) []

/-- `mma.t` (R222): a release, whose held store error comes first (R139). -/
def mmaTOp (y : XWord) (x : Issue) (s : State) : IRes :=
  groupWide x s fun s =>
    match teamOf s x.g with
    | none => .done s []
    | some t =>
      let n := xtail y 45 4
      let c := cvOf t n
      let sb := rdB s x x.lead
      let members := (bitsOf 32 c.set.toNat).length
      withRelease x s x.act fun s =>
      if (x.g.mmaErr.map (·.1)) = some n then
        .trap (modGroup s x.g.id (fun g => { g with mmaErr := none })) { kind := kBARERR, cause := (x.g.mmaErr.map (·.2)).getD 0, mask := x.act }
      else if !c.set.getLsbD x.g.grpid then mmaTFail x s n 2
      else if c.signed.getLsbD x.g.grpid then .trap s { kind := kBARERR, cause := 3, mask := x.act }
      else if !([1, 2, 4, 8].contains members) then mmaTFail x s n 0
      else
          let ws := mmaTWaiters s x.g n
          if ws.any (fun h => match h.mmaT with | some (z, b) => z.modb != y.modb || z.moda != y.moda || b != sb | none => true) then
            mmaTFail x s n 0
          else
            let signed := c.signed ||| BitVec.ofNat 32 (2 ^ x.g.grpid)
            if cvComplete { c with signed := signed } t.retired then
              let ms := setMembers s x.g c.set
              if ms.length != members then mmaTFail x s n 4
              else mmaTPerform y n x s (ms.map (fun h => (h, if h.id = x.g.id then vNum y.sa else ((h.mmaT.map (fun m => vNum m.1.sa)).getD 0))))
            else
              let s := modTeamOf s x.g (fun t => { t with cv := updAt n (fun c => { c with signed := signed }) t.cv })
              .parkDone (modGroup s x.g.id (fun g => { g with mmaT := some (y, sb) })) (.mmaT n)

def execMmaT (y : XWord) (s : State) := issueConv (.mmaT y) s (mmaTOp y)

/-! ### Slots (R223 to R225) -/

def zerosOf (tacc : Nat) : List (BitVec 128) := List.replicate (if tacc = 0xB then 8192 else 16384) 0

/-- The conditions of an instruction merged into its group's MSTAT. -/
def noteMstat (s : State) (g : Nat) (f : MFlags) : State := modGroup s g (fun g => { g with mstat := mergeMstat g.mstat f })

/-- `azero` (R223). -/
def execAzero (f : FWord) (s : State) :=
  issue (.azero f) s fun x s => groupWide x s fun s =>
    let s := drainArray s x.g.core
    match slotCheck s x.g (fmod f 0 3) (fmod f 3 4) false with
    | .error c => regTrap x s c
    | .ok n =>   .done (putSlot (healSlot s x.g.core n (fmod f 3 4)) x.g.core n (fmod f 3 4) (zerosOf (fmod f 3 4)) []) []

/-- The memory tile of `aload` and `astore`. -/
def accTile (s : State) (x : Issue) (t : Team) (y : XWord) : Tile :=
  tileOf t (xtail y 25 1 == 1) (xtail y 26 4) (rdA s x x.lead) (accET y) (accM y) 128

/-- Elements entering a slot, with the conditions met. (DEDUCED: log 39) -/
def enterAll (et tacc : Nat) (xs : List Nat) : List (BitVec 128) × List Nat × MFlags :=
  let es := xs.map (enterElem et tacc)
  (es.map (·.1), es.map (·.2.1), es.foldl (fun f e => f.join e.2.2) mNone)

/-- `aload` (R225). -/
def execAload (y : XWord) (s : State) :=
  issue (.aload y) s fun x s => groupWide x s fun s =>
    let s := drainArray (readPoint s x.g.id) x.g.core
    match slotCheck s x.g (xtail y 18 3) (accTACC y) false, teamOf s x.g with
    | .error c, _ => regTrap x s c
    | .ok _, none => .done s []
    | .ok n, some t =>
      let tl := accTile s x t y
      match checkTiles s x false [tl] with
      | .stop r => r
      | .ok s p tabs =>
        let s := sampleTiles (touchRead s x.g.id) x 0 [tl]
        let (els, sides, f) := enterAll (accET y) (accTACC y) (readTile s x.g p (tabs.headD []) tl)
        .done (noteMstat (putSlot (healSlot s x.g.core n (accTACC y)) x.g.core n (accTACC y) els (if accTACC y = 0xB then sides else [])) x.g.id f) []

/-- Elements leaving a slot (R216). -/
def leaveAll (y : XWord) (ctl : Nat) (es : List (BitVec 128 × Nat)) : List Nat × MFlags :=
  let os := es.map (fun e => leaveElem (accET y) (accTACC y) ctl (Rnd.ofCode (xtail y 21 3)) (xtail y 24 1 == 1) e.1 e.2)
  (os.map (·.1), os.foldl (fun f e => f.join e.2) mNone)

/-- A tile's elements with their side classes. -/
def slotPairs (k : Core) (n tacc : Nat) : List (BitVec 128 × Nat) :=
  let (els, sides) := slotElems k n tacc
  if tacc = 0xB then els.zip sides else els.map (fun e => (e, 0))

/-- What a slot's tile waits for before it is stored: the arrays, and for a local tile what comes before a write at its issue (R194, R232, R312). -/
def astorePoint (s : State) (x : Issue) (glob : Bool) : State := drainArray (if glob then s else drainForWrite s x.g.id) x.g.core

/-- `astore` (R225): its writes are stores of the group at its place in program order (R232). -/
def execAstore (y : XWord) (s : State) :=
  issue (.astore y) s fun x s => groupWide x s fun s =>
    let s := astorePoint s x (((teamOf s x.g).map (fun t => (accTile s x t y).glob)).getD false)
    match slotCheck s x.g (xtail y 18 3) (accTACC y) true, teamOf s x.g, findCore s x.g.core with
    | .error c, _, _ => regTrap x s c
    | .ok n, some t, some k =>
      let tl := accTile s x t y
      match checkTiles s x true [tl] with
      | .stop r => r
      | .ok s p tabs =>
        if (tileSlots n (accTACC y)).any (slotBad s x.g.core) then accTrap x s
        else
          let s := correctAcc s x.g.core (tileSlots n (accTACC y))
          let (os, f) := leaveAll y x.g.flushctl.toNat (slotPairs k n (accTACC y))
          .done (noteMstat (writeTile (sampleTiles s x 1 [tl]) x p (tabs.headD []) tl os) x.g.id f) []
    | .ok _, _, _ => .done s []

/-- `aread` (R225). -/
def areadOp (y : XWord) (x : Issue) (s : State) : IRes :=
  groupWide x s fun s =>
    let s := drainArray s x.g.core
    let r0 := rdB s x x.lead
    match slotCheck s x.g (xtail y 18 3) (accTACC y) true, findCore s x.g.core with
    | .error c, _ => regTrap x s c
    | .ok _, none => .done s []
    | .ok n, some k =>
      if accM y < r0 + accN y then .trap s { kind := kSEG, mask := x.act, daddr := BitVec.ofNat 64 r0 }
      else if (tileSlots n (accTACC y)).any (slotBad s x.g.core) then accTrap x s
      else
        let s := correctAcc s x.g.core (tileSlots n (accTACC y))
        let (os, f) := leaveAll y x.g.flushctl.toNat (((slotPairs k n (accTACC y)).drop (128 * r0)).take (128 * accN y))
        .done (noteMstat (modGroup s x.g.id (fun g => writeFrag g (vNum y.dst) (bytesOfElems (etBits (accET y)) os))) x.g.id f) []
def execAread (y : XWord) (s : State) := issueConv (.aread y) s (areadOp y)

/-- `awrite` (R225): where the tag changes, elements outside the rows named become zero. -/
def awriteOp (y : XWord) (x : Issue) (s : State) : IRes :=
  groupWide x s fun s =>
    let s := drainArray s x.g.core
    let g := (findGroup s x.g.id).getD x.g
    let w := fragWords (accN y * 128) (etBits (accET y))
    let r0 := rdB s x x.lead
    let tacc := accTACC y
    match slotCheck s g (xtail y 18 3) tacc false, findCore s g.core with
    | .error c, _ => regTrap x s c
    | .ok _, none => .done s []
    | .ok n, some k =>
      if accM y < r0 + accN y then .trap s { kind := kSEG, mask := x.act, daddr := BitVec.ofNat 64 r0 }
      else
        let old := if (tileSlots n tacc).all (fun i => (slotAt k i).tag == slotTag tacc) then slotPairs k n tacc
            else (zerosOf tacc).map (fun e => (e, 0))
        let (els, sides, f) := enterAll (accET y) tacc (elemsOfBytes (etBits (accET y)) (readFrag g (vNum y.sa) w))
        let new := old.take (128 * r0) ++ (els.zip sides).take (128 * accN y) ++ old.drop (128 * (r0 + accN y))
        .done (noteMstat (putSlot (healSlot s g.core n tacc) g.core n tacc (new.map (·.1)) (if tacc = 0xB then new.map (·.2) else [])) g.id f) []
def execAwrite (y : XWord) (s : State) := issueConv (.awrite y) s (awriteOp y)

/-! ### Maps, handles, MSTAT (R227, R228) -/

/-- `omap` (R228). -/
def execOmap (y : XWord) (s : State) :=
  issue (.omap y) s fun x s => groupWide x s fun s =>
    let a := rdA s x x.lead
    let p := rdB s x x.lead
    if a % 16 != 0 ∨ p % 16 != 0 then .trap s { kind := kALIGN, mask := x.act, daddr := BitVec.ofNat 64 (if a % 16 != 0 then a else p) }
    else
      .done (modTeamOf s x.g (fun t => { t with om := updAt (xtail y 2 3) (fun m =>
        if xtail y 11 1 = 1 then { m with sbase := BitVec.ofNat 32 a, spitch := BitVec.ofNat 32 p }
        else { m with base := BitVec.ofNat 32 a, pitch := BitVec.ofNat 32 p, etype := xtail y 5 4, swz := xtail y 9 2 }) t.om })) []

/-- `thdl` (R228): the handle holds no translation afterwards. -/
def execThdl (y : XWord) (s : State) :=
  issue (.thdl y) s fun x s => groupWide x s fun s =>
    let a := rdA s x x.lead
    let p := rdB s x x.lead
    let b := rdC s x x.lead
    if a % 16 != 0 ∨ p % 16 != 0 then .trap s { kind := kALIGN, mask := x.act, daddr := BitVec.ofNat 64 (if a % 16 != 0 then a else p) }
    else if !canonical a then .trap s { kind := kSEG, mask := x.act, daddr := BitVec.ofNat 64 a }
    else
      .done (modTeamOf s x.g (fun t => { t with th := updAt (xtail y 2 4) (fun h =>
        let h := { h with pages := [] }
        if xtail y 10 1 = 1 then { h with sva := BitVec.ofNat 64 a, spitch := BitVec.ofNat 64 p }
        else { h with va := BitVec.ofNat 64 a, pitch := BitVec.ofNat 64 p, etype := xtail y 6 4, rows := BitVec.ofNat 32 (b % 65536),
                      cols := BitVec.ofNat 32 (b / 65536) }) t.th })) []

/-- `mst.rd` (R227): every earlier matrix instruction of the group has completed. -/
def execMstRd (f : FWord) (s : State) :=
  issue (.mstRd f) s fun x s => groupWide x s fun s =>
    let s := drainArray s x.g.core
    doneWith s x (((findGroup s x.g.id).map (fun g => g.mstat.toNat)).getD 0)

/-- `mst.clr` (R227). -/
def execMstClr (f : FWord) (s : State) :=
  issue (.mstClr f) s fun x s => groupWide x s fun s =>
    .done (modGroup (drainArray s x.g.core) x.g.id (fun g => { g with mstat := mstatReset })) []

end Sys2Proof.Machine
end

