-- ==== Sys2Proof/Machine/Launch.lean ====
section
/-! DEFINITION. `launch` (R358): its issue and its performance as a command of the control queue. -/
namespace Sys2Proof.Machine

/-- The queue number of a command that has been performed and completes later: a `launch` whose dispatch runs. -/
def doneQueue : Nat := 15

/-- `launch` at issue: ALIGN and SEG of the record, then the barrier's checks. -/
def launchCmd (s : State) (i : Issuer) (c : CmdSpec) : CRes :=
  if c.a % 64 != 0 then .err s 5 ⟨kALIGN, 0, c.a⟩
  else if (cmdGlobal i c.a 256).isNone then .err s 5 ⟨kSEG, 0, c.a⟩
  else issueCmd s i c fun s r => { newCmd s i ctlQueue c with bar := r, credit := 1 }

def execLaunch (y : XWord) (s : State) := issue (.launch y) s fun x s => engineCmd x s y 0x2C0 false true launchCmd

/-- The system right of a `launch`: its dispatch's SYS flag, or the SYSRIGHT of the host queue that replays it (R358, R405). -/
def launchRight (s : State) (c : Cmd) : Bool :=
  match findDisp s c.disp with
  | some d => dispSys d
  | none => ((s.hostQueues.find? (fun h => h.id == c.teamid)).map queueSys).getD false

/-- The submission that a `launch` makes. -/
def launchSub (s : State) (c : Cmd) : Submission :=
  let right := launchRight s c
  let ovr := fldN c.moda 3 2
  { id := c.id, part := c.part, sub := .launch c.id, recVa := va57 c.a, asid := c.asid, ascr := c.ascr, die := coreDie c.core, sysRight := right,
    asidBound := if right then none else some c.asid, entry := 0, signal := (0, 0),
    ovr := if ovr = 0 then none else some (ovr, BitVec.ofNat 64 c.b), preempt := 0 }

/-- `launch` performed: the record is read and the dispatch accepted or refused. -/
def performLaunch (s : State) (c : Cmd) : State :=
  match engXlate s c false (va57 c.a) 256 with
  | (s, .error e) => stopCmd s c e []
  | (s, .ok _) =>
    let s := modCmd s c.id (fun k => { k with queue := doneQueue, started := true })
    acceptSub s (launchSub s { c with queue := doneQueue })

end Sys2Proof.Machine
end

