-- ==== Sys2Proof/Machine/RayMath.lean ====
section
/-! DEFINITION. The arithmetic of the ray unit: exact values, boxes, primitives and their tests (R237 to R247). Values are FP32 patterns
unless said otherwise; nothing is flushed. -/
namespace Sys2Proof.Machine

/-! ### Exact values -/

/-- The exact sum, product and difference of two values. -/
def xAdd (a b : FVal) : FVal :=
  match a, b with
  | .nan .., _ | _, .nan .. => .nan false false 0
  | .inf n, .inf m => if n = m then .inf n else .nan false false 0
  | .inf n, _ => .inf n
  | _, .inf m => .inf m
  | .fin n x e, .fin m y d =>
    let q := min e d
    let z := fvAt n x e q + fvAt m y d q
    if z = 0 then .fin (n && m) 0 0 else .fin (decide (z < 0)) z.natAbs q
def xNeg (a : FVal) : FVal := a.withSign (!a.neg)
def xSub (a b : FVal) : FVal := xAdd a (xNeg b)
def xMul (a b : FVal) : FVal :=
  match a, b with
  | .nan .., _ | _, .nan .. => .nan false false 0
  | .inf n, b => if b.isZero then .nan false false 0 else .inf (xor n b.neg)
  | a, .inf m => if a.isZero then .nan false false 0 else .inf (xor a.neg m)
  | .fin n x e, .fin m y d => .fin (xor n m) (x * y) (e + d)

/-- A value rounded once to a format. -/
def roundV (f : Fmt) (r : Rnd) (a : FVal) : Nat :=
  match a with
  | .nan .. => f.nanBits
  | .inf n => f.infSigned n
  | .fin n m e => if m = 0 then f.zeroBits n else (roundFmt f r false n m e).bits

def f32v (x : Nat) : FVal := Fmt.f32.decode x
def f64v (x : Nat) : FVal := Fmt.f64.decode x
/-- `round` to FP32 with RNE. -/
def r32 (a : FVal) : Nat := roundV .f32 .rne a
/-- `r64` of R245. -/
def r64 (a : FVal) : FVal := f64v (roundV .f64 .rne a)

def sAdd (a b : Nat) : Nat := r32 (xAdd (f32v a) (f32v b))
def sSub (a b : Nat) : Nat := r32 (xSub (f32v a) (f32v b))
def sMul (a b : Nat) : Nat := r32 (xMul (f32v a) (f32v b))
def sFma (a b c : Nat) : Nat := r32 (xAdd (xMul (f32v a) (f32v b)) (f32v c))
def sDiv (a b : Nat) : Nat := (fpDiv .f32 0 .rne (f32v a) (f32v b)).1
def sSqrt (a : Nat) : Nat := (fpSqrt .f32 0 .rne (f32v a)).1
def sNeg (a : Nat) : Nat := a ^^^ 0x80000000

/-- Comparisons; false where a NaN stands. -/
def vLt (a b : FVal) : Bool := !a.isNan && !b.isNan && decide (fvCmp a b < 0)
def vLe (a b : FVal) : Bool := !a.isNan && !b.isNan && decide (fvCmp a b ≤ 0)
def sLt (a b : Nat) : Bool := vLt (f32v a) (f32v b)
def sLe (a b : Nat) : Bool := vLe (f32v a) (f32v b)
def sNan (a : Nat) : Bool := (f32v a).isNan
def sFinite (a : Nat) : Bool := match f32v a with | .fin .. => true | _ => false
def vZero : FVal := .fin false 0 0

/-- The greatest, or least, of some values; NaN where one is. -/
def sMax (l : List Nat) : Nat :=
  match l with
  | [] => 0
  | x :: xs => if l.any sNan then Fmt.f32.nanBits else xs.foldl (fun a b => if sLt a b then b else a) x
def sMin (l : List Nat) : Nat :=
  match l with
  | [] => 0
  | x :: xs => if l.any sNan then Fmt.f32.nanBits else xs.foldl (fun a b => if sLt b a then b else a) x

/-- The adjacent FP32 values; infinities stay (R239). -/
def nextUp (x : Nat) : Nat :=
  match f32v x with
  | .nan .. => x
  | .inf _ => x
  | .fin neg m _ => if m = 0 then 1 else if neg then x - 1 else x + 1
def nextDown (x : Nat) : Nat := sNeg (nextUp (sNeg x))

def at3 (l : List Nat) (i : Nat) : Nat := l[i]?.getD 0
/-- A little-endian FP32 pattern of a record. -/
def recF32 (b : List Byte) (i : Nat) : Nat := ofLeBytes ((b.drop i).take 4)

/-! ### Time (R239) -/

/-- The key index and fraction of n keys at a time; the spec gives no key for a time that is negative or a NaN (log 54). -/
def keyAt (t n : Nat) : Nat × FVal :=
  if n ≤ 1 then (0, vZero)
  else
    let s := f32v (r32 (xMul (f32v t) (.fin false (n - 1) 0)))
    let fl := match s with
      | .fin neg m e => if neg ∧ m ≠ 0 then Config.strayKey t n % (n - 1) else if 0 ≤ e then m * 2 ^ e.toNat else m / 2 ^ (-e).toNat
      | .inf false => n - 2
      | _ => Config.strayKey t n % (n - 1)
    let k := min fl (n - 2)
    (k, xSub s (.fin false k 0))

/-- A motion box's bounds (R239). -/
def lerpLo (f : FVal) (a b : Nat) : Nat := nextDown (roundV .f32 .rdn (xAdd (f32v a) (xMul f (xSub (f32v b) (f32v a)))))
def lerpHi (f : FVal) (a b : Nat) : Nat := nextUp (roundV .f32 .rup (xAdd (f32v a) (xMul f (xSub (f32v b) (f32v a)))))
/-- A motion primitive's coordinate (R239). -/
def lerpV (f : FVal) (a b : Nat) : Nat := r32 (xAdd (xMul f (f32v (sSub b a))) (f32v a))

/-! ### Nodes (R237, R238) -/

/-- A child's box at a time: low and high bounds by axis; none for a child of a static node that is never hit. -/
def childBox (node : List Byte) (t c : Nat) : Option (List Nat × List Nat) :=
  let byte (i : Nat) : Nat := ((node[i]?).getD 0).toNat
  if byte 15 = 0 then
    let lo (a : Nat) : Nat := byte (48 + 6 * c + a)
    let hi (a : Nat) : Nat := byte (51 + 6 * c + a)
    if [0, 1, 2].any (fun a => decide (hi a < lo a)) then none
    else
      let v (r : Rnd) (a q : Nat) : Nat := roundV .f32 r (xAdd (f32v (recF32 node (4 * a))) (.fin false q (sextN 8 (byte (12 + a)))))
      some ([0, 1, 2].map (fun a => v .rdn a (lo a)), [0, 1, 2].map (fun a => v .rup a (hi a)))
  else
    let (k, f) := keyAt t (byte 12)
    let key (k i : Nat) : Nat := recF32 node (128 + 192 * k + 24 * c + 4 * i)
    some ([0, 1, 2].map (fun a => lerpLo f (key k a) (key (k + 1) a)), [0, 1, 2].map (fun a => lerpHi f (key k (a + 3)) (key (k + 1) (a + 3))))

/-- A ray in the space of a test: origin, direction, interval. -/
structure Ray where
  o : List Nat
  d : List Nat
  tmin : Nat
  tmax : Nat
  deriving DecidableEq, Repr

/-- The box test (R244): the sort key of a hit. (DEDUCED: log 40) -/
def boxTest (r : Ray) (lo hi : List Nat) : Option Nat :=
  let quo (m : Rnd) (b a : Nat) : Nat := (fpDiv .f32 0 m (xSub (f32v b) (f32v (at3 r.o a))) (f32v (at3 r.d a))).1
  let axis (a : Nat) : Option (Nat × Nat) :=
    let d := f32v (at3 r.d a)
    if d.isZero then
      if sLt (at3 r.o a) (at3 lo a) || sLt (at3 hi a) (at3 r.o a) then none
      else some (Fmt.f32.infSigned true, Fmt.f32.infSigned false)
    else if vLt vZero d then some (quo .rdn (at3 lo a) a, quo .rup (at3 hi a) a)
    else some (quo .rdn (at3 hi a) a, quo .rup (at3 lo a) a)
  match axis 0, axis 1, axis 2 with
  | some x, some y, some z =>
    let near := sMax [x.1, y.1, z.1, r.tmin]
    if sLe near (sMin [x.2, y.2, z.2, r.tmax]) then some near else none
  | _, _, _ => none

/-! ### Primitives -/

/-- What a test reports. -/
structure Hit where
  t : Nat
  u : Nat
  v : Nat
  front : Bool
  deriving DecidableEq, Repr

/-- A test accepts a hit only inside the interval (R244). -/
def accept (r : Ray) (h : Hit) : Option Hit := if sLe r.tmin h.t && sLt h.t r.tmax then some h else none

/-- The watertight triangle test (R245); three vertices of three components. (DEDUCED: log 40) -/
def triTest (r : Ray) (v : List (List Nat)) : Option Hit :=
  let mag (a : Nat) : FVal := (f32v (at3 r.d a)).withSign false
  let kz := if vLt (mag 0) (mag 1) then (if vLt (mag 1) (mag 2) then 2 else 1) else if vLt (mag 0) (mag 2) then 2 else 0
  let dz := at3 r.d kz
  let swap := vLt (f32v dz) vZero
  let kx := if swap then (kz + 2) % 3 else (kz + 1) % 3
  let ky := if swap then (kz + 1) % 3 else (kz + 2) % 3
  let sx := sDiv (at3 r.d kx) dz
  let sy := sDiv (at3 r.d ky) dz
  let sz := sDiv 0x3F800000 dz
  let prep (p : List Nat) : Nat × Nat × Nat :=
    let e (a : Nat) : Nat := sSub (at3 p a) (at3 r.o a)
    (sFma (sNeg sx) (e kz) (e kx), sFma (sNeg sy) (e kz) (e ky), sMul sz (e kz))
  match v.map prep with
  | [a, b, c] =>
    let det2 (p q : Nat × Nat × Nat) : FVal := r64 (xSub (xMul (f32v p.1) (f32v q.2.1)) (xMul (f32v p.2.1) (f32v q.1)))
    let u := det2 c b
    let w1 := det2 a c
    let w := det2 b a
    let neg := [u, w1, w].any (fun x => vLt x vZero)
    let pos := [u, w1, w].any (fun x => vLt vZero x)
    if neg && pos then none
    else
      let det := r64 (xAdd (r64 (xAdd u w1)) w)
      if det.isZero then none
      else
        let m (x : FVal) (p : Nat × Nat × Nat) : FVal := r64 (xMul x (f32v p.2.2))
        let tt := r64 (xAdd (r64 (xAdd (m u a) (m w1 b))) (m w c))
        let q (x : FVal) : Nat := (fpDiv .f32 0 .rne x det).1
        accept r ⟨q tt, q w1, q w, vLt vZero det⟩
  | _ => none

def dot3 (x y : List Nat) : Nat := sFma (at3 x 2) (at3 y 2) (sFma (at3 x 1) (at3 y 1) (sMul (at3 x 0) (at3 y 0)))

/-- min(max(x, 0), 1), a NaN giving 0 and −0 giving +0 (R150, R175, R246, R254). -/
def clampTime (x : Nat) : Nat := if sNan x || !sLt 0 x then 0 else if sLt 0x3F800000 x then 0x3F800000 else x

/-- The round linear segment (R246): two end points of x, y, z, radius; the parameter s stands in u. -/
def linTest (r : Ray) (p0 p1 : List Nat) : Option Hit :=
  let a := [0, 1, 2].map (fun i => sSub (at3 p1 i) (at3 p0 i))
  let w := [0, 1, 2].map (fun i => sSub (at3 p0 i) (at3 r.o i))
  let dd := dot3 r.d r.d
  let aa := dot3 a a
  let da := dot3 r.d a
  let dw := dot3 r.d w
  let aw := dot3 a w
  let den := sFma dd aa (sNeg (sMul da da))
  let s0 := if sLt 0 den then sDiv (sFma da dw (sNeg (sMul dd aw))) den else 0
  let s := clampTime s0
  let tc := sDiv (sFma s da dw) dd
  let rad := sFma s (sSub (at3 p1 3) (at3 p0 3)) (at3 p0 3)
  let e := [0, 1, 2].map (fun i => sSub (sFma tc (at3 r.d i) (at3 r.o i)) (sFma s (at3 a i) (at3 p0 i)))
  let g := sSub (sMul rad rad) (dot3 e e)
  if sLt rad 0 || sLt g 0 then none else accept r ⟨sSub tc (sSqrt (sDiv g dd)), s, 0, true⟩

/-- The basis of R247 scaled by 3,072. -/
def bspline (i : Nat) : List Int :=
  let x : Int := i
  [(8 - x) ^ 3, 3 * x ^ 3 - 48 * x ^ 2 + 2048, -(3 * x ^ 3) + 24 * x ^ 2 + 192 * x + 512, x ^ 3]

/-- Point i of a cubic's eight segments, each component rounded once (R247). -/
def splinePoint (c : List (List Nat)) (i : Nat) : List Nat :=
  [0, 1, 2, 3].map (fun k =>
    let s := ((bspline i).zip c).foldl (fun a p => xAdd a (xMul (.fin (decide (p.1 < 0)) p.1.natAbs 0) (f32v (at3 p.2 k)))) vZero
    (fpDiv .f32 0 .rne s (.fin false 3072 0)).1)

/-- The round cubic segment (R247). -/
def cubicTest (r : Ray) (c : List (List Nat)) : Option Hit :=
  (List.range 8).foldl (fun best m =>
    match linTest r (splinePoint c m) (splinePoint c (m + 1)) with
    | none => best
    | some h =>
      let h' := { h with u := r32 (xMul (xAdd (.fin false m 0) (f32v h.u)) (.fin false 1 (-3))) }
      match best with
      | none => some h'
      | some b => if sLt h.t b.t then some h' else best) none

/-! ### Leaf blocks (R240) -/

/-- Bytes of a record of a leaf block. -/
def recBytes (kind nkeys : Nat) : Nat :=
  if kind = 3 then 64 else alignUp (16 + nkeys * (match kind with | 0 => 36 | 1 => 32 | _ => 64)) 16

/-- Values of one key: points of so many components. -/
def keyPoints (kind : Nat) : Nat × Nat := match kind with | 0 => (3, 3) | 1 => (2, 4) | _ => (4, 4)

/-- The points of a record at a time (R239, R240). -/
def primPoints (kind nkeys t : Nat) (rec : List Byte) : List (List Nat) :=
  let (n, m) := keyPoints kind
  let (k, f) := keyAt t nkeys
  let val (k i : Nat) : Nat := recF32 rec (16 + k * (4 * n * m) + 4 * i)
  (List.range n).map (fun j => (List.range m).map (fun c =>
    let i := m * j + c
    if nkeys ≤ 1 then val 0 i else lerpV f (val k i) (val (k + 1) i)))

/-- A record tested. -/
def primTest (r : Ray) (kind : Nat) (ps : List (List Nat)) : Option Hit :=
  match kind with
  | 0 => triTest r ps
  | 1 => linTest r (ps[0]?.getD []) (ps[1]?.getD [])
  | _ => cubicTest r ps

/-- The object-space ray of an instance (R242); `m` is its transform's twelve values, row by row. -/
def toObject (r : Ray) (m : List Nat) : Ray :=
  let mm (i j : Nat) : Nat := at3 m (4 * i + j)
  { r with
    o := [0, 1, 2].map (fun i => sFma (mm i 2) (at3 r.o 2) (sFma (mm i 1) (at3 r.o 1) (sFma (mm i 0) (at3 r.o 0) (mm i 3)))),
    d := [0, 1, 2].map (fun i => sFma (mm i 2) (at3 r.d 2) (sFma (mm i 1) (at3 r.d 1) (sMul (mm i 0) (at3 r.d 0)))) }

end Sys2Proof.Machine
end

