-- ==== Sys2Proof/Machine/SampleMath.lean ====
section
/-! DEFINITION. The arithmetic of dicing and sampling: patches, boxes, samples, coverage, fragment lists and filters (R260 to R273). -/
namespace Sys2Proof.Machine

def xInt (n : Int) : FVal := .fin (decide (n < 0)) n.natAbs 0
def xSum (l : List FVal) : FVal := l.foldl xAdd vZero
/-- The exact quotient of two exact values rounded once to FP32. -/
def quo32 (a b : FVal) : FVal := f32v (fpDiv .f32 0 .rne a b).1
def xAbs (a : FVal) : FVal := a.withSign false
def vMin (a b : FVal) : FVal := if vLt b a then b else a
def vMax (a b : FVal) : FVal := if vLt a b then b else a
def vMinL (l : List FVal) : FVal := match l with | [] => vZero | x :: xs => xs.foldl vMin x
def vMaxL (l : List FVal) : FVal := match l with | [] => vZero | x :: xs => xs.foldl vMax x

/-! ### Conversions under the FLUSHCTL that a command sampled (R157, R158) -/

/-- A source pattern as it is read. -/
def flushSrc (f : Fmt) (ctl x : Nat) : Nat := (f.flushIn ctl x).1

/-- An exact value rounded once with RNE as a result. -/
def roundCtl (f : Fmt) (ctl : Nat) (a : FVal) : Nat :=
  match a with | .fin n m e => if m = 0 then f.zeroBits n else (roundFlush f ctl .rne false n m e).1 | _ => roundV f .rne a

/-! ### Patches (R260, R261) -/

/-- The four cubic B-spline weights at a parameter, each rounded once. -/
def splineWeights (u : FVal) : List FVal :=
  let poly (c : List Int) : FVal := c.foldl (fun a k => xAdd (xMul a u) (xInt k)) vZero
  [[-1, 3, -3, 1], [3, -6, 0, 4], [-3, 3, 3, 1], [1, 0, 0, 0]].map (fun c => quo32 (poly c) (xInt 6))

/-- i ÷ (n − 1) rounded (R261). -/
def gridParam (i n : Nat) : FVal := quo32 (xInt i) (xInt (n - 1 : Nat))

/-- The weights of the control points at (u, v). -/
def patchWeights (kind : Nat) (u v : FVal) : List FVal :=
  if kind = 0 then (splineWeights v).flatMap (fun b => (splineWeights u).map (fun a => xMul a b))
  else
    let u' := xSub (xInt 1) u
    let v' := xSub (xInt 1) v
    [xMul u' v', xMul u v', xMul u' v, xMul u v]

def patchPoints (kind : Nat) : Nat := if kind = 0 then 16 else 4

/-- A vertex of one key from that key's control points, x, y and z of each in order (R261). -/
def patchVertex (ctl kind : Nat) (pts : List Nat) (u v : FVal) : List Nat :=
  let w := patchWeights kind u v
  (List.range 3).map (fun k => roundCtl .f32 ctl (xSum (w.mapIdx (fun i a => xMul a (f32v (at3 pts (3 * i + k)))))))

/-! ### Boxes (R263, R268) -/

/-- A box by its low and high corners. -/
structure XBox where
  lo : List FVal
  hi : List FVal
  deriving DecidableEq, Repr

def vAt (l : List FVal) (i : Nat) : FVal := l[i]?.getD vZero

/-- The box of some points of x, y and z. -/
def boxOf (xs ys zs : List FVal) : XBox := ⟨[vMinL xs, vMinL ys, vMinL zs], [vMaxL xs, vMaxL ys, vMaxL zs]⟩

def XBox.grow (b : XBox) (d : FVal) : XBox := ⟨b.lo.map (xSub · d), b.hi.map (xAdd · d)⟩

/-- Closed boxes that share a point. -/
def XBox.meets (b c : XBox) : Bool := [0, 1, 2].all (fun i => vLe (vAt b.lo i) (vAt c.hi i) && vLe (vAt c.lo i) (vAt b.hi i))

/-- A box within another. -/
def XBox.within (b c : XBox) : Bool := [0, 1, 2].all (fun i => vLe (vAt c.lo i) (vAt b.lo i) && vLe (vAt b.hi i) (vAt c.hi i))

/-! ### Samples (R266, R267) -/

/-- A sample: position, time, lens position. -/
structure Samp where
  sx : FVal
  sy : FVal
  time : Nat
  lx : FVal
  ly : FVal
  deriving DecidableEq, Repr

/-- Sample k of a pixel, of 4^sppc (R266). -/
def sampleOf (seed : DWord) (salt sopen sclose sppc px py k : Nat) : Samp :=
  let (x0, x1, x2, x3) := randRounds 10 (seed.toNat % 2 ^ 32) (seed.toNat / 2 ^ 32) (px, py, k, salt)
  let n : Nat := 2 ^ sppc
  let frac (x : Nat) : FVal := .fin false (x / 256) (-24)
  let part (q x : Nat) : FVal := quo32 (xAdd (xInt q) (frac x)) (xInt n)
  let lens (x : Nat) : FVal := xMul (xInt ((x : Int) - 32768)) (.fin false 1 (-15))
  { sx := xAdd (xInt px) (part (k % n) x0), sy := xAdd (xInt py) (part (k / n) x1),
    time := r32 (xAdd (f32v sopen) (xMul (frac x2) (xSub (f32v sclose) (f32v sopen)))),
    lx := lens (x3 / 65536), ly := lens (x3 % 65536) }

/-- A vertex of a grid: x, y, z, C of each key, and its colour. -/
structure GVert where
  keys : List (List Nat)
  col : List Nat
  deriving DecidableEq, Repr

/-- A corner as a sample sees it: X, Y and z (R267). -/
def cornerAt (v : GVert) (p : Samp) : FVal × FVal × FVal :=
  let (k, f) := keyAt p.time v.keys.length
  let c (i : Nat) : Nat :=
    let a := at3 ((v.keys[k]?).getD []) i
    if v.keys.length ≤ 1 then a else lerpV f a (at3 ((v.keys[k + 1]?).getD []) i)
  let cc := f32v (c 3)
  (f32v (r32 (xAdd (xMul cc p.lx) (f32v (c 0)))), f32v (r32 (xAdd (xMul cc p.ly) (f32v (c 1)))), f32v (c 2))

/-- A triangle tested against a sample: depth and colour of the fragment (R267). -/
def triSample (v0 v1 v2 : GVert) (p : Samp) : Option (Nat × List Nat) :=
  let a := cornerAt v0 p
  let b := cornerAt v1 p
  let c := cornerAt v2 p
  let cross (u v : FVal × FVal × FVal) (x y : FVal) : FVal := xSub (xMul (xSub v.1 u.1) (xSub y u.2.1)) (xMul (xSub v.2.1 u.2.1) (xSub x u.1))
  let area := cross a b c.1 c.2.1
  if area.isZero then none
  else
    let g (x : FVal) : FVal := if area.neg then xNeg x else x
    let edge (u v : FVal × FVal × FVal) : FVal := g (cross u v p.sx p.sy)
    let keep (u v : FVal × FVal × FVal) : Bool :=
      let e := edge u v
      if vLt e vZero then false
      else if e.isZero then
        let dy := g (xSub u.2.1 v.2.1)
        vLt vZero dy || (dy.isZero && vLt vZero (g (xSub v.1 u.1)))
      else true
    if keep a b && keep b c && keep c a then
      let ws := [edge b c, edge c a, edge a b]
      let mix (f : Fmt) (l : List FVal) : Nat := (fpDiv f 0 .rne (xSum ((ws.zip l).map (fun e => xMul e.1 e.2))) (xAbs area)).1
      let col (i : Nat) : Nat := mix .f16 ([v0, v1, v2].map (fun v => Fmt.f16.decode (at3 v.col i)))
      some (mix .f32 [a.2.2, b.2.2, c.2.2], (List.range 4).map col)
    else none

/-! ### Fragments (R269) -/

/-- An entry: depth, PRIMID, and RGBA as FP16. -/
structure Frag where
  depth : Nat
  prim : Nat
  col : List Nat
  deriving DecidableEq, Repr

def fragEmpty : Frag := ⟨0x7F800000, 0, [0, 0, 0, 0]⟩
def fragBytes (f : Frag) : List Byte := leBytes 4 f.depth ++ leBytes 4 f.prim ++ f.col.flatMap (leBytes 2)
def fragOf (b : List Byte) : Frag :=
  let n (i k : Nat) : Nat := ofLeBytes ((b.drop i).take k)
  ⟨n 0 4, n 4 4, (List.range 4).map (fun i => n (8 + 2 * i) 2)⟩
/-- A sample's 128 bytes. -/
def fragListBytes (l : List Frag) : List Byte := (l ++ List.replicate (8 - l.length) fragEmpty).flatMap fragBytes

def f16One : Nat := 0x3C00

/-- The two deepest of nine entries merged; no FLUSHCTL takes part (R267, R269, R270). (DEDUCED: log 43) -/
def mergeFrags (a b : Frag) : Frag :=
  let v (f : Frag) (i : Nat) : FVal := Fmt.f16.decode (at3 f.col i)
  let w := xSub (xInt 1) (v a 3)
  { a with col := (List.range 4).map (fun i => roundV .f16 .rne (xAdd (v a i) (xMul w (v b i)))) }

/-- A fragment enters a sample's list: the list after, whether it was counted, and whether entries were merged. -/
def insertFrag (znear zfar : Nat) (l : List Frag) (f : Frag) : List Frag × Bool × Bool :=
  if sNan f.depth || sLt f.depth znear || sLt zfar f.depth then (l, false, false)
  else
    let before := l.filter (fun e => sLe e.depth f.depth)
    if before.any (fun e => at3 e.col 3 == f16One) then (l, false, false)
    else
      let after := if at3 f.col 3 = f16One then [] else l.filter (fun e => !sLe e.depth f.depth)
      let l := before ++ f :: after
      match l.drop 7 with
      | [a, b] => (l.take 7 ++ [mergeFrags a b], true, true)
      | _ => (l, true, false)

/-! ### Resolution (R273) -/

/-- A sample's colour from its entries. -/
def sampleColour (ctl : Nat) (l : List Frag) : List FVal :=
  l.foldl (fun c e =>
    let w := xSub (xInt 1) (vAt c 3)
    (List.range 4).map (fun i => f32v (roundCtl .f32 ctl (xAdd (vAt c i) (xMul w (Fmt.f16.decode (flushSrc .f16 ctl (at3 e.col i))))))))
    (List.replicate 4 vZero)

/-- ⌊4|d|⌋ of a distance. -/
def quarterFloor (d : FVal) : Nat := match d with | .fin _ m e => (if 0 ≤ e + 2 then m * 2 ^ (e + 2).toNat else m / 2 ^ (-(e + 2)).toNat) | _ => 8

/-- A filter's weight at a distance; a tent's is scaled by FRAD, which cancels in the quotient (R273). -/
def filterW (filt frad : Nat) (ftab : List Nat) (d : FVal) : FVal :=
  let a := xMul (xInt 4) (xAbs d)
  if vLt (xInt frad) a then vZero
  else match filt with
    | 0 => xInt 1
    | 1 => xSub (xInt frad) a
    | _ => f32v (at3 ftab (min (quarterFloor d) 8))

end Sys2Proof.Machine
end

