-- ==== Sys2Proof/Machine/Dice.lean ====
section
/-! DEFINITION. The dicing unit, sampling sessions, bins and resolution (R260 to R277). -/
namespace Sys2Proof.Machine

/-! ### Issue (R272, R275) -/

/-- An address operand of a command of chapter 11: its value, its alignment, the bytes that R72 and `seg.glob` bound, and its access type; a
lease is checked as the command reaches the access (R275). -/
structure SampAddr where
  addr : Nat
  align : Nat
  len : Nat
  acc : Nat
  deriving DecidableEq, Repr

/-- ALIGN of every operand, then SEG (R44, R275). -/
def sampErr (s : State) (i : Issuer) (as : List SampAddr) : Option CRes :=
  match as.find? (fun a => a.addr % a.align != 0) with
  | some a => some (.err s a.acc ⟨kALIGN, 0, a.addr⟩)
  | none => (as.find? (fun a => (cmdGlobal i a.addr a.len).isNone)).map (fun a => .err s a.acc ⟨kSEG, 0, a.addr⟩)

/-- A command of chapter 11 at issue: its address checks, the barrier's, then its queue. -/
def sampCmd (as : List SampAddr) (s : State) (i : Issuer) (c : CmdSpec) : CRes :=
  match sampErr s i as with
  | some r => r
  | none => issueCmd s i c fun s r => { newCmd s i c.qid c with bar := r, credit := 1 }

def diceCmd (s : State) (i : Issuer) (c : CmdSpec) : CRes := sampCmd [⟨c.a, 64, 64, 6⟩, ⟨c.b, 16, 16, 5⟩] s i c
def emitCmd (s : State) (i : Issuer) (c : CmdSpec) : CRes := sampCmd [⟨c.a, 64, 64, 5⟩] s i c
def beginCmd (s : State) (i : Issuer) (c : CmdSpec) : CRes := sampCmd [⟨c.a, 128, 128, 5⟩] s i c
def endCmd (s : State) (i : Issuer) (c : CmdSpec) : CRes := sampCmd [] s i c
def resCmd (s : State) (i : Issuer) (c : CmdSpec) : CRes :=
  let z := if c.imm.testBit 3 then 16 else 8
  sampCmd [⟨c.a, z, z, 6⟩] s i c

def execDice (y : XWord) (s : State) := issue (.dice y) s fun x s => engineCmd x s y 0x290 false false diceCmd
def execGridEmit (y : XWord) (s : State) := issue (.gridEmit y) s fun x s => engineCmd x s y 0x291 false false emitCmd
def execSmpBegin (y : XWord) (s : State) := issue (.smpBegin y) s fun x s => engineCmd x s y 0x298 false false beginCmd
def execSmpEnd (y : XWord) (s : State) := issue (.smpEnd y) s fun x s => engineCmd x s y 0x299 false false endCmd
def execSmpRes (y : XWord) (s : State) := issue (.smpRes y) s fun x s => engineCmd x s y 0x29A false false resCmd

/-! ### Sessions (R264, R265) -/

def cmdSid (c : Cmd) : Nat := fldN c.imm 0 3
def session (s : State) (i : Nat) : Session := (s.sessions.find? (fun x => x.sid == i)).getD (sessionReset i)

def dW (d : List Byte) : Nat := qNum d 0 2
def dH (d : List Byte) : Nat := qNum d 2 2
def dSppc (d : List Byte) : Nat := qNum d 4 1
def dSpp (d : List Byte) : Nat := 4 ^ dSppc d
def dZnear (d : List Byte) : Nat := qNum d 20 4
def dZfar (d : List Byte) : Nat := qNum d 24 4
def dBW (d : List Byte) : Nat := (dW d + 31) / 32
def dBH (d : List Byte) : Nat := (dH d + 31) / 32
def dBincap (d : List Byte) : Nat := qNum d 48 4

/-- A descriptor outside its limits (R264). -/
def descBad (d : List Byte) : Bool :=
  let n := qNum d
  n 0 2 == 0 || decide (8192 < n 0 2) || n 2 2 == 0 || decide (8192 < n 2 2) || decide (3 < n 4 1) || decide (2 < n 5 1) || n 6 1 == 0
  || decide (8 < n 6 1) || n 7 1 != 0 || !sLe 0 (n 12 4) || !sLe (n 12 4) (n 16 4) || !sLe (n 16 4) 0x3F800000 || !sFinite (n 20 4)
  || !sFinite (n 24 4) || !sLe (n 20 4) (n 24 4) || n 28 4 != 0 || n 32 8 % 128 != 0 || n 40 8 % 8 != 0 || n 48 4 == 0 || decide (2 ^ 20 < n 48 4)
  || n 52 4 % 16 != 0 || n 56 8 != 0 || (List.range 9).any (fun i => !sFinite (n (64 + 4 * i) 4)) || n 100 28 != 0

/-- A counter of a session increased. -/
def addCount (x : Session) (k n : Nat) : Session := { x with counters := Sparse.put 0 x.counters k (Sparse.get 0 x.counters k + n) }

/-- A failure of R275: ERR with the full credit; `n` is its place in the table. -/
def sampFail (s : State) (c : Cmd) (n : Nat) : State := failCmd s c [] ⟨0, n, c.a, 0⟩

/-- The failures of R275 that depend on the session: BADSID, then the state it must be in. -/
def sessionErr (x : Session) (c : Cmd) (want code : Nat) : Option Nat :=
  if x.state != 0 && x.owner != c.disp then some 1 else if x.state != want then some code else none

/-- Pieces written in order from an address until one stops. -/
def putPieces (c : Cmd) (k : Nat) : Nat → Nat → List Byte → Nat → State → State × Nat × Option EngStop
  | 0, _, _, i, s => (s, i, none)
  | n + 1, va, bs, i, s =>
    match engWrite s c (.glob (va57 va)) (bs.take k) with
    | (s, some e) => (s, i, some e)
    | (s, none) => putPieces c k n (va + k) (bs.drop k) (i + 1) s

/-! ### `dice` (R263) -/

/-- The image and depth range of a session, read under a FLUSHCTL (R158). -/
def sessionBox (ctl : Nat) (d : List Byte) : XBox :=
  ⟨[vZero, vZero, f32v (flushSrc .f32 ctl (dZnear d))], [xInt (dW d), xInt (dH d), f32v (flushSrc .f32 ctl (dZfar d))]⟩

/-- The control points' coordinates of all keys: one list for each component. -/
def patchBox (ps : List Nat) : XBox :=
  let comp (k : Nat) : List FVal := (List.range (ps.length / 3)).map (fun i => f32v (at3 ps (3 * i + k)))
  boxOf (comp 0) (comp 1) (comp 2)

/-- A grid record's header (R262). -/
def gridHeader (nu nv nkeys flags : Nat) (primid dbound : List Byte) (b : XBox) : List Byte :=
  leBytes 1 nu ++ leBytes 1 nv ++ leBytes 1 nkeys ++ leBytes 1 flags ++ leBytes 12 0 ++ primid ++ dbound
    ++ (b.lo ++ b.hi).flatMap (fun v => leBytes 4 (r32 v)) ++ leBytes 16 0

/-- The bytes that `dice` writes under a FLUSHCTL (R157), header first; only a header for a culled patch. -/
def diceBytes (ctl : Nat) (d hdr : List Byte) (pts : List Nat) (nu nv : Nat) : List Byte :=
  let kind := qNum hdr 0 1
  let nkeys := qNum hdr 1 1
  let primid := (hdr.drop 4).take 4
  let dbound := (hdr.drop 8).take 4
  let pts := pts.map (flushSrc .f32 ctl)
  let b := patchBox pts
  if !((b.grow (f32v (flushSrc .f32 ctl (qNum hdr 8 4)))).meets (sessionBox ctl d)) then gridHeader nu nv nkeys 2 primid dbound b
  else
    let per := 3 * patchPoints kind
    let uv := (List.range nv).flatMap (fun j => (List.range nu).map (fun i => (gridParam i nu, gridParam j nv)))
    gridHeader nu nv nkeys 1 primid dbound b
      ++ (List.range nkeys).flatMap (fun k =>
        let ps := (pts.drop (per * k)).take per
        uv.flatMap (fun w => (patchVertex ctl kind ps w.1 w.2).flatMap (leBytes 4) ++ leBytes 4 0))
      ++ uv.flatMap (fun w => leBytes 4 (r32 w.1) ++ leBytes 4 (r32 w.2))

/-- The patch read and its limits checked (R260): its header and coordinates; the failure's place in R275. -/
def readPatch (s : State) (c : Cmd) : State × Except EngStop (Option (List Byte × List Nat)) :=
  match engRead s c (.glob (va57 c.b)) 16 with
  | (s, .error e) => (s, .error e)
  | (s, .ok h) =>
    let kind := qNum h 0 1
    let nkeys := qNum h 1 1
    if 1 < kind ∨ nkeys = 0 ∨ 8 < nkeys ∨ qNum h 2 2 ≠ 0 ∨ qNum h 12 4 ≠ 0 ∨ sFinite (qNum h 8 4) = false ∨ sLe 0 (qNum h 8 4) = false then
      (s, .ok none)
    else
      match engRead s c (.glob (va57 (c.b + 16))) (12 * patchPoints kind * nkeys) with
      | (s, .error e) => (s, .error e)
      | (s, .ok bs) =>
        let ps := (List.range (3 * patchPoints kind * nkeys)).map (fun i => qNum bs (4 * i) 4)
        (s, .ok (if ps.all sFinite then some (h, ps) else none))

/-- The staged bytes of `dice` written from where it stands, the last eight of an odd number of vertices too; a cull is counted at completion. -/
def writeGrid (s : State) (c : Cmd) : State :=
  let bs := c.shape
  match putPieces c 16 ((bs.length + 15) / 16 - c.progress) (c.a + 16 * c.progress) (bs.drop (16 * c.progress)) c.progress s with
  | (s, i, some e) => stopCmd (modCmd s c.id (fun k => { k with progress := i, started := true })) { c with progress := i } e []
  | (s, _, none) => finishCmd (if bs.length = 64 then modSession s (cmdSid c) (fun x => addCount x 4 1) else s) c

/-- `dice` performed (R263). -/
def performDice (s : State) (c : Cmd) : State :=
  if c.shape != [] then writeGrid s c
  else
    let x := session s (cmdSid c)
    match sessionErr x c 1 3 with
    | some n => sampFail s c n
    | none =>
      match readPatch s c with
      | (s, .error e) => stopCmd s c e []
      | (s, .ok none) => sampFail s c 6
      | (s, .ok (some (h, ps))) =>
        let c := { c with shape := diceBytes c.flushctl.toNat x.desc h ps (fldN c.imm 3 5 + 1) (fldN c.imm 8 5 + 1) }
        writeGrid (modCmd s c.id (fun _ => c)) c

/-! ### `grid.emit` (R268) -/

/-- A grid as a bin replays it. -/
structure Grid where
  addr : Nat
  order : Nat
  flags : Nat
  oqid : Nat
  prim : Nat
  nu : Nat
  nv : Nat
  verts : List GVert
  home : Bool
  deriving DecidableEq, Repr

/-- (DEDUCED: log 43) -/
def headerBad (h : List Byte) : Bool :=
  let n := qNum h
  decide (n 0 1 < 2) || decide (32 < n 0 1) || decide (n 1 1 < 2) || decide (32 < n 1 1) || n 2 1 == 0 || decide (8 < n 2 1)
  || decide (8 ≤ n 3 1) || decide (64 ≤ n 4 1) || n 5 3 != 0 || n 48 16 != 0

/-- The four FP32 values of each key of each vertex, key by key. -/
def gridValues (h bs : List Byte) : List (List Nat) :=
  (List.range (qNum h 2 1 * qNum h 0 1 * qNum h 1 1)).map (fun i => (List.range 4).map (fun k => qNum bs (16 * i + 4 * k) 4))

/-- The box over every key of x ± |C|, y ± |C| and z. -/
def gridBox (vs : List (List Nat)) : XBox :=
  let v (l : List Nat) (k : Nat) : FVal := f32v (at3 l k)
  let c (l : List Nat) : FVal := xAbs (v l 3)
  ⟨[vMinL (vs.map (fun l => xSub (v l 0) (c l))), vMinL (vs.map (fun l => xSub (v l 1) (c l))), vMinL (vs.map (v · 2))],
   [vMaxL (vs.map (fun l => xAdd (v l 0) (c l))), vMaxL (vs.map (fun l => xAdd (v l 1) (c l))), vMaxL (vs.map (v · 2))]⟩

/-- The box that `dice` recorded. -/
def recordedBox (ctl : Nat) (h : List Byte) : XBox :=
  let v (o i : Nat) : FVal := f32v (flushSrc .f32 ctl (qNum h (o + 4 * i) 4))
  ⟨(List.range 3).map (v 24), (List.range 3).map (v 36)⟩

/-- The bins that a box meets, rising. (DEDUCED: log 43) -/
def binsMet (d : List Byte) (b : XBox) : List Nat :=
  let meets (lo hi : FVal) (i lim : Nat) : Bool := vLe lo (xInt (min (32 * i + 32) lim)) && vLe (xInt (32 * i)) hi
  let xs := (List.range (dBW d)).filter (fun i => meets (vAt b.lo 0) (vAt b.hi 0) i (dW d))
  ((List.range (dBH d)).filter (fun i => meets (vAt b.lo 1) (vAt b.hi 1) i (dH d))).flatMap (fun j => xs.map (fun i => j * dBW d + i))

/-- The address of a reference in a bin's list. -/
def refAt (d : List Byte) (b i : Nat) : Nat := va57 (qNum d 40 8 + 8 * (b * dBincap d + i))

/-- Every reference's page is translated before any is written, so that a fault leaves none appended. -/
def refsReady (c : Cmd) : List Nat → State → State × Option EngStop
  | [], s => (s, none)
  | a :: as_, s => match engCheck s c true a 8 with | (s, .error e) => (s, some e) | (s, .ok _) => refsReady c as_ s

/-- A key for the reference numbers of a session's bins. -/
def refKey (b i : Nat) : Nat := b * 2 ^ 20 + i

/-- References to a grid appended in ascending order of bins; the first bin is its home. (DEDUCED: log 43) -/
def appendRefs (s : State) (c : Cmd) (sid : Nat) (bins : List Nat) : State :=
  bins.foldl (fun s b =>
    let x := session s sid
    let n := Sparse.get 0 x.counts b
    let s := (engWrite s c (.glob (refAt x.desc b n)) (leBytes 8 c.a)).1
    modSession s sid (fun x => { x with counts := Sparse.put 0 x.counts b (n + 1),
                                        homes := if bins.head? = some b then Sparse.put 0 x.homes (refKey b n) 1 else x.homes })) s

/-- Every value of a grid's vertices is finite: x, y, z and C of each key, and the colours (R262, R268). -/
def gridFinite (h bs : List Byte) : Bool :=
  let n := qNum h 0 1 * qNum h 1 1
  (gridValues h bs).all (fun v => v.all sFinite)
    && (List.range (4 * n)).all (fun i => match Fmt.f16.decode (qNum bs (16 * qNum h 2 1 * n + 2 * i) 2) with | .fin .. => true | _ => false)

/-- `grid.emit` performed (R268). (DEDUCED: log 43) -/
def performEmit (s : State) (c : Cmd) : State :=
  let s := startStep s c 0
  let sid := cmdSid c
  let x := session s sid
  match sessionErr x c 1 3 with
  | some n => sampFail s c n
  | none =>
    match stepRead s c (va57 c.a) 64 with
    | (s, .error e) => stopCmd s c e []
    | (s, .ok h) =>
      if (qNum h 3 1).testBit 1 then finishCmd s c
      else if headerBad h then sampFail s c 7
      else
        match stepRead s c (va57 (c.a + 64)) ((16 * qNum h 2 1 + 8) * qNum h 0 1 * qNum h 1 1) with
        | (s, .error e) => stopCmd s c e []
        | (s, .ok bs) =>
          let vs := gridValues h bs
          let ctl := c.flushctl.toNat
          let b := gridBox (vs.map (fun v => v.map (flushSrc .f32 ctl)))
          if !gridFinite h bs then sampFail s c 7
          else if (qNum h 3 1).testBit 0 && !b.within ((recordedBox ctl h).grow (f32v (flushSrc .f32 ctl (qNum h 20 4)))) then sampFail s c 8
          else if !b.meets (sessionBox ctl x.desc) then finishCmd (modSession s sid (fun x => addCount x 4 1)) c
          else
            let bins := binsMet x.desc b
            if bins.any (fun b => decide (dBincap x.desc ≤ Sparse.get 0 x.counts b)) then sampFail s c 9
            else
              match refsReady c (bins.map (fun b => refAt x.desc b (Sparse.get 0 x.counts b))) s with
              | (s, some e) => stopCmd s c e []
              | (s, none) => finishCmd (appendRefs s c sid bins) c

/-! ### `smp.begin` and `smp.end` (R264, R265) -/

/-- The latched seed of a command's dispatch; a replay by a host queue has none, and its seed is a free value (log 10). -/
def cmdSeed (s : State) (c : Cmd) : DWord × State :=
  match findDisp s c.disp with
  | some d => (d.seed, s)
  | none => let (v, s) := drawFree s; (BitVec.ofNat 64 v, s)

/-- (DEDUCED: log 43) -/
def performBegin (s : State) (c : Cmd) : State :=
  let sid := cmdSid c
  match sessionErr (session s sid) c 0 2 with
  | some n => sampFail s c n
  | none =>
    match engRead s c (.glob (va57 c.a)) 128 with
    | (s, .error e) => stopCmd s c e []
    | (s, .ok d) =>
      if descBad d then sampFail s c 5
      else
        let (seed, s) := cmdSeed s c
        finishCmd (modSession s sid (fun _ =>
          { sessionReset sid with state := 1, owner := c.disp, part := c.part, asid := c.asid, desc := d, seed := seed,
                                  bins := List.replicate (dBW d * dBH d) 0 })) c

/-- `smp.end` closes the session, and the bins are processed until the last is DONE; after pre-emption it goes on (R277). -/
def performEnd (s : State) (c : Cmd) : State :=
  let sid := cmdSid c
  let x := session s sid
  if x.state = 2 ∧ x.endCmd = c.id ∧ x.owner = c.disp then modCmd s c.id (fun k => { k with started := true })
  else
    match sessionErr x c 1 3 with
    | some n => sampFail s c n
    | none => modSession (modCmd s c.id (fun k => { k with started := true })) sid (fun x => { x with state := 2, endCmd := c.id, endGrp := c.grp })

/-! ### Bins (R269 to R271) -/

def binState (x : Session) (b : Nat) : Nat := x.bins[b]?.getD 2
def setBin (s : State) (sid b v : Nat) : State := modSession s sid (fun x => { x with bins := updAt b (fun _ => v) x.bins })

/-- The pixels of a bin: columns and rows. -/
def binPixels (d : List Byte) (b : Nat) : List Nat × List Nat :=
  let x0 := 32 * (b % dBW d)
  let y0 := 32 * (b / dBW d)
  ((List.range (min 32 (dW d - x0))).map (x0 + ·), (List.range (min 32 (dH d - y0))).map (y0 + ·))

/-- The address of a sample's list (R269). -/
def fragAt (d : List Byte) (px py k : Nat) : Nat := va57 (qNum d 32 8 + 128 * ((py * dW d + px) * dSpp d + k))

/-- A bin's access stopped: held for the answer or for a migration, or the session ends in DONE with ERR (R277). -/
def stopBin (s : State) (c : Cmd) (sid : Nat) (e : EngStop) : State :=
  let s' := stopCmd s c e []
  if (findCmd s' c.id).isSome then s' else modSession s' sid (fun x => { x with state := 3 })

/-- The `smp.end` in force of a session that is sampling; none while the die's sampling unit is under test (R399). -/
def endOf (s : State) (sid : Nat) : Option Cmd :=
  if (session s sid).state = 2 then
    (findCmd s (session s sid).endCmd).filter (fun c => c.started && !c.saved && c.fault.isNone && !unitHeld s (coreDie c.core) .sampling)
  else none

/-- A step of a session's bins may be made: no other one is stopped in its course (R81). -/
def binFree (c : Cmd) (key : Nat) : Bool := c.log == [] || c.logKey == key

/-- Rows of empty lists written (R270). -/
def emptyRows (c : Cmd) (d : List Byte) (x0 w : Nat) : List Nat → State → State × Option EngStop
  | [], s => (s, none)
  | py :: ys, s =>
    match stepWrite s c (fragAt d x0 py 0) ((List.range (w * dSpp d)).flatMap (fun _ => fragListBytes [])) with
    | (s, some e) => (s, some e)
    | (s, none) => emptyRows c d x0 w ys s

/-- BIN_ACTIVATE: a pending bin becomes ACTIVE with the list of every sample it owns empty. -/
def execBinActivate (sid bin : Nat) (s : State) :=
  event (fun s =>
    let x := session s sid
    match endOf s sid with
    | none => s
    | some c =>
      if binState x bin != 0 || decide (x.bins.length ≤ bin) || !binFree c (2 * bin) then s
      else
        let s := startStep s c (2 * bin)
        let (xs, ys) := binPixels x.desc bin
        match emptyRows c x.desc (xs.headD 0) xs.length ys s with
        | (s, some e) => stopBin s c sid e
        | (s, none) => setBin (endStep s c) sid bin 1) s

/-- One grid of a bin read again (R276). -/
def readGrid (s : State) (c : Cmd) (a : Nat) (home : Bool) : State × Except EngStop Grid :=
  match stepRead s c (va57 a) 64 with
  | (s, .error e) => (s, .error e)
  | (s, .ok h) =>
    let n := qNum h 0 1 * qNum h 1 1
    let nk := qNum h 2 1
    match stepRead s c (va57 (a + 64)) (16 * nk * n + 8 * n) with
    | (s, .error e) => (s, .error e)
    | (s, .ok bs) =>
      let vs := gridValues h bs
      let vert (i : Nat) : GVert :=
        ⟨(List.range nk).map (fun k => (vs[k * n + i]?).getD []), (List.range 4).map (fun j => qNum bs (16 * nk * n + 8 * i + 2 * j) 2)⟩
      (s, .ok { addr := a, order := qNum h 8 8, flags := qNum h 3 1, oqid := qNum h 4 1, prim := qNum h 16 4, nu := qNum h 0 1,
                nv := qNum h 1 1, verts := (List.range n).map vert, home := home })

def readGrids (c : Cmd) : List (Nat × Bool) → State → List Grid → State × Except EngStop (List Grid)
  | [], s, l => (s, .ok l)
  | (a, h) :: t, s, l => match readGrid s c a h with | (s, .error e) => (s, .error e) | (s, .ok g) => readGrids c t s (l ++ [g])

/-- Grids in ascending ORDER, and for equal ORDER in ascending address. -/
def gridBefore (a b : Grid) : Bool := decide (a.order < b.order) || (a.order == b.order && decide (a.addr ≤ b.addr))
def insertGrid (g : Grid) : List Grid → List Grid
  | [] => [g]
  | h :: t => if gridBefore g h then g :: h :: t else h :: insertGrid g t
def sortGrids (l : List Grid) : List Grid := l.foldr insertGrid []

/-- The corners of a grid's triangles in the order of R270. -/
def gridTriangles (g : Grid) : List (GVert × GVert × GVert) :=
  let v (i j : Nat) : GVert := (g.verts[j * g.nu + i]?).getD ⟨[], []⟩
  (List.range (g.nv - 1)).flatMap (fun j => (List.range (g.nu - 1)).flatMap (fun i =>
    [(v i j, v (i + 1) j, v (i + 1) (j + 1)), (v i j, v (i + 1) (j + 1), v i (j + 1))]))

/-- A bin's work: the lists by sample number, and the counts by selector. -/
structure BinWork where
  lists : List (Nat × List Frag)
  counts : List (Nat × Nat)

def BinWork.count (w : BinWork) (k n : Nat) : BinWork := { w with counts := Sparse.put 0 w.counts k (Sparse.get 0 w.counts k + n) }

/-- A fragment of a grid enters a sample's list, and is counted. -/
def BinWork.add (w : BinWork) (d : List Byte) (g : Grid) (key : Nat) (f : Frag) : BinWork :=
  let (l, counted, merged) := insertFrag (dZnear d) (dZfar d) (Sparse.get [] w.lists key) f
  let w := { w with lists := Sparse.put [] w.lists key l }
  let w := if counted then w.count 2 1 else w
  let w := if counted && g.flags.testBit 2 then w.count (64 + g.oqid) 1 else w
  if merged then w.count 3 1 else w

/-- The samples of a bin in row-major order of pixels and ascending k. -/
def binSamples (x : Session) (b : Nat) : List (Nat × Nat × Nat) :=
  let (xs, ys) := binPixels x.desc b
  ys.flatMap (fun py => xs.flatMap (fun px => (List.range (dSpp x.desc)).map (fun k => (px, py, k))))

def sampleKey (d : List Byte) (p : Nat × Nat × Nat) : Nat := (p.2.1 * dW d + p.1) * dSpp d + p.2.2

def sessionSample (x : Session) (p : Nat × Nat × Nat) : Samp :=
  sampleOf x.seed (qNum x.desc 8 4) (qNum x.desc 12 4) (qNum x.desc 16 4) (dSppc x.desc) p.1 p.2.1 p.2.2

/-- Every grid of a bin replayed against its samples: a function of the session and the grids, with no FLUSHCTL (R267, R270). (DEDUCED: log 43) -/
def replayBin (x : Session) (b : Nat) (gs : List Grid) : BinWork :=
  let ss := (binSamples x b).map (fun p => (sampleKey x.desc p, sessionSample x p))
  gs.foldl (fun w g =>
    let w := if g.home then (w.count 0 1).count 1 ((g.nu - 1) * (g.nv - 1)) else w
    (gridTriangles g).foldl (fun w t =>
      ss.foldl (fun w p => match triSample t.1 t.2.1 t.2.2 p.2 with
        | some (z, col) => w.add x.desc g p.1 ⟨z, g.prim, col⟩
        | none => w) w) w) ⟨[], []⟩

/-- Two grids share an ORDER. -/
def dupOrder : List Grid → Bool
  | a :: b :: t => a.order == b.order || dupOrder (b :: t)
  | _ => false

/-- The lists of a bin written. -/
def writeLists (c : Cmd) (d : List Byte) : List (Nat × List Frag) → State → State × Option EngStop
  | [], s => (s, none)
  | (k, l) :: t, s =>
    match stepWrite s c (va57 (qNum d 32 8 + 128 * k)) (fragListBytes l) with
    | (s, some e) => (s, some e)
    | (s, none) => writeLists c d t s

/-- The counts of a bin committed; with the last bin the session is DONE and `smp.end` completes (R265, R271). (DEDUCED: log 43) -/
def commitBin (s : State) (c : Cmd) (sid b : Nat) (w : BinWork) (dup : Bool) : State :=
  let s := setBin (endStep s c) sid b 2
  let s := modSession s sid (fun x =>
    addCount (if dup then addCount (w.counts.foldl (fun x e => addCount x e.1 e.2) x) 6 1 else w.counts.foldl (fun x e => addCount x e.1 e.2) x) 5 1)
  if (session s sid).bins.all (· == 2) then finishCmd (modSession s sid (fun x => { x with state := 3 })) c else s

/-- BIN_DONE: an active bin replays its grids and completes. -/
def execBinDone (sid bin : Nat) (s : State) :=
  event (fun s =>
    let x := session s sid
    match endOf s sid with
    | none => s
    | some c =>
      if binState x bin != 1 || !binFree c (2 * bin + 1) then s
      else
        let s := startStep s c (2 * bin + 1)
        let n := Sparse.get 0 x.counts bin
        match stepRead s c (refAt x.desc bin 0) (8 * n) with
        | (s, .error e) => stopBin s c sid e
        | (s, .ok rs) =>
          let refs := (List.range n).map (fun i => (qNum rs (8 * i) 8, Sparse.get 0 x.homes (refKey bin i) == 1))
          match readGrids c refs s [] with
          | (s, .error e) => stopBin s c sid e
          | (s, .ok gs) =>
            let gs := sortGrids gs
            let w := replayBin x bin gs
            match writeLists c x.desc w.lists s with
            | (s, some e) => stopBin s c sid e
            | (s, none) => commitBin s c sid bin w (dupOrder gs)) s

/-! ### `smp.res` (R273) -/

/-- The samples near a pixel. -/
def nearSamples (d : List Byte) (px py : Nat) : List (Nat × Nat × Nat) :=
  let span (c lim : Nat) : List Nat := ((List.range 7).map (c + · )).filterMap (fun v => if 3 ≤ v ∧ v - 3 < lim then some (v - 3) else none)
  (span py (dH d)).flatMap (fun y => (span px (dW d)).flatMap (fun x => (List.range (dSpp d)).map (fun k => (x, y, k))))

/-- Sums of weighted colours and weights over the samples of a pixel. -/
def pixelSum (c : Cmd) (x : Session) (px py : Nat) : List (Nat × Nat × Nat) → State → List FVal × FVal → State × Except EngStop (List FVal × FVal)
  | [], s, a => (s, .ok a)
  | p :: ps, s, a =>
    let d := x.desc
    let q := sessionSample x p
    let dx := xSub (xSub q.sx (xInt px)) (.fin false 1 (-1))
    let dy := xSub (xSub q.sy (xInt py)) (.fin false 1 (-1))
    if vLt (xInt 2) (xAbs dx) || vLt (xInt 2) (xAbs dy) then pixelSum c x px py ps s a
    else
      match stepRead s c (fragAt d p.1 p.2.1 p.2.2) 128 with
      | (s, .error e) => (s, .error e)
      | (s, .ok bs) =>
        let col := sampleColour c.flushctl.toNat ((List.range 8).map (fun i => fragOf (bs.drop (16 * i))))
        let ftab := (List.range 9).map (fun i => flushSrc .f32 c.flushctl.toNat (qNum d (64 + 4 * i) 4))
        let w := xMul (filterW (qNum d 5 1) (qNum d 6 1) ftab dx) (filterW (qNum d 5 1) (qNum d 6 1) ftab dy)
        pixelSum c x px py ps s ((List.range 4).map (fun i => xAdd (vAt a.1 i) (xMul w (vAt col i))), xAdd a.2 w)

/-- A pixel's bytes (R273): the quotient rounded to FP32, then to FP16, each a result of its class (R158). -/
def pixelBytes (ctl : Nat) (f32 : Bool) (a : List FVal × FVal) : List Byte :=
  (List.range 4).flatMap fun i =>
    let v := if vLe a.2 vZero then 0 else (fpDiv .f32 ctl .rne (vAt a.1 i) a.2).1
    if f32 then leBytes 4 v else leBytes 2 (roundCtl .f16 ctl (f32v (flushSrc .f32 ctl v)))

/-- Pixels written in row-major order from one on. -/
def resolvePixels (c : Cmd) (x : Session) : Nat → Nat → State → State × Nat × Option EngStop
  | 0, i, s => (s, i, none)
  | n + 1, i, s =>
    let f32 := c.imm.testBit 3
    let px := i % dW x.desc
    let py := i / dW x.desc
    match pixelSum c x px py (nearSamples x.desc px py) (startStep s c i) (List.replicate 4 vZero, vZero) with
    | (s, .error e) => (s, i, some e)
    | (s, .ok a) =>
      match stepWrite s c (va57 (c.a + py * qNum x.desc 52 4 + px * (if f32 then 16 else 8))) (pixelBytes c.flushctl.toNat f32 a) with
      | (s, some e) => (s, i, some e)
      | (s, none) => resolvePixels c x n (i + 1) (endStep s c)

/-- `smp.res` performed; with `.rel` the session is then FREE, its counters kept (R265). -/
def performRes (s : State) (c : Cmd) : State :=
  let sid := cmdSid c
  let x := session s sid
  match sessionErr x c 3 4 with
  | some n => sampFail s c n
  | none =>
    match resolvePixels c x (dW x.desc * dH x.desc - c.progress) c.progress s with
    | (s, i, some e) => stopCmd (modCmd s c.id (fun k => { k with progress := i, started := true })) { c with progress := i } e []
    | (s, _, none) =>
      let s := if c.imm.testBit 4 then modSession s sid (fun x => { sessionReset sid with counters := x.counters }) else s
      finishCmd s c

/-! ### `stat.rd` (R274) -/

def statSel (n : Nat) : Bool := decide (n < 8) || (decide (64 ≤ n) && decide (n < 128))

def execStatRd (f : FWord) (s : State) :=
  issue (.statRd f) s fun x s =>
    let bad := x.act.filter (fun l => decide (7 < rdA s x l) || !statSel (rdB s x l))
    if bad != [] then .trap s { kind := kSEG, mask := bad }
    else perLane s x fun l => Sparse.get 0 (session s (rdA s x l)).counters (rdB s x l) % 2 ^ 64

/-- A session's active bins are killed as its `smp.end` is saved: their counts are discarded, and they run again (R277). -/
def killBins (s : State) (grps : List Nat) : State :=
  let kill (x : Session) : Session :=
    if x.state = 2 ∧ grps.contains x.endGrp then
      addCount { x with bins := x.bins.map (fun b => if b = 1 then 0 else b) } 7 (x.bins.filter (· == 1)).length
    else x
  { s with sessions := s.sessions.map kill, cmds := s.cmds.map (fun c => if grps.contains c.grp then { c with log := [], pos := 0 } else c) }

end Sys2Proof.Machine
end

