-- ==== Sys2Proof/Machine/RadMath.lean ====
section
/-! DEFINITION. The function of the radiance cache, its gradients and Adam (R280 to R282, R290, R291). Values are FP32 patterns; every
operation is exact inside and rounded once, nothing is flushed, and no flag is written. -/
namespace Sys2Proof.Machine

/-! ### The input vector (R281) -/

/-- clamp01: a NaN gives 0. -/
def clamp01 (x : Nat) : Nat := if sNan x then 0 else if sLt 0 x then (if sLt 0x3F800000 x then 0x3F800000 else x) else 0

/-- A value rounded to BF16, as the FP32 pattern of the same value. -/
def bf16 (x : Nat) : Nat := roundV .bf16 .rne (f32v x) * 65536

/-- ⌊s⌋ of a value that is not negative. -/
def floorV (s : FVal) : Nat := match s with | .fin _ m e => (if 0 ≤ e then m * 2 ^ e.toNat else m / 2 ^ (-e).toNat) | _ => 0

/-- The entry that a corner of a level names. -/
def gridHash (jx jy jz l tlog : Nat) : Nat :=
  let m := 2 ^ 32
  let h := (jx * 0x8F1BC6D3 + jy * 0x5A3794E1 + jz * 0x3C6EF35F + l * 0xB5AD4ECB) % m
  let h := h ^^^ (h >>> 16)
  let h := h * 0x9C4D2F87 % m
  (h ^^^ (h >>> 13)) % 2 ^ tlog

/-- A corner of a level: the level, its entry, its weight. -/
structure GridCorner where
  level : Nat
  idx : Nat
  w : Nat
  deriving DecidableEq, Repr

/-- The fields of a network's descriptor (R278). -/
def nH (d : List Byte) : Nat := qNum d 0 1
def nLevels (d : List Byte) : Nat := qNum d 1 1
def nTlog (d : List Byte) : Nat := qNum d 2 1
def nHome (d : List Byte) : Nat := qNum d 3 1
def nSlots (d : List Byte) : Nat := qNum d 4 4
def nBatch (d : List Byte) : Nat := qNum d 12 4
def nRes (d : List Byte) (l : Nat) : Nat := qNum d (64 + 2 * l) 2

/-- The corners of every level for a position, level by level (R281). -/
def gridCorners (d : List Byte) (pos : List Nat) : List GridCorner :=
  let q := (List.range 3).map (fun a =>
    f32v (clamp01 (r32 (xMul (xSub (f32v (at3 pos a)) (f32v (qNum d (32 + 4 * a) 4))) (f32v (qNum d (44 + 4 * a) 4))))))
  (List.range (nLevels d)).flatMap fun l =>
    let s := q.map (fun x => f32v (r32 (xMul x (.fin false (nRes d l) 0))))
    let i := s.map floorV
    let f := (s.zip i).map (fun e => xSub e.1 (.fin false e.2 0))
    (List.range 8).map fun c =>
      let w (a : Nat) : FVal := let x := f[a]?.getD vZero; if c.testBit a then x else xSub (.fin false 1 0) x
      let j (a : Nat) : Nat := at3 i a + (if c.testBit a then 1 else 0)
      ⟨l, gridHash (j 0) (j 1) (j 2) l (nTlog d), r32 (xMul (f32v (r32 (xMul (w 0) (w 1)))) (w 2))⟩

/-- oct of a direction. -/
def octV (dir : List Nat) : Nat × Nat :=
  let v (i : Nat) : FVal := f32v (at3 dir i)
  let mag (i : Nat) : FVal := (v i).withSign false
  let t := f32v (r32 (xAdd (f32v (r32 (xAdd (mag 0) (mag 1)))) (mag 2)))
  match t with
  | .fin _ m _ =>
    if m = 0 then (0, 0)
    else
      let q (i : Nat) : Nat := (fpDiv .f32 0 .rne (v i) t).1
      let fold (a b : Nat) : Nat :=
        let x := f32v (r32 (xSub (.fin false 1 0) ((f32v a).withSign false)))
        r32 (if sLt b 0 then xNeg x else x)
      let u := q 0
      let w := q 1
      if vLt (v 2) vZero then (fold w u, fold u w) else (u, w)
  | _ => (0, 0)

/-- The features of a query's corners: for each corner its two FP16 values widened exactly, as FP32 values. -/
abbrev Feats := List (FVal × FVal)

/-- The 64 BF16 inputs of the network from the corners, their features and the input block. (DEDUCED: log 43) -/
def inputVec (d : List Byte) (cs : List GridCorner) (fs : Feats) (blk : List Nat) : List Nat :=
  let grid := (List.range (nLevels d)).flatMap fun l =>
    let part := ((cs.zip fs).drop (8 * l)).take 8
    let acc (i : FVal × FVal → FVal) : Nat := bf16 (part.foldl (fun a e => r32 (xAdd (xMul (f32v e.1.w) (i e.2)) (f32v a))) 0)
    [acc (·.1), acc (·.2)]
  let od := octV (blk.drop 4)
  let on_ := octV (blk.drop 8)
  let rest := [od.1, od.2, on_.1, on_.2, clamp01 (at3 blk 3), clamp01 (at3 blk 12), clamp01 (at3 blk 13), clamp01 (at3 blk 14)].map bf16
  (grid ++ List.replicate (32 - grid.length) 0) ++ rest ++ List.replicate 24 0

/-! ### The network (R280, R282) -/

/-- The number of MLP parameters, and where those of a hidden layer start (R280). -/
def mlpCount (h : Nat) : Nat := h * 4160 + 195
def layerAt (j : Nat) : Nat := (j - 1) * 4160

/-- A parameter is a weight, published as BF16; the others are biases. -/
def isWeight (h i : Nat) : Bool :=
  (decide (i < h * 4160) && decide (i % 4160 < 4096)) || (decide (h * 4160 ≤ i) && decide (i < h * 4160 + 192))

/-- The published form of the parameters (R280). -/
def pubForm (h : Nat) (p : List Nat) : List Nat := p.mapIdx (fun i x => if isWeight h i then bf16 x else x)

/-- tree_k of exact leaves, each node rounded once. -/
def treeV (l : List FVal) : FVal := tree (fun a b => f32v (r32 (xAdd a b))) vZero l

/-- A row of weights. -/
def rowOf (p : List Nat) (off n : Nat) : List Nat := (p.drop off).take n

/-- round(tree_k(W[o,k] × a[k]) + b[o]). -/
def neuron (p : List Nat) (woff boff : Nat) (a : List Nat) : Nat :=
  r32 (xAdd (treeV ((rowOf p woff 64).zipWith (fun w x => xMul (f32v w) (f32v x)) a)) (f32v (at3 p boff)))

/-- max(z, 0) rounded to BF16; NaN gives NaN. -/
def relu (z : Nat) : Nat := if sNan z then bf16 z else if sLt 0 z then bf16 z else 0

/-- What the forward pass of one sample gives: z and a of each hidden layer, `acts` from a_0 on, and y. -/
structure Fwd where
  zs : List (List Nat)
  acts : List (List Nat)
  y : List Nat
  deriving DecidableEq, Repr

/-- Hidden layers from j on. -/
def hiddenLayers (p : List Nat) : Nat → Nat → List Nat → List (List Nat) → List (List Nat) → List (List Nat) × List (List Nat)
  | 0, _, _, zs, as_ => (zs, as_)
  | n + 1, j, a, zs, as_ =>
    let z := (List.range 64).map (fun o => neuron p (layerAt j + 64 * o) (layerAt j + 4096 + o) a)
    let a' := z.map relu
    hiddenLayers p n (j + 1) a' (zs ++ [z]) (as_ ++ [a'])

/-- The forward pass (R282). -/
def forward (h : Nat) (p x : List Nat) : Fwd :=
  let (zs, as_) := hiddenLayers p h 1 x [] [x]
  let a := (as_[h]?).getD []
  ⟨zs, as_, (List.range 3).map (fun c => neuron p (h * 4160 + 64 * c) (h * 4160 + 192 + c) a)⟩

/-! ### Gradients (R290) -/

/-- Column k of a weight matrix of 64 columns and n rows. -/
def colOf (p : List Nat) (off k n : Nat) : List Nat := (List.range n).map (fun o => at3 p (off + 64 * o + k))

/-- z > 0 lets a gradient through. -/
def gate (z g : List Nat) : List Nat := z.zipWith (fun z g => if sLt 0 z then g else 0) g

/-- The gradients of a layer: its weights row by row, then its biases. -/
def layerGrad (d a : List Nat) : List Nat := d.flatMap (fun x => a.map (fun y => sMul x y)) ++ d

/-- g_in of a layer. -/
def gradIn (p : List Nat) (j : Nat) (d : List Nat) : List Nat :=
  let db := d.map bf16
  (List.range 64).map (fun k => r32 (treeV ((colOf p (layerAt j) k 64).zipWith (fun w x => xMul (f32v w) (f32v x)) db)))

/-- Layers from j down to 1: the gradients, layer 1 first, and g_in of layer 1. -/
def backLayers (p : List Nat) (f : Fwd) : Nat → List Nat → List Nat → List Nat × List Nat
  | 0, _, acc => (acc, [])
  | j + 1, d, acc =>
    let g := layerGrad d ((f.acts[j]?).getD [])
    let gin := gradIn p (j + 1) d
    if j = 0 then (g ++ acc, gin) else backLayers p f j (gate ((f.zs[j - 1]?).getD []) gin) (g ++ acc)

/-- One sample's gradients of every MLP parameter in their order, and g_in of layer 1. -/
def backward (h : Nat) (p : List Nat) (f : Fwd) (target : List Nat) : List Nat × List Nat :=
  let e := (List.range 3).map (fun c => r32 (xMul (.fin false 2 0) (xSub (f32v (at3 f.y c)) (f32v (at3 target c)))))
  let ah := (f.acts[h]?).getD []
  let out := layerGrad e ah
  let dh := (List.range 64).map (fun k => r32 (treeV ((colOf p (h * 4160) k 3).zipWith (fun w x => xMul (f32v w) (f32v x)) e)))
  backLayers p f h (gate ((f.zs[h - 1]?).getD []) dh) out

/-- G ÷ n rounded, G the tree over the contributions. -/
def meanGrad (n : Nat) (l : List Nat) : Nat := (fpDiv .f32 0 .rne (f32v (r32 (treeV (l.map f32v)))) (.fin false n 0)).1

/-- Contributions by key, in the order in which they are added. -/
def addContrib (t : List (Nat × List Nat)) (k x : Nat) : List (Nat × List Nat) := Sparse.put [] t k (Sparse.get [] t k ++ [x])

/-! ### Adam (R291) -/

def beta1 : Nat := 0x3F666666
def beta2 : Nat := 0x3F7D70A4

/-- One parameter's step: θ, m and v after it. -/
def adam (eps lr c1 c2 g th m v : Nat) : Nat × Nat × Nat :=
  let one : FVal := .fin false 1 0
  let m' := r32 (xAdd (xMul (f32v beta1) (f32v m)) (xMul (xSub one (f32v beta1)) (f32v g)))
  let v' := r32 (xAdd (xMul (f32v beta2) (f32v v)) (xMul (xMul (xSub one (f32v beta2)) (f32v g)) (f32v g)))
  let d := sAdd (sSqrt (sDiv v' c2)) eps
  (sSub th (sMul lr (sDiv (sDiv m' c1) d)), m', v')

end Sys2Proof.Machine
end

