-- ==== Sys2Proof/Machine/Ray.lean ====
section
/-! DEFINITION. Ray queries and their traversal (R248 to R259). -/
namespace Sys2Proof.Machine

/-! ### Query state -/

/-- A query's registers as words, with CTL's fields by their bit positions (R248, R249). -/
abbrev Rq := List Nat

def readRq (g : Group) (l q : Nat) : Rq := (List.range 16).map (fun i => (readV g l (q + i)).toNat)
def writeRq (g : Group) (l q : Nat) (r : Rq) : Group :=
  (List.range 16).foldl (fun g i => writeV g l (q + i) (BitVec.ofNat 32 (at3 r i))) g
def rqSet (r : Rq) (i x : Nat) : Rq := updAt i (fun _ => x) r

def rqState (r : Rq) : Nat := fldN (at3 r 9) 16 4
def rqDepth (r : Rq) : Nat := fldN (at3 r 9) 11 5
def rqStack (r : Rq) : Nat := 256 * fldN (at3 r 9) 0 11
/-- A field of a number replaced. -/
def putFld (x lo len v : Nat) : Nat := x - fldN x lo len * 2 ^ lo + (v % 2 ^ len) * 2 ^ lo
def rqWithState (r : Rq) (st : Nat) : Rq := rqSet r 9 (putFld (at3 r 9) 16 4 st)
def rqWithDepth (r : Rq) (d : Nat) : Rq := rqSet r 9 (putFld (at3 r 9) 11 5 d)
def rqBit (r : Rq) (n : Nat) : Bool := (at3 r 9).testBit n
def rqFIRST (r : Rq) : Bool := rqBit r 23
def rqCULLB (r : Rq) : Bool := rqBit r 22
def rqNOPQ (r : Rq) : Bool := rqBit r 21
def rqOPQ (r : Rq) : Bool := rqBit r 20
def rqMask (r : Rq) : Nat := fldN (at3 r 9) 24 8
def rqBase (r : Rq) : Nat := at3 r 14 + at3 r 15 * 2 ^ 32
def rqRay (r : Rq) : Ray := ⟨[at3 r 0, at3 r 1, at3 r 2], [at3 r 4, at3 r 5, at3 r 6], at3 r 3, at3 r 7⟩

/-- `commit` (R251). -/
def rqCommit (r : Rq) (kind inst prim : Nat) (h : Hit) : Rq :=
  rqSet (rqSet (rqSet (rqSet (rqSet r 7 h.t) 10 (kind % 4 * 2 ^ 24 + inst % 2 ^ 24)) 11 (h.front.toNat * 2 ^ 31 + prim % 2 ^ 31)) 12 h.u) 13 h.v

/-- A stack entry (R250). -/
structure RqEntry where
  off : Nat
  sel : Nat
  ek : Nat
  ipos : Nat
  inst : Nat
  iblk : Nat
  deriving DecidableEq, Repr

def entryBytes (e : RqEntry) : List Byte :=
  leBytes 4 e.off ++ leBytes 1 e.sel ++ leBytes 1 e.ek ++ leBytes 1 e.ipos ++ leBytes 1 0 ++ leBytes 4 e.inst ++ leBytes 4 e.iblk
def entryOf (b : List Byte) : RqEntry := ⟨qNum b 0 4, qNum b 4 1, qNum b 5 1, qNum b 6 1, qNum b 8 3, qNum b 12 4⟩
def topInst : Nat := 0xFFFFFF

/-! ### Reads of the arena (R236, R258) -/

/-- What stops a lane's visit: an error with its address and the type of the local access that met it, 0 for a global one (R385); a mapping that
migrates, or lines of its stack that are held (R95). -/
inductive RqStop where
  | err (e : LaneErr) (acc : Nat)
  | mig
  | lines (core : Nat) (ls : List Nat)
  deriving DecidableEq, Repr

def rqErr (c : Nat) : RqStop := .err ⟨kRQERR, c, 0⟩ 0

/-- Bytes of the arena read: SEG, LEASE, translation, REMERR and MEMERR in turn; an error reply of host memory or another device is a REMERR
(R137, R410). Later reads of the traversal come after it (R312, case 7). (DESIGN CHOICE: log 55) -/
def arenaRead (s : State) (g : Group) (va n : Nat) : State × Except RqStop (List Byte) :=
  let err (k c a : Nat) : Except RqStop (List Byte) := .error (.err ⟨k, c, a⟩ 0)
  match globTarget g va n, dispOf s g, groupPart s g with
  | some (.glob a), some d, some p =>
    if !inLease d a n then (s, err kLEASE 0 va)
    else
      match xlateRun s (ctxOn d g.core) .read a n with
      | (s, .error (f, .fault c)) => (s, err kXLATE c f)
      | (s, .error (f, .rem)) => (s, err kREMERR 0 f)
      | (s, .error _) => (s, .error .mig)
      | (s, .ok t) =>
        let ps := placesVia p t a n
        let s := drainOver (settleSlots s p (blocksVia t a n)) g.id (ps.map (·, 1))
        let (lost, s) := runLost s p (dieOf g) t a n
        if lost then (s, err kREMERR 0 va)
        else if badPlaces s ps then (noteBad s (memLocs ps), err kMEMERR 0 va)
        else
          let (bs, k, s) := plainLoad (correctPlaces (sampleCore s p d g.core a 0) ps) g.id 0 ps
          (modGroup s g.id (fun h => { h with floor := max h.floor k }), .ok bs)
  | _, _, _ => (s, err kSEG 0 va)

/-- The least time of the group's later reads set back to what it was before a lane's reads. (DESIGN CHOICE: log 55) -/
def keepFloor (g : Group) (s : State) : State := modGroup s g.id (fun h => { h with floor := g.floor })

/-- The address of an arena offset, exact (R135, R236). -/
def arenaAt (r : Rq) (off : Nat) : Nat := rqBase r + 128 * off

/-! ### The stack -/

/-- The number at which a group's traversal issued, among the accesses to local memory (R95). -/
def rqStamp (s : State) (g : Group) : Nat := (((findGroup s g.id).bind (·.rq)).map (·.stamp)).getD s.nextId

/-- A stack entry's place after the checks of a local access (R95, R99, R250). A fill of a window's line is a global access. (DEDUCED: log 40) -/
def stackAt (s : State) (g : Group) (store : Bool) (r : Rq) (j : Nat) : State × Except RqStop (Nat × Nat) :=
  let a := rqStack r + 16 * j
  match localTarget s g a 16 with
  | some (.loc c o) =>
    let ls := linesOfRange o 16
    let acc := if store then 2 else 1
    if ls.any (heldFor s (rqStamp s g) store c) then (s, .error (.lines c ls))
    else
      match fillLines s c ls with
      | .err s e => (s, .error (.err e 0))
      | .mig s _ => (s, .error .mig)
      | .ok s =>
        match localErr s (!store) c o 16 a with
        | some e => (noteBad s (lmemLocs c o 16), .error (.err e acc))
        | none => (if store then drainForWrite s g.id else correctLocs s (lmemLocs c o 16), .ok (c, o))
  | _ => (s, .error (.err ⟨kSEG, 0, a⟩ (if store then 2 else 1)))

def stackRead (s : State) (g : Group) (r : Rq) (j : Nat) : State × Except RqStop RqEntry :=
  match stackAt s g false r j with
  | (s, .ok (c, o)) => (s, .ok (entryOf ((List.range 16).map (fun i => rdLocal s c (o + i)))))
  | (s, .error x) => (s, .error x)

/-- A push: at DEPTH 16 it is discarded and the query ends (R251). -/
def rqPush (g : Group) (e : RqEntry) (x : State × Rq) : Except RqStop (State × Rq) :=
  if rqState x.2 = 5 then .ok x
  else if 16 ≤ rqDepth x.2 then .ok (x.1, rqWithState x.2 5)
  else
    match stackAt x.1 g true x.2 (rqDepth x.2) with
    | (s, .ok (c, o)) => .ok (wrLocal s c o (entryBytes e), rqWithDepth x.2 (rqDepth x.2 + 1))
    | (_, .error k) => .error k

/-- A push where a condition holds, and one that always follows it. -/
def rqPush2 (g : Group) (first : Bool) (e f : RqEntry) (x : State × Rq) : Except RqStop (State × Rq) :=
  match if first then rqPush g e x else .ok x with
  | .ok x => rqPush g f x
  | .error k => .error k

/-! ### Visits (R251) -/

/-- A candidate reported (R255): kind, FRONT, instance, t, primitive, u, v. -/
structure Cand where
  kind : Nat
  inst : Nat
  prim : Nat
  hit : Hit
  deriving DecidableEq, Repr

/-- The instance that an entry stands below: its record, read again (R242). -/
def instRecord (s : State) (g : Group) (r : Rq) (e : RqEntry) : State × Except RqStop (Option (List Byte)) :=
  if e.inst = topInst then (s, .ok none)
  else
    match arenaRead s g (arenaAt r e.iblk + 16 + 64 * e.ipos) 64 with
    | (s, .ok b) => (s, .ok (some b))
    | (s, .error x) => (s, .error x)

/-- The ray in an entry's space. -/
def rayIn (r : Rq) (inst : Option (List Byte)) : Ray :=
  match inst with
  | none => rqRay r
  | some b => toObject (rqRay r) ((List.range 12).map (fun i => recF32 b (4 * i)))

/-- A hit child placed by its sort key. -/
def insertHit (h : Nat × Nat) : List (Nat × Nat) → List (Nat × Nat)
  | [] => [h]
  | k :: t => if sLt h.2 k.2 then h :: k :: t else k :: insertHit h t

/-- A node visited: the space, the node with its keys, then its children (R237, R238, R251). -/
def visitNode (s : State) (g : Group) (r : Rq) (e : RqEntry) : Except (State × RqStop) (State × Rq × Option Cand) :=
  match instRecord s g r e with
  | (s, .error x) => .error (s, x)
  | (s, .ok inst) =>
    match arenaRead s g (arenaAt r e.off) 128 with
    | (s, .error x) => .error (s, x)
    | (s, .ok b) =>
      let byte (i : Nat) : Nat := qNum b i 1
      if 1 < byte 15 ∨ (byte 15 = 1 ∧ (byte 12 < 2 ∨ 8 < byte 12)) then .error (s, rqErr 1)
      else
        match (if byte 15 = 1 then arenaRead s g (arenaAt r e.off + 128) (192 * byte 12) else (s, .ok [])) with
        | (s, .error x) => .error (s, x)
        | (s, .ok keys) =>
          let node := b ++ keys
          let ck (c : Nat) : Nat := byte (96 + c) % 4
          if (List.range 8).any (fun c => ck c == 3) then .error (s, rqErr 1)
          else
            let cs := (List.range 8).filter (fun c => e.sel.testBit c && ck c != 0)
            let ray := rayIn r inst
            let hits := cs.filterMap (fun c => (childBox node (at3 r 8) c).bind (fun (lo, hi) => (boxTest ray lo hi).map (fun k => (c, k))))
            match hits.foldl (fun l h => insertHit h l) [] with
            | [] => .ok (s, r, none)
            | (c, _) :: rest =>
              match rqPush2 g (rest != []) { e with sel := maskOf (rest.map (·.1)), ek := 0 }
                  { e with off := qNum b (16 + 4 * c) 4, sel := if ck c = 1 then 0xFF else 0, ek := ck c - 1 } (s, r) with
              | .ok (s, r) => .ok (s, r, none)
              | .error x => .error (s, x)

/-- A primitive is opaque (R243); OPQ wins where a ray has both. (DESIGN CHOICE: log 78) -/
def rqOpaque (r : Rq) (inst : Option (List Byte)) (flags : Nat) : Bool :=
  let fi := match inst with | some b => qNum b 53 1 | none => 0
  let io := fi.testBit 0
  let ino := fi.testBit 1
  if rqOPQ r then true else if rqNOPQ r then false
  else if io && !ino then true else if ino && !io then false else flags.testBit 0

/-- A triangle is culled (R243). -/
def rqCulled (r : Rq) (kind : Nat) (inst : Option (List Byte)) (flags : Nat) (h : Hit) : Bool :=
  kind == 0 && rqCULLB r && !h.front && !flags.testBit 1 && !(match inst with | some b => (qNum b 53 1).testBit 2 | none => false)

/-- The records of a leaf block from one on (R251); `skip` says that the first was decided already, and `cand` that it is the candidate
reported before: its entry then stays as it is. (DEDUCED: log 40) -/
def leafRecords (g : Group) (e : RqEntry) (blk : List Byte) (inst : Option (List Byte)) (skip cand : Bool) :
    Nat → Nat → State → Rq → Except RqStop (State × Rq × Option Cand)
  | 0, _, s, r => .ok (s, r, none)
  | n + 1, i, s, r =>
    let kind := qNum blk 0 1
    let nk := qNum blk 2 1
    let count := qNum blk 1 1
    let prim := qNum blk 8 4 + i
    let rc := (blk.drop (16 + i * recBytes kind nk)).take (recBytes kind nk)
    let go := leafRecords g e blk inst skip cand n (i + 1)
    if skip ∧ i = e.sel then go s r
    else if kind = 3 then
      if qNum rc 52 1 &&& rqMask r = 0 then go s r
      else
        (rqPush2 g (decide (i + 1 < count)) { e with sel := i + 1, ek := 1, ipos := 0, inst := topInst, iblk := 0 }
          ⟨qNum rc 48 4, 0xFF, 0, i, prim, e.off⟩ (s, r)).map (fun x => (x.1, x.2, none))
    else
      match primTest (rayIn r inst) kind (primPoints kind nk (at3 r 8) rc) with
      | none => go s r
      | some h =>
        let flags := qNum rc 0 1
        if rqCulled r kind inst flags h then go s r
        else if rqOpaque r inst flags then
          let r := rqCommit r (kind + 1) e.inst prim h
          if rqFIRST r then .ok (s, rqWithState r 4, none) else go s r
        else if cand ∧ i = e.sel then .ok (s, rqWithState (rqWithDepth r (rqDepth r + 1)) 2, some ⟨kind + 1, e.inst, prim, h⟩)
        else
          (rqPush g { e with sel := i, ek := 1 } (s, r)).map
            (fun x => (x.1, if rqState x.2 = 5 then x.2 else rqWithState x.2 2, some ⟨kind + 1, e.inst, prim, h⟩))

/-- A leaf block visited: the space, the block's header, then its records. (DEDUCED: log 40) -/
def visitLeaf (s : State) (g : Group) (r : Rq) (e : RqEntry) (skip cand : Bool) : Except (State × RqStop) (State × Rq × Option Cand) :=
  match instRecord s g r e with
  | (s, .error x) => .error (s, x)
  | (s, .ok inst) =>
    match arenaRead s g (arenaAt r e.off) 16 with
    | (s, .error x) => .error (s, x)
    | (s, .ok h) =>
      let kind := qNum h 0 1
      let count := qNum h 1 1
      let nk := qNum h 2 1
      let last := qNum h 8 4 + count - 1
      if 3 < kind ∨ count = 0 ∨ 16 < count ∨ nk = 0 ∨ 8 < nk ∨ (kind = 3 ∧ nk ≠ 1) ∨ (kind = 3 ∧ 0xFFFFFF ≤ last) ∨ 2 ^ 31 ≤ last then
        .error (s, rqErr 2)
      else if kind = 3 ∧ e.inst ≠ topInst then .error (s, rqErr 3)
      else
        match arenaRead s g (arenaAt r e.off + 16) (count * recBytes kind nk) with
        | (s, .error x) => .error (s, x)
        | (s, .ok bs) =>
          match leafRecords g e (h ++ bs) inst skip cand (count - e.sel) e.sel s r with
          | .ok x => .ok x
          | .error k => .error (s, k)

/-- One visit: the top entry popped and processed. A visit that fails leaves the query as it was. -/
def visit (s : State) (g : Group) (r : Rq) : Except (State × RqStop) (State × Rq × Option Cand) :=
  if 16 < rqDepth r ∨ rqDepth r = 0 then .error (s, rqErr 4)
  else
    match stackRead s g r (rqDepth r - 1) with
    | (s, .error k) => .error (s, k)
    | (s, .ok e) =>
      let r' := rqWithState (rqWithDepth r (rqDepth r - 1)) 1
      match e.ek with
      | 0 => visitNode s g r' e
      | 1 => visitLeaf s g r' e (rqState r == 3) (rqState r == 2)
      | _ => .error (s, rqErr 4)

/-- How a lane's run ended: its status of R255 and its candidate, or what stopped it. -/
inductive RqEnd where
  | ret (status : Nat) (c : Option Cand)
  | stop (x : RqStop)
  | more

/-- A lane's run: at most so many visits; `lim` says that reaching it is BUDGET. -/
def runLane (g : Group) (lim : Bool) : Nat → Nat → State → Rq → State × Rq × Nat × RqEnd
  | n, done, s, r =>
    match n with
    | 0 => (s, r, done, if lim then .ret 2 none else .more)
    | n + 1 =>
      match visit s g r with
      | .error (s, x) => (s, r, done, .stop x)
      | .ok (s, r, c) =>
        match c, rqState r with
        | some c, 2 => (s, r, done + 1, .ret 1 (some c))
        | _, 4 => (s, r, done + 1, .ret 0 none)
        | _, 5 => (s, r, done + 1, .ret 4 none)
        | _, _ => if rqDepth r = 0 then (s, rqWithState r 4, done + 1, .ret 0 none) else runLane g lim n (done + 1) s r

/-- The visits that one step makes for a lane without a budget, before the group's other work may go on. -/
def rqSlice : Nat := 65536

/-- A lane's run from its state (R255), some of its visits made before. (DEDUCED: log 40) -/
def rqLane (g : Group) (budget made : Nat) (s : State) (r : Rq) : State × Rq × Nat × RqEnd :=
  match rqState r with
  | 0 => (s, r, made, .ret 5 none)
  | 4 => (s, r, made, .ret 0 none)
  | 5 => (s, r, made, .ret 4 none)
  | 1 | 2 | 3 =>
    if rqDepth r = 0 ∧ rqState r ≠ 2 then (s, rqWithState r 4, made, .ret 0 none)
    else runLane g (budget != 0) (if budget = 0 then rqSlice else budget - made) made s r
  | _ => (s, r, made, .stop (rqErr 4))

/-- The candidate block (R255). -/
def candBlock (status visits : Nat) (c : Option Cand) : List Nat :=
  match c with
  | some k => [status + k.kind * 16 + k.hit.front.toNat * 64 + k.inst * 256, k.hit.t, k.prim, k.hit.u, k.hit.v, visits, 0, 0]
  | none => [status, 0, 0, 0, 0, visits, 0, 0]

def writeBlock (g : Group) (first : Nat) (out : List (Nat × List Nat)) : Group :=
  out.foldl (fun g p => (List.range 8).foldl (fun g i => writeV g p.1 (first + i) (BitVec.ofNat 32 (at3 p.2 i))) g) g

/-! ### `rq.run` -/

/-- A traversal as it proceeds: the visits of each lane, the blocks of the lanes that have returned or stopped, these lanes, the errors of those
that stopped for good; the translation faults to retry, what other lanes wait for, and whether some have more to do. -/
structure RqRun where
  visits : List (Nat × Nat)
  out : List (Nat × List Nat)
  ended : List Nat
  errs : List (Nat × LaneErr × Nat)
  faults : List (Nat × LaneErr)
  waits : List RqStop
  more : Bool

/-- A traversal that goes on, or begins. -/
def RqRun.start (k : Option RqPause) : RqRun :=
  match k with
  | some k => ⟨k.visits, k.out.filter (fun o => k.ended.contains o.1), k.ended, k.errs.map (fun e => (e.1, ⟨e.2.1, e.2.2.1, e.2.2.2.1⟩, e.2.2.2.2)), [], [], false⟩
  | none => ⟨[], [], [], [], [], [], false⟩

/-- How a lane's run ended, noted: a translation fault of the replayable regime is retried, every other error ends the lane (R258). -/
def RqRun.note (k : RqRun) (lease : Bool) (l n : Nat) (e : RqEnd) : RqRun :=
  let k := { k with visits := (l, n) :: k.visits.filter (fun v => v.1 != l) }
  match e with
  | .ret st c => { k with out := k.out ++ [(l, candBlock st n c)], ended := k.ended ++ [l] }
  | .stop (.err e acc) =>
    if e.kind = kXLATE ∧ !lease then { k with faults := k.faults ++ [(l, e)] }
    else { k with out := k.out ++ [(l, candBlock 3 n none)], ended := k.ended ++ [l], errs := k.errs ++ [(l, e, acc)] }
  | .stop w => { k with waits := k.waits ++ [w] }
  | .more => { k with more := true }

/-- The lines of its core's local memory that the stacks of some lanes of a group hold. -/
def stackLines (s : State) (g : Group) (q : Nat) (ls : List Nat) : List Nat :=
  ls.flatMap (fun l => match localTarget s g (rqStack (readRq g l q)) 256 with | some (.loc _ o) => linesOfRange o 256 | _ => [])

/-- What a parked traversal keeps; a lane that has not returned would return PAUSE (R259), and its stack's lines stay held (R95). -/
def RqRun.pause (k : RqRun) (s : State) (x : Issue) (q first : Nat) : RqPause :=
  { stamp := rqStamp s x.g, lines := stackLines s ((findGroup s x.g.id).getD x.g) q (x.act.filter (fun l => !k.ended.contains l)), next := x.next, served := maskLanes x.served, first := first,
    out := x.act.map (fun l => (l, match k.out.find? (fun o => o.1 == l) with | some o => o.2 | none => candBlock 3 (lookupD k.visits l) none)),
    visits := k.visits, ended := k.ended, errs := k.errs.map (fun e => (e.1, e.2.1.kind, e.2.1.cause, e.2.1.daddr, e.2.2)) }

/-- The lanes that have not ended run in turn. -/
def runLanes (x : Issue) (q budget : Nat) (lease : Bool) : List Nat → State → RqRun → State × RqRun
  | [], s, k => (s, k)
  | l :: ls, s, k =>
    match findGroup s x.g.id with
    | none => (s, k)
    | some g =>
      let (s, r, n, e) := rqLane g budget (lookupD k.visits l) s (readRq g l q)
      runLanes x q budget lease ls (keepFloor x.g (modGroup s x.g.id (fun g => writeRq g l q r))) (k.note lease l n e)

/-- The error of a traversal whose lanes have all returned or stopped; a delivered XLATE carries its tag above its cause (R258, R385). `acc` is the
type of the local access that met it, 0 for a global one. -/
def rqFail (x : Issue) (s : State) (lease : Bool) (e : LaneErr) (acc : Nat) (m : List Nat) : IRes :=
  if e.kind = kRQERR then .trap s { kind := kRQERR, cause := e.cause, mask := m }
  else if e.kind = kXLATE ∧ !lease then
    .trap s { kind := kXLATE, cause := e.cause % 256, mask := m, daddr := BitVec.ofNat 64 e.daddr, extra := BitVec.ofNat 64 (e.cause / 256), acc := 1,
              asid := asidOf s x.g }
  else if e.kind = kMEMERR ∧ e.cause = 1 then
    .trap s { kind := kMEMERR, cause := 1, mask := m, daddr := BitVec.ofNat 64 e.daddr, acc := acc, extra := BitVec.ofNat 64 (failedKind s x 1 e.daddr) }
  else if acc = 0 then raiseErr s x 1 (asidOf s x.g) e m
  else raiseErr s x acc 0 e m

/-- `rq.run` (R255, R258): lanes run on while others stop; a translation fault of the replayable regime parks the group, and so do a migrating
mapping and stack lines that are held; then every lane goes on from where it stands. -/
def rqRunOp (y : XWord) (x : Issue) (s : State) : IRes :=
  groupWide x s fun s =>
    let s := markUnrec (readPoint s x.g.id) x.g.id
    let c := vOf y.dst
    let lease := ((dispOf s x.g).map leased).getD false
    let k := RqRun.start x.g.rq
    let (s, k) := runLanes x (vOf y.sa) (rdB s x x.lead) lease (x.act.filter (fun l => !k.ended.contains l)) s k
    let hold (s : State) : State :=
      let r := k.pause s x (vOf y.sa) c
      modGroup { s with nextId := max s.nextId (r.stamp + 1) } x.g.id (fun g => { g with rq := some r })
    match k.faults, k.waits, k.more with
    | e :: r, _, _ => .replay (hold s) (asidOf s x.g) (BitVec.ofNat 64 e.2.daddr) e.2.cause 1 ((e :: r).map (·.1))
    | [], .lines co ls :: _, _ => .park (hold s) (.lines co ls true)
    | [], _ :: _, _ => .park (hold s) (.migration (asidOf s x.g))
    | [], [], true => .park (hold s) .again
    | [], [], false =>
      let fin : State := modGroup s x.g.id (fun g => { writeBlock g c (k.out.filter (fun o => !k.errs.any (fun e => e.1 == o.1))) with rq := none })
      match firstErr ((List.range 64).filterMap (fun l => (k.errs.find? (fun e => e.1 == l)).map (fun e => (l, e.2.1)))) with
      | some (e, m) => rqFail x fin lease e (((k.errs.find? (fun r => r.1 == m.headD 0)).map (·.2.2)).getD 0) m
      | none => .done fin []

def execRqRun (y : XWord) (s : State) := issue (.rqRun y) s (rqRunOp y)

/-- Pre-emption ends a traversal that is parked: its lanes return PAUSE unless they have returned another status (R259). -/
def pauseQuery (g : Group) : Group :=
  match g.rq with
  | none => g
  | some k =>
    let g := writeBlock (unparkGroup g) k.first k.out
    { g with rq := none, chain := none, pcv := g.pcv.mapIdx (fun l a => if k.served.getLsbD l && a != exitPc then k.next else a) }

/-! ### The other instructions -/

/-- The query that `rq.init` forms from the registers as they stand (R254). -/
def rqFresh (r : Rq) (base stack ctl : Nat) : Rq :=
  let r := [(8, clampTime (at3 r 8)), (10, 0xFFFFFF), (11, 0), (12, 0), (13, 0), (14, base % 2 ^ 32), (15, base / 2 ^ 32)].foldl
    (fun r p => rqSet r p.1 p.2) r
  let empty := [0, 1, 2, 3, 4, 5, 6].any (fun i => !sFinite (at3 r i)) || [4, 5, 6].all (fun i => (f32v (at3 r i)).isZero)
    || sNan (at3 r 7) || sLt (at3 r 3) 0 || sLt (at3 r 7) (at3 r 3)
  rqSet r 9 (fldN ctl 0 8 * 2 ^ 24 + fldN ctl 8 4 * 2 ^ 20 + (if empty then 4 else 1) * 2 ^ 16 + (if empty then 0 else 1) * 2 ^ 11 + stack / 256)

/-- The address errors of `rq.init` (R254): ALIGN, then SEG, of each active lane. -/
def rqInitErrs (x : Issue) (s : State) : List (Nat × LaneErr) :=
  let a (l : Nat) := rdA s x l
  let b (l : Nat) := rdB s x l
  let c (l : Nat) := rdC s x l
  let err (k d : Nat) : LaneErr := ⟨k, 0, d⟩
  let lap (l : Nat) : Bool := x.act.any (fun k => k != l && overlap (b k) 256 (b l) 256)
  x.act.filterMap (fun l =>
    if a l % 128 != 0 then some (l, err kALIGN (a l)) else if b l % 256 != 0 then some (l, err kALIGN (b l)) else none)
  ++ x.act.filterMap (fun l =>
    if !canonical (a l) then some (l, err kSEG (a l))
    else if (localTarget s x.g (b l) 256).isNone || decide (2 ^ 19 ≤ b l) || lap l then some (l, err kSEG (b l))
    else if fldN (c l) 12 20 != 0 || fldN (c l) 8 2 == 3 then some (l, err kSEG (c l)) else none)

/-- The query of a lane after `rq.init` (R254). -/
def rqNew (x : Issue) (s : State) (q l : Nat) : Rq := rqFresh (readRq x.g l q) (rdA s x l) (rdB s x l) (rdC s x l)

/-- `rq.init` for a lane (R254): the query's registers, and the first entry of a query that is not empty; `ls` are the lanes whose stacks are
written, with their places. -/
def rqInitLane (x : Issue) (q : Nat) (s : State) (ls : List LaneOk) (t : State) (l : Nat) : State :=
  let t := modGroup t x.g.id (fun g => writeRq g l q (rqNew x s q l))
  match (ls.find? (fun k => k.lane == l)).bind (·.loc) with
  | some (co, o) => wrLocal t co o (entryBytes ⟨0, 0xFF, 0, 0, topInst, 0⟩)
  | none => t

/-- `rq.init` (R254). -/
def execRqInit (y : XWord) (s : State) :=
  issue (.rqInit y) s fun x s =>
    match firstErr (rqInitErrs x s) with
    | some (e, m) => raiseErr s x 0 0 e m
    | none =>
      let live := x.act.filter (fun l => rqState (rqNew x s (vOf y.dst) l) == 1)
      match checkLanes s x .l 1 16 2 false true false (live.map (fun l => (l, rdB s x l))) with
      | .stop r => r
      | .ok t ls => .done (x.act.foldl (rqInitLane x (vOf y.dst) s ls) (if ls = [] then t else drainForWrite t x.g.id)) []

/-- A query changed in every active lane, where each lane's state permits (R256, R257). -/
def rqEach (x : Issue) (s : State) (q : Nat) (ok : Rq → Bool) (f : Nat → Rq → Rq) : IRes :=
  match x.act.filter (fun l => !ok (readRq x.g l q)) with
  | [] => .done (modGroup s x.g.id (fun g => x.act.foldl (fun g l => writeRq g l q (f l (readRq g l q))) g)) []
  | m => .trap s { kind := kRQERR, cause := 4, mask := m }

/-- `rq.acc` for a lane (R256): the candidate block committed where its t lies inside the ray. -/
def rqAccLane (x : Issue) (f : FWord) (l : Nat) (r : Rq) : Rq :=
  let c (i : Nat) : Nat := (readV x.g l (vOf f.sb + i)).toNat
  if sLe (at3 r 3) (c 1) && sLt (c 1) (at3 r 7) then
    let r := rqCommit r (fldN (c 0) 4 2) (fldN (c 0) 8 24) (c 2) ⟨c 1, c 3, c 4, (c 0).testBit 6⟩
    rqWithState r (if rqFIRST r then 4 else 3)
  else rqWithState r 3

/-- `rq.acc` (R256). -/
def execRqAcc (f : FWord) (s : State) :=
  issue (.rqAcc f) s fun x s => rqEach x s (vOf f.sa) (fun r => rqState r == 2) (rqAccLane x f)

/-- `rq.rej` (R256). -/
def execRqRej (f : FWord) (s : State) :=
  issue (.rqRej f) s fun x s => rqEach x s (vOf f.sa) (fun r => rqState r == 2) fun _ r => rqWithState r 3

/-- A field of a query (R257). -/
def rqField (n : Nat) (r : Rq) : Nat :=
  match n with
  | 0 => rqState r
  | 1 => rqDepth r
  | 2 => fldN (at3 r 10) 24 2
  | 3 => fldN (at3 r 11) 31 1
  | 4 => fldN (at3 r 10) 0 24
  | 5 => fldN (at3 r 11) 0 31
  | 6 => at3 r 7
  | _ => if rqDepth r = 0 then 0xFFFFFFFF else rqStack r + 16 * (rqDepth r - 1)

def execRqGet (f : FWord) (s : State) :=
  issue (.rqGet f) s fun x s => perLane s x (fun l => rqField (fmod f 0 4) (readRq x.g l (vOf f.sa)))

/-- `rq.set` of a field to a value (R257); −0 is the lesser zero (R150, R175). (DEDUCED: log 40) -/
def rqSetTo (fld v : Nat) (r : Rq) : Rq :=
  match fld with
  | 0 => if sNan v || !sLe (at3 r 3) v then r else if sLt v (at3 r 7) || (v == 0x80000000 && at3 r 7 == 0) then rqSet r 7 v else r
  | 1 => rqSet r 9 (putFld (at3 r 9) 24 8 v)
  | _ => rqSet r 9 (putFld (at3 r 9) 20 4 v)

def execRqSet (f : FWord) (s : State) :=
  issue (.rqSet f) s fun x s =>
    let v (l : Nat) := rdB s x l
    let fld := fmod f 0 4
    let idle := x.act.filter (fun l => rqState (readRq x.g l (vOf f.sa)) == 0)
    match if fld = 2 then x.act.filter (fun l => v l % 4 == 3) else [] with
    | l :: m => if idle != [] then .trap s { kind := kRQERR, cause := 4, mask := idle }
      else .trap s { kind := kSEG, mask := l :: m, daddr := BitVec.ofNat 64 (v l) }
    | [] => rqEach x s (vOf f.sa) (fun r => rqState r != 0) fun l r => rqSetTo fld (v l) r

/-- `rq.end` (R257). -/
def execRqEnd (f : FWord) (s : State) :=
  issue (.rqEnd f) s fun x s => rqEach x s (vOf f.sa) (fun _ => true) fun _ r => rqWithDepth (rqWithState r 0) 0

end Sys2Proof.Machine
end

