-- ==== Sys2Proof/Machine/Radiance.lean ====
section
/-! DEFINITION. The radiance cache: queries, offers, configuration, and the Equinox engine (R278 to R295). -/
namespace Sys2Proof.Machine

/-! ### Networks -/

def network (s : State) (i : Nat) : Network := (s.networks.find? (fun n => n.net == i)).getD (networkReset i)

/-- A network that is configured and that an address space of a partition owns; for any other it is absent (R278). -/
def ownedNet (s : State) (part asid i : Nat) : Option Network :=
  let n := network s i
  if n.state != 0 && n.part == part && n.asid == asid then some n else none

/-- Entries of a published table: LEVELS × 2^TLOG. -/
def tabEntries (d : List Byte) : Nat := nLevels d * 2 ^ nTlog d
/-- The address of an entry of version v of the tables (R279). -/
def tabAt (d : List Byte) (v k : Nat) : Nat := qNum d 112 8 + (v % 2) * (4 * tabEntries d) + 4 * k
/-- The address of a master feature (R279). -/
def masterAt (d : List Byte) (k : Nat) : Nat := qNum d 128 8 + 12 * k
def trainSlotAt (d : List Byte) (k : Nat) : Nat := qNum d 120 8 + 64 * k
/-- The number of a corner's entry. -/
def cornerKey (d : List Byte) (c : GridCorner) : Nat := c.level * 2 ^ nTlog d + c.idx
/-- Two FP16 features widened. -/
def featPair (bs : List Byte) : FVal × FVal := (Fmt.f16.decode (qNum bs 0 2), Fmt.f16.decode (qNum bs 2 2))

/-! ### Queries (R286, R287) -/

/-- Bytes of a table read as a global load of the group: LEASE, translation, REMERR and MEMERR in turn. -/
def tableRead (s : State) (g : Group) (va n : Nat) : State × Except RqStop (List Byte) :=
  arenaRead s { g with segGlob := (0, BitVec.ofNat 64 (2 ^ 57)) } va n

/-- The features of a lane's corners, and what stops some of the reads: every read is tried, so that the first kind is reported (R136, R286). -/
def cornerFeats (g : Group) (d : List Byte) (v : Nat) : List GridCorner → State → Feats → List RqStop → State × Feats × List RqStop
  | [], s, fs, es => (s, fs, es)
  | c :: cs, s, fs, es =>
    match tableRead s g (tabAt d v (cornerKey d c)) 4 with
    | (s, .error e) => cornerFeats g d v cs s fs (es ++ [e])
    | (s, .ok bs) => cornerFeats g d v cs s (fs ++ [featPair bs]) es

/-- The registers of a lane from a base up. -/
def regBlock (g : Group) (l base n : Nat) : List Nat := (List.range n).map (fun i => (readV g l (base + i)).toNat)

/-- An uncorrectable word of a core's slab (R397). -/
def slabWord (core net : Nat) (b : ArrayLoc) : Bool := match b with | .slab c n _ => c == core && n == net | _ => false
def badSlab (s : State) (core net : Nat) : Bool := s.badWords.any (slabWord core net)

/-- A lane's result with version w − 1 of its stamp w (R283, R286). -/
def queryLane (s : State) (g : Group) (n : Network) (w : Nat) (blk : List Nat) : State × Except (List RqStop) (List Nat) :=
  let cs := gridCorners n.desc blk
  match cornerFeats g n.desc (w - 1) cs s [] [] with
  | (s, _, e :: es) => (s, .error (e :: es))
  | (s, fs, []) =>
    if badSlab s g.core n.net then (noteBad s (s.badWords.filter (slabWord g.core n.net)), .error [.err ⟨kMEMERR, 0, 0⟩ 0])
    else
      let s := correctWhere s (slabWord g.core n.net)
      let p := (List.range (mlpCount (nH n.desc))).map (fun i => (Sparse.get 0 n.slab i).toNat)
      (s, .ok (forward (nH n.desc) p (inputVec n.desc cs fs blk)).y)

/-- Every active lane's result, or its errors. -/
def queryLanes (g : Group) (n : Network) (w base : Nat) : List Nat → State → List (Nat × List Nat) → List (Nat × RqStop) →
    State × List (Nat × List Nat) × List (Nat × RqStop)
  | [], s, out, es => (s, out, es)
  | l :: ls, s, out, es =>
    match queryLane s g n w (regBlock g l base 16) with
    | (s, .ok y) => queryLanes g n w base ls s (out ++ [(l, y)]) es
    | (s, .error e) => queryLanes g n w base ls s out (es ++ e.map (l, ·))

/-- Finite and not negative: what an offer's target must be (R287). -/
def goodTarget (t : List Nat) : Bool := t.all (fun x => sFinite x && sLe 0 x)

/-- The ten rounds of an offer's key (R287). -/
def offerRounds (s : State) (x : Issue) (n : Network) (w l sidx : Nat) : Nat × Nat × Nat × Nat :=
  let salt := qNum n.desc 56 8
  let (x2, x3) := randKey s x l
  randRounds 10 (salt % 2 ^ 32) (salt / 2 ^ 32) (w, sidx, x2, x3)

/-- An offer that is taken: the lane, its slot and its key; the network must not be FAULTED (R286, R287). -/
def laneOffer (s : State) (x : Issue) (n : Network) (w tb l : Nat) : Option (Nat × Nat × Nat) :=
  let t := regBlock x.g l tb 4
  let (x0, x1, _, _) := offerRounds s x n w l (at3 t 3)
  let key := x1 * 2 ^ 32 + x0
  if n.state != 3 && goodTarget (t.take 3) && decide (x0 % 65536 < qNum n.desc 8 4) then some (l, key % max 1 (nSlots n.desc), key) else none

/-- The bytes of an offer's slot (R288). -/
def offerBytes (w : Nat) (blk t : List Nat) (key : Nat) : List Byte :=
  let b (x : Nat) : List Byte := leBytes 2 (bf16 x / 65536)
  let od := octV (blk.drop 4)
  let on_ := octV (blk.drop 8)
  leBytes 8 key ++ (blk.take 3).flatMap (leBytes 4) ++ b od.1 ++ b od.2 ++ b on_.1 ++ b on_.2 ++ b (at3 blk 3)
    ++ [12, 13, 14].flatMap (fun i => b (at3 blk i)) ++ (t.take 3).flatMap (leBytes 4) ++ leBytes 4 w ++ leBytes 12 0

/-- The checks of an offer's slot as a global atomic: SEG, LEASE, then translation for a write (R286). -/
def offerCheck (s : State) (x : Issue) (va : Nat) : State × Except RqStop Nat :=
  match globTarget x.g va 64, dispOf s x.g with
  | some (.glob a), some d =>
    if !inLease d a 64 then (s, .error (.err ⟨kLEASE, 0, va⟩ 0))
    else
      match translate s (ctxOn d x.g.core) a .write with
      | (s, .ok pa) => (s, .ok pa)
      | (s, .fault c) => (s, .error (.err ⟨kXLATE, c, va⟩ 0))
      | (s, .rem) => (s, .error (.err ⟨kREMERR, 0, va⟩ 0))
      | (s, .mig) => (s, .error .mig)
  | _, _ => (s, .error (.err ⟨kSEG, 0, va⟩ 0))

/-- The offers of every lane with their physical addresses, and the errors. (DEDUCED: log 44) -/
def offerLanes (x : Issue) (n : Network) : List (Nat × Nat × Nat) → State → List (Nat × Nat) → List (Nat × RqStop) →
    State × List (Nat × Nat) × List (Nat × RqStop)
  | [], s, ok, es => (s, ok, es)
  | (l, slot, _) :: os, s, ok, es =>
    match offerCheck s x (trainSlotAt n.desc slot) with
    | (s, .ok pa) => offerLanes x n os s (ok ++ [(l, pa)]) es
    | (s, .error e) => offerLanes x n os s ok (es ++ [(l, e)])

/-- Counters of a network since its last close point increased. -/
def addPending (s : State) (net k n : Nat) : State :=
  modNetwork s net (fun x => { x with pending := Sparse.put 0 x.pending k (Sparse.get 0 x.pending k + n) })

/-- The result quads of a query (R285): y, and TAKEN with the version used. -/
def writeQuery (x : Issue) (w d : Nat) (taken : List Nat) (out : List (Nat × List Nat)) (s : State) : State :=
  modGroup s x.g.id (fun g => out.foldl (fun g o =>
    let v := (taken.contains o.1).toNat * 2 ^ 31 + ((w + 2 ^ 32 - 1) % 2 ^ 31)
    (List.range 4).foldl (fun g i => writeV g o.1 (d + i) (BitVec.ofNat 32 (if i < 3 then at3 o.2 i else v))) g) g)

/-- The errors of a query: the first kind in the order of R136 with its lanes, or a migrating mapping. A slot's check is a global atomic's, a
table's a load's (R286, R385); where the reported lane met both, the load is reported. (DEDUCED: log 40) -/
def queryStop (x : Issue) (s : State) (es fs : List (Nat × RqStop)) : Option IRes :=
  let errs (l : List (Nat × RqStop)) : List (Nat × LaneErr) :=
    l.filterMap (fun e => match e.2 with | .err k _ => some (e.1, k) | _ => none)
  match firstOfAll (errs es ++ errs fs) with
  | some (e, m) => some (raiseErr s x (if (errs es).contains (m.headD 0, e) then 1 else 3) (asidOf s x.g) e m)
  | none => if es ++ fs != [] then some (.park s (.migration (asidOf s x.g))) else none

/-- A query's stamp as its group keeps it while it is in flight: the network above the window number (R283). -/
def queryStamp (net w : Nat) : Nat := net * 2 ^ 32 + w

/-- A query of a network stamped with a window is in flight. -/
def stampedIn (s : State) (net w : Nat) : Bool := s.groups.any (fun g => g.stamp == some (queryStamp net w))

/-- A query of a network is in flight: one that waits or an `rct` whose offers are not performed. -/
def queriesIn (s : State) (net : Nat) : Bool :=
  s.cmds.any (fun c => c.opc == 0x2A1 && c.seq == net) || s.groups.any (fun g => ((g.stamp).map (fun w => w / 2 ^ 32 == net)).getD false)

/-- The window number that a query uses: the one that it took as it issued, or now the network's (R283). -/
def queryWindow (g : Group) (n : Network) : Nat :=
  match g.stamp with | some w => if w / 2 ^ 32 = n.net then w % 2 ^ 32 else n.w | none => n.w

/-- A query's checks and results, and what follows with them (R286): until version w − 1 of its stamp is published it waits, stamped. `offers`
says that the lanes' offers are checked too. -/
def queryOp (x : Issue) (s : State) (y : XWord) (offers : Bool)
    (k : State → Network → Nat → List (Nat × List Nat) → List (Nat × Nat × Nat) → List (Nat × Nat) → IRes) : IRes :=
  groupWide x s fun s =>
    let s := modGroup s x.g.id (fun g => { g with stamp := none })
    match ownedNet s (((dispOf s x.g).map (·.part)).getD 0) (asidOf s x.g) (xmod y 0 2) with
    | none => .trap s { kind := kSEG, cause := 3, mask := x.act }
    | some n =>
      let w := queryWindow x.g n
      let os := if offers then x.act.filterMap (laneOffer s x n w (vOf y.sb)) else []
      let (s, out, es) := queryLanes x.g n w (vOf y.sa) x.act s [] []
      let (s, pas, fs) := offerLanes x n os (keepFloor x.g s) [] []
      match queryStop x s es fs with
      | some r => r
      | none =>
        if n.published + 1 < w then .park (modGroup s x.g.id (fun g => { g with stamp := some (queryStamp n.net w) })) (.query n.net)
        else k s n w out os pas

/-- `rcq`. -/
def execRcq (y : XWord) (s : State) :=
  issue (.rcq y) s fun x s => queryOp x s y false fun s _ w out _ _ => .done (writeQuery x w (vOf y.dst) [] out s) []

/-- The offers of an `rct` as one command (R286): for each its physical address and its slot's bytes. -/
def offersCmd (s : State) (x : Issue) (y : XWord) (n : Network) (w : Nat) (os : List (Nat × Nat × Nat)) (pas : List (Nat × Nat)) : Cmd :=
  let one (o : Nat × Nat × Nat) : List Byte :=
    let pa := ((pas.find? (fun p => p.1 == o.1)).map (·.2)).getD 0
    leBytes 8 pa ++ offerBytes w (regBlock x.g o.1 (vOf y.sa) 16) (regBlock x.g o.1 (vOf y.sb) 4) o.2.2
  { newCmd s (groupIssuer s x.g) 7 ⟨0x2A1, n.net, 7, 0, 0, 0, 0, 0⟩ with shape := os.flatMap one, started := true, seq := n.net }

/-- The offers of an `rct` pass the access sampler as atomics of its core (R90, R286). -/
def sampleOffers (s : State) (x : Issue) (n : Network) (os : List (Nat × Nat × Nat)) : State :=
  match dispOf s x.g, groupPart s x.g with
  | some d, some p => os.foldl (fun s o => sampleCore s p d x.g.core (va57 (trainSlotAt n.desc o.2.1)) 2) s
  | _, _ => s

/-- `rct`: the results, then the group parks until its offers are performed. -/
def execRct (y : XWord) (s : State) :=
  issue (.rct y) s fun x s =>
    let s := markUnrec (drainGroup s x.g.id) x.g.id
    if 64 ≤ queueLen s x.g.core 7 then .park s (.queueRoom x.g.core 7)
    else
      queryOp x s y true fun s n w out os pas =>
        let bad := (x.act.filter (fun l => !goodTarget (regBlock x.g l (vOf y.sb) 3))).length
        let s := addPending (addPending (addPending s n.net 0 x.act.length) n.net 1 os.length) n.net 3 bad
        let c := offersCmd s x y n w os pas
        let s := sampleOffers s x n os
        let s := writeQuery x w (vOf y.dst) (os.map (·.1)) out s
        if os = [] then .done s []
        else .parkDone { s with cmds := s.cmds ++ [c], nextId := s.nextId + 1 } .offers

/-- One offer performed as an atomic replace at its slot (R288, R397). -/
def performOffer (s : State) (net : Nat) (p : Partition) (pa : Nat) (bs : List Byte) : State :=
  let ps := placesOf p pa 64
  let s := correctPlaces s ps
  let old := ps.map (rdPlace s)
  let target (b : List Byte) : Nat := qNum b 36 12
  let wins := qNum old 48 4 != qNum bs 48 4 || decide (qNum old 0 8 < qNum bs 0 8)
    || (qNum bs 0 8 == qNum old 0 8 && decide (target old < target bs))
  if badPlaces s ps then addPending (countUncorr s (homeDie p pa) (memLocs ps)) net 2 1
  else if wins then wrCoherent s (ps.zip bs) else addPending s net 2 1

/-- The offers of a command, 72 bytes each. (DEDUCED: log 44) -/
def performOffers (s : State) (c : Cmd) (p : Partition) : State :=
  (List.range (c.shape.length / 72)).foldl (fun s i =>
    let b := (c.shape.drop (72 * i)).take 72
    performOffer s c.seq p (qNum b 0 8) (b.drop 8)) s

/-- The offers of a group's `rct` performed, which completes (R286, R288). -/
def finishOffers (s : State) (c : Cmd) : State :=
  match findPart s c.part with
  | none => s
  | some p =>
    let s := modGroup (dropCmd (performOffers s c p) c.id) c.grp (fun g => { g with parkInfo := g.parkInfo.map (fun k => { k with dst := none }) })
    exitIfDone (releaseGroup s c.grp 0) c.grp

/-- RCT_OFFER: the offers of the group's `rct` are performed, and it completes (R286, R288). -/
def execRctOffer (grp : Nat) (s : State) :=
  event (fun s => match s.cmds.find? (fun c => c.grp == grp && c.opc == 0x2A1) with | none => s | some c => finishOffers s c) s

/-! ### `rc.sync` (R292) -/

def rcSyncCmd (s : State) (i : Issuer) (c : CmdSpec) : CRes :=
  issueCmd s i c fun s r => { newCmd s i c.qid c with bar := r, credit := 1, seq := fldN c.moda 3 2 }
def execRcSync (y : XWord) (s : State) := issue (.rcSync y) s fun x s => engineCmd x s y 0x2A2 false false rcSyncCmd

/-- An `rc.sync` fails: LASTERR, where the network is not another address space's, and ERR with the full credit. (DEDUCED: log 44) -/
def syncFail (s : State) (c : Cmd) (code : Nat) : State :=
  let n := network s c.seq
  let s := if n.state != 0 && !(n.part == c.part && n.asid == c.asid) then s else modNetwork s c.seq (fun n => { n with lasterr := code })
  failCmd s c [] ⟨0, code, 0, 0⟩

/-- Counters 0 to 3 committed at a close point (R293). -/
def commitCounters (n : Network) : Network :=
  { n with counters := n.pending.foldl (fun t e => Sparse.put 0 t e.1 (Sparse.get 0 t e.1 + e.2)) n.counters, pending := [] }

/-- The engine trains a network: the `rc.sync` that closes its window is in force and not saved (R283, R294). -/
def trains (s : State) (n : Network) : Bool := ((n.cmd.bind (findCmd s)).map (fun c => !c.saved)).getD false

/-- `rc.sync` reaches its close point, or fails; while an earlier one trains it waits, and while a saved one keeps the network CLOSING it fails
(R292). (DEDUCED: log 44) -/
def performSync (s : State) (c : Cmd) : State :=
  let n := network s c.seq
  match ownedNet s c.part c.asid c.seq with
  | none => syncFail s c 1
  | some n' =>
    if (n'.state = 2 ∧ trains s n') ∨ unitHeld s (nHome n.desc) .equinox then s
    else if n'.state != 1 ∨ n'.w = 2 ^ 32 - 1 then syncFail s c 2
    else if !sFinite c.b || !sLe 0 c.b then syncFail s c 3
    else if unitOff s (nHome n.desc) .equinox then syncFail s c 4
    else
      modNetwork (modCmd s c.id (fun k => { k with started := true })) c.seq (fun n =>
        { commitCounters n with state := 2, w := n.w + 1, cmd := some c.id, training := false, step := 0 })

/-- Queries that wait for a network's publication go on. -/
def wakeQueries (s : State) (net : Nat) : State :=
  { s with groups := s.groups.map (fun g => if g.state = .park ∧ g.wait = .query net then unparkGroup g else g) }

/-- A delivered fault leaves the network FAULTED; the queries that wait take the restored window as their stamp (R283, R295). -/
def faultNetwork (s : State) (net : Nat) : State :=
  let w := (network s net).w - 1
  let s := modNetwork s net (fun n => { n with state := 3, w := w, cmd := none, training := false, lasterr := 4 })
  wakeQueries { s with groups := s.groups.map (fun g =>
    if ((g.stamp).map (fun k => k / 2 ^ 32 == net)).getD false then { g with stamp := some (queryStamp net w) } else g) } net

/-! ### Training (R289 to R291) -/

/-- The `rc.sync` in force of a network, performed at its home die; none while a fault is held, its group is saved, or the die's Equinox engine is
under test (R399). -/
def trainCmd (s : State) (n : Network) : Option Cmd :=
  if n.state = 2 ∧ unitHeld s (nHome n.desc) .equinox = false then
    (n.cmd.bind (findCmd s)).bind (fun c =>
      if c.fault.isSome || c.saved then none
      else some { c with core := coreKey (nHome n.desc) 0 })
  else none

/-- An access of training stopped: held at the element, or the network is FAULTED. -/
def stopTrain (s : State) (c : Cmd) (net : Nat) (e : EngStop) : State :=
  let s' := stopCmd s c e []
  if (findCmd s' c.id).isSome then s' else faultNetwork s' net

/-- EQUINOX_TRAIN: every query stamped with the closed window has completed and every offer is performed, and training begins (R292). -/
def execEquinoxTrain (net : Nat) (s : State) :=
  event (fun s =>
    let n := network s net
    if (trainCmd s n).isNone || n.training || s.cmds.any (fun c => c.opc == 0x2A1 && c.seq == net) || stampedIn s net (n.w - 1) then s
    else modNetwork s net (fun n => { n with training := true })) s

/-- A filled slot as training reads it: position, the inputs that follow the grid's as R281 forms them, target. -/
structure Sample where
  pos : List Nat
  rest : List Nat
  target : List Nat
  deriving DecidableEq, Repr

def trainSample (b : List Byte) : Sample :=
  let x (i : Nat) : Nat := qNum b (20 + 2 * i) 2 * 65536
  ⟨(List.range 3).map (fun i => qNum b (8 + 4 * i) 4), (List.range 8).map (fun i => if i < 4 then x i else clamp01 (x i)),
   (List.range 3).map (fun i => qNum b (36 + 4 * i) 4)⟩

/-- The slots of a step that are filled for a window, in ascending order. (DEDUCED: log 44) -/
def readSamples (c : Cmd) (d : List Byte) (win : Nat) : Nat → Nat → State → List Sample → State × Except EngStop (List Sample)
  | 0, _, s, l => (s, .ok l)
  | n + 1, i, s, l =>
    match stepRead s c (va57 (trainSlotAt d i)) 64 with
    | (s, .error e) => (s, .error e)
    | (s, .ok b) => readSamples c d win n (i + 1) s (if qNum b 48 4 = win then l ++ [trainSample b] else l)

/-- The master features named by some keys: the 12 bytes of each, read once. -/
def readMasters (c : Cmd) (d : List Byte) : List Nat → State → List (Nat × List Byte) → State × Except EngStop (List (Nat × List Byte))
  | [], s, t => (s, .ok t)
  | k :: ks, s, t =>
    match stepRead s c (va57 (masterAt d k)) 12 with
    | (s, .error e) => (s, .error e)
    | (s, .ok b) => readMasters c d ks s (t ++ [(k, b)])

/-- The keys of the two features of a corner. -/
def featKeys (d : List Byte) (c : GridCorner) : List Nat := [2 * cornerKey d c, 2 * cornerKey d c + 1]

/-- A master feature as it would be published. -/
def pubFeat (t : List (Nat × List Byte)) (k : Nat) : FVal :=
  Fmt.f16.decode (roundV .f16 .rne (f32v (qNum (((t.find? (fun e => e.1 == k)).map (·.2)).getD []) 0 4)))

/-- One sample's gradients: of the MLP's parameters, and of the features by key in the order of R290. -/
def sampleGrads (d : List Byte) (p : List Nat) (t : List (Nat × List Byte)) (x : Sample) : List Nat × List (Nat × Nat) :=
  let cs := gridCorners d x.pos
  let fs : Feats := cs.map (fun c => (pubFeat t (2 * cornerKey d c), pubFeat t (2 * cornerKey d c + 1)))
  let v := (inputVec d cs fs []).take 32 ++ x.rest ++ List.replicate 24 0
  let (gs, gin) := backward (nH d) p (forward (nH d) p v) x.target
  (gs, cs.flatMap (fun c => [0, 1].map (fun i => (2 * cornerKey d c + i, sMul c.w (at3 gin (2 * c.level + i))))))

/-- What a step computes before anything is written: the gradient of each MLP parameter, and of each feature that takes part. -/
def stepGrads (d : List Byte) (p : List Nat) (t : List (Nat × List Byte)) (xs : List Sample) : List Nat × List (Nat × Nat) :=
  let gs := xs.map (sampleGrads d p t)
  let n := xs.length
  let mlp := (List.range (mlpCount (nH d))).map (fun i => meanGrad n (gs.map (fun g => at3 g.1 i)))
  let feats := (gs.flatMap (·.2)).foldl (fun t e => addContrib t e.1 e.2) []
  (mlp, feats.map (fun e => (e.1, meanGrad n e.2)))

/-- Adam on the MLP's parameters (R291). -/
def adamMlp (n : Network) (lr c1 c2 : Nat) (gs : List Nat) : Network :=
  let eps := qNum n.desc 16 4
  (gs.mapIdx (fun i g => (i, g))).foldl (fun n e =>
    let v (t : List (Nat × Word)) : Nat := (Sparse.get 0 t e.1).toNat
    let (th, m, w) := adam eps lr c1 c2 e.2 (v n.mlp) (v n.m1) (v n.m2)
    let put (t : List (Nat × Word)) (x : Nat) : List (Nat × Word) := Sparse.put 0 t e.1 (BitVec.ofNat 32 x)
    { n with mlp := put n.mlp th, m1 := put n.m1 m, m2 := put n.m2 w }) n

/-- A feature's 12 bytes after Adam. -/
def adamFeat (n : Network) (lr c1 c2 g : Nat) (b : List Byte) : List Byte :=
  let (th, m, v) := adam (qNum n.desc 16 4) lr c1 c2 g (qNum b 0 4) (qNum b 4 4) (qNum b 8 4)
  leBytes 4 th ++ leBytes 4 m ++ leBytes 4 v

/-- Every master that a step writes is translated before the first is written, so that a fault leaves the step undone. -/
def mastersReady (c : Cmd) (d : List Byte) : List Nat → State → State × Option EngStop
  | [], s => (s, none)
  | k :: ks, s =>
    match engCheck s c true (va57 (masterAt d k)) 12 with
    | (s, .error e) => (s, some e)
    | (s, .ok _) => mastersReady c d ks s

/-- (DEDUCED: log 44) -/
def bumpCounter (n : Network) (k : Nat) : Network := { n with counters := Sparse.put 0 n.counters k (Sparse.get 0 n.counters k + 1) }

/-- A step applied (R291). -/
def applyStep (s : State) (c : Cmd) (net : Nat) (t : List (Nat × List Byte)) (gs : List Nat × List (Nat × Nat)) : State :=
  let n := network s net
  let p1 := sMul n.p1.toNat beta1
  let p2 := sMul n.p2.toNat beta2
  let c1 := sSub 0x3F800000 p1
  let c2 := sSub 0x3F800000 p2
  let s := gs.2.foldl (fun s e =>
    let b := ((t.find? (fun m => m.1 == e.1)).map (·.2)).getD []
    (engWrite s c (.glob (va57 (masterAt n.desc e.1))) (adamFeat n c.b c1 c2 e.2 b)).1) s
  modNetwork s net (fun n =>
    bumpCounter { adamMlp n c.b c1 c2 gs.1 with t := n.t + 1, p1 := BitVec.ofNat 32 p1, p2 := BitVec.ofNat 32 p2, step := n.step + 1 } 4)

/-- The number of a window's steps (R289). -/
def stepCount (d : List Byte) : Nat := (nSlots d + nBatch d - 1) / max 1 (nBatch d)

/-- An uncorrectable word of a die's Equinox SRAM (R397). -/
def equinoxWord (die : Nat) (b : ArrayLoc) : Bool := match b with | .equinox d _ => d == die | _ => false
def badEquinox (s : State) (die : Nat) : Bool := s.badWords.any (equinoxWord die)

/-- A training step of a network from its slots on. -/
def trainStep (s : State) (c : Cmd) (n : Network) : State :=
  let d := n.desc
  if badEquinox s (nHome d) then stopTrain (countUncorr s (nHome d) (s.badWords.filter (equinoxWord (nHome d)))) c n.net (.fail kMEMERR 0 0 0) else
  let s := correctWhere s (equinoxWord (nHome d))
  let lo := n.step * nBatch d
  let next (s : State) (f : Network → Network) : State := modNetwork (endStep s c) n.net (fun n => { f n with step := n.step + 1 })
  let s := startStep s c n.step
  match readSamples c d (n.w - 1) (min (nBatch d) (nSlots d - lo)) lo s [] with
  | (s, .error e) => stopTrain s c n.net e
  | (s, .ok []) => next s id
  | (s, .ok xs) =>
    let ks := (xs.flatMap (fun x => (gridCorners d x.pos).flatMap (featKeys d))).eraseDups
    match readMasters c d ks s [] with
    | (s, .error e) => stopTrain s c n.net e
    | (s, .ok t) =>
      let p := pubForm (nH d) ((List.range (mlpCount (nH d))).map (fun i => (Sparse.get 0 n.mlp i).toNat))
      let gs := stepGrads d p t xs
      if !(gs.1.all sFinite && gs.2.all (fun e => sFinite e.2)) then next s (fun n => bumpCounter n 5)
      else
        match mastersReady c d (gs.2.map (·.1)) s with
        | (s, some e) => stopTrain s c n.net e
        | (s, none) => applyStep (endStep s c) c n.net t gs

/-- EQUINOX_STEP: one optimiser step. -/
def execEquinoxStep (net : Nat) (s : State) :=
  event (fun s =>
    let n := network s net
    match trainCmd s n with
    | none => s
    | some c => if !n.training || decide (stepCount n.desc ≤ n.step) then s else trainStep s c n) s

/-! ### Publication (R284) -/

/-- The published form of the MLP in every slab; words of a slab that are rewritten are good again (R397). -/
def publishMlp (s : State) (net v : Nat) : State :=
  let s := modNetwork s net (fun n =>
    let p := pubForm (nH n.desc) ((List.range (mlpCount (nH n.desc))).map (fun i => (Sparse.get 0 n.mlp i).toNat))
    { n with slab := Sparse.ofDense 0 0 (p.map (BitVec.ofNat 32)), published := v })
  { s with badWords := s.badWords.filter (fun b => match b with | .slab _ n _ => n != net | _ => true) }

/-- Entries of a table published from one on. -/
def publishTab (c : Cmd) (d : List Byte) (v : Nat) : Nat → Nat → State → State × Nat × Option EngStop
  | 0, i, s => (s, i, none)
  | n + 1, i, s =>
    match engRead s c (.glob (va57 (masterAt d (2 * i)))) 24 with
    | (s, .error e) => (s, i, some e)
    | (s, .ok b) =>
      let h (o : Nat) : List Byte := leBytes 2 (roundV .f16 .rne (f32v (qNum b o 4)))
      match engWrite s c (.glob (va57 (tabAt d v i))) (h 0 ++ h 12) with
      | (s, some e) => (s, i, some e)
      | (s, none) => publishTab c d v n (i + 1) s

/-- PUBLICATION: after the last step the version is published, the network is READY and `rc.sync` completes. -/
def execPublication (net : Nat) (s : State) :=
  event (fun s =>
    let n := network s net
    match trainCmd s n with
    | none => s
    | some c =>
      if !n.training || decide (n.step < stepCount n.desc) then s
      else
        match publishTab c n.desc (n.w - 1) (tabEntries n.desc - c.progress) c.progress s with
        | (s, i, some e) => stopTrain (modCmd s c.id (fun k => { k with progress := i })) c net e
        | (s, _, none) =>
          let s := modNetwork (publishMlp s net (n.w - 1)) net (fun n => { n with state := 1, cmd := none, training := false })
          wakeQueries (match findCmd s c.id with | some k => finishCmd s k | none => s) net) s

/-- The state of the engine and its next step written to STATEVA as its `rc.sync` is saved (R294; the layout is the model's, log 23). -/
def saveEquinox (s : State) (n : Network) : State :=
  match n.cmd.bind (findCmd s) with
  | none => s
  | some c =>
    let words (t : List (Nat × Word)) : List Byte := (Sparse.dense 0 t 0 (mlpCount (nH n.desc))).flatMap (fun w => leBytes 4 w.toNat)
    let bs := leBytes 4 n.step ++ leBytes 4 n.t ++ leBytes 4 n.p1.toNat ++ leBytes 4 n.p2.toNat ++ words n.mlp ++ words n.m1 ++ words n.m2
    (wrVa s (cmdCtx c) (va57 (qNum n.desc 136 8)) bs).getD s

/-! ### `rc.cfg` (R293) -/

/-- Bytes of slab of a network (R280). -/
def slabSize (h : Nat) : Nat := 8448 * h + 528

/-- The areas that a descriptor names: address, alignment and length (R278); an image that is absent is none. -/
def netAreas (d : List Byte) : List (Nat × Nat × Nat) :=
  let n := tabEntries d
  [(qNum d 96 8, 16, 4 * mlpCount (nH d))] ++ (if qNum d 104 8 = 0 then [] else [(qNum d 104 8, 16, 8 * n)])
    ++ [(qNum d 112 8, 256, 8 * n), (qNum d 120 8, 64, 64 * nSlots d), (qNum d 128 8, 256, 24 * n), (qNum d 136 8, 4096, 2 ^ 20)]

/-- A descriptor outside the limits of R278. -/
def netBad (s : State) (d : List Byte) : Bool :=
  let n := qNum d
  decide (nH d < 2) || decide (6 < nH d) || nLevels d == 0 || decide (16 < nLevels d) || decide (nTlog d < 10) || decide (19 < nTlog d)
  || decide (3 < nHome d) || ((findDie s (nHome d)).map (·.state)) != some .service || nSlots d == 0 || decide (65536 < nSlots d)
  || decide (65536 < n 8 4) || !((List.range 11).map (fun i => 2 ^ (6 + i))).contains (nBatch d)
  || !sFinite (n 16 4) || !sLt 0 (n 16 4) || n 20 12 != 0 || (List.range 3).any (fun i => !sFinite (n (32 + 4 * i) 4))
  || (List.range 3).any (fun i => !sFinite (n (44 + 4 * i) 4) || !sLt 0 (n (44 + 4 * i) 4))
  || (List.range 16).any (fun i => if i < nLevels d then nRes d i == 0 else nRes d i != 0)
  || n 144 112 != 0 || (netAreas d).any (fun a => a.1 % a.2.1 != 0)

/-- What `rc.cfg.attach` meets: a status, a fault of the replayable regime, or a migrating mapping. -/
inductive AttachStop where
  | code (n : Nat)
  | fault (cause va acc : Nat)
  | mig
  deriving DecidableEq, Repr

/-- (DEDUCED: log 44) -/
def attachStop (lease : Bool) (e : EngStop) : AttachStop :=
  match e with
  | .fault c va acc => if lease || c == 0 then .code 2 else .fault c va acc
  | .mig => .mig
  | .fail .. => .code 2

/-- Areas checked by `seg.glob`, lease, translation and reachability: images for reading, the others for writing. -/
def areasReady (i : Issuer) (c : Cmd) : List (Nat × Nat × Bool) → State → State × Option EngStop
  | [], s => (s, none)
  | (va, n, w) :: as_, s =>
    if (cmdGlobal i va n).isNone then (s, some (.fail kSEG 0 va 5))
    else
      match engCheck s c w (va57 va) n with
      | (s, .error e) => (s, some e)
      | (s, .ok _) => areasReady i c as_ s

/-- Master features and table entries of version 0 written from the image, with zero moments. -/
def initFeats (c : Cmd) (d img : List Byte) : Nat → Nat → State → State
  | 0, _, s => s
  | n + 1, k, s =>
    let f (i : Nat) : Nat := qNum img (8 * k + 4 * i) 4
    let h (i : Nat) : List Byte := leBytes 2 (roundV .f16 .rne (f32v (f i)))
    let s := (engWrite s c (.glob (va57 (masterAt d (2 * k)))) (leBytes 12 (f 0) ++ leBytes 12 (f 1))).1
    initFeats c d img n (k + 1) (engWrite s c (.glob (va57 (tabAt d 0 k))) (h 0 ++ h 1)).1

/-- The network attached (R283). (DEDUCED: log 44) -/
def attachNet (s : State) (c : Cmd) (net : Nat) (d wimg timg : List Byte) : State :=
  let s := { s with badWords := s.badWords.filter (fun b => match b with | .equinox k _ => k != nHome d | _ => true) }
  let s := initFeats c d timg (tabEntries d) 0 s
  let s := (List.range (nSlots d)).foldl (fun s i => (engWrite s c (.glob (va57 (trainSlotAt d i + 48))) (leBytes 4 0)).1) s
  let one : Word := 0x3F800000
  let ws := (List.range (mlpCount (nH d))).map (fun i => BitVec.ofNat 32 (qNum wimg (4 * i) 4))
  publishMlp (modNetwork s net (fun _ =>
    { networkReset net with state := 1, part := c.part, asid := c.asid, desc := d, w := 1, mlp := Sparse.ofDense 0 0 ws, p1 := one, p2 := one })) net 0

/-- `rc.cfg.attach` up to its status: every check comes before any effect. -/
def attachRun (s : State) (i : Issuer) (net va : Nat) (lease : Bool) : State × AttachStop :=
  let c := newCmd s i 7 ⟨0x2A3, 0, 7, 0, 0, 0, 0, 0⟩
  if (network s net).state = 2 then (s, .code 1)
  else if va % 256 != 0 || (cmdGlobal i va 256).isNone then (s, .code 2)
  else
    match engRead s c (.glob (va57 va)) 256 with
    | (s, .error e) => (s, attachStop lease e)
    | (s, .ok d) =>
      if netBad s d then (s, .code 2)
      else
        let n := if qNum d 104 8 = 0 then 1 else 2
        match areasReady i c ((netAreas d).mapIdx (fun k a => (a.1, a.2.2, decide (n ≤ k)))) s with
        | (s, some e) => (s, attachStop lease e)
        | (s, none) =>
          match engRead s c (.glob (va57 (qNum d 96 8))) (4 * mlpCount (nH d)) with
          | (s, .error e) => (s, attachStop lease e)
          | (s, .ok wimg) =>
            match if qNum d 104 8 = 0 then (s, .ok []) else engRead s c (.glob (va57 (qNum d 104 8))) (8 * tabEntries d) with
            | (s, .error e) => (s, attachStop lease e)
            | (s, .ok timg) =>
              let used := ((s.networks.filter (fun m => m.state != 0 && m.net != net)).map (fun m => slabSize (nH m.desc))).sum
              if 65536 < used + slabSize (nH d) then (s, .code 3)
              else if (network s net).state != 0 then (s, .code 4)
              else (attachNet s c net d wimg timg, .code 0)

/-- `rc.cfg.attach`. -/
def execRcCfgAttach (y : XWord) (s : State) :=
  issue (.rcCfgAttach y) s fun x s => groupWide x s fun s =>
    let s := drainGroup s x.g.id
    match attachRun s (groupIssuer s x.g) (xmod y 0 2) (rdA s x x.lead) (((dispOf s x.g).map leased).getD false) with
    | (s, .code n) => doneWith s x (n <<< 24)
    | (s, .mig) => .park s (.migration (asidOf s x.g))
    | (s, .fault c va acc) =>
      .gone (modGroup (raiseFault s x.g.id x.pc (asidOf s x.g) (BitVec.ofNat 64 va) c acc x.act 4) x.g.id
        (fun g => { g with parkInfo := some (parkInfoOf x) }))

/-- `rc.cfg.detach`: waits for every query in flight. -/
def execRcCfgDetach (y : XWord) (s : State) :=
  issue (.rcCfgDetach y) s fun x s => groupWide x s fun s =>
    let s := drainGroup s x.g.id
    let i := xmod y 0 2
    if (network s i).state = 2 then doneWith s x (1 <<< 24)
    else
      match ownedNet s (((dispOf s x.g).map (·.part)).getD 0) (asidOf s x.g) i with
      | none => doneWith s x (5 <<< 24)
      | some _ =>
        if queriesIn s i then .park s .again
        else doneWith (modNetwork s i (fun n => { networkReset i with lasterr := n.lasterr })) x 0

/-- A counter as `.stat` returns it. -/
def netCounter (n : Network) (k : Nat) : Nat :=
  min 0xFFFFFFFF (match k with | 6 => n.w | 7 => n.lasterr | k => Sparse.get 0 n.counters k)

/-- `rc.cfg.stat`. -/
def execRcCfgStat (y : XWord) (s : State) :=
  issue (.rcCfgStat y) s fun x s => groupWide x s fun s =>
    let k := rdB s x x.lead
    if 7 < k then .trap s { kind := kSEG, mask := x.act }
    else
      match ownedNet s (((dispOf s x.g).map (·.part)).getD 0) (asidOf s x.g) (xmod y 0 2) with
      | none => .trap s { kind := kSEG, cause := 3, mask := x.act }
      | some n => doneWith s x (netCounter n k)

end Sys2Proof.Machine
end

