-- ==== Sys2Proof/Machine/Retire.lean ====
section
/-! DEFINITION. The end of groups, teams, clusters and dispatches (R93, R100, R334, R349, R372, R376, R407). -/
namespace Sys2Proof.Machine

/-- A dirty line that cannot be written back as its team retires: its fault is reported through the fault queue (R100), as a record of the
fault that names no waiting request, and the event WBFAIL goes to SYSNQ (R386). (DEDUCED: log 30) -/
def wbFail (s : State) (t : Team) (va cause : Nat) : State :=
  let r : RecF := { kind := evWbFail, acc := 6, asid := ((findDisp s t.disp).map dispAsid).getD 0, daddr := BitVec.ofNat 64 va, team := t.teamid, disp := t.disp }
  let f : RecF := { r with kind := if cause = 0 then kREMERR else kXLATE, cause := cause, extra := BitVec.ofNat 64 s.nextTag }
  let src : RecSource := .unit (coreDie t.core) unitMap
  notify (postRec { s with nextTag := s.nextTag + 1 } .sysfq (coreDie t.core) src (recWords f s.clk)) (coreDie t.core) src r

/-- The dirty lines of a team's windows written back at its retirement, and `again` once its engine commands are over too: then a window that was
reported is not reported anew (R100). -/
def retireWindows (again : Bool) (s : State) (t : Team) : State :=
  t.windows.foldl (fun s w =>
    let fail (s : State) (va cause : Nat) : State :=
      if again && w.reported then s else modWindow (wbFail s t va cause) t.disp t.teamid w.name (fun w => { w with reported := true })
    (windowLines s t w 3).foldl (fun s l =>
      match writeBackWindow s t w l with
      | .ok s => s
      | .fault s c va => fail s va c
      | .mig s => s) s) s

/-- A dirty window line of a team lies in a page under migration: its write-back waits, and its team with it (R89, R100). -/
def linesMig (s : State) (t : Team) : Bool :=
  match findDisp s t.disp with
  | none => false
  | some d => t.windows.any (fun w => (windowLines s t w 3).any (fun l => vaMigs s (ctxOn d t.core) .write (windowVa w l) 1))

/-- A cluster whose groups have all retired and whose commands are complete, with no window line still to be written back. -/
def clusterOver (s : State) (disp clid : Nat) : Bool :=
  (clusterTeams s disp clid).all (fun t => teamDone t && !teamHolds s t && (t.frame.isSome || !linesMig s t))

/-- Clusters that are over leave the device with their teams and groups; lines that an engine command dirtied after the groups retired are
written back (R100). -/
def pruneClusters (s : State) : State :=
  let ended := (s.clusters.filter (fun c => (c.state == .running || c.state == .saving) && clusterOver s c.disp c.clid)).map (fun c => (c.disp, c.clid))
  if ended = [] then s
  else
    let s := (s.teams.filter (fun t => ended.contains (t.disp, t.clid))).foldl (retireWindows true) s
    let gone (disp teamid : Nat) : Bool := s.teams.any (fun t => t.disp == disp && t.teamid == teamid && ended.contains (t.disp, t.clid))
    { s with groups := s.groups.filter (fun g => !gone g.disp g.teamid),
             teams := s.teams.filter (fun t => !ended.contains (t.disp, t.clid)),
             clusters := s.clusters.filter (fun c => !ended.contains (c.disp, c.clid)) }

/-- GROUP_RETIRE (R334): a group in EXIT retires; with the last of its team the team's dirty windows are written back (R100). -/
def retireGroup (s : State) (gid : Nat) : State :=
  match findGroup s gid with
  | none => s
  | some g =>
    if g.state != .exit then s
    else
      let s := retireMember (setGroup s { g with state := .retired }) g
      match teamOf s g with
      | none => s
      | some t =>
        let s := if teamDone t then retireWindows false s t else s
        pruneClusters s
def execGroupRetire (grp : Nat) (s : State) := event (fun s => retireGroup s grp) s

/-- Records that a task dispatch still holds: in its ring and in its nodes, which count those in release (R349, R356). -/
def liveRecords (s : State) (d : Dispatch) : Nat :=
  match readQueue s d (partDie s d.part) with
  | (_, some q) =>
    qUsed q + ((List.range 7).map (fun i => nodeHeld q (i + 1))).sum
  | (_, none) => 0

/-- Tasks delivered and not yet done. -/
def liveTasks (s : State) (d : Dispatch) : Nat := (s.groups.filter (fun g => g.disp == d.id && g.task.isSome)).length

/-- The `launch` that submitted a dispatch is saved and names a local barrier: its credit waits for the team (R123). (DEDUCED: log 48) -/
def launcherSaved (s : State) (d : Dispatch) : Bool :=
  match d.sub with
  | .launch c => ((findCmd s c).map (fun k => k.saved && (match k.bar with | .loc _ _ _ => true | _ => false))).getD false
  | .host _ => false

/-- A dispatch has ended: every cluster launched, no group left, and for a task dispatch no record left (R349). (DEDUCED: log 48) -/
def dispatchOver (s : State) (d : Dispatch) : Bool :=
  !launcherSaved s d && d.state == .running && decide (dispNcl d * dispClsize d ≤ d.nextTeam) && !s.clusters.any (fun c => c.disp == d.id)
    && !s.cmds.any (fun c => c.disp == d.id)

/-- What the end of a dispatch frees: its sessions (R264), the tapes of an address space without another dispatch (R372), and what it
pre-empted, which the scheduler resumes (R407). (DEDUCED: log 45) -/
def freeDispatch (s : State) (d : Dispatch) : State :=
  let free (x : Session) : Session := if x.state != 0 && x.owner == d.id then { sessionReset x.sid with counters := x.counters } else x
  let s := { s with dispatches := s.dispatches.filter (fun e => e.id != d.id), sessions := s.sessions.map free }
  let s : State := if s.dispatches.any (fun e => dispAsid e == dispAsid d) then s
    else { s with dies := s.dies.map (fun y => { y with tapes := y.tapes.filter (fun t => !(t.asid == dispAsid d && t.state != .playing)) }) }
  { s with dispatches := s.dispatches.map (fun e => if e.preemptFor = d.id then { e with preempt := if e.preempt = 2 then 0 else e.preempt, preemptFor := 0 } else e) }

/-- The translation context of a host queue (R405). -/
def queueCtx (s : State) (h : HostQueue) : XCtx :=
  let asid := qNum h.desc 10 2 % 4096
  ⟨h.part, asid, (readDescriptor s (partDie s h.part) asid).getD [], partDie s h.part, none⟩

/-- A signal word stored as a release (R407); an address that does not translate is posted as REFUSED (log 22). -/
def storeSignal (s : State) (q entry : Nat) (sig : Nat × DWord) : State :=
  match s.hostQueues.find? (fun h => h.id == q) with
  | none => s
  | some h =>
    if sig.1 = 0 then s
    else
      match wrVa s (queueCtx s h) (va57 sig.1) (leBytes 8 sig.2.toNat) with
      | some s => s
      | none => postRefused s h.part (.host q) entry 0

/-- A host queue's entry ends with a signal: one whose address lies in a page under migration is stored when it does so no longer, and the
entry ends then (R89, R407). -/
def finishEntry (s : State) (q entry : Nat) (sig : Nat × DWord) : State :=
  match s.hostQueues.find? (fun h => h.id == q) with
  | none => s
  | some h =>
    if sig.1 != 0 && vaMigs s (queueCtx s h) .write (va57 sig.1) 8 then
      modQueue s q (fun k => { k with signals := k.signals ++ [(entry, va57 sig.1, sig.2.toNat, 2)] })
    else doneEntry (storeSignal s q entry sig) q entry

/-- The end reported to the submitter: the signal of a host queue's entry, or the credit of a `launch` (R358, R376, R407). -/
def reportEnd (s : State) (d : Dispatch) : State :=
  match d.sub with
  | .host q => finishEntry s q d.entry d.signal
  | .launch c => match findCmd s c with | some k => finishCmd s k | none => s

/-- DISPATCH_END. -/
def endDispatch (s : State) (disp : Nat) : State :=
  match findDisp s disp with
  | none => s
  | some d => if dispatchOver s d then reportEnd (freeDispatch s d) d else s
def execDispatchEnd (disp : Nat) (s : State) := event (fun s => endDispatch (pruneClusters s) disp) s

end Sys2Proof.Machine
end

