-- ==== Sys2Proof/Machine/Tape.lean ====
section
/-! DEFINITION. Tapes: recording, patching, and replay by a group or by a host queue (R360 to R373). -/
namespace Sys2Proof.Machine

/-! ### Tapes by handle -/

/-- A tape as an address space sees it; for any other it is absent (R360). (DEDUCED: log 45) -/
def ownTape (s : State) (asid h : Nat) : Option Tape := (findTape s h).filter (fun t => t.asid == asid)

/-- The lowest index of a die that no tape uses. -/
def freeHandle (d : Die) : Option Nat := ((List.range 256).map (256 * d.num + ·)).find? (fun h => !d.tapes.any (fun t => t.handle == h))

def guardUnits (t : Tape) : List TapeUnit := t.units.filter (fun u => unitKind u == 3)

/-- An uncorrectable unit of a tape (R397), numbered by its tape and its index. -/
def badUnit (s : State) (h n : Nat) : Bool := s.badWords.contains (.tape (tapeDie h) (h * 2 ^ 18 + n))

/-- The group's own read of a table in memory: its alignment, then the checks of a global load. -/
def tableBytes (x : Issue) (s : State) (va align n : Nat) : Except IRes (State × List Byte) :=
  if va % align != 0 then .error (raiseErr s x 1 (asidOf s x.g) ⟨kALIGN, 0, va⟩ x.act)
  else
    match arenaRead s x.g va n with
    | (s, .ok bs) => .ok (keepFloor x.g s, bs)
    | (s, .error (.err e _)) => .error (raiseErr s x 1 (asidOf s x.g) e x.act)
    | (s, .error _) => .error (.park s (.migration (asidOf s x.g)))

def numsOf (k : Nat) (bs : List Byte) : List DWord := (List.range (bs.length / k)).map (fun i => BitVec.ofNat 64 (qNum bs (k * i) k))

/-- The frame of the tape instructions: group-wide, after the group's earlier accesses; a die unit under test holds them (R399). (DEDUCED: log 45) -/
def tapeOp (x : Issue) (s : State) (die : Nat) (body : State → IRes) : IRes :=
  groupWide x s fun s => if unitHeld s die .tape then .park s .again else body (drainGroup s x.g.id)

/-! ### `tape.rec` and `tape.stop` (R362, R365) -/

/-- `tape.rec`. (DEDUCED: log 45) -/
def execTapeRec (y : XWord) (s : State) :=
  issue (.tapeRec y) s fun x s => tapeOp x s (dieOf x.g) fun s =>
    match x.g.tape, findDie s (dieOf x.g) with
    | .recording _, _ => doneWith s x (1 <<< 28)
    | _, none => doneWith s x (2 <<< 28)
    | _, some d =>
      match freeHandle d with
      | none => doneWith s x (2 <<< 28)
      | some h =>
        if unitOff s d.num .tape || decide (tapeStore < tapeUsed d + 10) then doneWith s x (2 <<< 28)
        else
          match tableBytes x s (rdA s x x.lead) 8 256 with
          | .error r => r
          | .ok (s, bs) =>
            let t : Tape := ⟨h, ((dispOf s x.g).map (·.part)).getD 0, asidOf s x.g, .recording, false, false, numsOf 8 bs, [], []⟩
            let s := modDie s d.num (fun d => { d with tapes := d.tapes ++ [t] })
            doneWith (modGroup s x.g.id (fun g => { g with tape := .recording h })) x h

/-- `tape.stop`. -/
def execTapeStop (f : FWord) (s : State) :=
  issue (.tapeStop f) s fun x s => tapeOp x s (dieOf x.g) fun s =>
    match (findGroup s x.g.id).map Group.tape with
    | some (.recording h) =>
      let s := modGroup s x.g.id (fun g => { g with tape := .none })
      match findTape s h with
      | none => doneWith s x (1 <<< 28)
      | some t =>
        if t.full then doneWith (freeTape s h) x (2 <<< 28)
        else if t.unrec then doneWith (freeTape s h) x (3 <<< 28)
        else doneWith (modTape s h (fun t => { t with state := .ready })) x t.units.length
    | _ => doneWith s x (1 <<< 28)

/-! ### Guards (R365, R367) -/

/-- ALIGN and SEG of a guard's address, by its kind (R365). -/
def guardAddr (kind a : Nat) : Option LaneErr :=
  match kind with
  | 0 => if a % 8 != 0 then some ⟨kALIGN, 0, a⟩ else if !canonical a then some ⟨kSEG, 0, a⟩ else none
  | 1 => if a % 64 != 0 then some ⟨kALIGN, 0, a⟩ else if 2 ^ 32 ≤ a then some ⟨kSEG, 0, a⟩ else none
  | 2 => if !canonical a then some ⟨kSEG, 0, a⟩ else none
  | _ => none

/-- What an evaluation of a guard meets instead of a value. -/
inductive GuardStop where
  | err (e : LaneErr)
  | wait
  | noLocal
  deriving DecidableEq, Repr

/-- A guard's read of global memory: SEG, LEASE, translation, REMERR and MEMERR in turn. -/
def guardRead (s : State) (i : Issuer) (va n : Nat) : State × Except GuardStop (List Byte) :=
  match cmdGlobal i va n, findPart s i.x.part with
  | some a, some p =>
    if !issuerLeases s i a n then (s, .error (.err ⟨kLEASE, 0, va⟩))
    else
      match xlateRun s i.x .read a n with
      | (s, .error (f, .fault c)) => (s, .error (.err ⟨kXLATE, c, f⟩))
      | (s, .error (f, .rem)) => (s, .error (.err ⟨kREMERR, 0, f⟩))
      | (s, .error _) => (s, .error .wait)
      | (s, .ok t) =>
        let ps := placesVia p t a n
        let s := settleSlots s p (blocksVia t a n)
        let (lost, s) := runLost s p i.x.die t a n
        if lost then (s, .error (.err ⟨kREMERR, 0, va⟩))
        else if badPlaces s ps then (noteBad s (memLocs ps), .error (.err ⟨kMEMERR, 0, va⟩))
        else (correctPlaces s ps, .ok (ps.map (rdPlace s)))
  | _, _ => (s, .error (.err ⟨kSEG, 0, va⟩))

def rotl64 (x k : Nat) : Nat := (x * 2 ^ k + x / 2 ^ (64 - k)) % 2 ^ 64

/-- The checksum of a shape record (R367). -/
def shapeSum (bs : List Byte) : Nat := (List.range 8).foldl (fun c i => rotl64 c 7 ^^^ qNum bs (8 * i) 8) 0

/-- The geometry word without VGRID (R367). -/
def geomWord (s : State) (part : Nat) : Nat :=
  match findPart s part with
  | some p => partCores s p % 2 ^ 16 + (maskOf p.dies % 16) * 2 ^ 16
  | none => 0

/-- The epoch of an address's region, read from the array of its address space with the checks of R54 and R397 (R86, R367). -/
def epochRead (s : State) (i : Issuer) (a : Nat) : State × Except GuardStop Nat :=
  match (if epochsCut s i.x.die i.x.asid [] then none else some (epochsOf s i.x.die i.x.asid)) with
  | none => (s, .error (.err ⟨kREMERR, 0, a⟩))
  | some none => (s, .ok 0)
  | some (some b) =>
    let pa := b + 4 * fldN a 37 8
    match ringPart s b with
    | none => (s, .error (.err ⟨kREMERR, 0, a⟩))
    | some p =>
      let s := settleSlots s p [pa]
      if !reachable s p i.x.die pa then (s, .error (.err ⟨kREMERR, 0, a⟩))
      else if badPlaces s (placesOf p pa 4) then (noteBad s (memLocs (placesOf p pa 4)), .error (.err ⟨kMEMERR, 0, a⟩))
      else (correctPlaces s (placesOf p pa 4), .ok (rdPaNum s p pa 4))

/-- The value that a guard compares, as a capture or an evaluation takes it. -/
def guardValue (s : State) (i : Issuer) (kind a : Nat) : State × Except GuardStop Nat :=
  match kind with
  | 0 => (match guardRead s i a 8 with | (s, .ok b) => (s, .ok (ofLeBytes b)) | (s, .error e) => (s, .error e))
  | 1 =>
    (match readShape s i a 1 with
    | .ok (s, b) => (s, .ok (shapeSum b))
    | .error (.err s _ e) => (s, .error (.err e))
    | .error (.noLocal s) => (s, .error .noLocal)
    | .error (.wait s _) => (s, .error .wait)
    | .error _ => (s, .error .wait))
  | 2 => epochRead s i a
  | _ =>
    let g := geomWord s i.x.part
    if a = 0 then (s, .ok g)
    else match guardRead s i (a + 36) 4 with | (s, .ok b) => (s, .ok (g + ofLeBytes b * 2 ^ 32)) | (s, .error e) => (s, .error e)

/-! ### `tape.patch` and `tape.drop` (R365) -/

/-- The frame of `tape.patch` and `tape.drop`: NOTAPE, then BUSY in the states named. -/
def withTape (x : Issue) (s : State) (h : Nat) (busy : TState → Bool) (k : Tape → IRes) : IRes :=
  match (if unitOff s (tapeDie h) .tape then none else ownTape s (asidOf s x.g) h) with
  | none => doneWith s x (1 <<< 28)
  | some t => if busy t.state then doneWith s x (2 <<< 28) else k t

/-- `tape.patch.slot`. -/
def execTapePatchSlot (y : XWord) (s : State) :=
  issue (.tapePatchSlot y) s fun x s =>
    let h := rdA s x x.lead
    tapeOp x s (tapeDie h) fun s =>
      let n := rdC s x x.lead
      if 31 < n then .trap s { kind := kSEG, mask := x.act, daddr := BitVec.ofNat 64 n }
      else withTape x s h (· != .ready) fun t =>
        doneWith (modTape s t.handle (fun t => { t with slots := updAt n (fun _ => BitVec.ofNat 64 (rdB s x x.lead)) t.slots })) x 0

/-- A guard entry (R361). -/
def guardUnit (kind sticky gidx a v : Nat) : TapeUnit :=
  BitVec.ofNat 256 (3 + (kind + 4 * sticky) * 2 ^ 8 + gidx * 2 ^ 16 + a * 2 ^ 128 + v * 2 ^ 192)

/-- A guard inserted before the unit at POS: FULL and BADPOS, then its index among the guards inserted. -/
def insertGuard (x : Issue) (s : State) (y : XWord) (t : Tape) (v : Nat) : IRes :=
  let pos := xtail y 2 18
  let n := (guardUnits t).length
  if 64 ≤ n ∨ tapeStore < ((findDie s (tapeDie t.handle)).map tapeUsed).getD tapeStore + 1 then doneWith s x (3 <<< 28)
  else if t.units.length < pos ∨ (t.units[pos]?.map unitKind) = some 2 then doneWith s x (4 <<< 28)
  else
    let u := guardUnit (xmod y 1 2) (xmod y 3 1) n (rdB s x x.lead) v
    doneWith (modTape s t.handle (fun t => { t with units := t.units.take pos ++ u :: t.units.drop pos })) x n

/-- `tape.patch` of a guard. -/
def execTapePatchGuard (y : XWord) (s : State) :=
  issue (.tapePatchGuard y) s fun x s =>
    let h := rdA s x x.lead
    tapeOp x s (tapeDie h) fun s =>
      let a := rdB s x x.lead
      let kind := xmod y 1 2
      match guardAddr kind a with
      | some e => raiseErr s x 0 (asidOf s x.g) e x.act
      | none => withTape x s h (· != .ready) fun t =>
        if xmod y 4 1 = 0 then insertGuard x s y t (rdC s x x.lead)
        else
          match guardValue s (groupIssuer s x.g) kind a with
          | (s, .ok v) => insertGuard x s y t v
          | (s, .error (.err e)) => raiseErr s x 1 (asidOf s x.g) e x.act
          | (s, .error _) => .park s .again

/-- `tape.drop`. -/
def execTapeDrop (y : XWord) (s : State) :=
  issue (.tapeDrop y) s fun x s =>
    let h := rdA s x x.lead
    tapeOp x s (tapeDie h) fun s =>
      withTape x s h (fun st => st == .recording || st == .playing) fun t => doneWith (freeTape s t.handle) x 0

/-! ### Replay (R363, R366 to R371) -/

/-- How a replay stopped (R368). -/
structure ReplayStop where
  code : Nat
  cause : Nat
  gidx : Nat := 0
  daddr : Nat := 0
  acc : Nat := 0
  sticky : Bool := false
  deriving DecidableEq, Repr

/-- What a unit of a replay gives. -/
inductive URes where
  | next (s : State)
  /-- waits, and is tried again -/
  | hold (s : State)
  | fault (s : State) (cause va acc : Nat)
  | stop (s : State) (x : ReplayStop)

/-- CAUSE of R368 for a kind; a kind that the table does not list gets a free value (log 24). -/
def stopCause (s : State) (k : Nat) : Nat × State :=
  match k with
  | 5 => (2, s) | 3 => (3, s) | 4 => (4, s) | 6 => (5, s) | 15 => (6, s) | 7 => (7, s) | 8 => (9, s)
  | _ => let (v, s) := drawFree s; (v % 16, s)

/-- A translation fault of a replay: held, or under a lease the end of it (R369). -/
def replayFault (s : State) (i : Issuer) (cause va acc : Nat) : URes :=
  match i.host, findDisp s i.g.disp with
  | none, some d => if leased d then .stop s ⟨2, 2, 0, va, acc, false⟩ else .fault s cause va acc
  | _, _ => .fault s cause va acc

/-- An error of a unit's checks; an access is concerned where the kind has a data address (R385), and UNCORR counts an uncorrectable word
(R398). -/
def replayErr (s : State) (i : Issuer) (acc : Nat) (e : LaneErr) : URes :=
  if e.kind = kXLATE then replayFault s i e.cause e.daddr acc
  else
    let (c, s) := stopCause (if e.kind = kMEMERR ∧ e.cause ≠ 1 then countUncorr s (dieOf i.g) [] else s) e.kind
    if hasDaddr e.kind then .stop s ⟨2, c, 0, e.daddr, acc, false⟩ else .stop s ⟨2, c, 0, 0, 0, false⟩

/-- A guard evaluated, its read an acquire (R367). -/
def replayGuard (s : State) (i : Issuer) (u : TapeUnit) : URes :=
  let kind := fldN (unitNum u 1 1) 0 2
  let a := unitNum u 16 8
  let v := unitNum u 24 8
  match guardAddr kind a, guardValue (acquireNow s i.g.id) i kind a with
  | some e, (s, _) => replayErr s i 1 e
  | none, (s, .error (.err e)) => replayErr s i 1 e
  | none, (s, .error .wait) => .hold s
  | none, (s, .error .noLocal) => .stop s ⟨2, 8, 0, 0, 0, false⟩
  | none, (s, .ok w) =>
    if w == (if kind = 2 then v % 2 ^ 32 else v) then .next s
    else .stop s ⟨1, 1, unitNum u 2 2, a, 0, (unitNum u 1 1).testBit 2⟩

/-- The words of a command's three sources (R361), from the shape of its instruction. -/
def unitWords (opc moda : Nat) : Nat × Nat × Nat :=
  match xOfOpcode opc ⟨BitVec.ofNat 12 moda, 0, .imm 0, .imm 0, .imm 0, .imm 0, 0⟩ with
  | some i => let g := sigOf i; (useWords g.sa, useWords g.sb, useWords g.sc)
  | none => (2, 2, 2)

/-- A command entry with its tagged operands resolved (R363). -/
def unitSpec (slots : List DWord) (u : TapeUnit) (ext : Option TapeUnit) : CmdSpec :=
  let opc := unitNum u 2 2 % 1024
  let moda := unitNum u 4 2 % 4096
  let tags := [unitNum u 6 1, unitNum u 7 1]
  let (wa, wb, wc) := unitWords opc moda
  let vc := match ext with | some e => if (unitNum u 1 1).testBit 4 then unitNum e 16 8 else unitNum u 12 4 | none => unitNum u 12 4
  let imm := tagLoad slots tags 3 32 (unitNum u 8 4)
  { opc := opc, moda := moda, qid := fldN (unitNum u 1 1) 0 4, imm := imm, len := imm, a := tagLoad slots tags 0 (32 * wa) (unitNum u 16 8),
    b := tagLoad slots tags 1 (32 * wb) (unitNum u 24 8), c := tagLoad slots tags 2 (32 * wc) vc }

/-- A replayed `qfence`: its failed commands count toward the player's next live `qfence.c` (R377). A replay by a host queue has no group to
hold a `qfence`, and waits instead. (DEDUCED: log 31) -/
def replayQfence (s : State) (i : Issuer) (c : CmdSpec) : CRes :=
  match qfenceCmd s i (if i.host.isSome then { c with moda := c.moda ||| 1 } else c) with
  | .ok s v => .ok (modGroup s i.g.id (fun g => { g with failed := i.g.failed })) v
  | r => r

/-- A recordable command issued from its values (R362). -/
def tapeCommand (s : State) (i : Issuer) (c : CmdSpec) : CRes :=
  if isCtl c.opc && ctlBusy s i.g.id && !(c.opc == 0x228 && !c.moda.testBit 0) then .wait s .again
  else
    match c.opc with
    | 0x200 | 0x201 | 0x202 | 0x203 | 0x204 | 0x205 => copyCmd s i c
    | 0x208 => collCmd s i c
    | 0x210 => barInit s i c
    | 0x211 => barArrive s i c
    | 0x212 => barExpect s i c
    | 0x213 => barWait s i c
    | 0x215 => barInval s i c
    | 0x228 => replayQfence s i c
    | 0x290 => diceCmd s i c
    | 0x291 => emitCmd s i c
    | 0x298 => beginCmd s i c
    | 0x299 => endCmd s i c
    | 0x29A => resCmd s i c
    | 0x2A2 => rcSyncCmd s i c
    | 0x2C0 => launchCmd s i c
    | _ => .ok s 0

/-- The address operands of a command whose first bytes a replay translates, and how the command accesses them (R369); the barrier's own
translation is one of its checks. -/
def unitAddrs (c : CmdSpec) : List (Nat × Bool) :=
  match c.opc with
  | 0x200 | 0x204 => [(c.b, false)]
  | 0x201 | 0x205 | 0x29A => [(c.a, true)]
  | 0x202 | 0x208 | 0x290 => [(c.a, true), (c.b, false)]
  | 0x291 | 0x298 | 0x2C0 => [(c.a, false)]
  | _ => []

/-- Those translations in order. -/
def xlateFirst (i : Issuer) : List (Nat × Bool) → State → Except URes State
  | [], s => .ok s
  | (a, w) :: t, s =>
    match translate s i.x (va57 a) (if w then .write else .read) with
    | (s, .ok _) => xlateFirst i t s
    | (s, .mig) => .error (.hold s)
    | (s, .rem) => .error (replayErr s i (if w then 6 else 5) ⟨kREMERR, 0, a⟩)
    | (s, .fault c) => .error (replayFault s i c a (if w then 6 else 5))

/-- A barrier's address as a replay keeps its token (R366). -/
def tokenKey (c : CmdSpec) : Nat := (c.moda % 4) * 2 ^ 64 + c.a
def tokenOf (t : Tape) (c : CmdSpec) : Option Nat := (t.tokens.find? (fun e => e.1 == tokenKey c)).map (·.2)

/-- The PHASE that a barrier command reads; `bar.init` leaves 0 (R103). -/
def phaseRead (s : State) (i : Issuer) (c : CmdSpec) : Nat :=
  if c.opc = 0x210 then 0
  else match resolveBar s i (c.moda % 4) c.a 3 false false with | .ok s r => (barOfBits (barRead s r)).phase | .stop _ => 0

/-- The command issued; `bar.arrive`, `bar.expect` and `bar.init` keep a token. (DEDUCED: log 45) -/
def replayIssue (s : State) (i : Issuer) (h : Nat) (c : CmdSpec) : URes :=
  let tok := phaseRead s i c
  match tapeCommand s i c with
  | .ok s _ | .gone s =>
    .next (if [0x210, 0x211, 0x212].contains c.opc then
      modTape s h (fun t => { t with tokens := (tokenKey c, tok) :: t.tokens.filter (fun e => e.1 != tokenKey c) }) else s)
  | .err s a e => replayErr s i a e
  | .noLocal s => .stop s ⟨2, 8, 0, 0, 0, false⟩
  | .wait _ _ | .held _ _ => .hold s

/-- A command unit (R369): its own issue checks, then the translation of its address operands, then its issue. -/
def replayCommand (s : State) (i : Issuer) (t : Tape) (slots : List DWord) (u : TapeUnit) (ext : Option TapeUnit) : URes :=
  let c := unitSpec slots u ext
  let c := if c.opc = 0x213 then { c with b := (tokenOf t c).getD c.b } else c
  match tapeCommand s i c with
  | .ok _ _ | .gone _ => (match xlateFirst i (unitAddrs c) s with | .ok s => replayIssue s i t.handle c | .error r => r)
  | _ => replayIssue s i t.handle c

/-- The player as it stands. -/
def playerNow (s : State) (i : Issuer) : Issuer :=
  match i.host with
  | some _ => i
  | none => ((findGroup s i.g.id).map (groupIssuer s)).getD i

/-- A unit on which a replay holds until it is satisfied: `bar.wait`, and `qfence` with C (R366). -/
def unitHolds (u : TapeUnit) : Bool :=
  let opc := unitNum u 2 2 % 1024
  unitKind u == 1 && (opc == 0x213 || (opc == 0x228 && (unitNum u 4 2).testBit 0))

/-- The player's cluster is to be saved; a task goes on to its end (R351, R371). -/
def playSaving (s : State) (g : Group) : Bool :=
  g.task.isNone && (((teamOf s g).bind (fun t => findCluster s g.disp t.clid)).map (fun c => c.state == .saving)).getD false

/-- Units performed in order from an index on: the index reached, and what stopped the replay there. `held` says that the replay holds on the
first of them; where a save is requested the replay stops at the next boundary after it (R371). (DEDUCED: log 45) -/
def replayRun (h : Nat) (slots : List DWord) : Bool → List TapeUnit → Nat → Issuer → State → State × Nat × Option URes
  | _, [], n, _, s => (s, n, none)
  | held, u :: us, n, i, s =>
    if unitKind u = 2 then replayRun h slots held us (n + 1) i s
    else if playSaving s i.g && !held then (s, n, some (.hold s))
    else
      let i := playerNow s i
      let r : URes := match findTape s h with
        | some t =>
          if badUnit s h n then .stop (countUncorr s (tapeDie h) [.tape (tapeDie h) (h * 2 ^ 18 + n)]) ⟨2, 7, 0, 0, 0, false⟩
          else
            let s := correctWord s (.tape (tapeDie h) (h * 2 ^ 18 + n))
            if unitKind u = 3 then replayGuard s i u else replayCommand s i t slots u us.head?
        | none => .stop s ⟨2, 7, 0, 0, 0, false⟩
      match r with
      | .next s => replayRun h slots false us (n + 1) i s
      | .hold s => (s, n, some (.hold s))
      | .fault s c va a => (s, n, some (.fault s c va a))
      | .stop s x => (s, n, some (.stop s x))

/-- The status of a replay that stopped (R368). -/
def replayStatus (n : Nat) (x : ReplayStop) : Nat := x.code * 2 ^ 28 + (n % 2 ^ 18) * 2 ^ 10 + (x.gidx % 64) * 16 + x.cause

/-- The record of a replay that stopped (R368). (DEDUCED: log 45) -/
def tapeFaultRec (h n : Nat) (x : ReplayStop) (asid : Nat) : RecF :=
  { kind := evTapeFault, cause := x.cause, acc := x.acc, asid := if x.acc = 0 then 0 else asid, daddr := if x.cause = 8 then 0 else BitVec.ofNat 64 x.daddr,
    extra := BitVec.ofNat 64 (h % 1024 + (x.gidx % 64) * 2 ^ 10 + x.code * 2 ^ 16 + (n % 2 ^ 18) * 2 ^ 32) }

/-- The tape after a replay: READY, or INVALID where a sticky guard failed. -/
def afterReplay (s : State) (h : Nat) (sticky : Bool) : State := modTape s h (fun t => { t with state := if sticky then .invalid else .ready, tokens := [] })

/-- The host queue from which a dispatch descends: its own, or its launcher's (R368). -/
def hostOf (s : State) : Nat → Nat → Option Nat
  | 0, _ => none
  | n + 1, disp =>
    match (findDisp s disp).map Dispatch.sub with
    | some (.host q) => some q
    | some (.launch c) => (findCmd s c).bind (fun k => if k.disp = 0 then some k.teamid else hostOf s n k.disp)
    | none => none

/-- (DEDUCED: log 45) -/
def playerQueue (s : State) (g : Group) : PostQueue := match hostOf s (s.dispatches.length + 1) g.disp with | some q => .host q | none => .sysnq

/-- `tape.play` returns its status. -/
def endPlay (s : State) (gid h val : Nat) (sticky : Bool) : State :=
  let s := afterReplay s h sticky
  let s := modGroup s gid (fun g => { g with tape := match g.tape with | .playing _ _ _ (some r) => .recording r | _ => .none })
  exitIfDone (releaseGroup s gid val) gid

/-- A group's replay stopped: the status and a record in the player's notification queue. -/
def stopPlay (s : State) (gid h n : Nat) (x : ReplayStop) : State :=
  match findGroup s gid with
  | none => s
  | some g =>
    let pc := (g.parkInfo.map (fun k => ((lanesIn g k.served).map (pcvOf g)).headD 0)).getD 0
    let r := { tapeFaultRec h n x (asidOf s g) with taddr := pc, raddr := (g.task.map (·.tidx)).getD 0, team := g.teamid, disp := g.disp }
    endPlay (postRec s (playerQueue s g) (dieOf g) (.group gid) (recWords r s.clk)) gid h (replayStatus n x) x.sticky

/-- The replay holds on the unit at which it waits (R371). -/
def playHeld (g : Group) : Bool := match g.wait with | .tape _ held => held | _ => false

/-- The replay of a group waits at a unit; it holds on it where its command was tried and is to be satisfied first. -/
def playAt (s : State) (gid h n : Nat) (slots : List DWord) (was : Option Nat) (held : Bool) : State :=
  modGroup s gid (fun g => { g with wait := .tape h held, tape := .playing h n slots was })

/-- A parked group's replay goes on from its next unit; a tape that its die's reset discarded stops it. (DEDUCED: log 45) -/
def playGroup (s : State) (gid : Nat) : State :=
  match findGroup s gid with
  | none => s
  | some g =>
    match g.tape with
    | .playing h n slots was =>
      let units := ((findTape s h).map (·.units)).getD []
      if (findTape s h).isNone then stopPlay s gid h n ⟨2, 7, 0, 0, 0, false⟩ else
      match replayRun h slots (playHeld g) (units.drop n) n (groupIssuer s g) s with
      | (s, _, none) | (s, _, some (.next _)) => endPlay s gid h 0 false
      | (s, m, some (.hold _)) =>
        playAt s gid h m slots was (if playSaving s g then playHeld g && m == n else ((units[m]?).map unitHolds).getD false)
      | (s, n, some (.stop _ x)) => stopPlay s gid h n x
      | (s, n, some (.fault _ c va a)) =>
        let pc := (g.parkInfo.map (fun k => ((lanesIn g k.served).map (pcvOf g)).headD 0)).getD 0
        let lanes := (g.parkInfo.map (fun k => lanesIn g k.active)).getD []
        let s := raiseFault (playAt s gid h n slots was false) gid pc (asidOf s g) (BitVec.ofNat 64 va) c a lanes 5
        modGroup s gid (fun h => { h with parkInfo := g.parkInfo })
    | _ => s

/-- The slot values of a play: the defaults, with those of the table where the mask selects them (R366). -/
def readSlots (x : Issue) (table mask : Nat) : List Nat → State → List DWord → Except IRes (State × List DWord)
  | [], s, l => .ok (s, l)
  | i :: is, s, l =>
    if !mask.testBit i then readSlots x table mask is s l
    else
      match tableBytes x s ((table + 8 * i) % 2 ^ 64) 8 8 with
      | .error r => .error r
      | .ok (s, b) => readSlots x table mask is s (updAt i (fun _ => BitVec.ofNat 64 (ofLeBytes b)) l)

/-- The code of a tape that cannot be played (R366). -/
def playCode (t : Option Tape) : Nat :=
  match t.map Tape.state with | none => 5 | some .recording => 6 | some .playing => 4 | some .invalid => 3 | some .ready => 0

/-- `tape.play`, a release where a store error is recorded (R139). -/
def execTapePlay (y : XWord) (s : State) :=
  issue (.tapePlay y) s fun x s =>
    let h := rdA s x x.lead
    tapeOp x s (tapeDie h) fun s => withRelease x s x.act fun s =>
      let s := markUnrec s x.g.id
      let t := if unitOff s (tapeDie h) .tape then none else ownTape s (asidOf s x.g) h
      match playCode t, t with
      | 0, some t =>
        (match (if xmod y 0 1 = 1 then .ok (s, t.slots) else readSlots x (rdB s x x.lead) (rdC s x x.lead) (List.range 32) s t.slots) with
        | .error r => r
        | .ok (s, slots) =>
          let was := match x.g.tape with | .recording r => some r | _ => none
          let s := modTape s t.handle (fun t => { t with state := .playing, tokens := [] })
          let s := modGroup s x.g.id (fun g =>
            { parkGroup g (.tape t.handle false) with parkInfo := some (parkInfoOf x), tape := .playing t.handle 0 slots was })
          .gone (playGroup s x.g.id))
      | c, _ => doneWith s x (c <<< 28)

/-! ### Replay by a host queue (R369) -/

/-- The number that stands for the group of a host queue's replay. -/
def hostGid (q : Nat) : Nat := 2 ^ 40 + q

/-- The stand-in for the group of a host queue's replay: no team, no dispatch, the whole of global space. -/
def hostGroup (q die : Nat) : Group :=
  { id := hostGid q, disp := 0, teamid := q, grpid := 0, core := coreKey die 0, sector := 0, col := 0, width := 8, blocks := [], v := [], k := [],
    preds := [], lat := [], latw := [], pcv := [], deferred := 0, parked := 0, naps := [], chain := none, segLocal := (0, 0), segConst := (0, 0),
    segGlob := (0, BitVec.ofNat 64 (2 ^ 57)), flushctl := 0, fpstat := 0, fptrap := 0, mstat := 0, prio := 0, age := 0, readyClks := 0,
    lastIssue := none, born := 0, trec := [], shadow := none, state := .run, before := .run, wait := .none, keeps := false, parkInfo := none, flights := [],
    stores := [], storeErr := none, floor := 0, lastT := 0, tags := [], relFence := 0, stamp := none, lateErrs := [], failed := [], fences := [], mmaT := none, mmaErr := none, rq := none, task := none, tape := .none }

def hostIssuer (s : State) (h : HostQueue) (die : Nat) : Issuer := ⟨hostGroup h.id die, { queueCtx s h with die := die }, some h.id⟩

/-- The replay of a host queue is over: its signal is stored and its entry is complete (R407). -/
def endHostPlay (s : State) (q : Nat) (p : HostPlay) (sticky : Bool) : State :=
  let s := modQueue (afterReplay s p.handle sticky) q (fun h => { h with play := none })
  finishEntry s q p.entry p.signal

/-- A stop of a host queue's replay: its record goes to the queue's own ring (R368, R408). -/
def stopHostPlay (s : State) (q : Nat) (p : HostPlay) (n asid : Nat) (x : ReplayStop) : State :=
  let r := { tapeFaultRec p.handle n x asid with mask := BitVec.ofNat 64 p.entry }
  endHostPlay (postRec s (.host q) (tapeDie p.handle) (.unit (tapeDie p.handle) 0) (recWords r s.clk)) q p x.sticky

/-- A fault of a host queue's replay, with the queue's number in TEAM (R369). -/
def hostFault (s : State) (q asid die cause va acc : Nat) : State :=
  let tag := s.nextTag
  let w : FaultWait := ⟨tag, none, none, 0, asid, BitVec.ofNat 64 va, cause, acc, 0, q, 6, 0⟩
  let r : RecF := { kind := kXLATE, cause := cause, acc := acc, asid := asid, daddr := BitVec.ofNat 64 va, extra := BitVec.ofNat 64 tag, team := q }
  postRec { s with faults := s.faults ++ [w], nextTag := tag + 1 } .sysfq die (.unit die 0) (recWords r s.clk)

/-- The replay of a host queue waits for the answer to a fault. -/
def hostHeld (s : State) (q : Nat) : Bool := s.faults.any (fun w => w.what == 6 && w.lane == q)

/-- A host queue's replay goes on from its next unit. -/
def playHost (s : State) (q : Nat) : State :=
  match s.hostQueues.find? (fun h => h.id == q) with
  | none => s
  | some h =>
    match h.play with
    | none => s
    | some p =>
      if hostHeld s q then s
      else
        let die := tapeDie p.handle
        let i := hostIssuer s h die
        let units := ((findTape s p.handle).map (·.units)).getD []
        let at_ (s : State) (n : Nat) : State := modQueue s q (fun h => { h with play := some { p with next := n } })
        match replayRun p.handle p.slots false (units.drop p.next) p.next i s with
        | (s, _, none) | (s, _, some (.next _)) => endHostPlay s q p false
        | (s, n, some (.hold _)) => at_ s n
        | (s, n, some (.stop _ x)) => stopHostPlay s q p n i.x.asid x
        | (s, n, some (.fault _ c va a)) => hostFault (at_ s n) q i.x.asid die c va a

end Sys2Proof.Machine
end

