-- ==== Sys2Proof/Machine/Frame.lean ====
section
/-! DEFINITION. A team's context frame (R392): its bytes as the team's state gives them, and the state as the bytes give it. Where R392
names a content and not its bits, the layout is the model's own (log 25). -/
namespace Sys2Proof.Machine

/-- The bytes of a frame by offset; an unlisted byte is zero. -/
abbrev CtxBytes := List (Nat × Byte)

def frameSize : Nat := 2 ^ 21

/-- A run of bytes at an offset. -/
def piece (off : Nat) (bs : List Byte) : CtxBytes := Sparse.ofDense 0 off bs
/-- A number of `n` bytes at an offset. -/
def fnum (f : CtxBytes) (off n : Nat) : Nat := ofLeBytes (Sparse.getMany 0 f off n)
def fword (f : CtxBytes) (off : Nat) : Word := BitVec.ofNat 32 (fnum f off 4)
def fdword (f : CtxBytes) (off : Nat) : DWord := BitVec.ofNat 64 (fnum f off 8)
/-- The part of a frame between two offsets, moved down. -/
def fpart (f : CtxBytes) (lo hi : Nat) : CtxBytes := (f.filter (fun e => decide (lo ≤ e.1) && decide (e.1 < hi))).map (fun e => (e.1 - lo, e.2))
def zeroIn (f : CtxBytes) (lo hi : Nat) : Bool := !f.any (fun e => decide (lo ≤ e.1) && decide (e.1 < hi))

def wordsBytes (l : List Word) : List Byte := l.flatMap (fun w => leBytes 4 w.toNat)
def dwordsBytes (l : List DWord) : List Byte := l.flatMap (fun w => leBytes 8 w.toNat)
/-- Bytes padded with zeros to a length. -/
def padTo (n : Nat) (l : List Byte) : List Byte := (l ++ List.replicate n 0).take n

/-- The groups of a team by `grpid`. -/
def teamGroups (s : State) (t : Team) : List Group :=
  (List.range t.tgrps).filterMap (fun i => s.groups.find? (fun g => g.disp == t.disp && g.teamid == t.teamid && g.grpid == i))

/-- A group that has not retired, and not exited. -/
def unretired (g : Group) : Bool := !(g.state == .exit || g.state == .retired)

/-! ### Team state -/

/-- The header (R392). -/
def headerBytes (s : State) (t : Team) : List Byte :=
  leBytes 4 1 ++ leBytes 4 t.disp ++ leBytes 4 t.teamid ++ leBytes 4 t.clid ++ leBytes 1 t.tgrps ++ leBytes 1 t.widthc
    ++ leBytes 1 t.slots.length ++ leBytes 1 t.localG ++ leBytes 4 (maskOf (((teamGroups s t).filter unretired).map (·.grpid)))

def cvBytes (c : Cv) : List Byte := padTo 16 (wordsBytes [c.set, c.signed] ++ leBytes 1 c.phase)
def omBytes (m : OMap) : List Byte := padTo 32 (wordsBytes [m.base, m.pitch] ++ leBytes 1 m.etype ++ leBytes 3 m.swz ++ wordsBytes [m.sbase, m.spitch])
def thBytes (h : THandle) : List Byte :=
  padTo 48 (dwordsBytes [h.va, h.pitch] ++ leBytes 8 h.etype ++ wordsBytes [h.rows, h.cols] ++ dwordsBytes [h.sva, h.spitch])

/-- Offsets of the team state's fields. -/
def offTeamBar : Nat := 0x200
def offClBar : Nat := 0x210
def offOm : Nat := 0x260
def offTh : Nat := 0x360
def offTags : Nat := 0x660

/-- Team state (R392): the registers of R335, the barriers with who arrived, operand maps, tile handles, slot tags. -/
def teamBytes (s : State) (t : Team) : CtxBytes :=
  let cb := ((findCluster s t.disp t.clid).map (·.bar)).getD ⟨0, []⟩
  let tags := t.slots.map (fun i => ((((findCore s t.core).bind (fun k => k.slots[i]?)).map (·.tag)).getD 0))
  piece 0x100 (t.cv.flatMap cvBytes) ++ piece offTeamBar (padTo 16 (leBytes 8 t.bar.phase ++ leBytes 4 (maskOf t.bar.arrived)))
    ++ piece offClBar (padTo 80 (leBytes 8 cb.phase ++ leBytes 72 (maskOf cb.arrived))) ++ piece offOm (t.om.flatMap omBytes)
    ++ piece offTh (t.th.flatMap thBytes) ++ piece offTags (tags.map (BitVec.ofNat 8))

def cvOfFrame (f : CtxBytes) (i : Nat) : Cv := let o := 0x100 + 16 * i; ⟨fnum f (o + 8) 1 % 16, fword f (o + 4), fword f o⟩
def omOfFrame (f : CtxBytes) (i : Nat) : OMap :=
  let o := offOm + 32 * i
  ⟨fword f o, fword f (o + 4), fnum f (o + 8) 1, fnum f (o + 9) 3, fword f (o + 12), fword f (o + 16)⟩
def thOfFrame (f : CtxBytes) (i : Nat) : THandle :=
  let o := offTh + 48 * i
  ⟨fdword f o, fdword f (o + 8), fnum f (o + 16) 8, fword f (o + 24), fword f (o + 28), fdword f (o + 32), fdword f (o + 40), []⟩

/-- The team's own registers as the frame gives them. -/
def loadTeam (f : CtxBytes) (t : Team) : Team :=
  { t with cv := (List.range 16).map (cvOfFrame f), om := (List.range 8).map (omOfFrame f), th := (List.range 16).map (thOfFrame f),
           bar := ⟨fnum f offTeamBar 8, bitsOf 32 (fnum f (offTeamBar + 8) 4)⟩ }
def loadClBar (f : CtxBytes) (c : Cluster) : Cluster := { c with bar := ⟨fnum f offClBar 8, bitsOf 576 (fnum f (offClBar + 8) 72)⟩ }

/-! ### Group records -/

def gstateNum (x : GState) : Nat :=
  match x with | .run => 0 | .park => 1 | .fault => 2 | .handler => 3 | .held => 4 | .saved => 5 | .exit => 6 | .retired => 7
def gstateOf (n : Nat) : GState :=
  match n with | 0 => .run | 1 => .park | 2 => .fault | 3 => .handler | 4 => .held | 5 => .saved | 6 => .exit | _ => .retired

/-- The state that a saved group left, or the state of one that is not saved. -/
def leftState (g : Group) : GState := if g.state = .saved then g.before else g.state

def predBytes (p : List (Nat × DWord)) : List Byte := dwordsBytes (Sparse.getMany 0 p 0 7)

/-- The tape state (R392): state, handle, next unit, and the slot values of a replay. -/
def tapeBytes (u : TapeUse) : List Byte :=
  match u with
  | .none => []
  | .recording h => leBytes 2 1 ++ leBytes 2 h
  | .playing h n slots _ => leBytes 2 2 ++ leBytes 2 h ++ leBytes 4 n ++ leBytes 8 0 ++ dwordsBytes slots

/-- A group record (R392). (DESIGN CHOICE: log 25) -/
def groupRecord (g : Group) : List Byte :=
  let sh := g.shadow.getD ⟨[], [], 0, 0⟩
  padTo 512 (dwordsBytes g.pcv) ++ padTo 512 (dwordsBytes sh.pcv) ++ wordsBytes (Sparse.getMany 0 g.k 0 64) ++ predBytes g.preds
    ++ predBytes sh.preds ++ dwordsBytes [g.parked, g.deferred, g.segLocal.1, g.segLocal.2, g.segConst.1, g.segConst.2, g.segGlob.1, g.segGlob.2]
    ++ padTo 16 (wordsBytes [g.flushctl, g.fpstat, g.fptrap]) ++ dwordsBytes [g.mstat]
    ++ leBytes 2 g.prio.toNat ++ leBytes 2 (min 0xFFFF g.age) ++ leBytes 2 (gstateNum (leftState g)) ++ leBytes 2 g.blocks.length
    ++ padTo 64 (dwordsBytes g.trec) ++ leBytes 8 g.storeErr.isSome.toNat ++ leBytes 8 (g.storeErr.getD 0).toNat ++ dwordsBytes [sh.deferred]
    ++ leBytes 8 (match g.mmaT, g.wait with | some _, .mmaT n => 1 + 16 * n | _, _ => 0) ++ tapeBytes g.tape

/-- The offset of a group's record. -/
def recOff (g : Group) : Nat := 0x1000 + 2048 * g.grpid

/-- Registers allocated to the groups of a team before one (the v registers stand group by group). -/
def vOff (gs : List Group) (g : Group) : Nat :=
  ((gs.filter (fun h => decide (h.grpid < g.grpid))).map (fun h => 4 * allocRegs h * h.width)).sum

/-- A group's v registers: register by register, its lanes in order. -/
def vBytes (gs : List Group) (g : Group) : CtxBytes :=
  piece (0x11000 + vOff gs g) ((List.range (allocRegs g)).flatMap (fun r => (lanesOf g).flatMap (fun l => leBytes 4 (readV g l r).toNat)))

/-- The pending-load errors of a group (R392, R419). -/
def lateBytes (g : Group) : CtxBytes :=
  piece (0x128400 + 512 * g.grpid) (g.lateErrs.flatMap (fun e =>
    padTo 32 (dwordsBytes [e.addr, e.daddr, e.mask] ++ leBytes 1 e.kind ++ leBytes 1 e.cause ++ leBytes 1 e.lane ++ leBytes 1 1)))

/-- A group's v registers as the frame gives them. -/
def loadV (f : CtxBytes) (off : Nat) (g : Group) : Group :=
  (List.range (allocRegs g)).foldl (fun g r => (lanesOf g).foldl (fun g l => writeV g l r (fword f (off + 4 * (g.width * r + l)))) g) g

def loadPreds (f : CtxBytes) (o : Nat) : List (Nat × DWord) := Sparse.ofDense 0 0 ((List.range 7).map (fun i => fdword f (o + 8 * i)))

/-- The pending-load errors as the frame gives them; the access type and the number, which the frame does not hold, are kept from the group's own
entry. (DESIGN CHOICE: log 25) -/
def loadLate (f : CtxBytes) (g : Group) : List LateErr :=
  (List.range 16).filterMap (fun i =>
    let o := 0x128400 + 512 * g.grpid + 32 * i
    if fnum f (o + 27) 1 = 0 then none
    else some ⟨((g.lateErrs[i]?).map (·.seq)).getD i, fdword f o, fnum f (o + 24) 1, fnum f (o + 25) 1, fdword f (o + 16), fnum f (o + 26) 1, fdword f (o + 8),
               ((g.lateErrs[i]?).map (·.acc)).getD 1⟩)

/-- The tape state as the frame gives it. -/
def loadTape (f : CtxBytes) (o : Nat) (g : Group) : TapeUse :=
  let h := fnum f (o + 2) 2
  match fnum f o 1 with
  | 1 => .recording h
  | 2 => .playing h (fnum f (o + 4) 4) ((List.range 32).map (fun i => fdword f (o + 16 + 8 * i)))
      (match g.tape with | .playing _ _ _ was => was | _ => none)
  | _ => .none

/-- A `pcv` value as a frame gives it: its low three bits are zero unless the lane has exited (R10). -/
def framePc (a : DWord) : DWord := if a = exitPc then a else a &&& ~~~7

/-- A group as its record gives it, its state set to the state named there. -/
def loadRecord (f : CtxBytes) (g : Group) : Group :=
  let o := recOff g
  let st := gstateOf (fnum f (o + 1484) 2)
  let nested := (fnum f (o + 1488) 8).testBit 25
  let shadowed := st == .handler || (st == .held && nested) || ((st == .park || st == .fault) && g.shadow.isSome)
  { g with
    pcv := (List.range g.width).map (fun l => framePc (fdword f (o + 8 * l))),
    shadow := if shadowed then some ⟨(List.range g.width).map (fun l => framePc (fdword f (o + 512 + 8 * l))), loadPreds f (o + 1336), fdword f (o + 1568),
      (g.shadow.map (·.seq)).getD (g.lateErrs.foldl (fun m e => max m (e.seq + 1)) 0)⟩ else none,
    k := Sparse.ofDense 0 0 ((List.range 64).map (fun i => fword f (o + 1024 + 4 * i))), preds := loadPreds f (o + 1280),
    parked := fdword f (o + 1392), deferred := fdword f (o + 1400), segLocal := (fdword f (o + 1408), fdword f (o + 1416)),
    segConst := (fdword f (o + 1424), fdword f (o + 1432)), segGlob := (fdword f (o + 1440), fdword f (o + 1448)),
    flushctl := fword f (o + 1456), fpstat := fword f (o + 1460), fptrap := fword f (o + 1464), mstat := fdword f (o + 1472),
    prio := BitVec.ofNat 32 (fnum f (o + 1480) 2), age := fnum f (o + 1482) 2, state := st, trec := (List.range 8).map (fun i => fdword f (o + 1488 + 8 * i)),
    storeErr := if (fnum f (o + 1552) 1).testBit 0 then some (fdword f (o + 1560)) else none, tape := loadTape f (o + 1584) g,
    lateErrs := loadLate f g, before := if shadowed then .handler else .run }

/-- A parked group that the frame leaves where it was goes on waiting, in `mma.t` on the register that its wait word names; any other group that was
parked or in FAULT executes its instruction again (R222, R341, R394). -/
def settleLoaded (w : Nat) (g g' : Group) : Group :=
  if g'.state = .park ∨ g'.state = .fault then
    let keep : Option Wait := match g.wait with
      | .mmaT _ => if w.testBit 0 then some (.mmaT (fldN w 4 4)) else none
      | .cv _ | .barTeam | .barCl | .task | .tape .. => some g.wait
      | _ => none
    if g'.state = .park ∧ keep.isSome = true ∧ g.pcv = g'.pcv then { g' with wait := keep.getD .none, parkInfo := g.parkInfo }
    else { g' with state := g'.before, wait := .none, parkInfo := none, mmaT := none }
  else { g' with wait := .none, parkInfo := none }

/-- A group restored from a frame, with the offset of its v registers. -/
def loadGroup (f : CtxBytes) (gs : List Group) (g : Group) : Group := settleLoaded (fnum f (recOff g + 1576) 1) g (loadV f (0x11000 + vOff gs g) (loadRecord f { g with v := [] }))

/-! ### Local memory, windows, commands, slots -/

/-- One byte for a local line (R392); bits 7 to 4 keep the kind of a failed command. (DESIGN CHOICE: log 25) -/
def lineByte (l : LineSt) : Nat := l.failed.isSome.toNat + (if l.win = 0 then 0 else 2 + 4 * (l.win - 1)) + 16 * ((l.failed.map (·.1)).getD 0 % 16)
def lineOfByte (n : Nat) (mask : BitVec 128) : LineSt :=
  ⟨if n.testBit 0 then some (fldN n 4 4, 0) else none, if n.testBit 1 then fldN n 2 2 + 1 else 0, mask⟩

/-- A team's local memory, the state of its lines and their dirty masks. -/
def localPieces (s : State) (t : Team) : CtxBytes × CtxBytes × CtxBytes :=
  match findCore s t.core with
  | none => ([], [], [])
  | some k =>
    let lo := 4096 * t.localBase
    let n := 32 * t.localG
    let ls := (k.lines.filter (fun e => decide (lo / 128 ≤ e.1) && decide (e.1 < lo / 128 + n))).map (fun e => (e.1 - lo / 128, e.2))
    ((k.lmem.filter (fun e => decide (lo ≤ e.1) && decide (e.1 < lo + 128 * n))).map (fun e => (0x91000 + e.1 - lo, e.2)),
     ls.flatMap (fun e => piece (0x111000 + e.1) [BitVec.ofNat 8 (lineByte e.2)]),
     ls.flatMap (fun e => piece (0x112000 + 16 * e.1) (leBytes 16 e.2.mask.toNat)))

/-- The window table: the entry of a window's name holds its local base, VA and length. -/
def windowPiece (t : Team) : CtxBytes :=
  (List.range 16).flatMap (fun i =>
    match t.windows.find? (fun w => w.name == i) with
    | some w => piece (0x122000 + 64 * i) (leBytes 8 (w.base - 4096 * t.localBase) ++ leBytes 8 w.va ++ leBytes 8 w.len)
    | none => [])
def loadWindows (f : CtxBytes) (base : Nat) : List Window :=
  (List.range 16).filterMap (fun i =>
    let o := 0x122000 + 64 * i
    if fnum f (o + 16) 8 = 0 then none
    else some ⟨i, 4096 * base + fnum f o 8, fnum f (o + 16) 8, fnum f (o + 8) 8, false, 0, [], []⟩)

/-- The queued commands of a team in queue order. -/
def teamCmds (s : State) (t : Team) : List Cmd := s.cmds.filter (fun c => c.disp == t.disp && c.teamid == t.teamid)

/-- The values of a queued command, with its length in IMM (R361, R362). -/
def savedSpec (c : Cmd) : CmdSpec :=
  let r := recordedSpec ⟨c.opc, c.moda, c.queue, c.imm, c.len, c.a, c.b, c.c⟩ (c.opc ≤ 0x208)
  { r with len := r.imm }

/-- The units of an entry without tags. -/
def specUnits (c : CmdSpec) : List TapeUnit := let (wa, wb, wc) := unitWords c.opc c.moda; commandUnits [] [] wa wb wc c

/-- The area of a frame that holds the commands of some entries. -/
def specsPiece (cs : List CmdSpec) : CtxBytes := piece 0x122400 (((cs.flatMap specUnits).take 512).flatMap (fun u => leBytes 32 u.toNat))
def cmdPiece (s : State) (t : Team) : CtxBytes := specsPiece ((teamCmds s t).map savedSpec)
def cmdPart (f : CtxBytes) : CtxBytes := fpart f 0x122400 0x126400

/-- The units that stand in a frame's area of commands, and the entries that they make. -/
def frameUnits (f : CtxBytes) : List TapeUnit :=
  (List.range (((cmdPart f).map (fun e => e.1 / 32 + 1)).foldl max 0)).map (fun i => BitVec.ofNat 256 (fnum f (0x122400 + 32 * i) 32))
def unitSpecs : List TapeUnit → List CmdSpec
  | [] => []
  | u :: us => if unitKind u = 2 then unitSpecs us else unitSpec [] u us.head? :: unitSpecs us

/-- The values of an entry are of the widths of its operands. -/
def specFits (c : CmdSpec) : Bool :=
  let (wa, wb, wc) := unitWords c.opc c.moda
  decide (c.a < 2 ^ (32 * wa)) && decide (c.b < 2 ^ (32 * wb)) && decide (c.c < 2 ^ (32 * wc))

/-- A queued command as an edited entry gives it: what its group's issue of those values would queue; none where its issue checks fail, or where the
command has started. (DESIGN CHOICE: log 26) -/
def loadCmd (s : State) (c : Cmd) (sp : CmdSpec) : Option Cmd :=
  if sp = savedSpec c then some c
  else if isCtl sp.opc || c.started || c.progress != 0 || !specFits sp then none
  else
    match (findGroup s c.grp).map (fun g => tapeCommand { s with cmds := [] } (groupIssuer s g) sp) with
    | some (.ok s' _) =>
      (s'.cmds.head?).map (fun k => { k with id := c.id, saved := c.saved, after := c.after, seq := if k.opc = c.opc ∧ k.opc = 0x208 then c.seq else k.seq })
    | _ => none

/-- The queued commands of a team as a frame gives them: as many as it has, each in the place of its own. (DESIGN CHOICE: log 26) -/
def frameCmds (s : State) (t : Team) (f : CtxBytes) : Option (List Cmd) :=
  let cs := teamCmds s t
  if cmdPart f == cmdPart (cmdPiece s t) then some cs
  else
    let sps := unitSpecs (frameUnits f)
    if sps.length = cs.length ∧ cmdPart f = cmdPart (specsPiece sps) then
      (cs.zip sps).foldr (fun e l => match loadCmd s e.1 e.2, l with | some c, some l => some (c :: l) | _, _ => none) (some [])
    else none

/-- A team's queued commands replaced by those that a frame gives. -/
def loadCmds (s : State) (t : Team) (f : CtxBytes) : State :=
  let new := (frameCmds s t f).getD []
  { s with cmds := s.cmds.map (fun c => (new.find? (fun k => k.id == c.id)).getD c) }

/-- The side classes of `lacc` tiles, and the slots' elements: of a `lacc` tile whose second slot has another tag since, the first half. -/
def slotPieces (s : State) (t : Team) : CtxBytes × CtxBytes :=
  let at_ (i : Nat) : Slot := ((t.slots[i]?).bind (fun p => (findCore s t.core).bind (fun k => k.slots[p]?))).getD slotReset
  let side (i : Nat) : CtxBytes :=
    if (at_ i).tag = 3 ∧ i % 2 = 0 then
      piece (0x126400 + 2048 * (i / 2)) (leBytes 2048 (((at_ i).side.map (fun e => e.2 % 4 * 4 ^ e.1)).sum))
    else []
  let elems (i : Nat) : CtxBytes :=
    let w := if (at_ i).tag = 3 then 16 else 4
    let half := (at_ i).tag = 3 ∧ (at_ (i + 1)).tag ≠ 3
    ((at_ i).elems.filter (fun e => !half || decide (e.1 < 4096))).flatMap (fun e => piece (0x130000 + 65536 * i + w * e.1) (leBytes w e.2.toNat))
  ((List.range t.slots.length).flatMap side, (List.range t.slots.length).flatMap elems)

/-- A slot of the team as the frame gives it. -/
def slotOfFrame (f : CtxBytes) (i : Nat) : Slot :=
  let tag := fnum f (offTags + i) 1 % 4
  let w := if tag = 3 then 16 else 4
  let whole := tag = 3 ∧ fnum f (offTags + i + 1) 1 % 4 = 3
  let part := fpart f (0x130000 + 65536 * i) (0x130000 + 65536 * i + (if whole then 131072 else 65536))
  let ids := (part.map (fun e => e.1 / w)).eraseDups
  if tag = 0 ∨ (tag = 3 ∧ i % 2 = 1) then ⟨tag, [], []⟩
  else
    let sides := fnum f (0x126400 + 2048 * (i / 2)) 2048
    ⟨tag, ids.map (fun e => (e, BitVec.ofNat 128 (fnum part (w * e) w))),
     if tag = 3 then Sparse.ofDense 0 0 ((List.range 8192).map (fun e => fldN sides (2 * e) 2)) else []⟩

/-! ### A whole frame -/

/-- A team's context as its frame holds it (R392). (DESIGN CHOICE: log 25) -/
def contextFrame (s : State) (t : Team) : CtxBytes :=
  let gs := teamGroups s t
  let (lm, ls, ms) := localPieces s t
  let (sides, elems) := slotPieces s t
  piece 0 (headerBytes s t) ++ teamBytes s t ++ gs.flatMap (fun g => piece (recOff g) (groupRecord g)) ++ gs.flatMap (vBytes gs) ++ lm ++ ls ++ ms
    ++ windowPiece t ++ cmdPiece s t ++ sides ++ gs.flatMap lateBytes ++ elems

/-- A core's memory, lines and slots for a team as the frame gives them. -/
def loadCore (f : CtxBytes) (t : Team) (k : Core) : Core :=
  let lo := 4096 * t.localBase
  let n := 32 * t.localG
  let part := fpart f 0x91000 (0x91000 + 128 * n)
  let k := part.foldl (fun (k : Core) e => { k with lmem := Sparse.put 0 k.lmem (lo + e.1) e.2 })
    { k with
      lmem := k.lmem.filter (fun e => !(decide (lo ≤ e.1) && decide (e.1 < lo + 128 * n))),
      lines := k.lines.filter (fun e => !(decide (lo / 128 ≤ e.1) && decide (e.1 < lo / 128 + n))) }
  let k := (fpart f 0x111000 (0x111000 + n)).foldl (fun (k : Core) e =>
    let l := lineOfByte e.2.toNat (BitVec.ofNat 128 (fnum f (0x112000 + 16 * e.1) 16))
    { k with lines := Sparse.put lineReset k.lines (lo / 128 + e.1) l }) k
  { k with slots := k.slots.mapIdx (fun p x => if t.slots.contains p then slotOfFrame f (t.slots.idxOf p) else x) }

/-- A wait for a phase that the frame shows complete (R341). -/
def phaseMoved (f : CtxBytes) (t : Team) (c : Option Cluster) (w : Wait) : Bool :=
  match w with
  | .cv n => (cvOf t n).phase != (cvOfFrame f n).phase
  | .barTeam => t.bar.phase != fnum f offTeamBar 8
  | .barCl => (c.map (fun c => c.bar.phase != fnum f offClBar 8)).getD false
  | _ => false

/-- The status that a released wait writes. -/
def phaseStatus (f : CtxBytes) (w : Wait) : Nat := match w with | .cv n => 2 ^ 31 + (cvOfFrame f n).phase | _ => 0

/-- Groups that wait for a phase which the frame shows complete are released at once (R341). -/
def releaseMoved (f : CtxBytes) (t : Team) (c : Option Cluster) (s : State) : State :=
  ((teamGroups s t).filter (fun g => g.state == .park && phaseMoved f t c g.wait)).foldl (fun s g => releaseAcq s g.id (phaseStatus f g.wait)) s

/-- A team that is on its core replaced by what a frame holds. (DESIGN CHOICE: log 25) -/
def loadFrame (s : State) (t : Team) (f : CtxBytes) : State :=
  let gs := teamGroups s t
  let bars := (findTeam s t.disp t.teamid).getD t
  let cl := findCluster s t.disp t.clid
  let s := modTeam s t.disp t.teamid (fun t => { loadTeam f t with windows := loadWindows f t.localBase })
  let s := modCluster s t.disp t.clid (loadClBar f)
  let s := { s with groups := s.groups.map (fun g =>
    if g.disp = t.disp ∧ g.teamid = t.teamid ∧ unretired g = true then loadGroup f gs g else g) }
  releaseMoved f bars cl (modCore s t.core (loadCore f t))

/-! ### Uncorrectable words of a context (R397) -/

/-- Where a word of the team's arrays stands in its frame. (DESIGN CHOICE: log 25) -/
def frameOffset (s : State) (t : Team) (b : ArrayLoc) : Option Nat :=
  let lo := 4096 * t.localBase
  match b with
  | .lmem c o => if c = t.core ∧ lo ≤ o ∧ o < lo + 4096 * t.localG then some (0x91000 + o - lo) else none
  | .acc c m e =>
    if c = t.core ∧ t.slots.contains m = true then
      some (0x130000 + 65536 * t.slots.idxOf m + (if (((findCore s c).bind (fun k => k.slots[m]?)).map (·.tag)) = some 3 then 16 else 4) * e)
    else none
  | .reg g l r => ((teamGroups s t).find? (fun h => h.id == g)).map (fun h => 0x11000 + vOff (teamGroups s t) h + 4 * (h.width * r + l))
  | _ => none

/-- What stands at an offset of a frame: a word of local memory, a slot's element or a register. -/
def frameLoc (s : State) (t : Team) (off : Nat) : Option ArrayLoc :=
  let lo := 4096 * t.localBase
  if 0x91000 ≤ off ∧ off < 0x91000 + 4096 * t.localG then some (.lmem t.core (lo + (off - 0x91000) / 8 * 8))
  else if 0x130000 ≤ off then
    let i := (off - 0x130000) / 65536
    (t.slots[i]?).map (fun m => .acc t.core m ((off - 0x130000) % 65536 / 4))
  else if 0x11000 ≤ off ∧ off < 0x91000 then
    (teamGroups s t).findSome? (fun h =>
      let b := 0x11000 + vOff (teamGroups s t) h
      if b ≤ off ∧ off < b + 4 * allocRegs h * h.width then some (.reg h.id ((off - b) / 4 % h.width) ((off - b) / 4 / h.width)) else none)
  else none

/-- A team's words become those of a frame, in which the words at some offsets are uncorrectable. -/
def loadBads (s : State) (t : Team) (offs : List Nat) : State :=
  if s.badWords = [] ∧ s.corrWords = [] then s
  else
    { s with badWords := s.badWords.filter (fun b => (frameOffset s t b).isNone) ++ (offs.flatMap (fun o => [o, o + 4].filterMap (frameLoc s t))).eraseDups,
             corrWords := s.corrWords.filter (fun b => (frameOffset s t b).isNone) }

/-! ### When a frame may be loaded -/

/-- A `pcv` value within its limits (R10). -/
def pcOk (a : DWord) : Bool := a == exitPc || a &&& 7 == 0

/-- A map and a handle of a frame within their limits (R203, R228). -/
def omOk (f : CtxBytes) (i : Nat) : Bool :=
  let m := omOfFrame f i
  m.base &&& 15 == 0 && m.pitch &&& 15 == 0 && m.sbase &&& 15 == 0 && m.spitch &&& 15 == 0 && decide (m.etype < 16) && decide (m.swz < 2)
    && zeroIn f (offOm + 32 * i + 20) (offOm + 32 * i + 32)
def thOk (f : CtxBytes) (i : Nat) : Bool :=
  let h := thOfFrame f i
  h.va &&& 15 == 0 && h.pitch &&& 15 == 0 && h.sva &&& 15 == 0 && h.spitch &&& 15 == 0 && decide (h.etype < 16) && decide (h.rows.toNat < 65536)
    && decide (h.cols.toNat < 65536) && canonical h.va.toNat && canonical h.sva.toNat

/-- A window's entry: of no length, or a range of local memory that `wmap` accepts with a range of addresses (R102). -/
def windowOk (f : CtxBytes) (t : Team) (i : Nat) : Bool :=
  let o := 0x122000 + 64 * i
  let (base, va, len) := (fnum f o 8, fnum f (o + 8) 8, fnum f (o + 16) 8)
  zeroIn f (o + 24) (o + 64)
    && (if len = 0 then base == 0 && va == 0
        else base % 4096 == 0 && len % 4096 == 0 && va % 128 == 0 && decide (base + len ≤ 4096 * t.localG) && decide (va + len ≤ 2 ^ 57))

/-- A pending-load error's entry (R384, R392, R419). -/
def lateOk (f : CtxBytes) (g : Group) (i : Nat) : Bool :=
  let e := 0x128400 + 512 * g.grpid + 32 * i
  let (kind, cause, valid) := (fnum f (e + 24) 1, fnum f (e + 25) 1, fnum f (e + 27) 1)
  zeroIn f (e + 28) (e + 32) && decide (fnum f (e + 26) 1 < g.width) && decide (valid < 2)
    && (valid == 0 || ((kind == kREMERR || kind == kMEMERR) && cause == 0))

/-- The reserved bits of a `TREC` (R385). -/
def trecOk (f : CtxBytes) (o : Nat) : Bool := let w := fnum f (o + 1488) 8; fldN w 44 19 == 0 && fldN w 27 1 == 0 && fldN w 22 2 == 0

/-- A cluster barrier's set names groups of the cluster's teams (R337). -/
def clBarOk (s : State) (t : Team) (f : CtxBytes) : Bool :=
  let n := (clusterTeams s t.disp t.clid).length
  (bitsOf 576 (fnum f (offClBar + 8) 72)).all (fun i => decide (i / 32 < n) && decide (i % 32 < t.tgrps))

/-- The limits of a group's record (R392). -/
def recordOk (f : CtxBytes) (g : Group) : Bool :=
  let o := recOff g
  let full := 2 ^ g.width
  decide (fnum f (o + 1456) 4 < 256) && decide (fnum f (o + 1460) 4 < 64) && decide (fnum f (o + 1464) 4 < 32) && decide (fnum f (o + 1480) 2 < 16)
    && decide (fnum f (o + 1484) 2 < 8) && fnum f (o + 1484) 2 != 5 && fnum f (o + 1486) 2 == g.blocks.length
    && decide (fnum f (o + 1392) 8 < full) && decide (fnum f (o + 1400) 8 < full)
    && (List.range 7).all (fun i => decide (fnum f (o + 1280 + 8 * i) 8 < full) && decide (fnum f (o + 1336 + 8 * i) 8 < full))
    && decide (fnum f (o + 1552) 1 < 2) && zeroIn f (o + 1553) (o + 1560) && decide (fnum f (o + 1584) 1 < 3) && zeroIn f (o + 1856) (o + 2048)
    && zeroIn f (o + 8 * g.width) (o + 512) && zeroIn f (o + 512 + 8 * g.width) (o + 1024)
    && (List.range g.width).all (fun l => pcOk (fdword f (o + 8 * l)) && pcOk (fdword f (o + 512 + 8 * l)))
    && zeroIn f (o + 1468) (o + 1472) && fldN (fnum f (o + 1576) 1) 1 3 == 0 && zeroIn f (o + 1577) (o + 1584)
    && zeroIn f (o + 1585) (o + 1586) && decide (fnum f (o + 1586) 2 < 1024) && zeroIn f (o + 1592) (o + 1600)
    && (List.range 16).all (lateOk f g) && trecOk f o
    && (!(fnum f (o + 1576) 1).testBit 0 || fnum f (o + 1484) 2 == gstateNum .park)

/-- `.load` accepts the frame (R392): the header is the team's, no reserved byte is set and every value is within its field's limits. -/
def frameOk (s : State) (t : Team) (f : CtxBytes) : Bool :=
  let gs := teamGroups s t
  fpart f 0 256 == piece 0 (headerBytes s t)
    && (List.range 16).all (fun i => let o := 0x100 + 16 * i; decide (fnum f (o + 8) 1 < 16) && zeroIn f (o + 9) (o + 16))
    && zeroIn f (offTeamBar + 12) offClBar && decide (fnum f (offTeamBar + 8) 4 < 2 ^ t.tgrps)
    && (List.range 8).all (omOk f) && (List.range 16).all (thOk f)
    && (List.range 16).all (windowOk f t) && clBarOk s t f
    && zeroIn f (offTags + t.slots.length) 0x1000 && (List.range t.slots.length).all (fun i => decide (fnum f (offTags + i) 1 < 4))
    && (gs.filter unretired).all (recordOk f)
    && (List.range (32 * t.localG)).all (fun i => let b := fnum f (0x111000 + i) 1
      (b.testBit 1 || fldN b 2 2 == 0) && fldN b 2 2 != 3 && (b.testBit 0 || fldN b 4 4 == 0))
    && (frameCmds s t f).isSome

/-! ### Frames in memory -/

/-- The 64 KiB pages of a physical frame. -/
def framePages (pa : Nat) : List Nat := (List.range 32).map (fun i => pa + 65536 * i)

/-- The physical address of a place as a partition sees it. -/
def placePa (p : Partition) (a : Nat) : Nat := if a < 2 ^ 51 then paOfPlace p a else a

/-- The listed bytes of memory that lie in some pages, with their offset in the run that the pages make. -/
def inPages (s : State) (p : Partition) (pages : List Nat) : List (Nat × Nat) :=
  ((s.mem.map (·.1) ++ s.dirty.map (·.1)).eraseDups).filterMap (fun a =>
    let pa := placePa p a
    let i := pages.idxOf (pa - pa % 65536)
    if i < pages.length ∧ placeOf p pa = a then some (a, 65536 * i + pa % 65536) else none)

/-- The place of a byte of a frame. -/
def frameByte (p : Partition) (pages : List Nat) (off : Nat) : Nat := placeOf p ((pages[off / 65536]?).getD 0 + off % 65536)

/-- A frame's bytes written to its pages: the whole 2 MiB is rewritten. -/
def writeFrame (s : State) (p : Partition) (pages : List Nat) (f : CtxBytes) : State :=
  let old := inPages s p pages
  let s := wrCoherent s (old.map (fun e => (e.1, 0)))
  let s := wrCoherent s (f.map (fun e => (frameByte p pages e.1, e.2)))
  { s with badWords := s.badWords.filter (fun b => match b with
      | .mem a => !(pages.contains (placePa p a - placePa p a % 65536) && placeOf p (placePa p a) == a)
      | _ => true) }

/-- A frame's bytes as its pages hold them. -/
def readFrame (s : State) (p : Partition) (pages : List Nat) : CtxBytes :=
  (inPages s p pages).foldl (fun f e => Sparse.put 0 f e.2 (rdPlace s e.1)) []

/-- The offsets of the uncorrectable words in some pages. -/
def badInPages (s : State) (p : Partition) (pages : List Nat) : List Nat :=
  s.badWords.filterMap (fun b => match b with
    | .mem a =>
      let pa := placePa p a
      if pages.contains (pa - pa % 65536) && placeOf p pa == a then some (65536 * pages.idxOf (pa - pa % 65536) + pa % 65536) else none
    | _ => none)

/-- The uncorrectable words of memory in some pages. -/
def badWordsIn (s : State) (p : Partition) (pages : List Nat) : List ArrayLoc := (badInPages s p pages).map (fun o => .mem (frameByte p pages o))

/-- An uncorrectable word in some pages. -/
def badPages (s : State) (p : Partition) (pages : List Nat) : Bool := badInPages s p pages != []

/-- The offsets of the uncorrectable words of a team's context: in its frame while it is saved, else in its arrays. -/
def contextBads (s : State) (t : Team) : List Nat :=
  match t.frame.bind (fun pa => (ringPart s pa).map (fun p => (pa, p))) with
  | some (pa, p) => badInPages s p (framePages pa)
  | none => s.badWords.filterMap (frameOffset s t)

/-- A context written to the pages of a frame; correctable errors are corrected, and an uncorrectable word stays so in the frame (R397). -/
def writeContext (s : State) (p : Partition) (pages : List Nat) (t : Team) (f : CtxBytes) : State :=
  let s := correctWhere s (fun b => t.frame.isNone && (frameOffset s t b).isSome)
  let offs := if s.badWords = [] then [] else contextBads s t
  markMem (writeFrame s p pages f) (offs.map (frameByte p pages))

end Sys2Proof.Machine
end

