-- ==== Sys2Proof/Machine/Perform.lean ====
section
/-! DEFINITION. Engine commands performed by their units, and parked groups that go on (R81, R89, R94, R95, R109, R113). -/
namespace Sys2Proof.Machine

/-! ### Commands -/

/-- The die unit that performs a command, where one does (R399). -/
def cmdUnit (opc : Nat) : Option DieUnit :=
  match opc with
  | 0x290 | 0x291 => some .dicing
  | 0x298 | 0x299 | 0x29A => some .sampling
  | _ => none

/-- A command that has been performed up to a point from which other steps complete it: `coll` waits for its ranks; a `launch` for its
dispatch; `smp.end` for its bins; `rc.sync` for its training; the offers of an `rct`. -/
def cmdElsewhere (c : Cmd) : Bool :=
  c.opc == 0x208 || c.opc == 0x2A1 || (c.started && (c.opc == 0x2C0 || c.opc == 0x299 || c.opc == 0x2A2))

/-- A copy engine, the dicing or the sampling unit, the scheduler or the Equinox engine may perform the command now (R95, R109, R110). -/
def cmdRunnable (s : State) (c : Cmd) : Bool :=
  cmdReady s c && !cmdElsewhere c
    && (match cmdUnit c.opc with | some u => !unitHeld s (coreDie c.core) u | none => true)

/-- A command performed, by its opcode. -/
def performCmd (s : State) (c : Cmd) : State :=
  if (match cmdUnit c.opc with | some u => unitOff s (coreDie c.core) u | none => false) then sampFail s c 10
  else
    match c.opc with
    | 0x200 | 0x201 | 0x202 | 0x203 | 0x204 | 0x205 => performCopy s c
    | 0x290 => performDice s c
    | 0x291 => performEmit s c
    | 0x298 => performBegin s c
    | 0x299 => performEnd s c
    | 0x29A => performRes s c
    | 0x2A2 => performSync s c
    | 0x2C0 => performLaunch s c
    | _ => s

/-- The local lines that a command has still to write (R96). -/
def linesLeft (c : Cmd) : List (Nat × Nat) := if decide (0x200 ≤ c.opc) && decide (c.opc ≤ 0x205) then copyUnwritten c c.progress else []

/-- A command performed once its barrier's line is filled (R99). -/
def runCmd (s : State) (c : Cmd) : State :=
  match barReady s c with
  | (s, some e) => stopCmd s c e (linesLeft c)
  | (s, none) => performCmd s c

/-- COPY_ENGINE_PERFORM: one command of a queue. -/
def execCopyEnginePerform (cmd : Nat) (s : State) :=
  event (fun s => match findCmd s cmd with | some c => if cmdRunnable s c then runCmd s c else s | none => s) s

/-- A command whose held fault is delivered fails: what it had not written is FAILED; a session ends DONE, a network FAULTED (R81, R277,
R295). -/
def deliverCmd (s : State) (c : Cmd) (cause va acc : Nat) : State :=
  let s := failCmd s c (linesLeft c) ⟨kXLATE, cause, va, acc⟩
  match c.opc with
  | 0x299 => if (session s (cmdSid c)).state = 2 ∧ (session s (cmdSid c)).endCmd = c.id then modSession s (cmdSid c) (fun x => { x with state := 3 }) else s
  | 0x2A2 => if (network s c.seq).cmd = some c.id then faultNetwork s c.seq else s
  | _ => s

/-! ### Parked groups -/

/-- The objects that a `dro.get` waits for are complete, or no longer objects (R306). -/
def droDone (s : State) (ps : List Nat) : Bool :=
  ps.all (fun p => let f := (rdPlace s (p + 5)); f.getLsbD 1 || !f.getLsbD 0)

/-- What a parked group waits for has come (R95, R97, R106, R110, R283, R306). -/
def waitMet (s : State) (g : Group) : Bool :=
  match g.wait with
  | .lines c ls w => ls.all (fun l => match g.rq with | some k => !heldFor s k.stamp w c l | none => !lineHolds s w c l)
  | .qfence m => (cmdsIn s g.id m).isEmpty
  | .query n => (network s n).state != 2 || ((g.stamp).map (fun k => decide (k % 2 ^ 32 ≤ (network s n).published + 1))).getD true
  | .dro ps => droDone s ps
  | .again => true
  | _ => false

/-- A replay that would get beyond the unit at which it waits (R366). -/
def playMoves (s : State) (g : Group) : Bool :=
  match g.tape with
  | .playing h n slots _ =>
    (match replayRun h slots (playHeld g) ((((findTape s h).map (·.units)).getD []).drop n) n (groupIssuer s g) s with
    | (_, m, some (.hold _)) => m != n
    | _ => true)
  | _ => false

/-- A system instruction in progress has finished (R69, R391). -/
def sysMet (s : State) (what arg : Nat) : Bool :=
  if what = sysDom then ((findPart s arg).map (fun p => !oldRequests s p)).getD true
  else if what = sysPre then !s.clusters.any (fun c => c.disp == arg && c.state != .saved)
  else if what = sysEnd then (findDisp s arg).isNone
  else false

/-- The group leaves PARK by PARKED_ACCESS_RESUME. -/
def resumable (s : State) (g : Group) : Bool :=
  g.state == .park && (match g.wait with | .sys w a _ => sysMet s w a | .tape _ _ => playMoves s g | _ => waitMet s g)

/-- A group leaves PARK and executes its instruction again, completes it, or goes on with its replay. -/
def resumeParked (s : State) (g : Group) : State :=
  match g.wait with
  | .sys w a v => exitIfDone (if w = sysDom then domEnd s g.id a v else releaseGroup s g.id v) g.id
  | .tape _ _ => playGroup s g.id
  | _ => modGroup s g.id unparkGroup

/-- PARKED_ACCESS_RESUME. -/
def execParkedAccessResume (grp : Nat) (s : State) :=
  event (fun s => match findGroup s grp with | some g => if resumable s g then resumeParked s g else s | none => s) s

/-- The queue that a group waits for has room (R94, R109). -/
def queueHasRoom (s : State) (g : Group) : Bool :=
  match g.wait with
  | .queueRoom c q => g.state == .park && (q != ctlQueue || !ctlBusy s g.id) && decide (queueLen s c q < 64)
  | _ => false

/-- ENGINE_QUEUE_ROOM. -/
def execEngineQueueRoom (grp : Nat) (s : State) :=
  event (fun s => match findGroup s grp with
    | some g => if queueHasRoom s g then modGroup s grp unparkGroup else s
    | none => s) s

end Sys2Proof.Machine
end

