-- ==== Sys2Proof/Machine/Faults.lean ====
section
/-! DEFINITION. The answers of system software to waiting faults: retry and deliver (R81, R258, R348, R369, R386). -/
namespace Sys2Proof.Machine

def findFault (s : State) (tag : Nat) : Option FaultWait := s.faults.find? (fun w => w.tag == tag)
def dropFault (s : State) (tag : Nat) : State := { s with faults := s.faults.filter (fun w => w.tag != tag) }

/-- The group of a fault in a replay waits for its next unit again (R369). -/
def replayAgain (s : State) (gid : Nat) : State :=
  modGroup s gid (fun g => { g with state := .park, wait := match g.tape with | .playing h _ _ _ => .tape h false | _ => .again })

/-- A successor update is made again once its group leaves FAULT: the end of its task goes on (R348). -/
def retrySucc (s : State) (gid : Nat) : State := endTask (modGroup s gid unparkGroup) gid

/-- A group's fault retried. -/
def retryGroup (s : State) (w : FaultWait) (gid : Nat) : State :=
  match w.what with
  | 1 => retrySucc s gid
  | 5 => playGroup (replayAgain s gid) gid
  | _ => modGroup s gid unparkGroup

/-- Retry (R81): the group executes its instruction again; an engine operation resumes at its element; a preparation or a host queue's
replay goes on. -/
def retryFault (s : State) (tag : Nat) : State :=
  match findFault s tag with
  | none => s
  | some w =>
    let s := dropFault s tag
    match w.grp, w.cmd with
    | some g, _ => retryGroup s w g
    | none, some c => freeCmd s c
    | none, none => if w.what = 6 then playHost s w.lane else modDisp s w.disp (fun d => { d with waitTag := none })
def execFansRetry (tag : Nat) (s : State) := event (fun s => retryFault s tag) s

/-- The lanes of an `rq.run` whose fault is delivered stop with it; the trap is taken when every other lane has returned (R258). -/
def RqPause.deliver (k : RqPause) (w : FaultWait) (mask : List Nat) : RqPause :=
  { k with ended := k.ended ++ mask, errs := k.errs ++ mask.map (fun l => (l, kXLATE, w.cause + 256 * w.tag, w.va.toNat, 0)) }

/-- A group's own fault delivered: to an `rq.run` for the lanes that met it (R258), else as a precise XLATE, once every load and atomic in flight
has returned (R81, R318, R383). -/
def deliverOwn (s : State) (w : FaultWait) (g : Group) : State :=
  let mask := lanesIn g w.mask
  match g.rq with
  | some k => setGroup s { unparkGroup g with rq := some (k.deliver w mask) }
  | none =>
    takeTrap (drainReads (modGroup s g.id unparkGroup) g.id) g.id w.taddr (w.taddr + 8)
      { kind := kXLATE, cause := w.cause, mask := mask, daddr := w.va, extra := BitVec.ofNat 64 w.tag, acc := w.acc, asid := w.asid }

/-- A successor update's fault delivered: SUCCERR is posted and the task is over (R348). -/
def deliverSucc (s : State) (g : Group) : State :=
  let r : RecF := { kind := evSuccErr, daddr := ((g.task.map (·.succ)).getD 0), extra := (g.task.map (·.tidx)).getD 0, team := g.teamid, disp := g.disp }
  let s := notify s (dieOf g) (.group g.id) r
  let s := modGroup s g.id (fun g => { unparkGroup g with task := g.task.map (fun t => { t with succ := 0 }) })
  endTask s g.id

/-- A write-back's fault delivered: the instruction executes again, leaves the lines of that page dirty and yields code 1 (R102). -/
def deliverWindow (s : State) (w : FaultWait) (g : Group) : State :=
  let hit (v : Window) : Bool := decide (v.va ≤ w.va.toNat) && decide (w.va.toNat < v.va + v.len)
  modGroup (modTeamOf s g (fun t => { t with windows := t.windows.map (fun v => if hit v then { v with skip := w.va.toNat / 65536 :: v.skip } else v) })) g.id unparkGroup

/-- A group's fault delivered. -/
def deliverGroup (s : State) (w : FaultWait) (g : Group) : State :=
  match w.what with
  | 1 => deliverSucc s g
  | 2 => deliverWindow s w g
  | 4 => releaseGroup s g.id (2 <<< 24)
  | 5 =>
    match g.tape with
    | .playing h n _ _ => stopPlay (replayAgain s g.id) g.id h n ⟨2, 2, 0, w.va.toNat, w.acc, false⟩
    | _ => s
  | _ => deliverOwn s w g

/-- A host queue's replay stops where its fault is delivered (R368, R369). -/
def deliverHost (s : State) (w : FaultWait) : State :=
  match (s.hostQueues.find? (fun h => h.id == w.lane)).bind (·.play) with
  | some p => stopHostPlay s w.lane p p.next w.asid ⟨2, 2, 0, w.va.toNat, w.acc, false⟩
  | none => s

/-- Deliver (R81): a precise XLATE of the group, ERR of the engine operation's barrier, or the refusal of a dispatch in preparation. -/
def deliverFault (s : State) (tag : Nat) : State :=
  match findFault s tag with
  | none => s
  | some w =>
    let s := dropFault s tag
    match w.grp.bind (findGroup s), w.cmd.bind (findCmd s) with
    | some g, _ => deliverGroup s w g
    | none, some c => deliverCmd (modCmd s c.id (fun c => { c with fault := none })) { c with fault := none } w.cause w.va.toNat w.acc
    | none, none =>
      if w.what = 6 then deliverHost s w
      else match findDisp s w.disp with | some d => refusePrepared s d | none => s
def execFansDeliver (tag : Nat) (s : State) := event (fun s => deliverFault s tag) s

/-- A write of FANS (R386): the tag in bits 31:0, DELIVER in bit 32. -/
def answerFault (s : State) (v : Nat) : State :=
  if v.testBit 32 then deliverFault s (fldN v 0 32) else retryFault s (fldN v 0 32)

end Sys2Proof.Machine
end

