-- ==== Sys2Proof/Machine/Sysregs.lean ====
section
/-! DEFINITION. The system registers (R380 to R382), `clk`, and `iret` (R389). -/
namespace Sys2Proof.Machine

/-- ERRCNT (R398). -/
def errcnt (d : Die) : Nat := d.ovf <<< 48 + d.uncorr <<< 32 + d.corr
/-- DOMGEN (R63): of the last completed `dom.sw`. -/
def domgen (p : Partition) : Nat := (p.members % 65536) <<< 16 + p.doneGen % 65536

/-- A device or die register as `sysrd` reads it. -/
def deviceReg (s : State) (r i : Nat) : Nat :=
  match r with
  | 0x040 => s.seedReg.toNat
  | 0x041 => s.astab.toNat
  | 0x042 => s.sysnq.toNat
  | 0x043 => s.sysfq.toNat
  | 0x044 => s.savepool.toNat
  | 0x048 => (s.collgrp[i]?.getD 0).toNat
  | 0x050 => ((findDie s i).map (·.orient.toNat)).getD 0
  | 0x051 => ((findDie s i).map (·.route.toNat)).getD 0
  | 0x052 => ((findDie s i).map (·.ftpool.toNat)).getD 0
  | 0x058 => ((findDie s i).map errcnt).getD 0
  | _ => 0

/-- A group's or partition's register as `sysrd` reads it. -/
def groupReg (s : State) (g : Group) (r i : Nat) : Nat :=
  let part := groupPart s g
  match r with
  | 0x000 => g.flushctl.toNat
  | 0x001 => g.fpstat.toNat
  | 0x002 => g.fptrap.toNat
  | 0x003 => g.mstat.toNat
  | 0x004 => g.prio.toNat
  | 0x005 => (g.trec[i]?.getD 0).toNat
  | 0x053 => (part.map domgen).getD 0
  | 0x054 => (part.map (chanSlot · i)).getD 0
  | 0x055 => (part.map (sliceSlot · i)).getD 0
  | _ => deviceReg s r i

/-- The index lies in the register's range. -/
def indexOk (r i : Nat) : Bool := match sregInfo r with | some k => k.count == 0 || decide (i < k.count) | none => false

/-- A request from a die to another for a register or a unit that is held there is answered: the paths of both are usable, as for address 0, and the
other answers (R54, R403, R417). (DEDUCED: log 46) -/
def dieSilent (s : State) (die r i : Nat) : Bool := (r == 0x052 || r == 0x058) && !diesReach s die i 0

/-- `sysrd` (R382): group-wide; MSTAT waits for the array (R227); FANS, which is write-only, reads zero (R4). -/
def execSysrd (f : FWord) (s : State) :=
  issue (.sysrd f) s fun x s => groupWide x s fun s =>
    let r := fmod f 0 10
    let i := rdA s x x.lead
    if !indexOk r i then .trap s { kind := kSEG, mask := x.act }
    else if dieSilent s (dieOf x.g) r i then .trap s { kind := kREMERR, mask := x.act }
    else
      let s := if r = 0x003 then drainArray s x.g.core else s
      match findGroup s x.g.id with
      | some g => doneWith s x (groupReg s g r i)
      | none => .done s []

/-- The writable bits of a queue or pool register (R84, R386, R396). -/
def queueBits (v : DWord) : DWord := v &&& 0x000FFFFFFFFFFFC1

/-- A write of a register without behaviour of its own (R382): its writable fields. -/
def setReg (s : State) (gid r i : Nat) (v : DWord) : State :=
  match r with
  | 0x000 => modGroup s gid (fun g => { g with flushctl := v.truncate 32 &&& 0xFF })
  | 0x001 => modGroup s gid (fun g => { g with fpstat := g.fpstat &&& ~~~ v.truncate 32 })
  | 0x002 => modGroup s gid (fun g => { g with fptrap := v.truncate 32 &&& 0x1F })
  | 0x041 => { s with astab := v &&& 0x000FFFFFFFFF8001 }
  | 0x042 => { s with sysnq := queueBits v }
  | 0x043 => { s with sysfq := queueBits v }
  | 0x044 => { s with savepool := queueBits v }
  | 0x048 => { s with collgrp := updAt i (fun _ => v &&& 0x3FFFFFFFFFFFFF01) s.collgrp }
  | 0x052 => modDie s i (fun d => { d with ftpool := queueBits v })
  | _ => s
def execRegisterWrite (grp sreg index : Nat) (value : DWord) (s : State) :=
  event (fun s => if indexOk sreg index then setReg s grp sreg index value else s) s

/-- SEED takes its place in the order of acceptances (R323). -/
def setSeed (s : State) (v : DWord) : State := { s with seedReg := v }
def execSeedWrite (value : DWord) (s : State) := event (fun s => setSeed s value) s

/-- A write of any register (R382). -/
def writeReg (s : State) (g : Group) (r i : Nat) (v : Nat) : State :=
  match r with
  | 0x004 => setPrio s g v
  | 0x040 => setSeed s (BitVec.ofNat 64 v)
  | 0x045 => answerFault s v
  | _ => setReg s g.id r i (BitVec.ofNat 64 v)

/-- `syswr` (R382). -/
def execSyswr (f : FWord) (s : State) :=
  issue (.syswr f) s fun x s => groupWide x s fun s =>
    let r := fmod f 0 10
    let i := rdA s x x.lead
    if !indexOk r i then .trap s { kind := kSEG, mask := x.act }
    else if dieSilent s (dieOf x.g) r i then .trap s { kind := kREMERR, mask := x.act }
    else .done (writeReg s x.g r i (rdB s x x.lead)) []

/-- `clk` (R382): the count of 2.0 GHz clocks (log 8). -/
def execClk (f : FWord) (s : State) := issue (.clk f) s fun x s => doneWith s x (s.clk % 2 ^ 64)

/-! ### `iret` -/

/-- The length of the instruction at an address, as its first word says (R9, R10): a head of an X instruction has 16 bytes. -/
def lengthAt (s : State) (d : Dispatch) (die : Nat) (a : DWord) : Nat :=
  match dispPart s d with
  | none => 8
  | some p =>
    match walk s p (ctxOf d die) (va57 a.toNat) with
    | .leaf l e _ => if rdPaNum s p (pteAddr e + va57 a.toNat % 2 ^ levelLo l) 8 % 4 = 2 then 16 else 8
    | _ => 8

/-- `iret` and `iret.skip` (R389). -/
def execIret (f : FWord) (s : State) :=
  issueConv (.iret f) s fun x s =>
    let skip := fmod f 0 1 = 1
    let len := if skip then ((dispOf s x.g).map (fun d => lengthAt s d (dieOf x.g) (x.g.trec[1]?.getD 0))).getD 8 else 8
    .gone (exitIfDone (modGroup s x.g.id (fun g => returnFromTrap { g with chain := none } skip len)) x.g.id)

end Sys2Proof.Machine
end

