-- ==== Sys2Proof/Machine/Context.lean ====
section
/-! DEFINITION. Pre-emption and resumption of clusters (R341, R351, R393 to R396), and `ctxsave` and `ctxrest` (R391). -/
namespace Sys2Proof.Machine

/-! ### When a cluster may be saved -/

/-- The group may be saved now: a task's worker between tasks (R351), a parked group unless its instruction is not pre-empted. -/
def groupSavable (d : Dispatch) (g : Group) : Bool :=
  if dispTask d && unretired g then g.state == .park && g.wait == .task
  else if g.state == .park then !g.keeps && !playHeld g
  else true

/-- The groups of a cluster. -/
def clusterGroups (s : State) (disp clid : Nat) : List Group :=
  let ids := (clusterTeams s disp clid).map (·.teamid)
  s.groups.filter (fun g => g.disp == disp && ids.contains g.teamid)

/-- Commands that stay where they stand while their group is saved: `launch`, `smp.end`, `rc.sync` (R123, R277, R294). -/
def savedStarted (opc : Nat) : Bool := [0x2C0, 0x299, 0x2A2].contains opc

/-- Every group of a cluster may be saved, and none of its commands is in progress (R123, R394). -/
def clusterSavable (s : State) (disp clid : Nat) : Bool :=
  match findDisp s disp, findCluster s disp clid with
  | some d, some c =>
    let gs := clusterGroups s disp clid
    c.state == .saving && gs.all (groupSavable d)
      && !s.cmds.any (fun k => k.started && !savedStarted k.opc && gs.any (fun g => g.id == k.grp))
  | _, _ => false

/-- The teams of a cluster that need a frame. -/
def frameTeams (s : State) (disp clid : Nat) : List Team := (clusterTeams s disp clid).filter (teamHolds s)

/-- The save pool holds a frame for each team, and the team's die reaches the pool and the frame (R54). (DEDUCED: log 51; DEDUCED: log 68) -/
def framesReady (s : State) (ts : List Team) : Bool :=
  ts.isEmpty || (match queueRing s.savepool with
    | some pa => decide (ts.length ≤ poolLeft s pa)
        && (ts.zip (poolNext s pa ts.length)).all (fun (t, e) =>
          ((ringPart s pa).map (fun p => ringReach s p (coreDie t.core) pa 64)).getD false && frameReach s (coreDie t.core) (e - e % frameSize))
    | none => false)

/-! ### Saving -/

/-- A fault's waiting record goes with its group: the instruction executes again on resumption; a replay waits for its next unit. -/
def dropGroupFaults (s : State) (gid : Nat) : State :=
  let replay := s.faults.any (fun w => w.grp == some gid && w.what == 5)
  let s := { s with faults := s.faults.filter (fun w => w.grp != some gid) }
  if replay then replayAgain s gid else s

/-- A group stopped and saved: its accesses performed, its chain given up, its naps ended, its deferral cleared, a parked traversal paused
(R35, R190, R192, R259). (DEDUCED: log 47) -/
def saveGroup (s : State) (gid : Nat) : State :=
  modGroup (unrecordWait (dropGroupFaults (drainGroup s gid) gid) gid) gid fun g =>
    if unretired g then
      { pauseQuery (restartChain g) with state := .saved, before := g.state, lat := [], latw := [], parked := 0, naps := [], deferred := 0, stamp := none }
    else g

/-- The frame that a team is written to, taken from the save pool. -/
def saveTeam (s : State) (t : Team) : State :=
  match (queueRing s.savepool).bind (poolPop s (coreDie t.core)) with
  | none => s
  | some (e, s) =>
    let pa := e - e % frameSize
    match ringPart s pa with
    | none => s
    | some p =>
      let s := writeContext s p (framePages pa) t (contextFrame s t)
      let s := loadBads s t []
      modTeam { s with cmds := s.cmds.map (fun c => if c.disp = t.disp ∧ c.teamid = t.teamid then { c with saved := true } else c) } t.disp t.teamid
        (fun t => { t with frame := some pa })

/-- The held fault of a saved command goes with it. -/
def dropCmdFaults (s : State) (gids : List Nat) : State :=
  let cs := (s.cmds.filter (fun c => gids.contains c.grp)).map (·.id)
  { s with faults := s.faults.filter (fun w => !(w.cmd.map cs.contains).getD false),
           cmds := s.cmds.map (fun c => if cs.contains c.id then { c with fault := none } else c) }

/-- A cluster that may be saved is saved (R394): groups that have exited retire, arrays complete, bins are killed, training stops. -/
def saveNow (s : State) (disp clid : Nat) : State :=
  let s := ((clusterGroups s disp clid).filter (fun g => g.state == .exit)).foldl (fun s g => retireGroup s g.id) s
  match findCluster s disp clid with
  | none => s
  | some _ =>
    let gids := (clusterGroups s disp clid).map (·.id)
    let s := killBins s gids
    let s := s.networks.foldl (fun s n => if n.state = 2 ∧ ((n.cmd.bind (findCmd s)).map (fun c => gids.contains c.grp)).getD false then saveEquinox s n else s) s
    let s := (clusterTeams s disp clid).foldl (fun s t => drainArray s t.core) s
    let s := dropCmdFaults (gids.foldl saveGroup s) gids
    let s : State := { s with cores := s.cores.map (fun k => { k with growers := k.growers.filter (fun g => !gids.contains g) }) }
    modCluster ((frameTeams s disp clid).foldl saveTeam s) disp clid (fun c => { c with state := .saved })

/-- CLUSTER_SAVE: with too few frames the cluster waits, and POOLEMPTY is posted once (R396). -/
def saveCluster (s : State) (disp clid : Nat) : State :=
  if !clusterSavable s disp clid then s
  else if framesReady s (frameTeams s disp clid) then saveNow s disp clid
  else if s.poolEmptyPosted then s
  else notify { s with poolEmptyPosted := true } (partDie s (((findDisp s disp).map (·.part)).getD 0)) (.unit (partDie s (((findDisp s disp).map (·.part)).getD 0)) unitSched) { kind := evPoolEmpty, disp := disp }
/-- (DEDUCED: log 51) -/
def execClusterSave (disp clid : Nat) (s : State) := event (fun s => saveCluster s disp clid) s

/-- Frames have come for every pre-emption that waits for them: until then POOLEMPTY is not posted again (R396). -/
def framesCame (s : State) : Bool :=
  let cs := s.clusters.filter (fun c => clusterSavable s c.disp c.clid)
  s.poolEmptyPosted && !cs.isEmpty && cs.all (fun c => framesReady s (frameTeams s c.disp c.clid))

/-- SAVE_POOL_FRAMES_ARRIVE (R396). -/
def execSavePoolFramesArrive (s : State) := event (fun s => if framesCame s then { s with poolEmptyPosted := false } else s) s

/-! ### Resumption -/

/-- Groups given columns and blocks on a core as many as they held; none where one has no room. -/
def placeSaved (core : Nat) : List Group → State → Option State
  | [], s => some s
  | g :: gs, s =>
    match groupRoom s core g.width g.blocks.length with
    | none => none
    | some (se, col, bs) =>
      placeSaved core gs (modGroup s g.id (fun g => { g with core := core, sector := se, col := col, blocks := bs, state := g.before, readyClks := 0, floor := s.memSeq, lastT := s.memSeq, tags := [], relFence := 0 }))

/-- A core's window entries that are in use (R98). -/
def windowsUsed (s : State) (core : Nat) : Nat := ((s.teams.filter (fun t => t.core == core && t.frame.isNone)).map (·.windows.length)).sum

/-- A team put back on a core from its frame, which returns to the pool (R341, R396). (DEDUCED: log 47) -/
def resumeTeam (s : State) (t : Team) (core : Nat) : Option State :=
  match t.frame with
  | none => some (modTeam s t.disp t.teamid (fun t => { t with core := core }))
  | some pa =>
    if !coreOpen s core ∨ 16 < windowsUsed s core + t.windows.length ∨ !frameReach s (coreDie core) pa then none
    else
      match localRoom s core t.localG, slotRoom s core (if teamDone t then 0 else t.slots.length), ringPart s pa with
      | some base, some slots, some p =>
        let f := readFrame s p (framePages pa)
        (placeSaved core ((teamGroups s t).filter (fun g => g.state == .saved)) s).map fun s =>
          let t' := { t with core := core, localBase := base, slots := slots, frame := none }
          let s := modTeam (clearRun s core base t.localG slots) t.disp t.teamid (fun _ => t')
          let s := invalidateL1 (loadBads (loadFrame s t' f) t' (badInPages s p (framePages pa))) core
          match queueRing s.savepool with | some pool => poolPush s (coreDie core) pool pa | none => s
      | _, _, _ => none

/-- Where a local byte of a saved team's core now lies: the run of the team that held it has moved. -/
def movedLocal (old new : List Team) (c off : Nat) : Nat × Nat :=
  match (old.zip new).find? (fun (t, _) => t.core == c && decide (4096 * t.localBase ≤ off) && decide (off < 4096 * (t.localBase + t.localG))) with
  | some (t, u) => (u.core, off + 4096 * u.localBase - 4096 * t.localBase)
  | none => (c, off)

def movedLine (old new : List Team) (l : Nat × Nat) : Nat × Nat := let m := movedLocal old new l.1 (128 * l.2); (m.1, m.2 / 128)

/-- A saved command with its local operands where its cluster now lies, out of the saved state. -/
def movedCmd (old new : List Team) (c : Cmd) : Cmd :=
  let loc (a : Option (Nat × Nat)) : Option (Nat × Nat) := a.map (fun p => movedLocal old new p.1 p.2)
  { c with saved := false, core := ((new.find? (fun t => t.teamid == c.teamid)).map (·.core)).getD c.core, locA := loc c.locA, locB := loc c.locB,
           bar := match c.bar with | .loc k o a => (let m := movedLocal old new k o; .loc m.1 m.2 a) | b => b,
           writes := c.writes.map (movedLine old new), reads := c.reads.map (movedLine old new) }

/-- A cluster's teams put back on the cores of a rectangle; its commands re-enter their queues in order (R123, R341). -/
def resumeOn (disp clid : Nat) (s : State) (cs : List Nat) : Option State :=
  let old := clusterTeams s disp clid
  (old.foldl (fun a t => a.bind (fun s => resumeTeam s t (cs[t.rank]?.getD t.core))) (some s)).map fun s =>
    let new := clusterTeams s disp clid
    let mine (c : Cmd) : Bool := c.disp == disp && c.saved && new.any (fun t => t.teamid == c.teamid)
    let s : State := { s with cmds := s.cmds.filter (fun c => !mine c) ++ (s.cmds.filter mine).map (movedCmd old new) }
    modCluster s disp clid (fun c => { c with state := .running })

/-- A saved cluster that the scheduler may resume (R393). -/
def mayResume (s : State) (c : Cluster) : Bool :=
  c.state == .saved && ((findDisp s c.disp).map (fun d => d.preempt == 0)).getD false

/-- CLUSTER_RESUME: the cluster goes back on a rectangle where its resources allow. -/
def resumeCluster (s : State) (disp clid : Nat) : Option State :=
  match findDisp s disp, findCluster s disp clid with
  | some d, some c =>
    (dispPart s d).bind fun p =>
      if mayResume s c then tryRectangles s p (dispClW d) (dispClH d) (resumeOn disp clid) else none
  | _, _ => none
def execClusterResume (disp clid : Nat) (s : State) := event (fun s => (resumeCluster s disp clid).getD s) s

/-! ### `ctxsave` and `ctxrest` -/

/-- Every cluster of the dispatch is saved. (DEDUCED: log 47) -/
def dispSaved (s : State) (d : Dispatch) : Bool :=
  let cs := s.clusters.filter (fun c => c.disp == d.id)
  cs.all (fun c => c.state == .saved) && (cs != [] || d.preempt != 0)

/-- The statuses common to every form: NODISP, SELF. (DEDUCED: log 47) -/
def ctxOp (x : Issue) (s : State) (k : State → Dispatch → IRes) : IRes :=
  groupWide x s fun s =>
    let id := rdA s x x.lead
    match (findDisp s id).filter (fun d => ((dispOf s x.g).map (·.part)) == some d.part) with
    | none => doneWith s x 1
    | some d => if id = x.g.disp then doneWith s x 4 else k (drainGroup s x.g.id) d

/-- `ctxsave.pre`: the dispatch is pre-empted whole, and the group waits until every cluster is saved. -/
def execCtxsavePre (y : XWord) (s : State) :=
  issue (.ctxsavePre y) s fun x s => ctxOp x s fun s d =>
    if dispSaved s d then doneWith s x 2
    else .parkDone (requestSave (modDisp s d.id (fun d => { d with preempt := 1 })) d.id .all) (.sys sysPre d.id 0)

/-- The team may be dumped or loaded: it is saved, or none of its groups is in RUN, PARK, FAULT or HANDLER. (DEDUCED: log 47) -/
def teamStill (s : State) (t : Team) : Bool :=
  t.frame.isSome || (teamGroups s t).all (fun g => g.state == .held || g.state == .exit || g.state == .retired)

/-- The frame of `.dump` and `.load`: ALIGN and SEG of its address, the team's condition, then its pages translated. -/
def frameOp (x : Issue) (s : State) (d : Dispatch) (a : Acc) (k : State → Team → Partition → List Nat → IRes) : IRes :=
  let va := rdC s x x.lead
  let acc := if a = .write then 2 else 1
  match findTeam s d.id (rdB s x x.lead), dispOf s x.g, groupPart s x.g with
  | some t, some me, some p =>
    if !teamStill s t then doneWith s x 2
    else if !inLease me (va57 va) frameSize then raiseErr s x acc (asidOf s x.g) ⟨kLEASE, 0, va⟩ x.act
    else
      match xlateRun s (ctxOn me x.g.core) a (va57 va) frameSize with
      | (s, .error (f, .fault c)) => raiseErr s x acc (asidOf s x.g) ⟨kXLATE, c, f⟩ x.act
      | (s, .error (f, .rem)) => raiseErr s x acc (asidOf s x.g) ⟨kREMERR, 0, f⟩ x.act
      | (s, .error _) => .park s (.migration (asidOf s x.g))
      | (s, .ok tab) =>
        let s := settleSlots s p (blocksVia tab (va57 va) frameSize)
        if !allReach s && unreachable s p (dieOf x.g) tab (va57 va) frameSize then raiseErr s x acc (asidOf s x.g) ⟨kREMERR, 0, va⟩ x.act
        else k s t p ((List.range 32).map (fun i => paVia tab (va57 va + 65536 * i)))
  | _, _, _ => doneWith s x 2

/-- ALIGN and SEG of a frame's address, before anything else. -/
def frameAddr (x : Issue) (s : State) (k : State → IRes) : IRes :=
  groupWide x s fun s =>
    let va := rdC s x x.lead
    if va % frameSize != 0 then raiseErr s x 0 (asidOf s x.g) ⟨kALIGN, 0, va⟩ x.act
    else match globTarget x.g va frameSize with
      | some (.glob _) => k s
      | _ => raiseErr s x 0 (asidOf s x.g) ⟨kSEG, 0, va⟩ x.act

/-- A team's context: its frame in memory while it is saved, else its state. -/
def teamContext (s : State) (t : Team) : CtxBytes :=
  match t.frame.bind (fun pa => (ringPart s pa).map (fun p => (pa, p))) with
  | some (pa, p) => readFrame s p (framePages pa)
  | none => contextFrame s t

/-- `ctxsave.dump`. -/
def execCtxsaveDump (y : XWord) (s : State) :=
  issue (.ctxsaveDump y) s fun x s => frameAddr x s fun s => ctxOp x s fun s d =>
    frameOp x s d .write fun s t p pages => doneWith (writeContext s p pages t (teamContext s t)) x 0

/-- `ctxrest.load`. -/
def execCtxrestLoad (y : XWord) (s : State) :=
  issue (.ctxrestLoad y) s fun x s => frameAddr x s fun s => ctxOp x s fun s d =>
    frameOp x s d .read fun s t p pages =>
      if badPages s p pages then raiseErr (noteBad s (badWordsIn s p pages)) x 1 (asidOf s x.g) ⟨kMEMERR, 0, rdC s x x.lead⟩ x.act
      else
        let f := readFrame s p pages
        if !frameOk s t f then doneWith s x 3
        else
          match t.frame.bind (fun pa => (ringPart s pa).map (fun q => (pa, q))) with
          | some (pa, q) => doneWith (writeFrame (loadCmds s t f) q (framePages pa) f) x 0
          | none => doneWith (loadBads (loadFrame (loadCmds s t f) t f) t []) x 0

/-- The groups of a team in HELD go back to RUN from their context (R391). -/
def resumeHeld (s : State) (t : Team) : State :=
  let gs := ((teamGroups s t).filter (fun g => g.state == .held)).map (·.id)
  gs.foldl (fun s g => exitIfDone (modGroup s g (fun g => { g with state := .run, before := .run, shadow := none })) g) s

/-- `ctxrest.resume`: with TM the HELD groups of a team, else the whole dispatch, which the scheduler then resumes. -/
def execCtxrestResume (y : XWord) (s : State) :=
  issue (.ctxrestResume y) s fun x s => ctxOp x s fun s d =>
    if xmod y 2 1 = 1 then
      match findTeam s d.id (rdB s x x.lead) with
      | some t => if (teamGroups s t).any (fun g => g.state == .held) then doneWith (resumeHeld s t) x 0 else doneWith s x 2
      | none => doneWith s x 2
    else if dispSaved s d then doneWith (modDisp s d.id (fun d => { d with preempt := 0, preemptFor := 0 })) x 0
    else doneWith s x 2

/-! ### `ctxrest.end` -/

/-- A queued command discarded with its full credit and ERR (R114); a local barrier of a saved team is discarded with it. -/
def discardCmd (s : State) (c : Cmd) : State :=
  match c.saved, c.bar with
  | true, .loc _ _ _ => dropCmd s c.id
  | _, _ => failCmd s c [] ⟨0, 0, 0, 0⟩

/-- The dirty lines of a saved team's window, each with its address. -/
def savedLines (f : CtxBytes) (t : Team) (w : Window) : List (Nat × Nat) :=
  ((linesOfRange (w.base - 4096 * t.localBase) w.len).filter (fun l => fldN (fnum f (0x111000 + l) 1) 1 3 == 5)).map
    (fun l => (l, va57 (w.va + (128 * l - (w.base - 4096 * t.localBase)))))

/-- A dirty window line of a saved team lies in a page under migration (R89). -/
def savedMigs (s : State) (d : Dispatch) : Bool :=
  (s.teams.filter (fun t => t.disp == d.id && t.frame.isSome)).any (fun t =>
    t.windows != [] && (let f := teamContext s t
      t.windows.any (fun w => (savedLines f t w).any (fun l => vaMigs s (ctxOf d (coreDie t.core)) .write l.2 1))))

/-- The dirty window lines of a saved team, written back from its frame as the team retires (R100). -/
def retireSavedWindows (s : State) (t : Team) : State :=
  let f := teamContext s t
  let bad := contextBads s t
  match findDisp s t.disp with
  | none => s
  | some d =>
    t.windows.foldl (fun s w =>
      (savedLines f t w).foldl (fun s (l, va) =>
          let m := fnum f (0x112000 + 16 * l) 16
          match translate s (ctxOf d (coreDie t.core)) va .write, dispPart s d with
          | (s, .ok pa), some p =>
            let (lost, s) := errorReply s [pa]
            if !reachable s p (coreDie t.core) pa || lost then wbFail s t va 0 else
            let s := settleSlots (countTraffic s p (coreDie t.core) pa) p [pa]
            let bs := (List.range 128).filterMap (fun i => if m.testBit i then some (0x91000 + 128 * l + i, placeOf p (pa + i)) else none)
            markMem (wrCoherent s (bs.map (fun b => (b.2, Sparse.get 0 f b.1)))) ((bs.filter (fun b => bad.contains (b.1 - b.1 % 8))).map (·.2))
          | (s, .fault c), _ => wbFail s t va c
          | (s, _), _ => wbFail s t va 0) s) s

/-- A saved team that ends: its windows written back, its frame returned to the pool, nothing of it placed. (DEDUCED: log 47) -/
def endSavedTeam (s : State) (t : Team) : State :=
  match t.frame with
  | none => s
  | some pa =>
    let s := retireSavedWindows s t
    let s := match queueRing s.savepool with | some pool => poolPush s (coreDie t.core) pool pa | none => s
    modTeam s t.disp t.teamid (fun t => { t with windows := [], retired := List.range t.tgrps })

/-- Every access of a partition's groups is performed. -/
def drainPart (s : State) (part : Nat) : State :=
  ((s.groups.filter (fun h => ((dispOf s h).map (fun d => d.part == part)).getD false)).map (·.id)).foldl drainGroup s

/-- A group of a dispatch that is ended exits and retires; a domain switch that it waits for is completed, with the requests stamped before it
performed (R64). -/
def endGroup (s : State) (g : Group) : State :=
  let s := leaveGrowers (dropGroupFaults s g.id) g
  let s := match g.state, g.wait with
    | .park, .sys 0 part val => domEnd (drainPart s part) g.id part val
    | _, _ => { s with sysOps := s.sysOps.filter (fun o => o.1 = 2 ∨ o.2.2 != g.id) }
  if unretired g then retireGroup (exitGroup s g.id) g.id else retireGroup s g.id

/-- A dispatch ended by system software (R391): a saved `smp.end` or `rc.sync` is a queued command (R277, R294). (DEDUCED: log 43; DEDUCED: log 44) -/
def endByRest (s : State) (d : Dispatch) : State :=
  let s := modDisp s d.id (fun d => { d with state := .running, preempt := 0, nextTeam := dispNcl d * dispClsize d })
  let s := { s with faults := s.faults.filter (fun w => !(w.grp.isNone && w.cmd.isNone && w.what == 0 && w.disp == d.id)) }
  let queued (c : Cmd) : Bool := !c.started || (c.saved && (c.opc == 0x299 || c.opc == 0x2A2))
  let s := (s.cmds.filter (fun c => c.disp == d.id && queued c)).foldl discardCmd s
  let s := (s.teams.filter (fun t => t.disp == d.id)).foldl endSavedTeam s
  let s : State := { s with clusters := s.clusters.map (fun c => if c.disp = d.id then { c with state := .running } else c),
                            cmds := s.cmds.map (fun c =>
                              if c.disp = d.id then { c with saved := false, bar := match c.saved, c.bar with | true, .loc _ _ _ => .none | _, b => b } else c) }
  pruneClusters ((s.groups.filter (fun g => g.disp == d.id)).foldl endGroup s)

/-- `ctxrest.end`: the group waits until the dispatch has retired; while a window line to be written back lies in a page under migration it waits
for that (R89). (DEDUCED: log 47) -/
def execCtxrestEnd (y : XWord) (s : State) :=
  issue (.ctxrestEnd y) s fun x s => ctxOp x s fun s d => if savedMigs s d then .park s (.migration (dispAsid d)) else .parkDone (endByRest s d) (.sys sysEnd d.id 0)

end Sys2Proof.Machine
end

