-- ==== Sys2Proof/Machine/Control.lean ====
section
/-! DEFINITION. Control flow (R187 to R193), and the end of naps. -/
namespace Sys2Proof.Machine

/-- head address + 8 × OFF (R188). -/
def braTarget (x : Issue) (y : XWord) : DWord := x.pc + BitVec.ofInt 64 (8 * sextN 32 (xtail y 2 32))

/-- The SEG of a target that breaks R72, with the lanes concerned (R188). -/
def targetSeg (lanes : List Nat) (a : Nat) : TrapInfo := { kind := kSEG, mask := lanes, daddr := BitVec.ofNat 64 a }

/-- A jump of every active lane to one target: SEG where the target breaks R72 (R188). -/
def jumpAll (s : State) (x : Issue) (t : DWord) : IRes :=
  if x.act.isEmpty || canonical t.toNat then .jump s (x.act.map fun l => (l, t)) else .trap s (targetSeg x.act t.toNat)

/-- `bra` (R188). -/
def execBra (y : XWord) (s : State) := issue (.bra y) s fun x s => jumpAll s x (braTarget x y)

/-- `call` (R188): DST gets the address after the instruction; a trapped one writes nothing. -/
def execCall (y : XWord) (s : State) :=
  issue (.call y) s fun x s =>
    match jumpAll s x (braTarget x y) with
    | .jump s dest => .jump (modGroup s x.g.id (fun g => putDst g x.i (allLanes x x.next.toNat))) dest
    | r => r

/-- A branch to per-lane targets (R188): ALIGN before SEG, no pcv changed by a failing one. -/
def laneBranch (s : State) (_ : Issue) (dest : List (Nat × Nat)) : IRes :=
  match dest.filter (fun p => p.2 % 8 != 0) with
  | p :: ps => .trap s { kind := kALIGN, mask := (p :: ps).map (·.1), daddr := BitVec.ofNat 64 p.2 }
  | [] =>
    match dest.filter (fun p => !canonical p.2) with
    | p :: ps => .trap s (targetSeg ((p :: ps).map (·.1)) p.2)
    | [] => .jump s (dest.map fun p => (p.1, BitVec.ofNat 64 p.2))

/-- `brx` (R188): absolute, or relative to the issue address. -/
def execBrx (f : FWord) (s : State) :=
  issue (.brx f) s fun x s =>
    laneBranch s x (x.act.map fun l =>
      (l, if fmod f 0 1 = 1 then (x.pc + BitVec.ofInt 64 (sextN 32 (rdA s x l))).toNat else rdA s x l))

/-- `ret` (R188). -/
def execRet (f : FWord) (s : State) := issue (.ret f) s fun x s => laneBranch s x (x.act.map fun l => (l, rdA s x l))

/-- `exit` (R189). -/
def execExit (f : FWord) (s : State) := issue (.exit f) s fun x s => .jump s (x.act.map fun l => (l, exitPc))

/-- `yield` (R190): the active lanes become deferred at the next instruction. -/
def execYield (f : FWord) (s : State) :=
  issue (.yield f) s fun x s => .done (modGroup s x.g.id (fun g => { g with deferred := g.deferred ||| maskLanes x.act })) []

/-- `nap` (R192): each active lane parks for its own count, at most 2^20 clocks. -/
def execNap (f : FWord) (s : State) :=
  issue (.nap f) s fun x s =>
    .done (modGroup s x.g.id (fun g =>
      { g with parked := g.parked ||| maskLanes x.act,
               naps := g.naps ++ x.act.map (fun l => (l, s.clk + min (rdA s x l) (2 ^ 20))) })) []

/-- A nap ends: the lane is live again, once its clocks have passed (R192). -/
def execNapExpiry (grp lane : Nat) (s : State) :=
  event (fun s =>
    match findGroup s grp with
    | none => s
    | some g =>
      if g.naps.any (fun n => n.1 == lane && decide (n.2 ≤ s.clk)) then
        setGroup s { g with parked := g.parked &&& ~~~ maskLanes [lane], naps := g.naps.filter (fun n => n.1 != lane) }
      else s) s

/-- `trap` and `brk` (R193): the record's resumption address is the next instruction. (DEDUCED: log 15) -/
def softTrap (kind : Nat) (f : FWord) (x : Issue) (s : State) : IRes :=
  if x.act.isEmpty then .done s []
  else .trap s { kind := kind, cause := fmod f 0 8, mask := x.act, nextPc := true }
def execTrap (f : FWord) (s : State) := issue (.trap f) s fun x s => softTrap kSWTRAP f x s
def execBrk (f : FWord) (s : State) := issue (.brk f) s fun x s => softTrap kBRK f x s

end Sys2Proof.Machine
end

