-- ==== Sys2Proof/Machine/Tasks.lean ====
section
/-! DEFINITION. Task workers: delivery, `task.end`, `spawn`, coalescing nodes, and the task cycle limit (R342 to R357). -/
namespace Sys2Proof.Machine

/-! ### Spawning (R353, R354) -/

/-- The 64 bytes of a lane's four quads. -/
def spawnRec (s : State) (x : Issue) (y : XWord) (l : Nat) : List Byte :=
  let e := match opndOfCode (xmod y 0 9) with | some o => srcVal s x (.vreg 4) o l | none => 0
  leBytes 16 (rdA s x l) ++ leBytes 16 (rdB s x l) ++ leBytes 16 (rdC s x l) ++ leBytes 16 e

/-- Records appended to a node in order, each with its place in the instruction's list. -/
def spawnNode (x : Issue) (k : Nat) (rs : List (Nat × List Byte)) (s : State) : State :=
  rs.foldl (fun s r => appendNode s x.g.disp (dieOf x.g) k r.2) s

/-- `spawn`: a release, whose held store error comes first (R139); records whose ring or node lies in a page under migration wait (R89).
(DEDUCED: log 42) -/
def execSpawn (y : XWord) (s : State) :=
  issue (.spawn y) s fun x s => groupWide x s fun s =>
    match dispOf s x.g with
    | none => .done s []
    | some d =>
      withRelease x s x.act fun s =>
      match readQueue s d (dieOf x.g) with
      | (s, none) => .park s (if vaMigs s (ctxOf d (dieOf x.g)) .read (taskqVa d) 256 then .migration (dispAsid d) else .ring)
      | (s, some q) =>
        let rs := x.act.map (fun l => (l, spawnRec s x y l))
        let bad := (rs.filter (fun r => malformedRec d q r.2)).map (·.1)
        if bad != [] then .trap s { kind := kSEG, cause := 2, mask := bad }
        else
            let ofNode (k : Nat) : List (Nat × List Byte) := rs.filter (fun r => recCkey r.2 == k)
            if (List.range 8).any (fun k => ofNode k != [] && appendMigs s d (dieOf x.g) k (ofNode k).length) then .park s (.migration (dispAsid d)) else
            let ring := ofNode 0
            match (if ring = [] then some (0, s) else appendRing s d (dieOf x.g) (ring.map (·.2))) with
            | none => .park s .ring
            | some (base, s) =>
              let s := (List.range 7).foldl (fun s k => spawnNode x (k + 1) (ofNode (k + 1)) s) s
              let pos (r : Nat × List Byte) : Nat :=
                let k := recCkey r.2
                ((ofNode k).takeWhile (fun e => e.1 != r.1)).length + (if k = 0 then base else 0)
              .done (modGroup s x.g.id (fun g => putDst g x.i (rs.map (fun r => (r.1, pos r % 2 ^ 32))))) []

/-! ### The end of a task and the next (R346, R347) -/

/-- `task.end`. -/
def execTaskEnd (f : FWord) (s : State) :=
  issueConv (.taskEnd f) s fun x s => groupWide x s fun s => withRelease x s x.act fun s => .gone (endTask s x.g.id)

/-- The blocks of a worker at delivery: those above REGS released, missing ones granted in the order of R130, for which the worker joins the
requests that are parked (R346). -/
def taskBlocks (s : State) (g : Group) (n : Nat) : Option (List Nat) :=
  if n ≤ g.blocks.length then some (g.blocks.take n) else (growBlocks s g n).map (fun bs => g.blocks ++ bs)

/-- The state that delivery sets (R346). -/
def deliverTo (s : State) (d : Dispatch) (g : Group) (bs : List Nat) (r : List Byte) : Group :=
  let arg := qNum r 8 8
  let fresh := newGroup s d g.teamid g.grpid g.core (g.sector, g.col, bs)
  let tc := recByte d 40
  let t : TaskCtx :=
    { tidx := BitVec.ofNat 64 (recTidx r), arg := BitVec.ofNat 64 arg, tcrd := BitVec.ofNat 64 (qNum r 16 8), succ := BitVec.ofNat 64 (recSucc r),
      start := s.clk, limit := 2 ^ (if tc = 0 then 20 else tc), pend := [] }
  let g' := { fresh with
    id := g.id, state := .run, before := .run, wait := .none, born := g.born, lastIssue := g.lastIssue, lateErrs := g.lateErrs, failed := g.failed,
    fences := g.fences, trec := g.trec, tape := g.tape, pcv := List.replicate g.width (recEntry r),
    prio := BitVec.ofNat 32 (min (recTpri r) (dispPrioCeil d)), task := some t }
  (List.range 6).foldl (fun g i => writeK g (2 + i) (BitVec.ofNat 32 (qNum r (40 + 4 * i) 4)))
    (writeK (writeK g' 0 (BitVec.ofNat 32 arg)) 1 (BitVec.ofNat 32 (arg / 2 ^ 32)))

/-- A worker that waits for a record may take one now: its cluster runs (R351). -/
def workerFree (s : State) (g : Group) : Bool :=
  g.state == .park && g.wait == .task && g.task.isNone
    && (match (teamOf s g).bind (fun t => findCluster s g.disp t.clid) with | some c => c.state == .running | none => true)

/-- HEAD moved past a record (R343). -/
def advanceHead (s : State) (d : Dispatch) (die : Nat) (q : List Byte) : State :=
  (wrVa s (ctxOf d die) (taskqVa d + 16) (leBytes 8 (qHead q + 1))).getD s

/-- TASK_DELIVERY: the record at HEAD goes to a waiting worker; a malformed one is skipped and posted (R350); with no record and none to
come the worker exits (R347). (DEDUCED: log 42) -/
def deliverTask (s : State) (gid : Nat) : State :=
  match findGroup s gid with
  | none => s
  | some g =>
    match dispOf s g with
    | none => s
    | some d =>
      if !workerFree s g || vaMigs s (ctxOf d (dieOf g)) .write (taskqVa d) 256 then s
      else
        match readQueue s d (dieOf g) with
        | (s, none) => s
        | (s, some q) =>
          if qUsed q = 0 then (if liveRecords s d + liveTasks s d = 0 then exitGroup (leaveGrowers s g) gid else leaveGrowers s g)
          else
            match rdVa s (ctxOf d (dieOf g)) (qRing q + 64 * (qHead q % qCount q)) 64 with
            | (s, none) => s
            | (s, some r) =>
              if malformedRec d q r then
                notify (advanceHead s d (dieOf g) q) (dieOf g) (.unit (dieOf g) unitSched)
                  { kind := evBadTask, extra := BitVec.ofNat 64 (recTidx r), team := g.teamid, disp := g.disp }
              else
                match taskBlocks s g (recByte d 21) with
                | none => joinGrowers s g
                | some bs =>
                  let s := acquireNow (advanceHead (leaveGrowers s g) d (dieOf g) q) gid
                  modGroup s gid (fun g => deliverTo s d g bs r)
def execTaskDelivery (grp : Nat) (s : State) := event (fun s => deliverTask s grp) s

/-- TASK_WDOG (R350): a task that reaches its limit ends with WDOG. -/
def execTaskWdog (grp : Nat) (s : State) :=
  event (fun s =>
    match findGroup s grp with
    | none => s
    | some g =>
      match g.task with
      | some t => if t.start + t.limit ≤ s.clk then endWith s grp kWDOG ((issueAddr g).getD exitPc) 0 0 [] 0 else s
      | none => s) s

/-! ### Coalescing nodes (R355 to R357) -/

/-- `coal.flush` (R357): one atomic step on a node, as a release. `f` gives the new PROD, or nothing for SEG. (DEDUCED: log 42) -/
def coalOp (x : Issue) (s : State) (now : Bool) (f : Nat → Nat → Option Nat) : IRes :=
  groupWide x s fun s => withRelease x s x.act fun s =>
    match dispOf s x.g with
    | none => .done s []
    | some d =>
      let k := rdA s x x.lead
      match readQueue s d (dieOf x.g) with
      | (s, none) => .park s (if vaMigs s (ctxOf d (dieOf x.g)) .read (taskqVa d) 256 then .migration (dispAsid d) else .ring)
      | (s, some q) =>
        let seg : IRes := .trap s { kind := kSEG, mask := x.act }
        if k = 0 ∨ 7 < k then seg
        else if nodeThresh q k = 0 then seg
        else
          match f (nodeProd q k) (rdB s x x.lead) with
          | none => seg
          | some n =>
            if appendMigs s d (dieOf x.g) k 0 then .park s (.migration (dispAsid d)) else
            let held := nodeHeld q k
            let s := (wrVa s (ctxOf d (dieOf x.g)) (taskqVa d + nodeOff k + 12) (leBytes 4 n)).getD s
            let s := if held != 0 && (now || (n == 0 && nodeProd q k != 0)) then startRelease s x.g.disp (dieOf x.g) k else s
            doneWith s x held

def execCoalFlushNow (y : XWord) (s : State) := issue (.coalFlushNow y) s fun x s => coalOp x s true (fun p _ => some p)
def execCoalFlushDone (y : XWord) (s : State) :=
  issue (.coalFlushDone y) s fun x s => coalOp x s false (fun p _ => if p = 0 then none else some (p - 1))
def execCoalFlushProd (y : XWord) (s : State) :=
  issue (.coalFlushProd y) s fun x s => coalOp x s false (fun p n => if 2 ^ 32 ≤ p + n then none else some (p + n))

/-- NODE_FLUSH_TIMER (R356): F clocks have passed since the batch's first record arrived. -/
def execNodeFlushTimer (disp node : Nat) (s : State) :=
  event (fun s =>
    match findDisp s disp with
    | none => s
    | some d =>
      let die := partDie s d.part
      match (d.nodes.find? (fun n => n.node == node)).bind (·.since), (readQueue s d die).2 with
      | some t, some q => if t + nodeF q node ≤ s.clk then startRelease s disp die node else s
      | _, _ => s) s

/-- NODE_RELEASE (R356): batches in release are appended while the ring has room. -/
def execNodeRelease (disp node : Nat) (s : State) :=
  event (fun s => match findDisp s disp with | some d => releaseNode s disp (partDie s d.part) node | none => s) s

/-- A group that waits for room in the ring tries again: a task over with a successor's record to append, or its instruction again. -/
def resumeRing (s : State) (gid : Nat) : State :=
  match findGroup s gid with
  | none => s
  | some g =>
    if g.state != .park || g.wait != .ring then s
    else if (g.task.map (fun t => t.pend != [])).getD false then endTask s gid
    else modGroup s gid unparkGroup

/-- RING_ROOM_RESUME (R354, R356): room has appeared in a task ring for one that waits for it. -/
def execRingRoomResume (disp : Nat) (who : RingWaiter) (s : State) :=
  event (fun s =>
    match who with
    | .group g => resumeRing s g
    | .node k => match findDisp s disp with | some d => releaseNode s disp (partDie s d.part) k | none => s) s

end Sys2Proof.Machine
end

