-- ==== Sys2Proof/Machine/Tlbinv.lean ====
section
/-! DEFINITION. `tlbinv` (R85, R86), and the requests that walk again after it (R89). -/
namespace Sys2Proof.Machine

/-- A dispatch is of the space. -/
def ofAsid (s : State) (disp asid : Nat) : Bool := ((findDisp s disp).map (fun d => dispAsid d == asid)).getD false

/-- A lease of a running dispatch of a space, or a page pinned under it, overlaps a range; a dispatch counts from its acceptance
to its retirement. (DESIGN CHOICE: log 72) -/
def leaseHeld (s : State) (asid va n : Nat) : Bool :=
  s.dispatches.any (fun d => d.state != .retired && dispAsid d == asid
    && ((dispLeases d).any (fun r => overlap (va57 r.1) r.2 va n) || d.pins.any (fun a => overlap (a - a % 65536) 65536 va n)))

/-- Requests of a space that were translated before are performed: its groups' accesses in flight, and the offers of its queries (R86, R89). -/
def performOld (s : State) (asid : Nat) : State :=
  let s := ((s.groups.filter (fun g => ofAsid s g.disp asid)).map (·.id)).foldl drainGroup s
  (s.cmds.filter (fun c => c.opc == 0x2A1 && c.asid == asid)).foldl finishOffers s

/-- Dirty lines of windows that map part of a range written back through the old mapping, which for a page under migration is still the leaf's;
a line that faults stays dirty (R86, R89, R100). -/
def flushWindows (s : State) (asid va n : Nat) : State :=
  (s.teams.filter (fun t => ofAsid s t.disp asid && t.frame.isNone)).foldl (fun s t =>
    t.windows.foldl (fun s w =>
      (windowLines s t w 3).foldl (fun s l =>
        if overlap (windowVa w l) 128 va n then
          match writeBackHeld s t w l with
          | .ok s => s
          | .fault s _ _ => s
          | .mig s => writeBackOld s t w l
        else s) s) s) s

/-- Translations of a range that windows and tile handles of a team hold dropped (R86). -/
def dropHeld (va n : Nat) (t : Team) : Team :=
  let out (page : Nat) : Bool := !overlap (65536 * page) 65536 va n
  { t with windows := t.windows.map (fun w => { w with pages := w.pages.filter (fun e => out e.1) }),
           th := t.th.map (fun h => { h with pages := h.pages.filter (fun e => out e.1) }) }

/-- Every cached translation of a range dropped: TLBs, page-walk caches, tile handles and windows (R80, R86). -/
def dropTranslations (s : State) (asid va n : Nat) : State :=
  { s with tlb := s.tlb.filter (fun t => !(t.asid == asid && overlap t.base (2 ^ t.lg) va n)),
           teams := s.teams.map (fun t => if ofAsid s t.disp asid then dropHeld va n t else t) }

/-- A group that waits on a migrating mapping of a space, or at an object or a barrier that lies in it, walks again (R89); a recording conductor
records its wait anew (R362). -/
def rewalkGroup (asid : Nat) (s : State) (g : Group) : State :=
  if g.state != .park then s
  else
    match g.wait with
    | .migration a => if a = asid then modGroup s g.id unparkGroup else s
    | .succMig a => if a = asid then endTask s g.id else s
    | .dro _ => if ofAsid s g.disp asid then modGroup s g.id unparkGroup else s
    | .bar _ none _ _ => if ofAsid s g.disp asid then modGroup (unrecordWait s g.id) g.id unparkGroup else s
    | _ => s

/-- Requests parked on a migrating mapping of a space walk again (R89). -/
def rewalk (s : State) (asid : Nat) : State :=
  s.groups.foldl (rewalkGroup asid) (((s.cmds.filter (fun c => c.asid == asid && c.fault == some 0)).map (·.id)).foldl freeCmd s)

/-- Everything that `tlbinv` does in one address space but the count (R86): requests translated before are performed, window lines written
back, translations dropped, requests that wait on a migration walk again, and the barriers of queued commands are translated anew. -/
def invalidateSpace (s : State) (asid va n : Nat) : State :=
  let s := dropTranslations (flushWindows (performOld s asid) asid va n) asid va n
  let inRange (c : Cmd) : Bool := c.asid == asid && (match c.bar with | .glob v _ _ => overlap v 16 va n | _ => false)
  let s : State := { s with cmds := s.cmds.map (fun c => if inRange c then { c with barOld := true } else c) }
  let s := rewalk s asid
  (s.cmds.filter (fun c => c.asid == asid)).foldl rebar s

/-- One address space: its epochs of the range incremented, then invalidated; the regions counted. (DEDUCED: log 37) -/
def tlbinvSpace (s : State) (die asid va n : Nat) : Nat × State :=
  match epochsOf s die asid with
  | some e => let is := regionsOf va n; (is.length, invalidateSpace (bumpEpochs s e is) asid va n)
  | none => (0, invalidateSpace s asid va n)

/-- `tlbinv` (R85, R86); a descriptor or an epoch that the group's die does not reach raises REMERR before any effect (R54). (DEDUCED: log 68) -/
def execTlbinv (y : XWord) (s : State) :=
  issue (.tlbinv y) s fun x s => groupWide x s fun s =>
    let all := xmod y 0 1 == 1
    let allas := xmod y 2 1 == 1
    let va := rdA s x x.lead
    let n := rdB s x x.lead
    let asid := rdC s x x.lead
    let err (k d : Nat) : IRes := raiseErr s x 0 (asidOf s x.g) ⟨k, 0, d⟩ x.act
    if !all && va % 65536 != 0 then err kALIGN va
    else if !all && n % 65536 != 0 then err kALIGN n
    else if !all && (!canonical va || decide (2 ^ 57 < va57 va + n)) then err kSEG va
    else if !allas && decide (4096 ≤ asid) then err kSEG asid
    else if !all && n = 0 then doneWith s x 0
    else
      withRelease x s x.act fun s =>
        let s := acquireNow s x.g.id
        let (lo, n) := if all then (0, 2 ^ 57) else (va57 va, n)
        let spaces := if allas then List.range 4096 else [asid]
        if xmod y 1 1 == 0 && spaces.any (fun a => leaseHeld s a lo n) then doneWith s x (1 <<< 24)
        else if spaces.any (fun a => epochsCut s (dieOf x.g) a (regionsOf lo n)) then .trap s { kind := kREMERR, mask := x.act }
        else
          let (k, s) := spaces.foldl (fun (r : Nat × State) a => let (k, s) := tlbinvSpace r.2 (dieOf x.g) a lo n; (r.1 + k, s)) (0, s)
          doneWith s x k

end Sys2Proof.Machine
end

