-- ==== Sys2Proof/Machine/Die.lean ====
section
/-! DEFINITION. Dies in and out of service (R400 to R403), self-tests (R399), and records that wait for room (R386). -/
namespace Sys2Proof.Machine

/-! ### `die.q` -/

/-- Working modules of an edge (R401). -/
def working (l : List Module) : Nat := (l.filter (fun m => !m.disabled && !m.retraining)).length

/-- Cores of a die that are retired without a spare (R401). -/
def lostCores (s : State) (d : Nat) : Nat := (s.cores.filter (fun k => coreDie k.lcore == d && k.retiredMark)).length

/-- What `die.q` answers for a die (R401). -/
def dieWord (s : State) (d : Nat) : Nat :=
  match findDie s d with
  | none => 0
  | some x => dstateNum x.state + working x.edgeA <<< 4 + working x.edgeB <<< 9 + (x.n % 64) <<< 14 + (lostCores s d % 64) <<< 20

/-- `die.q`: every active lane has its own die; a number above 3 raises SEG. -/
def execDieQ (f : FWord) (s : State) :=
  issue (.dieQ f) s fun x s =>
    match x.act.filter (fun l => decide (3 < rdA s x l)) with
    | [] => perLane s x (fun l => dieWord s (rdA s x l))
    | m => .trap s { kind := kSEG, mask := m }

/-! ### `die.rst` -/

/-- What keeps a die from Frost (R402): another die's route through it, a slice or channel of it in use, a network at home there. -/
def dieInUse (s : State) (d : Nat) : Bool :=
  s.dies.any (fun e =>
    let dg := fldN e.route.toNat 4 2
    e.num != d && ((d == (e.num + 1) % 4 && decide (dg < 2)) || (d == (e.num + 3) % 4 && (dg == 0 || dg == 2))))
  || s.partitions.any (fun p => p.slices.any (fun v => v / 16 == d) || p.channels.any (fun c => c / 64 == d))
  || s.networks.any (fun n => n.state != 0 && nHome n.desc == d)

/-- The frame of `die.rst` (R402): group-wide; a die number above 3 raises SEG; OWNDIE, then BUSY. (DEDUCED: log 46) -/
def dieRstOp (x : Issue) (s : State) (k : State → Die → IRes) : IRes :=
  groupWide x s fun s =>
    let d := rdA s x x.lead
    match findDie s d with
    | none => .trap s { kind := kSEG, mask := x.act }
    | some e => if d = dieOf x.g then doneWith s x 5 else if s.sysOps != [] then doneWith s x 1 else k s e

/-- The instruction is in progress on a die and the group waits for its end. (DEDUCED: log 46) -/
def startRst (x : Issue) (s : State) (d : Nat) : IRes :=
  .parkDone { s with sysOps := s.sysOps ++ [(2, d, x.g.id)] } (.sys sysRst d 0)

/-- `die.rst` ends with a status: its group goes on. -/
def endRst (s : State) (d status : Nat) : State :=
  match s.sysOps.find? (fun o => o.1 == 2 && o.2.1 == d) with
  | none => s
  | some o => releaseGroup { s with sysOps := s.sysOps.filter (fun q => q != o) } o.2.2 status

/-- `die.rst.frost`: the die freezes; without DRAIN the clusters on it are pre-empted. -/
def execDieRstFrost (y : XWord) (s : State) :=
  issue (.dieRstFrost y) s fun x s => dieRstOp x s fun s e =>
    if e.state != .service then doneWith s x 3
    else if dieInUse s e.num then doneWith s x 2
    else
      let drain := xmod y 2 1 == 1
      let s := setDieState s e.num .freezing
      startRst x (if drain then s else s.dispatches.foldl (fun s d => requestSave s d.id (.die e.num)) s) e.num

/-- `die.rst.reset`: the die's SRAM is discarded, the self-test and the training of its links begin. -/
def execDieRstReset (y : XWord) (s : State) :=
  issue (.dieRstReset y) s fun x s => dieRstOp x s fun s e =>
    if e.state != .frost && e.state != .failed then doneWith s x 3
    else
      let d := e.num
      let onDie (b : ArrayLoc) : Bool := match b with | .mem _ => false | _ => arrayDie s b == d
      let s := { s with cores := s.cores.map (fun k => if coreDie k.lcore = d then
                          { k with lmem := [], lines := [], slots := List.replicate 8 slotReset, array := [], l1 := [], kc := [], growers := [] } else k),
                        badWords := s.badWords.filter (fun b => !onDie b), corrWords := s.corrWords.filter (fun b => !onDie b),
                        tlb := s.tlb.filter (fun t => (if t.lvl ≤ 2 then coreDie t.unit else t.unit) != d) }
      let s := modDie s d (fun k => { k with tapes := [], unitsOff := [], unitsTest := [], waysTest := [], sampler := { k.sampler with table := [] } })
      startRst x (setDieState s d .reset) d

/-- `die.rst.thaw`: with both edges up the die serves again. -/
def execDieRstThaw (y : XWord) (s : State) :=
  issue (.dieRstThaw y) s fun x s => dieRstOp x s fun s e =>
    if e.state = .frost ∧ linkUp s e.num true = true ∧ linkUp s e.num false = true then
      doneWith (setDieState s e.num .service) x 0
    else doneWith s x 3

/-- A freezing die has reached its quiesce point (R402): no cluster is left on it, and its units have finished what they accepted. (DEDUCED: log 45) -/
def dieQuiet (s : State) (d : Nat) : Bool :=
  ((findDie s d).map (fun k => k.state == .freezing)).getD false
    && !s.teams.any (fun t => coreDie t.core == d && t.frame.isNone && teamHolds s t)
    && !s.cmds.any (fun c => coreDie c.core == d && !c.saved)
    && !s.hostQueues.any (fun h => (h.play.map (fun p => tapeDie p.handle == d)).getD false)
    && !s.groups.any (fun g => g.state != .saved && (match g.tape with | .playing h .. => tapeDie h == d | _ => false))

/-- DIE_QUIESCE: L1s are written back, tapes freed but for those whose player is saved (R371), links quiesced; the die enters FROST. -/
def execDieQuiesce (die : Nat) (s : State) :=
  event (fun s =>
    if !dieQuiet s die then s
    else
      let s := drainDie s die
      let home (d : Dirty) : Dirty := if (d.owner.map (fun c => coreDie c == die)).getD false then { d with owner := none } else d
      let s : State := { s with dirty := s.dirty.map (fun e => (e.1, e.2.map home)),
                                cores := s.cores.map (fun k => if coreDie k.lcore = die then { k with l1 := [], kc := [] } else k) }
      let s := modDie s die (fun k => { k with tapes := k.tapes.filter (·.state == .playing) })
      endRst (setDieState s die .frost) die 0) s

/-- DIE_RESET_DONE (R400): FROST with every module trained, or FAILED. (DEDUCED: log 46) -/
def execDieResetDone (die : Nat) (pass : Bool) (s : State) :=
  event (fun s =>
    if !((findDie s die).map (fun k => k.state == .reset)).getD false then s
    else if pass then
      let train (l : List Module) : List Module := l.map (fun _ => ⟨0, false, false⟩)
      endRst (setDieState (modDie s die (fun k => { k with edgeA := train k.edgeA, edgeB := train k.edgeB })) die .frost) die 0
    else endRst (setDieState s die .failed) die 4) s

/-! ### Self-tests (R399) -/

/-- A test's verdict as it is posted. (DESIGN CHOICE: log 35) -/
def postTest (s : State) (die kind what : Nat) : State := notify s die (.unit die unitTest) { kind := kind, extra := BitVec.ofNat 64 what }

/-- The dirty lines of a slice written back. (DEDUCED: log 46) -/
def flushSlice (s : State) (slice : Nat) : State :=
  s.partitions.foldl (fun s p => ((dirtyLines s p).filter (fun l => homeSlice p l.2 == slice)).foldl (fun s l => writeBackFrom s p l) s) s

/-- SELF_TEST_START: a core's clusters are pre-empted and none is placed there; a slice's lines are written back and the way is unused; a
die unit's commands are held. (DEDUCED: log 46) -/
def startTest (s : State) (u : TestUnit) : State :=
  let s : State := { s with dies := s.dies.map (fun d => { d with due := d.due.filter (· != u) }) }
  match u with
  | .core c =>
    if ((findCore s c).map (fun k => k.testing || k.retiredMark)).getD true then s
    else
      let s := modCore s c (fun k => { k with testing := true })
      s.dispatches.foldl (fun s d => requestSave s d.id (.core c)) s
  | .sliceWay v w => modDie (flushSlice s v) (v / 16) (fun d =>
      if d.waysOff.contains (v, w) || d.waysTest.contains (v, w) then d else { d with waysTest := d.waysTest ++ [(v, w)] })
  | .dieUnit d u =>
    modDie s d (fun k => if k.unitsTest.contains (unitNo u) || k.unitsOff.contains (unitNo u) then k else { k with unitsTest := k.unitsTest ++ [unitNo u] })
def execSelfTestStart (u : TestUnit) (s : State) := event (fun s => startTest s u) s

/-- The physical positions of a die's array that no entry of its remap table names and that are not retired (R325). (DESIGN CHOICE: log 7) -/
def spares (d : Die) : List Nat := (List.range 48).filter (fun i => !d.remap.contains i && !d.retiredCores.contains i)

/-- A core retired (R325, R399): its entry is rebound to a spare, or it takes no teams until a partition is next created. (DESIGN CHOICE: log 7; DEDUCED: log 46) -/
def retireCore (s : State) (c : Nat) : State :=
  match findDie s (coreDie c) with
  | none => s
  | some d =>
    let i := c % 44
    match spares d with
    | p :: _ =>
      let s := modDie s d.num (fun d => { d with retiredCores := d.retiredCores ++ [d.remap[i]?.getD 0], remap := updAt i (fun _ => p) d.remap })
      let mine (b : ArrayLoc) : Bool := match b with | .lmem k _ | .acc k _ _ | .slab k _ _ => k == c | _ => false
      { s with badWords := s.badWords.filter (fun b => !mine b), corrWords := s.corrWords.filter (fun b => !mine b),
               cores := s.cores.map (fun k => if k.lcore = c then coreReset c d.num else k) }
    | [] => modCore (modDie s d.num (fun d => { d with retiredCores := d.retiredCores ++ [d.remap[i]?.getD 0] })) c (fun k => { k with retiredMark := true })

/-- A core under test has no cluster left on it. -/
def coreEmpty (s : State) (c : Nat) : Bool := !s.teams.any (fun t => t.core == c && t.frame.isNone && teamHolds s t)

/-- The address spaces in which something waits on a mapping walk again, as the first touches that a unit under test held do. -/
def rewalkWaits (s : State) : State :=
  let gs := s.groups.filterMap (fun g => match g.state, g.wait with | .park, .migration a | .park, .succMig a => some a | _, _ => none)
  let cs := (s.cmds.filter (fun c => c.fault == some 0)).map (·.asid)
  (gs ++ cs).eraseDups.foldl rewalk s

/-- SELF_TEST_DONE: back in service with TESTPASS, or retired with RETIRED. (DESIGN CHOICE: log 35) -/
def endTest (s : State) (u : TestUnit) (pass : Bool) : State :=
  match u with
  | .core c =>
    if !((findCore s c).map (·.testing)).getD false || !coreEmpty s c then s
    else
      let s := modCore s c (fun k => { k with testing := false })
      if pass then postTest s (coreDie c) evTestPass c else retireCore (postTest s (coreDie c) evRetired c) c
  | .sliceWay v w =>
    if !((findDie s (v / 16)).map (fun d => d.waysTest.contains (v, w))).getD false then s
    else
      let s := modDie s (v / 16) (fun d => { d with waysTest := d.waysTest.filter (· != (v, w)) })
      if pass then postTest s (v / 16) evTestPass (2 ^ 16 + v * 16 + w)
      else postTest (modDie s (v / 16) (fun d => { d with waysOff := d.waysOff ++ [(v, w)] })) (v / 16) evRetired (2 ^ 16 + v * 16 + w)
  | .dieUnit d u =>
    let n := unitNo u
    if !((findDie s d).map (fun k => k.unitsTest.contains n)).getD false then s
    else
      let s := modDie s d (fun k => { k with unitsTest := k.unitsTest.filter (· != n) })
      let s := if pass then s else modDie s d (fun k => { k with unitsOff := k.unitsOff ++ [n] })
      postTest (if u = .firstTouch then rewalkWaits s else s) d (if pass then evTestPass else evRetired) (2 ^ 17 + d * 16 + n)
def execSelfTestDone (u : TestUnit) (pass : Bool) (s : State) := event (fun s => endTest s u pass) s

/-! ### Held records (R386) -/

/-- The next record that a queue's sources may post, and the ring, where the queue has room now (R386, R387). -/
def postable (s : State) (q : PostQueue) : Option (HeldRec × Nat) :=
  match heldHead q [] s.heldRecs, postRing s q with
  | some h, some pa => if ringRoom s h.die pa then some (h, pa) else none
  | _, _ => none

/-- QUEUE_ROOM_POST. -/
def execQueueRoomPost (q : PostQueue) (s : State) :=
  event (fun s =>
    match postable s q with
    | some (h, pa) => ringPush { s with heldRecs := s.heldRecs.erase h } pa 64 (h.words.flatMap (fun w => leBytes 8 w.toNat))
    | none => s) s

end Sys2Proof.Machine
end

