-- ==== Sys2Proof/Machine/HostLink.lean ====
section
/-! DEFINITION. The host link, scale-up, bring-up and capabilities (R404 to R415). -/
namespace Sys2Proof.Machine

/-- The device accepts work: it has been powered on and is not in the safe state (R411). -/
def powered (s : State) : Bool := s.power == .on

/-- A step of the host's that only a device in service takes. -/
def hostStep (s : State) (f : State → State) : Host.Outcome State Fault Refusal := event (fun s => if powered s then f s else s) s

/-- The answer of the management channel. -/
def answer (s : State) (ws : List Nat) : State := { s with reply := ws.map (BitVec.ofNat 64) }

/-! ### Queues and their entries (R405, R406) -/

def findQueue (s : State) (q : Nat) : Option HostQueue := s.hostQueues.find? (fun h => h.id == q)
def ringBase (h : HostQueue) : Nat := hostPa (qNum h.desc 0 8)
def ringEntries (h : HostQueue) : Nat := 2 ^ qNum h.desc 8 1

/-- Bytes of host memory. -/
def hostBytes (s : State) (pa n : Nat) : List Byte := match ringPart s pa with | some p => rdPa s p pa n | none => []
def hostWrite (s : State) (pa : Nat) (bs : List Byte) : State := match ringPart s pa with | some p => wrPa s p pa bs | none => s

/-- A queue's descriptor is within its limits (R405); its reserved fields are ignored (R5). (DEDUCED: log 49) -/
def queueDescOk (d : List Byte) : Bool :=
  qNum d 0 8 % 4096 == 0 && decide (4 ≤ qNum d 8 1) && decide (qNum d 8 1 ≤ 16) && decide (qNum d 10 2 < 4096)

/-- QCREATE: a queue of a partition registered with its descriptor in host memory; at most 64 of a partition. -/
def execQcreate (queue part : Nat) (descPa : DWord) (s : State) :=
  hostStep s fun s =>
    let pa := hostPa descPa.toNat
    let d := hostBytes s pa 128
    if (findPart s part).isNone || (findQueue s queue).isSome || decide (64 ≤ (s.hostQueues.filter (fun h => h.part == part)).length) || !queueDescOk d then
      answer s [1]
    else
      let h : HostQueue := { id := queue, part := part, descPa := pa, desc := d, door := BitVec.ofNat 64 (qNum d 16 8), next := qNum d 16 8, busy := [],
                             waiting := none, signals := [], play := none, failed := false }
      answer { s with hostQueues := s.hostQueues ++ [h] } [0]

/-- QDOOR: entries up to t − 1 are ready; a value not above the last or too far above HEAD is ignored and posted as REFUSED. (DEDUCED: log 49) -/
def execQdoor (queue : Nat) (t : DWord) (s : State) :=
  hostStep s fun s =>
    match findQueue s queue with
    | none => s
    | some h =>
      if t.toNat ≤ h.door.toNat ∨ h.next + ringEntries h < t.toNat then postRefused s h.part (.host queue) t.toNat 0
      else modQueue s queue (fun h => { h with door := t })

/-- The entry that a queue reads next, once it is declared ready. -/
def nextEntry (s : State) (h : HostQueue) : Option (List Byte) :=
  if h.next < h.door.toNat then some (hostBytes s (ringBase h + 64 * (h.next % ringEntries h)) 64) else none

def entryKind (e : List Byte) : Nat := qNum e 0 1
def entryFence (e : List Byte) : Bool := (qNum e 1 1).testBit 0

/-- An entry that is REFUSED (R406): an unknown KIND, a reserved byte that is not zero, an address that is misaligned or not canonical (R72).
FLAGS[7:1] are ignored (R5).
(DEDUCED: log 49) -/
def entryBad (e : List Byte) : Bool :=
  !zeroAt e 2 6
  || (match entryKind e with
     | 1 => !canonical (qNum e 8 8) || !canonical (qNum e 24 8) || qNum e 8 8 % 64 != 0 || !zeroAt e 20 4 || qNum e 24 8 % 8 != 0 || !zeroAt e 40 24
     | 2 => !canonical (qNum e 16 8) || !canonical (qNum e 32 8) || !zeroAt e 10 6 || qNum e 16 8 % 8 != 0 || !zeroAt e 28 4 || qNum e 32 8 % 8 != 0 || !zeroAt e 48 16
     | 3 => !canonical (qNum e 8 8) || qNum e 8 8 % 8 != 0 || decide (2 ≤ qNum e 24 1) || !zeroAt e 25 39
     | 4 => !canonical (qNum e 8 8) || qNum e 8 8 % 8 != 0 || decide (2 ≤ qNum e 24 1) || !zeroAt e 25 39
     | _ => true)

/-- HEAD moves past the next entry, and the device writes it back (R405). -/
def takeEntry (s : State) (h : HostQueue) : State :=
  hostWrite (modQueue s h.id (fun h => { h with next := h.next + 1 })) (h.descPa + 16) (leBytes 8 (h.next + 1))

/-- An entry refused and skipped. -/
def refuseEntry (s : State) (h : HostQueue) : State := postRefused (takeEntry s h) h.part (.host h.id) h.next 0

/-- The entry may start (R406, R407): no WAIT holds it, with FENCE every earlier entry has completed, and a replay waits for an earlier one. (DEDUCED: log 49) -/
def entryReady (h : HostQueue) (e : List Byte) : Bool :=
  h.waiting.isNone && (!entryFence e || h.busy == []) && (entryKind e != 2 || h.play.isNone)

/-- The next entry of a queue, if it may start now. -/
def startable (s : State) (h : HostQueue) : Option (List Byte) := (nextEntry s h).filter (entryReady h)

/-- A step of a queue on its next entry, where that is a good one of a kind; a bad one is refused. -/
def onEntry (s : State) (queue kind : Nat) (f : State → HostQueue → List Byte → State) : State :=
  match findQueue s queue with
  | none => s
  | some h =>
    match startable s h with
    | none => s
    | some e => if entryBad e then refuseEntry s h else if entryKind e = kind then f s h e else s

def markBusy (s : State) (h : HostQueue) : State := modQueue s h.id (fun k => { k with busy := k.busy ++ [h.next] })

/-! ### The commands (R407, R408) -/

/-- DISPATCH: a submission that waits for acceptance. -/
def execDispatch (queue : Nat) (s : State) :=
  hostStep s fun s => onEntry s queue 1 fun s h e =>
    let x := queueCtx s h
    let b : Submission :=
      { id := s.nextId, part := h.part, sub := .host queue, recVa := va57 (qNum e 8 8), asid := x.asid, ascr := x.ascr, die := x.die, sysRight := queueSys h,
        asidBound := none, entry := h.next, signal := (qNum e 24 8, BitVec.ofNat 64 (qNum e 32 8)), ovr := none, preempt := qNum e 16 4 }
    let s := markBusy (takeEntry s h) h
    { s with submissions := s.submissions ++ [b], nextId := s.nextId + 1 }

/-- The slot values of a TAPE_PLAY (R366, R406); none where the patch table does not translate. (DESIGN CHOICE: log 27) -/
def hostSlots (x : XCtx) (table mask : Nat) : List Nat → State → List DWord → State × Option (List DWord)
  | [], s, l => (s, some l)
  | i :: is, s, l =>
    if !mask.testBit i || table == 0 then hostSlots x table mask is s l
    else
      match rdVa s x (va57 (table + 8 * i)) 8 with
      | (s, none) => (s, none)
      | (s, some b) => hostSlots x table mask is s (updAt i (fun _ => BitVec.ofNat 64 (ofLeBytes b)) l)

/-- TAPE_PLAY starts (R366, R369): the replay of a tape that cannot be played returns at once, with nothing done (log 27); an
unreadable patch table is refused. -/
def startPlay (s : State) (h : HostQueue) (e : List Byte) : State :=
  let x := queueCtx s h
  let sig := (qNum e 32 8, BitVec.ofNat 64 (qNum e 40 8))
  let hd := qNum e 8 2
  let t := if unitOff s (tapeDie hd) .tape || decide (1024 ≤ hd) then none else ownTape s x.asid hd
  match playCode t, t with
  | 0, some t =>
    (match hostSlots x (qNum e 16 8) (qNum e 24 4) (List.range 32) s t.slots with
    | (s, none) => refuseEntry s h
    | (s, some slots) =>
      let s := modTape (markBusy (takeEntry s h) h) hd (fun t => { t with state := .playing, tokens := [] })
      playHost (modQueue s h.id (fun k => { k with play := some ⟨hd, 0, slots, h.next, sig⟩ })) h.id)
  | _, _ => finishEntry (markBusy (takeEntry s h) h) h.id h.next sig

/-- A TAPE_PLAY entry may be taken: the tape unit is not under test, and no slot value lies in a page under migration (R89, R399). -/
def playMay (s : State) (h : HostQueue) (e : List Byte) : Bool :=
  !unitHeld s (tapeDie (qNum e 8 2)) .tape
    && !(List.range 32).any (fun i => (qNum e 24 4).testBit i && qNum e 16 8 != 0 && vaMigs s (queueCtx s h) .read (va57 (qNum e 16 8 + 8 * i)) 8)

/-- A host queue's replay that would get beyond the unit at which it waits. -/
def hostMoves (s : State) (h : HostQueue) : Bool :=
  match h.play with
  | none => false
  | some p =>
    !hostHeld s h.id && (match replayRun p.handle p.slots false ((((findTape s p.handle).map (·.units)).getD []).drop p.next) p.next (hostIssuer s h (tapeDie p.handle)) s with
      | (_, m, some (.hold _)) => m != p.next
      | _ => true)

/-- HOST_TAPE_PLAY: a replay in progress goes on, or the next entry's starts. -/
def execHostTapePlay (queue : Nat) (s : State) :=
  hostStep s fun s =>
    match findQueue s queue with
    | none => s
    | some h =>
      if hostMoves s h then playHost s queue
      else onEntry s queue 2 fun s h e => if playMay s h e then startPlay s h e else s

/-- A signal that may be performed: for a SIGNAL every earlier entry of its queue has completed (R407), and its address does not lie in a page
under migration (R89). (DEDUCED: log 49) -/
def signalReady (s : State) (h : HostQueue) : Option (Nat × Nat × Nat × Nat) :=
  h.signals.find? (fun g => (g.2.2.2 == 2 || !h.busy.any (fun b => decide (b < g.1))) && !vaMigs s (queueCtx s h) .write g.2.1 8)

/-- A signal performed as a release: its word stored or added to; an address that does not translate is posted as REFUSED (log 22). -/
def performSignal (s : State) (h : HostQueue) (g : Nat × Nat × Nat × Nat) : State :=
  let x := queueCtx s h
  let r : Option State :=
    if g.2.2.2 = 1 then updVa s x g.2.1 8 (fun b => leBytes 8 (ofLeBytes b + g.2.2.1)) else wrVa s x g.2.1 (leBytes 8 g.2.2.1)
  let s := match r with | some s => s | none => postRefused s h.part (.host h.id) g.1 0
  doneEntry (modQueue s h.id (fun k => { k with signals := k.signals.filter (· != g) })) h.id g.1

/-- SIGNAL: one that is due is performed, or the next entry's starts. -/
def execSignal (queue : Nat) (s : State) :=
  hostStep s fun s =>
    match findQueue s queue with
    | none => s
    | some h =>
      match signalReady s h with
      | some g => performSignal s h g
      | none => onEntry s queue 3 fun s h e =>
          modQueue (markBusy (takeEntry s h) h) queue (fun k => { k with signals := k.signals ++ [(h.next, va57 (qNum e 8 8), qNum e 16 8, qNum e 24 1)] })

/-- WAIT starts: later entries are held until its word meets its condition. -/
def execWait (queue : Nat) (s : State) :=
  hostStep s fun s => onEntry s queue 4 fun s h e =>
    modQueue (markBusy (takeEntry s h) h) queue (fun k => { k with waiting := some (va57 (qNum e 8 8), qNum e 16 8, qNum e 24 1, h.next) })

/-- The word of a WAIT as an acquire reads it meets its condition. -/
def waitHolds (s : State) (h : HostQueue) : Bool :=
  match h.waiting with
  | none => false
  | some (va, v, cond, _) =>
    match rdVa s (queueCtx s h) va 8 with
    | (_, some b) => if cond = 0 then ofLeBytes b == v else decide (v ≤ ofLeBytes b)
    | (_, none) => false

/-- WAIT_MET. -/
def execWaitMet (queue : Nat) (s : State) :=
  hostStep s fun s =>
    match findQueue s queue with
    | none => s
    | some h =>
      match h.waiting with
      | some (_, _, _, e) => if waitHolds s h then doneEntry (modQueue s queue (fun k => { k with waiting := none })) queue e else s
      | none => s

/-! ### Partitions (R409, R410, R416) -/

/-- The channels of some stacks (R56). -/
def stackChannels (l : List Nat) : List Nat := l.flatMap (fun k => (List.range 32).map (32 * k + ·))

/-- A slot table spreads its members evenly (R59). -/
def evenTable (t : List Nat) (members : List Nat) : Bool :=
  t.length == 4096 && t.all members.contains && members.all (fun v =>
    let k := (t.filter (· == v)).length
    decide (4096 / members.length ≤ k) && decide (k ≤ (4096 + members.length - 1) / members.length))

/-- The cores of a die that a new partition counts: those retired without a spare are left out (R325). (DESIGN CHOICE: log 7; DEDUCED: log 46) -/
def recount (s : State) (d : Nat) : State :=
  let lost := ((s.cores.filter (fun k => coreDie k.lcore == d && k.retiredMark)).map (fun k => k.lcore % 44))
  let s := modDie s d (fun k =>
    { k with n := k.n - lost.length, remap := ((k.remap.mapIdx (fun i p => (i, p))).filter (fun e => !lost.contains e.1)).map (·.2) })
  { s with cores := s.cores.map (fun k => if coreDie k.lcore = d then { k with retiredMark := false } else k) }

/-- What PARTCREATE accepts. (DEDUCED: log 50) -/
def partOk (s : State) (p : PartSpec) : Bool :=
  let chans := stackChannels p.hbmStacks
  let free (d : Nat) : Bool := ((findDie s d).map (fun k => k.state == .service)).getD false && !s.partitions.any (fun q => q.dies.contains d)
  let own (v : Nat) : Bool := (p.dies.contains (v / 16) && !s.partitions.any (fun q => q.lent.contains v)) || p.lent.contains v
  p.dies != [] && p.dies.all free && p.dies.eraseDups == p.dies && p.hbmStacks != [] && p.hbmStacks.eraseDups == p.hbmStacks
    && p.hbmStacks.all (fun k => p.dies.contains (k / 2)) && p.pbase % 2 ^ 20 == 0
    && p.lent.all (fun v => decide (v < 64) && free (v / 16) && !p.dies.contains (v / 16) && !s.partitions.any (fun q => q.lent.contains v))
    && p.slices != [] && p.slices.eraseDups == p.slices && p.slices.all own
    && (match p.chanImage with | some t => evenTable t chans | none => true) && (match p.sliceImage with | some t => evenTable t p.slices | none => true)
    && p.expBase % 2 ^ 30 == 0 && p.expLen % 2 ^ 30 == 0

/-- The lowest number that no partition has. -/
def freePart (s : State) : Nat := ((List.range (s.partitions.length + 1)).find? (fun i => !s.partitions.any (fun p => p.id == i))).getD 0

/-- PARTCREATE: the answer is 0 and the partition's number, or 1; the members are listed in ascending number, as a default table is (R59).
(DEDUCED: log 50) -/
def execPartcreate (spec : PartSpec) (s : State) :=
  hostStep s fun s =>
    if !partOk s spec then answer s [1]
    else
      let id := freePart s
      let p : Partition :=
        { id := id, dies := spec.dies, channels := stackChannels (sortNat spec.hbmStacks), chanImage := spec.chanImage, pbase := spec.pbase, lent := spec.lent,
          slices := sortNat spec.slices, sliceImage := spec.sliceImage, gen := 0, doneGen := 0, members := spec.slices.length, expBase := spec.expBase, expLen := spec.expLen }
      let s := spec.dies.foldl recount s
      answer { s with partitions := s.partitions ++ [p] } [0, id]

/-- The replays of a partition's queues end with the queues. -/
def dropPlays (s : State) (part : Nat) : State :=
  ((s.hostQueues.filter (fun h => h.part == part)).filterMap (·.play)).foldl (fun s p =>
    modTape s p.handle (fun t => { t with state := .ready, tokens := [] })) s

/-- PARTDESTROY: refused while the partition has a dispatch or an attached network. Its queues go, and tapes stay with their ASID (R372).
(DEDUCED: log 50) -/
def execPartdestroy (part : Nat) (s : State) :=
  hostStep s fun s =>
    if (findPart s part).isNone || s.dispatches.any (fun d => d.part == part && d.state != .retired) || s.networks.any (fun n => n.state != 0 && n.part == part) then
      answer s [1]
    else
      let s := dropPlays s part
      answer { s with
        partitions := s.partitions.filter (fun p => p.id != part), hostQueues := s.hostQueues.filter (fun h => h.part != part),
        submissions := s.submissions.filter (fun b => b.part != part), sweeping := s.sweeping.filter (fun e => e.1 != part) } [0]

/-- DEVNUM (R410). (DEDUCED: log 50) -/
def execDevnum (n : Nat) (s : State) := hostStep s fun s => if n < 1024 then answer { s with devnum := n } [0] else answer s [1]

/-! ### The capability list and the counters (R413, R415) -/

/-- The harvest fuses: the fused n of each die. -/
def fuseBytes (s : State) : List Byte := s.dies.flatMap (fun d => leBytes 1 d.fused)

/-- An entry: ID, VERSION, LEN in units of 8 bytes, NEXT, then its body. -/
def capEntry (id version next : Nat) (body : List Byte) : List Byte :=
  leBytes 2 id ++ leBytes 1 version ++ leBytes 1 (1 + (body.length + 7) / 8) ++ leBytes 4 next ++ padTo (8 * ((body.length + 7) / 8)) body

/-- The read-only region from CAPPTR on: the four entries of R413 one after another; what the manual does not give of them is free.
(DESIGN CHOICE: log 10) -/
def capRegion (s : State) : List Byte :=
  let free (i : Nat) : Nat := Config.freeValue (2 ^ 32 + i)
  let next (i : Nat) : Nat := s.capptr.toNat + i
  capEntry 1 (free 4) (next 24) (leBytes 4 (free 0) ++ leBytes 4 (free 1) ++ fuseBytes s)
    ++ capEntry 2 (free 5) (next 40) (leBytes 4 16 ++ leBytes 4 s.devnum)
    ++ capEntry 3 (free 6) (next 56) (leBytes 4 (free 2) ++ leBytes 4 (free 3))
    ++ capEntry 4 (free 7) 0 (leBytes 2 (free 8) ++ leBytes 2 2800 ++ leBytes 4 s.powerCap)

/-- The IDs that a walker meets from an offset: it stops at NEXT 0 or after 256 entries. -/
def walkCaps (s : State) : Nat → Nat → List Nat
  | 0, _ => []
  | n + 1, off =>
    let o := off - s.capptr.toNat
    qNum (capRegion s) o 2 :: (if qNum (capRegion s) (o + 4) 4 = 0 then [] else walkCaps s n (qNum (capRegion s) (o + 4) 4))

/-- The walk of the list from CAPPTR's offset. -/
def capIds (s : State) : List Nat := walkCaps s 256 s.capptr.toNat

/-- A counter of a die. -/
def dieCounter (d : Die) (c : DieCounter) : Nat :=
  match c with
  | .redirect => d.redirects | .issue => d.issues | .packed => d.packed | .edgeA => d.trafA | .edgeB => d.trafB

/-- A read over the management channel: 0 and the value, or 1 where there is nothing to read. Where CAPPTR, the region and the counters stand in the
channel's space is not the spec's. (DESIGN CHOICE: log 10) -/
def manageRead (s : State) (a : HostAccess) : State :=
  match a.op with
  | .capptr => answer s [0, s.capptr.toNat]
  | .region =>
    let o := a.addr - s.capptr.toNat
    if a.addr < s.capptr.toNat ∨ (capRegion s).length < o + a.size then answer s [1] else answer s [0, qNum (capRegion s) o a.size]
  | .counter c => answer s (match findDie s a.addr with | some d => [0, dieCounter d c] | none => [1])
  | _ => answer s [1]

/-! ### Accesses from outside (R404, R410) -/

/-- An access performed at its place of execution, once a sweep that it meets is over (R65): 0 and the value read or the old value, or 1 for an error reply. -/
def outerAccess (s : State) (p : Partition) (pa : Nat) (a : HostAccess) : State :=
  let ps := placesOf p pa a.size
  let home := homeDie p pa
  let s := settleSlots s p [pa]
  if paKind pa = 0 ∧ !dieAnswers s home then answer s [1]
  else
    match a.op with
    | .store => answer (wrCoherent s (ps.zip (leBytes a.size a.value.toNat))) [0, 0]
    | .load => if badPlaces s ps then answer (countUncorr s home (memLocs ps)) [1] else let s := correctPlaces s ps; answer s [0, rdNum s ps]
    | .atomic o t =>
      if badPlaces s ps then answer (countUncorr s home (memLocs ps)) [1]
      else
        let s := correctPlaces s ps
        let old := rdNum s ps
        let s := match atomNew o t old a.value.toNat a.cmp.toNat with
          | some x => wrCoherent s (ps.zip (leBytes (atomBytes t) x))
          | none => s
        answer s [0, old]
    | _ => answer s [1]

/-- The access is one of the management channel. -/
def manages (a : HostAccess) : Bool := match a.op with | .capptr | .region | .counter _ => true | _ => false

/-- The sizes that an access may have, and its alignment. -/
def outerOk (a : HostAccess) : Bool :=
  (match a.op with | .atomic _ t => a.size == atomBytes t | _ => [1, 2, 4, 8].contains a.size) && a.addr % max a.size 1 == 0

/-- HOST_COHERENT_ACCESS (R404): the companion processor's access to device memory at its home slice, or to its own memory, or a read over the
management channel. -/
def execHostCoherentAccess (a : HostAccess) (s : State) :=
  hostStep s fun s =>
    if manages a then manageRead s a
    else if !outerOk a then answer s [1]
    else if paKind a.addr = 1 then
      (match ringPart s a.addr with | some p => outerAccess s p a.addr a | none => answer s [1])
    else
      match partOfPa s a.addr with
      | some p => outerAccess s p a.addr a
      | none => answer s [1]

/-- KFL_REMOTE_REQUEST (R410): at or beyond EXPLEN it gets an error reply. -/
def execKflRemoteRequest (part : Nat) (a : HostAccess) (s : State) :=
  hostStep s fun s =>
    match findPart s part with
    | none => answer s [1]
    | some p =>
      let pa := p.expBase + a.addr
      if manages a || !outerOk a || decide (p.expLen < a.addr + a.size) || !isDevPa p pa then answer s [1] else outerAccess s p pa a

/-! ### Power-on, attestation, power (R411 to R414) -/

/-- POWER_ON: the outcome of the boot ROM's checks and the power-on self-test, as `bootCode` gives it: 0 passes, else the failure code in bits
2:0 and what failed above them (log 6). -/
def execPowerOn (s : State) :=
  event (fun s =>
    if s.power != .boot then s
    else { s with power := if s.bootCode = 0 then .on else .safe (s.bootCode % 8) (s.bootCode / 8) }) s

/-- STATUS answers in every state: the failure code with what failed, for code 5 the die and the temperature (R411), or zeros. -/
def execStatus (s : State) :=
  event (fun s => answer s (match s.power with | .safe 5 i => [5, i % 4, i / 4] | .safe c i => [c, i] | _ => [0, 0])) s

def dwordsOf (bs : List Byte) : List Nat := (List.range ((bs.length + 7) / 8)).map (fun i => qNum bs (8 * i) 8)

/-- ATTEST (R412): identity, digests, fuses and nonce, then r and s, 48 bytes each; the bytes that only the device's keys decide are free (log 11). -/
def execAttest (nonce : BitVec 384) (s : State) :=
  hostStep s fun s =>
    let report := Config.attestBytes 0 [] ++ Config.attestBytes 1 [] ++ fuseBytes s ++ leBytes 48 nonce.toNat
    answer s (dwordsOf (report ++ padTo 96 (Config.attestBytes 2 report)))

/-- PCAP: a lower cap than 2,800 W. -/
def execPcap (watts : Nat) (s : State) := hostStep s fun s => if watts ≤ 2800 then answer { s with powerCap := watts } [0] else answer s [1]

/-- CLOCK_THROTTLE: the ratio of the arithmetic clock to its full rate; timing only. -/
def execClockThrottle (num den : Nat) (s : State) :=
  hostStep s fun s => if 0 < num ∧ num ≤ den then { s with clockNum := num, clockDen := den } else s

/-- THERMAL_CRITICAL: the safe state with code 5, the die and the temperature; all work is discarded. (DEDUCED: log 50) -/
def execThermalCritical (die temp : Nat) (s : State) :=
  hostStep s fun s =>
    { s with
      power := .safe 5 (die + temp * 4), dispatches := [], clusters := [], teams := [], groups := [], cmds := [], hostQueues := [], submissions := [],
      faults := [], heldRecs := [], sysOps := [], sweeping := [], cur := none, joined := [],
      sessions := s.sessions.map (fun x => sessionReset x.sid), networks := s.networks.map (fun n => networkReset n.net),
      dies := s.dies.map (fun d => { d with tapes := [] }), cores := s.cores.map (fun k => { k with array := [], growers := [] }) }

end Sys2Proof.Machine
end

