-- ==== Sys2Proof/Machine/Sched.lean ====
section
/-! DEFINITION. Which group a sector issues (R329 to R332), its priority and aging, and the clock. -/
namespace Sys2Proof.Machine

/-- A group's cluster may issue: it runs, or it is to be saved and its dispatch's task goes on to its end (R351, R394). -/
def mayIssue (s : State) (g : Group) : Bool :=
  match (teamOf s g).bind (fun t => findCluster s g.disp t.clid) with
  | some c => c.state == .running || (c.state == .saving && g.task.isSome)
  | none => true

/-- The scoreboard holds the group's next instruction (R28, R34, R419). -/
def scoreHeld (s : State) (g : Group) : Bool :=
  g.flights != [] && (match issueAddr g with
    | none => false
    | some pc => (match peekInstr s g pc.toNat with | some i => (waitSeq g i (chainRegs s g i)).isSome | none => false))

/-- The group is ready (R329): it runs and has an issue address, and the scoreboard holds nothing of the instruction there. -/
def groupReady (s : State) (g : Group) : Bool :=
  (g.state == .run || g.state == .handler) && (issueAddr (settle g)).isSome && mayIssue s g && !scoreHeld s (settle g)

/-- Effective priority (R330). -/
def effPrio (g : Group) : Nat := min 15 (g.prio.toNat + g.age)

/-- `a` is selected before `b`: the higher EP, then the one that issued least recently, never-issued groups by launch (R330). -/
def selectsBefore (a b : Group) : Bool :=
  if effPrio a != effPrio b then decide (effPrio b < effPrio a)
  else match a.lastIssue, b.lastIssue with
    | none, none => decide (a.born < b.born) || (a.born == b.born && decide (a.id < b.id))
    | none, some _ => true
    | some _, none => false
    | some m, some n => decide (m < n)

/-- The ready groups of a sector. -/
def sectorReady (s : State) (core sector : Nat) : List Group :=
  s.groups.filter (fun g => g.core == core && g.sector == sector && groupReady s g)

/-- The first of some groups in the order of selection. -/
def firstOf (l : List Group) : Option Group :=
  l.foldl (fun m g => match m with | none => some g | some b => if selectsBefore g b then some g else some b) none

/-- The group is inside a chain and goes on with it (R34). -/
def inChain (s : State) (g : Group) : Bool := g.chain.isSome && (g.state == .run || g.state == .handler) && mayIssue s g

/-- The group that a sector issues on a clock: the one whose chain is in progress (R34), or the one that R330 selects. -/
def selectGroup (s : State) (core sector : Nat) : Option Group :=
  let l := sectorReady s core sector
  if s.groups.any (fun g => g.core == core && g.sector == sector && inChain s g) then firstOf (l.filter (inChain s)) else firstOf l

/-- The groups that join an issue (R331): the same dispatch and address, column runs disjoint from every group already joined. A chain in
progress is joined only by groups at the same member. -/
def joinGroups (l : List Group) (g : Group) : List Group :=
  let pos (h : Group) : Nat := (h.chain.map (·.pos)).getD 0
  (l.foldl (fun (js : List Group) h =>
    if h.id != g.id && h.disp == g.disp && issueAddr (settle h) == issueAddr (settle g) && pos h == pos g
        && (g :: js).all (fun j => !overlap j.col j.width h.col h.width) then js ++ [h] else js) [])

/-- The counts of issues and of packed groups of the die (R415). (DESIGN CHOICE: log 53) -/
def countIssues (s : State) (ids : List Nat) : State :=
  match (ids.head?).bind (findGroup s) with
  | some g => modDie s (dieOf g) (fun d => { d with issues := d.issues + 1, packed := d.packed + (ids.length - 1) })
  | none => s

/-- The groups selected are about to issue: AGE returns to 0 (R330, R331). -/
def markIssued (s : State) (ids : List Nat) : State :=
  let s := countIssues s ids
  { s with issueSeq := s.issueSeq + 1,
           groups := s.groups.map (fun g =>
             if ids.contains g.id then { settle g with age := 0, readyClks := 0, lastIssue := some s.issueSeq } else g) }

/-- Clocks pass: every ready group counts them (R330). (DESIGN CHOICE: log 8) -/
def tick (s : State) (n : Nat) : State :=
  { s with clk := s.clk + n, groups := s.groups.map (fun g => if groupReady s g then { g with readyClks := g.readyClks + n } else g) }

/-- The clock from which a sector may issue again (R330). -/
def sectorFree (s : State) (core sector : Nat) : Nat := (((findCore s core).map (·.busy)).getD [])[sector]?.getD 0

/-- Another sector has a ready group and may issue on an earlier clock: it does so first (R330). -/
def issuesEarlier (s : State) (core sector : Nat) : Bool :=
  decide (s.clk < sectorFree s core sector)
    && s.groups.any (fun g => decide (sectorFree s g.core g.sector < sectorFree s core sector) && groupReady s g)

/-- The clock reaches the one on which a sector may issue; sectors that may issue before it do so first. (DESIGN CHOICE: log 8) -/
def reachSector (s : State) (core sector : Nat) : State :=
  if s.clk < sectorFree s core sector then tick s (sectorFree s core sector - s.clk) else s

/-- ISSUE: a sector's choice on the clock that it issues on (R330). Where nothing is ready, or another sector issues before it, nothing
happens. -/
def execIssue (core sector : Nat) (s : State) :=
  event (fun s =>
    if (selectGroup s core sector).isNone || issuesEarlier s core sector then s
    else
      let s := reachSector s core sector
      match selectGroup s core sector with
      | none => s
      | some g =>
        let js := if g.width < 64 then joinGroups (sectorReady s core sector) g else []
        { markIssued s (g.id :: js.map (·.id)) with cur := some g.id, joined := js.map (·.id) }) s

/-- AGING (R330): 1,024 clocks ready and unissued raise AGE by 1. -/
def execAging (grp : Nat) (s : State) :=
  event (fun s => modGroup s grp (fun g =>
    if 1024 ≤ g.readyClks then { g with readyClks := g.readyClks - 1024, age := g.age + 1 } else g)) s

end Sys2Proof.Machine
end

