-- ==== Sys2Proof/Machine/Dispatch.lean ====
section
/-! DEFINITION. The meaning of every step: one arm for each row of the table of operations and events. -/
namespace Sys2Proof.Machine

def exec (i : Instr) (s : State) : Host.Outcome State Fault Refusal :=
  match i with
  | .issue core sector => Sys2Proof.Machine.execIssue core sector s
  | .aging grp => Sys2Proof.Machine.execAging grp s
  | .pWord p => Sys2Proof.Machine.execPWord p s
  | .iadd f => Sys2Proof.Machine.execIadd f s
  | .isub f => Sys2Proof.Machine.execIsub f s
  | .iadd3 f => Sys2Proof.Machine.execIadd3 f s
  | .imul f => Sys2Proof.Machine.execImul f s
  | .imulhi f => Sys2Proof.Machine.execImulhi f s
  | .imad f => Sys2Proof.Machine.execImad f s
  | .imadw f => Sys2Proof.Machine.execImadw f s
  | .imin f => Sys2Proof.Machine.execImin f s
  | .imax f => Sys2Proof.Machine.execImax f s
  | .iabs f => Sys2Proof.Machine.execIabs f s
  | .ineg f => Sys2Proof.Machine.execIneg f s
  | .and f => Sys2Proof.Machine.execAnd f s
  | .or f => Sys2Proof.Machine.execOr f s
  | .xor f => Sys2Proof.Machine.execXor f s
  | .not f => Sys2Proof.Machine.execNot f s
  | .lfn3 f => Sys2Proof.Machine.execLfn3 f s
  | .shl f => Sys2Proof.Machine.execShl f s
  | .shr f => Sys2Proof.Machine.execShr f s
  | .sar f => Sys2Proof.Machine.execSar f s
  | .fsh f => Sys2Proof.Machine.execFsh f s
  | .fext f => Sys2Proof.Machine.execFext f s
  | .fdep f => Sys2Proof.Machine.execFdep f s
  | .bsel f => Sys2Proof.Machine.execBsel f s
  | .popc f => Sys2Proof.Machine.execPopc f s
  | .clz f => Sys2Proof.Machine.execClz f s
  | .ctz f => Sys2Proof.Machine.execCtz f s
  | .brev f => Sys2Proof.Machine.execBrev f s
  | .sel f => Sys2Proof.Machine.execSel f s
  | .icmp f => Sys2Proof.Machine.execIcmp f s
  | .setp f => Sys2Proof.Machine.execSetp f s
  | .mov f => Sys2Proof.Machine.execMov f s
  | .li x => Sys2Proof.Machine.execLi x s
  | .lea f => Sys2Proof.Machine.execLea f s
  | .rand f => Sys2Proof.Machine.execRand f s
  | .fadd f => Sys2Proof.Machine.execFadd f s
  | .fsub f => Sys2Proof.Machine.execFsub f s
  | .fmul f => Sys2Proof.Machine.execFmul f s
  | .fma f => Sys2Proof.Machine.execFma f s
  | .fdiv f => Sys2Proof.Machine.execFdiv f s
  | .fsqrt f => Sys2Proof.Machine.execFsqrt f s
  | .fscale f => Sys2Proof.Machine.execFscale f s
  | .fround f => Sys2Proof.Machine.execFround f s
  | .fmin f => Sys2Proof.Machine.execFmin f s
  | .fmax f => Sys2Proof.Machine.execFmax f s
  | .fminx f => Sys2Proof.Machine.execFminx f s
  | .fmaxx f => Sys2Proof.Machine.execFmaxx f s
  | .fcmp f => Sys2Proof.Machine.execFcmp f s
  | .fclass f => Sys2Proof.Machine.execFclass f s
  | .frcp f => Sys2Proof.Machine.execFrcp f s
  | .frsq f => Sys2Proof.Machine.execFrsq f s
  | .fex2 f => Sys2Proof.Machine.execFex2 f s
  | .flg2 f => Sys2Proof.Machine.execFlg2 f s
  | .fsin f => Sys2Proof.Machine.execFsin f s
  | .fcos f => Sys2Proof.Machine.execFcos f s
  | .cvt x => Sys2Proof.Machine.execCvt x s
  | .mxscale f => Sys2Proof.Machine.execMxscale f s
  | .shfl f => Sys2Proof.Machine.execShfl f s
  | .vote f => Sys2Proof.Machine.execVote f s
  | .matchLanes f => Sys2Proof.Machine.execMatchLanes f s
  | .elect f => Sys2Proof.Machine.execElect f s
  | .lred f => Sys2Proof.Machine.execLred f s
  | .lscan f => Sys2Proof.Machine.execLscan f s
  | .bra x => Sys2Proof.Machine.execBra x s
  | .brx f => Sys2Proof.Machine.execBrx f s
  | .call x => Sys2Proof.Machine.execCall x s
  | .ret f => Sys2Proof.Machine.execRet f s
  | .exit f => Sys2Proof.Machine.execExit f s
  | .yield f => Sys2Proof.Machine.execYield f s
  | .nap f => Sys2Proof.Machine.execNap f s
  | .napExpiry grp lane => Sys2Proof.Machine.execNapExpiry grp lane s
  | .trap f => Sys2Proof.Machine.execTrap f s
  | .brk f => Sys2Proof.Machine.execBrk f s
  | .ldL f => Sys2Proof.Machine.execLdL f s
  | .ldLp f => Sys2Proof.Machine.execLdLp f s
  | .ldG f => Sys2Proof.Machine.execLdG f s
  | .ldC f => Sys2Proof.Machine.execLdC f s
  | .stL f => Sys2Proof.Machine.execStL f s
  | .stLp f => Sys2Proof.Machine.execStLp f s
  | .stG f => Sys2Proof.Machine.execStG f s
  | .prf f => Sys2Proof.Machine.execPrf f s
  | .rgrow f => Sys2Proof.Machine.execRgrow f s
  | .rgrowGrant grp => Sys2Proof.Machine.execRgrowGrant grp s
  | .rshrink f => Sys2Proof.Machine.execRshrink f s
  | .segld f => Sys2Proof.Machine.execSegld f s
  | .loadReply grp seq errLanes => Sys2Proof.Machine.execLoadReply grp seq errLanes s
  | .storeRegistrationAck grp seq err => Sys2Proof.Machine.execStoreRegistrationAck grp seq err s
  | .parkedAccessResume grp => Sys2Proof.Machine.execParkedAccessResume grp s
  | .windowEviction core line => Sys2Proof.Machine.execWindowEviction core line s
  | .accessSample die a => Sys2Proof.Machine.execAccessSample die a s
  | .hotPagePendingPost die => Sys2Proof.Machine.execHotPagePendingPost die s
  | .sliceAccess grp seq => Sys2Proof.Machine.execSliceAccess grp seq s
  | .sweepWaitRelease grp seq => Sys2Proof.Machine.execSweepWaitRelease grp seq s
  | .flitCrcResend die edge module ok => Sys2Proof.Machine.execFlitCrcResend die edge module ok s
  | .moduleRetrain die edge module trained => Sys2Proof.Machine.execModuleRetrain die edge module trained s
  | .moduleDisable die edge module => Sys2Proof.Machine.execModuleDisable die edge module s
  | .atomicReturn grp seq errLanes => Sys2Proof.Machine.execAtomicReturn grp seq errLanes s
  | .atom x => Sys2Proof.Machine.execAtom x s
  | .red x => Sys2Proof.Machine.execRed x s
  | .atomAgg x => Sys2Proof.Machine.execAtomAgg x s
  | .ldx f => Sys2Proof.Machine.execLdx f s
  | .stx f => Sys2Proof.Machine.execStx f s
  | .ldAcq f => Sys2Proof.Machine.execLdAcq f s
  | .stRel f => Sys2Proof.Machine.execStRel f s
  | .fenceAcq f => Sys2Proof.Machine.execFenceAcq f s
  | .fenceRel f => Sys2Proof.Machine.execFenceRel f s
  | .fenceAr f => Sys2Proof.Machine.execFenceAr f s
  | .droAdd x => Sys2Proof.Machine.execDroAdd x s
  | .droGet x => Sys2Proof.Machine.execDroGet x s
  | .cpG2l x => Sys2Proof.Machine.execCpG2l x s
  | .cpL2g x => Sys2Proof.Machine.execCpL2g x s
  | .cpG2g x => Sys2Proof.Machine.execCpG2g x s
  | .cpL2l x => Sys2Proof.Machine.execCpL2l x s
  | .cpT2l x => Sys2Proof.Machine.execCpT2l x s
  | .cpL2t x => Sys2Proof.Machine.execCpL2t x s
  | .copyEnginePerform cmd => Sys2Proof.Machine.execCopyEnginePerform cmd s
  | .engineQueueRoom grp => Sys2Proof.Machine.execEngineQueueRoom grp s
  | .coll x => Sys2Proof.Machine.execColl x s
  | .collStart cmd peers => Sys2Proof.Machine.execCollStart cmd peers s
  | .barInit x => Sys2Proof.Machine.execBarInit x s
  | .barArrive x => Sys2Proof.Machine.execBarArrive x s
  | .barExpect x => Sys2Proof.Machine.execBarExpect x s
  | .barWait x => Sys2Proof.Machine.execBarWait x s
  | .barTest f => Sys2Proof.Machine.execBarTest f s
  | .barInval x => Sys2Proof.Machine.execBarInval x s
  | .presQ f => Sys2Proof.Machine.execPresQ f s
  | .presF f => Sys2Proof.Machine.execPresF f s
  | .presClr f => Sys2Proof.Machine.execPresClr f s
  | .wmap x => Sys2Proof.Machine.execWmap x s
  | .wunmap x => Sys2Proof.Machine.execWunmap x s
  | .wflush x => Sys2Proof.Machine.execWflush x s
  | .qfence x => Sys2Proof.Machine.execQfence x s
  | .mma x => Sys2Proof.Machine.execMma x s
  | .mmaSp x => Sys2Proof.Machine.execMmaSp x s
  | .mmaT x => Sys2Proof.Machine.execMmaT x s
  | .arrayPerform core => Sys2Proof.Machine.execArrayPerform core s
  | .azero f => Sys2Proof.Machine.execAzero f s
  | .aload x => Sys2Proof.Machine.execAload x s
  | .astore x => Sys2Proof.Machine.execAstore x s
  | .aread x => Sys2Proof.Machine.execAread x s
  | .awrite x => Sys2Proof.Machine.execAwrite x s
  | .omap x => Sys2Proof.Machine.execOmap x s
  | .thdl x => Sys2Proof.Machine.execThdl x s
  | .mstRd f => Sys2Proof.Machine.execMstRd f s
  | .mstClr f => Sys2Proof.Machine.execMstClr f s
  | .rqInit x => Sys2Proof.Machine.execRqInit x s
  | .rqRun x => Sys2Proof.Machine.execRqRun x s
  | .rqAcc f => Sys2Proof.Machine.execRqAcc f s
  | .rqRej f => Sys2Proof.Machine.execRqRej f s
  | .rqGet f => Sys2Proof.Machine.execRqGet f s
  | .rqSet f => Sys2Proof.Machine.execRqSet f s
  | .rqEnd f => Sys2Proof.Machine.execRqEnd f s
  | .dice x => Sys2Proof.Machine.execDice x s
  | .gridEmit x => Sys2Proof.Machine.execGridEmit x s
  | .smpBegin x => Sys2Proof.Machine.execSmpBegin x s
  | .smpEnd x => Sys2Proof.Machine.execSmpEnd x s
  | .smpRes x => Sys2Proof.Machine.execSmpRes x s
  | .statRd f => Sys2Proof.Machine.execStatRd f s
  | .binActivate sid bin => Sys2Proof.Machine.execBinActivate sid bin s
  | .binDone sid bin => Sys2Proof.Machine.execBinDone sid bin s
  | .rcq x => Sys2Proof.Machine.execRcq x s
  | .rct x => Sys2Proof.Machine.execRct x s
  | .rctOffer grp => Sys2Proof.Machine.execRctOffer grp s
  | .rcSync x => Sys2Proof.Machine.execRcSync x s
  | .equinoxTrain net => Sys2Proof.Machine.execEquinoxTrain net s
  | .equinoxStep net => Sys2Proof.Machine.execEquinoxStep net s
  | .publication net => Sys2Proof.Machine.execPublication net s
  | .rcCfgAttach x => Sys2Proof.Machine.execRcCfgAttach x s
  | .rcCfgDetach x => Sys2Proof.Machine.execRcCfgDetach x s
  | .rcCfgStat x => Sys2Proof.Machine.execRcCfgStat x s
  | .launch x => Sys2Proof.Machine.execLaunch x s
  | .spawn x => Sys2Proof.Machine.execSpawn x s
  | .ringRoomResume disp who => Sys2Proof.Machine.execRingRoomResume disp who s
  | .taskEnd f => Sys2Proof.Machine.execTaskEnd f s
  | .taskDelivery grp => Sys2Proof.Machine.execTaskDelivery grp s
  | .taskWdog grp => Sys2Proof.Machine.execTaskWdog grp s
  | .coalFlushNow x => Sys2Proof.Machine.execCoalFlushNow x s
  | .coalFlushDone x => Sys2Proof.Machine.execCoalFlushDone x s
  | .coalFlushProd x => Sys2Proof.Machine.execCoalFlushProd x s
  | .nodeFlushTimer disp node => Sys2Proof.Machine.execNodeFlushTimer disp node s
  | .nodeRelease disp node => Sys2Proof.Machine.execNodeRelease disp node s
  | .tapeRec x => Sys2Proof.Machine.execTapeRec x s
  | .tapeStop f => Sys2Proof.Machine.execTapeStop f s
  | .tapePlay x => Sys2Proof.Machine.execTapePlay x s
  | .tapePatchSlot x => Sys2Proof.Machine.execTapePatchSlot x s
  | .tapePatchGuard x => Sys2Proof.Machine.execTapePatchGuard x s
  | .tapeDrop x => Sys2Proof.Machine.execTapeDrop x s
  | .cvSign f => Sys2Proof.Machine.execCvSign f s
  | .cvWait f => Sys2Proof.Machine.execCvWait f s
  | .barTeam f => Sys2Proof.Machine.execBarTeam f s
  | .barCl f => Sys2Proof.Machine.execBarCl f s
  | .prioSet f => Sys2Proof.Machine.execPrioSet f s
  | .loc f => Sys2Proof.Machine.execLoc f s
  | .sysrd f => Sys2Proof.Machine.execSysrd f s
  | .syswr f => Sys2Proof.Machine.execSyswr f s
  | .registerWrite grp sreg index value => Sys2Proof.Machine.execRegisterWrite grp sreg index value s
  | .seedWrite value => Sys2Proof.Machine.execSeedWrite value s
  | .prioWrite grp value => Sys2Proof.Machine.execPrioWrite grp value s
  | .fansRetry tag => Sys2Proof.Machine.execFansRetry tag s
  | .fansDeliver tag => Sys2Proof.Machine.execFansDeliver tag s
  | .clk f => Sys2Proof.Machine.execClk f s
  | .tlbinv x => Sys2Proof.Machine.execTlbinv x s
  | .cwb x => Sys2Proof.Machine.execCwb x s
  | .cinv x => Sys2Proof.Machine.execCinv x s
  | .domSw x => Sys2Proof.Machine.execDomSw x s
  | .routeSw x => Sys2Proof.Machine.execRouteSw x s
  | .dieQ f => Sys2Proof.Machine.execDieQ f s
  | .dieRstFrost x => Sys2Proof.Machine.execDieRstFrost x s
  | .dieQuiesce die => Sys2Proof.Machine.execDieQuiesce die s
  | .dieRstReset x => Sys2Proof.Machine.execDieRstReset x s
  | .dieResetDone die pass => Sys2Proof.Machine.execDieResetDone die pass s
  | .dieRstThaw x => Sys2Proof.Machine.execDieRstThaw x s
  | .iret f => Sys2Proof.Machine.execIret f s
  | .ctxsavePre x => Sys2Proof.Machine.execCtxsavePre x s
  | .ctxsaveDump x => Sys2Proof.Machine.execCtxsaveDump x s
  | .ctxrestLoad x => Sys2Proof.Machine.execCtxrestLoad x s
  | .ctxrestResume x => Sys2Proof.Machine.execCtxrestResume x s
  | .ctxrestEnd x => Sys2Proof.Machine.execCtxrestEnd x s
  | .smpcfgConf x => Sys2Proof.Machine.execSmpcfgConf x s
  | .smpcfgRing x => Sys2Proof.Machine.execSmpcfgRing x s
  | .smpcfgAck x => Sys2Proof.Machine.execSmpcfgAck x s
  | .smpcfgReset x => Sys2Proof.Machine.execSmpcfgReset x s
  | .smpcfgStat x => Sys2Proof.Machine.execSmpcfgStat x s
  | .dispatchAccept sub => Sys2Proof.Machine.execDispatchAccept sub s
  | .leasePreparation disp => Sys2Proof.Machine.execLeasePreparation disp s
  | .teamLaunch disp => Sys2Proof.Machine.execTeamLaunch disp s
  | .groupRetire grp => Sys2Proof.Machine.execGroupRetire grp s
  | .dispatchEnd disp => Sys2Proof.Machine.execDispatchEnd disp s
  | .preemptionRequest disp scope => Sys2Proof.Machine.execPreemptionRequest disp scope s
  | .clusterSave disp clid => Sys2Proof.Machine.execClusterSave disp clid s
  | .clusterResume disp clid => Sys2Proof.Machine.execClusterResume disp clid s
  | .selfTestStart u => Sys2Proof.Machine.execSelfTestStart u s
  | .selfTestDone u pass => Sys2Proof.Machine.execSelfTestDone u pass s
  | .queueRoomPost q => Sys2Proof.Machine.execQueueRoomPost q s
  | .qdoor queue t => Sys2Proof.Machine.execQdoor queue t s
  | .dispatch queue => Sys2Proof.Machine.execDispatch queue s
  | .hostTapePlay queue => Sys2Proof.Machine.execHostTapePlay queue s
  | .signal queue => Sys2Proof.Machine.execSignal queue s
  | .wait queue => Sys2Proof.Machine.execWait queue s
  | .waitMet queue => Sys2Proof.Machine.execWaitMet queue s
  | .qcreate queue part descPa => Sys2Proof.Machine.execQcreate queue part descPa s
  | .partcreate spec => Sys2Proof.Machine.execPartcreate spec s
  | .partdestroy part => Sys2Proof.Machine.execPartdestroy part s
  | .devnum n => Sys2Proof.Machine.execDevnum n s
  | .status => Sys2Proof.Machine.execStatus s
  | .attest nonce => Sys2Proof.Machine.execAttest nonce s
  | .pcap watts => Sys2Proof.Machine.execPcap watts s
  | .hostCoherentAccess a => Sys2Proof.Machine.execHostCoherentAccess a s
  | .kflRemoteRequest part a => Sys2Proof.Machine.execKflRemoteRequest part a s
  | .powerOn => Sys2Proof.Machine.execPowerOn s
  | .clockThrottle num den => Sys2Proof.Machine.execClockThrottle num den s
  | .thermalCritical die temp => Sys2Proof.Machine.execThermalCritical die temp s
  | .savePoolFramesArrive => Sys2Proof.Machine.execSavePoolFramesArrive s
  | .l1Eviction core pa => Sys2Proof.Machine.execL1Eviction core pa s
  | .scrubberPass loc => Sys2Proof.Machine.execScrubberPass loc s

end Sys2Proof.Machine
end

