-- ==== Sys2Proof/Machine/Issue.lean ====
section
/-! DEFINITION. Fetching and decoding the instruction of the group that issues (R11, R42 to R44, R397). -/
namespace Sys2Proof.Machine

/-- What fetching gives: an instruction, or the state after the exception that the fetch or the word raised. -/
inductive Fetched where
  | instr (s : State) (i : Instr)
  | over (s : State)

/-- A group's trap before any instruction is known (R42, R44): a late error is reported in its place (R419). (DEDUCED: log 16) -/
def fetchTrap (s : State) (gid : Nat) (t : TrapInfo) : State :=
  settleTrap s gid fun s =>
    match findGroup s gid with
    | none => (s, false)
    | some g =>
      let g := clearDeferral g
      match issueAddr g with
      | none => (s, false)
      | some pc =>
        match (if t.kind = kILLOP then lateTrap s g else none) with
        | some l => (takeTrap (modGroup s gid (fun g => dropLate g g)) gid pc (pc + 8) l, true)
        | none => (takeTrap s gid pc (pc + 8) { t with mask := if t.kind = kILLOP then lanesAt g pc else servedLanes g pc }, true)

/-- A translation that fails on fetch (R11): a fault of the replayable regime, or LEASE (R81, R82). A fault on a later member of a chain
restarts the chain (R35) and clears deferral (R190). (DEDUCED: log 16) -/
def fetchFault (s : State) (g : Group) (d : Dispatch) (pc : DWord) (va cause : Nat) : State :=
  let lanes := servedLanes (clearDeferral g) pc
  if leased d then endWith s g.id kLEASE pc (dispAsid d) 4 lanes (BitVec.ofNat 64 va)
  else raiseFault (modGroup s g.id switchChain) g.id pc (dispAsid d) (BitVec.ofNat 64 va) cause 4 lanes 0

/-- One 64-bit word fetched at a virtual address (R11), or the state after the exception. Of a word that an agent writes during the dispatch
the new content is fetched. (DESIGN CHOICE: log 58) -/
def fetchWord (s : State) (g : Group) (d : Dispatch) (pc : DWord) (a : Nat) : Except State (State × Nat) :=
  let trap (s : State) (kind cause : Nat) : Except State (State × Nat) :=
    .error (fetchTrap s g.id { kind := kind, cause := cause, mask := [], daddr := BitVec.ofNat 64 a, acc := 4, asid := dispAsid d })
  if !canonical a then trap s kSEG 0
  else
    match translate s (ctxOn d g.core) a .fetch, dispPart s d with
    | (s, .fault c), _ => .error (fetchFault s g d pc a c)
    | (s, .rem), _ => trap s kREMERR 0
    | (s, .mig), _ => .error (modGroup s g.id (fun g => parkGroup (switchChain g) (.migration (dispAsid d))))
    | (s, _), none => .error s
    | (s, .ok pa), some p =>
      if !reachable s p (dieOf g) pa then trap s kREMERR 0
      else
        let ps := placesOf p pa 8
        if badPlaces s ps then trap (noteBad s (memLocs ps)) kMEMERR 4
        else
          let s := sampleAccess (countTraffic s p (dieOf g) pa) (dieOf g) ⟨va57 a, logicalCore s p g.core, 5, dispAsid d⟩
          .ok (correctPlaces s ps, rdNum s ps)

/-- The words at a group's issue address, the second only where the first heads an X instruction. -/
def fetchWords (s : State) (g : Group) (d : Dispatch) (pc : DWord) : Except State (State × Nat × Nat) :=
  match fetchWord s g d pc pc.toNat with
  | .error s => .error s
  | .ok (s, w) =>
    if w % 4 != 2 then .ok (s, w, 0)
    else
      match fetchWord s g d pc ((pc + 8).toNat) with
      | .error s => .error s
      | .ok (s, t) => .ok (s, w, t)

/-- The instruction that the selected group issues. (DEDUCED: log 16) -/
def fetchCur (s : State) : Fetched :=
  match s.cur.bind (findGroup s) with
  | none => .over s
  | some g =>
    if !groupReady s g then .over s
    else
      match issueAddr g, dispOf s g with
      | some pc, some d =>
        match fetchWords s g d pc with
        | .error s => .over s
        | .ok (s, w, t) =>
          match decodeWords w t with
          | .ok i => .instr s i
          | .error c => .over (fetchTrap s g.id { kind := kILLOP, cause := c, mask := [] })
      | _, _ => .over s

/-- The issue of the selected group is over: the next group that joined it issues, or its sector is busy for the clocks of the issue
(R330, R331). (DESIGN CHOICE: log 8) -/
def endIssue (s : State) (clocks : Nat) : State :=
  match s.joined with
  | g :: gs => { s with cur := some g, joined := gs }
  | [] =>
    let t : State := { s with cur := none }
    match s.cur.bind (findGroup s) with
    | some g => modCore t g.core (fun k => { k with busy := updAt g.sector (fun _ => s.clk + clocks) k.busy })
    | none => t

/-- What a step leaves: no slice holds more dirty lines than it has room for (R62). -/
def trimmed (o : Host.Outcome State Fault Refusal) : Host.Outcome State Fault Refusal :=
  match o with
  | .next s => .next (trimSlices s)
  | r => r

end Sys2Proof.Machine
end

