-- ==== Sys2Proof/Machine/Next.lean ====
section
/-! DEFINITION. Which of the device's own steps are enabled, and the order in which `step` takes them where the state names no other schedule
(log 3): each of these lists offers a step only while it changes the state. -/
namespace Sys2Proof.Machine

/-! ### Groups and their accesses -/

/-- A flight may reach its slice, wait there for a sweep, or return (R65, R137, R302). -/
def flightStep (s : State) (g : Group) (f : Flight) : Option Instr :=
  if flightDone f then some (if isAtomFlight f then .atomicReturn g.id f.seq 0 else .loadReply g.id f.seq 0)
  else
    match groupPart s g with
    | none => none
    | some p =>
      if f.lanes.any (fun a => moved p a.pa a.home) then some (.sliceAccess g.id f.seq)
      else if !(freeLanes s g p f).isEmpty then some (.sliceAccess g.id f.seq)
      else if (nextLanes f).any (fun a => !laneBlocked (ordMode s g) g f a) then some (.sweepWaitRelease g.id f.seq)
      else none

/-- A store may be registered (R310). -/
def storeStep (s : State) (g : Group) (w : PendStore) : Option Instr :=
  match groupPart s g with
  | none => none
  | some p =>
    if moved p w.pa w.home then some (.storeRegistrationAck g.id w.seq false)
    else if storeBlocked (ordMode s g) g w then none
    else if swept s p w.pa then some (.sweepWaitRelease g.id w.seq)
    else some (.storeRegistrationAck g.id w.seq false)

/-- The ring of the group's dispatch has room (R354). -/
def ringHasRoom (s : State) (d : Dispatch) (die : Nat) : Bool :=
  match readQueue s d die with
  | (_, some q) => decide (qUsed q < qCount q)
  | (_, none) => false

/-- TASK_DELIVERY would do something for a waiting worker: a record is delivered, or the worker joins or leaves the line for blocks (R130, R346,
R347, R350). -/
def deliverable (s : State) (g : Group) : Bool :=
  workerFree s g && (match dispOf s g with
    | none => false
    | some d =>
      if vaMigs s (ctxOf d (dieOf g)) .write (taskqVa d) 256 then false else
      match readQueue s d (dieOf g) with
      | (_, none) => false
      | (s, some q) =>
        if qUsed q = 0 then liveRecords s d + liveTasks s d == 0 || inGrowers s g
        else
          match rdVa s (ctxOf d (dieOf g)) (qRing q + 64 * (qHead q % qCount q)) 64 with
          | (_, none) => false
          | (s, some r) => malformedRec d q r || (taskBlocks s g (recByte d 21)).isSome || !inGrowers s g)

/-- A task counts clocks (R350). -/
def taskRuns (g : Group) : Option TaskCtx := if g.state == .exit || g.state == .retired || g.state == .saved then none else g.task

/-- The steps of one group. -/
def groupStep (s : State) (g : Group) : Option Instr :=
  if g.state == .exit then some (.groupRetire g.id)
  else
    match g.flights.findSome? (flightStep s g), g.stores.findSome? (storeStep s g) with
    | some i, _ => some i
    | none, some i => some i
    | none, none =>
      match g.naps.find? (fun n => decide (n.2 ≤ s.clk)), (taskRuns g).filter (fun t => decide (t.start + t.limit ≤ s.clk)) with
      | some n, _ => some (.napExpiry g.id n.1)
      | none, some _ => some (.taskWdog g.id)
      | none, none =>
        if 1024 ≤ g.readyClks then some (.aging g.id)
        else if g.state == .park then
          match g.wait with
          | .rgrow n => if (growBlocks s g n).isSome then some (.rgrowGrant g.id) else none
          | .queueRoom _ _ => if queueHasRoom s g then some (.engineQueueRoom g.id) else none
          | .ring => if ((dispOf s g).map (fun d => ringHasRoom s d (dieOf g))).getD false then some (.ringRoomResume g.disp (.group g.id)) else none
          | .task => if deliverable s g then some (.taskDelivery g.id) else none
          | .offers => if s.cmds.any (fun c => c.grp == g.id && c.opc == 0x2A1) then some (.rctOffer g.id) else none
          | _ => if resumable s g then some (.parkedAccessResume g.id) else none
        else none

/-! ### Engines -/

/-- A command may be performed by its engine, and a collective of one rank may start; a closing network holds an `rc.sync` (R292). -/
def cmdStep (s : State) (c : Cmd) : Option Instr :=
  if c.opc = 0x208 then
    (if cmdReady s c && collFirst s c && !unitHeld s (coreDie c.core) .collective
        && (unitOff s (coreDie c.core) .collective || (cmdRanks c).length == 1) then some (.collStart c.id []) else none)
  else if cmdRunnable s c
      && !(c.opc == 0x2A2 && ((ownedNet s c.part c.asid c.seq).map (fun n => (n.state == 2 && trains s n) || unitHeld s (nHome n.desc) .equinox)).getD false) then
    some (.copyEnginePerform c.id)
  else none

/-- A session's next bin (R270, R271). -/
def binStep (s : State) (x : Session) : Option Instr :=
  match endOf s x.sid with
  | none => none
  | some c =>
    if c.log != [] then some (if c.logKey % 2 = 0 then .binActivate x.sid (c.logKey / 2) else .binDone x.sid (c.logKey / 2))
    else if x.bins.contains 1 then some (.binDone x.sid (x.bins.idxOf 1))
    else if x.bins.contains 0 then some (.binActivate x.sid (x.bins.idxOf 0))
    else none

/-- A network's training and publication (R289 to R292). -/
def netStep (s : State) (n : Network) : Option Instr :=
  if (trainCmd s n).isNone then none
  else if !n.training then (if s.cmds.any (fun c => c.opc == 0x2A1 && c.seq == n.net) || stampedIn s n.net (n.w - 1) then none else some (.equinoxTrain n.net))
  else if n.step < stepCount n.desc then some (.equinoxStep n.net)
  else some (.publication n.net)

/-! ### Dispatches, tasks and clusters -/

/-- Coalescing nodes: a flush timer that has run out, a release that the ring has room for (R356). -/
def nodeStep (s : State) (d : Dispatch) (n : NodeSt) : Option Instr :=
  let die := partDie s d.part
  let due := match n.since, readQueue s d die with
    | some t, (s, some q) =>
      decide (t + nodeF q n.node ≤ s.clk) && nodeHeld q n.node != 0
        && (rdVa s (ctxOf d die) (nodeBuf q n.node) (64 * (nodeHeld q n.node - inRelease d n.node))).2.isSome
    | _, _ => false
  if n.batches != [] && ringHasRoom s d die && !appendMigs s d die 0 (n.batches.headD []).length then
    match readQueue s d die with
    | (_, some q) => if qUsed q + (n.batches.headD []).length ≤ qCount q then some (.nodeRelease d.id n.node) else none
    | (_, none) => none
  else if due then some (.nodeFlushTimer d.id n.node)
  else none

/-- The next page of a preparation is not under migration (R82, R89). -/
def prepReady (s : State) (d : Dispatch) : Bool :=
  d.state == .preparing && d.waitTag.isNone
    && (match (prepPages d)[d.prepared]? with
       | none => true
       | some va => (match translate s (ctxOf d (partDie s d.part)) va .read with | (_, .mig) => false | _ => true))

/-- The steps of one dispatch. -/
def dispStep (s : State) (d : Dispatch) : Option Instr :=
  match d.nodes.findSome? (nodeStep s d) with
  | some i => some i
  | none =>
    if prepReady s d then some (.leasePreparation d.id)
    else if (launchNext s d.id).isSome then some (.teamLaunch d.id)
    else
      let s' := pruneClusters s
      if dispatchOver s' d || decide (s'.clusters.length < s.clusters.length) then some (.dispatchEnd d.id) else none

/-- The steps of one cluster (R341, R394). -/
def clusterStep (s : State) (c : Cluster) : Option Instr :=
  if clusterSavable s c.disp c.clid && (framesReady s (frameTeams s c.disp c.clid) || !s.poolEmptyPosted) then
    some (.clusterSave c.disp c.clid)
  else if (resumeCluster s c.disp c.clid).isSome then some (.clusterResume c.disp c.clid)
  else none

/-! ### Host queues -/

/-- The next step of a host queue (R405 to R408). -/
def queueStep (s : State) (h : HostQueue) : Option Instr :=
  if !powered s then none
  else if waitHolds s h then some (.waitMet h.id)
  else if (signalReady s h).isSome then some (.signal h.id)
  else if hostMoves s h then some (.hostTapePlay h.id)
  else
    match startable s h with
    | none => none
    | some e =>
      if entryBad e then some (.dispatch h.id)
      else
        match entryKind e with
        | 1 => some (.dispatch h.id)
        | 2 => if playMay s h e then some (.hostTapePlay h.id) else none
        | 3 => some (.signal h.id)
        | _ => some (.wait h.id)

/-! ### All of them -/

/-- A pending hot-page notification that its queue has room for (R91). -/
def hotStep (s : State) (d : Die) : Option Instr :=
  if hotRoom s d.num d.sampler && d.sampler.table.any (fun e => (e.2.map (·.pending)).getD false) then some (.hotPagePendingPost d.num) else none

/-- The first enabled step of an agent other than the sectors. (DESIGN CHOICE: log 3) -/
def nextEvent (s : State) : Option Instr :=
  if s.power == .boot then some .powerOn
  else
    [fun s : State => s.heldRecs.findSome? (fun h => (postable s h.q).map (fun _ => Instr.queueRoomPost h.q)),
     fun s => s.groups.findSome? (groupStep s),
     fun s => (s.cores.find? (fun k => k.array != [])).map (fun k => Instr.arrayPerform k.lcore),
     fun s => s.cmds.findSome? (cmdStep s),
     fun s => s.sessions.findSome? (binStep s),
     fun s => s.networks.findSome? (netStep s),
     fun s => (s.dies.find? (fun d => dieQuiet s d.num)).map (fun d => Instr.dieQuiesce d.num),
     fun s => (s.submissions.find? (fun b => !subMigs s b)).map (fun b => Instr.dispatchAccept b.id),
     fun s => if framesCame s then some .savePoolFramesArrive else none,
     fun s => s.clusters.findSome? (clusterStep s),
     fun s => s.dispatches.findSome? (dispStep s),
     fun s => s.hostQueues.findSome? (queueStep s),
     fun s => s.dies.findSome? (hotStep s),
     fun s => (s.dies.findSome? (·.due.head?)).map Instr.selfTestStart].findSome? (fun f => f s)

/-- Where nothing else may happen: the outcomes that the spec leaves open and no schedule named, each a pass (log 3). -/
def idleEvent (s : State) : Option Instr :=
  let mods (d : Die) (e : Edge) : Option Instr :=
    ((match e with | .a => d.edgeA | .b => d.edgeB).findIdx? (fun (m : Module) => m.retraining && !m.disabled)).map (fun i => Instr.moduleRetrain d.num e i true)
  [fun s : State => (s.dies.find? (fun d => d.state == .reset)).map (fun d => Instr.dieResetDone d.num true),
   fun s => (s.cores.find? (fun k => k.testing && coreEmpty s k.lcore)).map (fun k => Instr.selfTestDone (.core k.lcore) true),
   fun s => s.dies.findSome? (fun d => (d.waysTest.head?).map (fun w => Instr.selfTestDone (.sliceWay w.1 w.2) true)),
   fun s => s.dies.findSome? (fun d =>
     ([DieUnit.tape, .equinox, .dicing, .sampling, .collective, .firstTouch, .sampler].find? (fun u => d.unitsTest.contains (unitNo u))).map
       (fun u => Instr.selfTestDone (.dieUnit d.num u) true)),
   fun s => s.dies.findSome? (fun d => (mods d .a).or (mods d .b))].findSome? (fun f => f s)

/-! ### The sectors (R330) -/

/-- When a sector last issued: 0 where none of its groups has, else 1 more than the latest. -/
def sectorLast (s : State) (core sector : Nat) : Nat :=
  (s.groups.filter (fun g => g.core == core && g.sector == sector)).foldl (fun m g => max m (match g.lastIssue with | some n => n + 1 | none => 0)) 0

/-- A sector issues before another: on an earlier clock, or on the same one where it issued less recently. -/
def sectorBefore (s : State) (a b : Nat × Nat) : Bool :=
  let t (k : Nat × Nat) : Nat := max s.clk (sectorFree s k.1 k.2)
  decide (t a < t b) || (t a == t b && decide (sectorLast s a.1 a.2 < sectorLast s b.1 b.2))

/-- The sector that issues next: of those with a ready group, one that may issue first (R330), and of these the one that issued least recently.
(DESIGN CHOICE: log 3) -/
def nextIssue (s : State) : Option Instr :=
  (((s.groups.filter (groupReady s)).map (fun g => (g.core, g.sector))).foldl
    (fun (m : Option (Nat × Nat)) k => match m with
      | none => some k
      | some b => if sectorBefore s k b then some k else some b) none).map (fun k => Instr.issue k.1 k.2)

/-- The clocks until the next deadline: a nap, a task's limit, a node's flush timer; at least one. (DESIGN CHOICE: log 8) -/
def idleClocks (s : State) : Nat :=
  let ds := s.groups.flatMap (fun g => g.naps.map (·.2) ++ ((taskRuns g).map (fun t => t.start + t.limit)).toList)
    ++ s.dispatches.flatMap (fun d => d.nodes.filterMap (fun n =>
      match n.since, (readQueue s d (partDie s d.part)).2 with | some t, some q => some (t + nodeF q n.node) | _, _ => none))
  match ds.filter (s.clk < ·) with
  | [] => 1
  | t :: ts => ts.foldl min t - s.clk

end Sys2Proof.Machine
end

