-- ==== Sys2Proof/Machine/Slot.lean ====
section
/-! DEFINITION. Where the machine fetches its next instruction, and a place for one on a machine that runs nothing yet: what a host would do by
creating a partition, tables of an address space and a dispatch (log 28). -/
namespace Sys2Proof.Machine

/-- The physical addresses of some bytes from the issue address of the selected group on, where it is about to issue from there. -/
def fetchPas (s : State) (n : Nat) : Option (Partition × List Nat) :=
  match s.cur.bind (findGroup s) with
  | none => none
  | some g =>
    match issueAddr g, dispOf s g with
    | some pc, some d =>
      match dispPart s d with
      | none => none
      | some p =>
        if !groupReady s g then none
        else
          ((List.range n).mapM (fun i =>
            match walk s p (ctxOf d (dieOf g)) (va57 (pc.toNat + i)) with
            | .leaf l e _ => if e.testBit 3 then some (pteAddr e + va57 (pc.toNat + i) % 2 ^ levelLo l) else none
            | _ => none)).map (fun l => (p, l))
    | _, _ => none

/-- Bytes stored where the selected group fetches. (DESIGN CHOICE: log 28) -/
def putFetch (s : State) (bs : List Byte) : Option State :=
  (fetchPas s bs.length).map (fun r => wrPlaces s none ((r.2.map (placeOf r.1)).zip bs))

/-- A partition of the whole device. -/
def slotPart : Partition :=
  { id := 0, dies := [0, 1, 2, 3], channels := List.range 256, chanImage := none, pbase := 0, lent := [], slices := List.range 64, sliceImage := none,
    gen := 0, doneGen := 0, members := 64, expBase := 0, expLen := 0 }

/-- The record of a dispatch of one group of 64 lanes with 256 registers, all of its core's local memory and accumulators, with the system flag,
that starts at 0x10000 in address space 1 (R320). -/
def slotRecord : List Byte :=
  leBytes 8 0x10000 ++ leBytes 8 0 ++ leBytes 4 0 ++ leBytes 8 (3 + 32 * 2 ^ 8 + 128 * 2 ^ 16 + 2 ^ 24 + 2 ^ 32 + 2 ^ 40 + 8 * 2 ^ 48 + 15 * 2 ^ 56)
    ++ leBytes 4 (4 + 2 ^ 16) ++ leBytes 4 1 ++ leBytes 220 0

/-- The descriptor of address space 1: valid, its top table at 0x100000 (R76). -/
def slotAscr : List Byte := leBytes 8 0x100001 ++ leBytes 24 0

def slotDispatch : Dispatch :=
  { id := 1, part := 0, record := slotRecord, ascr := slotAscr, seed := 0, state := .running, sub := .host 0, entry := 0, signal := (0, 0), victim := 0,
    nextTeam := 1, prepared := 0, waitTag := none, pins := [], preempt := 0, preemptFor := 0, nodes := [] }

/-- Tables that map the first GiB of address space 1 onto the first GiB of device memory, writable and executable (R77, R78). -/
def slotTables (s : State) : State :=
  let put (s : State) (pa v : Nat) : State := wrPlaces s none ((placesOf slotPart pa 8).zip (leBytes 8 v))
  put (put (put s 0x100000 0x101001) 0x101000 0x102001) 0x102000 0xCF

/-- One group on core 0 about to issue from 0x10000, nothing else on the device. (DESIGN CHOICE: log 28) -/
def slotState (s : State) : State :=
  let s := slotTables { s with power := .on, partitions := [slotPart], dispatches := [slotDispatch], nextDisp := 2, clusters := [⟨1, 0, .running, ⟨0, []⟩⟩],
                                teams := [], groups := [], cmds := [], tlb := [], joined := [] }
  match placeTeam s slotDispatch 0 0 0 with
  | some t => { t with cur := (t.groups.head?).map (·.id) }
  | none => s

end Sys2Proof.Machine
end

