-- ==== Sys2Proof/Machine/Step.lean ====
section
/-! DEFINITION. One step of the machine, and an instruction placed where it fetches. -/
namespace Sys2Proof.Machine

/-- One step. While a sector's choice is being issued, the next group of it issues its instruction and the clocks of the issue pass. Otherwise
the next step that the schedule names is taken, then an enabled step of another agent, then the choice of a sector, then an outcome that nothing
else waits for; with none of them clocks pass. (DESIGN CHOICE: log 2) -/
def step (s : State) : Host.Outcome State Fault Refusal :=
  trimmed <| match s.cur with
  | some _ =>
    match fetchCur s with
    | .over t => .next (endIssue t 1)
    | .instr t i =>
      match exec i t with
      | .next u => .next (endIssue u (instrLen i / 8))
      | r => r
  | none =>
    match s.agenda with
    | i :: is => if isEvent i then exec i { s with agenda := is } else .next { s with agenda := is }
    | [] =>
      match ((nextEvent s).or (nextIssue s)).or (idleEvent s) with
      | some i => exec i s
      | none => .next (tick s (idleClocks s))

/-- `s` with an instruction where `step` fetches next: at the issue address of the selected group, or, where none is selected that can fetch, at
that of a group placed by `slotState` (log 28). -/
def State.withFetchWord (s : State) (nbits w : Nat) : State :=
  let bs := leBytes 16 (w % 2 ^ nbits)
  match putFetch s bs with
  | some t => t
  | none => (putFetch (slotState s) bs).getD s

end Sys2Proof.Machine
end

