-- ==== Sys2Proof/WellFormed.lean ====
section
/-! DEFINITION. When an instruction is well formed: its own words give no cause of R43. The checks themselves stand in
`Machine/Shape.lean` and the family shapes. -/
namespace Sys2Proof

/-- No cause of R43 follows from the instruction's words. -/
def WellFormed (i : Instr) : Bool := (Machine.staticCauses i).isEmpty

end Sys2Proof
end

