-- ==== Sys2Proof/Decode.lean ====
section
/-! DEFINITION. The decoder, total on any bytes and rejecting by name, and the encoder. -/
namespace Sys2Proof
open Sys2Proof.Machine

/-- Why bytes are no instruction. -/
inductive DecodeError where
  /-- fewer bytes than one word, or than the second word of an X instruction -/
  | tooShort
  /-- an illegal instruction with its cause of R43, as far as the words alone show it -/
  | illegal (cause : Nat)
  deriving DecidableEq, Repr

/-- The instruction at the head of some bytes, and the bytes after it. -/
def decode (bytes : List Byte) : Except DecodeError (Instr × List Byte) :=
  if bytes.length < 8 then .error .tooShort
  else
    let w := ofLeBytes (bytes.take 8)
    let rest := bytes.drop 8
    if w % 4 == 2 && rest.length < 8 then .error .tooShort
    else
      match decodeWords w (ofLeBytes (rest.take 8)) with
      | .error c => .error (.illegal c)
      | .ok i =>
        match minCause (staticCauses i) with
        | some c => .error (.illegal c)
        | none => .ok (i, bytes.drop (instrLen i))

/-- The words of an instruction as little-endian bytes (R9); the other agents' steps have none. -/
def encode (i : Instr) : List Byte :=
  match frameOf i with
  | .f opc f => leBytes 8 (encodeF opc f)
  | .x opc x => leBytes 8 (encodeXHead opc x) ++ leBytes 8 (encodeXTail x)
  | .p p => leBytes 8 (encodeP p)
  | .event => []

/-- What the decoder reads from an instruction whose bits are `w`: two 64-bit words, the first at the lower address, each
little-endian, with every bit from `nbits` up zero. (DESIGN CHOICE: log 28) -/
def decodeTableWord (nbits w : Nat) : Option Instr :=
  match decode (leBytes 16 (w % 2 ^ nbits)) with
  | .ok (i, _) => some i
  | .error _ => none

end Sys2Proof
end

