-- ==== Sys2Proof/Safety.lean ====
section
/-! DEFINITION. The words that claims are stated in: an issue that reaches the instruction's own effect, the states that completing
instructions leave, what a step keeps, and the effects that the spec gives the instructions of one shape. -/
namespace Sys2Proof.Safety
open Sys2Proof.Machine

/-! ### Issues -/

/-- The issue of an instruction that reaches its own effect: a group is selected, the instruction waits for none of its accesses, and no trap of
issue meets it (R42, R43, R126, R397, R419). -/
def issueOf (s : State) (i : Instr) : Option Issue :=
  match s.cur.bind (findGroup s) with
  | none => none
  | some g =>
    match mkIssue g i with
    | some x => if waitSeq g i (chainRegs s g i) = none ∧ issueTrap s x = none then some x else none
    | none => none

/-- The instructions that wait until every lane of the group has arrived (R201, R337, R347, R389). -/
def convergent (i : Instr) : Bool :=
  match i with
  | .mma y => !(matASRC y == 1 && matMXS y == 0)
  | .mmaSp _ | .mmaT _ | .aread _ | .awrite _ | .barTeam _ | .barCl _ | .taskEnd _ | .iret _ => true
  | _ => false

/-- The issue of an instruction by a group, of a convergent one with every lane once all have arrived. -/
def issueAt (g : Group) (i : Instr) : Option Issue :=
  match mkIssue g i with
  | some x => if convergent i then (if converged x then some (joinConverged x) else none) else some x
  | none => none

/-- The state in which an issue is tried: lanes that waited at a convergent instruction wait no more. -/
def tried (s : State) (x : Issue) : State := if convergent x.i then setGroup s x.g else s

/-- `issueOf` for a convergent instruction at which every lane has arrived (R201, R337). -/
def convIssueOf (s : State) (i : Instr) : Option Issue :=
  match s.cur.bind (findGroup s) with
  | none => none
  | some g =>
    match mkIssue g i with
    | some x =>
      if converged x ∧ waitSeq g i (chainRegs s g i) = none ∧ issueTrap s (joinConverged x) = none then some (joinConverged x) else none
    | none => none

/-- The state in which an issue's own effect begins. -/
def entry (s : State) (x : Issue) : State := setGroup s x.g

/-! ### States that completing instructions leave -/

/-- The lanes served move on; nothing else is written. -/
def plain (s : State) (x : Issue) : State := completeIssue s x [] []

/-- Results by lane in DST and in a predicate, and the lanes served move on (R15, R145, R187). -/
def laneResult (s : State) (x : Issue) (vals : List (Nat × Nat)) (pd : Nat) (ps : List (Nat × Bool)) : State :=
  completeIssue (modGroup s x.g.id fun g => putPreds (putDst g x.i vals) pd ps) x [] vals

/-- The same after the flags of every lane have been ORed into FPSTAT (R159). -/
def fpResult (s : State) (x : Issue) (vals : List (Nat × Nat)) (pd : Nat) (ps : List (Nat × Bool)) (fl : List (Nat × FFlags)) : State :=
  laneResult (modGroup s x.g.id fun g => orFpstat g (allFlags fl)) x vals pd ps

/-- One value in DST for every active lane (R109). -/
def wideResult (s : State) (x : Issue) (v : Nat) : State :=
  completeIssue (modGroup s x.g.id fun g => putDst g x.i (allLanes x v)) x [] []

/-- Results by lane in DST of an instruction that feeds no latch. -/
def dstResult (s : State) (x : Issue) (vals : List (Nat × Nat)) : State :=
  completeIssue (modGroup s x.g.id fun g => putDst g x.i vals) x [] []

/-- The pcv of the active lanes set, the other lanes served at the next instruction (R187, R188). -/
def jumped (s : State) (x : Issue) (dest : List (Nat × DWord)) : State := completeIssue s x dest []

/-! ### Effects by operand values -/

/-- The exact results of R163 as a function of SA, SB and SC. -/
def intRule (i : Instr) : Option (FWord × (Int → Int → Int → Int)) :=
  match i with
  | .iadd f => some (f, fun a b _ => a + b)
  | .isub f => some (f, fun a b _ => a - b)
  | .iadd3 f => some (f, fun a b c => a + b + c)
  | .imul f => some (f, fun a b _ => a * b)
  | .imulhi f => some (f, fun a b _ => Int.fdiv (a * b) (2 ^ intW f))
  | .imad f => some (f, fun a b c => a * b + c)
  | .imin f => some (f, fun a b _ => if a ≤ b then a else b)
  | .imax f => some (f, fun a b _ => if a ≤ b then b else a)
  | .iabs f => some (f, fun a _ _ => if a < 0 then -a else a)
  | .ineg f => some (f, fun a _ _ => -a)
  | _ => none

/-- The results of R164 to R168, R171 and R172 as a function of SA, SB and SC. -/
def bitRule (i : Instr) : Option (Nat → Nat → Nat → Nat) :=
  match i with
  | .and _ => some fun a b _ => a &&& b
  | .or _ => some fun a b _ => a ||| b
  | .xor _ => some fun a b _ => a ^^^ b
  | .not f => some fun a _ _ => a ^^^ (2 ^ intW f - 1)
  | .lfn3 f => some fun a b c => lfn3 (intW f) (fmod f 2 8) a b c
  | .shl f => some fun a n _ => shlN (intW f) a n
  | .shr f => some fun a n _ => shrN (intW f) a n
  | .sar f => some fun a n _ => sarN (intW f) a n
  | .fsh f => some fun lo hi n => fshN (fmod f 4 1 == 1) (intW f) lo hi n
  | .fext f => some fun a r _ => fextN (fmod f 2 1 == 1) (intW f) a r
  | .fdep f => some fun i b r => fdepN (intW f) i b r
  | .bsel _ => some fun a b c => bselN a b c
  | .popc f => some fun a _ _ => popcN (intW f) a
  | .clz f => some fun a _ _ => clzN (intW f) a
  | .ctz f => some fun a _ _ => ctzN (intW f) a
  | .brev f => some fun a _ _ => brevN (intW f) a
  | .mov _ => some fun a _ _ => a
  | .li y => some fun _ _ _ => liImm y
  | .lea f => some fun a b _ => wrapI (intW f) ((a : Int) + readInt (fmod f 2 1 == 0) 32 b * 2 ^ fmod f 3 3)
  | .imadw f => some fun a b c => wrapI 64 (readInt (fmod f 2 1 == 1) 32 a * readInt (fmod f 2 1 == 1) 32 b + c)
  | _ => none

/-- The element operations of the standard FP layout (R174, R175, R178). -/
def fpRule (i : Instr) : Option (FWord × (Nat → Fmt → Rnd → Nat → Nat → Nat → FRes)) :=
  match i with
  | .fadd f => some (f, fun ctl m r a b _ => fpAdd m ctl r (m.decode a) (m.decode b))
  | .fsub f => some (f, fun ctl m r a b _ => fpSub m ctl r (m.decode a) (m.decode b))
  | .fmul f => some (f, fun ctl m r a b _ => fpMul m ctl r (m.decode a) (m.decode b))
  | .fma f => some (f, fun ctl m r a b c => fpFma m ctl r (m.decode a) (m.decode b) (m.decode c))
  | .fdiv f => some (f, fun ctl m r a b _ => fpDiv m ctl r (m.decode a) (m.decode b))
  | .fsqrt f => some (f, fun ctl m r a _ _ => fpSqrt m ctl r (m.decode a))
  | .fround f => some (f, fun _ m r a _ _ => fpRound m r (m.decode a))
  | .fmin f => some (f, fun ctl m _ a b _ => fpMinMax m ctl false false a b)
  | .fmax f => some (f, fun ctl m _ a b _ => fpMinMax m ctl true false a b)
  | .fminx f => some (f, fun ctl m _ a b _ => fpMinMax m ctl false true a b)
  | .fmaxx f => some (f, fun ctl m _ a b _ => fpMinMax m ctl true true a b)
  | _ => none

/-- The approximating instructions by their number in `Machine/Arith.lean` (R178). -/
def approxRule (i : Instr) : Option (FWord × Nat) :=
  match i with
  | .frcp f => some (f, 0) | .frsq f => some (f, 1) | .fex2 f => some (f, 2)
  | .flg2 f => some (f, 3) | .fsin f => some (f, 4) | .fcos f => some (f, 5)
  | _ => none

/-- What a floating-point instruction gives each active lane, with its flags. -/
def fpLanes (i : Instr) (x : Issue) (s : State) : Option (List (Nat × FRes)) :=
  match i with
  | .fscale f => some (x.act.map fun l => (l, fscaleLane x s f l))
  | .mxscale f => some (x.act.map fun l => (l, mxscaleLane x s f l))
  | .cvt y => (cvtTypes y).map fun t => x.act.map fun l => (l, cvtLane x s y t.1 t.2 l)
  | .lred f => some (x.act.map fun l => (l, lredVal x s f))
  | .lscan f => some (lscanLanes x s f)
  | i =>
    match fpRule i, approxRule i with
    | some (f, op), _ => some (x.act.map fun l => (l, fpLane x s f (op (ctlOf x)) l))
    | none, some (f, n) =>
      some (x.act.map fun l => (l, fpLane x s f
        (fun m _ a _ _ => match m with | .f32 | .f64 => approx n m (ctlOf x) a | _ => approx16 n m (ctlOf x) a) l))
    | none, none => none

/-- The values of results with flags. -/
def valsOf (r : List (Nat × FRes)) : List (Nat × Nat) := r.map fun p => (p.1, p.2.1)
/-- The flags of results with flags. -/
def flagsOf (r : List (Nat × FRes)) : List (Nat × FFlags) := r.map fun p => (p.1, p.2.2)

/-- What the other lane instructions without flags give: results by active lane, a predicate and its results (R168 to R170, R172, R177,
R183 to R185). -/
def laneOut (i : Instr) (x : Issue) (s : State) : Option (List (Nat × Nat) × Nat × List (Nat × Bool)) :=
  match i with
  | .sel f => some (x.act.map fun l => (l, if xor (predOf x.g (fmod f 2 3) l) (fmod f 5 1 == 1) then rdA s x l else rdB s x l), 7, [])
  | .icmp f =>
    let t (l : Nat) : Bool := icmpTrue (fmod f 3 3) (readInt (fmod f 2 1 == 1) (intW f) (rdA s x l)) (readInt (fmod f 2 1 == 1) (intW f) (rdB s x l))
    some (x.act.map fun l => (l, if t l then 2 ^ 32 - 1 else 0), fmod f 6 3, x.act.map fun l => (l, t l))
  | .setp f =>
    let p (o : Opnd) (n l : Nat) : Bool := xor (predOf x.g (predIx o) l) (fmod f n 1 == 1)
    some ([], fmod f 0 3, x.act.map fun l => (l, setpOp (fmod f 5 2) (setpOp (fmod f 3 2) (p f.sa 7 l) (p f.sb 8 l)) (p f.sc 9 l)))
  | .rand f =>
    some (x.act.map fun l =>
      let k := randKey s x l
      let r := randRounds 10 (specialVal s x .seedLo l) (specialVal s x .seedHi l) (rdA s x l, rdB s x l, k.1, k.2)
      (l, if fmod f 0 1 = 1 then r.2.1 * 2 ^ 32 + r.1 else r.1), 7, [])
  | .fclass f => some (x.act.map fun l => (l, fclassLane x s f l), fmod f 0 3, x.act.map fun l => (l, fclassLane x s f l &&& rdB s x l != 0))
  | .shfl f => some (x.act.map fun l => (l, (shflLane x s f l).1), fmod f 3 3, x.act.map fun l => (l, (shflLane x s f l).2))
  | .vote f => some (x.act.map fun l => (l, (voteVal x f).1), fmod f 6 3, x.act.map fun l => (l, (voteVal x f).2))
  | .matchLanes f => some (x.act.map fun l => (l, (matchVal x s f l).1), fmod f 3 3, x.act.map fun l => (l, (matchVal x s f l).2))
  | .elect f => some (x.act.map fun l => (l, x.lead), fmod f 0 3, x.act.map fun l => (l, l == x.lead))
  | _ => none

/-- The active lanes for which `shfl` reads an uncorrectable word in the lane that it selects (R183, R397). -/
def shflBad (i : Instr) (x : Issue) (s : State) : List Nat :=
  match i with | .shfl f => x.act.filter fun l => (shflLocs x s f l).any s.badWords.contains | _ => []

/-- The state in which a lane instruction gives its results: `shfl` has corrected the words that it reads in other lanes (R183, R397). -/
def laneState (i : Instr) (x : Issue) (s : State) : State :=
  match i with | .shfl f => correctLocs s (x.act.flatMap (shflLocs x s f)) | _ => s

/-- The instructions whose only effects are results in registers and predicates, without flags. -/
def registerOnly (i : Instr) : Bool :=
  match i with
  | .sel _ | .icmp _ | .setp _ | .rand _ | .fclass _ | .shfl _ | .vote _ | .matchLanes _ | .elect _ => true
  | i => (intRule i).isSome || (bitRule i).isSome

/-! ### Frames -/

/-- What an instruction leaves of its group: every register and predicate but those named, which it may change in the lanes named, and every
special register. -/
structure GroupFrame (g g' : Group) (writes act : List Nat) : Prop where
  v : ∀ l r, r < 256 → ¬ (l ∈ act ∧ r ∈ writes) → readV g' l r = readV g l r
  k : ∀ r, 256 + r ∉ writes → readK g' r = readK g r
  p : ∀ n l, ¬ (l ∈ act ∧ 512 + n ∈ writes) → predOf g' n l = predOf g n l
  special : g'.flushctl = g.flushctl ∧ g'.fptrap = g.fptrap ∧ g'.mstat = g.mstat ∧ g'.prio = g.prio ∧ g'.trec = g.trec ∧
    g'.shadow = g.shadow ∧ g'.segLocal = g.segLocal ∧ g'.segConst = g.segConst ∧ g'.segGlob = g.segGlob
  blocks : g'.blocks = g.blocks
  inFlight : g'.flights = g.flights ∧ g'.stores = g.stores

/-- What an instruction leaves of the machine outside its group and outside memory. -/
structure MachineFrame (s t : State) (gid : Nat) : Prop where
  groups : ∀ id, id ≠ gid → findGroup t id = findGroup s id
  slots : ∀ c, (findCore t c).map (·.slots) = (findCore s c).map (·.slots)
  regs : t.devnum = s.devnum ∧ t.seedReg = s.seedReg ∧ t.astab = s.astab ∧ t.sysnq = s.sysnq ∧ t.sysfq = s.sysfq ∧
    t.savepool = s.savepool ∧ t.collgrp = s.collgrp
  teams : t.teams = s.teams
  cmds : t.cmds = s.cmds

/-- No byte of main memory and no byte of local memory changes. -/
def MemorySame (s t : State) : Prop := (∀ a, rdPlace t a = rdPlace s a) ∧ ∀ c o, rdLocal t c o = rdLocal s c o

/-! ### Memory instructions -/

/-- The plain loads and their spaces (R133). -/
def loadRule (i : Instr) : Option (FWord × Space) :=
  match i with
  | .ldL f => some (f, .l) | .ldLp f => some (f, .lp) | .ldG f => some (f, .g) | .ldC f => some (f, .c)
  | _ => none

/-- The plain stores and their spaces (R133). -/
def storeRule (i : Instr) : Option (FWord × Space) :=
  match i with
  | .stL f => some (f, .l) | .stLp f => some (f, .lp) | .stG f => some (f, .g)
  | _ => none

/-- The group's earlier accesses are performed, and it holds no store error: a release goes on (R139, R308). -/
def releaseOk (s : State) (x : Issue) : Prop := ((findGroup (drainGroup s x.g.id) x.g.id).bind (·.storeErr)) = none

/-- The state in which the effect of a release begins: the group's earlier accesses are performed, and its later reads come after them (R308). -/
def released (s : State) (x : Issue) : State := modGroup (drainGroup s x.g.id) x.g.id fun g => { g with floor := max g.floor g.lastT }

/-- The same of an instruction that is a release where `rel` says so. -/
def releasedIf (rel : Bool) (s : State) (x : Issue) : State := if rel then released s x else s

/-- What `rgrow` answers at once: the blocks that it adds, its predicate, its count (R128). -/
def rgrowOut (s : State) (x : Issue) (f : FWord) : Option (List Nat × Bool × Nat) :=
  let n := rdA s x x.lead
  let b := x.g.blocks.length
  if n = 0 ∨ 32 < n then none
  else if n ≤ b then some ([], true, b)
  else
    match growBlocks s x.g n with
    | some bs => some (bs, true, n)
    | none => if fmod f 3 1 = 1 then some ([], false, b) else none

/-! ### Engine commands -/

/-- The state in which an engine command is issued: after its release, where it is one, and after those of the group's earlier accesses that are
performed first (R109). -/
def engineState (s : State) (x : Issue) (opc : Nat) (rel : Bool) : State :=
  cmdPoint (releasedIf rel (entry s x) x) x.g.id opc

/-- The engine command issues: some lane is active, its release passes, and a control command finds its queue empty (R109, R139). -/
def engineOpen (s : State) (x : Issue) (opc : Nat) (rel : Bool) : Prop :=
  x.act ≠ [] ∧ (rel = true → releaseOk (entry s x) x) ∧ (isCtl opc && ctlBusy (engineState s x opc rel) x.g.id) = false

/-- The issue of an engine command is over: it is recorded where its group records, and a value goes to DST (R109, R362). -/
def engineDone (x : Issue) (y : XWord) (c : CmdSpec) (lr : Bool) (t : State) (v : Nat) : State := wideResult (recordCmd x y c lr t) x v

/-- A command finds room in its queue and in the counts of its lines (R94, R109). -/
def queueOpen (t : State) (c : Cmd) : Prop := queueLen t c.core c.queue < 64 ∧ linesFit t c.writes c.reads = true

/-- A command at the end of its queue; FAILED is cleared on the lines that it writes (R96, R109). -/
def enqueued (t : State) (c : Cmd) : State :=
  let u := c.writes.foldl (fun s l => modLine s l.1 l.2 (fun k => { k with failed := none })) t
  { u with cmds := u.cmds ++ [c], nextId := u.nextId + 1 }

/-- The linear copies with their opcodes (R111). -/
def copyRule (i : Instr) : Option (XWord × Nat) :=
  match i with
  | .cpG2l y => some (y, 0x200) | .cpL2g y => some (y, 0x201) | .cpG2g y => some (y, 0x202) | .cpL2l y => some (y, 0x203)
  | _ => none

/-- The places of a linear copy's local ends. -/
def copyLocals (t : State) (j : Issuer) (c : CmdSpec) : Option (Nat × Nat) × Option (Nat × Nat) :=
  (if dstGlobal c.opc then none else cmdLocal t j (c.opc == 0x203 && c.moda.testBit 4) c.a c.len,
   if srcGlobal c.opc then none else cmdLocal t j false c.b c.len)

/-- Both ends of a linear copy are aligned and lie in their spaces and leases (R112, R113). -/
def copyEndsOk (t : State) (j : Issuer) (c : CmdSpec) : Prop :=
  c.a % 16 = 0 ∧ c.b % 16 = 0 ∧ c.len % 16 = 0 ∧
  (if dstGlobal c.opc then (cmdGlobal j c.a c.len).isSome = true ∧ issuerLeases t j (va57 c.a) c.len = true
   else (copyLocals t j c).1.isSome = true) ∧
  (if srcGlobal c.opc then (cmdGlobal j c.b c.len).isSome = true ∧ issuerLeases t j (va57 c.b) c.len = true
   else (copyLocals t j c).2.isSome = true)

/-- The command of a linear copy. -/
def copyCommand (t0 t : State) (j : Issuer) (c : CmdSpec) (r : BarRef) : Cmd :=
  let ls (e : Option (Nat × Nat)) : List (Nat × Nat) := match e with | some (co, o) => (linesOfRange o c.len).map (fun l => (co, l)) | none => []
  { newCmd t j c.qid c with
    locA := (copyLocals t0 j c).1, locB := (copyLocals t0 j c).2, bar := r, credit := (c.len + 31) / 32,
    writes := ls (copyLocals t0 j c).1, reads := ls (copyLocals t0 j c).2 }

/-- The tensor copies with their opcodes (R115). -/
def tensorRule (i : Instr) : Option (XWord × Nat) :=
  match i with
  | .cpT2l y => some (y, 0x204) | .cpL2t y => some (y, 0x205)
  | _ => none

/-- The command of a tensor copy with its shape record (R114, R115). -/
def tensorCommand (t : State) (j : Issuer) (c : CmdSpec) (bs : List Byte) (co o : Nat) (r : BarRef) : Cmd :=
  let h := shapeOf bs
  let store := c.opc == 0x205
  let ls := tensorLines h store co o
  { newCmd t j c.qid c with
    locA := if store then none else some (co, o), locB := if store then some (co, o) else none, bar := r, shape := bs,
    credit := h.rows * ((h.rowBytes + 31) / 32), writes := if store then [] else ls, reads := if store then ls else [] }

/-- The commands of chapter 11 with their opcodes and the checks of their addresses: operand, alignment, bytes (R272, R275). -/
def sampRule (i : Instr) : Option (XWord × Nat × (CmdSpec → List (Nat × Nat × Nat))) :=
  match i with
  | .dice y => some (y, 0x290, fun c => [(c.a, 64, 64), (c.b, 16, 16)])
  | .gridEmit y => some (y, 0x291, fun c => [(c.a, 64, 64)])
  | .smpBegin y => some (y, 0x298, fun c => [(c.a, 128, 128)])
  | .smpEnd y => some (y, 0x299, fun _ => [])
  | .smpRes y => some (y, 0x29A, fun c => let z := if c.imm.testBit 3 then 16 else 8; [(c.a, z, z)])
  | _ => none

/-! ### The matrix engine -/

/-- A multiply's checks pass: its slot granted and tagged, its tiles readable, its slot's elements correctable (R226). -/
def mulOk (t0 : State) (x : Issue) (y : XWord) (sp : Bool) (n : Nat) (tm : Team) (t : State) (p : Partition) (tabs : List PageTab) : Prop :=
  slotCheck t0 x.g (matSlot y) (matTACC y) (!matZA y) = .ok n ∧ teamOf t0 x.g = some tm ∧
  checkTiles t0 x false (mulTiles t0 x tm y sp) = .ok t p tabs ∧
  (matZA y = false → (tileSlots n (matTACC y)).all (fun i => !slotBad t x.g.core i) = true)

/-- The state after a multiply has read its tiles, with the tiles' values. -/
def mulRead (t0 t : State) (x : Issue) (y : XWord) (sp : Bool) (n : Nat) (tm : Team) (p : Partition) (tabs : List PageTab) : State × List (List Nat) :=
  let ts := mulTiles t0 x tm y sp
  let u := sampleTiles (touchRead (correctAcc t x.g.core (if matZA y then [] else tileSlots n (matTACC y))) x.g.id) x 0 ts
  (u, readTiles u x.g p ts tabs)

/-! ### Reduction objects -/

/-- The headers of a DRO instruction's objects after its checks: what overlaps them has been performed, sweeps have come by, the lanes whose request
got an error reply are known, errors are corrected (R305, R306). -/
def droMet (t : State) (x : Issue) (p : Partition) (ls : List LaneOk) : List LaneOk × State :=
  lostLanes (settleSlots (drainOver t x.g.id (ls.map fun k => (k.place, 64))) p (ls.map (·.pa))) ls
def droSettled (t : State) (x : Issue) (p : Partition) (ls : List LaneOk) : State := (droMet t x p ls).2
def droReady (t : State) (x : Issue) (p : Partition) (ls : List LaneOk) : State :=
  ls.foldl (fun s k => correctPlaces s (placesOf p k.pa 64)) (droSettled t x p ls)

/-! ### Ray queries -/

/-- The instructions that change each active lane's query, with the states that they accept (R256, R257). -/
def queryRule (i : Instr) (x : Issue) (s : State) : Option (Nat × (Rq → Bool) × (Nat → Rq → Rq)) :=
  match i with
  | .rqAcc f => some (vOf f.sa, fun r => rqState r == 2, rqAccLane x f)
  | .rqRej f => some (vOf f.sa, fun r => rqState r == 2, fun _ r => rqWithState r 3)
  | .rqSet f => some (vOf f.sa, fun r => rqState r != 0, fun l r => rqSetTo (fmod f 0 4) (rdB s x l) r)
  | .rqEnd f => some (vOf f.sa, fun _ => true, fun _ r => rqWithDepth (rqWithState r 0) 0)
  | _ => none

/-! ### Waiting instructions, tapes, the system -/

/-- The group parks, and its instruction completes when it is released (R334). -/
def parkedDone (s : State) (x : Issue) (w : Wait) : State :=
  modGroup s x.g.id fun g => { parkGroup g w with keeps := keepsParked x.i, parkInfo := some (parkInfoOf x) }

/-- A tape instruction is not held back by a test of its unit (R399), and some lane is active. -/
def tapeOpen (s : State) (x : Issue) (die : Nat) : Prop := x.act ≠ [] ∧ unitHeld (entry s x) die .tape = false

/-- The forms of `smpcfg` with the operands that each refuses and its effect on a die's sampler (R92). -/
def smpcfgRule (i : Instr) : Option (XWord × (Nat → Nat → Bool) × (Nat → Nat → Nat → State → Nat × State)) :=
  match i with
  | .smpcfgConf y =>
    some (y, (fun a _ => (decide (0 < a % 32) && decide (a % 32 < 6)) || decide (20 < a % 32) || fldN a 8 12 == 0),
      fun d a _ s => (0, modSampler s d fun p => { p with log2n := a % 32, thresh := fldN a 8 12, hot := a.testBit 20, counter := 0 }))
  | .smpcfgRing y =>
    some (y, (fun a b => a % 64 != 0 || decide (1 < b)),
      fun d a b s => (0, modSampler s d fun p => if b = 0 then { p with ring := some a } else { p with notify := some a }))
  | .smpcfgAck y =>
    some (y, (fun a _ => decide (4095 < a)), fun d a _ s =>
      match (findDie s d).bind (fun k => Sparse.get none k.sampler.table a) with
      | none => (0, s)
      | some h => (h.count, modSampler s d fun p => { p with table := Sparse.put none p.table a (some { h with queued := false, count := 0 }) }))
  | .smpcfgReset y =>
    some (y, (fun _ _ => false), fun d _ _ s => (0, modSampler s d fun p =>
      { p with table := [], overflow := min (2 ^ 32 - 1) (p.overflow + (p.table.filter fun e => (e.2.map (·.pending)).getD false).length) }))
  | .smpcfgStat y =>
    some (y, (fun _ b => decide (2 < b)), fun d _ b s =>
      let p := ((findDie s d).map (·.sampler)).getD samplerReset
      (if b = 0 then p.smplost else if b = 1 then p.overflow else p.hotmiss, s))
  | _ => none

end Sys2Proof.Safety
end

