-- ==== Sys2Proof/Certificates/Slice0/Obligations.lean ====
section
/-! DEFINITION. The statements for the provers. -/
open Sys2Proof Sys2Proof.Machine Sys2Proof.Safety

/-! ### Words, steps, selection -/

/-- R9, R13, R17, R20, R41: words that the spec writes out, and the instructions that they stand for: a fused multiply-add, a P word, a chain's head, a
compare, a branch, a store, an atomic, a `sysrd`, a `launch`, an `iret.skip`, a `die.q`, a `tlbinv`, an `rq.run`. -/
def Obligations.SpecWords : Prop :=
  let f (w : Nat) : Except DecodeError (Instr × List Byte) := decode (leBytes 8 w)
  let x (w t : Nat) : Except DecodeError (Instr × List Byte) := decode (leBytes 8 w ++ leBytes 8 t)
  f 0x052E06020080820C = .ok (.fma ⟨false, 0x29, 7, .v 6, .v 4, .v 2, false, .v 8⟩, []) ∧
  f 0x0D0B091218141001 = .ok (.pWord ⟨⟨.iadd, 12, 10, 8⟩, ⟨.xor, 13, 11, 9⟩⟩, []) ∧
  f 0x800E000180A00208 = .ok (.fmul ⟨true, 0, 7, .v 0, .v 3, .v 2, true, .v 0⟩, []) ∧
  f 0x0A8E00C2512000C4 = .ok (.icmp ⟨false, 0x54, 7, .v 0, .imm 4, .sp .laneid, true, .v 0⟩, []) ∧
  x 0x0009000000000502 0x00000003FFFFFFE3 = .ok (.bra ⟨0, 9, .v 0, .v 0, .v 0, .v 0, 0xFFFFFFF8⟩, []) ∧
  f 0x04AE06C002800620 = .ok (.stL ⟨false, 0x25, 7, .v 6, .imm 0, .v 10, false, .v 0⟩, []) ∧
  x 0x04270001C0405702 3 = .ok (.atom ⟨0x042, 7, .v 0, .v 7, .v 2, .v 5, 0⟩, []) ∧
  f 0x002E000000003C00 = .ok (.sysrd ⟨false, 1, 7, .v 0, .v 0, .v 0, false, .v 3⟩, []) ∧
  x 0x0127050180800B02 3 = .ok (.launch ⟨0x012, 7, .v 10, .v 6, .v 4, .v 0, 0⟩, []) ∧
  f 0x002E000000000C80 = .ok (.iret ⟨false, 1, 7, .v 0, .v 0, .v 0, false, .v 0⟩, []) ∧
  f 0x000E000000402C60 = .ok (.dieQ ⟨false, 0, 7, .v 0, .v 0, .v 1, false, .v 2⟩, []) ∧
  x 0x00078441A0801C22 3 = .ok (.tlbinv ⟨0, 7, .k 8, .k 6, .k 4, .v 1, 0⟩, []) ∧
  x 0x0007006802028A06 0x0000300000000003 = .ok (.rqRun ⟨0, 7, .v 0, .imm 32, .v 16, .v 40, 0xC0000000000⟩, [])

/-- R9, R17, R20, R22: decoding the bytes of a well-formed instruction gives it back, with every field at every value that it may hold, and leaves
the bytes after it. -/
def Obligations.DecodeEncode : Prop :=
  ∀ (i : Instr) (rest : List Byte), WellFormed i = true → isEvent i = false → decode (encode i ++ rest) = .ok (i, rest)

/-- R9, R11, R43: where the words at the issue address of the selected group, which is ready, decode to an instruction, a step is its meaning, the
group's issue is over after its 1 or 2 clocks (R330), and a slice that holds more dirty lines than it has room for writes some back (R62). Model's own readings: logs 8, 58, 65. -/
def Obligations.StepRunsDecoded : Prop :=
  ∀ (s t u : State) (g : Group) (d : Dispatch) (pc : DWord) (w w' : Nat) (i : Instr) (rest : List Byte), s.cur.bind (findGroup s) = some g →
    groupReady s g = true → issueAddr g = some pc → dispOf s g = some d → fetchWords s g d pc = .ok (t, w, w') → w < 2 ^ 64 → w' < 2 ^ 64 →
    decode (leBytes 8 w ++ leBytes 8 w') = .ok (i, rest) → exec i t = .next u →
    step s = .next (trimSlices (endIssue u (if w % 4 = 2 then 2 else 1)))

/-- R330: a sector issues a ready group, and where no chain is in progress one that no other ready group of the sector comes before: its effective
priority is the highest, and among those with that priority it issued least recently. -/
def Obligations.HighestPriorityIssues : Prop :=
  ∀ (s : State) (c sector : Nat) (g : Group), selectGroup s c sector = some g →
    g ∈ sectorReady s c sector ∧
    ((∀ h ∈ sectorReady s c sector, h.chain = none) → ∀ h ∈ sectorReady s c sector,
      min 15 (h.prio.toNat + h.age) ≤ min 15 (g.prio.toNat + g.age) ∧
      (min 15 (h.prio.toNat + h.age) = min 15 (g.prio.toNat + g.age) →
        match g.lastIssue, h.lastIssue with
        | none, none => g.born ≤ h.born
        | none, some _ => True
        | some _, none => False
        | some m, some n => m ≤ n))

/-! ### Memory and reset -/

/-- R323, R334, R386, R411: the state after reset. Memory has its canonical form with no byte listed, nothing runs, SEED and the queue registers are
zero, every die serves, and the first step is that of power-on. Model's own readings: logs 1, 6. -/
def Obligations.AfterReset : Prop :=
  Memory.wf State.reset = true ∧ (∀ a, rdPlace State.reset a = 0) ∧ State.reset.groups = [] ∧ State.reset.seedReg = 0 ∧ State.reset.sysnq = 0 ∧
    State.reset.sysfq = 0 ∧ State.reset.savepool = 0 ∧ (∀ d ∈ State.reset.dies, d.state = .service) ∧
    step State.reset = .next { State.reset with power := .on }

/-- Memory keeps its canonical form in every step: addresses strictly rising, and no entry equal to what an unlisted address reads as. -/
def Obligations.MemoryStaysCanonical : Prop :=
  ∀ (s t : State), Memory.wf s = true → step s = .next t → Memory.wf t = true

/-- R57: both folds of a physical address and its route bit, and each fold takes the 4,096 values of bits 19:8 one to one onto the slots. -/
def Obligations.AddressHashes : Prop :=
  (∀ pa : BitVec 52,
    let rotl12 (x : BitVec 12) (k : Nat) : BitVec 12 := x.rotateLeft k
    let a := pa.extractLsb' 8 12
    let b := pa.extractLsb' 20 12
    let c := pa.extractLsb' 32 12
    let d := (pa.extractLsb' 44 8).zeroExtend 12
    cfold pa.toNat = (a ^^^ b ^^^ c ^^^ d).toNat ∧ sfold pa.toNat = (a ^^^ rotl12 b 4 ^^^ rotl12 c 8 ^^^ d).toNat ∧
    routeBit pa.toNat = ((List.range 12).countP fun i => (a ^^^ rotl12 b 4 ^^^ rotl12 c 8 ^^^ d).getLsbD i) % 2) ∧
  (∀ hi lo n m : Nat, n < 4096 → m < 4096 → n ≠ m → hi < 2 ^ 32 → lo < 256 →
    cfold (hi * 2 ^ 20 + n * 256 + lo) ≠ cfold (hi * 2 ^ 20 + m * 256 + lo) ∧ sfold (hi * 2 ^ 20 + n * 256 + lo) ≠ sfold (hi * 2 ^ 20 + m * 256 + lo))

/-- R57, R59, R60: two bytes of a partition's device memory lie at different places of its channels. -/
def Obligations.DeviceBytesApart : Prop :=
  ∀ (p : Partition) (a b : Nat), p.pbase % 2 ^ 20 = 0 → p.channels.Nodup → (∀ t, p.chanImage = some t → t.length = 4096) →
    isDevPa p a = true → isDevPa p b = true → placeOf p a = placeOf p b → a = b

/-! ### Traps -/

/-- R42 to R44, R126, R200: the lowest cause that applies to an instruction is its ILLOP; with none, a register at or above the allocation, named or
spanned by a fragment, is its REGRANGE; the mask of either holds every lane at the address. No instruction takes its effect then. An illegal
convergent instruction is ILLOP before every lane of the group has arrived, too. Model's own readings: logs 13, 14, 52, 57, 71, 76. -/
def Obligations.IllegalInstructions : Prop :=
  ∀ (s : State) (i : Instr) (g : Group) (x : Issue), isEvent i = false → s.cur.bind (findGroup s) = some g → inFlight g = false →
    lateTrap s x.g = none →
    let causes := staticCauses i ++ latchCauses x ++ chainCauses s x ++ stateCauses s x
    let trap (t : State) (k c : Nat) : State := takeTrap t x.g.id x.pc x.next { kind := k, cause := c, mask := lanesAt x.g x.pc }
    (issueAt g i = some x →
      (∀ c, c ∈ causes → (∀ d ∈ causes, c ≤ d) → exec i s = .next (trap (tried s x) 1 c)) ∧
      (causes = [] → regRange s x = true → exec i s = .next (trap (tried s x) 2 0))) ∧
    (convergent i = true → mkIssue g i = some x → converged x = false → ∀ c, c ∈ causes → (∀ d ∈ causes, c ≤ d) →
      exec i s = .next (trap (entry s x) 1 c))

/-- R40: the S instructions of the opcode map, and every access to a system register that R381 marks privileged, are illegal with cause 0x0C in a
dispatch whose record does not carry the system flag, where no lower cause applies (R43); the mask holds every lane at the address (R42). -/
def Obligations.Privilege : Prop :=
  ∀ (s : State) (i : Instr) (g : Group) (x : Issue),
    (match i with
      | .segld _ | .dieQ _ | .tlbinv _ | .cwb _ | .cinv _ | .domSw _ | .routeSw _ | .dieRstFrost _ | .dieRstReset _ | .dieRstThaw _ | .ctxsavePre _
      | .ctxsaveDump _ | .ctxrestLoad _ | .ctxrestResume _ | .ctxrestEnd _ | .smpcfgConf _ | .smpcfgRing _ | .smpcfgAck _ | .smpcfgReset _
      | .smpcfgStat _ => True
      | .sysrd f | .syswr f =>
        fmod f 0 10 ∈ [0x040, 0x041, 0x042, 0x043, 0x044, 0x045, 0x048, 0x050, 0x051, 0x052, 0x053, 0x054, 0x055, 0x058]
      | _ => False) →
    s.cur.bind (findGroup s) = some g → inFlight g = false → mkIssue g i = some x → lateTrap s x.g = none →
    (∀ d, dispOf s x.g = some d → dispSys d = false) → (∀ c ∈ staticCauses i ++ latchCauses x ++ chainCauses s x, 0x0C < c) →
    exec i s = .next (takeTrap s g.id x.pc x.next { kind := 1, cause := 0x0C, mask := lanesAt x.g x.pc })

/-- R388: a precise trap that goes to the user handler of a dispatch whose HANDLER is not zero discards the latches, moves a chain to its head, keeps
each lane's pc, the predicates and the deferral in the shadow, writes TREC with USER set, and takes every lane that has not exited to HANDLER; raised in
HANDLER, it sets NESTED and sends the group to HELD. -/
def Obligations.TrapEntry : Prop :=
  ∀ (s : State) (g : Group) (d : Dispatch) (pc next : DWord) (t : TrapInfo), findGroup s g.id = some g → dispOf s g = some d →
    userKind t = true → dispHandler d ≠ 0 →
    let u := takeTrap s g.id pc next t
    let restart (l : Nat) : DWord := match g.chain with | some c => if c.lanes.getLsbD l then c.head else pcvOf g l | none => pcvOf g l
    (g.state ≠ .handler → ∃ h sh, findGroup u g.id = some h ∧ h.state = .handler ∧ h.lat = [] ∧ h.latw = [] ∧ h.chain = none ∧ h.shadow = some sh ∧
      sh.preds = g.preds ∧ sh.deferred = g.deferred ∧ (h.trec[0]?.getD 0).getLsbD 26 = true ∧ (h.trec[0]?.getD 0).getLsbD 25 = false ∧
      h.trec[1]?.getD 0 = pc ∧ h.trec[3]?.getD 0 = maskLanes t.mask ∧
      h.trec[2]?.getD 0 = (if t.nextPc then next else (g.chain.map (·.head)).getD pc) ∧
      (∀ l, l < g.pcv.length → pcvOf g l ≠ exitPc → restart l ≠ exitPc →
        sh.pcv[l]?.getD 0 = (if l ∈ t.mask then h.trec[2]?.getD 0 else restart l) ∧
        pcvOf h l = BitVec.ofNat 64 (dispHandler d - dispHandler d % 8)) ∧ h.deferred = 0 ∧
      h.v = g.v ∧ h.k = g.k ∧ h.preds = g.preds ∧ h.segLocal = g.segLocal ∧ h.segConst = g.segConst ∧ h.segGlob = g.segGlob ∧ h.fpstat = g.fpstat ∧
      h.fptrap = g.fptrap ∧ h.flushctl = g.flushctl ∧ h.task = g.task) ∧
    (g.state = .handler → ∃ h, findGroup u g.id = some h ∧ h.state = .held ∧ h.deferred = 0 ∧ (h.trec[0]?.getD 0).getLsbD 25 = true ∧
      (h.trec[0]?.getD 0).getLsbD 26 = false)

/-- R389: `iret`, at which every lane has arrived, gives the group its shadow back; `iret.skip` takes the lanes of the trap's mask past the
instruction at TADDR. -/
def Obligations.HandlerReturn : Prop :=
  ∀ (s : State) (f : FWord) (x : Issue) (sh : Shadow) (d : Dispatch), convIssueOf s (.iret f) = some x → x.g.shadow = some sh →
    dispOf s x.g = some d →
    (∃ l, l < x.g.width ∧ l < x.g.pcv.length ∧ l < sh.pcv.length ∧ pcvOf x.g l ≠ exitPc ∧ (fmod f 0 1 = 0 → sh.pcv[l]?.getD 0 ≠ exitPc) ∧
      (fmod f 0 1 = 1 → (x.g.trec[3]?.getD 0).getLsbD l = false ∧ sh.pcv[l]?.getD 0 ≠ exitPc)) →
    ∃ t g, exec (.iret f) s = .next t ∧ findGroup t x.g.id = some g ∧ g.state = .run ∧ g.preds = sh.preds ∧ g.deferred = sh.deferred ∧
      g.shadow = none ∧ g.chain = none ∧
      ∀ l, l < sh.pcv.length → pcvOf x.g l ≠ exitPc →
        pcvOf g l = if fmod f 0 1 = 1 ∧ (x.g.trec[3]?.getD 0).getLsbD l = true
          then x.g.trec[1]?.getD 0 + BitVec.ofNat 64 (lengthAt (entry s x) d (dieOf x.g) (x.g.trec[1]?.getD 0))
          else sh.pcv[l]?.getD 0

/-- R193: where any lane is active, `trap` and `brk` raise SWTRAP and BRK with the active lanes as the mask, the lowest of them as the reported lane,
CODE as the cause, the instruction as the trapping address and the address after it as the resumption address; with no active lane they do nothing. Model's own readings: log 15. -/
def Obligations.SoftwareTraps : Prop :=
  ∀ (s : State) (f : FWord) (x : Issue) (i : Instr) (k : Nat), (i = .trap f ∧ k = 10 ∨ i = .brk f ∧ k = 11) → issueOf s i = some x →
    (x.act = [] → exec i s = .next (plain (entry s x) x)) ∧
    (x.act ≠ [] → inFlight x.g = false →
      let t := takeTrap (entry s x) x.g.id x.pc x.next { kind := k, cause := fmod f 0 8, mask := x.act, nextPc := true }
      exec i s = .next t ∧ ∃ g, findGroup t x.g.id = some g ∧ (g.trec[0]?.getD 0).toNat % 256 = k ∧
        (g.trec[0]?.getD 0).toNat / 2 ^ 8 % 256 = fmod f 0 8 ∧ (g.trec[0]?.getD 0).toNat / 2 ^ 16 % 64 = x.act.headD 0 % 64 ∧
        g.trec[1]?.getD 0 = x.pc ∧ g.trec[2]?.getD 0 = x.next ∧ g.trec[3]?.getD 0 = maskLanes x.act)

/-- R18, R161: where an active lane raises an enabled flag, FPX is taken with the union of those lanes' enabled flags as its cause and those lanes
in its mask; FPSTAT has every lane's flags, and no register is written. So it is of `fcmp` too, and of a P word, whose second half the record
names where it alone raises an enabled flag; where both do the record is that of half 0. Model's own readings: log 75. -/
def Obligations.FpxTrap : Prop :=
  ∀ (s : State) (i : Instr) (x : Issue), issueOf s i = some x → inFlight x.g = false →
    let raised (u : State) (fl : List (Nat × FFlags)) (half : Bool) : State := takeTrap u x.g.id x.pc x.next
      { kind := 9, cause := (allFlags (fl.filter fun p => (fpxLanes x.g fl).contains p.1) &&& enabledFlags x.g).toNat, mask := fpxLanes x.g fl, half := half }
    let noted (fl : FFlags) : State := modGroup (entry s x) x.g.id fun g => orFpstat g fl
    (∀ r, fpLanes i x (entry s x) = some r → fpxLanes x.g (flagsOf r) ≠ [] →
      exec i s = .next (raised (noted (allFlags (flagsOf r))) (flagsOf r) false)) ∧
    (∀ f, i = .fcmp f →
      let fl := x.act.map fun l => (l, (fcmpLane x (entry s x) f l).foldl (fun a e => a ||| e.2) 0)
      fpxLanes x.g fl ≠ [] → exec i s = .next (raised (noted (allFlags fl)) fl false)) ∧
    (∀ p, i = .pWord p →
      let f0 := flagsOf (phalfLanes x p.h0)
      let f1 := flagsOf (phalfLanes x p.h1)
      (fpxLanes x.g f0 ≠ [] → exec i s = .next (raised (noted (allFlags f0 ||| allFlags f1)) f0 false)) ∧
      (fpxLanes x.g f0 = [] → fpxLanes x.g f1 ≠ [] → exec i s = .next (raised (noted (allFlags f0 ||| allFlags f1)) f1 true)))

/-! ### Arithmetic, logic, selection and lane instructions -/

/-- R162, R163: the exact result of SA, SB and SC as U reads them, clamped with SAT and wrapped to W bits, in every active lane.
R163 to R168, R171: the result of every active lane as a function of its operand values.
R168 to R170, R172, R177, R183 to R185, R397: results and predicates of the selecting, comparing and lane instructions; a word of another lane that
`shfl` reads is corrected, or raises MEMERR with subcause 3 on the lanes that read it. -/
def Obligations.IntegerAndLaneResults : Prop :=
  (∀ (s : State) (i : Instr) (x : Issue) (f : FWord) (op : Int → Int → Int → Int), intRule i = some (f, op) → issueOf s i = some x →
    exec i s = .next (laneResult (entry s x) x
      (x.act.map fun l =>
        let rd (v : Nat) : Int := readInt (fmod f 2 1 == 1) (intW f) v
        (l, intResult (intW f) (fmod f 2 1 == 1) (fmod f 3 1 == 1)
          (op (rd (rdA (entry s x) x l)) (rd (rdB (entry s x) x l)) (rd (rdC (entry s x) x l))))) 7 [])) ∧
  (∀ (s : State) (i : Instr) (x : Issue) (op : Nat → Nat → Nat → Nat), bitRule i = some op → issueOf s i = some x →
    exec i s = .next (laneResult (entry s x) x
      (x.act.map fun l => (l, op (rdA (entry s x) x l) (rdB (entry s x) x l) (rdC (entry s x) x l))) 7 [])) ∧
  (∀ (s : State) (i : Instr) (x : Issue) (vals : List (Nat × Nat)) (pd : Nat) (ps : List (Nat × Bool)), issueOf s i = some x →
    let u := laneState i x (entry s x)
    laneOut i x u = some (vals, pd, ps) →
      (shflBad i x (entry s x) = [] → exec i s = .next (laneResult u x vals pd ps)) ∧
      (inFlight x.g = false → shflBad i x (entry s x) ≠ [] → exec i s = .next (takeTrap (entry s x) x.g.id x.pc x.next
        { kind := 7, cause := 3, mask := shflBad i x (entry s x) })))

/-- R159, R173 to R175, R178, R180, R181, R186: a floating-point instruction whose active lanes raise no enabled flag writes its results
and ORs every lane's flags into FPSTAT.
R176: `fcmp` with no enabled flag writes its mask, the predicate from element 0, and its flags.
R17 to R19: a P word whose halves raise no enabled flag writes half 0 and then half 1, both computed from the registers as they
stood. Model's own readings: logs 9, 59. -/
def Obligations.FloatResults : Prop :=
  (∀ (s : State) (i : Instr) (x : Issue) (r : List (Nat × FRes)), issueOf s i = some x → fpLanes i x (entry s x) = some r →
    fpxLanes x.g (flagsOf r) = [] → exec i s = .next (fpResult (entry s x) x (valsOf r) 7 [] (flagsOf r))) ∧
  (∀ (s : State) (f : FWord) (x : Issue), issueOf s (.fcmp f) = some x →
    let r := x.act.map fun l => (l, fcmpLane x (entry s x) f l)
    let fl := r.map fun p => (p.1, p.2.foldl (fun a e => a ||| e.2) 0)
    fpxLanes x.g fl = [] →
    exec (.fcmp f) s = .next (fpResult (entry s x) x (r.map fun p => (p.1, fcmpVal p.2)) (fmod f 0 3)
      (r.map fun p => (p.1, (p.2.map (·.1)).headD false)) fl)) ∧
  (∀ (s : State) (p : PWord) (x : Issue), issueOf s (.pWord p) = some x →
    let r0 := phalfLanes x p.h0
    let r1 := phalfLanes x p.h1
    fpxLanes x.g (flagsOf r0) = [] → fpxLanes x.g (flagsOf r1) = [] →
    exec (.pWord p) s = .next (plain (modGroup (entry s x) x.g.id fun g =>
      writeDst (writeDst (orFpstat g (allFlags (flagsOf r0) ||| allFlags (flagsOf r1))) (.v p.h0.dst) 1 (valsOf r0)) (.v p.h1.dst) 1 (valsOf r1)) x))

/-- R162 to R165: with SAT 0, `iadd`, `isub`, `imul` and `ineg`, and the shifts `shl`, `shr` and `sar`, give the W-bit words of two's-complement arithmetic,
whichever U is. -/
def Obligations.WrappingArithmetic : Prop :=
  ∀ (f : FWord) (a b : Nat), fmod f 3 1 = 0 →
    let w := intW f
    let int (op : Int → Int → Int → Int) : Nat :=
      intResult w (fmod f 2 1 == 1) (fmod f 3 1 == 1) (op (readInt (fmod f 2 1 == 1) w a) (readInt (fmod f 2 1 == 1) w b) 0)
    (∀ op, intRule (.iadd f) = some (f, op) → int op = (BitVec.ofNat w a + BitVec.ofNat w b).toNat) ∧
    (∀ op, intRule (.isub f) = some (f, op) → int op = (BitVec.ofNat w a - BitVec.ofNat w b).toNat) ∧
    (∀ op, intRule (.imul f) = some (f, op) → int op = (BitVec.ofNat w a * BitVec.ofNat w b).toNat) ∧
    (∀ op, intRule (.ineg f) = some (f, op) → int op = (-BitVec.ofNat w a).toNat) ∧
    (shlN w (a % 2 ^ w) b = (BitVec.ofNat w a <<< b).toNat) ∧
    (shrN w (a % 2 ^ w) b = (BitVec.ofNat w a >>> b).toNat) ∧
    (sarN w (a % 2 ^ w) b = ((BitVec.ofNat w a).sshiftRight b).toNat)

/-- R14, R15, R26, R27, R145: after results by lane, a v destination holds each active lane's value, and a k destination the value of the lowest
active lane; predicate results stand in their lanes, and results for p7 are discarded, which reads true. -/
def Obligations.ResultsLand : Prop :=
  ∀ (s : State) (i : Instr) (x : Issue) (vals : List (Nat × Nat)) (pd : Nat) (ps : List (Nat × Bool)), issueOf s i = some x →
    vals.map (·.1) = x.act → x.next ≠ exitPc → ps.map (·.1) = x.act → x.g.width ≤ 64 →
    ∃ g, findGroup (laneResult (entry s x) x vals pd ps) x.g.id = some g ∧
      (∀ n w, dstOf i = some (.v n, w) → ∀ e ∈ vals, readRegs g e.1 (.v n) w = e.2 % 2 ^ (32 * w)) ∧
      (∀ n w, dstOf i = some (.k n, w) → ∀ e, vals.head? = some e → ∀ l, readRegs g l (.k n) w = e.2 % 2 ^ (32 * w)) ∧
      (pd < 7 → ∀ e ∈ ps, predOf g pd e.1 = e.2) ∧
      (pd = 7 → ∀ n l, predOf g n l = predOf x.g n l) ∧ ∀ l, predOf g 7 l = true

/-- R14, R15, R187: an instruction that only gives results in registers leaves memory, the other groups, the special registers and every
register and predicate that it does not name, and moves the lanes it serves to the next instruction and no other lane; of a `shfl` no word
that it reads in another lane is uncorrectable. -/
def Obligations.RegisterOnlyFrame : Prop :=
  ∀ (s : State) (i : Instr) (x : Issue), registerOnly i = true → issueOf s i = some x → shflBad i x (entry s x) = [] → x.next ≠ exitPc →
    ∃ t g, exec i s = .next t ∧ MemorySame s t ∧ MachineFrame s t x.g.id ∧ findGroup t x.g.id = some g ∧
      GroupFrame x.g g (regUse i).writes x.act ∧ g.fpstat = x.g.fpstat ∧ g.parked = x.g.parked ∧
      ∀ l, l < x.g.pcv.length → pcvOf g l = if l ∈ x.served then x.next else pcvOf x.g l

/-- The same for the floating-point instructions that raise no enabled flag, but for FPSTAT, whose flags never clear (R159). -/
def Obligations.FloatFrame : Prop :=
  ∀ (s : State) (i : Instr) (x : Issue) (r : List (Nat × FRes)), issueOf s i = some x → fpLanes i x (entry s x) = some r →
    fpxLanes x.g (flagsOf r) = [] → x.next ≠ exitPc →
    ∃ t g, exec i s = .next t ∧ MemorySame s t ∧ MachineFrame s t x.g.id ∧ findGroup t x.g.id = some g ∧
      GroupFrame x.g g (regUse i).writes x.act ∧ g.fpstat = x.g.fpstat ||| (allFlags (flagsOf r)).zeroExtend 32 ∧
      ∀ l, l < x.g.pcv.length → pcvOf g l = if l ∈ x.served then x.next else pcvOf x.g l

/-! ### Control flow -/

/-- R188: `bra` and `call` take the active lanes to head address + 8 × OFF, where that target is canonical; `call` puts the address after itself
into DST.
R188: `ret` takes each active lane to its value of SA, and `brx` to its value or to the issue address plus it, where every target is a
canonical multiple of 8.
R189, R190, R192: `exit` sets the pcv of its active lanes to all ones, `yield` defers them, and `nap` parks each until its count of
clocks, at most 2^20, has passed. -/
def Obligations.Branches : Prop :=
  (∀ (s : State) (y : XWord) (x : Issue), x.act = [] ∨ canonical (braTarget x y).toNat = true →
    (issueOf s (.bra y) = some x → exec (.bra y) s = .next (jumped (entry s x) x (x.act.map fun l => (l, braTarget x y)))) ∧
    (issueOf s (.call y) = some x → exec (.call y) s =
      .next (jumped (modGroup (entry s x) x.g.id fun g => putDst g (.call y) (allLanes x (x.pc + 16).toNat)) x (x.act.map fun l => (l, braTarget x y))))) ∧
  (∀ (s : State) (f : FWord) (x : Issue) (i : Instr) (dest : List (Nat × Nat)), issueOf s i = some x →
    (i = .ret f ∧ dest = (x.act.map fun l => (l, rdA (entry s x) x l)) ∨
     i = .brx f ∧ dest = (x.act.map fun l =>
       (l, if fmod f 0 1 = 1 then (x.pc + BitVec.ofInt 64 (sextN 32 (rdA (entry s x) x l))).toNat else rdA (entry s x) x l))) →
    (∀ e ∈ dest, e.2 % 8 = 0 ∧ canonical e.2 = true) →
    exec i s = .next (jumped (entry s x) x (dest.map fun e => (e.1, BitVec.ofNat 64 e.2)))) ∧
  (∀ (s : State) (f : FWord) (x : Issue),
    (issueOf s (.exit f) = some x → exec (.exit f) s = .next (jumped (entry s x) x (x.act.map fun l => (l, BitVec.allOnes 64)))) ∧
    (issueOf s (.yield f) = some x → exec (.yield f) s =
      .next (plain (modGroup (entry s x) x.g.id fun g => { g with deferred := g.deferred ||| maskLanes x.act }) x)) ∧
    (issueOf s (.nap f) = some x → exec (.nap f) s =
      .next (plain (modGroup (entry s x) x.g.id fun g =>
        { g with parked := g.parked ||| maskLanes x.act,
                 naps := g.naps ++ x.act.map fun l => (l, s.clk + min (rdA (entry s x) x l) (2 ^ 20)) }) x)))

/-- R188: a target of `ret` or `brx` that is no multiple of 8 raises ALIGN, and else one that is not canonical raises SEG, on the lanes that hold
one; of `bra` and `call` one that is not canonical raises SEG on the active lanes. No pcv moves and no register is written. -/
def Obligations.BranchTargetTraps : Prop :=
  ∀ (s : State) (x : Issue), inFlight x.g = false →
    (∀ f i dest, issueOf s i = some x →
      (i = .ret f ∧ dest = (x.act.map fun l => (l, rdA (entry s x) x l)) ∨
       i = .brx f ∧ dest = (x.act.map fun l =>
         (l, if fmod f 0 1 = 1 then (x.pc + BitVec.ofInt 64 (sextN 32 (rdA (entry s x) x l))).toNat else rdA (entry s x) x l))) →
      let bad (k : Nat) (q : Nat → Bool) : Prop :=
        exec i s = .next (takeTrap (entry s x) x.g.id x.pc x.next
          { kind := k, mask := (dest.filter fun e => q e.2).map (·.1),
            daddr := BitVec.ofNat 64 (((dest.find? fun e => q e.2).map (·.2)).getD 0) })
      ((∃ e ∈ dest, e.2 % 8 ≠ 0) → bad 4 (fun a => a % 8 != 0)) ∧
      ((∀ e ∈ dest, e.2 % 8 = 0) → (∃ e ∈ dest, canonical e.2 = false) → bad 3 (fun a => !canonical a))) ∧
    (∀ y i, (i = .bra y ∨ i = .call y) → issueOf s i = some x → x.act ≠ [] → canonical (braTarget x y).toNat = false →
      exec i s = .next (takeTrap (entry s x) x.g.id x.pc x.next { kind := 3, mask := x.act, daddr := BitVec.ofNat 64 (braTarget x y).toNat }))

/-! ### Loads, stores, register blocks, segments -/

/-- R133 to R137, R141: a plain load whose lanes pass the checks of R136. A local one writes what local memory holds; a global or constant one leaves
in flight with every lane's access.
R138, R139: a plain store whose lanes pass the checks of R136 is performed in local memory, or accepted, lane after lane. -/
def Obligations.PlainLoadsAndStores : Prop :=
  (∀ (s : State) (i : Instr) (x : Issue) (f : FWord) (sp : Space) (t : State) (ls : List LaneOk), loadRule i = some (f, sp) →
    issueOf s i = some x → x.act ≠ [] →
    let n := widSize (fmod f 0 3)
    checkLanes (entry s x) x sp n n 1 true false false (laneAddrs (entry s x) x (fmod f 5 5) n) = .ok t ls →
    exec i s = .next (
      if sp = .l ∨ sp = .lp then
        plain (localDone t x (localLoad t ls n (widWords (fmod f 0 3)) (widSigned (fmod f 0 3))) (localTimes t x ls n)) x
      else
        plain (launchFlight (sampleLanes t x 0 ls) x (if sp = .c then .loadc else .load) n (widWords (fmod f 0 3)) (widSigned (fmod f 0 3)) ((dstOf i).map (·.1)) ls false) x)) ∧
  (∀ (s : State) (i : Instr) (x : Issue) (f : FWord) (sp : Space) (t : State) (ls : List LaneOk), storeRule i = some (f, sp) →
    issueOf s i = some x → x.act ≠ [] →
    let n := widSize (fmod f 0 3)
    checkLanes (entry s x) x sp n n 2 false true false (laneAddrs (entry s x) x (fmod f 5 5) n) = .ok t ls →
    exec i s = .next (plain (storeLanes (sampleLanes t x 1 ls) x n ls (rdC t x) false) x))

/-- R72, R74, R135, R136: before anything else of an access, a lane whose operand address is no multiple of the size raises ALIGN, and else
one whose access lies outside its space raises SEG, with the lanes that raised it as the mask. Model's own readings: logs 29, 61. -/
def Obligations.LoadAddressTraps : Prop :=
  ∀ (s : State) (i : Instr) (x : Issue) (f : FWord) (sp : Space), (loadRule i = some (f, sp) ∨ storeRule i = some (f, sp)) →
    issueOf s i = some x → inFlight x.g = false →
    let n := widSize (fmod f 0 3)
    let as := laneAddrs (entry s x) x (fmod f 5 5) n
    let acc := if (loadRule i).isSome then 1 else 2
    let asid := if sp = .l ∨ sp = .lp then 0 else asidOf (entry s x) x.g
    let trap (k : Nat) (q : Nat → Bool) : Prop :=
      exec i s = .next (takeTrap (entry s x) x.g.id x.pc x.next
        { kind := k, mask := (as.filter fun e => q e.2).map (·.1), daddr := BitVec.ofNat 64 (((as.find? fun e => q e.2).map (·.2)).getD 0),
          acc := acc, asid := asid })
    ((∃ e ∈ as, e.2 % n ≠ 0) → trap 4 fun a => a % n != 0) ∧
    ((∀ e ∈ as, e.2 % n = 0) → (∃ e ∈ as, (resolve (entry s x) x.g sp e.2 n).isNone = true) →
      trap 3 fun a => (resolve (entry s x) x.g sp a n).isNone)

/-- R138, R312: where no line of a window waits to be filled, `st.l` and `st.lp`, once the accesses that must come before a write are performed,
change no register and no byte of main memory, and of local memory only the bytes at the addresses that `resolve` gives. With no earlier access of
the group unperformed nothing comes before. -/
def Obligations.LocalStoreFrame : Prop :=
  ∀ (s : State) (i : Instr) (x : Issue) (f : FWord) (sp : Space) (t : State) (ls : List LaneOk), storeRule i = some (f, sp) →
    (sp = .l ∨ sp = .lp) → issueOf s i = some x → x.act ≠ [] → x.next ≠ exitPc → (∀ c k, (getLine s c k).win ≠ 1) →
    let n := widSize (fmod f 0 3)
    let as := laneAddrs (entry s x) x (fmod f 5 5) n
    checkLanes (entry s x) x sp n n 2 false true false as = .ok t ls →
    let b := drainForWrite (entry s x) x.g.id
    (x.g.flights = [] → x.g.stores = [] → b = entry s x) ∧
    ∃ u h g, exec i s = .next u ∧ findGroup b x.g.id = some h ∧ findGroup u x.g.id = some g ∧ GroupFrame h g [] x.act ∧
      (∀ a, rdPlace u a = rdPlace b a) ∧
      ∀ c o, (∀ l ∈ as, ∀ c' o', resolve (entry s x) x.g sp l.2 n = some (.loc c' o') → ¬ (c = c' ∧ o' ≤ o ∧ o < o' + n)) →
        rdLocal u c o = rdLocal s c o

/-- R137: where no line of a window waits to be filled, `ld.l` and `ld.lp` change no byte of memory and no register but their destination.
R144: `prf` never traps and leaves no register and no byte of memory changed. Model's own readings: logs 33, 60. -/
def Obligations.LocalLoadFrame : Prop :=
  (∀ (s : State) (i : Instr) (x : Issue) (f : FWord) (sp : Space) (t : State) (ls : List LaneOk), loadRule i = some (f, sp) →
    (sp = .l ∨ sp = .lp) → issueOf s i = some x → x.act ≠ [] → x.next ≠ exitPc → (∀ c k, (getLine s c k).win ≠ 1) →
    let n := widSize (fmod f 0 3)
    checkLanes (entry s x) x sp n n 1 true false false (laneAddrs (entry s x) x (fmod f 5 5) n) = .ok t ls →
    ∃ u g, exec i s = .next u ∧ findGroup u x.g.id = some g ∧ GroupFrame x.g g (regUse i).writes x.act ∧ MachineFrame s u x.g.id ∧
      MemorySame s u) ∧
  (∀ (s : State) (f : FWord) (x : Issue), issueOf s (.prf f) = some x → x.next ≠ exitPc →
    ∃ t g, exec (.prf f) s = .next t ∧ MemorySame s t ∧ findGroup t x.g.id = some g ∧ GroupFrame x.g g [] x.act)

/-- R128: `rgrow` adds the blocks that are granted at once, whose registers then hold zero in every lane before DST is written, or with TRY reports that
none are, or parks until they are granted; a target of 0 or above 32 raises REGRANGE with subcause COUNT on every lane at the address.
R129: `rshrink` gives up the blocks above its target once every access in flight has returned, and answers the count that remains; a DST that would
lie above it raises REGRANGE on every lane at the address, with no effect.
R75: `segld` loads base and length of a segment: the local one inside the team's run on a multiple of 4,096, the others inside the
57-bit space. Model's own readings: log 19. -/
def Obligations.BlocksAndSegments : Prop :=
  (∀ (s : State) (f : FWord) (x : Issue), issueOf s (.rgrow f) = some x → x.act ≠ [] →
    let m := rdA (entry s x) x x.lead
    (∀ bs ok n, rgrowOut (entry s x) x f = some (bs, ok, n) →
      let t := if bs = [] then entry s x else growGroup (entry s x) x.g.id bs
      exec (.rgrow f) s = .next (plain (modGroup t x.g.id fun g =>
        putPreds (putDst g (.rgrow f) (allLanes x n)) (fmod f 0 3) (x.act.map fun l => (l, ok))) x) ∧
      (bs ≠ [] → ∃ h, findGroup t x.g.id = some h ∧ h.blocks = x.g.blocks ++ bs ∧
        ∀ l r, allocRegs x.g ≤ r → r < 256 → readV h l r = 0)) ∧
    (1 ≤ m → m ≤ 32 → rgrowOut (entry s x) x f = none →
      exec (.rgrow f) s = .next (parkedDone (joinGrowers (entry s x) x.g) x (.rgrow m))) ∧
    (inFlight x.g = false → (m = 0 ∨ 32 < m) →
      exec (.rgrow f) s = .next (takeTrap (entry s x) x.g.id x.pc x.next { kind := 2, cause := 1, mask := lanesAt x.g x.pc }))) ∧
  (∀ (s : State) (f : FWord) (x : Issue), issueOf s (.rshrink f) = some x → x.act ≠ [] →
    let n := rdA (entry s x) x x.lead
    let b := x.g.blocks.length
    1 ≤ n → n ≤ 32 →
    ((∀ r w, dstOf (.rshrink f) = some (.v r, w) → n < b → r.toNat < 8 * n) →
      exec (.rshrink f) s = .next (plain (modGroup
        (if n < b then shrinkGroup (drainGroup (entry s x) x.g.id) x.g.id n else entry s x) x.g.id fun g =>
          putPreds (putDst g (.rshrink f) (allLanes x (min n b))) (fmod f 0 3) (x.act.map fun l => (l, decide (n < b)))) x)) ∧
    (∀ r w, dstOf (.rshrink f) = some (.v r, w) → n < b → 8 * n ≤ r.toNat → inFlight x.g = false →
      exec (.rshrink f) s = .next (takeTrap (entry s x) x.g.id x.pc x.next { kind := 2, mask := lanesAt x.g x.pc }))) ∧
  (∀ (s : State) (f : FWord) (x : Issue), issueOf s (.segld f) = some x → x.act ≠ [] →
    let b := rdA (entry s x) x x.lead
    let m := rdB (entry s x) x x.lead
    let v : DWord × DWord := (BitVec.ofNat 64 b, BitVec.ofNat 64 m)
    let run := ((teamOf (entry s x) x.g).map (·.localG)).getD 0 * 4096
    (fmod f 0 2 = 0 → b % 4096 = 0 → b + m ≤ run →
      exec (.segld f) s = .next (plain (modGroup (entry s x) x.g.id fun g => { g with segLocal := v }) x)) ∧
    (fmod f 0 2 = 1 → b + m ≤ 2 ^ 57 →
      exec (.segld f) s = .next (plain (modGroup (entry s x) x.g.id fun g => { g with segConst := v }) x)) ∧
    (2 ≤ fmod f 0 2 → b + m ≤ 2 ^ 57 →
      exec (.segld f) s = .next (plain (modGroup (entry s x) x.g.id fun g => { g with segGlob := v }) x)))

/-! ### Atomics, release and acquire -/

/-- R300 to R302, R308: an `atom` or `red` whose release and checks pass. A local one is performed lane after lane; a global `atom` leaves in
flight, and a global `red` is accepted like a store.
R303: `atom.agg` makes one atomic of the active lanes' operands at the address of the lowest active lane. Model's own readings: log 29. -/
def Obligations.Atomics : Prop :=
  (∀ (s : State) (y : XWord) (x : Issue) (i : Instr) (o : AtomOp) (ty : AtomTy) (t : State) (ls : List LaneOk),
    (i = .atom y ∨ i = .red y) → xAtomOp y = some o → xAtomTy y = some ty → issueOf s i = some x → x.act ≠ [] →
    let rel := ordRel (xmod y 9 2)
    let acq := ordAcq (xmod y 9 2)
    let n := atomBytes ty
    let s0 := releasedIf rel (entry s x) x
    (rel = true → releaseOk (entry s x) x) →
    checkLanes s0 x (spaceOf (xmod y 0 2)) n n 3 true true (hostUnsup o) (baseAddrs s0 x) = .ok t ls →
    exec i s = .next (
      if spaceOf (xmod y 0 2) ≠ .g then
        let r := localAtoms (drainForWrite t x.g.id) o ty (rdB t x) (rdC t x) ls
        plain (if i = .red y then touchRead r.1 x.g.id else localEnd acq x r.1 r.2) x
      else if i = .red y then
        plain (ls.foldl (fun u k => pendStore u x k n [] (some (o, ty, BitVec.ofNat 64 (rdB u x k.lane), BitVec.ofNat 64 (rdC u x k.lane))) rel) (sampleLanes t x 2 ls)) x
      else
        plain (launchFlight (sampleLanes t x 2 ls) x
          (.atom o ty acq (x.act.map fun l => (l, rdB (sampleLanes t x 2 ls) x l)) (x.act.map fun l => (l, rdC (sampleLanes t x 2 ls) x l)))
          n (atomTyWords ty) false ((dstOf i).map (·.1)) ls rel) x)) ∧
  (∀ (s : State) (y : XWord) (x : Issue) (o : AtomOp) (ty : AtomTy) (t : State) (k : LaneOk) (ls : List LaneOk) (l : Nat) (rest : List Nat),
    xAtomOp y = some o → xAtomTy y = some ty → issueOf s (.atomAgg y) = some x → x.act = l :: rest →
    let rel := ordRel (xmod y 9 2)
    let acq := ordAcq (xmod y 9 2)
    let n := atomBytes ty
    let s0 := releasedIf rel (entry s x) x
    let bs := x.act.map fun l => (l, rdB (entry s x) x l)
    (rel = true → releaseOk (entry s x) x) →
    checkLanes s0 x (spaceOf (xmod y 0 2)) n n 3 true true false ((baseAddrs s0 x).take 1) = .ok t (k :: ls) →
    exec (.atomAgg y) s = .next (
      match k.loc with
      | some (c, off) =>
        let r := localAtom (drainForWrite t x.g.id) c off o ty (aggFold o ty (rdB (entry s x) x l) (rest.map fun l => rdB (entry s x) x l)) 0
        plain (localEnd acq x r.2 (aggReturns o ty r.1 bs)) x
      | none =>
        plain (launchFlight (sampleLanes t x 2 (k :: ls)) x (.agg o ty acq bs) n (atomTyWords ty) false ((dstOf (.atomAgg y)).map (·.1)) (k :: ls) rel) x))

/-- R307, R308: `ldx` and `ld.acq`, the second an acquire.
R307, R308: `stx` and `st.rel`, the second a release. -/
def Obligations.OrderedLoadsAndStores : Prop :=
  (∀ (s : State) (f : FWord) (x : Issue) (i : Instr) (acq : Bool) (t : State) (ls : List LaneOk),
    (i = .ldx f ∧ acq = false ∨ i = .ldAcq f ∧ acq = true) → issueOf s i = some x → x.act ≠ [] →
    let n := widSize (fmod f 0 3)
    checkLanes (entry s x) x (spaceOf (fmod f 3 2)) n n 1 true false false (laneAddrs (entry s x) x (fmod f 5 5) n) = .ok t ls →
    exec i s = .next (
      if spaceOf (fmod f 3 2) ≠ .g then
        let u := localDone t x (localLoad t ls n (widWords (fmod f 0 3)) false) (localTimes t x ls n)
        plain (if acq then acquireNow u x.g.id else u) x
      else plain (launchFlight (sampleLanes t x 0 ls) x (.loadx acq) n (widWords (fmod f 0 3)) false ((dstOf i).map (·.1)) ls false) x)) ∧
  (∀ (s : State) (f : FWord) (x : Issue) (i : Instr) (rel : Bool) (t : State) (ls : List LaneOk),
    (i = .stx f ∧ rel = false ∨ i = .stRel f ∧ rel = true) → issueOf s i = some x → x.act ≠ [] → (rel = true → releaseOk (entry s x) x) →
    let n := widSize (fmod f 0 3)
    let s0 := releasedIf rel (entry s x) x
    checkLanes s0 x (spaceOf (fmod f 3 2)) n n 2 false true false (laneAddrs s0 x (fmod f 5 5) n) = .ok t ls →
    exec i s = .next (plain (storeLanes (sampleLanes t x 1 ls) x n ls (rdC t x) rel) x))

/-- R309: before `fence.acq` and `fence.ar` complete, the group's earlier reads, and of `fence.ar` its earlier writes too, are performed, and the L1 loses
its unowned copies. At `fence.rel` every earlier access is performed, or, with no atomic without result among them, none of the group's later writes is
before they are. A store error that the group then holds is raised by one that releases, as REMERR on the active lanes, and cleared (R139). Model's own readings: log 3. -/
def Obligations.Fences : Prop :=
  ∀ (s : State) (f : FWord) (x : Issue),
    (issueOf s (.fenceAcq f) = some x → exec (.fenceAcq f) s = .next (plain (acquireNow (drainReads (entry s x) x.g.id) x.g.id) x)) ∧
    let raised (t : State) (a : DWord) : State :=
      takeTrap (modGroup t x.g.id fun g => { g with storeErr := none }) x.g.id x.pc x.next
        { kind := 15, mask := relMask x, daddr := a, acc := 2, asid := ((dispOf t x.g).map dispAsid).getD 0 }
    (issueOf s (.fenceRel f) = some x →
      let o := drawOracle (entry s x)
      let d := drainGroup o.2 x.g.id
      ((findGroup d x.g.id).bind (·.storeErr) = none → exec (.fenceRel f) s = .next (plain
        (if o.1 = 0 ∨ x.g.stores.any (fun w => w.red.isSome) then d else modGroup o.2 x.g.id fun g => { g with relFence := o.2.nextId }) x)) ∧
      (∀ a, (findGroup d x.g.id).bind (·.storeErr) = some a → inFlight x.g = false → exec (.fenceRel f) s = .next (raised d a))) ∧
    (issueOf s (.fenceAr f) = some x →
      let d := drainGroup (entry s x) x.g.id
      (releaseOk (entry s x) x → exec (.fenceAr f) s = .next (plain (acquireNow (released (entry s x) x) x.g.id) x)) ∧
      (∀ a, (findGroup d x.g.id).bind (·.storeErr) = some a → inFlight x.g = false → exec (.fenceAr f) s = .next (raised d a)))

/-- R304, R305: `dro.add`, a release, makes one update for each active lane in increasing order and answers each update's status.
R306: `dro.get` of FULL objects of its type answers their results, as an acquire. Model's own readings: logs 14, 18. -/
def Obligations.ReductionObjects : Prop :=
  (∀ (s : State) (y : XWord) (x : Issue) (t u : State) (ls : List LaneOk) (us : List DroUpd) (p : Partition), issueOf s (.droAdd y) = some x →
    x.act ≠ [] → releaseOk (entry s x) x →
    let s0 := released (entry s x) x
    let ty := xmod y 0 2
    checkLanes s0 x .g 64 64 3 true true true (baseAddrs s0 x) = .ok t ls → groupPart t x.g = some p →
    (droMet t x p ls).1 = [] → (∀ k ∈ ls, badPlaces (droSettled t x p ls) (placesOf p k.pa 64) = false) →
    droLanes (droReady t x p ls) x p ty ls = (u, us, [], false) → droBads p ty us u = [] →
    let v := settleSlots (sampleLanes u x 2 ls) p (us.flatMap fun d =>
      ((0, 64) :: droRuns u p d.pa ty d.idx x.act.length).flatMap fun r => blocksVia d.tab (d.va + r.1) r.2)
    let r := us.foldl (fun a d => ((droUpdate a.1 p d ty).2, a.2 ++ [(d.lane, (droUpdate a.1 p d ty).1)])) (v, ([] : List (Nat × Nat)))
    exec (.droAdd y) s = .next (plain (touchRead (modGroup r.1 x.g.id fun g => putDst g (.droAdd y) r.2) x.g.id) x)) ∧
  (∀ (s : State) (y : XWord) (x : Issue) (t : State) (ls : List LaneOk) (p : Partition), issueOf s (.droGet y) = some x → x.act ≠ [] →
    checkLanes (entry s x) x .g 64 64 3 true false true (baseAddrs (entry s x) x) = .ok t ls → groupPart t x.g = some p →
    let u := droReady t x p ls
    (droMet t x p ls).1 = [] →
    (∀ k ∈ ls, badPlaces (droSettled t x p ls) (placesOf p k.pa 64) = false ∧ (droFlags u p k.pa).testBit 0 = true ∧
      rdPaNum u p (k.pa + 4) 1 = xmod y 0 2 ∧ (droFlags u p k.pa).testBit 1 = true) →
    exec (.droGet y) s = .next (plain (acquireNow (modGroup u x.g.id fun g =>
      putDst g (.droGet y) (ls.map fun k => (k.lane, rdPaNum u p (k.pa + 16) (4 * droWords (xmod y 0 2))))) x.g.id) x))

/-! ### Engine commands -/

/-- R111 to R114: a linear copy whose ends pass their checks and whose barrier resolves joins its queue with a credit of its bytes / 32,
rounded up; one of no bytes does nothing more.
R115, R116: a tensor copy reads its shape record at issue, and joins its queue where its ends pass their checks.
R119, R121: `coll` with its ranges inside their spaces joins the collective queue with the next sequence number of its device group. Model's own readings: logs 14, 63. -/
def Obligations.CopiesAndCollectives : Prop :=
  (∀ (s : State) (i : Instr) (x : Issue) (y : XWord) (opc : Nat) (t : State) (r : BarRef), copyRule i = some (y, opc) → issueOf s i = some x →
    engineOpen s x opc false →
    let t0 := engineState s x opc false
    let c := specOf t0 x opc y true
    let j := groupIssuer t0 x.g
    copyEndsOk t0 j c → cmdBar t0 j c = .ok t r →
    (c.len = 0 → exec i s = .next (engineDone x y c true t 0)) ∧
    (c.len ≠ 0 → queueOpen t (copyCommand t0 t j c r) → exec i s = .next (engineDone x y c true (enqueued t (copyCommand t0 t j c r)) 0))) ∧
  (∀ (s : State) (i : Instr) (x : Issue) (y : XWord) (opc : Nat) (t1 t : State) (bs : List Byte) (co o : Nat) (r : BarRef),
    tensorRule i = some (y, opc) → issueOf s i = some x → engineOpen s x opc false →
    let t0 := engineState s x opc false
    let c := specOf t0 x opc y true
    let j := groupIssuer t0 x.g
    let h := shapeOf bs
    let la := if opc = 0x205 then c.b else c.a
    let ga := if opc = 0x205 then c.a else c.b
    readShape t0 j c.len 5 = .ok (t1, bs) → la % 16 = 0 → ga % 2 ^ min h.elem 4 = 0 → h.bad bs = false →
    cmdLocal t1 j false la (h.localSpan (opc == 0x205)) = some (co, o) →
    (h.empty = false → (cmdGlobal j ga h.span).isSome = true ∧ issuerLeases t1 j (va57 ga) h.span = true) →
    cmdBar t1 j c = .ok t r → queueOpen t (tensorCommand t j c bs co o r) →
    exec i s = .next (engineDone x y c true (enqueued t (tensorCommand t j c bs co o r)) 0)) ∧
  (∀ (s : State) (y : XWord) (x : Issue) (t : State) (r : BarRef) (p : Partition), issueOf s (.coll y) = some x → engineOpen s x 0x208 false →
    let t0 := engineState s x 0x208 false
    let c := specOf t0 x 0x208 y true
    let j := groupIssuer t0 x.g
    let es := collSize (fldN c.moda 8 4)
    let gid := fldN c.imm 28 4
    let cnt := if c.moda.testBit 3 then c.len else fldN c.imm 0 28
    let reg := t0.collgrp[gid]?.getD 0
    let n := collElems (fldN c.moda 4 2) (collRanks reg) cnt
    let cmd : Cmd := { newCmd t j c.qid c with
      bar := r, len := cnt, credit := (n.2 * es + 31) / 32, shape := (rankList t0 p reg).flatMap (leBytes 2), seq := t.collSeq[gid]?.getD 0 }
    c.a % es = 0 → c.b % es = 0 → findPart t0 j.x.part = some p → 1 ≤ cnt → cnt < 2 ^ 28 →
    reg.getLsbD 0 = true → ((rankList t0 p reg).filter (· == t0.devnum)).length = 1 →
    (cmdGlobal j c.a (n.2 * es)).isSome = true → (cmdGlobal j c.b (n.1 * es)).isSome = true →
    issuerLeases t0 j (va57 c.a) (n.2 * es) = true → issuerLeases t0 j (va57 c.b) (n.1 * es) = true →
    cmdBar t0 j c = .ok t r → queueOpen t cmd →
    exec (.coll y) s = .next (engineDone x y c true { enqueued t cmd with collSeq := updAt gid (· + 1) (enqueued t cmd).collSeq } 0))

/-- R105: after every update a barrier whose VAL is 1 and whose ARR and SECT are 0 starts its next phase with ARR at RELOAD and releases every group
that waits on it; any other update only writes it. -/
def Obligations.BarrierPhase : Prop :=
  ∀ (s : State) (r : BarRef) (b : Bar),
    barUpdate s r b =
      if b.val = true ∧ b.arr = 0 ∧ b.sect = 0 then
        releaseBar (barWrite s r (barToBits (barRead s r) { b with phase := (b.phase + 1) % 16, arr := b.reload })) r
      else barWrite s r (barToBits (barRead s r) b)

/-- R103, R107: on a barrier that resolves, `bar.init` writes the Reset column with its count; `bar.arrive` takes its count from ARR and answers
the phase it arrived in, a count of 0 changing nothing; `bar.expect` adds to SECT, and with ARV arrives too; `bar.inval` clears VAL. R105 follows each
update.
R106, R107: `bar.wait` on a barrier whose phase differs from its token answers the status at once, as an acquire; else the group parks on
the barrier, be it in local memory, a peer's or global.
R107: `bar.test` answers each active lane its barrier's status, and is an acquire where one of them reports DONE. -/
def Obligations.BarrierInstructions : Prop :=
  (∀ (s : State) (y : XWord) (x : Issue) (t : State) (r : BarRef),
    let e (opc : Nat) (rel : Bool) : State := engineState s x opc rel
    let bar (opc : Nat) (rel reads : Bool) (i : Instr) : Prop :=
      issueOf s i = some x ∧ engineOpen s x opc rel ∧
      resolveBar (e opc rel) (groupIssuer (e opc rel) x.g) (y.moda.toNat % 4) (rdA (e opc rel) x x.lead) 3 true reads = .ok t r
    let val (opc : Nat) (rel : Bool) : Nat := rdB (e opc rel) x x.lead
    let done (opc : Nat) (rel : Bool) (i : Instr) (u : State) (v : Nat) : Prop :=
      exec i s = .next (engineDone x y (specOf (e opc rel) x opc y false) false u v)
    let b := barOfBits (barRead t r)
    let arv := xmod y 2 1 == 1
    (bar 0x210 false false (.barInit y) → 1 ≤ val 0x210 false → val 0x210 false < 2 ^ 20 →
      done 0x210 false (.barInit y) (trapBar (barWrite t r (barInitBits (val 0x210 false))) r 14) 0) ∧
    (bar 0x211 true true (.barArrive y) → b.val = true → val 0x211 true ≤ b.arr →
      done 0x211 true (.barArrive y) (if val 0x211 true = 0 then t else barUpdate t r { b with arr := b.arr - val 0x211 true }) b.phase) ∧
    (bar 0x212 arv true (.barExpect y) → b.val = true → b.sect + (val 0x212 arv : Int) < 2 ^ 31 → (arv = true → b.arr ≠ 0) →
      done 0x212 arv (.barExpect y) (barUpdate t r
        { b with sect := b.sect + (val 0x212 arv : Int), arr := if arv then b.arr - 1 else b.arr }) 0) ∧
    (bar 0x215 false true (.barInval y) →
      done 0x215 false (.barInval y) (trapBar (barWrite t r (barToBits (barRead t r) { b with val := false })) r 14) 0)) ∧
  (∀ (s : State) (y : XWord) (x : Issue) (t : State) (r : BarRef), issueOf s (.barWait y) = some x → engineOpen s x 0x213 false →
    let t0 := engineState s x 0x213 false
    let c := specOf t0 x 0x213 y false
    let b := barOfBits (barRead t r)
    resolveBar t0 (groupIssuer t0 x.g) (y.moda.toNat % 4) (rdA t0 x x.lead) 3 false true = .ok t r → b.val = true →
    (b.phase ≠ c.b % 16 → exec (.barWait y) s = .next (engineDone x y c false (acquireNow t x.g.id) (barStatus b c.b))) ∧
    (b.phase = c.b % 16 →
      (∀ co o ad, r = .loc co o ad → exec (.barWait y) s = .next (parkedDone (recordCmd x y c false t) x (.bar o (some co) c.b c.a))) ∧
      (∀ va pa pl, r = .glob va pa pl → exec (.barWait y) s = .next (parkedDone (recordCmd x y c false t) x (.bar pl none c.b c.a))))) ∧
  (∀ (s : State) (f : FWord) (x : Issue) (t : State) (ls : List LaneOk), issueOf s (.barTest f) = some x → x.act ≠ [] →
    let t0 := markUnrec (readPoint (entry s x) x.g.id) x.g.id
    checkLanes t0 x (spaceOf (fmod f 0 2)) 16 16 1 true false true (baseAddrs t0 x) = .ok t ls →
    let m := lostLanes (drainOver t x.g.id ((ls.filter fun k => k.loc.isNone).map fun k => (k.place, 16))) ls
    m.1 = [] → (∀ k ∈ ls, k.loc = none → badPlaces m.2 ((List.range 16).map (k.place + ·)) = false) →
    let v := barReads m.2 ls
    let vs := ls.map fun k => (k.lane, barStatus (barOfBits (laneBits v k)) (rdB v x k.lane))
    let u := modGroup v x.g.id fun g => putDst g (.barTest f) vs
    exec (.barTest f) s = .next (plain (if vs.any (fun v => v.2.testBit 31) then acquireNow u x.g.id else touchRead u x.g.id) x))

/-- R97: `pres.q` answers which of a lane's 32 lines no engine write is pending on, `pres.f` and `pres.clr` which are FAILED, and `pres.clr`
clears FAILED on them.
R110: `qfence` puts the group's commands of its queues before its later ones there and goes on at once; with C it completes, as an acquire, once none of them
is left, with the number of those that failed and named no barrier. Model's own readings: log 31. -/
def Obligations.PresenceAndQueueFence : Prop :=
  (∀ (s : State) (f : FWord) (x : Issue) (i : Instr) (ts : List (Nat × Nat × Nat)), issueOf s i = some x →
    (i = .presQ f ∨ i = .presF f ∨ i = .presClr f) →
    (∀ l ∈ x.act, rdA (entry s x) x l % 128 = 0) →
    x.act.mapM (fun l => match localTarget (entry s x) x.g (rdA (entry s x) x l) 4096 with | some (.loc c o) => some (l, c, o / 128) | _ => none)
      = some ts →
    let bit (c n : Nat) : Bool := if i = .presQ f then wpend (entry s x) c n == 0 else (getLine (entry s x) c n).failed.isSome
    let vs := ts.map fun t => (t.1, maskOf ((List.range 32).filter fun k => bit t.2.1 (t.2.2 + k)))
    let u := if i = .presClr f then
        ts.foldl (fun s t => (List.range 32).foldl (fun s k => modLine s t.2.1 (t.2.2 + k) fun k => { k with failed := none }) s) (entry s x)
      else entry s x
    exec i s = .next (dstResult u x vs)) ∧
  (∀ (s : State) (y : XWord) (x : Issue), issueOf s (.qfence y) = some x → x.act ≠ [] → (xmod y 0 1 = 1 → engineOpen s x 0x228 true) →
    let t := engineState s x 0x228 (xmod y 0 1 == 1)
    let c := specOf t x 0x228 y false
    let mask := c.imm % 256
    let cs := cmdsIn t x.g.id mask
    (xmod y 0 1 = 0 → exec (.qfence y) s = .next (engineDone x y c false
      (if cs = [] then t else modGroup t x.g.id fun g => { g with fences := g.fences ++ [(mask, cs.map (·.id))] }) 0)) ∧
    (xmod y 0 1 = 1 → cs = [] → exec (.qfence y) s = .next (engineDone x y c false
      (acquireNow (modGroup t x.g.id fun g => { g with failed := g.failed.filter fun e => !mask.testBit e.1 }) x.g.id)
      (x.g.failed.filter fun e => mask.testBit e.1).length)))

/-- R98, R102: `wmap` of a free name over a free local range inside the team's run makes its lines window lines that are unfilled.
R102: `wflush` and `wunmap`, as by `fence.ar`, write back every dirty line of the window that can be, and answer their number, with code 1 where lines stay
dirty; `.inv` makes the clean lines unfilled again, and `wunmap` that leaves none dirty takes the window's lines out of it. A name that the team does
not hold answers code 2. Model's own readings: logs 30, 53. -/
def Obligations.Windows : Prop :=
  (∀ (s : State) (y : XWord) (x : Issue) (tm : Team) (d : Dispatch) (c o : Nat), issueOf s (.wmap y) = some x → x.act ≠ [] →
    let t := markUnrec (drainGroup (entry s x) x.g.id) x.g.id
    let a := rdA t x x.lead
    let va := rdB t x x.lead
    let n := rdC t x x.lead
    ctlBusy t x.g.id = false → a % 4096 = 0 → n % 4096 = 0 → n ≠ 0 → va % 128 = 0 → teamOf t x.g = some tm → dispOf t x.g = some d →
    localTarget t x.g a n = some (.loc c o) → canonical va = true → va57 va + n ≤ 2 ^ 57 → inLease d (va57 va) n = true →
    ((t.teams.filter fun u => u.core == c && u.frame.isNone).map (·.windows.length)).foldl (· + ·) 0 < 16 →
    tm.windows.all (fun v => !overlap v.base v.len o n && v.name != xtail y 2 4) = true →
    exec (.wmap y) s = .next (wideResult ((linesOfRange o n).foldl (fun s l => modLine s c l fun k => { k with win := 1, mask := 0 })
      (modTeamOf t x.g fun u => { u with windows := u.windows ++ [⟨xtail y 2 4, o, n, va57 va, false, 0, [], []⟩] })) x 0)) ∧
  (∀ (s : State) (y : XWord) (x : Issue) (i : Instr) (inv unmap : Bool) (tm : Team) (d : Dispatch),
    (i = .wflush y ∧ inv = (xmod y 0 1 == 1) ∧ unmap = false ∨ i = .wunmap y ∧ inv = false ∧ unmap = true) → issueOf s i = some x → x.act ≠ [] →
    let t := acquireNow (released (markUnrec (entry s x) x.g.id) x) x.g.id
    let w := xtail y 2 4
    ctlBusy (entry s x) x.g.id = false → releaseOk (markUnrec (entry s x) x.g.id) x → teamOf t x.g = some tm → dispOf t x.g = some d →
    (tm.windows.find? (fun v => v.name == w) = none → exec i s = .next (wideResult t x (2 <<< 24))) ∧
    (∀ v u n, tm.windows.find? (fun v => v.name == w) = some v →
      writeBackAll t tm v (windowLines t tm v 3) v.written = (u, n, none) →
      let u1 := if inv then (windowLines u tm v 2).foldl (fun s l => modLine s tm.core l fun k => { k with win := 1, mask := 0 }) u else u
      let u2 := modWindow u1 tm.disp tm.teamid w fun v => { v with written := 0, skip := [] }
      let code := if (windowLines u tm v 3).isEmpty then 0 else 1
      exec i s = .next (wideResult (if unmap = true ∧ code = 0 then
          modTeamOf ((linesOfRange v.base v.len).foldl (fun s l => modLine s tm.core l fun k => { k with win := 0, mask := 0 }) u2) x.g
            fun t => { t with windows := t.windows.filter fun z => z.name != w }
        else u2) x (code <<< 24 + n % 2 ^ 24))))

/-! ### The matrix engine -/

/-- R194, R201, R220, R221: `mma` and `mma.sp` whose checks pass read their operands at issue and join their core's array; all but an `mma` that
takes A from a map without scales wait for every lane of the group.
R222: the last group of its set to sign an `mma.t` performs it over the fragments of all of them, completes the phase of the convergence
register and releases the others, as an acquire. Model's own readings: logs 39, 64, 66, 73, 74, 76, 77. -/
def Obligations.MatrixMultiplies : Prop :=
  (∀ (s : State) (y : XWord) (x : Issue) (i : Instr) (opc : Nat) (n : Nat) (tm : Team) (t : State) (p : Partition) (tabs : List PageTab),
    (i = .mma y ∧ opc = 0x240 ∧ (if matASRC y = 1 ∧ matMXS y = 0 then issueOf s i = some x else convIssueOf s i = some x) ∨
     i = .mmaSp y ∧ opc = 0x241 ∧ convIssueOf s i = some x) → x.act ≠ [] →
    let t0 := readPoint (entry s x) x.g.id
    let frags := [((findGroup t0 x.g.id).getD x.g, vNum y.sa)]
    mulOk t0 x y (opc == 0x241) n tm t p tabs →
    let rd := mulRead t0 t x y (opc == 0x241) n tm p tabs
    exec i s = .next (plain (pushArray rd.1 x.g.core (stagedOf y opc frags n rd.2)) x)) ∧
  (∀ (s : State) (y : XWord) (x : Issue) (n : Nat) (tm : Team) (t : State) (p : Partition) (tabs : List PageTab), convIssueOf s (.mmaT y) = some x →
    x.act ≠ [] → teamOf (entry s x) x.g = some tm → releaseOk (entry s x) x →
    let k := xtail y 45 4
    let c := cvOf tm k
    let sb := rdB (entry s x) x x.lead
    let members := (bitsOf 32 c.set.toNat).length
    let t0 := released (entry s x) x
    let ms := setMembers t0 x.g c.set
    let frags := ms.map fun h => (h, if h.id = x.g.id then vNum y.sa else (h.mmaT.map fun m => vNum m.1.sa).getD 0)
    x.g.mmaErr.map (·.1) ≠ some k → c.set.getLsbD x.g.grpid = true → c.signed.getLsbD x.g.grpid = false → [1, 2, 4, 8].contains members = true →
    (∀ h ∈ mmaTWaiters t0 x.g k, ∃ z b, h.mmaT = some (z, b) ∧ z.modb = y.modb ∧ z.moda = y.moda ∧ b = sb) →
    cvComplete { c with signed := c.signed ||| BitVec.ofNat 32 (2 ^ x.g.grpid) } tm.retired = true → ms.length = members →
    mulOk t0 x y false n tm t p tabs →
    let rd := mulRead t0 t x y false n tm p tabs
    exec (.mmaT y) s = .next (plain (mmaTDone rd.1 x k (stagedOf y 0x242 frags n rd.2)) x))

/-- R223, R227: `azero` writes zeros and its tag into a granted slot, `mst.clr` resets MSTAT and `mst.rd` answers it, each after every earlier
matrix instruction of the core.
R225: `aload` and `astore` move a tile between memory and a slot, and note the conditions that its elements met in MSTAT; what `astore` writes to
global memory are stores of the group (R232).
R199, R225: `aread` writes rows of a slot into the fragment at DST, and `awrite` the fragment at SA into rows of a slot, where elements outside
the rows become zero if the tag changes.
R203, R228: `omap` and `thdl` write an operand map or a tile handle of the team, or the scale half of it with SC; the handle then holds no
translation. Model's own readings: logs 39, 66, 76. -/
def Obligations.AccumulatorSlots : Prop :=
  (∀ (s : State) (f : FWord) (x : Issue), x.act ≠ [] →
    let t := drainArray (entry s x) x.g.core
    (∀ n, issueOf s (.azero f) = some x → slotCheck t x.g (fmod f 0 3) (fmod f 3 4) false = .ok n →
      exec (.azero f) s = .next (plain (putSlot (healSlot t x.g.core n (fmod f 3 4)) x.g.core n (fmod f 3 4) (zerosOf (fmod f 3 4)) []) x)) ∧
    (issueOf s (.mstClr f) = some x → exec (.mstClr f) s = .next (plain (modGroup t x.g.id fun g => { g with mstat := mstatReset }) x)) ∧
    (issueOf s (.mstRd f) = some x → exec (.mstRd f) s = .next (wideResult t x (((findGroup t x.g.id).map fun g => g.mstat.toNat).getD 0)))) ∧
  (∀ (s : State) (y : XWord) (x : Issue) (n : Nat) (tm : Team) (t : State) (p : Partition) (tabs : List PageTab), x.act ≠ [] →
    (issueOf s (.aload y) = some x →
      let t0 := drainArray (readPoint (entry s x) x.g.id) x.g.core
      let tl := accTile t0 x tm y
      teamOf t0 x.g = some tm → slotCheck t0 x.g (xtail y 18 3) (accTACC y) false = .ok n → checkTiles t0 x false [tl] = .ok t p tabs →
      let u := sampleTiles (touchRead t x.g.id) x 0 [tl]
      let e := enterAll (accET y) (accTACC y) (readTile u x.g p (tabs.headD []) tl)
      exec (.aload y) s = .next (plain (noteMstat (putSlot (healSlot u x.g.core n (accTACC y)) x.g.core n (accTACC y) e.1 (if accTACC y = 0xB then e.2.1 else [])) x.g.id e.2.2) x)) ∧
    (∀ k, issueOf s (.astore y) = some x →
      let t0 := astorePoint (entry s x) x (((teamOf (entry s x) x.g).map fun tm => (accTile (entry s x) x tm y).glob).getD false)
      let tl := accTile t0 x tm y
      teamOf t0 x.g = some tm → slotCheck t0 x.g (xtail y 18 3) (accTACC y) true = .ok n → findCore t0 x.g.core = some k →
      checkTiles t0 x true [tl] = .ok t p tabs → (tileSlots n (accTACC y)).all (fun i => !slotBad t x.g.core i) = true →
      let e := leaveAll y x.g.flushctl.toNat (slotPairs k n (accTACC y))
      exec (.astore y) s = .next (plain (noteMstat
        (writeTile (sampleTiles (correctAcc t x.g.core (tileSlots n (accTACC y))) x 1 [tl]) x p (tabs.headD []) tl e.1) x.g.id e.2) x))) ∧
  (∀ (s : State) (y : XWord) (x : Issue) (n : Nat) (k : Core), x.act ≠ [] →
    let t := drainArray (entry s x) x.g.core
    let w := fragWords (accN y * 128) (etBits (accET y))
    let r0 := rdB t x x.lead
    let g := (findGroup t x.g.id).getD x.g
    findCore t x.g.core = some k → r0 + accN y ≤ accM y →
    (convIssueOf s (.aread y) = some x → slotCheck t x.g (xtail y 18 3) (accTACC y) true = .ok n →
      (tileSlots n (accTACC y)).all (fun i => !slotBad t x.g.core i) = true →
      let e := leaveAll y x.g.flushctl.toNat (((slotPairs k n (accTACC y)).drop (128 * r0)).take (128 * accN y))
      exec (.aread y) s = .next (plain (noteMstat (modGroup (correctAcc t x.g.core (tileSlots n (accTACC y))) x.g.id fun g =>
        writeFrag g (vNum y.dst) (bytesOfElems (etBits (accET y)) e.1)) x.g.id e.2) x)) ∧
    (convIssueOf s (.awrite y) = some x → slotCheck t g (xtail y 18 3) (accTACC y) false = .ok n →
      g.core = x.g.core → g.id = x.g.id →
      let old := if (tileSlots n (accTACC y)).all (fun i => (slotAt k i).tag == slotTag (accTACC y)) then slotPairs k n (accTACC y)
        else (zerosOf (accTACC y)).map fun e => (e, 0)
      let e := enterAll (accET y) (accTACC y) (elemsOfBytes (etBits (accET y)) (readFrag g (vNum y.sa) w))
      let new := old.take (128 * r0) ++ (e.1.zip e.2.1).take (128 * accN y) ++ old.drop (128 * (r0 + accN y))
      exec (.awrite y) s = .next (plain (noteMstat (putSlot (healSlot t x.g.core n (accTACC y)) x.g.core n (accTACC y) (new.map (·.1))
        (if accTACC y = 0xB then new.map (·.2) else [])) x.g.id e.2.2) x))) ∧
  (∀ (s : State) (y : XWord) (x : Issue), x.act ≠ [] →
    let a := rdA (entry s x) x x.lead
    let p := rdB (entry s x) x x.lead
    let b := rdC (entry s x) x x.lead
    a % 16 = 0 → p % 16 = 0 →
    let map (m : OMap) : OMap :=
      if xtail y 11 1 = 1 then { m with sbase := BitVec.ofNat 32 a, spitch := BitVec.ofNat 32 p }
      else { m with base := BitVec.ofNat 32 a, pitch := BitVec.ofNat 32 p, etype := xtail y 5 4, swz := xtail y 9 2 }
    let handle (h : THandle) : THandle :=
      if xtail y 10 1 = 1 then { h with pages := [], sva := BitVec.ofNat 64 a, spitch := BitVec.ofNat 64 p }
      else { h with
        pages := [], va := BitVec.ofNat 64 a, pitch := BitVec.ofNat 64 p, etype := xtail y 6 4, rows := BitVec.ofNat 32 (b % 65536),
        cols := BitVec.ofNat 32 (b / 65536) }
    (issueOf s (.omap y) = some x →
      exec (.omap y) s = .next (plain (modTeamOf (entry s x) x.g fun t => { t with om := updAt (xtail y 2 3) map t.om }) x)) ∧
    (issueOf s (.thdl y) = some x → canonical a = true →
      exec (.thdl y) s = .next (plain (modTeamOf (entry s x) x.g fun t => { t with th := updAt (xtail y 2 4) handle t.th }) x)))

/-! ### Ray queries, dicing, sampling, the radiance cache -/

/-- R254: `rq.init` whose addresses pass forms each active lane's query, and stores the first entry of one that is not empty.
R255: `rq.run` whose lanes all return, of those that had not returned before the group parked, writes each active lane's candidate block.
R256, R257: `rq.acc`, `rq.rej`, `rq.set` and `rq.end` change each active lane's query where every one of them is in a state that permits it.
R257, R274: `rq.get` answers a field of each active lane's query, and `stat.rd` a counter of a session. Model's own readings: logs 40, 68, 70, 78. -/
def Obligations.RayQueries : Prop :=
  (∀ (s : State) (y : XWord) (x : Issue) (t : State) (ls : List LaneOk), issueOf s (.rqInit y) = some x → rqInitErrs x (entry s x) = [] →
    let live := x.act.filter fun l => rqState (rqNew x (entry s x) (vOf y.dst) l) == 1
    checkLanes (entry s x) x .l 1 16 2 false true false (live.map fun l => (l, rdB (entry s x) x l)) = .ok t ls →
    exec (.rqInit y) s = .next (plain
      (x.act.foldl (rqInitLane x (vOf y.dst) (entry s x) ls) (if ls = [] then t else drainForWrite t x.g.id)) x)) ∧
  (∀ (s : State) (y : XWord) (x : Issue) (u : State) (k : RqRun), issueOf s (.rqRun y) = some x → x.act ≠ [] →
    let t := markUnrec (readPoint (entry s x) x.g.id) x.g.id
    let k0 := RqRun.start x.g.rq
    runLanes x (vOf y.sa) (rdB t x x.lead) (((dispOf t x.g).map leased).getD false) (x.act.filter fun l => !k0.ended.contains l) t k0 = (u, k) →
    k.faults = [] → k.waits = [] → k.more = false → k.errs = [] →
    exec (.rqRun y) s = .next (plain (modGroup u x.g.id fun g => { writeBlock g (vOf y.dst) k.out with rq := none }) x)) ∧
  (∀ (s : State) (i : Instr) (x : Issue) (q : Nat) (ok : Rq → Bool) (f : Nat → Rq → Rq), issueOf s i = some x →
    queryRule i x (entry s x) = some (q, ok, f) → (∀ l ∈ x.act, ok (readRq x.g l q) = true) →
    (∀ w, i = .rqSet w → fmod w 0 4 = 2 → ∀ l ∈ x.act, rdB (entry s x) x l % 4 ≠ 3) →
    exec i s = .next (plain (modGroup (entry s x) x.g.id fun g => x.act.foldl (fun g l => writeRq g l q (f l (readRq g l q))) g) x)) ∧
  (∀ (s : State) (f : FWord) (x : Issue),
    (issueOf s (.rqGet f) = some x → exec (.rqGet f) s =
      .next (laneResult (entry s x) x (x.act.map fun l => (l, rqField (fmod f 0 4) (readRq x.g l (vOf f.sa)))) 7 [])) ∧
    (issueOf s (.statRd f) = some x → (∀ l ∈ x.act, rdA (entry s x) x l ≤ 7 ∧ statSel (rdB (entry s x) x l) = true) →
      exec (.statRd f) s = .next (laneResult (entry s x) x
        (x.act.map fun l => (l, Sparse.get 0 (session (entry s x) (rdA (entry s x) x l)).counters (rdB (entry s x) x l) % 2 ^ 64)) 7 [])))

/-- R260 to R275, R292: a command of the dicing and sampling units, and `rc.sync`, whose addresses pass joins its queue with a credit of one
sector.
R283, R285, R286: `rcq` answers each active lane the output of version w - 1 of the network, where w is the window of its stamp; `rct` too,
and parks until its offers are performed, where it makes any.
R293: `rc.cfg.attach` answers its code, `rc.cfg.detach` frees a network of the caller's space with no query in flight, and `rc.cfg.stat`
answers a counter of one. Model's own readings: logs 43, 44. -/
def Obligations.UnitCommands : Prop :=
  (∀ (s : State) (i : Instr) (x : Issue) (y : XWord) (opc : Nat) (as : CmdSpec → List (Nat × Nat × Nat)) (t : State) (r : BarRef),
    (sampRule i = some (y, opc, as) ∨ i = .rcSync y ∧ opc = 0x2A2 ∧ as = fun _ => []) → issueOf s i = some x → engineOpen s x opc false →
    let t0 := engineState s x opc false
    let c := specOf t0 x opc y false
    let j := groupIssuer t0 x.g
    let cmd : Cmd := { newCmd t j c.qid c with bar := r, credit := 1, seq := if opc = 0x2A2 then fldN c.moda 3 2 else 0 }
    (∀ a ∈ as c, a.1 % a.2.1 = 0 ∧ (cmdGlobal j a.1 a.2.2).isSome = true) →
    cmdBar t0 j c = .ok t r → queueOpen t cmd → exec i s = .next (engineDone x y c false (enqueued t cmd) 0)) ∧
  (∀ (s : State) (y : XWord) (x : Issue) (n : Network) (u v : State) (out : List (Nat × List Nat)) (pas : List (Nat × Nat)), x.act ≠ [] →
    let w := queryWindow x.g n
    w ≤ n.published + 1 →
    let open_ (t : State) : State := modGroup t x.g.id fun g => { g with stamp := none }
    let own (t : State) : Prop := ownedNet t (((dispOf t x.g).map (·.part)).getD 0) (asidOf t x.g) (xmod y 0 2) = some n
    let q := open_ (entry s x)
    let t1 := markUnrec (drainGroup (entry s x) x.g.id) x.g.id
    let t := open_ t1
    let os := x.act.filterMap (laneOffer t x n w (vOf y.sb))
    (issueOf s (.rcq y) = some x → own q → queryLanes x.g n w (vOf y.sa) x.act q [] [] = (u, out, []) →
      exec (.rcq y) s = .next (plain (writeQuery x w (vOf y.dst) [] out (keepFloor x.g u)) x)) ∧
    (issueOf s (.rct y) = some x → queueLen t1 x.g.core 7 < 64 → own t → queryLanes x.g n w (vOf y.sa) x.act t [] [] = (u, out, []) →
      offerLanes x n os (keepFloor x.g u) [] [] = (v, pas, []) →
      let bad := (x.act.filter fun l => !goodTarget (regBlock x.g l (vOf y.sb) 3)).length
      let z := addPending (addPending (addPending v n.net 0 x.act.length) n.net 1 os.length) n.net 3 bad
      let r := writeQuery x w (vOf y.dst) (os.map (·.1)) out (sampleOffers z x n os)
      exec (.rct y) s = .next (if os = [] then plain r x
        else parkedDone { r with cmds := r.cmds ++ [offersCmd z x y n w os pas], nextId := r.nextId + 1 } x .offers))) ∧
  (∀ (s : State) (y : XWord) (x : Issue), x.act ≠ [] →
    let t := drainGroup (entry s x) x.g.id
    let part := ((dispOf (entry s x) x.g).map (·.part)).getD 0
    (∀ u n, issueOf s (.rcCfgAttach y) = some x →
      attachRun t (groupIssuer t x.g) (xmod y 0 2) (rdA t x x.lead) (((dispOf t x.g).map leased).getD false) = (u, .code n) →
      exec (.rcCfgAttach y) s = .next (wideResult u x (n <<< 24))) ∧
    (∀ n, issueOf s (.rcCfgDetach y) = some x → (network t (xmod y 0 2)).state ≠ 2 →
      ownedNet t (((dispOf t x.g).map (·.part)).getD 0) (asidOf t x.g) (xmod y 0 2) = some n →
      queriesIn t (xmod y 0 2) = false →
      exec (.rcCfgDetach y) s = .next (wideResult (modNetwork t (xmod y 0 2) fun n => { networkReset (xmod y 0 2) with lasterr := n.lasterr }) x 0)) ∧
    (∀ n, issueOf s (.rcCfgStat y) = some x → rdB (entry s x) x x.lead ≤ 7 → ownedNet (entry s x) part (asidOf (entry s x) x.g) (xmod y 0 2) = some n →
      exec (.rcCfgStat y) s = .next (wideResult (entry s x) x (netCounter n (rdB (entry s x) x x.lead)))))

/-! ### Dispatches, tasks, tapes -/

/-- R322: the state of a group that a dispatch launches on blocks of a core, a worker of a task dispatch waiting for its first record. -/
def Obligations.LaunchState : Prop :=
  ∀ (s : State) (d : Dispatch) (team grp c : Nat) (r : Nat × Nat × List Nat),
    let g := newGroup s d team grp c r
    (∀ l, l < g.width → pcvOf g l = BitVec.ofNat 64 (recNum d 0 8)) ∧ g.blocks = r.2.2 ∧ (∀ l n, readV g l n = 0) ∧
    readK g 0 = BitVec.ofNat 32 (recNum d 56 8) ∧ readK g 1 = BitVec.ofNat 32 (recNum d 56 8 / 2 ^ 32) ∧ (∀ n, 2 ≤ n → readK g n = 0) ∧
    (∀ n l, n < 7 → predOf g n l = false) ∧
    g.segLocal = (0, BitVec.ofNat 64 (4096 * dispLocalG d)) ∧ g.segConst = (BitVec.ofNat 64 (recNum d 8 8), BitVec.ofNat 64 (recNum d 16 4)) ∧
    g.segGlob = (if (dispFlags d).testBit 5 then (BitVec.ofNat 64 (recNum d 72 8), BitVec.ofNat 64 (recNum d 80 8)) else (0, BitVec.ofNat 64 (2 ^ 57))) ∧
    g.flushctl = 0 ∧ g.fpstat = 0 ∧ g.fptrap = 0 ∧ g.mstat = mstatReset ∧ g.prio = BitVec.ofNat 32 (dispPrioCeil d) ∧
    g.state = (if dispTask d then .park else .run)

/-- R358: `launch`, a release, of an aligned record inside its space joins the control queue with a credit of one sector.
R354: `spawn`, a release, appends the records that name no node to the ring, gives the others to their nodes, and answers each active
lane its record's place.
R347: `task.end`, a release at which every lane has arrived, ends the worker's task.
R357: the forms of `coal.flush` set PROD of a node that is in use, put its batch into release where the form says so, and answer HELD. Model's own readings: logs 32, 42. -/
def Obligations.TasksAndLaunches : Prop :=
  (∀ (s : State) (y : XWord) (x : Issue) (t : State) (r : BarRef), issueOf s (.launch y) = some x → engineOpen s x 0x2C0 true →
    let t0 := engineState s x 0x2C0 true
    let c := specOf t0 x 0x2C0 y false
    let j := groupIssuer t0 x.g
    let cmd : Cmd := { newCmd t j ctlQueue c with bar := r, credit := 1 }
    c.a % 64 = 0 → (cmdGlobal j c.a 256).isSome = true → cmdBar t0 j c = .ok t r → queueOpen t cmd →
    exec (.launch y) s = .next (engineDone x y c false (enqueued t cmd) 0)) ∧
  (∀ (s : State) (y : XWord) (x : Issue) (d : Dispatch) (t u : State) (q : List Byte) (base : Nat), issueOf s (.spawn y) = some x → x.act ≠ [] →
    dispOf (entry s x) x.g = some d → releaseOk (entry s x) x → readQueue (released (entry s x) x) d (dieOf x.g) = (t, some q) →
    let rs := x.act.map fun l => (l, spawnRec t x y l)
    let ofNode (k : Nat) : List (Nat × List Byte) := rs.filter fun r => recCkey r.2 == k
    (∀ r ∈ rs, malformedRec d q r.2 = false) →
    (∀ k, k < 8 → ofNode k ≠ [] → appendMigs t d (dieOf x.g) k (ofNode k).length = false) →
    (if ofNode 0 = [] then some (0, t) else appendRing t d (dieOf x.g) ((ofNode 0).map (·.2))) = some (base, u) →
    exec (.spawn y) s = .next (dstResult ((List.range 7).foldl (fun s k => spawnNode x (k + 1) (ofNode (k + 1)) s) u) x
      (rs.map fun r => (r.1, (((ofNode (recCkey r.2)).takeWhile fun e => e.1 != r.1).length + if recCkey r.2 = 0 then base else 0) % 2 ^ 32)))) ∧
  (∀ (s : State) (f : FWord) (x : Issue), convIssueOf s (.taskEnd f) = some x → x.act ≠ [] → releaseOk (entry s x) x →
    exec (.taskEnd f) s = .next (endTask (released (entry s x) x) x.g.id)) ∧
  (∀ (s : State) (y : XWord) (x : Issue) (i : Instr) (now : Bool) (f : Nat → Nat → Option Nat) (d : Dispatch) (t : State) (q : List Byte) (n : Nat),
    (i = .coalFlushNow y ∧ now = true ∧ (f = fun p _ => some p) ∨
     i = .coalFlushDone y ∧ now = false ∧ (f = fun p _ => if p = 0 then none else some (p - 1)) ∨
     i = .coalFlushProd y ∧ now = false ∧ (f = fun p m => if 2 ^ 32 ≤ p + m then none else some (p + m))) →
    issueOf s i = some x → x.act ≠ [] → releaseOk (entry s x) x →
    let t0 := released (entry s x) x
    let k := rdA t0 x x.lead
    dispOf t0 x.g = some d → readQueue t0 d (dieOf x.g) = (t, some q) → 1 ≤ k → k ≤ 7 → nodeThresh q k ≠ 0 →
    f (nodeProd q k) (rdB t x x.lead) = some n → appendMigs t d (dieOf x.g) k 0 = false →
    let u := (wrVa t (ctxOf d (dieOf x.g)) (taskqVa d + nodeOff k + 12) (leBytes 4 n)).getD t
    exec i s = .next (wideResult
      (if nodeHeld q k ≠ 0 ∧ (now = true ∨ n = 0 ∧ nodeProd q k ≠ 0) then startRelease u x.g.disp (dieOf x.g) k else u) x (nodeHeld q k)))

/-- R360, R362, R365: `tape.rec` takes the lowest free handle and the slot table, and the group records; `tape.stop` makes its tape READY and
answers its entries; `tape.drop` frees a tape that neither records nor plays.
R365: on a READY tape of the caller's space `tape.patch.slot` sets a slot's default, and `tape.patch` inserts a guard before a unit, with CAP of the
value that it has now, and answers its index; R366: `tape.play` of one, a release, plays it from its first entry with the slots that it gives, those of
its table among them. Model's own readings: log 45. -/
def Obligations.Tapes : Prop :=
  (∀ (s : State) (x : Issue),
    let t := drainGroup (entry s x) x.g.id
    (∀ y d h u bs, issueOf s (.tapeRec y) = some x → tapeOpen s x (dieOf x.g) → (∀ k, x.g.tape ≠ .recording k) → findDie t (dieOf x.g) = some d →
      freeHandle d = some h → unitOff t d.num .tape = false → tapeUsed d + 10 ≤ tapeStore →
      tableBytes x t (rdA t x x.lead) 8 256 = .ok (u, bs) →
      exec (.tapeRec y) s = .next (wideResult (modGroup (modDie u d.num fun d =>
        { d with tapes := d.tapes ++ [⟨h, ((dispOf u x.g).map (·.part)).getD 0, asidOf u x.g, .recording, false, false, numsOf 8 bs, [], []⟩] })
        x.g.id fun g => { g with tape := .recording h }) x h)) ∧
    (∀ f h tp, issueOf s (.tapeStop f) = some x → tapeOpen s x (dieOf x.g) → (findGroup t x.g.id).map Group.tape = some (.recording h) →
      let u := modGroup t x.g.id fun g => { g with tape := .none }
      findTape u h = some tp → tp.full = false → tp.unrec = false →
      exec (.tapeStop f) s = .next (wideResult (modTape u h fun t => { t with state := .ready }) x tp.units.length)) ∧
    (∀ y tp, issueOf s (.tapeDrop y) = some x → let h := rdA (entry s x) x x.lead; tapeOpen s x (tapeDie h) → unitOff t (tapeDie h) .tape = false →
      ownTape t (asidOf t x.g) h = some tp → tp.state ≠ .recording → tp.state ≠ .playing →
      exec (.tapeDrop y) s = .next (wideResult (freeTape t tp.handle) x 0))) ∧
  (∀ (s : State) (y : XWord) (x : Issue) (tp : Tape), tp.state = .ready →
    let h := rdA (entry s x) x x.lead
    let t := drainGroup (entry s x) x.g.id
    let own (t : State) : Prop := unitOff t (tapeDie h) .tape = false ∧ ownTape t (asidOf t x.g) h = some tp
    tapeOpen s x (tapeDie h) →
    (issueOf s (.tapePatchSlot y) = some x → own t → rdC t x x.lead ≤ 31 →
      exec (.tapePatchSlot y) s = .next (wideResult (modTape t tp.handle fun t' =>
        { t' with slots := updAt (rdC t x x.lead) (fun _ => BitVec.ofNat 64 (rdB t x x.lead)) t'.slots }) x 0)) ∧
    (∀ u v, issueOf s (.tapePatchGuard y) = some x → own t → guardAddr (xmod y 1 2) (rdB t x x.lead) = none →
      (if xmod y 4 1 = 0 then (t, .ok (rdC t x x.lead)) else guardValue t (groupIssuer t x.g) (xmod y 1 2) (rdB t x x.lead)) = (u, .ok v) →
      let pos := xtail y 2 18
      let n := (guardUnits tp).length
      n < 64 → ((findDie u (tapeDie tp.handle)).map tapeUsed).getD tapeStore + 1 ≤ tapeStore → pos ≤ tp.units.length →
      (tp.units[pos]?.map unitKind) ≠ some 2 →
      exec (.tapePatchGuard y) s = .next (wideResult (modTape u tp.handle fun t' =>
        { t' with units := t'.units.take pos ++ guardUnit (xmod y 1 2) (xmod y 3 1) n (rdB u x x.lead) v :: t'.units.drop pos }) x n)) ∧
    (∀ u slots, issueOf s (.tapePlay y) = some x → releaseOk t x →
      let t := markUnrec (released t x) x.g.id
      own t → playCode (some tp) = 0 →
      (if xmod y 0 1 = 1 then .ok (t, tp.slots) else readSlots x (rdB t x x.lead) (rdC t x x.lead) (List.range 32) t tp.slots) = .ok (u, slots) →
      let was := match x.g.tape with | .recording r => some r | _ => none
      exec (.tapePlay y) s = .next (playGroup (modGroup (modTape u tp.handle fun t => { t with state := .playing, tokens := [] }) x.g.id fun g =>
        { parkGroup g (.tape tp.handle false) with parkInfo := some (parkInfoOf x), tape := .playing tp.handle 0 slots was }) x.g.id)))

/-! ### Convergence, team and cluster barriers, priority -/

/-- R335, R336: `cv.sign`, a release, signs its register with the set given and answers the phase; `cv.wait` goes on, as an acquire, where the
phase differs from its token, and else waits.
R337: `bar.team` and `bar.cl` arrive at the barrier as a release, `bar.cl` in a cluster of one team at the team's; the last arrival completes the phase
and goes on as an acquire, any other parks. -/
def Obligations.GroupBarriers : Prop :=
  (∀ (s : State) (f : FWord) (x : Issue) (tm : Team), x.act ≠ [] → teamOf (entry s x) x.g = some tm →
    let n := fmod f 0 4
    let c := cvOf tm n
    let m : Word := BitVec.ofNat 32 (rdA (entry s x) x x.lead)
    let set := if m = 0 then c.set else m
    (issueOf s (.cvSign f) = some x → releaseOk (entry s x) x →
      (m ≠ 0 → m.toNat < 2 ^ ((dispOf (entry s x) x.g).map dispTgrps).getD 0 ∧ (c.signed = 0 ∨ m = c.set)) →
      set.getLsbD x.g.grpid = true → c.signed.getLsbD x.g.grpid = false →
      exec (.cvSign f) s = .next (plain (checkCv (modTeamOf (modGroup (released (entry s x) x) x.g.id fun g =>
        putDst g (.cvSign f) (allLanes x c.phase)) x.g fun t =>
          { t with cv := updAt n (fun c' => { c' with set := set, signed := c'.signed ||| BitVec.ofNat 32 (2 ^ x.g.grpid) }) t.cv })
        x.g.disp x.g.teamid n) x)) ∧
    (issueOf s (.cvWait f) = some x →
      (c.phase ≠ rdA (entry s x) x x.lead % 16 → exec (.cvWait f) s = .next (plain (acquireNow (modGroup (entry s x) x.g.id fun g =>
        putDst g (.cvWait f) (allLanes x (2 ^ 31 + c.phase))) x.g.id) x)) ∧
      (c.phase = rdA (entry s x) x x.lead % 16 → exec (.cvWait f) s = .next (parkedDone (entry s x) x (.cv n))))) ∧
  (∀ (s : State) (f : FWord) (x : Issue), x.act ≠ [] → releaseOk (entry s x) x →
    let t := released (entry s x) x
    (∀ i tm d, (i = .barTeam f ∨ i = .barCl f ∧ teamOf (entry s x) x.g = some tm ∧ dispOf (entry s x) x.g = some d ∧ dispClsize d ≤ 1) →
      convIssueOf s i = some x →
      let a := modTeamOf t x.g fun t => { t with bar := { t.bar with arrived := x.g.grpid :: t.bar.arrived } }
      let u := checkTeamBar a x.g.disp x.g.teamid
      exec i s = .next (if teamPhase u x.g ≠ teamPhase a x.g then plain (acquireNow u x.g.id) x else parkedDone a x .barTeam)) ∧
    (∀ tm d, convIssueOf s (.barCl f) = some x → teamOf (entry s x) x.g = some tm → dispOf (entry s x) x.g = some d → 1 < dispClsize d →
      let a := modCluster t x.g.disp tm.clid fun c => { c with bar := { c.bar with arrived := barKey (dispClsize d) tm x.g.grpid :: c.bar.arrived } }
      let u := checkClusterBar a x.g.disp tm.clid
      exec (.barCl f) s = .next (if clusterPhase u x.g ≠ clusterPhase a x.g then plain (acquireNow u x.g.id) x else parkedDone a x .barCl)))

/-- R67, R339, R382, R401: `prio.set` answers the priority and sets the smaller of its value and the ceiling; `loc`, `clk` and `die.q` answer
the place, the clock count and a die's state. Model's own readings: logs 8, 36, 62. -/
def Obligations.PriorityAndQueries : Prop :=
  ∀ (s : State) (f : FWord) (x : Issue),
    (issueOf s (.prioSet f) = some x → x.act ≠ [] → exec (.prioSet f) s =
      .next (plain (setPrio (modGroup (entry s x) x.g.id fun g => putDst g (.prioSet f) (allLanes x x.g.prio.toNat)) x.g (rdA (entry s x) x x.lead)) x)) ∧
    (issueOf s (.loc f) = some x → exec (.loc f) s =
      .next (laneResult (entry s x) x (x.act.map fun l => (l, locValue (entry s x) x.g (rdA (entry s x) x l))) 7 [])) ∧
    (issueOf s (.clk f) = some x → exec (.clk f) s = .next (wideResult (entry s x) x (s.clk % 2 ^ 64))) ∧
    (issueOf s (.dieQ f) = some x → (∀ l ∈ x.act, rdA (entry s x) x l ≤ 3) → exec (.dieQ f) s =
      .next (laneResult (entry s x) x (x.act.map fun l => (l, dieWord (entry s x) (rdA (entry s x) x l))) 7 []))

/-! ### System instructions -/

/-- R4, R381, R382, R417: `syswr` of a register of R381 by an index in its range writes it and completes, and `sysrd` of one answers its value in every
active lane and completes: MSTAT after the array's work, and zero for FANS, which is write-only; either of a register of a die that does not answer,
or that the issuing group's die does not reach, raises REMERR on the active lanes. Model's own readings: log 46. -/
def Obligations.SystemRegisters : Prop :=
  ∀ (s : State) (f : FWord) (x : Issue), x.act ≠ [] →
    let r := fmod f 0 10
    let i := rdA (entry s x) x x.lead
    let t := if r = 0x003 then drainArray (entry s x) x.g.core else entry s x
    indexOk r i = true →
    (dieSilent (entry s x) (dieOf x.g) r i = false →
      (issueOf s (.syswr f) = some x → exec (.syswr f) s = .next (plain (writeReg (entry s x) x.g r i (rdB (entry s x) x x.lead)) x)) ∧
      (issueOf s (.sysrd f) = some x → exec (.sysrd f) s = .next (wideResult t x (groupReg t ((findGroup t x.g.id).getD x.g) r i)))) ∧
    (dieSilent (entry s x) (dieOf x.g) r i = true → inFlight x.g = false → ∀ j, (j = .syswr f ∨ j = .sysrd f) → issueOf s j = some x →
      exec j s = .next (takeTrap (entry s x) x.g.id x.pc x.next { kind := 15, mask := x.act })) ∧
    (r = 0x045 → groupReg t ((findGroup t x.g.id).getD x.g) r i = 0)

/-- R54, R86: `tlbinv` of an aligned range that no leased dispatch holds, or with FORCE, whose epochs the group's die reaches, invalidates it in the spaces
named as a release and an acquire, and answers the number of regions whose epochs it incremented; one of no bytes does nothing and answers 0.
R54, R68: `cwb` writes back, and `cinv` drops, every dirty line of an aligned range, physical or translated, whose home slices a usable path
reaches, and answers their number; a range of no bytes does nothing. Model's own readings: logs 37, 67, 68. -/
def Obligations.TranslationAndCaches : Prop :=
  (∀ (s : State) (y : XWord) (x : Issue), issueOf s (.tlbinv y) = some x → x.act ≠ [] →
    let va := rdA (entry s x) x x.lead
    let n := rdB (entry s x) x x.lead
    let asid := rdC (entry s x) x x.lead
    let t := acquireNow (released (entry s x) x) x.g.id
    let all := xmod y 0 1 = 1
    let lo := if all then 0 else va57 va
    let len := if all then 2 ^ 57 else n
    let spaces := if xmod y 2 1 = 1 then List.range 4096 else [asid]
    (¬ all → va % 65536 = 0 ∧ n % 65536 = 0 ∧ canonical va = true ∧ va57 va + n ≤ 2 ^ 57) → (xmod y 2 1 = 0 → asid < 4096) →
    (¬ all → n = 0 → exec (.tlbinv y) s = .next (wideResult (entry s x) x 0)) ∧
    ((all ∨ n ≠ 0) → releaseOk (entry s x) x → (xmod y 1 1 = 0 → ∀ a ∈ spaces, leaseHeld t a lo len = false) →
      (∀ a ∈ spaces, epochsCut t (dieOf x.g) a (regionsOf lo len) = false) →
      let r := spaces.foldl (fun r a => let k := tlbinvSpace r.2 (dieOf x.g) a lo len; (r.1 + k.1, k.2)) ((0 : Nat), t)
      exec (.tlbinv y) s = .next (wideResult r.2 x r.1))) ∧
  (∀ (s : State) (y : XWord) (x : Issue) (i : Instr) (f : State → Partition → Nat × Nat → State),
    (i = .cwb y ∧ f = writeBackFrom ∨ i = .cinv y ∧ f = fun s _ l => dropLine s l.1) →
    issueOf s i = some x → x.act ≠ [] → releaseOk (entry s x) x →
    let t := acquireNow (released (entry s x) x) x.g.id
    let a := rdA t x x.lead
    let n := rdB t x x.lead
    a % 256 = 0 → n % 256 = 0 →
    (n = 0 → exec i s = .next (wideResult t x 0)) ∧
    (∀ d p u runs, n ≠ 0 → dispOf t x.g = some d → groupPart t x.g = some p →
      (if xmod y 0 1 = 1 then a + n ≤ 2 ^ 52 ∧ runs = [(a, n)] ∧ u = t
       else canonical a = true ∧ va57 a + n ≤ 2 ^ 57 ∧ physRuns t (ctxOn d x.g.core) (va57 a) n = (u, .ok runs)) →
      runsCut u p (dieOf x.g) runs = none →
      exec i s = .next (wideResult (sweepRuns u p runs f).2 x (sweepRuns u p runs f).1)))

/-- R69, R70: `dom.sw` of a good table starts a new domain generation and its group waits for the sweep; `route.sw` sets a die's ROUTE once the
die is drained.
R402: `die.rst.frost` of a die in SERVICE that nothing uses begins to freeze it, `die.rst.reset` of one in FROST or FAILED begins its reset,
and `die.rst.thaw` of one in FROST with both links up puts it into SERVICE.
R92, R417: the forms of `smpcfg` act on the sampler of a die that the group's die reaches and that answers, and answer a previous count or a counter;
of any other die they raise REMERR on the active lanes. Model's own readings: logs 33, 37, 46. -/
def Obligations.DomainsRoutesDies : Prop :=
  (∀ (s : State) (y : XWord) (x : Issue) (p : Partition), x.act ≠ [] →
    (issueOf s (.domSw y) = some x → releaseOk (entry s x) x →
      let t := acquireNow (released (entry s x) x) x.g.id
      let a := rdA t x x.lead
      groupPart t x.g = some p → a % 4096 = 0 → isDevPa p a = true → runsCut t p (dieOf x.g) [(a, 4096)] = none → badPlaces t (placesOf p a 4096) = false →
      sysBusy t p.id = false → goodTable (correctPlaces t (placesOf p a 4096)) p ((rdPa (correctPlaces t (placesOf p a 4096)) p a 4096).map (·.toNat)) = true →
      let u := correctPlaces t (placesOf p a 4096)
      let r := switchDomain u p x.g.id ((rdPa u p a 4096).map (·.toNat))
      exec (.domSw y) s = .next (parkedDone r.1 x (.sys sysDom p.id r.2))) ∧
    (issueOf s (.routeSw y) = some x →
      let t := drainGroup (entry s x) x.g.id
      groupPart t x.g = some p → sysBusy t p.id = false → badRoute t (xmod y 0 2) (rdA t x x.lead) = false →
      exec (.routeSw y) s = .next (wideResult (modDie (drainDie t (xmod y 0 2)) (xmod y 0 2) fun k =>
        { k with route := BitVec.ofNat 32 (rdA t x x.lead) }) x 0))) ∧
  (∀ (s : State) (y : XWord) (x : Issue) (e : Die), x.act ≠ [] → findDie (entry s x) (rdA (entry s x) x x.lead) = some e →
    rdA (entry s x) x x.lead ≠ dieOf x.g → s.sysOps = [] →
    (issueOf s (.dieRstFrost y) = some x → e.state = .service → dieInUse (entry s x) e.num = false →
      let drain := xmod y 2 1 == 1
      let f := setDieState (entry s x) e.num .freezing
      let u := if drain then f else f.dispatches.foldl (fun s d => requestSave s d.id (.die e.num)) f
      exec (.dieRstFrost y) s = .next (parkedDone { u with sysOps := u.sysOps ++ [(2, e.num, x.g.id)] } x (.sys sysRst e.num 0))) ∧
    (issueOf s (.dieRstReset y) = some x → (e.state = .frost ∨ e.state = .failed) →
      ∃ u, exec (.dieRstReset y) s = .next u ∧ u.sysOps = [(2, e.num, x.g.id)] ∧ (∃ k, findDie u e.num = some k ∧ k.state = .reset ∧ k.tapes = []) ∧
        ∀ k ∈ u.cores, coreDie k.lcore = e.num → k.lmem = [] ∧ k.array = [] ∧ k.slots = List.replicate 8 slotReset) ∧
    (issueOf s (.dieRstThaw y) = some x → e.state = .frost → linkUp (entry s x) e.num true = true → linkUp (entry s x) e.num false = true →
      exec (.dieRstThaw y) s = .next (wideResult (setDieState (entry s x) e.num .service) x 0))) ∧
  (∀ (s : State) (i : Instr) (x : Issue) (y : XWord) (bad : Nat → Nat → Bool) (f : Nat → Nat → Nat → State → Nat × State),
    smpcfgRule i = some (y, bad, f) → issueOf s i = some x → x.act ≠ [] →
    let reach := diesReach (entry s x) (dieOf x.g) (xmod y 3 2) 0
    let a := rdA (entry s x) x x.lead
    let b := rdB (entry s x) x x.lead
    (reach = true → unitHeld (entry s x) (xmod y 3 2) .sampler = false → bad a b = false →
      exec i s = .next (wideResult (f (xmod y 3 2) a b (entry s x)).2 x (f (xmod y 3 2) a b (entry s x)).1)) ∧
    (reach = false → inFlight x.g = false → exec i s = .next (takeTrap (entry s x) x.g.id x.pc x.next { kind := 15, mask := x.act })))

/-- R391: `ctxsave.pre` of another dispatch of the partition pre-empts it whole and waits; `ctxrest.resume` of one that is saved hands it to the
scheduler, with TM sends a team's HELD groups back to RUN; `ctxrest.end` ends one and waits for its retirement.
R391, R395: `ctxsave.dump` of a team that is saved or still writes its context to an aligned frame in the caller's space, and `ctxrest.load`
takes the context of such a team from one, where it fits. Model's own readings: logs 25, 26, 47. -/
def Obligations.Contexts : Prop :=
  (∀ (s : State) (y : XWord) (x : Issue) (d : Dispatch), x.act ≠ [] →
    findDisp (entry s x) (rdA (entry s x) x x.lead) = some d → (dispOf (entry s x) x.g).map (·.part) = some d.part →
    rdA (entry s x) x x.lead ≠ x.g.disp →
    let t := drainGroup (entry s x) x.g.id
    (issueOf s (.ctxsavePre y) = some x → exec (.ctxsavePre y) s = .next (if dispSaved t d then wideResult t x 2
      else parkedDone (requestSave (modDisp t d.id fun d => { d with preempt := 1 }) d.id .all) x (.sys sysPre d.id 0))) ∧
    (issueOf s (.ctxrestResume y) = some x → xmod y 2 1 = 0 → exec (.ctxrestResume y) s = .next (if dispSaved t d then
        wideResult (modDisp t d.id fun d => { d with preempt := 0, preemptFor := 0 }) x 0 else wideResult t x 2)) ∧
    (∀ tm, issueOf s (.ctxrestResume y) = some x → xmod y 2 1 = 1 → findTeam t d.id (rdB t x x.lead) = some tm →
      (teamGroups t tm).any (fun g => g.state == .held) = true → exec (.ctxrestResume y) s = .next (wideResult (resumeHeld t tm) x 0)) ∧
    (issueOf s (.ctxrestEnd y) = some x → savedMigs t d = false → exec (.ctxrestEnd y) s = .next (parkedDone (endByRest t d) x (.sys sysEnd d.id 0)))) ∧
  (∀ (s : State) (y : XWord) (x : Issue) (d me : Dispatch) (tm : Team) (p : Partition) (a : Acc) (w : State) (tab : PageTab) (va' : Nat), x.act ≠ [] →
    findDisp (entry s x) (rdA (entry s x) x x.lead) = some d → (dispOf (entry s x) x.g).map (·.part) = some d.part →
    rdA (entry s x) x x.lead ≠ x.g.disp →
    let t := drainGroup (entry s x) x.g.id
    let va := rdC t x x.lead
    rdC (entry s x) x x.lead % frameSize = 0 → globTarget x.g (rdC (entry s x) x x.lead) frameSize = some (.glob va') →
    findTeam t d.id (rdB t x x.lead) = some tm → dispOf t x.g = some me → groupPart t x.g = some p → teamStill t tm = true →
    inLease me (va57 va) frameSize = true → xlateRun t (ctxOn me x.g.core) a (va57 va) frameSize = (w, .ok tab) →
    let pages := (List.range 32).map fun i => paVia tab (va57 va + 65536 * i)
    let u := settleSlots w p (blocksVia tab (va57 va) frameSize)
    (allReach u = true ∨ unreachable u p (dieOf x.g) tab (va57 va) frameSize = false) →
    (issueOf s (.ctxsaveDump y) = some x → a = .write →
      exec (.ctxsaveDump y) s = .next (wideResult (writeContext u p pages tm (teamContext u tm)) x 0)) ∧
    (issueOf s (.ctxrestLoad y) = some x → a = .read → badPages u p pages = false →
      let f := readFrame u p pages
      frameOk u tm f = true →
      (tm.frame = none → exec (.ctxrestLoad y) s = .next (wideResult (loadBads (loadFrame (loadCmds u tm f) tm f) tm []) x 0)) ∧
      (∀ pa q, tm.frame = some pa → ringPart u pa = some q →
        exec (.ctxrestLoad y) s = .next (wideResult (writeFrame (loadCmds u tm f) q (framePages pa) f) x 0))))

/-! ### Steps of the other agents -/

/-- R130, R192, R330, R331: an `ISSUE` selects a sector's group and those that join it, unless another sector issues on an earlier clock; aging and the end of a nap act on the group that waits for
them, and the grant of blocks completes an `rgrow`. Model's own readings: logs 3, 8. -/
def Obligations.SchedulingSteps : Prop :=
  ∀ (s : State) (g : Group),
    (∀ c sector, (selectGroup s c sector).isSome = true → issuesEarlier s c sector = false →
      let t := reachSector s c sector
      selectGroup t c sector = some g →
      let js := if g.width < 64 then joinGroups (sectorReady t c sector) g else []
      exec (.issue c sector) s = .next { markIssued t (g.id :: js.map (·.id)) with cur := some g.id, joined := js.map (·.id) }) ∧
    (∀ c sector, issuesEarlier s c sector = true → exec (.issue c sector) s = .next s) ∧
    (1024 ≤ g.readyClks → findGroup s g.id = some g →
      ∃ t, exec (.aging g.id) s = .next t ∧ findGroup t g.id = some { g with readyClks := g.readyClks - 1024, age := g.age + 1 }) ∧
    (∀ l n, findGroup s g.id = some g → (l, n) ∈ g.naps → n ≤ s.clk →
      exec (.napExpiry g.id l) s =
        .next (setGroup s { g with parked := g.parked &&& ~~~maskLanes [l], naps := g.naps.filter fun e => e.1 != l })) ∧
    (∀ n bs, findGroup s g.id = some g → g.state = .park → g.wait = .rgrow n → growBlocks s g n = some bs →
      exec (.rgrowGrant g.id) s = .next (releaseGroup (modCore (growGroup s g.id bs) g.core
        fun k => { k with growers := k.growers.filter (· != g.id) }) g.id n))

/-- R65, R137, R302, R303, R312, R313: a lane's access of a flight that neither its group's earlier accesses nor a sweep hold is performed at its slice, the
flight sent on where its home has moved, and released where a sweep held it; a group whose wait is over goes on.
R137, R302, R419: a load or atomic that was performed without an error returns and writes its destination in every lane, and an acquire
then drops the unowned copies of the L1; one with an error is recorded for the next instruction.
R138, R139, R302, R309, R310, R397: a store that nothing earlier holds is registered, a `red` performed, and one that its home does not answer, no
path reaches or that meets an uncorrectable word is kept as the group's store error; a store that a passed `fence.rel` waited for has its answer. Model's own readings: logs 2, 12, 53, 55, 56. -/
def Obligations.AccessSteps : Prop :=
  (∀ (s : State) (g : Group) (p : Partition) (f : Flight), findGroup s g.id = some g → groupPart s g = some p →
    (g.flights.find? (fun h => h.seq == f.seq && !flightDone h) = some f →
      ((flightLeft f).any (fun a => moved p a.pa a.home) = true →
        exec (.sliceAccess g.id f.seq) s = .next (countRedirect (modFlight s g.id f.seq (rehome p)) (dieOf g))) ∧
      ((flightLeft f).any (fun a => moved p a.pa a.home) = false →
        exec (.sliceAccess g.id f.seq) s = .next (if freeLanes s g p f = [] then s else performNext s g p f))) ∧
    (∀ seq, let pas := (g.flights.filter fun h => h.seq == seq).flatMap (fun h => (flightLeft h).map (·.pa)) ++
        (g.stores.filter fun w => w.seq == seq).map (·.pa)
      pas.any (swept s p) = true → exec (.sweepWaitRelease g.id seq) s =
        .next (storeAck (sliceAccess (settleSlots s p pas) g.id seq) g.id seq false)) ∧
    (g.state = .park → (∀ w a v, g.wait ≠ .sys w a v) → (∀ h b, g.wait ≠ .tape h b) → waitMet s g = true →
      exec (.parkedAccessResume g.id) s =
        .next (modGroup s g.id fun h => if h.state = .park ∨ h.state = .fault then { h with state := h.before, wait := .none, parkInfo := none } else h))) ∧
  (∀ (s : State) (g : Group) (f : Flight) (i : Instr) (err : DWord), findGroup s g.id = some g →
    g.flights.find? (fun h => h.seq == f.seq) = some f → flightDone f = true →
    (i = .loadReply g.id f.seq err ∧ isAtomFlight f = false ∨ i = .atomicReturn g.id f.seq err ∧ isAtomFlight f = true) →
    let rem := ((f.lanes.map (·.lane)) ++ f.got.map (·.1) ++ f.rem).eraseDups.filter fun l => f.rem.contains l || err.getLsbD l
    let left := { g with flights := g.flights.filter fun h => h.seq != f.seq }
    let drop (t : State) : State := if flightAcq f then invalidateL1 t g.core else t
    (rem = [] → f.bad = [] → ∀ o, f.dst = some o →
      exec i s = .next (drop (setGroup s (setTags (writeDst left o f.words ((byLane f.got).map fun v => (v.1, loadExt f v.2))) o f.words
        (byLane f.times))))) ∧
    (rem ≠ [] ∨ f.bad ≠ [] → exec i s = .next (drop (setGroup s { left with lateErrs := g.lateErrs ++ [lateErrOf f rem] })))) ∧
  (∀ (s : State) (g : Group) (p : Partition) (w : PendStore) (err : Bool), findGroup s g.id = some g → groupPart s g = some p →
    g.stores.find? (fun u => u.seq == w.seq) = some w → moved p w.pa w.home = false → storeBlocked (ordMode s g) g w = false →
    swept s p w.pa = false →
    let t := modGroup s g.id fun g => { g with stores := g.stores.filter fun u => u.seq != w.seq }
    let ps := (List.range w.size).map (w.place + ·)
    let bad := w.red.isSome && badPlaces t ps
    let lost := decide (g.relFence ≤ w.seq) && (err || !reachable t p (dieOf g) w.pa)
    (lost = false → w.red = none →
      exec (.storeRegistrationAck g.id w.seq err) s = .next (touchRead (storePlaces (countTraffic t p (dieOf g) w.pa) g.core w.bytes) g.id)) ∧
    (∀ o ty b c, lost = false → bad = false → w.red = some (o, ty, b, c) →
      exec (.storeRegistrationAck g.id w.seq err) s =
        .next (performAtom (countTraffic t p (dieOf g) w.pa) g.id g.core w.place o ty b.toNat c.toNat).2) ∧
    (lost = true ∨ bad = true → g.state ≠ .exit → g.state ≠ .retired →
      exec (.storeRegistrationAck g.id w.seq err) s = .next (modGroup (if bad then countUncorr t (dieOf g) (memLocs ps) else t) g.id
        fun g => { g with storeErr := some (g.storeErr.getD w.va) })))

/-- R52, R90, R91, R100, R311, R397 to R399: a window line is written back and stays clean, an access is sampled and counts in the hot-page table where
HOT is set, a pending notification is posted, a module counts failed resends, retrains and is disabled, an L1 loses a copy, and the scrubber corrects
a word, or counts one that cannot be corrected. Model's own readings: logs 33, 35, 38. -/
def Obligations.MemorySideSteps : Prop :=
  (∀ (s u : State) (c l : Nat) (t : Team) (w : Window), (getLine s c l).win = 3 → windowAt s c (128 * l) = some (t, w) →
    writeBackWindow s t w l = .ok u → exec (.windowEviction c l) s = .next u) ∧
  (∀ (s : State) (a : SampledAccess) (d : Die), findDie s d.num = some d → d.sampler.log2n ≠ 0 → d.unitsOff.contains 6 = false → d.unitsTest.contains 6 = false →
    (d.sampler.counter + 1 < 2 ^ d.sampler.log2n →
      exec (.accessSample d.num a) s = .next (modSampler s d.num fun p => { p with counter := p.counter + 1 })) ∧
    (2 ^ d.sampler.log2n ≤ d.sampler.counter + 1 →
      let t := modSampler s d.num fun p => { p with counter := 0 }
      let lost := modSampler t d.num fun p => { p with smplost := min 0xFFFFFFFF (p.smplost + 1) }
      let u := match d.sampler.ring with
        | some pa => if ringRoom t d.num pa then ringPush t pa 32 (sampleRec d.num a t.clk) else lost
        | none => lost
      exec (.accessSample d.num a) s = .next (if d.sampler.hot then hotUpdate u d.num a else u))) ∧
  (∀ (s : State) (d : Die) (i : Nat) (h : HotPage) (pa : Nat), findDie s d.num = some d →
    (d.sampler.table.filterMap fun e => e.2.map fun h => (e.1, h)).find? (fun e => e.2.pending) = some (i, h) →
    d.sampler.notify = some pa → ringRoom s d.num pa = true →
    exec (.hotPagePendingPost d.num) s = .next (ringPush (modSampler s d.num fun p =>
      { p with table := Sparse.put none p.table i (some { h with queued := true, pending := false }) }) pa 16 (hotNote i h))) ∧
  (∀ (s : State) (d m : Nat) (e : Edge) (ok : Bool) (x : Module), moduleOf s d e m = some x → x.retraining = false → x.disabled = false →
    ∃ t, exec (.flitCrcResend d e m ok) s = .next t ∧ moduleOf t d e m = some (
      if ok then { x with fails := 0 } else if x.fails + 1 < 16 then { x with fails := x.fails + 1 } else { x with fails := 0, retraining := true })) ∧
  (∀ (s : State) (d m : Nat) (e : Edge) (x : Module), moduleOf s d e m = some x → x.retraining = true → x.disabled = false →
    (∃ t, exec (.moduleRetrain d e m true) s = .next t ∧ moduleOf t d e m = some { x with retraining := false, fails := 0 }) ∧
    (∃ t, exec (.moduleDisable d e m) s = .next t ∧ moduleOf t d e m = some { x with retraining := false, disabled := true })) ∧
  (∀ (s : State) (c pa : Nat) (k : Core), c < 176 → findCore s c = some k →
    ∃ t, exec (.l1Eviction c pa) s = .next t ∧ MemorySame s t ∧
      findCore t c = some { k with l1 := k.l1.filter fun e => e.1 / 128 != pa / 128 }) ∧
  (∀ (s : State) (a : ArrayLoc), a ∈ s.corrWords → a ∉ s.badWords →
    ∃ t, exec (.scrubberPass a) s = .next t ∧ MemorySame s t ∧ t.corrWords = s.corrWords.filter (· != a) ∧ t.badWords = s.badWords) ∧
  (∀ (s : State) (a : ArrayLoc), a ∈ s.badWords → exec (.scrubberPass a) s = .next (countUncorr s (arrayDie s a) [a]))

/-- R94, R95, R109, R120, R121, R194, R220: a copy engine performs a command that nothing holds to its end or to the element that stops it,
where what has landed is credited, a
collective whose ranks agree writes what its operation gives, the array performs the multiply at its head, and room in a queue resumes a group. Model's own readings: logs 34, 68, 70, 77. -/
def Obligations.EngineSteps : Prop :=
  ∀ (s : State),
    (∀ c s', findCmd s c.id = some c → 0x200 ≤ c.opc → c.opc ≤ 0x205 → cmdReady s c = true → barReady s c = (s', none) →
      exec (.copyEnginePerform c.id) s = .next (match copyRun c (copyUnits c - c.progress) c.progress s' with
        | (t, _, none) => finishCmd t c
        | (t, i, some e) => let u := landCopy t c i
          match findCmd u c.id with | some k => stopCmd u k e (copyUnwritten k i) | none => u)) ∧
    (∀ c peers t bs u, findCmd s c.id = some c → c.opc = 0x208 → cmdReady s c = true → collFirst s c = true →
      unitHeld s (coreDie c.core) .collective = false → unitOff s (coreDie c.core) .collective = false → peers.length + 1 = (cmdRanks c).length →
      (∀ q ∈ peers, q.op = fldN c.moda 4 2 ∧ q.red = fldN c.moda 6 2 ∧ q.ty = fldN c.moda 8 4 ∧ q.count = c.len) →
      let own := (cmdRanks c).idxOf s.devnum
      let es := collSize (fldN c.moda 8 4)
      engRead s c (.glob (va57 c.b)) ((collElems (fldN c.moda 4 2) (cmdRanks c).length c.len).1 * es) = (t, .ok bs) →
      engWrite t c (.glob (va57 c.a)) ((collResult (fldN c.moda 4 2) (fldN c.moda 6 2) (fldN c.moda 8 4) c.len own
        ((peers.take own).map (·.data) ++ [bs] ++ (peers.drop own).map (·.data))).flatMap (leBytes es)) = (u, none) →
      exec (.collStart c.id peers) s = .next (finishCmd u c)) ∧
    (∀ k st rest, findCore s k.lcore = some k → k.array = st :: rest →
      exec (.arrayPerform k.lcore) s = .next (performStaged (modCore s k.lcore fun k => { k with array := rest }) k.lcore st)) ∧
    (∀ g c q, findGroup s g.id = some g → g.state = .park → g.wait = .queueRoom c q → (q = ctlQueue → ctlBusy s g.id = false) → queueLen s c q < 64 →
      exec (.engineQueueRoom g.id) s =
        .next (modGroup s g.id fun h => if h.state = .park ∨ h.state = .fault then { h with state := h.before, wait := .none, parkInfo := none } else h))

/-- R265, R270, R271, R276: a pending bin of a session that is sampled becomes active with an empty list for every sample that it owns; an active bin
replays its grids, writes its lists and adds its counts; what stops an access holds the command or ends the session. No other bin's step goes on
while one is stopped in its course (R81).
R286, R288 to R292: the offers of an `rct` are performed and its group goes on; training of a closed network begins once no offer to it and no
query of the closed window is left; a step of the optimiser trains on its samples; after the last step the tables are published and the network is READY. Model's own readings: logs 43, 44. -/
def Obligations.UnitSteps : Prop :=
  (∀ (s : State) (sid b : Nat) (c : Cmd), endOf s sid = some c →
    let x := session s sid
    let xs := (binPixels x.desc b).1
    let n := Sparse.get 0 x.counts b
    (∀ t, binState x b = 0 → b < x.bins.length → binFree c (2 * b) = true →
      emptyRows c x.desc (xs.headD 0) xs.length (binPixels x.desc b).2 (startStep s c (2 * b)) = (t, none) →
      exec (.binActivate sid b) s = .next (setBin (endStep t c) sid b 1)) ∧
    (∀ t e, binState x b = 0 → b < x.bins.length → binFree c (2 * b) = true →
      emptyRows c x.desc (xs.headD 0) xs.length (binPixels x.desc b).2 (startStep s c (2 * b)) = (t, some e) →
      exec (.binActivate sid b) s = .next (stopBin t c sid e)) ∧
    (∀ t u v rs gs, binState x b = 1 → binFree c (2 * b + 1) = true →
      stepRead (startStep s c (2 * b + 1)) c (refAt x.desc b 0) (8 * n) = (t, .ok rs) →
      readGrids c ((List.range n).map fun i => (qNum rs (8 * i) 8, Sparse.get 0 x.homes (refKey b i) == 1)) t [] = (u, .ok gs) →
      writeLists c x.desc (replayBin x b (sortGrids gs)).lists u = (v, none) →
      exec (.binDone sid b) s = .next (commitBin v c sid b (replayBin x b (sortGrids gs)) (dupOrder (sortGrids gs)))) ∧
    (∀ t e, binState x b = 1 → binFree c (2 * b + 1) = true →
      stepRead (startStep s c (2 * b + 1)) c (refAt x.desc b 0) (8 * n) = (t, .error e) → exec (.binDone sid b) s = .next (stopBin t c sid e))) ∧
  (∀ (s : State) (net : Nat) (c : Cmd),
    (∀ grp p, s.cmds.find? (fun c => c.grp == grp && c.opc == 0x2A1) = some c → findPart s c.part = some p →
      exec (.rctOffer grp) s = .next (exitIfDone (releaseGroup (modGroup (dropCmd (performOffers s c p) c.id) c.grp
        fun g => { g with parkInfo := g.parkInfo.map fun k => { k with dst := none } }) c.grp 0) c.grp)) ∧
    (trainCmd s (network s net) = some c →
      ((network s net).training = false → s.cmds.any (fun d => d.opc == 0x2A1 && d.seq == net) = false →
        stampedIn s net ((network s net).w - 1) = false →
        exec (.equinoxTrain net) s = .next (modNetwork s net fun n => { n with training := true })) ∧
      ((network s net).training = true → (network s net).step < stepCount (network s net).desc →
        exec (.equinoxStep net) s = .next (trainStep s c (network s net))) ∧
      (∀ t i, (network s net).training = true → stepCount (network s net).desc ≤ (network s net).step →
        publishTab c (network s net).desc ((network s net).w - 1) (tabEntries (network s net).desc - c.progress) c.progress s = (t, i, none) →
        let u := modNetwork (publishMlp t net ((network s net).w - 1)) net fun n => { n with state := 1, cmd := none, training := false }
        exec (.publication net) s = .next (wakeQueries (match findCmd u c.id with | some k => finishCmd u k | none => u) net))))

/-- R130, R343, R346, R347, R350, R354, R356: the record at HEAD goes to a worker that waits, with the registers that it names, once their blocks are
free: till then it stands in line for them with the groups that grow. A worker with no record in the ring leaves the line, and with none to
come exits; a task at its limit ends with WDOG; a node's timer starts its release, and room in the ring lets batches and groups go on. Model's own readings: logs 32, 42. -/
def Obligations.TaskSteps : Prop :=
  ∀ (s : State) (g : Group) (d : Dispatch), findGroup s g.id = some g →
    (∀ t q, dispOf s g = some d → workerFree s g = true → vaMigs s (ctxOf d (dieOf g)) .write (taskqVa d) 256 = false →
      readQueue s d (dieOf g) = (t, some q) →
      (∀ u r, qUsed q ≠ 0 → rdVa t (ctxOf d (dieOf g)) (qRing q + 64 * (qHead q % qCount q)) 64 = (u, some r) →
        (∀ bs, malformedRec d q r = false → taskBlocks u g (recByte d 21) = some bs →
          let v := acquireNow (advanceHead (leaveGrowers u g) d (dieOf g) q) g.id
          exec (.taskDelivery g.id) s = .next (modGroup v g.id fun h => deliverTo v d h bs r)) ∧
        (malformedRec d q r = false → taskBlocks u g (recByte d 21) = none → exec (.taskDelivery g.id) s = .next (joinGrowers u g)) ∧
        (malformedRec d q r = true → exec (.taskDelivery g.id) s = .next (notify (advanceHead u d (dieOf g) q) (dieOf g) (.unit (dieOf g) unitSched)
          { kind := 0x20, extra := BitVec.ofNat 64 (recTidx r), team := g.teamid, disp := g.disp }))) ∧
      (qUsed q = 0 → exec (.taskDelivery g.id) s =
        .next (if liveRecords t d + liveTasks t d = 0 then exitGroup (leaveGrowers t g) g.id else leaveGrowers t g))) ∧
    (∀ k, g.task = some k → k.start + k.limit ≤ s.clk →
      exec (.taskWdog g.id) s = .next (endWith s g.id 12 ((issueAddr g).getD exitPc) 0 0 [] 0)) ∧
    (∀ k n f q, findDisp s d.id = some d → d.nodes.find? (fun n => n.node == k) = some n → n.since = some f →
      (readQueue s d (partDie s d.part)).2 = some q → f + nodeF q k ≤ s.clk →
      exec (.nodeFlushTimer d.id k) s = .next (startRelease s d.id (partDie s d.part) k)) ∧
    (∀ k n, findDisp s d.id = some d → d.nodes.find? (fun n => n.node == k) = some n → n.batches ≠ [] →
      appendMigs s d (partDie s d.part) 0 (n.batches.headD []).length = false →
      exec (.nodeRelease d.id k) s = .next (pushBatches s d.id (partDie s d.part) k n.batches) ∧
      exec (.ringRoomResume d.id (.node k)) s = .next (pushBatches s d.id (partDie s d.part) k n.batches)) ∧
    (g.state = .park → g.wait = .ring →
      (∀ k, g.task = some k → k.pend ≠ [] → exec (.ringRoomResume g.disp (.group g.id)) s = .next (endTask s g.id)) ∧
      ((∀ k, g.task = some k → k.pend = []) → exec (.ringRoomResume g.disp (.group g.id)) s =
        .next (modGroup s g.id fun h => if h.state = .park ∨ h.state = .fault then { h with state := h.before, wait := .none, parkInfo := none } else h)))

/-- R81, R323, R339, R381, R382, R386: writes of registers from outside a group, and the two answers to a fault that waits: a retry lets its group
execute its instruction again, a delivery makes it a precise XLATE once its loads and atomics in flight have returned. Model's own readings: log 2. -/
def Obligations.OutsideWrites : Prop :=
  ∀ (s : State) (g : Group), findGroup s g.id = some g →
    (∀ r i v, indexOk r i = true → exec (.registerWrite g.id r i v) s = .next (setReg s g.id r i v)) ∧
    (∀ v, exec (.seedWrite v) s = .next { s with seedReg := v }) ∧
    (∀ d v, dispOf s g = some d → ∃ t, exec (.prioWrite g.id v) s = .next t ∧
      findGroup t g.id = some { g with prio := BitVec.ofNat 32 (min v.toNat (dispPrioCeil d)) }) ∧
    (∀ w, s.faults.find? (fun f => f.tag == w.tag) = some w → w.grp = some g.id → w.what = 0 →
      let t := { s with faults := s.faults.filter fun f => f.tag != w.tag }
      exec (.fansRetry w.tag) s = .next (modGroup t g.id fun h =>
        if h.state = .park ∨ h.state = .fault then { h with state := h.before, wait := .none, parkInfo := none } else h) ∧
      (g.rq = none → g.state = .fault →
        exec (.fansDeliver w.tag) s = .next (takeTrap (drainReads (modGroup t g.id unparkGroup) g.id) g.id w.taddr (w.taddr + 8)
          { kind := 5, cause := w.cause, mask := lanesIn g w.mask, daddr := w.va, extra := BitVec.ofNat 64 w.tag, acc := w.acc, asid := w.asid })))

/-- R83, R325, R371, R386, R387, R399 to R403: a freezing die that is quiet enters FROST with no tape but those whose player is saved, a reset ends in
FROST or FAILED, a unit under test takes no work (no team is placed on the core, no command of the unit is performed) until it is back in service or
retired, and the first record of its source that was held is posted once its queue has room. Model's own readings: logs 3, 35, 46. -/
def Obligations.DieSteps : Prop :=
  ∀ (s : State),
    (∀ d, dieQuiet s d = true → ∃ t k, exec (.dieQuiesce d) s = .next t ∧ findDie t d = some k ∧ k.state = .frost ∧
      (∀ p ∈ k.tapes, p.state = .playing) ∧ ∀ c ∈ t.cores, coreDie c.lcore = d → c.l1 = []) ∧
    (∀ d e, findDie s d = some e → e.state = .reset →
      (∃ t k, exec (.dieResetDone d true) s = .next t ∧ findDie t d = some k ∧ k.state = .frost ∧
        (∀ m ∈ k.edgeA ++ k.edgeB, m.disabled = false ∧ m.retraining = false)) ∧
      (∃ t k, exec (.dieResetDone d false) s = .next t ∧ findDie t d = some k ∧ k.state = .failed)) ∧
    (∀ c k, findCore s c = some k → k.testing = false → k.retiredMark = false →
      exec (.selfTestStart (.core c)) s = .next (s.dispatches.foldl (fun s d => requestSave s d.id (.core c))
        (modCore s c fun k => { k with testing := true }))) ∧
    (∀ d u k, findDie s d = some k → k.unitsTest.contains (unitNo u) = false → k.unitsOff.contains (unitNo u) = false →
      ∃ t, exec (.selfTestStart (.dieUnit d u)) s = .next t ∧ findDie t d = some { k with unitsTest := k.unitsTest ++ [unitNo u] }) ∧
    (∀ v w k, findDie s (v / 16) = some k → k.waysTest.contains (v, w) = false → k.waysOff.contains (v, w) = false →
      ∃ t, exec (.selfTestStart (.sliceWay v w)) s = .next t ∧ findDie t (v / 16) = some { k with waysTest := k.waysTest ++ [(v, w)] }) ∧
    (∀ c k pass, findCore s c = some k → k.testing = true → coreEmpty s c = true →
      let t := modCore s c fun k => { k with testing := false }
      exec (.selfTestDone (.core c) pass) s =
        .next (if pass then notify t (coreDie c) (.unit (coreDie c) unitTest) { kind := 0x2A, extra := BitVec.ofNat 64 c }
          else retireCore (notify t (coreDie c) (.unit (coreDie c) unitTest) { kind := 0x2B, extra := BitVec.ofNat 64 c }) c)) ∧
    (∀ c k, findCore s c = some k → k.testing = true → (∀ d clid rank, placeTeam s d clid rank c = none) ∧
      ∀ t, t.frame ≠ none → resumeTeam s t c = none) ∧
    (∀ c u, findCmd s c.id = some c → unitHeld s (coreDie c.core) u = true → (cmdUnit c.opc = some u ∨ c.opc = 0x208 ∧ u = .collective) →
      exec (.copyEnginePerform c.id) s = .next s ∧ ∀ peers, exec (.collStart c.id peers) s = .next s) ∧
    (∀ sid b c, findCmd s (session s sid).endCmd = some c → unitHeld s (coreDie c.core) .sampling = true →
      exec (.binActivate sid b) s = .next s ∧ exec (.binDone sid b) s = .next s) ∧
    (∀ net, unitHeld s (nHome (network s net).desc) .equinox = true →
      exec (.equinoxTrain net) s = .next s ∧ exec (.equinoxStep net) s = .next s ∧ exec (.publication net) s = .next s) ∧
    (∀ d u k pass, findDie s d = some k → k.unitsTest.contains (unitNo u) = true →
      ∃ t k', exec (.selfTestDone (.dieUnit d u) pass) s = .next t ∧ findDie t d = some k' ∧
        k'.unitsTest = k.unitsTest.filter (· != unitNo u) ∧ k'.unitsOff = if pass then k.unitsOff else k.unitsOff ++ [unitNo u]) ∧
    (∀ v w k pass, findDie s (v / 16) = some k → k.waysTest.contains (v, w) = true →
      ∃ t k', exec (.selfTestDone (.sliceWay v w) pass) s = .next t ∧ findDie t (v / 16) = some k' ∧
        k'.waysTest = k.waysTest.filter (· != (v, w)) ∧ k'.waysOff = if pass then k.waysOff else k.waysOff ++ [(v, w)]) ∧
    (∀ q h pa, heldHead q [] s.heldRecs = some h → postRing s q = some pa → ringRoom s h.die pa = true →
      exec (.queueRoomPost q) s = .next (ringPush { s with heldRecs := s.heldRecs.erase h } pa 64 (h.words.flatMap fun w => leBytes 8 w.toNat)))

/-- R82, R93, R100, R321 to R324, R328, R334, R349, R376: a submission whose record cannot be read is refused and a good one accepted; preparation
makes page after page resident; the next cluster is placed whole; a group that has exited retires; a dispatch that is over is reported.
R391 to R396: a request of pre-emption marks the clusters that it covers, a cluster whose groups may be saved is saved where the save pool holds
frames enough and else waits for them, and a saved one goes back to a rectangle. Model's own readings: logs 41, 47, 48, 51, 68. -/
def Obligations.DispatchSteps : Prop :=
  (∀ (s : State),
    (∀ b p t raw u, s.submissions.find? (fun c => c.id == b.id) = some b →
      let s0 := { s with submissions := s.submissions.filter fun c => c.id != b.id }
      let r := overridden raw b.ovr
      let asid := qNum r 30 2 % 4096
      subMigs s b = false → findPart s0 b.part = some p → rdVa s0 ⟨b.part, b.asid, b.ascr, b.die, none⟩ b.recVa 256 = (t, some raw) →
      let d : Dispatch :=
        { id := freshId t (t.dispatches.length + 2) t.nextDisp.toNat, part := b.part, record := r, ascr := (readDescriptor t b.die asid).getD [],
          seed := if (qNum r 28 2).testBit 4 then BitVec.ofNat 64 (qNum r 48 8) else t.seedReg, state := .preparing, sub := b.sub, entry := b.entry,
          signal := b.signal, victim := ((victimOf t b).map (·.id)).getD 0, nextTeam := 0, prepared := 0, waitTag := none, pins := [], preempt := 0,
          preemptFor := 0, nodes := [] }
      (acceptable t b p d = true → (readDescriptor t b.die asid).isSome = true → taskQueueOk t d b.die = (u, true) →
        let v := (wrVa u ⟨b.part, b.asid, b.ascr, b.die, none⟩ (b.recVa + 44) (leBytes 4 d.id)).getD u
        let w := dropConst { v with dispatches := v.dispatches ++ [d], nextDisp := BitVec.ofNat 32 (d.id + 1) } d.id
        exec (.dispatchAccept b.id) s = .next (if leased d then w else startDispatch w d.id)) ∧
      (acceptable t b p d = false ∨ readDescriptor t b.die asid = none →
        exec (.dispatchAccept b.id) s = .next (refuseTo t b.part b.sub b.entry 0)) ∧
      (acceptable t b p d = true → (readDescriptor t b.die asid).isSome = true → taskQueueOk t d b.die = (u, false) →
        exec (.dispatchAccept b.id) s = .next (refuseTo u b.part b.sub b.entry 0))) ∧
    (∀ b t, s.submissions.find? (fun c => c.id == b.id) = some b → subMigs s b = false →
      rdVa { s with submissions := s.submissions.filter fun c => c.id != b.id } ⟨b.part, b.asid, b.ascr, b.die, none⟩ b.recVa 256 = (t, none) →
      exec (.dispatchAccept b.id) s = .next (refuseTo t b.part b.sub b.entry 0)) ∧
    (∀ d, findDisp s d.id = some d → d.state = .preparing → d.waitTag = none →
      ((prepPages d)[d.prepared]? = none → exec (.leasePreparation d.id) s = .next (startDispatch s d.id)) ∧
      (∀ va t pa, (prepPages d)[d.prepared]? = some va → translate s (ctxOf d (partDie s d.part)) va .read = (t, .ok pa) →
        exec (.leasePreparation d.id) s = .next (modDisp t d.id fun d => { d with prepared := d.prepared + 1, pins := d.pins ++ [va] })) ∧
      (∀ va t c, (prepPages d)[d.prepared]? = some va → translate s (ctxOf d (partDie s d.part)) va .read = (t, .fault c) →
        exec (.leasePreparation d.id) s = .next (prepFault t d va c)) ∧
      (∀ va t, (prepPages d)[d.prepared]? = some va → translate s (ctxOf d (partDie s d.part)) va .read = (t, .rem) →
        exec (.leasePreparation d.id) s = .next (refusePrepared t d))) ∧
    (∀ d p t, findDisp s d.id = some d → dispPart s d = some p → mayPlace s d = true → d.nextTeam / max 1 (dispClsize d) < dispNcl d →
      tryRectangles s p (dispClW d) (dispClH d) (placeCluster d (d.nextTeam / max 1 (dispClsize d))) = some t →
      exec (.teamLaunch d.id) s = .next (modDisp { t with clusters := t.clusters ++ [⟨d.id, d.nextTeam / max 1 (dispClsize d), .running, ⟨0, []⟩⟩] } d.id
        fun d => { d with nextTeam := d.nextTeam + dispClsize d })) ∧
    (∀ g t, findGroup s g.id = some g → g.state = .exit → teamOf (retireMember (setGroup s { g with state := .retired }) g) g = some t →
      let u := retireMember (setGroup s { g with state := .retired }) g
      exec (.groupRetire g.id) s = .next (pruneClusters (if teamDone t then retireWindows false u t else u))) ∧
    (∀ d, findDisp (pruneClusters s) d.id = some d → dispatchOver (pruneClusters s) d = true →
      exec (.dispatchEnd d.id) s = .next (reportEnd (freeDispatch (pruneClusters s) d) d))) ∧
  (∀ (s : State) (d : Dispatch), findDisp s d.id = some d →
    (∀ sc, let t := if sc = .all then modDisp s d.id fun d => { d with preempt := 1, preemptFor := 0 } else s
      exec (.preemptionRequest d.id sc) s = .next { t with
        clusters := t.clusters.map fun c => if c.disp = d.id ∧ c.state = .running ∧ covers t sc c then { c with state := .saving } else c }) ∧
    (∀ c, clusterSavable s d.id c = true →
      (framesReady s (frameTeams s d.id c) = true → exec (.clusterSave d.id c) s = .next (saveNow s d.id c)) ∧
      (framesReady s (frameTeams s d.id c) = false → s.poolEmptyPosted = false →
        exec (.clusterSave d.id c) s = .next (notify { s with poolEmptyPosted := true } (partDie s d.part) (.unit (partDie s d.part) unitSched)
          { kind := 0x28, disp := d.id }))) ∧
    (∀ c t, resumeCluster s d.id c = some t → exec (.clusterResume d.id c) s = .next t) ∧
    ((∃ c ∈ s.clusters, clusterSavable s c.disp c.clid = true) →
      (∀ c ∈ s.clusters, clusterSavable s c.disp c.clid = true → framesReady s (frameTeams s c.disp c.clid) = true) →
      s.poolEmptyPosted = true → exec .savePoolFramesArrive s = .next { s with poolEmptyPosted := false }))

/-- R405 to R408: a doorbell, the entries of a queue, each started only when `startable` says so, and a WAIT that is met. A refused entry is skipped and
posted. Model's own readings: logs 21, 22, 27, 49. -/
def Obligations.HostQueueSteps : Prop :=
  ∀ (s : State) (h : HostQueue), powered s = true → findQueue s h.id = some h →
    let x := queueCtx s h
    (∀ t, exec (.qdoor h.id t) s = .next (if t.toNat ≤ h.door.toNat ∨ h.next + ringEntries h < t.toNat then postRefused s h.part (.host h.id) t.toNat 0
      else modQueue s h.id fun h => { h with door := t })) ∧
    (∀ e, startable s h = some e → entryBad e = false →
      let t := markBusy (takeEntry s h) h
      let b : Submission :=
        { id := s.nextId, part := h.part, sub := .host h.id, recVa := va57 (qNum e 8 8), asid := x.asid, ascr := x.ascr, die := x.die,
          sysRight := queueSys h, asidBound := none, entry := h.next, signal := (qNum e 24 8, BitVec.ofNat 64 (qNum e 32 8)), ovr := none,
          preempt := qNum e 16 4 }
      (entryKind e = 1 → exec (.dispatch h.id) s = .next { t with submissions := t.submissions ++ [b], nextId := t.nextId + 1 }) ∧
      (∀ tp u slots, entryKind e = 2 → hostMoves s h = false → playMay s h e = true →
        unitOff s (tapeDie (qNum e 8 2)) .tape = false → qNum e 8 2 < 1024 → ownTape s x.asid (qNum e 8 2) = some tp → playCode (some tp) = 0 →
        hostSlots x (qNum e 16 8) (qNum e 24 4) (List.range 32) s tp.slots = (u, some slots) →
        let v := modTape (markBusy (takeEntry u h) h) (qNum e 8 2) fun t => { t with state := .playing, tokens := [] }
        exec (.hostTapePlay h.id) s = .next (playHost (modQueue v h.id fun k => { k with play := some ⟨qNum e 8 2, 0, slots, h.next, qNum e 32 8, BitVec.ofNat 64 (qNum e 40 8)⟩ }) h.id)) ∧
      (entryKind e = 3 → signalReady s h = none → exec (.signal h.id) s = .next (modQueue t h.id fun k =>
        { k with signals := k.signals ++ [(h.next, va57 (qNum e 8 8), qNum e 16 8, qNum e 24 1)] })) ∧
      (entryKind e = 4 → exec (.wait h.id) s = .next (modQueue t h.id fun k =>
        { k with waiting := some (va57 (qNum e 8 8), qNum e 16 8, qNum e 24 1, h.next) }))) ∧
    (∀ e, startable s h = some e → entryBad e = true →
      exec (.dispatch h.id) s = .next (postRefused (takeEntry s h) h.part (.host h.id) h.next 0)) ∧
    (∀ g, signalReady s h = some g →
      let after (u : State) : State := doneEntry (modQueue u h.id fun k => { k with signals := k.signals.filter (· != g) }) h.id g.1
      (∀ u, g.2.2.2 ≠ 1 → wrVa s x g.2.1 (leBytes 8 g.2.2.1) = some u → exec (.signal h.id) s = .next (after u)) ∧
      (∀ u, g.2.2.2 = 1 → updVa s x g.2.1 8 (fun b => leBytes 8 (ofLeBytes b + g.2.2.1)) = some u → exec (.signal h.id) s = .next (after u)) ∧
      (g.2.2.2 ≠ 1 → wrVa s x g.2.1 (leBytes 8 g.2.2.1) = none →
        exec (.signal h.id) s = .next (after (postRefused s h.part (.host h.id) g.1 0)))) ∧
    (∀ va v cond e t b, h.waiting = some (va, v, cond, e) → rdVa s x va 8 = (t, some b) → (if cond = 0 then ofLeBytes b = v else v ≤ ofLeBytes b) →
      exec (.waitMet h.id) s = .next (doneEntry (modQueue s h.id fun k => { k with waiting := none }) h.id e))

/-- R404, R405, R409 to R416: the requests of the management channel on a device in service, its reads of the capability region and of the counters,
the accesses of the companion processor and of other devices, and the device's own power. STATUS answers in every state; a device that does not accept work takes no other request. Model's own readings: logs 6, 10, 11, 12, 21, 49, 50. -/
def Obligations.ManagementSteps : Prop :=
  ∀ (s : State),
    (s.power = .boot → exec .powerOn s = .next { s with power := if s.bootCode = 0 then .on else .safe (s.bootCode % 8) (s.bootCode / 8) }) ∧
    (∃ t, exec .status s = .next t ∧ t.reply = match s.power with 
      | .safe 5 i => [5, BitVec.ofNat 64 (i % 4), BitVec.ofNat 64 (i / 4)] | .safe c i => [BitVec.ofNat 64 c, BitVec.ofNat 64 i] | _ => [0, 0]) ∧
    (powered s = false →
      (∀ q part a, exec (.qcreate q part a) s = .next s) ∧ (∀ q t, exec (.qdoor q t) s = .next s) ∧
      (∀ q, ∀ i ∈ [Instr.dispatch q, .hostTapePlay q, .signal q, .wait q, .waitMet q], exec i s = .next s) ∧
      (∀ spec, exec (.partcreate spec) s = .next s) ∧ (∀ p, exec (.partdestroy p) s = .next s) ∧ (∀ n, exec (.devnum n) s = .next s) ∧
      (∀ n, exec (.attest n) s = .next s) ∧ (∀ w, exec (.pcap w) s = .next s) ∧ (∀ a, exec (.hostCoherentAccess a) s = .next s) ∧
      ∀ p a, exec (.kflRemoteRequest p a) s = .next s) ∧
    (powered s = true →
      (∀ q part a, (findPart s part).isSome = true → findQueue s q = none → (s.hostQueues.filter fun h => h.part == part).length < 64 →
        let d := hostBytes s (hostPa a.toNat) 128
        let h : HostQueue :=
          { id := q, part := part, descPa := hostPa a.toNat, desc := d, door := BitVec.ofNat 64 (qNum d 16 8), next := qNum d 16 8, busy := [],
            waiting := none, signals := [], play := none, failed := false }
        queueDescOk d = true → exec (.qcreate q part a) s = .next { s with hostQueues := s.hostQueues ++ [h], reply := [0] }) ∧
      (∀ spec, partOk s spec = true → ∃ t p, exec (.partcreate spec) s = .next t ∧ t.partitions = s.partitions ++ [p] ∧ p.id = freePart s ∧
        t.reply = [0, BitVec.ofNat 64 (freePart s)] ∧ p.dies = spec.dies ∧ p.slices = sortNat spec.slices ∧ p.pbase = spec.pbase ∧ p.lent = spec.lent ∧ p.gen = 0 ∧
        p.channels = stackChannels (sortNat spec.hbmStacks) ∧ p.expBase = spec.expBase ∧ p.expLen = spec.expLen) ∧
      (∀ p, (findPart s p).isSome = true →
        let busy := s.dispatches.any (fun d => d.part == p && d.state != .retired) || s.networks.any (fun n => n.state != 0 && n.part == p)
        (busy = true → exec (.partdestroy p) s = .next { s with reply := [1] }) ∧
        (busy = false → ∃ t, exec (.partdestroy p) s = .next t ∧ findPart t p = none ∧ t.reply = [0] ∧ ∀ h ∈ t.hostQueues, h.part ≠ p)) ∧
      (∀ n, exec (.devnum n) s = .next (if n < 1024 then { s with devnum := n, reply := [0] } else { s with reply := [1] })) ∧
      (∀ n, let r := Config.attestBytes 0 [] ++ Config.attestBytes 1 [] ++ fuseBytes s ++ leBytes 48 n.toNat
        exec (.attest n) s = .next { s with reply := (dwordsOf (r ++ padTo 96 (Config.attestBytes 2 r))).map (BitVec.ofNat 64) }) ∧
      (∀ w, exec (.pcap w) s = .next (if w ≤ 2800 then { s with powerCap := w, reply := [0] } else { s with reply := [1] })) ∧
      (∀ n m, 0 < n → n ≤ m → exec (.clockThrottle n m) s = .next { s with clockNum := n, clockDen := m }) ∧
      (∀ d c, ∃ t, exec (.thermalCritical d c) s = .next t ∧ t.power = .safe 5 (d + c * 4) ∧ t.groups = [] ∧ t.dispatches = [] ∧ t.hostQueues = [] ∧
        t.cmds = []) ∧
      (∀ a, manages a = true → exec (.hostCoherentAccess a) s = .next (manageRead s a)) ∧
      (∀ a p, manages a = false → outerOk a = true → (paKind a.addr = 1 ∧ ringPart s a.addr = some p ∨ paKind a.addr ≠ 1 ∧ partOfPa s a.addr = some p) →
        exec (.hostCoherentAccess a) s = .next (outerAccess s p a.addr a)) ∧
      (∀ a p, findPart s p.id = some p → manages a = false → outerOk a = true → a.addr + a.size ≤ p.expLen → isDevPa p (p.expBase + a.addr) = true →
        exec (.kflRemoteRequest p.id a) s = .next (outerAccess s p (p.expBase + a.addr) a)))
end

