-- ==== Sys2Proof/Laws/State.lean ====
section
/-! SUPPORT. What each update of a part of the state leaves: one lemma for each field, true by definition. -/
namespace Sys2Proof.Laws
open Sys2Proof.Machine

@[simp] theorem setGroup_mem (s : State) (g : Group) : (setGroup s g).mem = s.mem := rfl
@[simp] theorem setGroup_dirty (s : State) (g : Group) : (setGroup s g).dirty = s.dirty := rfl
@[simp] theorem setGroup_badWords (s : State) (g : Group) : (setGroup s g).badWords = s.badWords := rfl
@[simp] theorem setGroup_corrWords (s : State) (g : Group) : (setGroup s g).corrWords = s.corrWords := rfl
@[simp] theorem setGroup_tlb (s : State) (g : Group) : (setGroup s g).tlb = s.tlb := rfl
@[simp] theorem setGroup_power (s : State) (g : Group) : (setGroup s g).power = s.power := rfl
@[simp] theorem setGroup_bootCode (s : State) (g : Group) : (setGroup s g).bootCode = s.bootCode := rfl
@[simp] theorem setGroup_clk (s : State) (g : Group) : (setGroup s g).clk = s.clk := rfl
@[simp] theorem setGroup_clockNum (s : State) (g : Group) : (setGroup s g).clockNum = s.clockNum := rfl
@[simp] theorem setGroup_clockDen (s : State) (g : Group) : (setGroup s g).clockDen = s.clockDen := rfl
@[simp] theorem setGroup_powerCap (s : State) (g : Group) : (setGroup s g).powerCap = s.powerCap := rfl
@[simp] theorem setGroup_devnum (s : State) (g : Group) : (setGroup s g).devnum = s.devnum := rfl
@[simp] theorem setGroup_seedReg (s : State) (g : Group) : (setGroup s g).seedReg = s.seedReg := rfl
@[simp] theorem setGroup_astab (s : State) (g : Group) : (setGroup s g).astab = s.astab := rfl
@[simp] theorem setGroup_sysnq (s : State) (g : Group) : (setGroup s g).sysnq = s.sysnq := rfl
@[simp] theorem setGroup_sysfq (s : State) (g : Group) : (setGroup s g).sysfq = s.sysfq := rfl
@[simp] theorem setGroup_savepool (s : State) (g : Group) : (setGroup s g).savepool = s.savepool := rfl
@[simp] theorem setGroup_poolEmptyPosted (s : State) (g : Group) : (setGroup s g).poolEmptyPosted = s.poolEmptyPosted := rfl
@[simp] theorem setGroup_collgrp (s : State) (g : Group) : (setGroup s g).collgrp = s.collgrp := rfl
@[simp] theorem setGroup_collSeq (s : State) (g : Group) : (setGroup s g).collSeq = s.collSeq := rfl
@[simp] theorem setGroup_dies (s : State) (g : Group) : (setGroup s g).dies = s.dies := rfl
@[simp] theorem setGroup_cores (s : State) (g : Group) : (setGroup s g).cores = s.cores := rfl
@[simp] theorem setGroup_partitions (s : State) (g : Group) : (setGroup s g).partitions = s.partitions := rfl
@[simp] theorem setGroup_dispatches (s : State) (g : Group) : (setGroup s g).dispatches = s.dispatches := rfl
@[simp] theorem setGroup_nextDisp (s : State) (g : Group) : (setGroup s g).nextDisp = s.nextDisp := rfl
@[simp] theorem setGroup_clusters (s : State) (g : Group) : (setGroup s g).clusters = s.clusters := rfl
@[simp] theorem setGroup_teams (s : State) (g : Group) : (setGroup s g).teams = s.teams := rfl
@[simp] theorem setGroup_cmds (s : State) (g : Group) : (setGroup s g).cmds = s.cmds := rfl
@[simp] theorem setGroup_sessions (s : State) (g : Group) : (setGroup s g).sessions = s.sessions := rfl
@[simp] theorem setGroup_networks (s : State) (g : Group) : (setGroup s g).networks = s.networks := rfl
@[simp] theorem setGroup_hostQueues (s : State) (g : Group) : (setGroup s g).hostQueues = s.hostQueues := rfl
@[simp] theorem setGroup_submissions (s : State) (g : Group) : (setGroup s g).submissions = s.submissions := rfl
@[simp] theorem setGroup_faults (s : State) (g : Group) : (setGroup s g).faults = s.faults := rfl
@[simp] theorem setGroup_heldRecs (s : State) (g : Group) : (setGroup s g).heldRecs = s.heldRecs := rfl
@[simp] theorem setGroup_sysOps (s : State) (g : Group) : (setGroup s g).sysOps = s.sysOps := rfl
@[simp] theorem setGroup_sweeping (s : State) (g : Group) : (setGroup s g).sweeping = s.sweeping := rfl
@[simp] theorem setGroup_nextTag (s : State) (g : Group) : (setGroup s g).nextTag = s.nextTag := rfl
@[simp] theorem setGroup_nextId (s : State) (g : Group) : (setGroup s g).nextId = s.nextId := rfl
@[simp] theorem setGroup_reply (s : State) (g : Group) : (setGroup s g).reply = s.reply := rfl
@[simp] theorem setGroup_cur (s : State) (g : Group) : (setGroup s g).cur = s.cur := rfl
@[simp] theorem setGroup_joined (s : State) (g : Group) : (setGroup s g).joined = s.joined := rfl
@[simp] theorem setGroup_issueSeq (s : State) (g : Group) : (setGroup s g).issueSeq = s.issueSeq := rfl
@[simp] theorem setGroup_memSeq (s : State) (g : Group) : (setGroup s g).memSeq = s.memSeq := rfl
@[simp] theorem setGroup_wtime (s : State) (g : Group) : (setGroup s g).wtime = s.wtime := rfl
@[simp] theorem setGroup_agenda (s : State) (g : Group) : (setGroup s g).agenda = s.agenda := rfl
@[simp] theorem setGroup_oracle (s : State) (g : Group) : (setGroup s g).oracle = s.oracle := rfl
@[simp] theorem setGroup_capptr (s : State) (g : Group) : (setGroup s g).capptr = s.capptr := rfl
@[simp] theorem setGroup_freeCount (s : State) (g : Group) : (setGroup s g).freeCount = s.freeCount := rfl

@[simp] theorem modGroup_mem (s : State) (n : Nat) (f : Group → Group) : (modGroup s n f).mem = s.mem := rfl
@[simp] theorem modGroup_dirty (s : State) (n : Nat) (f : Group → Group) : (modGroup s n f).dirty = s.dirty := rfl
@[simp] theorem modGroup_badWords (s : State) (n : Nat) (f : Group → Group) : (modGroup s n f).badWords = s.badWords := rfl
@[simp] theorem modGroup_corrWords (s : State) (n : Nat) (f : Group → Group) : (modGroup s n f).corrWords = s.corrWords := rfl
@[simp] theorem modGroup_tlb (s : State) (n : Nat) (f : Group → Group) : (modGroup s n f).tlb = s.tlb := rfl
@[simp] theorem modGroup_power (s : State) (n : Nat) (f : Group → Group) : (modGroup s n f).power = s.power := rfl
@[simp] theorem modGroup_bootCode (s : State) (n : Nat) (f : Group → Group) : (modGroup s n f).bootCode = s.bootCode := rfl
@[simp] theorem modGroup_clk (s : State) (n : Nat) (f : Group → Group) : (modGroup s n f).clk = s.clk := rfl
@[simp] theorem modGroup_clockNum (s : State) (n : Nat) (f : Group → Group) : (modGroup s n f).clockNum = s.clockNum := rfl
@[simp] theorem modGroup_clockDen (s : State) (n : Nat) (f : Group → Group) : (modGroup s n f).clockDen = s.clockDen := rfl
@[simp] theorem modGroup_powerCap (s : State) (n : Nat) (f : Group → Group) : (modGroup s n f).powerCap = s.powerCap := rfl
@[simp] theorem modGroup_devnum (s : State) (n : Nat) (f : Group → Group) : (modGroup s n f).devnum = s.devnum := rfl
@[simp] theorem modGroup_seedReg (s : State) (n : Nat) (f : Group → Group) : (modGroup s n f).seedReg = s.seedReg := rfl
@[simp] theorem modGroup_astab (s : State) (n : Nat) (f : Group → Group) : (modGroup s n f).astab = s.astab := rfl
@[simp] theorem modGroup_sysnq (s : State) (n : Nat) (f : Group → Group) : (modGroup s n f).sysnq = s.sysnq := rfl
@[simp] theorem modGroup_sysfq (s : State) (n : Nat) (f : Group → Group) : (modGroup s n f).sysfq = s.sysfq := rfl
@[simp] theorem modGroup_savepool (s : State) (n : Nat) (f : Group → Group) : (modGroup s n f).savepool = s.savepool := rfl
@[simp] theorem modGroup_poolEmptyPosted (s : State) (n : Nat) (f : Group → Group) : (modGroup s n f).poolEmptyPosted = s.poolEmptyPosted := rfl
@[simp] theorem modGroup_collgrp (s : State) (n : Nat) (f : Group → Group) : (modGroup s n f).collgrp = s.collgrp := rfl
@[simp] theorem modGroup_collSeq (s : State) (n : Nat) (f : Group → Group) : (modGroup s n f).collSeq = s.collSeq := rfl
@[simp] theorem modGroup_dies (s : State) (n : Nat) (f : Group → Group) : (modGroup s n f).dies = s.dies := rfl
@[simp] theorem modGroup_cores (s : State) (n : Nat) (f : Group → Group) : (modGroup s n f).cores = s.cores := rfl
@[simp] theorem modGroup_partitions (s : State) (n : Nat) (f : Group → Group) : (modGroup s n f).partitions = s.partitions := rfl
@[simp] theorem modGroup_dispatches (s : State) (n : Nat) (f : Group → Group) : (modGroup s n f).dispatches = s.dispatches := rfl
@[simp] theorem modGroup_nextDisp (s : State) (n : Nat) (f : Group → Group) : (modGroup s n f).nextDisp = s.nextDisp := rfl
@[simp] theorem modGroup_clusters (s : State) (n : Nat) (f : Group → Group) : (modGroup s n f).clusters = s.clusters := rfl
@[simp] theorem modGroup_teams (s : State) (n : Nat) (f : Group → Group) : (modGroup s n f).teams = s.teams := rfl
@[simp] theorem modGroup_cmds (s : State) (n : Nat) (f : Group → Group) : (modGroup s n f).cmds = s.cmds := rfl
@[simp] theorem modGroup_sessions (s : State) (n : Nat) (f : Group → Group) : (modGroup s n f).sessions = s.sessions := rfl
@[simp] theorem modGroup_networks (s : State) (n : Nat) (f : Group → Group) : (modGroup s n f).networks = s.networks := rfl
@[simp] theorem modGroup_hostQueues (s : State) (n : Nat) (f : Group → Group) : (modGroup s n f).hostQueues = s.hostQueues := rfl
@[simp] theorem modGroup_submissions (s : State) (n : Nat) (f : Group → Group) : (modGroup s n f).submissions = s.submissions := rfl
@[simp] theorem modGroup_faults (s : State) (n : Nat) (f : Group → Group) : (modGroup s n f).faults = s.faults := rfl
@[simp] theorem modGroup_heldRecs (s : State) (n : Nat) (f : Group → Group) : (modGroup s n f).heldRecs = s.heldRecs := rfl
@[simp] theorem modGroup_sysOps (s : State) (n : Nat) (f : Group → Group) : (modGroup s n f).sysOps = s.sysOps := rfl
@[simp] theorem modGroup_sweeping (s : State) (n : Nat) (f : Group → Group) : (modGroup s n f).sweeping = s.sweeping := rfl
@[simp] theorem modGroup_nextTag (s : State) (n : Nat) (f : Group → Group) : (modGroup s n f).nextTag = s.nextTag := rfl
@[simp] theorem modGroup_nextId (s : State) (n : Nat) (f : Group → Group) : (modGroup s n f).nextId = s.nextId := rfl
@[simp] theorem modGroup_reply (s : State) (n : Nat) (f : Group → Group) : (modGroup s n f).reply = s.reply := rfl
@[simp] theorem modGroup_cur (s : State) (n : Nat) (f : Group → Group) : (modGroup s n f).cur = s.cur := rfl
@[simp] theorem modGroup_joined (s : State) (n : Nat) (f : Group → Group) : (modGroup s n f).joined = s.joined := rfl
@[simp] theorem modGroup_issueSeq (s : State) (n : Nat) (f : Group → Group) : (modGroup s n f).issueSeq = s.issueSeq := rfl
@[simp] theorem modGroup_memSeq (s : State) (n : Nat) (f : Group → Group) : (modGroup s n f).memSeq = s.memSeq := rfl
@[simp] theorem modGroup_wtime (s : State) (n : Nat) (f : Group → Group) : (modGroup s n f).wtime = s.wtime := rfl
@[simp] theorem modGroup_agenda (s : State) (n : Nat) (f : Group → Group) : (modGroup s n f).agenda = s.agenda := rfl
@[simp] theorem modGroup_oracle (s : State) (n : Nat) (f : Group → Group) : (modGroup s n f).oracle = s.oracle := rfl
@[simp] theorem modGroup_capptr (s : State) (n : Nat) (f : Group → Group) : (modGroup s n f).capptr = s.capptr := rfl
@[simp] theorem modGroup_freeCount (s : State) (n : Nat) (f : Group → Group) : (modGroup s n f).freeCount = s.freeCount := rfl

@[simp] theorem modCore_mem (s : State) (n : Nat) (f : Core → Core) : (modCore s n f).mem = s.mem := rfl
@[simp] theorem modCore_dirty (s : State) (n : Nat) (f : Core → Core) : (modCore s n f).dirty = s.dirty := rfl
@[simp] theorem modCore_badWords (s : State) (n : Nat) (f : Core → Core) : (modCore s n f).badWords = s.badWords := rfl
@[simp] theorem modCore_corrWords (s : State) (n : Nat) (f : Core → Core) : (modCore s n f).corrWords = s.corrWords := rfl
@[simp] theorem modCore_tlb (s : State) (n : Nat) (f : Core → Core) : (modCore s n f).tlb = s.tlb := rfl
@[simp] theorem modCore_power (s : State) (n : Nat) (f : Core → Core) : (modCore s n f).power = s.power := rfl
@[simp] theorem modCore_bootCode (s : State) (n : Nat) (f : Core → Core) : (modCore s n f).bootCode = s.bootCode := rfl
@[simp] theorem modCore_clk (s : State) (n : Nat) (f : Core → Core) : (modCore s n f).clk = s.clk := rfl
@[simp] theorem modCore_clockNum (s : State) (n : Nat) (f : Core → Core) : (modCore s n f).clockNum = s.clockNum := rfl
@[simp] theorem modCore_clockDen (s : State) (n : Nat) (f : Core → Core) : (modCore s n f).clockDen = s.clockDen := rfl
@[simp] theorem modCore_powerCap (s : State) (n : Nat) (f : Core → Core) : (modCore s n f).powerCap = s.powerCap := rfl
@[simp] theorem modCore_devnum (s : State) (n : Nat) (f : Core → Core) : (modCore s n f).devnum = s.devnum := rfl
@[simp] theorem modCore_seedReg (s : State) (n : Nat) (f : Core → Core) : (modCore s n f).seedReg = s.seedReg := rfl
@[simp] theorem modCore_astab (s : State) (n : Nat) (f : Core → Core) : (modCore s n f).astab = s.astab := rfl
@[simp] theorem modCore_sysnq (s : State) (n : Nat) (f : Core → Core) : (modCore s n f).sysnq = s.sysnq := rfl
@[simp] theorem modCore_sysfq (s : State) (n : Nat) (f : Core → Core) : (modCore s n f).sysfq = s.sysfq := rfl
@[simp] theorem modCore_savepool (s : State) (n : Nat) (f : Core → Core) : (modCore s n f).savepool = s.savepool := rfl
@[simp] theorem modCore_poolEmptyPosted (s : State) (n : Nat) (f : Core → Core) : (modCore s n f).poolEmptyPosted = s.poolEmptyPosted := rfl
@[simp] theorem modCore_collgrp (s : State) (n : Nat) (f : Core → Core) : (modCore s n f).collgrp = s.collgrp := rfl
@[simp] theorem modCore_collSeq (s : State) (n : Nat) (f : Core → Core) : (modCore s n f).collSeq = s.collSeq := rfl
@[simp] theorem modCore_dies (s : State) (n : Nat) (f : Core → Core) : (modCore s n f).dies = s.dies := rfl
@[simp] theorem modCore_partitions (s : State) (n : Nat) (f : Core → Core) : (modCore s n f).partitions = s.partitions := rfl
@[simp] theorem modCore_dispatches (s : State) (n : Nat) (f : Core → Core) : (modCore s n f).dispatches = s.dispatches := rfl
@[simp] theorem modCore_nextDisp (s : State) (n : Nat) (f : Core → Core) : (modCore s n f).nextDisp = s.nextDisp := rfl
@[simp] theorem modCore_clusters (s : State) (n : Nat) (f : Core → Core) : (modCore s n f).clusters = s.clusters := rfl
@[simp] theorem modCore_teams (s : State) (n : Nat) (f : Core → Core) : (modCore s n f).teams = s.teams := rfl
@[simp] theorem modCore_groups (s : State) (n : Nat) (f : Core → Core) : (modCore s n f).groups = s.groups := rfl
@[simp] theorem modCore_cmds (s : State) (n : Nat) (f : Core → Core) : (modCore s n f).cmds = s.cmds := rfl
@[simp] theorem modCore_sessions (s : State) (n : Nat) (f : Core → Core) : (modCore s n f).sessions = s.sessions := rfl
@[simp] theorem modCore_networks (s : State) (n : Nat) (f : Core → Core) : (modCore s n f).networks = s.networks := rfl
@[simp] theorem modCore_hostQueues (s : State) (n : Nat) (f : Core → Core) : (modCore s n f).hostQueues = s.hostQueues := rfl
@[simp] theorem modCore_submissions (s : State) (n : Nat) (f : Core → Core) : (modCore s n f).submissions = s.submissions := rfl
@[simp] theorem modCore_faults (s : State) (n : Nat) (f : Core → Core) : (modCore s n f).faults = s.faults := rfl
@[simp] theorem modCore_heldRecs (s : State) (n : Nat) (f : Core → Core) : (modCore s n f).heldRecs = s.heldRecs := rfl
@[simp] theorem modCore_sysOps (s : State) (n : Nat) (f : Core → Core) : (modCore s n f).sysOps = s.sysOps := rfl
@[simp] theorem modCore_sweeping (s : State) (n : Nat) (f : Core → Core) : (modCore s n f).sweeping = s.sweeping := rfl
@[simp] theorem modCore_nextTag (s : State) (n : Nat) (f : Core → Core) : (modCore s n f).nextTag = s.nextTag := rfl
@[simp] theorem modCore_nextId (s : State) (n : Nat) (f : Core → Core) : (modCore s n f).nextId = s.nextId := rfl
@[simp] theorem modCore_reply (s : State) (n : Nat) (f : Core → Core) : (modCore s n f).reply = s.reply := rfl
@[simp] theorem modCore_cur (s : State) (n : Nat) (f : Core → Core) : (modCore s n f).cur = s.cur := rfl
@[simp] theorem modCore_joined (s : State) (n : Nat) (f : Core → Core) : (modCore s n f).joined = s.joined := rfl
@[simp] theorem modCore_issueSeq (s : State) (n : Nat) (f : Core → Core) : (modCore s n f).issueSeq = s.issueSeq := rfl
@[simp] theorem modCore_memSeq (s : State) (n : Nat) (f : Core → Core) : (modCore s n f).memSeq = s.memSeq := rfl
@[simp] theorem modCore_wtime (s : State) (n : Nat) (f : Core → Core) : (modCore s n f).wtime = s.wtime := rfl
@[simp] theorem modCore_agenda (s : State) (n : Nat) (f : Core → Core) : (modCore s n f).agenda = s.agenda := rfl
@[simp] theorem modCore_oracle (s : State) (n : Nat) (f : Core → Core) : (modCore s n f).oracle = s.oracle := rfl
@[simp] theorem modCore_capptr (s : State) (n : Nat) (f : Core → Core) : (modCore s n f).capptr = s.capptr := rfl
@[simp] theorem modCore_freeCount (s : State) (n : Nat) (f : Core → Core) : (modCore s n f).freeCount = s.freeCount := rfl

@[simp] theorem modDie_mem (s : State) (n : Nat) (f : Die → Die) : (modDie s n f).mem = s.mem := rfl
@[simp] theorem modDie_dirty (s : State) (n : Nat) (f : Die → Die) : (modDie s n f).dirty = s.dirty := rfl
@[simp] theorem modDie_badWords (s : State) (n : Nat) (f : Die → Die) : (modDie s n f).badWords = s.badWords := rfl
@[simp] theorem modDie_corrWords (s : State) (n : Nat) (f : Die → Die) : (modDie s n f).corrWords = s.corrWords := rfl
@[simp] theorem modDie_tlb (s : State) (n : Nat) (f : Die → Die) : (modDie s n f).tlb = s.tlb := rfl
@[simp] theorem modDie_power (s : State) (n : Nat) (f : Die → Die) : (modDie s n f).power = s.power := rfl
@[simp] theorem modDie_bootCode (s : State) (n : Nat) (f : Die → Die) : (modDie s n f).bootCode = s.bootCode := rfl
@[simp] theorem modDie_clk (s : State) (n : Nat) (f : Die → Die) : (modDie s n f).clk = s.clk := rfl
@[simp] theorem modDie_clockNum (s : State) (n : Nat) (f : Die → Die) : (modDie s n f).clockNum = s.clockNum := rfl
@[simp] theorem modDie_clockDen (s : State) (n : Nat) (f : Die → Die) : (modDie s n f).clockDen = s.clockDen := rfl
@[simp] theorem modDie_powerCap (s : State) (n : Nat) (f : Die → Die) : (modDie s n f).powerCap = s.powerCap := rfl
@[simp] theorem modDie_devnum (s : State) (n : Nat) (f : Die → Die) : (modDie s n f).devnum = s.devnum := rfl
@[simp] theorem modDie_seedReg (s : State) (n : Nat) (f : Die → Die) : (modDie s n f).seedReg = s.seedReg := rfl
@[simp] theorem modDie_astab (s : State) (n : Nat) (f : Die → Die) : (modDie s n f).astab = s.astab := rfl
@[simp] theorem modDie_sysnq (s : State) (n : Nat) (f : Die → Die) : (modDie s n f).sysnq = s.sysnq := rfl
@[simp] theorem modDie_sysfq (s : State) (n : Nat) (f : Die → Die) : (modDie s n f).sysfq = s.sysfq := rfl
@[simp] theorem modDie_savepool (s : State) (n : Nat) (f : Die → Die) : (modDie s n f).savepool = s.savepool := rfl
@[simp] theorem modDie_poolEmptyPosted (s : State) (n : Nat) (f : Die → Die) : (modDie s n f).poolEmptyPosted = s.poolEmptyPosted := rfl
@[simp] theorem modDie_collgrp (s : State) (n : Nat) (f : Die → Die) : (modDie s n f).collgrp = s.collgrp := rfl
@[simp] theorem modDie_collSeq (s : State) (n : Nat) (f : Die → Die) : (modDie s n f).collSeq = s.collSeq := rfl
@[simp] theorem modDie_cores (s : State) (n : Nat) (f : Die → Die) : (modDie s n f).cores = s.cores := rfl
@[simp] theorem modDie_partitions (s : State) (n : Nat) (f : Die → Die) : (modDie s n f).partitions = s.partitions := rfl
@[simp] theorem modDie_dispatches (s : State) (n : Nat) (f : Die → Die) : (modDie s n f).dispatches = s.dispatches := rfl
@[simp] theorem modDie_nextDisp (s : State) (n : Nat) (f : Die → Die) : (modDie s n f).nextDisp = s.nextDisp := rfl
@[simp] theorem modDie_clusters (s : State) (n : Nat) (f : Die → Die) : (modDie s n f).clusters = s.clusters := rfl
@[simp] theorem modDie_teams (s : State) (n : Nat) (f : Die → Die) : (modDie s n f).teams = s.teams := rfl
@[simp] theorem modDie_groups (s : State) (n : Nat) (f : Die → Die) : (modDie s n f).groups = s.groups := rfl
@[simp] theorem modDie_cmds (s : State) (n : Nat) (f : Die → Die) : (modDie s n f).cmds = s.cmds := rfl
@[simp] theorem modDie_sessions (s : State) (n : Nat) (f : Die → Die) : (modDie s n f).sessions = s.sessions := rfl
@[simp] theorem modDie_networks (s : State) (n : Nat) (f : Die → Die) : (modDie s n f).networks = s.networks := rfl
@[simp] theorem modDie_hostQueues (s : State) (n : Nat) (f : Die → Die) : (modDie s n f).hostQueues = s.hostQueues := rfl
@[simp] theorem modDie_submissions (s : State) (n : Nat) (f : Die → Die) : (modDie s n f).submissions = s.submissions := rfl
@[simp] theorem modDie_faults (s : State) (n : Nat) (f : Die → Die) : (modDie s n f).faults = s.faults := rfl
@[simp] theorem modDie_heldRecs (s : State) (n : Nat) (f : Die → Die) : (modDie s n f).heldRecs = s.heldRecs := rfl
@[simp] theorem modDie_sysOps (s : State) (n : Nat) (f : Die → Die) : (modDie s n f).sysOps = s.sysOps := rfl
@[simp] theorem modDie_sweeping (s : State) (n : Nat) (f : Die → Die) : (modDie s n f).sweeping = s.sweeping := rfl
@[simp] theorem modDie_nextTag (s : State) (n : Nat) (f : Die → Die) : (modDie s n f).nextTag = s.nextTag := rfl
@[simp] theorem modDie_nextId (s : State) (n : Nat) (f : Die → Die) : (modDie s n f).nextId = s.nextId := rfl
@[simp] theorem modDie_reply (s : State) (n : Nat) (f : Die → Die) : (modDie s n f).reply = s.reply := rfl
@[simp] theorem modDie_cur (s : State) (n : Nat) (f : Die → Die) : (modDie s n f).cur = s.cur := rfl
@[simp] theorem modDie_joined (s : State) (n : Nat) (f : Die → Die) : (modDie s n f).joined = s.joined := rfl
@[simp] theorem modDie_issueSeq (s : State) (n : Nat) (f : Die → Die) : (modDie s n f).issueSeq = s.issueSeq := rfl
@[simp] theorem modDie_memSeq (s : State) (n : Nat) (f : Die → Die) : (modDie s n f).memSeq = s.memSeq := rfl
@[simp] theorem modDie_wtime (s : State) (n : Nat) (f : Die → Die) : (modDie s n f).wtime = s.wtime := rfl
@[simp] theorem modDie_agenda (s : State) (n : Nat) (f : Die → Die) : (modDie s n f).agenda = s.agenda := rfl
@[simp] theorem modDie_oracle (s : State) (n : Nat) (f : Die → Die) : (modDie s n f).oracle = s.oracle := rfl
@[simp] theorem modDie_capptr (s : State) (n : Nat) (f : Die → Die) : (modDie s n f).capptr = s.capptr := rfl
@[simp] theorem modDie_freeCount (s : State) (n : Nat) (f : Die → Die) : (modDie s n f).freeCount = s.freeCount := rfl

@[simp] theorem modTeam_mem (s : State) (n m : Nat) (f : Team → Team) : (modTeam s n m f).mem = s.mem := rfl
@[simp] theorem modTeam_dirty (s : State) (n m : Nat) (f : Team → Team) : (modTeam s n m f).dirty = s.dirty := rfl
@[simp] theorem modTeam_badWords (s : State) (n m : Nat) (f : Team → Team) : (modTeam s n m f).badWords = s.badWords := rfl
@[simp] theorem modTeam_corrWords (s : State) (n m : Nat) (f : Team → Team) : (modTeam s n m f).corrWords = s.corrWords := rfl
@[simp] theorem modTeam_tlb (s : State) (n m : Nat) (f : Team → Team) : (modTeam s n m f).tlb = s.tlb := rfl
@[simp] theorem modTeam_power (s : State) (n m : Nat) (f : Team → Team) : (modTeam s n m f).power = s.power := rfl
@[simp] theorem modTeam_bootCode (s : State) (n m : Nat) (f : Team → Team) : (modTeam s n m f).bootCode = s.bootCode := rfl
@[simp] theorem modTeam_clk (s : State) (n m : Nat) (f : Team → Team) : (modTeam s n m f).clk = s.clk := rfl
@[simp] theorem modTeam_clockNum (s : State) (n m : Nat) (f : Team → Team) : (modTeam s n m f).clockNum = s.clockNum := rfl
@[simp] theorem modTeam_clockDen (s : State) (n m : Nat) (f : Team → Team) : (modTeam s n m f).clockDen = s.clockDen := rfl
@[simp] theorem modTeam_powerCap (s : State) (n m : Nat) (f : Team → Team) : (modTeam s n m f).powerCap = s.powerCap := rfl
@[simp] theorem modTeam_devnum (s : State) (n m : Nat) (f : Team → Team) : (modTeam s n m f).devnum = s.devnum := rfl
@[simp] theorem modTeam_seedReg (s : State) (n m : Nat) (f : Team → Team) : (modTeam s n m f).seedReg = s.seedReg := rfl
@[simp] theorem modTeam_astab (s : State) (n m : Nat) (f : Team → Team) : (modTeam s n m f).astab = s.astab := rfl
@[simp] theorem modTeam_sysnq (s : State) (n m : Nat) (f : Team → Team) : (modTeam s n m f).sysnq = s.sysnq := rfl
@[simp] theorem modTeam_sysfq (s : State) (n m : Nat) (f : Team → Team) : (modTeam s n m f).sysfq = s.sysfq := rfl
@[simp] theorem modTeam_savepool (s : State) (n m : Nat) (f : Team → Team) : (modTeam s n m f).savepool = s.savepool := rfl
@[simp] theorem modTeam_poolEmptyPosted (s : State) (n m : Nat) (f : Team → Team) : (modTeam s n m f).poolEmptyPosted = s.poolEmptyPosted := rfl
@[simp] theorem modTeam_collgrp (s : State) (n m : Nat) (f : Team → Team) : (modTeam s n m f).collgrp = s.collgrp := rfl
@[simp] theorem modTeam_collSeq (s : State) (n m : Nat) (f : Team → Team) : (modTeam s n m f).collSeq = s.collSeq := rfl
@[simp] theorem modTeam_dies (s : State) (n m : Nat) (f : Team → Team) : (modTeam s n m f).dies = s.dies := rfl
@[simp] theorem modTeam_cores (s : State) (n m : Nat) (f : Team → Team) : (modTeam s n m f).cores = s.cores := rfl
@[simp] theorem modTeam_partitions (s : State) (n m : Nat) (f : Team → Team) : (modTeam s n m f).partitions = s.partitions := rfl
@[simp] theorem modTeam_dispatches (s : State) (n m : Nat) (f : Team → Team) : (modTeam s n m f).dispatches = s.dispatches := rfl
@[simp] theorem modTeam_nextDisp (s : State) (n m : Nat) (f : Team → Team) : (modTeam s n m f).nextDisp = s.nextDisp := rfl
@[simp] theorem modTeam_clusters (s : State) (n m : Nat) (f : Team → Team) : (modTeam s n m f).clusters = s.clusters := rfl
@[simp] theorem modTeam_groups (s : State) (n m : Nat) (f : Team → Team) : (modTeam s n m f).groups = s.groups := rfl
@[simp] theorem modTeam_cmds (s : State) (n m : Nat) (f : Team → Team) : (modTeam s n m f).cmds = s.cmds := rfl
@[simp] theorem modTeam_sessions (s : State) (n m : Nat) (f : Team → Team) : (modTeam s n m f).sessions = s.sessions := rfl
@[simp] theorem modTeam_networks (s : State) (n m : Nat) (f : Team → Team) : (modTeam s n m f).networks = s.networks := rfl
@[simp] theorem modTeam_hostQueues (s : State) (n m : Nat) (f : Team → Team) : (modTeam s n m f).hostQueues = s.hostQueues := rfl
@[simp] theorem modTeam_submissions (s : State) (n m : Nat) (f : Team → Team) : (modTeam s n m f).submissions = s.submissions := rfl
@[simp] theorem modTeam_faults (s : State) (n m : Nat) (f : Team → Team) : (modTeam s n m f).faults = s.faults := rfl
@[simp] theorem modTeam_heldRecs (s : State) (n m : Nat) (f : Team → Team) : (modTeam s n m f).heldRecs = s.heldRecs := rfl
@[simp] theorem modTeam_sysOps (s : State) (n m : Nat) (f : Team → Team) : (modTeam s n m f).sysOps = s.sysOps := rfl
@[simp] theorem modTeam_sweeping (s : State) (n m : Nat) (f : Team → Team) : (modTeam s n m f).sweeping = s.sweeping := rfl
@[simp] theorem modTeam_nextTag (s : State) (n m : Nat) (f : Team → Team) : (modTeam s n m f).nextTag = s.nextTag := rfl
@[simp] theorem modTeam_nextId (s : State) (n m : Nat) (f : Team → Team) : (modTeam s n m f).nextId = s.nextId := rfl
@[simp] theorem modTeam_reply (s : State) (n m : Nat) (f : Team → Team) : (modTeam s n m f).reply = s.reply := rfl
@[simp] theorem modTeam_cur (s : State) (n m : Nat) (f : Team → Team) : (modTeam s n m f).cur = s.cur := rfl
@[simp] theorem modTeam_joined (s : State) (n m : Nat) (f : Team → Team) : (modTeam s n m f).joined = s.joined := rfl
@[simp] theorem modTeam_issueSeq (s : State) (n m : Nat) (f : Team → Team) : (modTeam s n m f).issueSeq = s.issueSeq := rfl
@[simp] theorem modTeam_memSeq (s : State) (n m : Nat) (f : Team → Team) : (modTeam s n m f).memSeq = s.memSeq := rfl
@[simp] theorem modTeam_wtime (s : State) (n m : Nat) (f : Team → Team) : (modTeam s n m f).wtime = s.wtime := rfl
@[simp] theorem modTeam_agenda (s : State) (n m : Nat) (f : Team → Team) : (modTeam s n m f).agenda = s.agenda := rfl
@[simp] theorem modTeam_oracle (s : State) (n m : Nat) (f : Team → Team) : (modTeam s n m f).oracle = s.oracle := rfl
@[simp] theorem modTeam_capptr (s : State) (n m : Nat) (f : Team → Team) : (modTeam s n m f).capptr = s.capptr := rfl
@[simp] theorem modTeam_freeCount (s : State) (n m : Nat) (f : Team → Team) : (modTeam s n m f).freeCount = s.freeCount := rfl

@[simp] theorem modTeamOf_mem (s : State) (g : Group) (f : Team → Team) : (modTeamOf s g f).mem = s.mem := rfl
@[simp] theorem modTeamOf_dirty (s : State) (g : Group) (f : Team → Team) : (modTeamOf s g f).dirty = s.dirty := rfl
@[simp] theorem modTeamOf_badWords (s : State) (g : Group) (f : Team → Team) : (modTeamOf s g f).badWords = s.badWords := rfl
@[simp] theorem modTeamOf_corrWords (s : State) (g : Group) (f : Team → Team) : (modTeamOf s g f).corrWords = s.corrWords := rfl
@[simp] theorem modTeamOf_tlb (s : State) (g : Group) (f : Team → Team) : (modTeamOf s g f).tlb = s.tlb := rfl
@[simp] theorem modTeamOf_power (s : State) (g : Group) (f : Team → Team) : (modTeamOf s g f).power = s.power := rfl
@[simp] theorem modTeamOf_bootCode (s : State) (g : Group) (f : Team → Team) : (modTeamOf s g f).bootCode = s.bootCode := rfl
@[simp] theorem modTeamOf_clk (s : State) (g : Group) (f : Team → Team) : (modTeamOf s g f).clk = s.clk := rfl
@[simp] theorem modTeamOf_clockNum (s : State) (g : Group) (f : Team → Team) : (modTeamOf s g f).clockNum = s.clockNum := rfl
@[simp] theorem modTeamOf_clockDen (s : State) (g : Group) (f : Team → Team) : (modTeamOf s g f).clockDen = s.clockDen := rfl
@[simp] theorem modTeamOf_powerCap (s : State) (g : Group) (f : Team → Team) : (modTeamOf s g f).powerCap = s.powerCap := rfl
@[simp] theorem modTeamOf_devnum (s : State) (g : Group) (f : Team → Team) : (modTeamOf s g f).devnum = s.devnum := rfl
@[simp] theorem modTeamOf_seedReg (s : State) (g : Group) (f : Team → Team) : (modTeamOf s g f).seedReg = s.seedReg := rfl
@[simp] theorem modTeamOf_astab (s : State) (g : Group) (f : Team → Team) : (modTeamOf s g f).astab = s.astab := rfl
@[simp] theorem modTeamOf_sysnq (s : State) (g : Group) (f : Team → Team) : (modTeamOf s g f).sysnq = s.sysnq := rfl
@[simp] theorem modTeamOf_sysfq (s : State) (g : Group) (f : Team → Team) : (modTeamOf s g f).sysfq = s.sysfq := rfl
@[simp] theorem modTeamOf_savepool (s : State) (g : Group) (f : Team → Team) : (modTeamOf s g f).savepool = s.savepool := rfl
@[simp] theorem modTeamOf_poolEmptyPosted (s : State) (g : Group) (f : Team → Team) : (modTeamOf s g f).poolEmptyPosted = s.poolEmptyPosted := rfl
@[simp] theorem modTeamOf_collgrp (s : State) (g : Group) (f : Team → Team) : (modTeamOf s g f).collgrp = s.collgrp := rfl
@[simp] theorem modTeamOf_collSeq (s : State) (g : Group) (f : Team → Team) : (modTeamOf s g f).collSeq = s.collSeq := rfl
@[simp] theorem modTeamOf_dies (s : State) (g : Group) (f : Team → Team) : (modTeamOf s g f).dies = s.dies := rfl
@[simp] theorem modTeamOf_cores (s : State) (g : Group) (f : Team → Team) : (modTeamOf s g f).cores = s.cores := rfl
@[simp] theorem modTeamOf_partitions (s : State) (g : Group) (f : Team → Team) : (modTeamOf s g f).partitions = s.partitions := rfl
@[simp] theorem modTeamOf_dispatches (s : State) (g : Group) (f : Team → Team) : (modTeamOf s g f).dispatches = s.dispatches := rfl
@[simp] theorem modTeamOf_nextDisp (s : State) (g : Group) (f : Team → Team) : (modTeamOf s g f).nextDisp = s.nextDisp := rfl
@[simp] theorem modTeamOf_clusters (s : State) (g : Group) (f : Team → Team) : (modTeamOf s g f).clusters = s.clusters := rfl
@[simp] theorem modTeamOf_groups (s : State) (g : Group) (f : Team → Team) : (modTeamOf s g f).groups = s.groups := rfl
@[simp] theorem modTeamOf_cmds (s : State) (g : Group) (f : Team → Team) : (modTeamOf s g f).cmds = s.cmds := rfl
@[simp] theorem modTeamOf_sessions (s : State) (g : Group) (f : Team → Team) : (modTeamOf s g f).sessions = s.sessions := rfl
@[simp] theorem modTeamOf_networks (s : State) (g : Group) (f : Team → Team) : (modTeamOf s g f).networks = s.networks := rfl
@[simp] theorem modTeamOf_hostQueues (s : State) (g : Group) (f : Team → Team) : (modTeamOf s g f).hostQueues = s.hostQueues := rfl
@[simp] theorem modTeamOf_submissions (s : State) (g : Group) (f : Team → Team) : (modTeamOf s g f).submissions = s.submissions := rfl
@[simp] theorem modTeamOf_faults (s : State) (g : Group) (f : Team → Team) : (modTeamOf s g f).faults = s.faults := rfl
@[simp] theorem modTeamOf_heldRecs (s : State) (g : Group) (f : Team → Team) : (modTeamOf s g f).heldRecs = s.heldRecs := rfl
@[simp] theorem modTeamOf_sysOps (s : State) (g : Group) (f : Team → Team) : (modTeamOf s g f).sysOps = s.sysOps := rfl
@[simp] theorem modTeamOf_sweeping (s : State) (g : Group) (f : Team → Team) : (modTeamOf s g f).sweeping = s.sweeping := rfl
@[simp] theorem modTeamOf_nextTag (s : State) (g : Group) (f : Team → Team) : (modTeamOf s g f).nextTag = s.nextTag := rfl
@[simp] theorem modTeamOf_nextId (s : State) (g : Group) (f : Team → Team) : (modTeamOf s g f).nextId = s.nextId := rfl
@[simp] theorem modTeamOf_reply (s : State) (g : Group) (f : Team → Team) : (modTeamOf s g f).reply = s.reply := rfl
@[simp] theorem modTeamOf_cur (s : State) (g : Group) (f : Team → Team) : (modTeamOf s g f).cur = s.cur := rfl
@[simp] theorem modTeamOf_joined (s : State) (g : Group) (f : Team → Team) : (modTeamOf s g f).joined = s.joined := rfl
@[simp] theorem modTeamOf_issueSeq (s : State) (g : Group) (f : Team → Team) : (modTeamOf s g f).issueSeq = s.issueSeq := rfl
@[simp] theorem modTeamOf_memSeq (s : State) (g : Group) (f : Team → Team) : (modTeamOf s g f).memSeq = s.memSeq := rfl
@[simp] theorem modTeamOf_wtime (s : State) (g : Group) (f : Team → Team) : (modTeamOf s g f).wtime = s.wtime := rfl
@[simp] theorem modTeamOf_agenda (s : State) (g : Group) (f : Team → Team) : (modTeamOf s g f).agenda = s.agenda := rfl
@[simp] theorem modTeamOf_oracle (s : State) (g : Group) (f : Team → Team) : (modTeamOf s g f).oracle = s.oracle := rfl
@[simp] theorem modTeamOf_capptr (s : State) (g : Group) (f : Team → Team) : (modTeamOf s g f).capptr = s.capptr := rfl
@[simp] theorem modTeamOf_freeCount (s : State) (g : Group) (f : Team → Team) : (modTeamOf s g f).freeCount = s.freeCount := rfl

@[simp] theorem modCluster_mem (s : State) (n m : Nat) (f : Cluster → Cluster) : (modCluster s n m f).mem = s.mem := rfl
@[simp] theorem modCluster_dirty (s : State) (n m : Nat) (f : Cluster → Cluster) : (modCluster s n m f).dirty = s.dirty := rfl
@[simp] theorem modCluster_badWords (s : State) (n m : Nat) (f : Cluster → Cluster) : (modCluster s n m f).badWords = s.badWords := rfl
@[simp] theorem modCluster_corrWords (s : State) (n m : Nat) (f : Cluster → Cluster) : (modCluster s n m f).corrWords = s.corrWords := rfl
@[simp] theorem modCluster_tlb (s : State) (n m : Nat) (f : Cluster → Cluster) : (modCluster s n m f).tlb = s.tlb := rfl
@[simp] theorem modCluster_power (s : State) (n m : Nat) (f : Cluster → Cluster) : (modCluster s n m f).power = s.power := rfl
@[simp] theorem modCluster_bootCode (s : State) (n m : Nat) (f : Cluster → Cluster) : (modCluster s n m f).bootCode = s.bootCode := rfl
@[simp] theorem modCluster_clk (s : State) (n m : Nat) (f : Cluster → Cluster) : (modCluster s n m f).clk = s.clk := rfl
@[simp] theorem modCluster_clockNum (s : State) (n m : Nat) (f : Cluster → Cluster) : (modCluster s n m f).clockNum = s.clockNum := rfl
@[simp] theorem modCluster_clockDen (s : State) (n m : Nat) (f : Cluster → Cluster) : (modCluster s n m f).clockDen = s.clockDen := rfl
@[simp] theorem modCluster_powerCap (s : State) (n m : Nat) (f : Cluster → Cluster) : (modCluster s n m f).powerCap = s.powerCap := rfl
@[simp] theorem modCluster_devnum (s : State) (n m : Nat) (f : Cluster → Cluster) : (modCluster s n m f).devnum = s.devnum := rfl
@[simp] theorem modCluster_seedReg (s : State) (n m : Nat) (f : Cluster → Cluster) : (modCluster s n m f).seedReg = s.seedReg := rfl
@[simp] theorem modCluster_astab (s : State) (n m : Nat) (f : Cluster → Cluster) : (modCluster s n m f).astab = s.astab := rfl
@[simp] theorem modCluster_sysnq (s : State) (n m : Nat) (f : Cluster → Cluster) : (modCluster s n m f).sysnq = s.sysnq := rfl
@[simp] theorem modCluster_sysfq (s : State) (n m : Nat) (f : Cluster → Cluster) : (modCluster s n m f).sysfq = s.sysfq := rfl
@[simp] theorem modCluster_savepool (s : State) (n m : Nat) (f : Cluster → Cluster) : (modCluster s n m f).savepool = s.savepool := rfl
@[simp] theorem modCluster_poolEmptyPosted (s : State) (n m : Nat) (f : Cluster → Cluster) : (modCluster s n m f).poolEmptyPosted = s.poolEmptyPosted := rfl
@[simp] theorem modCluster_collgrp (s : State) (n m : Nat) (f : Cluster → Cluster) : (modCluster s n m f).collgrp = s.collgrp := rfl
@[simp] theorem modCluster_collSeq (s : State) (n m : Nat) (f : Cluster → Cluster) : (modCluster s n m f).collSeq = s.collSeq := rfl
@[simp] theorem modCluster_dies (s : State) (n m : Nat) (f : Cluster → Cluster) : (modCluster s n m f).dies = s.dies := rfl
@[simp] theorem modCluster_cores (s : State) (n m : Nat) (f : Cluster → Cluster) : (modCluster s n m f).cores = s.cores := rfl
@[simp] theorem modCluster_partitions (s : State) (n m : Nat) (f : Cluster → Cluster) : (modCluster s n m f).partitions = s.partitions := rfl
@[simp] theorem modCluster_dispatches (s : State) (n m : Nat) (f : Cluster → Cluster) : (modCluster s n m f).dispatches = s.dispatches := rfl
@[simp] theorem modCluster_nextDisp (s : State) (n m : Nat) (f : Cluster → Cluster) : (modCluster s n m f).nextDisp = s.nextDisp := rfl
@[simp] theorem modCluster_teams (s : State) (n m : Nat) (f : Cluster → Cluster) : (modCluster s n m f).teams = s.teams := rfl
@[simp] theorem modCluster_groups (s : State) (n m : Nat) (f : Cluster → Cluster) : (modCluster s n m f).groups = s.groups := rfl
@[simp] theorem modCluster_cmds (s : State) (n m : Nat) (f : Cluster → Cluster) : (modCluster s n m f).cmds = s.cmds := rfl
@[simp] theorem modCluster_sessions (s : State) (n m : Nat) (f : Cluster → Cluster) : (modCluster s n m f).sessions = s.sessions := rfl
@[simp] theorem modCluster_networks (s : State) (n m : Nat) (f : Cluster → Cluster) : (modCluster s n m f).networks = s.networks := rfl
@[simp] theorem modCluster_hostQueues (s : State) (n m : Nat) (f : Cluster → Cluster) : (modCluster s n m f).hostQueues = s.hostQueues := rfl
@[simp] theorem modCluster_submissions (s : State) (n m : Nat) (f : Cluster → Cluster) : (modCluster s n m f).submissions = s.submissions := rfl
@[simp] theorem modCluster_faults (s : State) (n m : Nat) (f : Cluster → Cluster) : (modCluster s n m f).faults = s.faults := rfl
@[simp] theorem modCluster_heldRecs (s : State) (n m : Nat) (f : Cluster → Cluster) : (modCluster s n m f).heldRecs = s.heldRecs := rfl
@[simp] theorem modCluster_sysOps (s : State) (n m : Nat) (f : Cluster → Cluster) : (modCluster s n m f).sysOps = s.sysOps := rfl
@[simp] theorem modCluster_sweeping (s : State) (n m : Nat) (f : Cluster → Cluster) : (modCluster s n m f).sweeping = s.sweeping := rfl
@[simp] theorem modCluster_nextTag (s : State) (n m : Nat) (f : Cluster → Cluster) : (modCluster s n m f).nextTag = s.nextTag := rfl
@[simp] theorem modCluster_nextId (s : State) (n m : Nat) (f : Cluster → Cluster) : (modCluster s n m f).nextId = s.nextId := rfl
@[simp] theorem modCluster_reply (s : State) (n m : Nat) (f : Cluster → Cluster) : (modCluster s n m f).reply = s.reply := rfl
@[simp] theorem modCluster_cur (s : State) (n m : Nat) (f : Cluster → Cluster) : (modCluster s n m f).cur = s.cur := rfl
@[simp] theorem modCluster_joined (s : State) (n m : Nat) (f : Cluster → Cluster) : (modCluster s n m f).joined = s.joined := rfl
@[simp] theorem modCluster_issueSeq (s : State) (n m : Nat) (f : Cluster → Cluster) : (modCluster s n m f).issueSeq = s.issueSeq := rfl
@[simp] theorem modCluster_memSeq (s : State) (n m : Nat) (f : Cluster → Cluster) : (modCluster s n m f).memSeq = s.memSeq := rfl
@[simp] theorem modCluster_wtime (s : State) (n m : Nat) (f : Cluster → Cluster) : (modCluster s n m f).wtime = s.wtime := rfl
@[simp] theorem modCluster_agenda (s : State) (n m : Nat) (f : Cluster → Cluster) : (modCluster s n m f).agenda = s.agenda := rfl
@[simp] theorem modCluster_oracle (s : State) (n m : Nat) (f : Cluster → Cluster) : (modCluster s n m f).oracle = s.oracle := rfl
@[simp] theorem modCluster_capptr (s : State) (n m : Nat) (f : Cluster → Cluster) : (modCluster s n m f).capptr = s.capptr := rfl
@[simp] theorem modCluster_freeCount (s : State) (n m : Nat) (f : Cluster → Cluster) : (modCluster s n m f).freeCount = s.freeCount := rfl

@[simp] theorem modDisp_mem (s : State) (n : Nat) (f : Dispatch → Dispatch) : (modDisp s n f).mem = s.mem := rfl
@[simp] theorem modDisp_dirty (s : State) (n : Nat) (f : Dispatch → Dispatch) : (modDisp s n f).dirty = s.dirty := rfl
@[simp] theorem modDisp_badWords (s : State) (n : Nat) (f : Dispatch → Dispatch) : (modDisp s n f).badWords = s.badWords := rfl
@[simp] theorem modDisp_corrWords (s : State) (n : Nat) (f : Dispatch → Dispatch) : (modDisp s n f).corrWords = s.corrWords := rfl
@[simp] theorem modDisp_tlb (s : State) (n : Nat) (f : Dispatch → Dispatch) : (modDisp s n f).tlb = s.tlb := rfl
@[simp] theorem modDisp_power (s : State) (n : Nat) (f : Dispatch → Dispatch) : (modDisp s n f).power = s.power := rfl
@[simp] theorem modDisp_bootCode (s : State) (n : Nat) (f : Dispatch → Dispatch) : (modDisp s n f).bootCode = s.bootCode := rfl
@[simp] theorem modDisp_clk (s : State) (n : Nat) (f : Dispatch → Dispatch) : (modDisp s n f).clk = s.clk := rfl
@[simp] theorem modDisp_clockNum (s : State) (n : Nat) (f : Dispatch → Dispatch) : (modDisp s n f).clockNum = s.clockNum := rfl
@[simp] theorem modDisp_clockDen (s : State) (n : Nat) (f : Dispatch → Dispatch) : (modDisp s n f).clockDen = s.clockDen := rfl
@[simp] theorem modDisp_powerCap (s : State) (n : Nat) (f : Dispatch → Dispatch) : (modDisp s n f).powerCap = s.powerCap := rfl
@[simp] theorem modDisp_devnum (s : State) (n : Nat) (f : Dispatch → Dispatch) : (modDisp s n f).devnum = s.devnum := rfl
@[simp] theorem modDisp_seedReg (s : State) (n : Nat) (f : Dispatch → Dispatch) : (modDisp s n f).seedReg = s.seedReg := rfl
@[simp] theorem modDisp_astab (s : State) (n : Nat) (f : Dispatch → Dispatch) : (modDisp s n f).astab = s.astab := rfl
@[simp] theorem modDisp_sysnq (s : State) (n : Nat) (f : Dispatch → Dispatch) : (modDisp s n f).sysnq = s.sysnq := rfl
@[simp] theorem modDisp_sysfq (s : State) (n : Nat) (f : Dispatch → Dispatch) : (modDisp s n f).sysfq = s.sysfq := rfl
@[simp] theorem modDisp_savepool (s : State) (n : Nat) (f : Dispatch → Dispatch) : (modDisp s n f).savepool = s.savepool := rfl
@[simp] theorem modDisp_poolEmptyPosted (s : State) (n : Nat) (f : Dispatch → Dispatch) : (modDisp s n f).poolEmptyPosted = s.poolEmptyPosted := rfl
@[simp] theorem modDisp_collgrp (s : State) (n : Nat) (f : Dispatch → Dispatch) : (modDisp s n f).collgrp = s.collgrp := rfl
@[simp] theorem modDisp_collSeq (s : State) (n : Nat) (f : Dispatch → Dispatch) : (modDisp s n f).collSeq = s.collSeq := rfl
@[simp] theorem modDisp_dies (s : State) (n : Nat) (f : Dispatch → Dispatch) : (modDisp s n f).dies = s.dies := rfl
@[simp] theorem modDisp_cores (s : State) (n : Nat) (f : Dispatch → Dispatch) : (modDisp s n f).cores = s.cores := rfl
@[simp] theorem modDisp_partitions (s : State) (n : Nat) (f : Dispatch → Dispatch) : (modDisp s n f).partitions = s.partitions := rfl
@[simp] theorem modDisp_nextDisp (s : State) (n : Nat) (f : Dispatch → Dispatch) : (modDisp s n f).nextDisp = s.nextDisp := rfl
@[simp] theorem modDisp_clusters (s : State) (n : Nat) (f : Dispatch → Dispatch) : (modDisp s n f).clusters = s.clusters := rfl
@[simp] theorem modDisp_teams (s : State) (n : Nat) (f : Dispatch → Dispatch) : (modDisp s n f).teams = s.teams := rfl
@[simp] theorem modDisp_groups (s : State) (n : Nat) (f : Dispatch → Dispatch) : (modDisp s n f).groups = s.groups := rfl
@[simp] theorem modDisp_cmds (s : State) (n : Nat) (f : Dispatch → Dispatch) : (modDisp s n f).cmds = s.cmds := rfl
@[simp] theorem modDisp_sessions (s : State) (n : Nat) (f : Dispatch → Dispatch) : (modDisp s n f).sessions = s.sessions := rfl
@[simp] theorem modDisp_networks (s : State) (n : Nat) (f : Dispatch → Dispatch) : (modDisp s n f).networks = s.networks := rfl
@[simp] theorem modDisp_hostQueues (s : State) (n : Nat) (f : Dispatch → Dispatch) : (modDisp s n f).hostQueues = s.hostQueues := rfl
@[simp] theorem modDisp_submissions (s : State) (n : Nat) (f : Dispatch → Dispatch) : (modDisp s n f).submissions = s.submissions := rfl
@[simp] theorem modDisp_faults (s : State) (n : Nat) (f : Dispatch → Dispatch) : (modDisp s n f).faults = s.faults := rfl
@[simp] theorem modDisp_heldRecs (s : State) (n : Nat) (f : Dispatch → Dispatch) : (modDisp s n f).heldRecs = s.heldRecs := rfl
@[simp] theorem modDisp_sysOps (s : State) (n : Nat) (f : Dispatch → Dispatch) : (modDisp s n f).sysOps = s.sysOps := rfl
@[simp] theorem modDisp_sweeping (s : State) (n : Nat) (f : Dispatch → Dispatch) : (modDisp s n f).sweeping = s.sweeping := rfl
@[simp] theorem modDisp_nextTag (s : State) (n : Nat) (f : Dispatch → Dispatch) : (modDisp s n f).nextTag = s.nextTag := rfl
@[simp] theorem modDisp_nextId (s : State) (n : Nat) (f : Dispatch → Dispatch) : (modDisp s n f).nextId = s.nextId := rfl
@[simp] theorem modDisp_reply (s : State) (n : Nat) (f : Dispatch → Dispatch) : (modDisp s n f).reply = s.reply := rfl
@[simp] theorem modDisp_cur (s : State) (n : Nat) (f : Dispatch → Dispatch) : (modDisp s n f).cur = s.cur := rfl
@[simp] theorem modDisp_joined (s : State) (n : Nat) (f : Dispatch → Dispatch) : (modDisp s n f).joined = s.joined := rfl
@[simp] theorem modDisp_issueSeq (s : State) (n : Nat) (f : Dispatch → Dispatch) : (modDisp s n f).issueSeq = s.issueSeq := rfl
@[simp] theorem modDisp_memSeq (s : State) (n : Nat) (f : Dispatch → Dispatch) : (modDisp s n f).memSeq = s.memSeq := rfl
@[simp] theorem modDisp_wtime (s : State) (n : Nat) (f : Dispatch → Dispatch) : (modDisp s n f).wtime = s.wtime := rfl
@[simp] theorem modDisp_agenda (s : State) (n : Nat) (f : Dispatch → Dispatch) : (modDisp s n f).agenda = s.agenda := rfl
@[simp] theorem modDisp_oracle (s : State) (n : Nat) (f : Dispatch → Dispatch) : (modDisp s n f).oracle = s.oracle := rfl
@[simp] theorem modDisp_capptr (s : State) (n : Nat) (f : Dispatch → Dispatch) : (modDisp s n f).capptr = s.capptr := rfl
@[simp] theorem modDisp_freeCount (s : State) (n : Nat) (f : Dispatch → Dispatch) : (modDisp s n f).freeCount = s.freeCount := rfl

@[simp] theorem modPart_mem (s : State) (n : Nat) (f : Partition → Partition) : (modPart s n f).mem = s.mem := rfl
@[simp] theorem modPart_dirty (s : State) (n : Nat) (f : Partition → Partition) : (modPart s n f).dirty = s.dirty := rfl
@[simp] theorem modPart_badWords (s : State) (n : Nat) (f : Partition → Partition) : (modPart s n f).badWords = s.badWords := rfl
@[simp] theorem modPart_corrWords (s : State) (n : Nat) (f : Partition → Partition) : (modPart s n f).corrWords = s.corrWords := rfl
@[simp] theorem modPart_tlb (s : State) (n : Nat) (f : Partition → Partition) : (modPart s n f).tlb = s.tlb := rfl
@[simp] theorem modPart_power (s : State) (n : Nat) (f : Partition → Partition) : (modPart s n f).power = s.power := rfl
@[simp] theorem modPart_bootCode (s : State) (n : Nat) (f : Partition → Partition) : (modPart s n f).bootCode = s.bootCode := rfl
@[simp] theorem modPart_clk (s : State) (n : Nat) (f : Partition → Partition) : (modPart s n f).clk = s.clk := rfl
@[simp] theorem modPart_clockNum (s : State) (n : Nat) (f : Partition → Partition) : (modPart s n f).clockNum = s.clockNum := rfl
@[simp] theorem modPart_clockDen (s : State) (n : Nat) (f : Partition → Partition) : (modPart s n f).clockDen = s.clockDen := rfl
@[simp] theorem modPart_powerCap (s : State) (n : Nat) (f : Partition → Partition) : (modPart s n f).powerCap = s.powerCap := rfl
@[simp] theorem modPart_devnum (s : State) (n : Nat) (f : Partition → Partition) : (modPart s n f).devnum = s.devnum := rfl
@[simp] theorem modPart_seedReg (s : State) (n : Nat) (f : Partition → Partition) : (modPart s n f).seedReg = s.seedReg := rfl
@[simp] theorem modPart_astab (s : State) (n : Nat) (f : Partition → Partition) : (modPart s n f).astab = s.astab := rfl
@[simp] theorem modPart_sysnq (s : State) (n : Nat) (f : Partition → Partition) : (modPart s n f).sysnq = s.sysnq := rfl
@[simp] theorem modPart_sysfq (s : State) (n : Nat) (f : Partition → Partition) : (modPart s n f).sysfq = s.sysfq := rfl
@[simp] theorem modPart_savepool (s : State) (n : Nat) (f : Partition → Partition) : (modPart s n f).savepool = s.savepool := rfl
@[simp] theorem modPart_poolEmptyPosted (s : State) (n : Nat) (f : Partition → Partition) : (modPart s n f).poolEmptyPosted = s.poolEmptyPosted := rfl
@[simp] theorem modPart_collgrp (s : State) (n : Nat) (f : Partition → Partition) : (modPart s n f).collgrp = s.collgrp := rfl
@[simp] theorem modPart_collSeq (s : State) (n : Nat) (f : Partition → Partition) : (modPart s n f).collSeq = s.collSeq := rfl
@[simp] theorem modPart_dies (s : State) (n : Nat) (f : Partition → Partition) : (modPart s n f).dies = s.dies := rfl
@[simp] theorem modPart_cores (s : State) (n : Nat) (f : Partition → Partition) : (modPart s n f).cores = s.cores := rfl
@[simp] theorem modPart_dispatches (s : State) (n : Nat) (f : Partition → Partition) : (modPart s n f).dispatches = s.dispatches := rfl
@[simp] theorem modPart_nextDisp (s : State) (n : Nat) (f : Partition → Partition) : (modPart s n f).nextDisp = s.nextDisp := rfl
@[simp] theorem modPart_clusters (s : State) (n : Nat) (f : Partition → Partition) : (modPart s n f).clusters = s.clusters := rfl
@[simp] theorem modPart_teams (s : State) (n : Nat) (f : Partition → Partition) : (modPart s n f).teams = s.teams := rfl
@[simp] theorem modPart_groups (s : State) (n : Nat) (f : Partition → Partition) : (modPart s n f).groups = s.groups := rfl
@[simp] theorem modPart_cmds (s : State) (n : Nat) (f : Partition → Partition) : (modPart s n f).cmds = s.cmds := rfl
@[simp] theorem modPart_sessions (s : State) (n : Nat) (f : Partition → Partition) : (modPart s n f).sessions = s.sessions := rfl
@[simp] theorem modPart_networks (s : State) (n : Nat) (f : Partition → Partition) : (modPart s n f).networks = s.networks := rfl
@[simp] theorem modPart_hostQueues (s : State) (n : Nat) (f : Partition → Partition) : (modPart s n f).hostQueues = s.hostQueues := rfl
@[simp] theorem modPart_submissions (s : State) (n : Nat) (f : Partition → Partition) : (modPart s n f).submissions = s.submissions := rfl
@[simp] theorem modPart_faults (s : State) (n : Nat) (f : Partition → Partition) : (modPart s n f).faults = s.faults := rfl
@[simp] theorem modPart_heldRecs (s : State) (n : Nat) (f : Partition → Partition) : (modPart s n f).heldRecs = s.heldRecs := rfl
@[simp] theorem modPart_sysOps (s : State) (n : Nat) (f : Partition → Partition) : (modPart s n f).sysOps = s.sysOps := rfl
@[simp] theorem modPart_sweeping (s : State) (n : Nat) (f : Partition → Partition) : (modPart s n f).sweeping = s.sweeping := rfl
@[simp] theorem modPart_nextTag (s : State) (n : Nat) (f : Partition → Partition) : (modPart s n f).nextTag = s.nextTag := rfl
@[simp] theorem modPart_nextId (s : State) (n : Nat) (f : Partition → Partition) : (modPart s n f).nextId = s.nextId := rfl
@[simp] theorem modPart_reply (s : State) (n : Nat) (f : Partition → Partition) : (modPart s n f).reply = s.reply := rfl
@[simp] theorem modPart_cur (s : State) (n : Nat) (f : Partition → Partition) : (modPart s n f).cur = s.cur := rfl
@[simp] theorem modPart_joined (s : State) (n : Nat) (f : Partition → Partition) : (modPart s n f).joined = s.joined := rfl
@[simp] theorem modPart_issueSeq (s : State) (n : Nat) (f : Partition → Partition) : (modPart s n f).issueSeq = s.issueSeq := rfl
@[simp] theorem modPart_memSeq (s : State) (n : Nat) (f : Partition → Partition) : (modPart s n f).memSeq = s.memSeq := rfl
@[simp] theorem modPart_wtime (s : State) (n : Nat) (f : Partition → Partition) : (modPart s n f).wtime = s.wtime := rfl
@[simp] theorem modPart_agenda (s : State) (n : Nat) (f : Partition → Partition) : (modPart s n f).agenda = s.agenda := rfl
@[simp] theorem modPart_oracle (s : State) (n : Nat) (f : Partition → Partition) : (modPart s n f).oracle = s.oracle := rfl
@[simp] theorem modPart_capptr (s : State) (n : Nat) (f : Partition → Partition) : (modPart s n f).capptr = s.capptr := rfl
@[simp] theorem modPart_freeCount (s : State) (n : Nat) (f : Partition → Partition) : (modPart s n f).freeCount = s.freeCount := rfl

@[simp] theorem modCmd_mem (s : State) (n : Nat) (f : Cmd → Cmd) : (modCmd s n f).mem = s.mem := rfl
@[simp] theorem modCmd_dirty (s : State) (n : Nat) (f : Cmd → Cmd) : (modCmd s n f).dirty = s.dirty := rfl
@[simp] theorem modCmd_badWords (s : State) (n : Nat) (f : Cmd → Cmd) : (modCmd s n f).badWords = s.badWords := rfl
@[simp] theorem modCmd_corrWords (s : State) (n : Nat) (f : Cmd → Cmd) : (modCmd s n f).corrWords = s.corrWords := rfl
@[simp] theorem modCmd_tlb (s : State) (n : Nat) (f : Cmd → Cmd) : (modCmd s n f).tlb = s.tlb := rfl
@[simp] theorem modCmd_power (s : State) (n : Nat) (f : Cmd → Cmd) : (modCmd s n f).power = s.power := rfl
@[simp] theorem modCmd_bootCode (s : State) (n : Nat) (f : Cmd → Cmd) : (modCmd s n f).bootCode = s.bootCode := rfl
@[simp] theorem modCmd_clk (s : State) (n : Nat) (f : Cmd → Cmd) : (modCmd s n f).clk = s.clk := rfl
@[simp] theorem modCmd_clockNum (s : State) (n : Nat) (f : Cmd → Cmd) : (modCmd s n f).clockNum = s.clockNum := rfl
@[simp] theorem modCmd_clockDen (s : State) (n : Nat) (f : Cmd → Cmd) : (modCmd s n f).clockDen = s.clockDen := rfl
@[simp] theorem modCmd_powerCap (s : State) (n : Nat) (f : Cmd → Cmd) : (modCmd s n f).powerCap = s.powerCap := rfl
@[simp] theorem modCmd_devnum (s : State) (n : Nat) (f : Cmd → Cmd) : (modCmd s n f).devnum = s.devnum := rfl
@[simp] theorem modCmd_seedReg (s : State) (n : Nat) (f : Cmd → Cmd) : (modCmd s n f).seedReg = s.seedReg := rfl
@[simp] theorem modCmd_astab (s : State) (n : Nat) (f : Cmd → Cmd) : (modCmd s n f).astab = s.astab := rfl
@[simp] theorem modCmd_sysnq (s : State) (n : Nat) (f : Cmd → Cmd) : (modCmd s n f).sysnq = s.sysnq := rfl
@[simp] theorem modCmd_sysfq (s : State) (n : Nat) (f : Cmd → Cmd) : (modCmd s n f).sysfq = s.sysfq := rfl
@[simp] theorem modCmd_savepool (s : State) (n : Nat) (f : Cmd → Cmd) : (modCmd s n f).savepool = s.savepool := rfl
@[simp] theorem modCmd_poolEmptyPosted (s : State) (n : Nat) (f : Cmd → Cmd) : (modCmd s n f).poolEmptyPosted = s.poolEmptyPosted := rfl
@[simp] theorem modCmd_collgrp (s : State) (n : Nat) (f : Cmd → Cmd) : (modCmd s n f).collgrp = s.collgrp := rfl
@[simp] theorem modCmd_collSeq (s : State) (n : Nat) (f : Cmd → Cmd) : (modCmd s n f).collSeq = s.collSeq := rfl
@[simp] theorem modCmd_dies (s : State) (n : Nat) (f : Cmd → Cmd) : (modCmd s n f).dies = s.dies := rfl
@[simp] theorem modCmd_cores (s : State) (n : Nat) (f : Cmd → Cmd) : (modCmd s n f).cores = s.cores := rfl
@[simp] theorem modCmd_partitions (s : State) (n : Nat) (f : Cmd → Cmd) : (modCmd s n f).partitions = s.partitions := rfl
@[simp] theorem modCmd_dispatches (s : State) (n : Nat) (f : Cmd → Cmd) : (modCmd s n f).dispatches = s.dispatches := rfl
@[simp] theorem modCmd_nextDisp (s : State) (n : Nat) (f : Cmd → Cmd) : (modCmd s n f).nextDisp = s.nextDisp := rfl
@[simp] theorem modCmd_clusters (s : State) (n : Nat) (f : Cmd → Cmd) : (modCmd s n f).clusters = s.clusters := rfl
@[simp] theorem modCmd_teams (s : State) (n : Nat) (f : Cmd → Cmd) : (modCmd s n f).teams = s.teams := rfl
@[simp] theorem modCmd_groups (s : State) (n : Nat) (f : Cmd → Cmd) : (modCmd s n f).groups = s.groups := rfl
@[simp] theorem modCmd_sessions (s : State) (n : Nat) (f : Cmd → Cmd) : (modCmd s n f).sessions = s.sessions := rfl
@[simp] theorem modCmd_networks (s : State) (n : Nat) (f : Cmd → Cmd) : (modCmd s n f).networks = s.networks := rfl
@[simp] theorem modCmd_hostQueues (s : State) (n : Nat) (f : Cmd → Cmd) : (modCmd s n f).hostQueues = s.hostQueues := rfl
@[simp] theorem modCmd_submissions (s : State) (n : Nat) (f : Cmd → Cmd) : (modCmd s n f).submissions = s.submissions := rfl
@[simp] theorem modCmd_faults (s : State) (n : Nat) (f : Cmd → Cmd) : (modCmd s n f).faults = s.faults := rfl
@[simp] theorem modCmd_heldRecs (s : State) (n : Nat) (f : Cmd → Cmd) : (modCmd s n f).heldRecs = s.heldRecs := rfl
@[simp] theorem modCmd_sysOps (s : State) (n : Nat) (f : Cmd → Cmd) : (modCmd s n f).sysOps = s.sysOps := rfl
@[simp] theorem modCmd_sweeping (s : State) (n : Nat) (f : Cmd → Cmd) : (modCmd s n f).sweeping = s.sweeping := rfl
@[simp] theorem modCmd_nextTag (s : State) (n : Nat) (f : Cmd → Cmd) : (modCmd s n f).nextTag = s.nextTag := rfl
@[simp] theorem modCmd_nextId (s : State) (n : Nat) (f : Cmd → Cmd) : (modCmd s n f).nextId = s.nextId := rfl
@[simp] theorem modCmd_reply (s : State) (n : Nat) (f : Cmd → Cmd) : (modCmd s n f).reply = s.reply := rfl
@[simp] theorem modCmd_cur (s : State) (n : Nat) (f : Cmd → Cmd) : (modCmd s n f).cur = s.cur := rfl
@[simp] theorem modCmd_joined (s : State) (n : Nat) (f : Cmd → Cmd) : (modCmd s n f).joined = s.joined := rfl
@[simp] theorem modCmd_issueSeq (s : State) (n : Nat) (f : Cmd → Cmd) : (modCmd s n f).issueSeq = s.issueSeq := rfl
@[simp] theorem modCmd_memSeq (s : State) (n : Nat) (f : Cmd → Cmd) : (modCmd s n f).memSeq = s.memSeq := rfl
@[simp] theorem modCmd_wtime (s : State) (n : Nat) (f : Cmd → Cmd) : (modCmd s n f).wtime = s.wtime := rfl
@[simp] theorem modCmd_agenda (s : State) (n : Nat) (f : Cmd → Cmd) : (modCmd s n f).agenda = s.agenda := rfl
@[simp] theorem modCmd_oracle (s : State) (n : Nat) (f : Cmd → Cmd) : (modCmd s n f).oracle = s.oracle := rfl
@[simp] theorem modCmd_capptr (s : State) (n : Nat) (f : Cmd → Cmd) : (modCmd s n f).capptr = s.capptr := rfl
@[simp] theorem modCmd_freeCount (s : State) (n : Nat) (f : Cmd → Cmd) : (modCmd s n f).freeCount = s.freeCount := rfl

@[simp] theorem modSession_mem (s : State) (n : Nat) (f : Session → Session) : (modSession s n f).mem = s.mem := rfl
@[simp] theorem modSession_dirty (s : State) (n : Nat) (f : Session → Session) : (modSession s n f).dirty = s.dirty := rfl
@[simp] theorem modSession_badWords (s : State) (n : Nat) (f : Session → Session) : (modSession s n f).badWords = s.badWords := rfl
@[simp] theorem modSession_corrWords (s : State) (n : Nat) (f : Session → Session) : (modSession s n f).corrWords = s.corrWords := rfl
@[simp] theorem modSession_tlb (s : State) (n : Nat) (f : Session → Session) : (modSession s n f).tlb = s.tlb := rfl
@[simp] theorem modSession_power (s : State) (n : Nat) (f : Session → Session) : (modSession s n f).power = s.power := rfl
@[simp] theorem modSession_bootCode (s : State) (n : Nat) (f : Session → Session) : (modSession s n f).bootCode = s.bootCode := rfl
@[simp] theorem modSession_clk (s : State) (n : Nat) (f : Session → Session) : (modSession s n f).clk = s.clk := rfl
@[simp] theorem modSession_clockNum (s : State) (n : Nat) (f : Session → Session) : (modSession s n f).clockNum = s.clockNum := rfl
@[simp] theorem modSession_clockDen (s : State) (n : Nat) (f : Session → Session) : (modSession s n f).clockDen = s.clockDen := rfl
@[simp] theorem modSession_powerCap (s : State) (n : Nat) (f : Session → Session) : (modSession s n f).powerCap = s.powerCap := rfl
@[simp] theorem modSession_devnum (s : State) (n : Nat) (f : Session → Session) : (modSession s n f).devnum = s.devnum := rfl
@[simp] theorem modSession_seedReg (s : State) (n : Nat) (f : Session → Session) : (modSession s n f).seedReg = s.seedReg := rfl
@[simp] theorem modSession_astab (s : State) (n : Nat) (f : Session → Session) : (modSession s n f).astab = s.astab := rfl
@[simp] theorem modSession_sysnq (s : State) (n : Nat) (f : Session → Session) : (modSession s n f).sysnq = s.sysnq := rfl
@[simp] theorem modSession_sysfq (s : State) (n : Nat) (f : Session → Session) : (modSession s n f).sysfq = s.sysfq := rfl
@[simp] theorem modSession_savepool (s : State) (n : Nat) (f : Session → Session) : (modSession s n f).savepool = s.savepool := rfl
@[simp] theorem modSession_poolEmptyPosted (s : State) (n : Nat) (f : Session → Session) : (modSession s n f).poolEmptyPosted = s.poolEmptyPosted := rfl
@[simp] theorem modSession_collgrp (s : State) (n : Nat) (f : Session → Session) : (modSession s n f).collgrp = s.collgrp := rfl
@[simp] theorem modSession_collSeq (s : State) (n : Nat) (f : Session → Session) : (modSession s n f).collSeq = s.collSeq := rfl
@[simp] theorem modSession_dies (s : State) (n : Nat) (f : Session → Session) : (modSession s n f).dies = s.dies := rfl
@[simp] theorem modSession_cores (s : State) (n : Nat) (f : Session → Session) : (modSession s n f).cores = s.cores := rfl
@[simp] theorem modSession_partitions (s : State) (n : Nat) (f : Session → Session) : (modSession s n f).partitions = s.partitions := rfl
@[simp] theorem modSession_dispatches (s : State) (n : Nat) (f : Session → Session) : (modSession s n f).dispatches = s.dispatches := rfl
@[simp] theorem modSession_nextDisp (s : State) (n : Nat) (f : Session → Session) : (modSession s n f).nextDisp = s.nextDisp := rfl
@[simp] theorem modSession_clusters (s : State) (n : Nat) (f : Session → Session) : (modSession s n f).clusters = s.clusters := rfl
@[simp] theorem modSession_teams (s : State) (n : Nat) (f : Session → Session) : (modSession s n f).teams = s.teams := rfl
@[simp] theorem modSession_groups (s : State) (n : Nat) (f : Session → Session) : (modSession s n f).groups = s.groups := rfl
@[simp] theorem modSession_cmds (s : State) (n : Nat) (f : Session → Session) : (modSession s n f).cmds = s.cmds := rfl
@[simp] theorem modSession_networks (s : State) (n : Nat) (f : Session → Session) : (modSession s n f).networks = s.networks := rfl
@[simp] theorem modSession_hostQueues (s : State) (n : Nat) (f : Session → Session) : (modSession s n f).hostQueues = s.hostQueues := rfl
@[simp] theorem modSession_submissions (s : State) (n : Nat) (f : Session → Session) : (modSession s n f).submissions = s.submissions := rfl
@[simp] theorem modSession_faults (s : State) (n : Nat) (f : Session → Session) : (modSession s n f).faults = s.faults := rfl
@[simp] theorem modSession_heldRecs (s : State) (n : Nat) (f : Session → Session) : (modSession s n f).heldRecs = s.heldRecs := rfl
@[simp] theorem modSession_sysOps (s : State) (n : Nat) (f : Session → Session) : (modSession s n f).sysOps = s.sysOps := rfl
@[simp] theorem modSession_sweeping (s : State) (n : Nat) (f : Session → Session) : (modSession s n f).sweeping = s.sweeping := rfl
@[simp] theorem modSession_nextTag (s : State) (n : Nat) (f : Session → Session) : (modSession s n f).nextTag = s.nextTag := rfl
@[simp] theorem modSession_nextId (s : State) (n : Nat) (f : Session → Session) : (modSession s n f).nextId = s.nextId := rfl
@[simp] theorem modSession_reply (s : State) (n : Nat) (f : Session → Session) : (modSession s n f).reply = s.reply := rfl
@[simp] theorem modSession_cur (s : State) (n : Nat) (f : Session → Session) : (modSession s n f).cur = s.cur := rfl
@[simp] theorem modSession_joined (s : State) (n : Nat) (f : Session → Session) : (modSession s n f).joined = s.joined := rfl
@[simp] theorem modSession_issueSeq (s : State) (n : Nat) (f : Session → Session) : (modSession s n f).issueSeq = s.issueSeq := rfl
@[simp] theorem modSession_memSeq (s : State) (n : Nat) (f : Session → Session) : (modSession s n f).memSeq = s.memSeq := rfl
@[simp] theorem modSession_wtime (s : State) (n : Nat) (f : Session → Session) : (modSession s n f).wtime = s.wtime := rfl
@[simp] theorem modSession_agenda (s : State) (n : Nat) (f : Session → Session) : (modSession s n f).agenda = s.agenda := rfl
@[simp] theorem modSession_oracle (s : State) (n : Nat) (f : Session → Session) : (modSession s n f).oracle = s.oracle := rfl
@[simp] theorem modSession_capptr (s : State) (n : Nat) (f : Session → Session) : (modSession s n f).capptr = s.capptr := rfl
@[simp] theorem modSession_freeCount (s : State) (n : Nat) (f : Session → Session) : (modSession s n f).freeCount = s.freeCount := rfl

@[simp] theorem modNetwork_mem (s : State) (n : Nat) (f : Network → Network) : (modNetwork s n f).mem = s.mem := rfl
@[simp] theorem modNetwork_dirty (s : State) (n : Nat) (f : Network → Network) : (modNetwork s n f).dirty = s.dirty := rfl
@[simp] theorem modNetwork_badWords (s : State) (n : Nat) (f : Network → Network) : (modNetwork s n f).badWords = s.badWords := rfl
@[simp] theorem modNetwork_corrWords (s : State) (n : Nat) (f : Network → Network) : (modNetwork s n f).corrWords = s.corrWords := rfl
@[simp] theorem modNetwork_tlb (s : State) (n : Nat) (f : Network → Network) : (modNetwork s n f).tlb = s.tlb := rfl
@[simp] theorem modNetwork_power (s : State) (n : Nat) (f : Network → Network) : (modNetwork s n f).power = s.power := rfl
@[simp] theorem modNetwork_bootCode (s : State) (n : Nat) (f : Network → Network) : (modNetwork s n f).bootCode = s.bootCode := rfl
@[simp] theorem modNetwork_clk (s : State) (n : Nat) (f : Network → Network) : (modNetwork s n f).clk = s.clk := rfl
@[simp] theorem modNetwork_clockNum (s : State) (n : Nat) (f : Network → Network) : (modNetwork s n f).clockNum = s.clockNum := rfl
@[simp] theorem modNetwork_clockDen (s : State) (n : Nat) (f : Network → Network) : (modNetwork s n f).clockDen = s.clockDen := rfl
@[simp] theorem modNetwork_powerCap (s : State) (n : Nat) (f : Network → Network) : (modNetwork s n f).powerCap = s.powerCap := rfl
@[simp] theorem modNetwork_devnum (s : State) (n : Nat) (f : Network → Network) : (modNetwork s n f).devnum = s.devnum := rfl
@[simp] theorem modNetwork_seedReg (s : State) (n : Nat) (f : Network → Network) : (modNetwork s n f).seedReg = s.seedReg := rfl
@[simp] theorem modNetwork_astab (s : State) (n : Nat) (f : Network → Network) : (modNetwork s n f).astab = s.astab := rfl
@[simp] theorem modNetwork_sysnq (s : State) (n : Nat) (f : Network → Network) : (modNetwork s n f).sysnq = s.sysnq := rfl
@[simp] theorem modNetwork_sysfq (s : State) (n : Nat) (f : Network → Network) : (modNetwork s n f).sysfq = s.sysfq := rfl
@[simp] theorem modNetwork_savepool (s : State) (n : Nat) (f : Network → Network) : (modNetwork s n f).savepool = s.savepool := rfl
@[simp] theorem modNetwork_poolEmptyPosted (s : State) (n : Nat) (f : Network → Network) : (modNetwork s n f).poolEmptyPosted = s.poolEmptyPosted := rfl
@[simp] theorem modNetwork_collgrp (s : State) (n : Nat) (f : Network → Network) : (modNetwork s n f).collgrp = s.collgrp := rfl
@[simp] theorem modNetwork_collSeq (s : State) (n : Nat) (f : Network → Network) : (modNetwork s n f).collSeq = s.collSeq := rfl
@[simp] theorem modNetwork_dies (s : State) (n : Nat) (f : Network → Network) : (modNetwork s n f).dies = s.dies := rfl
@[simp] theorem modNetwork_cores (s : State) (n : Nat) (f : Network → Network) : (modNetwork s n f).cores = s.cores := rfl
@[simp] theorem modNetwork_partitions (s : State) (n : Nat) (f : Network → Network) : (modNetwork s n f).partitions = s.partitions := rfl
@[simp] theorem modNetwork_dispatches (s : State) (n : Nat) (f : Network → Network) : (modNetwork s n f).dispatches = s.dispatches := rfl
@[simp] theorem modNetwork_nextDisp (s : State) (n : Nat) (f : Network → Network) : (modNetwork s n f).nextDisp = s.nextDisp := rfl
@[simp] theorem modNetwork_clusters (s : State) (n : Nat) (f : Network → Network) : (modNetwork s n f).clusters = s.clusters := rfl
@[simp] theorem modNetwork_teams (s : State) (n : Nat) (f : Network → Network) : (modNetwork s n f).teams = s.teams := rfl
@[simp] theorem modNetwork_groups (s : State) (n : Nat) (f : Network → Network) : (modNetwork s n f).groups = s.groups := rfl
@[simp] theorem modNetwork_cmds (s : State) (n : Nat) (f : Network → Network) : (modNetwork s n f).cmds = s.cmds := rfl
@[simp] theorem modNetwork_sessions (s : State) (n : Nat) (f : Network → Network) : (modNetwork s n f).sessions = s.sessions := rfl
@[simp] theorem modNetwork_hostQueues (s : State) (n : Nat) (f : Network → Network) : (modNetwork s n f).hostQueues = s.hostQueues := rfl
@[simp] theorem modNetwork_submissions (s : State) (n : Nat) (f : Network → Network) : (modNetwork s n f).submissions = s.submissions := rfl
@[simp] theorem modNetwork_faults (s : State) (n : Nat) (f : Network → Network) : (modNetwork s n f).faults = s.faults := rfl
@[simp] theorem modNetwork_heldRecs (s : State) (n : Nat) (f : Network → Network) : (modNetwork s n f).heldRecs = s.heldRecs := rfl
@[simp] theorem modNetwork_sysOps (s : State) (n : Nat) (f : Network → Network) : (modNetwork s n f).sysOps = s.sysOps := rfl
@[simp] theorem modNetwork_sweeping (s : State) (n : Nat) (f : Network → Network) : (modNetwork s n f).sweeping = s.sweeping := rfl
@[simp] theorem modNetwork_nextTag (s : State) (n : Nat) (f : Network → Network) : (modNetwork s n f).nextTag = s.nextTag := rfl
@[simp] theorem modNetwork_nextId (s : State) (n : Nat) (f : Network → Network) : (modNetwork s n f).nextId = s.nextId := rfl
@[simp] theorem modNetwork_reply (s : State) (n : Nat) (f : Network → Network) : (modNetwork s n f).reply = s.reply := rfl
@[simp] theorem modNetwork_cur (s : State) (n : Nat) (f : Network → Network) : (modNetwork s n f).cur = s.cur := rfl
@[simp] theorem modNetwork_joined (s : State) (n : Nat) (f : Network → Network) : (modNetwork s n f).joined = s.joined := rfl
@[simp] theorem modNetwork_issueSeq (s : State) (n : Nat) (f : Network → Network) : (modNetwork s n f).issueSeq = s.issueSeq := rfl
@[simp] theorem modNetwork_memSeq (s : State) (n : Nat) (f : Network → Network) : (modNetwork s n f).memSeq = s.memSeq := rfl
@[simp] theorem modNetwork_wtime (s : State) (n : Nat) (f : Network → Network) : (modNetwork s n f).wtime = s.wtime := rfl
@[simp] theorem modNetwork_agenda (s : State) (n : Nat) (f : Network → Network) : (modNetwork s n f).agenda = s.agenda := rfl
@[simp] theorem modNetwork_oracle (s : State) (n : Nat) (f : Network → Network) : (modNetwork s n f).oracle = s.oracle := rfl
@[simp] theorem modNetwork_capptr (s : State) (n : Nat) (f : Network → Network) : (modNetwork s n f).capptr = s.capptr := rfl
@[simp] theorem modNetwork_freeCount (s : State) (n : Nat) (f : Network → Network) : (modNetwork s n f).freeCount = s.freeCount := rfl

@[simp] theorem modQueue_mem (s : State) (n : Nat) (f : HostQueue → HostQueue) : (modQueue s n f).mem = s.mem := rfl
@[simp] theorem modQueue_dirty (s : State) (n : Nat) (f : HostQueue → HostQueue) : (modQueue s n f).dirty = s.dirty := rfl
@[simp] theorem modQueue_badWords (s : State) (n : Nat) (f : HostQueue → HostQueue) : (modQueue s n f).badWords = s.badWords := rfl
@[simp] theorem modQueue_corrWords (s : State) (n : Nat) (f : HostQueue → HostQueue) : (modQueue s n f).corrWords = s.corrWords := rfl
@[simp] theorem modQueue_tlb (s : State) (n : Nat) (f : HostQueue → HostQueue) : (modQueue s n f).tlb = s.tlb := rfl
@[simp] theorem modQueue_power (s : State) (n : Nat) (f : HostQueue → HostQueue) : (modQueue s n f).power = s.power := rfl
@[simp] theorem modQueue_bootCode (s : State) (n : Nat) (f : HostQueue → HostQueue) : (modQueue s n f).bootCode = s.bootCode := rfl
@[simp] theorem modQueue_clk (s : State) (n : Nat) (f : HostQueue → HostQueue) : (modQueue s n f).clk = s.clk := rfl
@[simp] theorem modQueue_clockNum (s : State) (n : Nat) (f : HostQueue → HostQueue) : (modQueue s n f).clockNum = s.clockNum := rfl
@[simp] theorem modQueue_clockDen (s : State) (n : Nat) (f : HostQueue → HostQueue) : (modQueue s n f).clockDen = s.clockDen := rfl
@[simp] theorem modQueue_powerCap (s : State) (n : Nat) (f : HostQueue → HostQueue) : (modQueue s n f).powerCap = s.powerCap := rfl
@[simp] theorem modQueue_devnum (s : State) (n : Nat) (f : HostQueue → HostQueue) : (modQueue s n f).devnum = s.devnum := rfl
@[simp] theorem modQueue_seedReg (s : State) (n : Nat) (f : HostQueue → HostQueue) : (modQueue s n f).seedReg = s.seedReg := rfl
@[simp] theorem modQueue_astab (s : State) (n : Nat) (f : HostQueue → HostQueue) : (modQueue s n f).astab = s.astab := rfl
@[simp] theorem modQueue_sysnq (s : State) (n : Nat) (f : HostQueue → HostQueue) : (modQueue s n f).sysnq = s.sysnq := rfl
@[simp] theorem modQueue_sysfq (s : State) (n : Nat) (f : HostQueue → HostQueue) : (modQueue s n f).sysfq = s.sysfq := rfl
@[simp] theorem modQueue_savepool (s : State) (n : Nat) (f : HostQueue → HostQueue) : (modQueue s n f).savepool = s.savepool := rfl
@[simp] theorem modQueue_poolEmptyPosted (s : State) (n : Nat) (f : HostQueue → HostQueue) : (modQueue s n f).poolEmptyPosted = s.poolEmptyPosted := rfl
@[simp] theorem modQueue_collgrp (s : State) (n : Nat) (f : HostQueue → HostQueue) : (modQueue s n f).collgrp = s.collgrp := rfl
@[simp] theorem modQueue_collSeq (s : State) (n : Nat) (f : HostQueue → HostQueue) : (modQueue s n f).collSeq = s.collSeq := rfl
@[simp] theorem modQueue_dies (s : State) (n : Nat) (f : HostQueue → HostQueue) : (modQueue s n f).dies = s.dies := rfl
@[simp] theorem modQueue_cores (s : State) (n : Nat) (f : HostQueue → HostQueue) : (modQueue s n f).cores = s.cores := rfl
@[simp] theorem modQueue_partitions (s : State) (n : Nat) (f : HostQueue → HostQueue) : (modQueue s n f).partitions = s.partitions := rfl
@[simp] theorem modQueue_dispatches (s : State) (n : Nat) (f : HostQueue → HostQueue) : (modQueue s n f).dispatches = s.dispatches := rfl
@[simp] theorem modQueue_nextDisp (s : State) (n : Nat) (f : HostQueue → HostQueue) : (modQueue s n f).nextDisp = s.nextDisp := rfl
@[simp] theorem modQueue_clusters (s : State) (n : Nat) (f : HostQueue → HostQueue) : (modQueue s n f).clusters = s.clusters := rfl
@[simp] theorem modQueue_teams (s : State) (n : Nat) (f : HostQueue → HostQueue) : (modQueue s n f).teams = s.teams := rfl
@[simp] theorem modQueue_groups (s : State) (n : Nat) (f : HostQueue → HostQueue) : (modQueue s n f).groups = s.groups := rfl
@[simp] theorem modQueue_cmds (s : State) (n : Nat) (f : HostQueue → HostQueue) : (modQueue s n f).cmds = s.cmds := rfl
@[simp] theorem modQueue_sessions (s : State) (n : Nat) (f : HostQueue → HostQueue) : (modQueue s n f).sessions = s.sessions := rfl
@[simp] theorem modQueue_networks (s : State) (n : Nat) (f : HostQueue → HostQueue) : (modQueue s n f).networks = s.networks := rfl
@[simp] theorem modQueue_submissions (s : State) (n : Nat) (f : HostQueue → HostQueue) : (modQueue s n f).submissions = s.submissions := rfl
@[simp] theorem modQueue_faults (s : State) (n : Nat) (f : HostQueue → HostQueue) : (modQueue s n f).faults = s.faults := rfl
@[simp] theorem modQueue_heldRecs (s : State) (n : Nat) (f : HostQueue → HostQueue) : (modQueue s n f).heldRecs = s.heldRecs := rfl
@[simp] theorem modQueue_sysOps (s : State) (n : Nat) (f : HostQueue → HostQueue) : (modQueue s n f).sysOps = s.sysOps := rfl
@[simp] theorem modQueue_sweeping (s : State) (n : Nat) (f : HostQueue → HostQueue) : (modQueue s n f).sweeping = s.sweeping := rfl
@[simp] theorem modQueue_nextTag (s : State) (n : Nat) (f : HostQueue → HostQueue) : (modQueue s n f).nextTag = s.nextTag := rfl
@[simp] theorem modQueue_nextId (s : State) (n : Nat) (f : HostQueue → HostQueue) : (modQueue s n f).nextId = s.nextId := rfl
@[simp] theorem modQueue_reply (s : State) (n : Nat) (f : HostQueue → HostQueue) : (modQueue s n f).reply = s.reply := rfl
@[simp] theorem modQueue_cur (s : State) (n : Nat) (f : HostQueue → HostQueue) : (modQueue s n f).cur = s.cur := rfl
@[simp] theorem modQueue_joined (s : State) (n : Nat) (f : HostQueue → HostQueue) : (modQueue s n f).joined = s.joined := rfl
@[simp] theorem modQueue_issueSeq (s : State) (n : Nat) (f : HostQueue → HostQueue) : (modQueue s n f).issueSeq = s.issueSeq := rfl
@[simp] theorem modQueue_memSeq (s : State) (n : Nat) (f : HostQueue → HostQueue) : (modQueue s n f).memSeq = s.memSeq := rfl
@[simp] theorem modQueue_wtime (s : State) (n : Nat) (f : HostQueue → HostQueue) : (modQueue s n f).wtime = s.wtime := rfl
@[simp] theorem modQueue_agenda (s : State) (n : Nat) (f : HostQueue → HostQueue) : (modQueue s n f).agenda = s.agenda := rfl
@[simp] theorem modQueue_oracle (s : State) (n : Nat) (f : HostQueue → HostQueue) : (modQueue s n f).oracle = s.oracle := rfl
@[simp] theorem modQueue_capptr (s : State) (n : Nat) (f : HostQueue → HostQueue) : (modQueue s n f).capptr = s.capptr := rfl
@[simp] theorem modQueue_freeCount (s : State) (n : Nat) (f : HostQueue → HostQueue) : (modQueue s n f).freeCount = s.freeCount := rfl

@[simp] theorem writeV_id (g : Group) (l r : Nat) (x : Word) : (writeV g l r x).id = g.id := rfl
@[simp] theorem writeV_disp (g : Group) (l r : Nat) (x : Word) : (writeV g l r x).disp = g.disp := rfl
@[simp] theorem writeV_teamid (g : Group) (l r : Nat) (x : Word) : (writeV g l r x).teamid = g.teamid := rfl
@[simp] theorem writeV_grpid (g : Group) (l r : Nat) (x : Word) : (writeV g l r x).grpid = g.grpid := rfl
@[simp] theorem writeV_core (g : Group) (l r : Nat) (x : Word) : (writeV g l r x).core = g.core := rfl
@[simp] theorem writeV_sector (g : Group) (l r : Nat) (x : Word) : (writeV g l r x).sector = g.sector := rfl
@[simp] theorem writeV_col (g : Group) (l r : Nat) (x : Word) : (writeV g l r x).col = g.col := rfl
@[simp] theorem writeV_width (g : Group) (l r : Nat) (x : Word) : (writeV g l r x).width = g.width := rfl
@[simp] theorem writeV_blocks (g : Group) (l r : Nat) (x : Word) : (writeV g l r x).blocks = g.blocks := rfl
@[simp] theorem writeV_k (g : Group) (l r : Nat) (x : Word) : (writeV g l r x).k = g.k := rfl
@[simp] theorem writeV_preds (g : Group) (l r : Nat) (x : Word) : (writeV g l r x).preds = g.preds := rfl
@[simp] theorem writeV_lat (g : Group) (l r : Nat) (x : Word) : (writeV g l r x).lat = g.lat := rfl
@[simp] theorem writeV_latw (g : Group) (l r : Nat) (x : Word) : (writeV g l r x).latw = g.latw := rfl
@[simp] theorem writeV_pcv (g : Group) (l r : Nat) (x : Word) : (writeV g l r x).pcv = g.pcv := rfl
@[simp] theorem writeV_deferred (g : Group) (l r : Nat) (x : Word) : (writeV g l r x).deferred = g.deferred := rfl
@[simp] theorem writeV_parked (g : Group) (l r : Nat) (x : Word) : (writeV g l r x).parked = g.parked := rfl
@[simp] theorem writeV_naps (g : Group) (l r : Nat) (x : Word) : (writeV g l r x).naps = g.naps := rfl
@[simp] theorem writeV_chain (g : Group) (l r : Nat) (x : Word) : (writeV g l r x).chain = g.chain := rfl
@[simp] theorem writeV_segLocal (g : Group) (l r : Nat) (x : Word) : (writeV g l r x).segLocal = g.segLocal := rfl
@[simp] theorem writeV_segConst (g : Group) (l r : Nat) (x : Word) : (writeV g l r x).segConst = g.segConst := rfl
@[simp] theorem writeV_segGlob (g : Group) (l r : Nat) (x : Word) : (writeV g l r x).segGlob = g.segGlob := rfl
@[simp] theorem writeV_flushctl (g : Group) (l r : Nat) (x : Word) : (writeV g l r x).flushctl = g.flushctl := rfl
@[simp] theorem writeV_fpstat (g : Group) (l r : Nat) (x : Word) : (writeV g l r x).fpstat = g.fpstat := rfl
@[simp] theorem writeV_fptrap (g : Group) (l r : Nat) (x : Word) : (writeV g l r x).fptrap = g.fptrap := rfl
@[simp] theorem writeV_mstat (g : Group) (l r : Nat) (x : Word) : (writeV g l r x).mstat = g.mstat := rfl
@[simp] theorem writeV_prio (g : Group) (l r : Nat) (x : Word) : (writeV g l r x).prio = g.prio := rfl
@[simp] theorem writeV_age (g : Group) (l r : Nat) (x : Word) : (writeV g l r x).age = g.age := rfl
@[simp] theorem writeV_readyClks (g : Group) (l r : Nat) (x : Word) : (writeV g l r x).readyClks = g.readyClks := rfl
@[simp] theorem writeV_lastIssue (g : Group) (l r : Nat) (x : Word) : (writeV g l r x).lastIssue = g.lastIssue := rfl
@[simp] theorem writeV_born (g : Group) (l r : Nat) (x : Word) : (writeV g l r x).born = g.born := rfl
@[simp] theorem writeV_trec (g : Group) (l r : Nat) (x : Word) : (writeV g l r x).trec = g.trec := rfl
@[simp] theorem writeV_shadow (g : Group) (l r : Nat) (x : Word) : (writeV g l r x).shadow = g.shadow := rfl
@[simp] theorem writeV_state (g : Group) (l r : Nat) (x : Word) : (writeV g l r x).state = g.state := rfl
@[simp] theorem writeV_before (g : Group) (l r : Nat) (x : Word) : (writeV g l r x).before = g.before := rfl
@[simp] theorem writeV_wait (g : Group) (l r : Nat) (x : Word) : (writeV g l r x).wait = g.wait := rfl
@[simp] theorem writeV_parkInfo (g : Group) (l r : Nat) (x : Word) : (writeV g l r x).parkInfo = g.parkInfo := rfl
@[simp] theorem writeV_flights (g : Group) (l r : Nat) (x : Word) : (writeV g l r x).flights = g.flights := rfl
@[simp] theorem writeV_stores (g : Group) (l r : Nat) (x : Word) : (writeV g l r x).stores = g.stores := rfl
@[simp] theorem writeV_storeErr (g : Group) (l r : Nat) (x : Word) : (writeV g l r x).storeErr = g.storeErr := rfl
@[simp] theorem writeV_floor (g : Group) (l r : Nat) (x : Word) : (writeV g l r x).floor = g.floor := rfl
@[simp] theorem writeV_lastT (g : Group) (l r : Nat) (x : Word) : (writeV g l r x).lastT = g.lastT := rfl
@[simp] theorem writeV_tags (g : Group) (l r : Nat) (x : Word) : (writeV g l r x).tags = g.tags := rfl
@[simp] theorem writeV_relFence (g : Group) (l r : Nat) (x : Word) : (writeV g l r x).relFence = g.relFence := rfl
@[simp] theorem writeV_stamp (g : Group) (l r : Nat) (x : Word) : (writeV g l r x).stamp = g.stamp := rfl
@[simp] theorem writeV_lateErrs (g : Group) (l r : Nat) (x : Word) : (writeV g l r x).lateErrs = g.lateErrs := rfl
@[simp] theorem writeV_failed (g : Group) (l r : Nat) (x : Word) : (writeV g l r x).failed = g.failed := rfl
@[simp] theorem writeV_fences (g : Group) (l r : Nat) (x : Word) : (writeV g l r x).fences = g.fences := rfl
@[simp] theorem writeV_mmaT (g : Group) (l r : Nat) (x : Word) : (writeV g l r x).mmaT = g.mmaT := rfl
@[simp] theorem writeV_mmaErr (g : Group) (l r : Nat) (x : Word) : (writeV g l r x).mmaErr = g.mmaErr := rfl
@[simp] theorem writeV_rq (g : Group) (l r : Nat) (x : Word) : (writeV g l r x).rq = g.rq := rfl
@[simp] theorem writeV_task (g : Group) (l r : Nat) (x : Word) : (writeV g l r x).task = g.task := rfl
@[simp] theorem writeV_tape (g : Group) (l r : Nat) (x : Word) : (writeV g l r x).tape = g.tape := rfl

@[simp] theorem writeK_id (g : Group) (r : Nat) (x : Word) : (writeK g r x).id = g.id := rfl
@[simp] theorem writeK_disp (g : Group) (r : Nat) (x : Word) : (writeK g r x).disp = g.disp := rfl
@[simp] theorem writeK_teamid (g : Group) (r : Nat) (x : Word) : (writeK g r x).teamid = g.teamid := rfl
@[simp] theorem writeK_grpid (g : Group) (r : Nat) (x : Word) : (writeK g r x).grpid = g.grpid := rfl
@[simp] theorem writeK_core (g : Group) (r : Nat) (x : Word) : (writeK g r x).core = g.core := rfl
@[simp] theorem writeK_sector (g : Group) (r : Nat) (x : Word) : (writeK g r x).sector = g.sector := rfl
@[simp] theorem writeK_col (g : Group) (r : Nat) (x : Word) : (writeK g r x).col = g.col := rfl
@[simp] theorem writeK_width (g : Group) (r : Nat) (x : Word) : (writeK g r x).width = g.width := rfl
@[simp] theorem writeK_blocks (g : Group) (r : Nat) (x : Word) : (writeK g r x).blocks = g.blocks := rfl
@[simp] theorem writeK_v (g : Group) (r : Nat) (x : Word) : (writeK g r x).v = g.v := rfl
@[simp] theorem writeK_preds (g : Group) (r : Nat) (x : Word) : (writeK g r x).preds = g.preds := rfl
@[simp] theorem writeK_lat (g : Group) (r : Nat) (x : Word) : (writeK g r x).lat = g.lat := rfl
@[simp] theorem writeK_latw (g : Group) (r : Nat) (x : Word) : (writeK g r x).latw = g.latw := rfl
@[simp] theorem writeK_pcv (g : Group) (r : Nat) (x : Word) : (writeK g r x).pcv = g.pcv := rfl
@[simp] theorem writeK_deferred (g : Group) (r : Nat) (x : Word) : (writeK g r x).deferred = g.deferred := rfl
@[simp] theorem writeK_parked (g : Group) (r : Nat) (x : Word) : (writeK g r x).parked = g.parked := rfl
@[simp] theorem writeK_naps (g : Group) (r : Nat) (x : Word) : (writeK g r x).naps = g.naps := rfl
@[simp] theorem writeK_chain (g : Group) (r : Nat) (x : Word) : (writeK g r x).chain = g.chain := rfl
@[simp] theorem writeK_segLocal (g : Group) (r : Nat) (x : Word) : (writeK g r x).segLocal = g.segLocal := rfl
@[simp] theorem writeK_segConst (g : Group) (r : Nat) (x : Word) : (writeK g r x).segConst = g.segConst := rfl
@[simp] theorem writeK_segGlob (g : Group) (r : Nat) (x : Word) : (writeK g r x).segGlob = g.segGlob := rfl
@[simp] theorem writeK_flushctl (g : Group) (r : Nat) (x : Word) : (writeK g r x).flushctl = g.flushctl := rfl
@[simp] theorem writeK_fpstat (g : Group) (r : Nat) (x : Word) : (writeK g r x).fpstat = g.fpstat := rfl
@[simp] theorem writeK_fptrap (g : Group) (r : Nat) (x : Word) : (writeK g r x).fptrap = g.fptrap := rfl
@[simp] theorem writeK_mstat (g : Group) (r : Nat) (x : Word) : (writeK g r x).mstat = g.mstat := rfl
@[simp] theorem writeK_prio (g : Group) (r : Nat) (x : Word) : (writeK g r x).prio = g.prio := rfl
@[simp] theorem writeK_age (g : Group) (r : Nat) (x : Word) : (writeK g r x).age = g.age := rfl
@[simp] theorem writeK_readyClks (g : Group) (r : Nat) (x : Word) : (writeK g r x).readyClks = g.readyClks := rfl
@[simp] theorem writeK_lastIssue (g : Group) (r : Nat) (x : Word) : (writeK g r x).lastIssue = g.lastIssue := rfl
@[simp] theorem writeK_born (g : Group) (r : Nat) (x : Word) : (writeK g r x).born = g.born := rfl
@[simp] theorem writeK_trec (g : Group) (r : Nat) (x : Word) : (writeK g r x).trec = g.trec := rfl
@[simp] theorem writeK_shadow (g : Group) (r : Nat) (x : Word) : (writeK g r x).shadow = g.shadow := rfl
@[simp] theorem writeK_state (g : Group) (r : Nat) (x : Word) : (writeK g r x).state = g.state := rfl
@[simp] theorem writeK_before (g : Group) (r : Nat) (x : Word) : (writeK g r x).before = g.before := rfl
@[simp] theorem writeK_wait (g : Group) (r : Nat) (x : Word) : (writeK g r x).wait = g.wait := rfl
@[simp] theorem writeK_parkInfo (g : Group) (r : Nat) (x : Word) : (writeK g r x).parkInfo = g.parkInfo := rfl
@[simp] theorem writeK_flights (g : Group) (r : Nat) (x : Word) : (writeK g r x).flights = g.flights := rfl
@[simp] theorem writeK_stores (g : Group) (r : Nat) (x : Word) : (writeK g r x).stores = g.stores := rfl
@[simp] theorem writeK_storeErr (g : Group) (r : Nat) (x : Word) : (writeK g r x).storeErr = g.storeErr := rfl
@[simp] theorem writeK_floor (g : Group) (r : Nat) (x : Word) : (writeK g r x).floor = g.floor := rfl
@[simp] theorem writeK_lastT (g : Group) (r : Nat) (x : Word) : (writeK g r x).lastT = g.lastT := rfl
@[simp] theorem writeK_tags (g : Group) (r : Nat) (x : Word) : (writeK g r x).tags = g.tags := rfl
@[simp] theorem writeK_relFence (g : Group) (r : Nat) (x : Word) : (writeK g r x).relFence = g.relFence := rfl
@[simp] theorem writeK_stamp (g : Group) (r : Nat) (x : Word) : (writeK g r x).stamp = g.stamp := rfl
@[simp] theorem writeK_lateErrs (g : Group) (r : Nat) (x : Word) : (writeK g r x).lateErrs = g.lateErrs := rfl
@[simp] theorem writeK_failed (g : Group) (r : Nat) (x : Word) : (writeK g r x).failed = g.failed := rfl
@[simp] theorem writeK_fences (g : Group) (r : Nat) (x : Word) : (writeK g r x).fences = g.fences := rfl
@[simp] theorem writeK_mmaT (g : Group) (r : Nat) (x : Word) : (writeK g r x).mmaT = g.mmaT := rfl
@[simp] theorem writeK_mmaErr (g : Group) (r : Nat) (x : Word) : (writeK g r x).mmaErr = g.mmaErr := rfl
@[simp] theorem writeK_rq (g : Group) (r : Nat) (x : Word) : (writeK g r x).rq = g.rq := rfl
@[simp] theorem writeK_task (g : Group) (r : Nat) (x : Word) : (writeK g r x).task = g.task := rfl
@[simp] theorem writeK_tape (g : Group) (r : Nat) (x : Word) : (writeK g r x).tape = g.tape := rfl

end Sys2Proof.Laws
end

