-- ==== Sys2Proof/Laws/Groups.lean ====
section
/-! SUPPORT. Finding a part of the state after an update, and what a group keeps when registers and predicates are written. -/
namespace Sys2Proof.Laws
open Sys2Proof.Machine

/-! ### Finding -/

/-- An element of a list found by its key after every element of that key has been changed. -/
theorem find_map_self {α : Type} {p : α → Bool} {q : α → Prop} [DecidablePred q] {f : α → α} {l : List α} {a : α} (h : l.find? p = some a)
    (hq : ∀ b, p b = true → q b) (hp : ∀ b, q b → p (f b) = p b) : (l.map fun b => if q b then f b else b).find? p = some (f a) := by
  induction l with
  | nil => simp at h
  | cons b t ih =>
    simp only [List.find?_cons, List.map_cons] at h ⊢
    by_cases hb : p b = true
    · simp only [hb, Option.some.injEq] at h
      subst h
      simp [hq _ hb, hp _ (hq _ hb), hb]
    · simp only [hb] at h
      by_cases hqb : q b
      · simp [hqb, hp _ hqb, hb, ih h]
      · simp [hqb, hb, ih h]

/-- Elements of other keys are found as before. -/
theorem find_map_other {α : Type} {p : α → Bool} {q : α → Prop} [DecidablePred q] {f : α → α} {l : List α}
    (hq : ∀ b, q b → p b = false ∧ p (f b) = false) : (l.map fun b => if q b then f b else b).find? p = l.find? p := by
  induction l with
  | nil => rfl
  | cons b t ih =>
    simp only [List.map_cons, List.find?_cons]
    by_cases hqb : q b
    · simp [hqb, hq _ hqb, ih]
    · simp [hqb, ih]

theorem findGroup_modGroup {s : State} {id : Nat} {g : Group} {f : Group → Group} (h : findGroup s id = some g) (hf : ∀ g, (f g).id = g.id) :
    findGroup (modGroup s id f) id = some (f g) :=
  find_map_self (p := fun g : Group => g.id == id) (q := fun g : Group => g.id = id) h (by simp) (by simp [hf])

theorem findGroup_modGroup_other {s : State} {id n : Nat} {f : Group → Group} (h : n ≠ id) (hf : ∀ g, (f g).id = g.id) :
    findGroup (modGroup s n f) id = findGroup s id :=
  find_map_other (p := fun g : Group => g.id == id) (q := fun g : Group => g.id = n) (by intro b hb; simp [hf, hb, h])

theorem findGroup_setGroup {s : State} {g h : Group} (hs : findGroup s g.id = some h) : findGroup (setGroup s g) g.id = some g :=
  find_map_self (p := fun h : Group => h.id == g.id) (q := fun h : Group => h.id = g.id) (f := fun _ => g) hs (by simp) (by simp +contextual)

theorem findGroup_setGroup_other {s : State} {g : Group} {id : Nat} (h : g.id ≠ id) : findGroup (setGroup s g) id = findGroup s id :=
  find_map_other (p := fun h : Group => h.id == id) (q := fun h : Group => h.id = g.id) (f := fun _ => g) (by intro b hb; simp [hb, h])

theorem findCore_modCore {s : State} {c : Nat} {k : Core} {f : Core → Core} (h : findCore s c = some k) (hf : ∀ k, (f k).lcore = k.lcore) :
    findCore (modCore s c f) c = some (f k) :=
  find_map_self (p := fun k : Core => k.lcore == c) (q := fun k : Core => k.lcore = c) h (by simp) (by simp [hf])

theorem findCore_modCore_other {s : State} {c n : Nat} {f : Core → Core} (h : n ≠ c) (hf : ∀ k, (f k).lcore = k.lcore) :
    findCore (modCore s n f) c = findCore s c :=
  find_map_other (p := fun k : Core => k.lcore == c) (q := fun k : Core => k.lcore = n) (by intro b hb; simp [hf, hb, h])

theorem findDie_modDie {s : State} {d : Nat} {k : Die} {f : Die → Die} (h : findDie s d = some k) (hf : ∀ k, (f k).num = k.num) :
    findDie (modDie s d f) d = some (f k) :=
  find_map_self (p := fun k : Die => k.num == d) (q := fun k : Die => k.num = d) h (by simp) (by simp [hf])

theorem findDie_modDie_other {s : State} {d n : Nat} {f : Die → Die} (h : n ≠ d) (hf : ∀ k, (f k).num = k.num) :
    findDie (modDie s n f) d = findDie s d :=
  find_map_other (p := fun k : Die => k.num == d) (q := fun k : Die => k.num = n) (by intro b hb; simp [hf, hb, h])

/-! ### Registers and predicates written -/

/-- Registers written leave everything of a group but its v and k registers. -/
theorem writeRegs_eq (g : Group) (l : Nat) (o : Opnd) (n x : Nat) :
    writeRegs g l o n x = { g with v := (writeRegs g l o n x).v, k := (writeRegs g l o n x).k } := by
  unfold writeRegs
  generalize List.range n = is
  induction is generalizing g with
  | nil => rfl
  | cons i is ih =>
    simp only [List.foldl_cons]
    rw [ih]
    cases o <;> rfl

theorem writeDst_eq (g : Group) (o : Opnd) (n : Nat) (vals : List (Nat × Nat)) :
    writeDst g o n vals = { g with v := (writeDst g o n vals).v, k := (writeDst g o n vals).k } := by
  unfold writeDst
  cases o
  case k r =>
    cases vals with
    | nil => rfl
    | cons p t => exact writeRegs_eq ..
  case v r =>
    simp only
    induction vals generalizing g with
    | nil => rfl
    | cons p t ih => simp only [List.foldl_cons]; rw [ih, writeRegs_eq g]
  all_goals rfl

theorem putDst_eq (g : Group) (i : Instr) (vals : List (Nat × Nat)) :
    putDst g i vals = { g with v := (putDst g i vals).v, k := (putDst g i vals).k } := by
  unfold putDst
  split
  · exact writeDst_eq ..
  · rfl

/-- Predicates written leave everything of a group but its predicates. -/
theorem setPred_eq (g : Group) (n l : Nat) (b : Bool) : setPred g n l b = { g with preds := (setPred g n l b).preds } := by
  unfold setPred; split <;> rfl

theorem putPreds_eq (g : Group) (n : Nat) (vals : List (Nat × Bool)) : putPreds g n vals = { g with preds := (putPreds g n vals).preds } := by
  unfold putPreds
  induction vals generalizing g with
  | nil => rfl
  | cons p t ih => simp only [List.foldl_cons]; rw [ih]; rw [setPred_eq g]

/-- p7 reads true, and nothing writes it (R14). -/
theorem predOf_seven (g : Group) (l : Nat) : predOf g 7 l = true := rfl

theorem putPreds_seven (g : Group) (vals : List (Nat × Bool)) : putPreds g 7 vals = g := by
  unfold putPreds
  induction vals with
  | nil => rfl
  | cons p t ih => exact ih

end Sys2Proof.Laws
end

