-- ==== Sys2Proof/Laws/Issue.lean ====
section
/-! SUPPORT. What the frame around every instruction does once its issue reaches the instruction's own effect. -/
namespace Sys2Proof.Laws
open Sys2Proof.Machine Sys2Proof.Safety

/-- The selected group is found again by its own number. -/
theorem findGroup_self {s : State} {id : Nat} {g : Group} (h : findGroup s id = some g) : findGroup s g.id = some g := by
  have hid : (g.id == id) = true := List.find?_some (p := fun h : Group => h.id == id) h
  rw [eq_of_beq hid]; exact h

/-- What `issueOf` says: a selected group whose issue is `x`, that waits for nothing and meets no trap. -/
theorem issueOf_some {s : State} {i : Instr} {x : Issue} (h : issueOf s i = some x) :
    ∃ g, s.cur.bind (findGroup s) = some g ∧ mkIssue g i = some x ∧ waitSeq g i (chainRegs s g i) = none ∧ issueTrap s x = none := by
  unfold issueOf at h
  split at h
  · contradiction
  · rename_i g hg
    split at h
    · rename_i y hy
      split at h
      · cases h; exact ⟨g, hg, hy, by tauto⟩
      · contradiction
    · contradiction

/-- The group of a selected issue is found by its number. -/
theorem found_of_cur {s : State} {g : Group} (h : s.cur.bind (findGroup s) = some g) : findGroup s g.id = some g := by
  cases hc : s.cur with
  | none => simp [hc] at h
  | some c => simp [hc] at h; exact findGroup_self h

/-- One attempt, once the issue is known to reach the instruction's own effect. -/
theorem attempt_eq {s : State} {i : Instr} {x : Issue} {g : Group} {body : Issue → State → IRes} (hg : findGroup s g.id = some g)
    (hx : mkIssue g i = some x) (ht : issueTrap s x = none) :
    attempt i s g.id body = (finish x (body x (entry s x)), (body x (entry s x)).trapped) := by
  simp only [attempt, hg, Option.bind_some, hx, ht, entry]

/-- An instruction whose body does not trap: its answer, made the next state. -/
theorem issue_done {s : State} {i : Instr} {x : Issue} {body : Issue → State → IRes} (h : issueOf s i = some x)
    (hb : ∀ s' t, body x (entry s x) ≠ .trap s' t) : issue i s body = .next (finish x (body x (entry s x))) := by
  obtain ⟨g, hc, hx, hw, ht⟩ := issueOf_some h
  have hg := found_of_cur hc
  have hn : (body x (entry s x)).trapped = false := by
    cases hr : body x (entry s x) with
    | trap s' t => exact absurd hr (hb s' t)
    | _ => rfl
  simp [issue, hc, prepare, hw, settleTrap, attempt_eq hg hx ht, hn]

/-- The group of an issue is the selected group with its deferral cleared where R190 clears it. -/
theorem mkIssue_g {g : Group} {i : Instr} {x : Issue} (h : mkIssue g i = some x) : x.g = clearDeferral g ∧ x.i = i := by
  simp only [mkIssue, Option.map_eq_some_iff] at h
  obtain ⟨pc, -, rfl⟩ := h
  exact ⟨rfl, rfl⟩

theorem inFlight_clearDeferral (g : Group) : inFlight (clearDeferral g) = inFlight g := by unfold clearDeferral; split <;> rfl

/-- The instruction of an issue is the one that issues. -/
theorem issueOf_i {s : State} {i : Instr} {x : Issue} (h : issueOf s i = some x) : x.i = i := by
  obtain ⟨g, -, hx, -, -⟩ := issueOf_some h; exact (mkIssue_g hx).2

/-- An instruction of a group with no load or atomic in flight: its body's answer, made the next state, a trap among them. -/
theorem issue_eq {s : State} {i : Instr} {x : Issue} {body : Issue → State → IRes} (h : issueOf s i = some x) (hf : inFlight x.g = false) :
    issue i s body = .next (finish x (body x (entry s x))) := by
  obtain ⟨g, hc, hx, hw, ht⟩ := issueOf_some h
  have hg := found_of_cur hc
  have hfl : inFlight g = false := by rw [← inFlight_clearDeferral, ← (mkIssue_g hx).1]; exact hf
  simp [issue, hc, prepare, hw, settleTrap, attempt_eq hg hx ht, hg, hfl]

/-- What `convIssueOf` says: every lane of the selected group has arrived, the instruction waits for nothing and meets no trap. -/
theorem convIssueOf_some {s : State} {i : Instr} {x : Issue} (h : convIssueOf s i = some x) :
    ∃ g y, s.cur.bind (findGroup s) = some g ∧ mkIssue g i = some y ∧ converged y = true ∧ waitSeq g i (chainRegs s g i) = none ∧
      x = joinConverged y ∧ issueTrap s x = none := by
  unfold convIssueOf at h
  split at h
  · contradiction
  · rename_i g hg
    split at h
    · rename_i y hy
      split at h
      · cases h; exact ⟨g, y, hg, hy, by tauto⟩
      · contradiction
    · contradiction

/-- A convergent instruction at which every lane has arrived, when its body does not trap. -/
theorem issueConv_done {s : State} {i : Instr} {x : Issue} {body : Issue → State → IRes} (h : convIssueOf s i = some x)
    (hb : ∀ s' t, body x (entry s x) ≠ .trap s' t) : issueConv i s body = .next (finish x (body x (entry s x))) := by
  obtain ⟨g, y, hc, hy, hv, hw, rfl, ht⟩ := convIssueOf_some h
  have hg := found_of_cur hc
  simp only [entry] at hb ⊢
  simp only [issueConv, hc, prepare, hw, settleTrap, attemptConv, hg, Option.bind_some, hy, hv, ht, if_true]
  cases hr : body (joinConverged y) (setGroup s (joinConverged y).g) with
  | trap s' t => exact absurd hr (hb s' t)
  | _ => simp [IRes.trapped]

end Sys2Proof.Laws
end

