-- ==== Sys2Proof/Laws/Sparse.lean ====
section
/-! SUPPORT. Sparse tables: a read after a write, and the canonical form that every write keeps. -/
namespace Sys2Proof.Laws
open Sys2Proof.Machine

theorem sparse_get_filter (d : α) (t : List (Nat × α)) (i j : Nat) :
    Sparse.get d (t.filter fun e => e.1 != i) j = if j = i then d else Sparse.get d t j := by
  induction t with
  | nil => simp [Sparse.get]
  | cons e t ih =>
    obtain ⟨k, a⟩ := e
    by_cases hk : k = i
    · subst hk
      simp only [List.filter_cons, bne_self_eq_false, Bool.false_eq_true, if_false, ih, Sparse.get]
      by_cases hj : j = k <;> simp [hj]
    · simp only [List.filter_cons, bne_iff_ne, ne_eq, hk, not_false_eq_true, if_true, Sparse.get, ih]
      by_cases hj : j = k
      · subst hj; simp [hk]
      · simp [hj]

theorem sparse_get_ins (d : α) (t : List (Nat × α)) (i j : Nat) (x : α) (h : ∀ e ∈ t, e.1 ≠ i) :
    Sparse.get d (Sparse.ins i x t) j = if j = i then x else Sparse.get d t j := by
  induction t with
  | nil => simp [Sparse.get, Sparse.ins]
  | cons e t ih =>
    obtain ⟨k, a⟩ := e
    have hk : k ≠ i := h (k, a) (by simp)
    have ht := ih fun e he => h e (by simp [he])
    by_cases hlt : i < k
    · simp [Sparse.ins, hlt, Sparse.get]
    · simp only [Sparse.ins, hlt, if_false, Sparse.get, ht]
      by_cases hj : j = k
      · subst hj; simp [hk]
      · simp [hj]

/-- A read after a write: the value written at its key, and at every other key what stood there. -/
theorem sparse_get_put [DecidableEq α] (d : α) (t : List (Nat × α)) (i j : Nat) (x : α) :
    Sparse.get d (Sparse.put d t i x) j = if j = i then x else Sparse.get d t j := by
  unfold Sparse.put
  split
  · rename_i hx; subst hx; exact sparse_get_filter ..
  · rw [sparse_get_ins _ _ _ _ _ (by intro e he; simp at he; exact he.2), sparse_get_filter]
    by_cases hj : j = i <;> simp [hj]

@[simp] theorem sparse_get_put_self [DecidableEq α] (d : α) (t : List (Nat × α)) (i : Nat) (x : α) :
    Sparse.get d (Sparse.put d t i x) i = x := by rw [sparse_get_put, if_pos rfl]

theorem sparse_get_put_ne [DecidableEq α] (d : α) (t : List (Nat × α)) {i j : Nat} (x : α) (h : j ≠ i) :
    Sparse.get d (Sparse.put d t i x) j = Sparse.get d t j := by rw [sparse_get_put, if_neg h]

theorem sparse_wfFrom_mono [DecidableEq α] {d : α} {t : List (Nat × α)} {lo hi : Nat} (h : lo ≤ hi) (hw : Sparse.wfFrom d hi t = true) :
    Sparse.wfFrom d lo t = true := by
  cases t with
  | nil => rfl
  | cons e t => simp only [Sparse.wfFrom, Bool.and_eq_true, decide_eq_true_eq] at hw ⊢; exact ⟨⟨by omega, hw.1.2⟩, hw.2⟩

theorem sparse_wf_filter [DecidableEq α] {d : α} {t : List (Nat × α)} {lo : Nat} (p : Nat × α → Bool) (hw : Sparse.wfFrom d lo t = true) :
    Sparse.wfFrom d lo (t.filter p) = true := by
  induction t generalizing lo with
  | nil => rfl
  | cons e t ih =>
    simp only [Sparse.wfFrom, Bool.and_eq_true, decide_eq_true_eq] at hw
    simp only [List.filter_cons]
    split
    · simp only [Sparse.wfFrom, Bool.and_eq_true, decide_eq_true_eq]; exact ⟨hw.1, ih hw.2⟩
    · exact sparse_wfFrom_mono (by omega) (ih hw.2)

theorem sparse_wf_ins [DecidableEq α] {d : α} {t : List (Nat × α)} {lo i : Nat} {x : α} (hi : lo ≤ i) (hx : x ≠ d)
    (hn : ∀ e ∈ t, e.1 ≠ i) (hw : Sparse.wfFrom d lo t = true) : Sparse.wfFrom d lo (Sparse.ins i x t) = true := by
  induction t generalizing lo with
  | nil => simp [Sparse.ins, Sparse.wfFrom, hi, hx]
  | cons e t ih =>
    obtain ⟨k, a⟩ := e
    have hk : k ≠ i := hn (k, a) (by simp)
    simp only [Sparse.wfFrom, Bool.and_eq_true, decide_eq_true_eq] at hw
    by_cases hlt : i < k
    · simp only [Sparse.ins, hlt, if_true, Sparse.wfFrom, Bool.and_eq_true, decide_eq_true_eq]
      exact ⟨⟨hi, hx⟩, ⟨by omega, hw.1.2⟩, hw.2⟩
    · simp only [Sparse.ins, hlt, if_false, Sparse.wfFrom, Bool.and_eq_true, decide_eq_true_eq]
      exact ⟨hw.1, ih (by omega) (fun e he => hn e (by simp [he])) hw.2⟩

/-- Every write keeps the canonical form. -/
theorem sparse_wf_put [DecidableEq α] {d : α} {t : List (Nat × α)} (i : Nat) (x : α) (hw : Sparse.wf d t = true) :
    Sparse.wf d (Sparse.put d t i x) = true := by
  unfold Sparse.put
  split
  · exact sparse_wf_filter _ hw
  · rename_i hx
    exact sparse_wf_ins (by omega) hx (by intro e he; simp at he; exact he.2) (sparse_wf_filter _ hw)

/-- In canonical form an entry is found by its key. -/
theorem sparse_get_mem [DecidableEq α] {d : α} {t : List (Nat × α)} {lo i : Nat} {x : α} (hw : Sparse.wfFrom d lo t = true) (h : (i, x) ∈ t) :
    Sparse.get d t i = x := by
  induction t generalizing lo with
  | nil => simp at h
  | cons e t ih =>
    obtain ⟨k, a⟩ := e
    simp only [Sparse.wfFrom, Bool.and_eq_true, decide_eq_true_eq] at hw
    rcases List.mem_cons.mp h with h | h
    · cases h; simp [Sparse.get]
    · have hlt : ∀ {lo} {t : List (Nat × α)}, Sparse.wfFrom d lo t = true → ∀ e ∈ t, lo ≤ e.1 := by
        intro lo t
        induction t generalizing lo with
        | nil => simp
        | cons e t ih2 =>
          intro hw e' he'
          simp only [Sparse.wfFrom, Bool.and_eq_true, decide_eq_true_eq] at hw
          rcases List.mem_cons.mp he' with rfl | he'
          · exact hw.1.1
          · have := ih2 hw.2 e' he'; omega
      have := hlt hw.2 _ h
      simp only [Sparse.get]
      rw [if_neg (by simp at this; omega)]
      exact ih hw.2 h

end Sys2Proof.Laws
end

