-- ==== Sys2Proof/Laws/Registers.lean ====
section
/-! SUPPORT. Registers and predicates read after they are written. -/
namespace Sys2Proof.Laws
open Sys2Proof.Machine

theorem readV_writeV (g : Group) (l r l' r' : Nat) (x : Word) (h : r < 256) (h' : r' < 256) :
    readV (writeV g l r x) l' r' = if l' = l ∧ r' = r then x else readV g l' r' := by
  simp only [readV, writeV, sparse_get_put]
  by_cases e : l' = l ∧ r' = r
  · simp [e]
  · rw [if_neg (by omega), if_neg e]

theorem readK_writeK (g : Group) (r r' : Nat) (x : Word) : readK (writeK g r x) r' = if r' = r then x else readK g r' := by
  simp only [readK, writeK, sparse_get_put]

@[simp] theorem readV_writeK (g : Group) (r l n : Nat) (x : Word) : readV (writeK g r x) l n = readV g l n := rfl
@[simp] theorem readK_writeV (g : Group) (l r n : Nat) (x : Word) : readK (writeV g l r x) n = readK g n := rfl

/-- A register of a lane after `words` registers from a v register up were written in one lane. -/
theorem readV_writeRegs (g : Group) (l : Nat) (n : BitVec 8) (words x l' r : Nat) (hr : r < 256) (hw : n.toNat + words ≤ 256) :
    readV (writeRegs g l (.v n) words x) l' r =
      if l' = l ∧ n.toNat ≤ r ∧ r < n.toNat + words then BitVec.ofNat 32 (x >>> (32 * (r - n.toNat))) else readV g l' r := by
  unfold writeRegs
  induction words with
  | zero => simp
  | succ w ih =>
    rw [List.range_succ, List.foldl_append, List.foldl_cons, List.foldl_nil, readV_writeV _ _ _ _ _ _ (by omega) hr, ih (by omega)]
    by_cases e : l' = l ∧ r = n.toNat + w
    · rw [if_pos e, if_pos (by omega)]
      obtain ⟨-, rfl⟩ := e
      simp
    · rw [if_neg e]
      by_cases f : l' = l ∧ n.toNat ≤ r ∧ r < n.toNat + w
      · rw [if_pos f, if_pos (by omega)]
      · rw [if_neg f, if_neg (by omega)]

theorem readK_writeRegs (g : Group) (l : Nat) (n : BitVec 6) (words x r : Nat) :
    readK (writeRegs g l (.k n) words x) r =
      if n.toNat ≤ r ∧ r < n.toNat + words then BitVec.ofNat 32 (x >>> (32 * (r - n.toNat))) else readK g r := by
  unfold writeRegs
  induction words with
  | zero => simp
  | succ w ih =>
    rw [List.range_succ, List.foldl_append, List.foldl_cons, List.foldl_nil, readK_writeK, ih]
    by_cases e : r = n.toNat + w
    · subst e; simp
    · rw [if_neg e]
      by_cases f : n.toNat ≤ r ∧ r < n.toNat + w
      · rw [if_pos f, if_pos (by omega)]
      · rw [if_neg f, if_neg (by omega)]

@[simp] theorem readK_writeRegs_v (g : Group) (l : Nat) (n : BitVec 8) (words x r : Nat) :
    readK (writeRegs g l (.v n) words x) r = readK g r := by
  unfold writeRegs
  generalize List.range words = is
  induction is generalizing g with
  | nil => rfl
  | cons i is ih => simp only [List.foldl_cons]; rw [ih]; rfl

@[simp] theorem readV_writeRegs_k (g : Group) (l : Nat) (n : BitVec 6) (words x l' r : Nat) :
    readV (writeRegs g l (.k n) words x) l' r = readV g l' r := by
  unfold writeRegs
  generalize List.range words = is
  induction is generalizing g with
  | nil => rfl
  | cons i is ih => simp only [List.foldl_cons]; rw [ih]; rfl

/-- Registers that no result is for keep their values. -/
theorem readV_writeDst_other (g : Group) (o : Opnd) (words : Nat) (vals : List (Nat × Nat)) (l r : Nat) (hr : r < 256)
    (hw : ∀ n, o = .v n → n.toNat + words ≤ 256) (h : l ∉ vals.map (·.1) ∨ r ∉ opndRegs o words) :
    readV (writeDst g o words vals) l r = readV g l r := by
  cases o
  case v n =>
    simp only [writeDst]
    induction vals generalizing g with
    | nil => rfl
    | cons p t ih =>
      rw [List.foldl_cons, ih _ (by simp only [List.map_cons, List.mem_cons] at h; tauto), readV_writeRegs _ _ _ _ _ _ _ hr (hw n rfl), if_neg]
      rintro ⟨rfl, h1, h2⟩
      rcases h with h | h
      · simp at h
      · exact h (by simp only [opndRegs, List.mem_map, List.mem_range]; exact ⟨r - n.toNat, by omega, by omega⟩)
  case k n => simp only [writeDst]; split <;> simp
  all_goals rfl

theorem readK_writeDst_other (g : Group) (o : Opnd) (words : Nat) (vals : List (Nat × Nat)) (r : Nat) (h : 256 + r ∉ opndRegs o words) :
    readK (writeDst g o words vals) r = readK g r := by
  cases o
  case v n =>
    simp only [writeDst]
    induction vals generalizing g with
    | nil => rfl
    | cons p t ih => rw [List.foldl_cons, ih, readK_writeRegs_v]
  case k n =>
    simp only [writeDst]
    split
    · rfl
    · rw [readK_writeRegs, if_neg]
      rintro ⟨h1, h2⟩
      exact h (by simp only [opndRegs, List.mem_map, List.mem_range]; exact ⟨r - n.toNat, by omega, by omega⟩)
  all_goals rfl

/-- Words read one by one make up the number that they were written from. -/
theorem wordsNum (f : Nat → Word) (w x : Nat) (h : ∀ i, i < w → f i = BitVec.ofNat 32 (x >>> (32 * i))) :
    (List.range w).foldl (fun a i => a + (f i).toNat <<< (32 * i)) 0 = x % 2 ^ (32 * w) := by
  induction w with
  | zero => simp [Nat.mod_one]
  | succ w ih =>
    rw [List.range_succ, List.foldl_append, ih (fun i hi => h i (by omega)), List.foldl_cons, List.foldl_nil, h w (by omega)]
    rw [BitVec.toNat_ofNat, Nat.shiftLeft_eq, Nat.shiftRight_eq_div_pow, show 32 * (w + 1) = 32 * w + 32 by omega, Nat.pow_add,
      Nat.mod_mul]
    ring

/-- A lane's result stands in its v registers (R145). -/
theorem readRegs_writeDst_v (g : Group) (n : BitVec 8) (w : Nat) (vals : List (Nat × Nat)) (e : Nat × Nat) (hw : n.toNat + w ≤ 256)
    (hn : (vals.map (·.1)).Nodup) (he : e ∈ vals) : readRegs (writeDst g (.v n) w vals) e.1 (.v n) w = e.2 % 2 ^ (32 * w) := by
  refine wordsNum _ _ _ fun i hi => ?_
  dsimp only
  induction vals generalizing g with
  | nil => simp at he
  | cons p t ih =>
    have hs : writeDst g (.v n) w (p :: t) = writeDst (writeRegs g p.1 (.v n) w p.2) (.v n) w t := rfl
    rw [hs]
    simp only [List.map_cons, List.nodup_cons] at hn
    rcases List.mem_cons.mp he with rfl | ht
    · rw [readV_writeDst_other _ _ _ _ _ _ (by omega) (by rintro m hm; cases hm; exact hw) (.inl hn.1),
        readV_writeRegs _ _ _ _ _ _ _ (by omega) hw, if_pos ⟨rfl, by omega, by omega⟩]
      congr 3; omega
    · exact ih _ hn.2 ht

/-- A k destination holds the result of the lowest lane (R27). -/
theorem readRegs_writeDst_k (g : Group) (n : BitVec 6) (w l : Nat) (e : Nat × Nat) (t : List (Nat × Nat)) :
    readRegs (writeDst g (.k n) w (e :: t)) l (.k n) w = e.2 % 2 ^ (32 * w) := by
  refine wordsNum _ _ _ fun i hi => ?_
  simp only [writeDst]
  rw [readK_writeRegs, if_pos ⟨by omega, by omega⟩]
  congr 3; omega

/-! ### Predicates -/

theorem predOf_setPred (g : Group) (n l m j : Nat) (b : Bool) (hl : l < 64) :
    predOf (setPred g n l b) m j = if m = n ∧ j = l ∧ n ≠ 7 then b else predOf g m j := by
  unfold predOf setPred
  by_cases h7 : m = 7
  · simp [h7]; omega
  · by_cases hn : n = 7
    · simp [hn, h7]
    · simp only [h7, hn, if_false, sparse_get_put]
      by_cases hm : m = n
      · subst hm
        simp only [if_true]
        have hbit : (BitVec.ofNat 64 (1 <<< l)).getLsbD j = decide (j = l) := by
          simp only [BitVec.getLsbD_ofNat, Nat.one_shiftLeft, Nat.testBit_two_pow]
          by_cases hj : j = l
          · subst hj; simp [hl]
          · simp [hj, Ne.symm hj]
        by_cases hj : j = l
        · subst hj
          cases b <;> simp [hbit, hl, hn]
        · by_cases hj64 : j < 64
          · rw [BitVec.getLsbD_eq_getElem hj64] at hbit
            cases b <;> simp [hbit, hj, hj64]
          · cases b <;> simp [hj, BitVec.getLsbD_of_ge _ _ (Nat.le_of_not_lt hj64)]
      · simp [hm]

/-- Predicates that no result is for keep their values. -/
theorem predOf_putPreds_other (g : Group) (n : Nat) (vals : List (Nat × Bool)) (m j : Nat) (hl : ∀ e ∈ vals, e.1 < 64)
    (h : m ≠ n ∨ j ∉ vals.map (·.1)) : predOf (putPreds g n vals) m j = predOf g m j := by
  unfold putPreds
  induction vals generalizing g with
  | nil => rfl
  | cons p t ih =>
    simp only [List.map_cons, List.mem_cons] at h
    rw [List.foldl_cons, ih _ (fun e he => hl e (by simp [he])) (by tauto), predOf_setPred _ _ _ _ _ _ (hl p (by simp)), if_neg (by tauto)]

/-- A lane's predicate result stands in its lane. -/
theorem predOf_putPreds (g : Group) (n : Nat) (vals : List (Nat × Bool)) (e : Nat × Bool) (hl : ∀ e ∈ vals, e.1 < 64) (hn : n ≠ 7)
    (hd : (vals.map (·.1)).Nodup) (he : e ∈ vals) : predOf (putPreds g n vals) n e.1 = e.2 := by
  induction vals generalizing g with
  | nil => simp at he
  | cons p t ih =>
    have hs : putPreds g n (p :: t) = putPreds (setPred g n p.1 p.2) n t := rfl
    rw [hs]
    simp only [List.map_cons, List.nodup_cons] at hd
    rcases List.mem_cons.mp he with rfl | ht
    · rw [predOf_putPreds_other _ _ _ _ _ (fun e he => hl e (by simp [he])) (.inr hd.1), predOf_setPred _ _ _ _ _ _ (hl e (by simp)),
        if_pos ⟨rfl, rfl, hn⟩]
    · exact ih _ (fun e he => hl e (by simp [he])) hd.2 ht

/-- A debugger neither reads nor changes a row outside the group's allocation (R131). -/
theorem debug_notAlloc (g : Group) (l r : Nat) (x : Word) (h : allocRegs g ≤ r) :
    debugRead g l r = (.notAlloc, 0) ∧ debugWrite g l r x = (.notAlloc, g) := by
  have h' : ¬ (l < g.width ∧ r < allocRegs g) := fun h' => absurd h'.2 (Nat.not_lt.mpr h)
  simp [debugRead, debugWrite, h']

/-- A debugger's write to an allocated row is what its read then answers (R131). -/
theorem debugRead_debugWrite (g : Group) (l r : Nat) (x : Word) (hl : l < g.width) (hr : r < allocRegs g) :
    debugRead (debugWrite g l r x).2 l r = (.done, x) := by
  have h : (debugWrite g l r x).2 = writeV g l r x := by simp [debugWrite, hl, hr]
  have h1 : allocRegs (writeV g l r x) = allocRegs g := rfl
  have h2 : (writeV g l r x).width = g.width := rfl
  rw [h, debugRead, h1, h2, if_pos ⟨hl, hr⟩]
  simp [readV, writeV]

end Sys2Proof.Laws
end

