-- ==== Sys2Proof/Laws/Complete.lean ====
section
/-! SUPPORT. What the completion of an instruction does to its group, and that it does nothing else. -/
namespace Sys2Proof.Laws
open Sys2Proof.Machine Sys2Proof.Safety

theorem clearDeferral_eq (g : Group) : clearDeferral g = { g with deferred := (clearDeferral g).deferred } := by
  unfold clearDeferral; split <;> rfl

theorem pushLatches_eq (g : Group) (w : Nat) (vals : List (Nat × Nat)) :
    pushLatches g w vals = { g with lat := (pushLatches g w vals).lat, latw := (pushLatches g w vals).latw } := by
  unfold pushLatches
  induction vals generalizing g with
  | nil => rfl
  | cons p t ih => simp only [List.foldl_cons]; rw [ih]

theorem healRegs_eq (s : State) (x : Issue) : healRegs s x = { s with badWords := (healRegs s x).badWords } := by
  unfold healRegs; split <;> rfl

theorem correctWord_eq (s : State) (a : ArrayLoc) : ∃ c k, correctWord s a = { s with corrWords := c, dies := k } := by
  unfold correctWord
  split
  · exact ⟨_, _, rfl⟩
  · exact ⟨s.corrWords, s.dies, rfl⟩

/-- Corrected words change the list of such words and the dies' counts only (R397, R398). -/
theorem correctWhere_eq (s : State) (f : ArrayLoc → Bool) : ∃ c k, correctWhere s f = { s with corrWords := c, dies := k } := by
  unfold correctWhere
  generalize List.filter _ s.corrWords = l
  induction l generalizing s with
  | nil => exact ⟨s.corrWords, s.dies, rfl⟩
  | cons a t ih =>
    obtain ⟨c, k, e⟩ := correctWord_eq s a
    obtain ⟨c', k', e'⟩ := ih (correctWord s a)
    exact ⟨c', k', by rw [List.foldl_cons, e', e]⟩

theorem correctRegs_eq (s : State) (x : Issue) : ∃ c k, correctRegs s x = { s with corrWords := c, dies := k } := by
  unfold correctRegs
  split
  · exact ⟨s.corrWords, s.dies, rfl⟩
  · exact correctWhere_eq s _

/-- The times of results are all that dating them changes (R312). -/
theorem tagResults_eq (g : Group) (x : Issue) : tagResults g x = { g with tags := (tagResults g x).tags } := by
  unfold tagResults; split <;> rfl

theorem pushLatTag_eq (g : Group) (x : Issue) (l : Nat) : pushLatTag g x l = { g with tags := (pushLatTag g x l).tags } := by
  unfold pushLatTag; split <;> rfl

theorem pushLatTags_eq (g : Group) (x : Issue) (lat : List (Nat × Nat)) :
    ∃ t, lat.foldl (fun g e => pushLatTag g x e.1) g = { g with tags := t } := by
  induction lat generalizing g with
  | nil => exact ⟨g.tags, rfl⟩
  | cons e r ih =>
    obtain ⟨t, h⟩ := ih (pushLatTag g x e.1)
    exact ⟨t, by rw [List.foldl_cons, h, pushLatTag_eq]⟩

/-- The group whose latches have taken an instruction's results (R30). -/
def latched (g : Group) (x : Issue) (lat : List (Nat × Nat)) : Group :=
  match producerWidth x.i with
  | some w => lat.foldl (fun g e => pushLatTag g x e.1) (pushLatches (tagResults g x) w lat)
  | none => tagResults g x

theorem latched_eq (g : Group) (x : Issue) (lat : List (Nat × Nat)) :
    ∃ lt lw tg, latched g x lat = { g with lat := lt, latw := lw, tags := tg } := by
  unfold latched
  split
  · rename_i w _
    obtain ⟨t, h⟩ := pushLatTags_eq (pushLatches (tagResults g x) w lat) x lat
    exact ⟨_, _, t, by rw [h, pushLatches_eq, tagResults_eq]⟩
  · exact ⟨_, _, _, tagResults_eq g x⟩

/-- The group after its instruction completes, before it may exit (R30, R31, R187, R190). -/
def completed (g : Group) (x : Issue) (dest : List (Nat × DWord)) (lat : List (Nat × Nat)) : Group :=
  clearDeferral { movePcv (latched g x lat) x dest with chain := advanceChain (latched g x lat) x }

theorem completed_eq (g : Group) (x : Issue) (dest : List (Nat × DWord)) (lat : List (Nat × Nat)) :
    ∃ lt lw tg c d, completed g x dest lat = { g with lat := lt, latw := lw, tags := tg, chain := c, deferred := d, pcv := (movePcv g x dest).pcv } := by
  obtain ⟨lt, lw, tg, h⟩ := latched_eq g x lat
  unfold completed
  rw [clearDeferral_eq, h]
  exact ⟨_, _, _, _, _, rfl⟩

theorem completed_id (g : Group) (x : Issue) (dest : List (Nat × DWord)) (lat : List (Nat × Nat)) : (completed g x dest lat).id = g.id := by
  obtain ⟨_, _, _, _, _, e⟩ := completed_eq g x dest lat; rw [e]

/-- The pcv of a lane after completion: a lane served goes to the next instruction where no target is set (R187). -/
theorem pcvOf_completed (g : Group) (x : Issue) (lat : List (Nat × Nat)) {l : Nat} (hl : l < g.pcv.length) :
    pcvOf (completed g x [] lat) l = if l ∈ x.served then x.next else pcvOf g l := by
  obtain ⟨_, _, _, _, _, e⟩ := completed_eq g x [] lat
  rw [e]
  simp [pcvOf, movePcv, hl]

/-- An instruction completes in a group of which a lane then stands at an address: its group changes to `completed`, errors in the registers it
wrote or read are healed or corrected, and nothing else changes. -/
theorem completeIssue_eq {s : State} {x : Issue} {g : Group} {l : Nat} (dest : List (Nat × DWord)) (lat : List (Nat × Nat))
    (hg : findGroup s x.g.id = some g) (hl : l < g.width) (he : pcvOf (completed g x dest lat) l ≠ exitPc) :
    ∃ b c k, completeIssue s x dest lat = { setGroup s (completed g x dest lat) with badWords := b, corrWords := c, dies := k } := by
  have hid : g.id = x.g.id := by simpa using List.find?_some (p := fun h : Group => h.id == x.g.id) hg
  have hci := completed_id g x dest lat
  obtain ⟨c, k, e⟩ := correctRegs_eq (healRegs (setGroup s (completed g x dest lat)) x) x
  rw [healRegs_eq] at e
  have hf : findGroup (correctRegs (healRegs (setGroup s (completed g x dest lat)) x) x) g.id = some (completed g x dest lat) := by
    have := findGroup_setGroup (s := s) (g := completed g x dest lat) (h := g) (by rw [hci, hid]; exact hg)
    rw [hci] at this
    rw [healRegs_eq, e]
    simpa only [findGroup] using this
  refine ⟨_, _, _, Eq.trans ?_ e⟩
  have hs : completeIssue s x dest lat = exitIfDone (correctRegs (healRegs (setGroup s (completed g x dest lat)) x) x) g.id := by
    have hp : (latched g x lat).id = g.id := by obtain ⟨_, _, _, h⟩ := latched_eq g x lat; rw [h]
    unfold completeIssue
    simp only [hg]
    exact congrArg (exitIfDone _) hp
  rw [hs, ← healRegs_eq]
  have hw : (completed g x dest lat).width = g.width := by obtain ⟨_, _, _, _, _, e⟩ := completed_eq g x dest lat; rw [e]
  unfold exitIfDone
  simp only [hf]
  rw [if_neg]
  rintro ⟨-, ha⟩
  have := List.all_eq_true.mp ha l (by simp [lanesOf, hw, hl])
  exact he (by simpa [laneExited] using this)

/-- The group after an instruction that completes so. -/
theorem findGroup_completeIssue {s : State} {x : Issue} {g : Group} {l : Nat} (dest : List (Nat × DWord)) (lat : List (Nat × Nat))
    (hg : findGroup s x.g.id = some g) (hl : l < g.width) (he : pcvOf (completed g x dest lat) l ≠ exitPc) :
    findGroup (completeIssue s x dest lat) x.g.id = some (completed g x dest lat) := by
  have hid : g.id = x.g.id := by simpa using List.find?_some (p := fun h : Group => h.id == x.g.id) hg
  have hci := completed_id g x dest lat
  obtain ⟨b, c, k, e⟩ := completeIssue_eq dest lat hg hl he
  have := findGroup_setGroup (s := s) (g := completed g x dest lat) (h := g) (by rw [hci, hid]; exact hg)
  rw [hci, hid] at this
  rw [e]
  simpa only [findGroup] using this

/-! ### The lanes of an issue -/

theorem mkIssue_lanes {g : Group} {i : Instr} {x : Issue} (h : mkIssue g i = some x) :
    x.served = servedLanes (clearDeferral g) x.pc ∧ x.act = x.served.filter (guardOf (clearDeferral g) (instrPred i)) := by
  simp only [mkIssue, Option.map_eq_some_iff] at h
  obtain ⟨pc, -, rfl⟩ := h
  exact ⟨rfl, rfl⟩

/-- The lanes among which an issue address is sought are distinct lanes of the group that have not exited. -/
theorem issueLanes_sub (g : Group) : (issueLanes g).Nodup ∧ ∀ l ∈ issueLanes g, l < g.width ∧ pcvOf g l ≠ exitPc := by
  have hn : (lanesOf g).Nodup := List.nodup_range
  unfold issueLanes
  split
  · refine ⟨List.Nodup.filter _ hn, fun l hl => ?_⟩
    have := List.mem_filter.mp hl
    simp [lanesOf, laneExited] at this
    exact ⟨this.1, this.2.2⟩
  · refine ⟨List.Nodup.filter _ hn, fun l hl => ?_⟩
    have := List.mem_filter.mp hl
    simp [lanesOf, laneLive, laneExited] at this
    exact ⟨this.1, this.2.1.1⟩

/-- The lanes among which the issue address is sought are lanes that the issue may serve. -/
theorem issueLanes_live {g : Group} {l : Nat} (h : l ∈ issueLanes g) : l ∈ liveLanes g := by
  revert h
  unfold issueLanes liveLanes
  split
  · intro h
    have := List.mem_filter.mp h
    simp only [Bool.and_eq_true] at this
    exact List.mem_filter.mpr ⟨this.1, by simp [this.2.1, this.2.2]⟩
  · exact id

/-- The lanes that an issue may serve are distinct lanes of the group that have not exited. -/
theorem liveLanes_sub (g : Group) : (liveLanes g).Nodup ∧ ∀ l ∈ liveLanes g, l < g.width ∧ pcvOf g l ≠ exitPc := by
  have hn : (lanesOf g).Nodup := List.nodup_range
  unfold liveLanes
  split
  · refine ⟨List.Nodup.filter _ hn, fun l hl => ?_⟩
    have := List.mem_filter.mp hl
    simp [lanesOf, laneExited] at this
    exact ⟨this.1, this.2.2⟩
  · refine ⟨List.Nodup.filter _ hn, fun l hl => ?_⟩
    have := List.mem_filter.mp hl
    simp [lanesOf, laneLive, laneExited] at this
    exact ⟨this.1, this.2.1.1⟩

/-- The active lanes of an issue are distinct lanes of the group. -/
theorem issueOf_act {s : State} {i : Instr} {x : Issue} (h : issueOf s i = some x) : x.act.Nodup ∧ ∀ l ∈ x.act, l ∈ x.served ∧ l < x.g.width := by
  obtain ⟨g, -, hx, -, -⟩ := issueOf_some h
  obtain ⟨h1, h2⟩ := mkIssue_lanes hx
  have hg := (mkIssue_g hx).1
  rw [h2, h1]
  refine ⟨List.Nodup.filter _ (List.Nodup.filter _ (liveLanes_sub _).1), fun l hl => ?_⟩
  have hs := (List.mem_filter.mp hl).1
  exact ⟨hs, by rw [hg]; exact ((liveLanes_sub _).2 l (List.mem_filter.mp hs).1).1⟩

/-- The issue address is the pcv of a lane among which it is sought. -/
theorem issueAddr_lane {g : Group} {pc : DWord} (h : issueAddr g = some pc) :
    ∃ l ∈ issueLanes (clearDeferral g), pcvOf (clearDeferral g) l = pc := by
  have key : ∀ (g : Group) (ls all : List Nat) (m : Option DWord), (∀ a, m = some a → ∃ l ∈ all, pcvOf g l = a) → (∀ l ∈ ls, l ∈ all) →
      ∀ a, ls.foldl (fun m l => match m with
        | none => some (pcvOf g l)
        | some a => if (pcvOf g l).toNat < a.toNat then some (pcvOf g l) else some a) m = some a → ∃ l ∈ all, pcvOf g l = a := by
    intro g ls all
    induction ls with
    | nil => intro m hm _ a ha; exact hm a ha
    | cons l t ih =>
      intro m hm hl
      refine ih _ ?_ (fun j hj => hl j (by simp [hj]))
      intro a ha
      cases m with
      | none => simp only [Option.some.injEq] at ha; exact ⟨l, hl l (by simp), ha⟩
      | some b =>
        simp only at ha
        split at ha
        · simp only [Option.some.injEq] at ha; exact ⟨l, hl l (by simp), ha⟩
        · exact hm a ha
  exact key (clearDeferral g) _ _ none (by simp) (fun _ h => h) pc h

/-- Some lane of the group is served, and it stands at an address. -/
theorem issueOf_served {s : State} {i : Instr} {x : Issue} (h : issueOf s i = some x) :
    ∃ l ∈ x.served, l < x.g.width ∧ pcvOf x.g l = x.pc ∧ x.pc ≠ exitPc := by
  obtain ⟨g, -, hx, -, -⟩ := issueOf_some h
  have h1 := (mkIssue_lanes hx).1
  have hg := (mkIssue_g hx).1
  simp only [mkIssue, Option.map_eq_some_iff] at hx
  obtain ⟨pc, hpc, rfl⟩ := hx
  have hcc : clearDeferral (clearDeferral g) = clearDeferral g := by
    unfold clearDeferral
    split
    · simp
    · rfl
  obtain ⟨l, hm, hp⟩ := issueAddr_lane hpc
  rw [hcc] at hm hp
  obtain ⟨hw, he⟩ := (issueLanes_sub _).2 l hm
  refine ⟨l, ?_, hw, hp, fun hx => he (hp.trans hx)⟩
  simp only [servedLanes, List.mem_filter]
  exact ⟨issueLanes_live hm, by simp [hp]⟩

/-- The group of an issue is found where its effect begins. -/
theorem findGroup_entry {s : State} {i : Instr} {x : Issue} (h : issueOf s i = some x) : findGroup (entry s x) x.g.id = some x.g := by
  obtain ⟨g, hc, hx, -, -⟩ := issueOf_some h
  have hid : x.g.id = g.id := by rw [(mkIssue_g hx).1, clearDeferral_eq]
  exact findGroup_setGroup (h := g) (by rw [hid]; exact found_of_cur hc)

end Sys2Proof.Laws
end

