-- ==== Sys2Proof/Laws/Memory.lean ====
section
/-! SUPPORT. The operations over main memory: what each leaves unchanged, reads after writes, and that each keeps the canonical form. -/
namespace Sys2Proof.Laws
open Sys2Proof.Machine

/-! ### Reads after writes -/

theorem rdPlace_wrPlace (s : State) (o : Option Nat) (a b : Nat) (x : Byte) (h : isDevPlace a = true ∨ Sparse.get none s.dirty a = none) :
    rdPlace (wrPlace s o a x) b = if b = a then x else rdPlace s b := by
  cases hd : isDevPlace a
  · have hn : Sparse.get none s.dirty a = none := by simpa [hd] using h
    simp only [wrPlace, hd, rdPlace, Bool.false_eq_true, if_false, sparse_get_put]
    by_cases hb : b = a
    · subst hb; simp [hn]
    · simp [hb]
  · simp only [wrPlace, hd, rdPlace, if_true, sparse_get_put]
    by_cases hb : b = a <;> simp [hb]

/-- Bytes at other places keep their values. -/
theorem rdPlace_wrPlace_other (s : State) (o : Option Nat) {a b : Nat} (x : Byte) (h : b ≠ a) : rdPlace (wrPlace s o a x) b = rdPlace s b := by
  cases hd : isDevPlace a <;> simp [wrPlace, hd, rdPlace, sparse_get_put, h]

theorem rdPlace_wrPlaces_other (s : State) (o : Option Nat) (bs : List (Nat × Byte)) (b : Nat) (h : ∀ e ∈ bs, e.1 ≠ b) :
    rdPlace (wrPlaces s o bs) b = rdPlace s b := by
  induction bs generalizing s with
  | nil => rfl
  | cons e t ih =>
    obtain ⟨a, x⟩ := e
    rw [wrPlaces, ih _ (fun e he => h e (by simp [he])), rdPlace_wrPlace_other _ _ _ (Ne.symm (h (a, x) (by simp)))]

/-! ### What a write leaves -/

theorem wrPlace_eq (s : State) (o : Option Nat) (a : Nat) (x : Byte) : ∃ m d, wrPlace s o a x = { s with mem := m, dirty := d } := by
  unfold wrPlace
  split
  · exact ⟨s.mem, _, rfl⟩
  · exact ⟨_, s.dirty, rfl⟩

theorem wrPlaces_eq (s : State) (o : Option Nat) (bs : List (Nat × Byte)) : ∃ m d, wrPlaces s o bs = { s with mem := m, dirty := d } := by
  induction bs generalizing s with
  | nil => exact ⟨s.mem, s.dirty, rfl⟩
  | cons e t ih =>
    obtain ⟨m, d, h⟩ := wrPlace_eq s o e.1 e.2
    obtain ⟨m', d', h'⟩ := ih (wrPlace s o e.1 e.2)
    exact ⟨m', d', by rw [wrPlaces, h', h]⟩

/-- A coherent write changes memory, the times of writes and the cores' copies (R311), and nothing else. -/
theorem wrCoherent_eq (s : State) (bs : List (Nat × Byte)) :
    ∃ m d b q w k, wrCoherent s bs = { s with mem := m, dirty := d, badWords := b, memSeq := q, wtime := w, cores := k } := by
  obtain ⟨m, d, h⟩ := wrPlaces_eq (stampWrites s (bs.map (·.1))) none bs
  exact ⟨m, d, _, _, _, _, by simp only [wrCoherent, healPlaces, h]; rfl⟩

theorem wrPa_eq (s : State) (p : Partition) (pa : Nat) (bs : List Byte) :
    ∃ m d b q w k, wrPa s p pa bs = { s with mem := m, dirty := d, badWords := b, memSeq := q, wtime := w, cores := k } := wrCoherent_eq ..

theorem ringPush_eq (s : State) (pa size : Nat) (bs : List Byte) :
    ∃ m d b q w k, ringPush s pa size bs = { s with mem := m, dirty := d, badWords := b, memSeq := q, wtime := w, cores := k } := by
  unfold ringPush
  split
  · exact ⟨s.mem, s.dirty, s.badWords, s.memSeq, s.wtime, s.cores, rfl⟩
  · rename_i p _
    obtain ⟨m, d, b, q, w, k, h⟩ := wrPa_eq s p pa (leBytes 8 (ringNum s p pa 0 8 + 1))
    obtain ⟨m', d', b', q', w', k', h'⟩ := wrPa_eq (wrPa s p pa (leBytes 8 (ringNum s p pa 0 8 + 1))) p
      (pa + 64 + (ringNum s p pa 0 8 % ringCount s p pa) * size) bs
    exact ⟨m', d', b', q', w', k', by rw [h', h]⟩

/-- Noting uncorrectable words changes the dies only (R398, R399). -/
theorem noteBad_eq (s : State) (ls : List ArrayLoc) : ∃ k, noteBad s ls = { s with dies := k } := by
  unfold noteBad
  generalize List.filter _ ls = l
  induction l generalizing s with
  | nil => exact ⟨s.dies, rfl⟩
  | cons a t ih =>
    rw [List.foldl_cons]
    split
    · obtain ⟨k, e⟩ := ih (modDie s (arrayDie s a) (Die.dueTest ‹_›))
      exact ⟨k, e⟩
    · exact ih s

theorem countUncorr_eq (s : State) (d : Nat) (ls : List ArrayLoc) : ∃ k, countUncorr s d ls = { s with dies := k } := by
  obtain ⟨k, e⟩ := noteBad_eq s ls
  exact ⟨_, by rw [countUncorr, e]; rfl⟩

/-- A record that is posted or held changes memory with the times of its writes and the cores' copies, the held records and the count of a die,
and nothing else. -/
theorem postRec_eq (s : State) (q : PostQueue) (die : Nat) (src : RecSource) (ws : List DWord) :
    ∃ m d b n w c h k, postRec s q die src ws =
      { s with mem := m, dirty := d, badWords := b, memSeq := n, wtime := w, cores := c, heldRecs := h, dies := k } ∧
      (k = s.dies ∨ k = (bumpOvf s die).dies) := by
  unfold postRec
  split
  · exact ⟨_, _, _, _, _, _, _, _, rfl, .inr rfl⟩
  · split
    · exact ⟨_, _, _, _, _, _, _, _, rfl, .inr rfl⟩
    · split
      · obtain ⟨m, d, b, n, w, c, h⟩ := ringPush_eq s _ 64 (ws.flatMap fun w => leBytes 8 w.toNat)
        exact ⟨m, d, b, n, w, c, s.heldRecs, s.dies, h, .inl rfl⟩
      · exact ⟨_, _, _, _, _, _, _, _, rfl, .inr rfl⟩

@[simp] theorem postRec_groups (s : State) (q : PostQueue) (die : Nat) (src : RecSource) (ws : List DWord) : (postRec s q die src ws).groups = s.groups := by
  obtain ⟨m, d, b, n, w, c, h, k, e, -⟩ := postRec_eq s q die src ws; rw [e]

@[simp] theorem findGroup_postRec (s : State) (q : PostQueue) (die : Nat) (src : RecSource) (ws : List DWord) (id : Nat) :
    findGroup (postRec s q die src ws) id = findGroup s id := by simp [findGroup]

/-! ### The canonical form -/

theorem memory_wf_iff (s : State) : Memory.wf s = true ↔ Sparse.wf 0 s.mem = true ∧ Sparse.wf none s.dirty = true := by simp [Memory.wf]

/-- The form rests on the two lists alone. -/
theorem memory_wf_congr {s t : State} (hm : t.mem = s.mem) (hd : t.dirty = s.dirty) : Memory.wf t = Memory.wf s := by simp [Memory.wf, hm, hd]

theorem memory_wf_wrPlace {s : State} (o : Option Nat) (a : Nat) (x : Byte) (h : Memory.wf s = true) : Memory.wf (wrPlace s o a x) = true := by
  rw [memory_wf_iff] at h ⊢
  cases hd : isDevPlace a <;> simp only [wrPlace, hd, if_true, Bool.false_eq_true, if_false]
  · exact ⟨sparse_wf_put a x h.1, h.2⟩
  · exact ⟨h.1, sparse_wf_put a (some ⟨x, o⟩) h.2⟩

theorem memory_wf_wrPlaces {s : State} (o : Option Nat) (bs : List (Nat × Byte)) (h : Memory.wf s = true) :
    Memory.wf (wrPlaces s o bs) = true := by
  induction bs generalizing s with
  | nil => exact h
  | cons e t ih => exact ih (memory_wf_wrPlace o e.1 e.2 h)

theorem memory_wf_wrCoherent {s : State} (bs : List (Nat × Byte)) (h : Memory.wf s = true) : Memory.wf (wrCoherent s bs) = true :=
  memory_wf_wrPlaces none bs h

theorem memory_wf_storePlaces {s : State} (c : Nat) (bs : List (Nat × Byte)) (h : Memory.wf s = true) : Memory.wf (storePlaces s c bs) = true :=
  memory_wf_wrPlaces (some c) bs h

theorem memory_wf_wrPa {s : State} (p : Partition) (pa : Nat) (bs : List Byte) (h : Memory.wf s = true) : Memory.wf (wrPa s p pa bs) = true :=
  memory_wf_wrCoherent _ h

theorem memory_wf_ringPush {s : State} (pa size : Nat) (bs : List Byte) (h : Memory.wf s = true) : Memory.wf (ringPush s pa size bs) = true := by
  unfold ringPush
  split
  · exact h
  · exact memory_wf_wrPa _ _ _ (memory_wf_wrPa _ _ _ h)

theorem memory_wf_postRec {s : State} (q : PostQueue) (die : Nat) (src : RecSource) (ws : List DWord) (h : Memory.wf s = true) :
    Memory.wf (postRec s q die src ws) = true := by
  unfold postRec
  split
  · exact h
  · split
    · exact h
    · split
      · exact memory_wf_ringPush _ _ _ h
      · exact h

/-- A fold of steps that each keep the canonical form keeps it. -/
theorem memory_wf_foldl {α : Type} {f : State → α → State} (hf : ∀ s a, Memory.wf s = true → Memory.wf (f s a) = true) (l : List α) {s : State}
    (h : Memory.wf s = true) : Memory.wf (l.foldl f s) = true := by
  induction l generalizing s with
  | nil => exact h
  | cons a t ih => exact ih (hf s a h)

theorem memory_wf_writeBackLine {s : State} (line : Nat) (h : Memory.wf s = true) : Memory.wf (writeBackLine s line) = true :=
  memory_wf_foldl (fun s i h => by
    split
    · rw [memory_wf_iff] at h ⊢
      exact ⟨sparse_wf_put _ _ h.1, sparse_wf_put _ none h.2⟩
    · exact h) _ h

theorem memory_wf_dropLine {s : State} (line : Nat) (h : Memory.wf s = true) : Memory.wf (dropLine s line) = true := by
  refine memory_wf_foldl (fun s i h => ?_) _ h
  split
  · have h' : Memory.wf { s with dirty := Sparse.put none s.dirty (128 * line + i) none } = true := by
      rw [memory_wf_iff] at h ⊢
      exact ⟨h.1, sparse_wf_put (128 * line + i) none h.2⟩
    dsimp only
    split
    · exact (memory_wf_congr rfl rfl).trans h'
    · exact h'
  · exact h

theorem memory_wf_writeBackHome {s : State} (line : Nat) (h : Memory.wf s = true) : Memory.wf (writeBackHome s line) = true :=
  memory_wf_foldl (fun s i h => by
    split
    · rw [memory_wf_iff] at h ⊢
      exact ⟨sparse_wf_put _ _ h.1, sparse_wf_put _ none h.2⟩
    · exact h) _ h

theorem memory_wf_countPair {s : State} (d t rb : Nat) (h : Memory.wf s = true) : Memory.wf (countPair s d t rb) = true := by
  unfold countPair
  refine memory_wf_foldl (fun s e h => ?_) _ h
  exact (memory_wf_congr rfl rfl).trans h

theorem memory_wf_writeBackFrom {s : State} (p : Partition) (l : Nat × Nat) (h : Memory.wf s = true) : Memory.wf (writeBackFrom s p l) = true :=
  memory_wf_writeBackLine _ (memory_wf_countPair _ _ _ h)

theorem memory_wf_sweepSlots {s : State} (p : Partition) (slots : List Nat) (h : Memory.wf s = true) : Memory.wf (sweepSlots s p slots) = true :=
  memory_wf_foldl (fun _ _ h => memory_wf_writeBackHome _ (memory_wf_countPair _ _ _ h)) _ h

theorem memory_wf_settleSlots {s : State} (p : Partition) (pas : List Nat) (h : Memory.wf s = true) : Memory.wf (settleSlots s p pas) = true := by
  unfold settleSlots
  split
  · exact h
  · exact (memory_wf_congr rfl rfl).trans (memory_wf_sweepSlots p ((pas.filter (swept s p)).map sfold) h)

theorem memory_wf_trimSlices {s : State} (h : Memory.wf s = true) : Memory.wf (trimSlices s) = true := by
  unfold trimSlices
  split
  · exact h
  · exact memory_wf_foldl (fun _ _ h => memory_wf_foldl (fun _ _ h => memory_wf_foldl (fun _ _ h => memory_wf_writeBackFrom _ _ h) _ h) _ h) _ h

/-- Memory after reset has the form. -/
theorem memory_wf_reset : Memory.wf State.reset = true := rfl

end Sys2Proof.Laws
end

