-- ==== Sys2Proof/Laws/Traps.lean ====
section
/-! SUPPORT. What taking a trap does: the group that it leaves, in a user handler or held, and everything else that it may change. -/
namespace Sys2Proof.Laws
open Sys2Proof.Machine

theorem restartChain_id (g : Group) : (restartChain g).id = g.id := by unfold restartChain; split <;> rfl

theorem restartChain_chain (g : Group) : (restartChain g).chain = none := by
  unfold restartChain
  split
  · assumption
  · rfl

/-- A chain that restarts changes the pcv of its lanes, the latches and the chain, and nothing else. -/
theorem restartChain_eq (g : Group) :
    restartChain g = { g with chain := none, lat := (restartChain g).lat, latw := (restartChain g).latw, pcv := (restartChain g).pcv } := by
  unfold restartChain
  split
  · rename_i h; cases g; simp_all
  · rfl

/-- The pcv that a lane has where its chain restarts (R35). -/
def restartPc (g : Group) (l : Nat) : DWord :=
  match g.chain with
  | some c => if c.lanes.getLsbD l then c.head else pcvOf g l
  | none => pcvOf g l

theorem pcvOf_restartChain {g : Group} {l : Nat} (hl : l < g.pcv.length) (h : pcvOf g l ≠ exitPc) : pcvOf (restartChain g) l = restartPc g l := by
  unfold restartChain restartPc
  split
  · simp_all
  · rename_i c hc
    have he : g.pcv[l] ≠ exitPc := by simpa [pcvOf, hl] using h
    simp [pcvOf, hl, hc, he]

/-- The group that a trap leaves (R388). -/
def trapGroup (s : State) (g : Group) (pc next : DWord) (t : TrapInfo) : Group :=
  let handler := ((dispOf s g).map dispHandler).getD 0
  let nested := g.state == .handler
  let user := userKind t && handler != 0 && !nested
  let r := trapRecord g pc next t user nested
  let h := { dropConv (restartChain g) with trec := recWords r s.clk, lat := [], latw := [], wait := .none, stamp := none, rq := none }
  let pcs := h.pcv.mapIdx (fun l a => if a != exitPc && t.mask.contains l then r.raddr else a)
  if user then
    { h with shadow := some ⟨pcs, h.preds, h.deferred, s.nextId⟩, state := .handler, deferred := 0,
             pcv := h.pcv.map (fun a => if a = exitPc then a else BitVec.ofNat 64 (handler - handler % 8)) }
  else { h with state := .held, deferred := 0, before := if nested then .handler else .run, pcv := pcs }

theorem trapGroup_id (s : State) (g : Group) (pc next : DWord) (t : TrapInfo) : (trapGroup s g pc next t).id = g.id := by
  unfold trapGroup
  dsimp only
  split <;> simp [dropConv, restartChain_id]

/-- A trap of a group that is found: the group changes to `trapGroup`, a record may be posted, and the counts of a die may change. -/
theorem takeTrap_eq {s : State} {g : Group} {n : Nat} (pc next : DWord) (t : TrapInfo) (hg : findGroup s n = some g) :
    ∃ m d b q w c h k, takeTrap s n pc next t =
      { setGroup s (trapGroup s g pc next t) with
        mem := m, dirty := d, badWords := b, memSeq := q, wtime := w, cores := c, heldRecs := h, dies := k } := by
  obtain ⟨k0, hk⟩ : ∃ k, (if t.kind == 7 && t.cause != 1 && t.lane.isNone then countUncorr s (dieOf g) (trapLocs s g t) else s)
      = { s with dies := k } := by
    split
    · exact countUncorr_eq ..
    · exact ⟨s.dies, rfl⟩
  have key (ws : List DWord) (g' : Group) : ∃ m d b q w c h k, postRec (setGroup { s with dies := k0 } g') .sysnq (dieOf g) (.group n) ws =
      { setGroup s g' with mem := m, dirty := d, badWords := b, memSeq := q, wtime := w, cores := c, heldRecs := h, dies := k } := by
    obtain ⟨m, d, b, q, w, c, h, k, e, -⟩ := postRec_eq (setGroup { s with dies := k0 } g') .sysnq (dieOf g) (.group n) ws
    exact ⟨m, d, b, q, w, c, h, k, e⟩
  simp only [takeTrap, hg, hk, trapGroup]
  split <;> rename_i hu
  · simp only [hu]
    split
    · exact key ..
    · exact ⟨_, _, _, _, _, _, _, _, rfl⟩
  · simp only [hu]
    exact key ..

/-- The group after its trap. -/
theorem findGroup_takeTrap {s : State} {g : Group} {n : Nat} (pc next : DWord) (t : TrapInfo) (hg : findGroup s n = some g) :
    findGroup (takeTrap s n pc next t) n = some (trapGroup s g pc next t) := by
  have hn : g.id = n := by simpa using List.find?_some (p := fun h : Group => h.id == n) hg
  obtain ⟨m, d, b, q, w, c, h, k, e⟩ := takeTrap_eq pc next t hg
  rw [e]
  subst hn
  have hi := trapGroup_id s g pc next t
  have := findGroup_setGroup (g := trapGroup s g pc next t) (h := g) (s := s) (by rw [hi]; exact hg)
  rw [hi] at this
  simpa only [findGroup] using this

end Sys2Proof.Laws
end

