-- ==== Sys2Proof/Tests/Slice0.lean ====
section
/-! SUPPORT. Tests: words that the spec writes out, terms that are not well formed, and for every statement with hypotheses a state and operands
that meet them. -/
namespace Sys2Proof.Tests
open Sys2Proof.Machine Sys2Proof.Safety

set_option Elab.async false

/-! ### Small states and instructions -/

/-- An F word: MOD, destination, sources. -/
def F (m : Nat) (dst sa sb sc : Opnd) : FWord := ⟨false, BitVec.ofNat 10 m, 7, sc, sb, sa, false, dst⟩
/-- An X word: MODA, MODB, destination, sources. -/
def X (m mb : Nat) (dst sa sb sc : Opnd) : XWord := ⟨BitVec.ofNat 12 m, 7, sc, sb, sa, dst, BitVec.ofNat 62 mb⟩
/-- A register of the kind that a field takes: the v register given, a predicate number, or the field's zero. -/
def fill (u : Use) (n : Nat) : Opnd := match u with | .unused => .v 0 | .predIx => .imm (BitVec.ofNat 6 (n % 8)) | _ => .v (BitVec.ofNat 8 n)
/-- An F instruction with its result in v32 and its sources in v8, v16 and v24, as far as it has them. -/
def fIns (mk : FWord → Instr) (m : Nat) : Instr :=
  let g := sigOf (mk (F m (.v 0) (.v 0) (.v 0) (.v 0)))
  mk (F m (fill g.dst 32) (fill g.sa 8) (fill g.sb 16) (fill g.sc 24))
/-- The same for an X instruction. -/
def xIns (mk : XWord → Instr) (m mb : Nat) : Instr :=
  let g := sigOf (mk (X m mb (.v 0) (.v 0) (.v 0) (.v 0)))
  mk (X m mb (fill g.dst 32) (fill g.sa 8) (fill g.sb 16) (fill g.sc 24))

/-- Bytes replaced from an offset on. -/
def patch (l : List Byte) (i : Nat) (bs : List Byte) : List Byte := l.take i ++ bs ++ l.drop (i + bs.length)
/-- A dispatch of one group of 8 lanes with 256 registers, with its FLAGS. -/
def d8 (flags : Nat) : Dispatch := { slotDispatch with record := patch (patch slotRecord 20 [0]) 28 (leBytes 2 flags) }
/-- That dispatch with a HANDLER. -/
def d8h (h : Nat) : Dispatch := { d8 4 with record := patch (d8 4).record 64 (leBytes 8 h) }
/-- Its group selected on core 0 of two cores, with the tables of address space 1. -/
def placed (d : Dispatch) : State :=
  let s : State := slotTables
    { State.reset with
      power := .on, cores := [coreReset 0 0, coreReset 1 0], partitions := [slotPart], dispatches := [d], nextDisp := 2,
      clusters := [⟨1, 0, .running, ⟨0, []⟩⟩] }
  match placeTeam s d 0 0 0 with
  | some t => { t with cur := (t.groups.head?).map (·.id) }
  | none => s
/-- Its group changed. -/
def onG (f : Group → Group) (s : State) : State := { s with groups := s.groups.map f }
/-- A pair of registers from `r` up set in every lane. -/
def setPair (r x : Nat) (g : Group) : Group :=
  (List.range g.width).foldl (fun g l => writeV (writeV g l r (BitVec.ofNat 32 x)) l (r + 1) (BitVec.ofNat 32 (x / 2 ^ 32))) g
/-- The group with values in the pairs at v8, v16 and v24. -/
def W (a b c : Nat) : State := onG (fun g => setPair 8 a (setPair 16 b (setPair 24 c g))) (placed (d8 4))
/-- The group with p0 set in lane 0 alone. -/
def lane0 (s : State) : State := onG (fun g => { g with preds := [(0, 1)] }) s
/-- The group of a state. -/
def grp (s : State) : Group := (s.groups.head?).getD (newGroup s (d8 4) 0 0 0 (0, 0, []))

/-- An instruction issues with an active lane, and what is asked of its issue holds. -/
def onIssue (s : State) (i : Instr) (p : Issue → Bool) : Bool :=
  match issueOf s i with
  | some x => decide (x.act ≠ []) && decide (x.next ≠ exitPc) && x.g.flights.isEmpty && p x
  | none => false
/-- The same for a convergent instruction. -/
def onConv (s : State) (i : Instr) (p : Issue → Bool) : Bool :=
  match convIssueOf s i with
  | some x => decide (x.act ≠ []) && decide (x.next ≠ exitPc) && p x
  | none => false
/-- A release finds no store error. -/
def relB (s : State) (x : Issue) : Bool := ((findGroup (drainGroup s x.g.id) x.g.id).bind (·.storeErr)).isNone
/-! ### Well-formedness -/

/-- R43: one term for each kind of check, which the check refuses, beside one that it accepts. -/
theorem smoke_well_formed :
    WellFormed (.iadd (F 0 (.v 3) (.v 4) (.v 5) (.v 0))) = true ∧
    (-- 0x03: reserved MOD, an unused field, a DST under NWB
      WellFormed (.iadd (F 0x100 (.v 3) (.v 4) (.v 5) (.v 0))) = false ∧ WellFormed (.iadd (F 0 (.v 3) (.v 4) (.v 5) (.v 1))) = false ∧
      WellFormed (.iadd { F 0 (.v 3) (.v 4) (.v 5) (.v 0) with nwb := true }) = false) ∧
    (-- 0x04: a pair at an odd register, a pair past v255
      WellFormed (.iadd (F 1 (.v 3) (.v 4) (.v 6) (.v 0))) = false ∧ WellFormed (.iadd (F 1 (.v 4) (.v 255) (.v 6) (.v 0))) = false) ∧
    (-- 0x05: an FP constant in an integer field, a k quad, an inline integer as a base
      WellFormed (.iadd (F 0 (.v 3) (.fpc 0) (.v 5) (.v 0))) = false ∧ WellFormed (.rqAcc (F 0 (.v 0) (.k 16) (.v 40) (.v 0))) = false ∧
      WellFormed (.ldG (F 2 (.v 3) (.imm 1) (.v 0) (.v 0))) = false) ∧
    (-- 0x06: P halves with destinations of wrong parity or equal
      WellFormed (.pWord ⟨⟨.iadd, 13, 10, 8⟩, ⟨.xor, 13, 11, 9⟩⟩) = false) ∧
    (-- 0x09: HOLD above the base opcodes
      WellFormed (.ldG { F 2 (.v 3) (.v 4) (.v 0) (.v 0) with hold := true }) = false) ∧
    (-- 0x0A: a QID that the instruction may not name
      WellFormed (.launch (X 0 (3 <<< 42) (.v 0) (.v 4) (.v 6) (.v 10))) = false) ∧
    (-- 0x0B: patch tags: bits without V, two of one operand
      WellFormed (.launch (X 0 (1 <<< 46) (.v 0) (.v 4) (.v 6) (.v 10))) = false ∧
      WellFormed (.launch (X 0 (0x8181 <<< 46) (.v 0) (.v 4) (.v 6) (.v 10))) = false) ∧
    (-- 0x0D: a rounding code
      WellFormed (.fadd (F 5 (.v 3) (.v 4) (.v 5) (.v 0))) = false) := by decide +kernel

/-! ### Words of the spec -/

/-- An F word decodes to an instruction. -/
def isF (w : Nat) (i : Instr) : Bool := decode (leBytes 8 w) == .ok (i, [])
/-- Head and tail of an X instruction decode to it. -/
def isX (w t : Nat) (i : Instr) : Bool := decode (leBytes 8 w ++ leBytes 8 t) == .ok (i, [])

/-- R13, R17, R20, R34: arithmetic, a P word, a chain's head, control flow. -/
theorem test_words_alu :
    isF 0x052E06020080820C (.fma ⟨false, 0x29, 7, .v 6, .v 4, .v 2, false, .v 8⟩) = true ∧
    isF 0x0A8E00C2512000C4 (.icmp ⟨false, 0x54, 7, .v 0, .imm 4, .sp .laneid, true, .v 0⟩) = true ∧
    isF 0x800E000180A00208 (.fmul ⟨true, 0, 7, .v 0, .v 3, .v 2, true, .v 0⟩) = true ∧
    isF 0x0D0B091218141001 (.pWord ⟨⟨.iadd, 12, 10, 8⟩, ⟨.xor, 13, 11, 9⟩⟩) = true ∧
    isX 0x0009000000000502 0x00000003FFFFFFE3 (.bra ⟨0, 9, .v 0, .v 0, .v 0, .v 0, 0xFFFFFFF8⟩) = true := by decide +kernel

/-- R134, R300, R305, R307, R309: memory, atomics, barriers and priority. -/
theorem test_words_memory :
    isF 0x04AE06C002800620 (.stL ⟨false, 0x25, 7, .v 6, .imm 0, .v 10, false, .v 0⟩) = true ∧
    isF 0x004E008140000680 (.segld ⟨false, 2, 7, .v 0, .k 2, .k 0, false, .v 0⟩) = true ∧
    isX 0x04270001C0405702 3 (.atom ⟨0x042, 7, .v 0, .v 7, .v 2, .v 5, 0⟩) = true ∧
    isX 0x00070401C0409762 3 (.droAdd ⟨0, 7, .v 8, .v 7, .v 2, .v 9, 0⟩) = true ∧
    isX 0x00078441A0801C22 3 (.tlbinv ⟨0, 7, .k 8, .k 6, .k 4, .v 1, 0⟩) = true ∧
    isF 0x000E000001006BA0 (.loc (F 0 (.v 6) (.v 4) (.v 0) (.v 0))) = true := by decide +kernel

/-- R13, R20, R107, R111, R183, written out from their encodings: a lane instruction, a copy, a barrier instruction. -/
theorem test_words_engines :
    isF 0x026F9FC080C07400 (.shfl (F 0x13 (.v 7) (.v 3) (.imm 1) (.imm 31))) = true ∧
    isX 0x00070A0180800802 0x0000100000004003 (.cpG2l (X 0 (2 ^ 42 + 4096) (.v 0) (.v 4) (.v 6) (.v 20))) = true ∧
    isX 0x0007006042807846 3 (.barArrive (X 0 0 (.v 7) (.v 20) (.imm 1) (.v 0))) = true := by decide +kernel

/-- R221, R223, R255, R262, R283: the matrix engine, rays, sampling and the radiance cache. -/
theorem test_words_units :
    isF 0x0B4E000000000920 (.azero (F 0x5A (.v 0) (.v 0) (.v 0) (.v 0))) = true ∧
    isX 0x0007006020800902 0x00000084890A6E67 (.mma ⟨0, 7, .v 0, .imm 0, .k 4, .v 0, 0x2122429B99⟩) = true ∧
    isX 0x0007006802028A06 0x0000300000000003 (.rqRun ⟨0, 7, .v 0, .imm 32, .v 16, .v 40, 0xC0000000000⟩) = true ∧
    isF 0x000E001404000A08 (.rqAcc (F 0 (.v 0) (.v 16) (.v 40) (.v 0))) = true ∧
    isX 0x00070A0000800A46 0x000050000000000B (.gridEmit ⟨0, 7, .v 20, .v 0, .v 4, .v 0, 0x140000000002⟩) = true ∧
    isX 0x0007000002028A82 3 (.rcq ⟨0, 7, .v 0, .v 0, .v 16, .v 40, 0⟩) = true ∧
    isX 0x00070A40C0000A8A 0x0000700000000003 (.rcSync ⟨0, 7, .v 20, .k 3, .v 0, .v 0, 0x1C0000000000⟩) = true := by decide +kernel

/-- R335 to R339, R347, R354, R358, R365, R366: groups, tasks, launches and tapes. -/
theorem test_words_tasks :
    isF 0x004E000002407B40 (.cvSign (F 2 (.v 7) (.v 9) (.v 0) (.v 0))) = true ∧ isF 0x004E000001C08B44 (.cvWait (F 2 (.v 8) (.v 7) (.v 0) (.v 0))) = true ∧
    isF 0x000E000000000B60 (.barTeam (F 0 (.v 0) (.v 0) (.v 0) (.v 0))) = true ∧ isF 0x000E000000000B64 (.barCl (F 0 (.v 0) (.v 0) (.v 0) (.v 0))) = true ∧
    isF 0x000E000063003B80 (.prioSet (F 0 (.v 3) (.imm 12) (.v 0) (.v 0))) = true ∧ isF 0x000E000000000B08 (.taskEnd (F 0 (.v 0) (.v 0) (.v 0) (.v 0))) = true ∧
    isX 0x01C70C0502001B06 3 (.spawn ⟨0x01C, 7, .v 24, .v 20, .v 16, .v 1, 0⟩) = true ∧
    isX 0x0127050180800B02 3 (.launch ⟨0x012, 7, .v 10, .v 6, .v 4, .v 0, 0⟩) = true ∧
    isF 0x000E000000003B24 (.tapeStop (F 0 (.v 3) (.v 0) (.v 0) (.v 0))) = true ∧
    isX 0x0007020080205B2A 3 (.tapePlay ⟨0, 7, .v 4, .v 2, .v 1, .v 5, 0⟩) = true := by decide +kernel

/-- R381, R382, R389, R391, R401, R402: system registers, traps, contexts and dies. -/
theorem test_words_system :
    isF 0x002E000000003C00 (.sysrd (F 1 (.v 3) (.v 0) (.v 0) (.v 0))) = true ∧ isF 0x000E000000004C08 (.clk (F 0 (.v 4) (.v 0) (.v 0) (.v 0))) = true ∧
    isF 0x000E000580000C04 (.syswr (F 0 (.v 0) (.v 0) (.v 11) (.v 0))) = true ∧ isF 0x004E00C000000C04 (.syswr (F 2 (.v 0) (.v 0) (.imm 0) (.v 0))) = true ∧
    isF 0x000E000000000C80 (.iret (F 0 (.v 0) (.v 0) (.v 0) (.v 0))) = true ∧ isF 0x002E000000000C80 (.iret (F 1 (.v 0) (.v 0) (.v 0) (.v 0))) = true ∧
    isX 0x0007000000203C86 3 (.ctxsavePre ⟨0, 7, .v 0, .v 0, .v 1, .v 3, 0⟩) = true ∧ isF 0x000E000000402C60 (.dieQ (F 0 (.v 2) (.v 1) (.v 0) (.v 0))) = true ∧
    isX 0x0007000000205C66 3 (.dieRstFrost ⟨0, 7, .v 0, .v 0, .v 1, .v 5, 0⟩) = true ∧
    isX 0x0027000000205C66 3 (.dieRstThaw ⟨2, 7, .v 0, .v 0, .v 1, .v 5, 0⟩) = true := by decide +kernel

/-! ### States that meet the hypotheses of the statements: steps, memory, traps -/

/-- DecodeEncode: an F, an X and a P instruction. -/
theorem wit_DecodeEncode :
    ∀ i ∈ [fIns .iadd 0, fIns .sysrd 1, xIns .li 0 0xFFF, xIns .cpG2l 0 (2 ^ 42), .pWord ⟨⟨.iadd, 12, 10, 8⟩, ⟨.xor, 13, 11, 9⟩⟩],
      WellFormed i = true ∧ isEvent i = false := by decide +kernel

/-- An `iadd` where the group fetches. -/
def fetching : State := (W 5 7 0).withFetchWord 64 (ofLeBytes (encode (fIns .iadd 0)))
/-- StepRunsDecoded. -/
theorem wit_StepRunsDecoded :
    (match fetching.cur.bind (findGroup fetching) with
    | some g => groupReady fetching g && (match issueAddr g, dispOf fetching g with
      | some pc, some d => (match fetchWords fetching g d pc with
        | .ok (t, w, w') => decide (w < 2 ^ 64) && decide (w' < 2 ^ 64) && (match decode (leBytes 8 w ++ leBytes 8 w') with
          | .ok (i, _) => decide (i = fIns .iadd 0) && (match exec i t with | .next _ => true | _ => false)
          | _ => false)
        | _ => false)
      | _, _ => false)
    | none => false) = true := by decide +kernel

/-- Two ready groups of one sector with equal effective priorities, neither in a chain. -/
def twoGroups : State := let s := placed (d8 4); { s with cur := none, groups := s.groups ++ s.groups.map fun g => { g with id := g.id + 1, lastIssue := some 3 } }
/-- HighestPriorityIssues: one of two groups is selected, and none is in a chain. -/
theorem wit_HighestPriorityIssues :
    (selectGroup twoGroups 0 (grp twoGroups).sector).isSome = true ∧ (sectorReady twoGroups 0 (grp twoGroups).sector).length = 2 ∧
      (∀ h ∈ sectorReady twoGroups 0 (grp twoGroups).sector, h.chain = none) := by decide +kernel

/-- MemoryStaysCanonical: the reset state steps. -/
theorem wit_MemoryStaysCanonical : Memory.wf State.reset = true ∧ (match step State.reset with | .next _ => true | _ => false) = true := by
  decide +kernel
/-- AddressHashes: the first and the last value of bits 19:8. -/
theorem wit_AddressHashes : (0 : Nat) < 4096 ∧ (4095 : Nat) < 4096 ∧ (0 : Nat) ≠ 4095 ∧ (2 ^ 32 - 1 : Nat) < 2 ^ 32 ∧ (255 : Nat) < 256 := by decide
/-- DeviceBytesApart: a partition of two channels, the first and the last byte of its device memory. -/
theorem wit_DeviceBytesApart :
    let p : Partition := { slotPart with channels := [0, 1] }
    p.pbase % 2 ^ 20 = 0 ∧ p.channels.Nodup ∧ p.chanImage = none ∧ isDevPa p 0 = true ∧ isDevPa p (2 ^ 32 - 1) = true := by decide +kernel

/-- What statements about illegal instructions ask of a state: a selected group with nothing in flight and no late error. -/
def onMk (s : State) (i : Instr) (p : Group → Issue → Bool) : Bool :=
  match s.cur.bind (findGroup s) with
  | some g => !inFlight g && (match mkIssue g i with | some x => (lateTrap s x.g).isNone && p g x | none => false)
  | none => false
/-- IllegalInstructions: a cause 0x05, a privileged one 0x0C, and no cause with a register at the allocation. -/
theorem wit_IllegalInstructions :
    isEvent (fIns .iadd 0) = false ∧
    onMk (W 0 0 0) (.iadd (F 0 (.v 3) (.fpc 0) (.v 5) (.v 0))) (fun _ x =>
      let cs := staticCauses x.i ++ latchCauses x ++ chainCauses (W 0 0 0) x ++ stateCauses (W 0 0 0) x
      cs.contains 5 && cs.all fun d => decide (5 ≤ d)) = true ∧
    onMk (placed (d8 0)) (fIns .dieQ 0) (fun _ x =>
      (staticCauses x.i ++ latchCauses x ++ chainCauses (placed (d8 0)) x ++ stateCauses (placed (d8 0)) x) == [0x0C]) = true ∧
    (let s := onG (fun g => { g with blocks := g.blocks.take 4 }) (W 0 0 0)
     onMk s (.iadd (F 0 (.v 32) (.v 4) (.v 5) (.v 0))) (fun _ x =>
      decide (staticCauses x.i ++ latchCauses x ++ chainCauses s x ++ stateCauses s x = []) && regRange s x) = true) ∧
    (-- one lane of a `bar.team` with a reserved MOD bit, another lane elsewhere
     let s := onG (fun g => { g with pcv := g.pcv.set 1 0x20000 }) (W 0 0 0)
     convergent (fIns .barTeam 1) = true ∧ onMk s (fIns .barTeam 1) (fun _ x => !converged x && (staticCauses x.i).contains 3 &&
      (staticCauses x.i ++ latchCauses x ++ chainCauses s x ++ stateCauses s x).all fun d => decide (3 ≤ d)) = true) := by decide +kernel
/-- Privilege: every S instruction, and a privileged register, in a dispatch without SYS. -/
theorem wit_Privilege :
    ∀ i ∈ [fIns .segld 0, fIns .dieQ 0, xIns .tlbinv 0 0, xIns .cwb 0 0, xIns .cinv 0 0, xIns .domSw 0 0, xIns .routeSw 0 0, xIns .dieRstFrost 0 0,
        xIns .dieRstReset 1 0, xIns .dieRstThaw 2 0, xIns .ctxsavePre 0 0, xIns .ctxsaveDump 1 0, xIns .ctxrestLoad 0 0, xIns .ctxrestResume 1 0,
        xIns .ctxrestEnd 2 0, xIns .smpcfgConf 0 0, xIns .smpcfgRing 1 0, xIns .smpcfgAck 2 0, xIns .smpcfgReset 3 0, xIns .smpcfgStat 4 0,
        .sysrd (F 0x40 (.v 4) (.v 0) (.v 0) (.v 0)), .syswr (F 0x58 (.v 0) (.v 0) (.v 4) (.v 0))],
      onMk (placed (d8 0)) i (fun _ x => ((dispOf (placed (d8 0)) x.g).map dispSys == some false) &&
        (staticCauses i ++ latchCauses x ++ chainCauses (placed (d8 0)) x).all fun c => decide (0x0C < c)) = true := by decide +kernel

/-- A group of a dispatch whose HANDLER is 0x8000, and the same one in HANDLER with a shadow and a trap record. -/
def handled : State := placed (d8h 0x8000)
def inHandler : State := onG (fun g => { g with
  state := .handler, shadow := some ⟨List.replicate 8 0x10040, [], 0, 0⟩, trec := [0, 0x10000, 0, 1, 0, 0, 0, 0] }) handled
/-- TrapEntry: both clauses, with a lane past its exit beside the others. -/
theorem wit_TrapEntry :
    findGroup handled (grp handled).id = some (grp handled) ∧ (dispOf handled (grp handled)).isSome = true ∧
    userKind { kind := 4, mask := [0] } = true ∧ dispHandler (d8h 0x8000) ≠ 0 ∧ (grp handled).state = .run ∧
    findGroup inHandler (grp inHandler).id = some (grp inHandler) ∧ (grp inHandler).state = .handler ∧
    pcvOf (grp handled) 0 ≠ exitPc ∧ 0 < (grp handled).pcv.length := by decide +kernel
/-- HandlerReturn: `iret` and `iret.skip`. -/
theorem wit_HandlerReturn :
    ∀ m ∈ [0, 1], onConv inHandler (fIns .iret m) (fun x => (match x.g.shadow with
      | some sh => (dispOf inHandler x.g).isSome && decide (1 < x.g.width) && decide (1 < x.g.pcv.length) && decide (1 < sh.pcv.length) &&
        decide (pcvOf x.g 1 ≠ exitPc) && decide (sh.pcv[1]?.getD 0 ≠ exitPc) && decide ((x.g.trec[3]?.getD 0).getLsbD 1 = false) &&
        decide (2 < sh.pcv.length)
      | none => false)) = true := by decide +kernel
/-- SoftwareTraps: `trap` and `brk`, with an active lane and with none. -/
theorem wit_SoftwareTraps :
    (∀ i ∈ [fIns .trap 5, fIns .brk 255], onIssue (W 0 0 0) i (fun _ => true) = true) ∧
    (∀ i ∈ [Instr.trap { F 5 (.v 0) (.v 0) (.v 0) (.v 0) with pred := 0 }, .brk { F 5 (.v 0) (.v 0) (.v 0) (.v 0) with pred := 0 }],
      (issueOf (W 0 0 0) i).map (·.act) = some []) := by decide +kernel
/-- FpxTrap: an infinity minus itself with IV enabled, a signalling NaN compared, a P word of which half 0 raises IV, or half 1 alone. -/
theorem wit_FpxTrap :
    (let s := onG (fun g => { g with fptrap := 1 }) (W 0x7F800000 0x7F800000 0)
     onIssue s (fIns .fsub 0) (fun x => (match fpLanes x.i x (entry s x) with
      | some r => !(fpxLanes x.g (flagsOf r)).isEmpty | none => false)) = true) ∧
    (let s := onG (fun g => { g with fptrap := 1 }) (W 0x7F800001 0x7F800000 0)
     onIssue s (fIns .fcmp 0) (fun x => !(fpxLanes x.g (x.act.map fun l =>
      (l, (fcmpLane x (entry s x) (F 0 (.v 32) (.v 8) (.v 16) (.v 0)) l).foldl (fun a e => a ||| e.2) 0))).isEmpty) = true) ∧
    (∀ e ∈ [(PHalf.mk .fadd 16 8 12, PHalf.mk .fmul 17 9 13, true), (PHalf.mk .fmul 16 8 12, PHalf.mk .fadd 17 9 13, false)],
      (let k := if e.2.2 then 1 else 2 ^ 32
       let s := onG (fun g => { g with fptrap := 1 }) (W (0x7F800000 * k) (0xFF800000 * k) 0)
       onIssue s (.pWord ⟨e.1, e.2.1⟩) (fun x =>
        ((fpxLanes x.g (flagsOf (phalfLanes x e.1))).isEmpty != e.2.2) && ((fpxLanes x.g (flagsOf (phalfLanes x e.2.1))).isEmpty == e.2.2)) = true)) := by
  decide +kernel

/-! ### Arithmetic, lane instructions, control flow -/

/-- The instructions of R163 to R172 by `intRule` and `bitRule`, and those of `laneOut`, each with its own fields. -/
def intIns : List Instr :=
  [fIns .iadd 0, fIns .isub 0xC, fIns .iadd3 1, fIns .imul 1, fIns .imulhi 4, fIns .imad 0, fIns .imin 0, fIns .imax 5, fIns .iabs 0, fIns .ineg 8]
def bitIns : List Instr :=
  [fIns .and 0, fIns .or 1, fIns .xor 1, fIns .not 0, fIns .lfn3 0x3FC, fIns .shl 0, fIns .shr 1, fIns .sar 0, fIns .fsh 0x10, fIns .fext 4,
    fIns .fdep 0, fIns .bsel 0, fIns .popc 1, fIns .clz 0, fIns .ctz 0, fIns .brev 0, fIns .mov 0, xIns .li 0 0xFFF, fIns .lea 0, fIns .imadw 0]
def laneIns : List Instr :=
  [fIns .sel 0, fIns .icmp 0x0C, fIns .setp 0, fIns .rand 1, fIns .fclass 0, fIns .shfl 3, fIns .vote 0, fIns .matchLanes 0, fIns .elect 0]
/-- IntegerAndLaneResults. -/
theorem wit_IntegerAndLaneResults :
    (∀ i ∈ intIns, (intRule i).isSome = true ∧ onIssue (W 0xFFFFFFFF 1 0) i (fun _ => true) = true) ∧
    (∀ i ∈ bitIns, (bitRule i).isSome = true ∧ onIssue (W 0xFFFFFFFF 32 0x1F00) i (fun _ => true) = true) ∧
    (∀ i ∈ laneIns, onIssue (W 7 8 0) i (fun x => (laneOut i x (laneState i x (entry (W 7 8 0) x))).isSome && (shflBad i x (entry (W 7 8 0) x)).isEmpty) = true) ∧
    (-- lane 1 of v8 is uncorrectable, and lane 0, active alone, reads it
     let s := lane0 { W 0 1 0 with badWords := [.reg (grp (W 0 0 0)).id 1 8] }
     let i : Instr := .shfl { F 3 (.v 32) (.v 8) (.v 16) (.imm 31) with pred := 0 }
     onIssue s i (fun x => !inFlight x.g && (laneOut i x (laneState i x (entry s x))).isSome && !(shflBad i x (entry s x)).isEmpty) = true) := by decide +kernel
/-- FloatResults: every form of `fpLanes`, `fcmp` and a P word, on 1.0 and 2.0. -/
theorem wit_FloatResults :
    let s := W 0x3F800000 0x40000000 0x3F800000
    (∀ i ∈ [fIns .fadd 0, fIns .fsub 0, fIns .fmul 0, fIns .fma 0, fIns .fdiv 0, fIns .fsqrt 0, fIns .fscale 0, fIns .fround 0, fIns .fmin 0,
        fIns .fmax 0, fIns .fminx 0, fIns .fmaxx 0, fIns .mxscale 0, fIns .lred 0, fIns .lscan 0],
      onIssue s i (fun x => (match fpLanes i x (entry s x) with | some r => (fpxLanes x.g (flagsOf r)).isEmpty | none => false)) = true) ∧
    (∀ i ∈ [fIns .frcp 0, fIns .frsq 0, fIns .fex2 0, fIns .flg2 0, fIns .fsin 0, fIns .fcos 0],
      onIssue s i (fun x => x.g.fptrap == 0 && (fpLanes i x (entry s x)).isSome) = true) ∧
    onIssue s (fIns .fcmp 0) (fun x => x.g.fptrap == 0) = true ∧
    onIssue s (.pWord ⟨⟨.fadd, 12, 10, 8⟩, ⟨.fmul, 13, 11, 9⟩⟩) (fun x => x.g.fptrap == 0) = true := by decide +kernel
/-- WrappingArithmetic: SAT 0, with U 0 and 1. -/
theorem wit_WrappingArithmetic : ∀ m ∈ [0, 1, 4, 5], fmod (F m (.v 0) (.v 0) (.v 0) (.v 0)) 3 1 = 0 := by decide
/-- ResultsLand: one value for each active lane, predicates for p6 and p7, in v32 and in k8. -/
theorem wit_ResultsLand :
    onIssue (W 0 0 0) (fIns .iadd 0) (fun x => decide (((x.act.map fun l => (l, 2 ^ 32)).map (·.1)) = x.act) && decide (x.g.width ≤ 64) &&
      decide (dstOf x.i = some (.v 32, 1))) = true ∧
    onIssue (W 0 0 0) (.iadd (F 0 (.k 8) (.v 4) (.v 5) (.v 0))) (fun x => decide (dstOf x.i = some (.k 8, 1))) = true := by decide +kernel
/-- RegisterOnlyFrame and FloatFrame rest on the issues above. -/
theorem wit_RegisterOnlyFrame : ∀ i ∈ intIns ++ bitIns ++ laneIns, registerOnly i = true ∧ onIssue (W 7 8 0) i (fun x => (shflBad i x (entry (W 7 8 0) x)).isEmpty) = true := by
  decide +kernel
theorem wit_FloatFrame :
    onIssue (W 0x3F800000 0x40000000 0) (fIns .fadd 0) (fun x => (match fpLanes x.i x (entry (W 0x3F800000 0x40000000 0) x) with
      | some r => (fpxLanes x.g (flagsOf r)).isEmpty | none => false)) = true := by decide +kernel
/-- Branches: a target at both ends of the canonical range. -/
theorem wit_Branches :
    (∀ i ∈ [xIns .bra 0 0xFFFFFFF8, xIns .call 0 2, fIns .exit 0, fIns .yield 0, fIns .nap 0], onIssue (W 0 0 0) i (fun _ => true) = true) ∧
    (∀ a ∈ [0, 2 ^ 56 - 8, 2 ^ 64 - 8], onIssue (W a 0 0) (fIns .ret 0) (fun x => x.act.all fun l =>
      let v := rdA (entry (W a 0 0) x) x l
      decide (v % 8 = 0) && canonical v) = true) ∧
    onIssue (W 16 0 0) (fIns .brx 1) (fun _ => true) = true := by decide +kernel
/-- BranchTargetTraps: a target off by one, and one that is aligned and not canonical. -/
theorem wit_BranchTargetTraps :
    onIssue (W 1 0 0) (fIns .ret 0) (fun x => x.act.any fun l => decide (rdA (entry (W 1 0 0) x) x l % 8 ≠ 0)) = true ∧
    onIssue (W (2 ^ 56) 0 0) (fIns .ret 0) (fun x => x.act.all fun l =>
      let v := rdA (entry (W (2 ^ 56) 0 0) x) x l
      decide (v % 8 = 0) && !canonical v) = true := by decide +kernel

/-! ### Loads, stores, blocks, atomics -/

/-- A plain load or store passes its checks in every lane. -/
def plainOk (s : State) (i : Instr) : Bool :=
  onIssue s i fun x =>
    match loadRule i, storeRule i with
    | some (f, sp), _ =>
      let n := widSize (fmod f 0 3)
      (match checkLanes (entry s x) x sp n n 1 true false false (laneAddrs (entry s x) x (fmod f 5 5) n) with | .ok _ _ => true | _ => false)
    | none, some (f, sp) =>
      let n := widSize (fmod f 0 3)
      (match checkLanes (entry s x) x sp n n 2 false true false (laneAddrs (entry s x) x (fmod f 5 5) n) with | .ok _ _ => true | _ => false)
    | none, none => false
/-- The state with the constant segment at 0x10000. -/
def withConst (s : State) : State := onG (fun g => { g with segConst := (0x10000, 0x1000) }) s
/-- PlainLoadsAndStores, LocalStoreFrame and LocalLoadFrame: the first and the last word of each space. -/
theorem wit_PlainLoadsAndStores :
    (∀ a ∈ [0, 524284], plainOk (W a 0 7) (fIns .ldL 2) = true ∧ plainOk (W a 0 7) (fIns .stL 2) = true) ∧
    (∀ a ∈ [0, 2 ^ 30 - 4], plainOk (W a 0 7) (fIns .ldG 2) = true ∧ plainOk (W a 0 7) (fIns .stG 2) = true) ∧
    plainOk (W 0 0 7) (fIns .ldLp 2) = true ∧ plainOk (W 0 0 7) (fIns .stLp 2) = true ∧
    (∀ a ∈ [0, 0xFFC], plainOk (withConst (W a 0 7)) (fIns .ldC 2) = true) := by decide +kernel
theorem wit_LocalStoreFrame : ∀ i ∈ [fIns .stL 2, fIns .stLp 2], plainOk (W 4 0 7) i = true ∧
    ((W 4 0 7).cores.all fun k => k.lines.isEmpty) = true := by decide +kernel
theorem wit_LocalLoadFrame :
    (∀ i ∈ [fIns .ldL 2, fIns .ldLp 2], plainOk (W 4 0 7) i = true) ∧ onIssue (W 4 0 0) (fIns .prf 0) (fun _ => true) = true := by decide +kernel
/-- LoadAddressTraps: an odd address, and an aligned one just outside the space. -/
theorem wit_LoadAddressTraps :
    (∀ i ∈ [fIns .ldL 2, fIns .ldG 2, fIns .stL 2, fIns .stG 2], onIssue (W 1 0 0) i (fun x =>
      (laneAddrs (entry (W 1 0 0) x) x 0 4).any fun e => decide (e.2 % 4 ≠ 0)) = true) ∧
    (∀ i ∈ [fIns .ldL 2, fIns .stL 2], onIssue (W 524288 0 0) i (fun x =>
      (laneAddrs (entry (W 524288 0 0) x) x 0 4).all fun e => decide (e.2 % 4 = 0) && (resolve (entry (W 524288 0 0) x) x.g .l e.2 4).isNone) = true) ∧
    (∀ i ∈ [fIns .ldG 2, fIns .stG 2], onIssue (W (2 ^ 56) 0 0) i (fun x =>
      (laneAddrs (entry (W (2 ^ 56) 0 0) x) x 0 4).all fun e => (resolve (entry (W (2 ^ 56) 0 0) x) x.g .g e.2 4).isNone) = true) := by decide +kernel

/-- BlocksAndSegments: `rgrow` of its count, of one more with TRY, of 0 and 33; `rshrink` to 5 and to its count; `segld` at the ends. -/
theorem wit_BlocksAndSegments :
    (∀ n ∈ [1, 32], onIssue (W n 0 0) (fIns .rgrow 0) (fun x => (rgrowOut (entry (W n 0 0) x) x (F 0 (.v 32) (.v 8) (.v 0) (.v 0))).isSome) = true) ∧
    (∀ n ∈ [0, 33], onIssue (W n 0 0) (fIns .rgrow 8) (fun x => let a := rdA (entry (W n 0 0) x) x x.lead; decide (a = 0 ∨ 32 < a)) = true) ∧
    (∀ b ∈ [4, 8], (-- one block more, granted with its registers, or waited for where a group that holds every other block is there
      let w := onG (fun g => { g with blocks := g.blocks.take b }) (W (b + 1) 0 0)
      let s := if b = 8 then { w with groups := w.groups ++ w.groups.map fun g => { g with id := g.id + 1, blocks := (List.range 64).drop 8 } } else w
      onIssue s (.rgrow (F 0 (.v 20) (.v 8) (.v 0) (.v 0))) (fun x => match rgrowOut (entry s x) x (F 0 (.v 20) (.v 8) (.v 0) (.v 0)) with
        | some (bs, _, _) => decide (b = 4) && !bs.isEmpty && decide (allocRegs x.g < 256)
        | none => decide (b = 8)) = true)) ∧
    (∀ n ∈ [1, 4], onIssue (W n 0 0) (fIns .rshrink 0) (fun x => decide (rdA (entry (W n 0 0) x) x x.lead < x.g.blocks.length) && decide (8 * n ≤ 32) && !inFlight x.g) = true) ∧
    (∀ n ∈ [5, 32], onIssue (W n 0 0) (fIns .rshrink 0) (fun x => let a := rdA (entry (W n 0 0) x) x x.lead
      decide (1 ≤ a ∧ a ≤ 32) && decide (a < x.g.blocks.length → 32 < 8 * a)) = true) ∧
    (∀ b ∈ [0, 524288], onIssue (W b 0 0) (fIns .segld 0) (fun x => let s := entry (W b 0 0) x
      decide (rdA s x x.lead % 4096 = 0 ∧ rdA s x x.lead + rdB s x x.lead ≤ ((teamOf s x.g).map (·.localG)).getD 0 * 4096)) = true) ∧
    (∀ m ∈ [1, 2], ∀ b ∈ [0, 2 ^ 57], onIssue (W b 0 0) (fIns .segld m) (fun x => let s := entry (W b 0 0) x
      decide (rdA s x x.lead + rdB s x x.lead ≤ 2 ^ 57)) = true) := by decide +kernel

/-- An `atom`, `red` or `atom.agg` passes its checks. -/
def atomOk (s : State) (i : Instr) (y : XWord) (agg : Bool) : Bool :=
  onIssue s i fun x =>
    match xAtomOp y, xAtomTy y with
    | some o, some ty =>
      let n := atomBytes ty
      let s0 := if ordRel (xmod y 9 2) then drainGroup (entry s x) x.g.id else entry s x
      relB (entry s x) x && (match checkLanes s0 x (spaceOf (xmod y 0 2)) n n 3 true true (if agg then false else hostUnsup o)
          (if agg then (baseAddrs s0 x).take 1 else baseAddrs s0 x) with
        | .ok _ (_ :: _) => true | _ => false)
    | _, _ => false
/-- Atomics: global with a release and local without, `atom`, `red` and `atom.agg`. -/
theorem wit_Atomics :
    ∀ m ∈ [0x442, 0x40], (let y := X m 0 (.v 32) (.v 8) (.v 16) (.v 0)
        let z := X m 0 (.v 0) (.v 8) (.v 16) (.v 0)
        atomOk (W 64 5 0) (.atom y) y false && atomOk (W 64 5 0) (.red z) z false && atomOk (W 64 5 0) (.atomAgg y) y true) = true := by decide +kernel
/-- OrderedLoadsAndStores: local and global, with the release that `st.rel` is. -/
theorem wit_OrderedLoadsAndStores :
    (∀ m ∈ [4, 0x14], ∀ i ∈ [fIns .ldx m, fIns .ldAcq m], onIssue (W 64 0 7) i (fun x =>
      (match checkLanes (entry (W 64 0 7) x) x (spaceOf (m / 8)) 4 4 1 true false false (laneAddrs (entry (W 64 0 7) x) x 0 4) with
        | .ok _ _ => true | _ => false)) = true) ∧
    (∀ m ∈ [4, 0x14], ∀ i ∈ [fIns .stx m, fIns .stRel m], onIssue (W 64 0 7) i (fun x => relB (entry (W 64 0 7) x) x &&
      (match checkLanes (drainGroup (entry (W 64 0 7) x) x.g.id) x (spaceOf (m / 8)) 4 4 2 false true false (laneAddrs (entry (W 64 0 7) x) x 0 4) with
        | .ok _ _ => true | _ => false)) = true) := by decide +kernel
/-- Fences: without a store error, and with one that the group holds. -/
theorem wit_Fences :
    (∀ i ∈ [fIns .fenceAcq 0, fIns .fenceRel 0, fIns .fenceAr 0], onIssue (W 0 0 0) i (fun x => relB (entry (W 0 0 0) x) x) = true) ∧
    (let s := onG (fun g => { g with storeErr := some 0x20000 }) (W 0 0 0)
     ∀ i ∈ [fIns .fenceRel 0, fIns .fenceAr 0], onIssue s i (fun x => !inFlight x.g &&
      decide ((findGroup (drainGroup (drawOracle (entry s x)).2 x.g.id) x.g.id).bind (·.storeErr) = some 0x20000) &&
      decide ((findGroup (drainGroup (entry s x) x.g.id) x.g.id).bind (·.storeErr) = some 0x20000)) = true) := by decide +kernel
/-- A FULL object of f32 at 0x200000 (R304). -/
def withDro (ty flags : Nat) (s : State) : State :=
  wrPlaces s none ((placesOf slotPart 0x200000 64).zip (leBytes 4 1 ++ leBytes 4 (ty + flags * 2 ^ 8) ++ leBytes 56 0))
/-- ReductionObjects: an object of one contribution, and a FULL one. -/
theorem wit_ReductionObjects :
    (∀ flags ∈ [1, 3], (let s := withDro 0 flags (W 0x200000 0x3F800000 0)
      let i := if flags = 1 then xIns .droAdd 0 0 else xIns .droGet 0 0
      onIssue s i fun x => relB (entry s x) x &&
        (let s0 := if flags = 1 then released (entry s x) x else entry s x
        match checkLanes s0 x .g 64 64 3 true (decide (flags = 1)) true (baseAddrs s0 x) with
          | .ok t ls => (match groupPart t x.g with
            | some p =>
              let u := droReady t x p ls
              (droMet t x p ls).1.isEmpty && (ls.all fun k => !badPlaces (droSettled t x p ls) (placesOf p k.pa 64) &&
                (decide (flags = 1) || (droFlags u p k.pa).testBit 0 && decide (rdPaNum u p (k.pa + 4) 1 = 0) && (droFlags u p k.pa).testBit 1)) &&
              (decide (flags = 3) || (match droLanes u x p 0 ls with
                | (v, us, es, w) => es.isEmpty && !w && decide (us.length = x.act.length) && (droBads p 0 us v).isEmpty))
            | none => false)
          | _ => false)) = true) := by decide +kernel

/-! ### Engine commands -/

/-- Bytes in the local memory of core 0. -/
def withLocal (off : Nat) (bs : List Byte) (s : State) : State := wrLocal s 0 off bs
/-- A barrier result is a barrier. -/
def barOk (r : BarRes) : Option (State × BarRef) := match r with | .ok t b => some (t, b) | .stop _ => none
/-- An engine command issues. -/
def openB (s : State) (x : Issue) (opc : Nat) (rel : Bool) : Bool :=
  (!rel || relB (entry s x) x) && !(isCtl opc && ctlBusy (engineState s x opc rel) x.g.id)
def queueB (t : State) (c : Cmd) : Bool := decide (queueLen t c.core c.queue < 64) && linesFit t c.writes c.reads

/-- A copy with its queue 0 and its destination at SA, source at SB, no barrier. -/
def copyOk (s : State) (i : Instr) : Bool :=
  onIssue s i fun x => match copyRule i with
    | none => false
    | some (y, opc) =>
      let t0 := engineState s x opc false
      let c := specOf t0 x opc y true
      let j := groupIssuer t0 x.g
      openB s x opc false && decide (c.a % 16 = 0 ∧ c.b % 16 = 0 ∧ c.len % 16 = 0) &&
      (if dstGlobal opc then (cmdGlobal j c.a c.len).isSome && issuerLeases t0 j (va57 c.a) c.len else (copyLocals t0 j c).1.isSome) &&
      (if srcGlobal opc then (cmdGlobal j c.b c.len).isSome && issuerLeases t0 j (va57 c.b) c.len else (copyLocals t0 j c).2.isSome) &&
      (match barOk (cmdBar t0 j c) with | some (t, r) => decide (c.len = 0) || queueB t (copyCommand t0 t j c r) | none => false)
/-- A shape record of 16 elements of 4 bytes. -/
def shape16 : List Byte := leBytes 4 (2 + 1 * 2 ^ 8) ++ leBytes 8 (16 + 2 ^ 16 + 2 ^ 32 + 2 ^ 48) ++ leBytes 4 0 ++ leBytes 16 16 ++ leBytes 24 0 ++ leBytes 8 64
def tensorOk (s : State) (i : Instr) : Bool :=
  onIssue s i fun x => match tensorRule i with
    | none => false
    | some (y, opc) =>
      let t0 := engineState s x opc false
      let c := specOf t0 x opc y true
      let j := groupIssuer t0 x.g
      let la := if opc = 0x205 then c.b else c.a
      let ga := if opc = 0x205 then c.a else c.b
      openB s x opc false && (match readShape t0 j c.len 5 with
        | .ok (t1, bs) =>
          let h := shapeOf bs
          decide (la % 16 = 0 ∧ ga % 2 ^ min h.elem 4 = 0 ∧ h.bad bs = false ∧ h.empty = false) &&
          (cmdGlobal j ga h.span).isSome && issuerLeases t1 j (va57 ga) h.span &&
          (match cmdLocal t1 j false la (h.localSpan (opc == 0x205)), barOk (cmdBar t1 j c) with
            | some (co, o), some (t, r) => queueB t (tensorCommand t j c bs co o r)
            | _, _ => false)
        | _ => false)
/-- Group 0 of this device alone. -/
def withGroup0 (s : State) : State := wrPlaces { s with collgrp := s.collgrp.set 0 (BitVec.ofNat 64 (1 + 2 ^ 8 * 0x3000)) } none
  ((placesOf slotPart 0x300000 8).zip (leBytes 8 0))
/-- CopiesAndCollectives: no bytes, some bytes, the last bytes of local memory; tensors both ways; an all-gather of one rank. -/
theorem wit_CopiesAndCollectives :
    (∀ n ∈ [0, 256], ∀ mk ∈ [Instr.cpG2l, .cpL2g, .cpG2g, .cpL2l], copyOk (W 1024 0 0) (xIns mk 4 n) = true) ∧
    copyOk (W 524288 0 0) (xIns .cpG2l 4 0) = true ∧
    tensorOk (withLocal 4096 shape16 (W 0 0x10000 0)) (xIns .cpT2l 4 4096) = true ∧
    tensorOk (withLocal 4096 shape16 (W 0x10000 0 0)) (xIns .cpL2t 4 4096) = true ∧
    (let s := withGroup0 (W 0x10000 0x20000 0)
     onIssue s (xIns .coll 0x804 (2 ^ 44 + 16)) fun x =>
      let t0 := engineState s x 0x208 false
      let c := specOf t0 x 0x208 (X 0x804 (2 ^ 44 + 16) (.v 0) (.v 8) (.v 16) (.v 0)) true
      let j := groupIssuer t0 x.g
      let n := collElems (fldN c.moda 4 2) (collRanks (t0.collgrp[0]?.getD 0)) 16
      openB s x 0x208 false && decide (c.a % 4 = 0 ∧ c.b % 4 = 0 ∧ fldN c.imm 28 4 = 0 ∧ fldN c.imm 0 28 = 16 ∧ n = (16, 16)) &&
      (match findPart t0 j.x.part with
        | some p => decide ((t0.collgrp[0]?.getD 0).getLsbD 0 = true ∧ ((rankList t0 p (t0.collgrp[0]?.getD 0)).filter (· == t0.devnum)).length = 1)
        | none => false) &&
      (cmdGlobal j c.a 64).isSome && (cmdGlobal j c.b 64).isSome && issuerLeases t0 j (va57 c.a) 64 && issuerLeases t0 j (va57 c.b) 64 &&
      (barOk (cmdBar t0 j c)).isSome) = true := by decide +kernel

/-- A valid barrier of one pending arrival at a local offset (R103). -/
def withBar (off : Nat) (s : State) : State := withLocal off (leBytes 16 (barInitBits 1)) s
/-- A barrier instruction finds its barrier. -/
def barIns (s : State) (i : Instr) (opc bsp : Nat) (rel write reads : Bool) (p : State → Bar → Nat → Bool) : Bool :=
  onIssue s i fun x =>
    let t0 := engineState s x opc rel
    openB s x opc rel && (match barOk (resolveBar t0 (groupIssuer t0 x.g) bsp (rdA t0 x x.lead) 3 write reads) with
      | some (t, r) => p t (barOfBits (barRead t r)) (rdB t0 x x.lead)
      | none => false)
/-- BarrierInstructions, at the ends of each count's range. -/
theorem wit_BarrierInstructions :
    (∀ n ∈ [1, 2 ^ 20 - 1], barIns (W 64 n 0) (xIns .barInit 0 0) 0x210 0 false true false (fun _ _ v => decide (1 ≤ v ∧ v < 2 ^ 20)) = true) ∧
    (∀ n ∈ [0, 1], barIns (withBar 64 (W 64 n 0)) (xIns .barArrive 0 0) 0x211 0 true true true (fun _ b v => b.val && decide (v ≤ b.arr ∧ v = n)) = true) ∧
    barIns (withBar 64 (W 64 (2 ^ 31 - 1) 0)) (xIns .barExpect 0 0) 0x212 0 false true true (fun _ b v => b.val && decide (b.sect + (v : Int) < 2 ^ 31)) = true ∧
    barIns (withBar 64 (W 64 0 0)) (xIns .barExpect 4 0) 0x212 0 true true true (fun _ b v => b.val && decide (b.sect + (v : Int) < 2 ^ 31 ∧ b.arr ≠ 0)) = true ∧
    barIns (withBar 64 (W 64 0 0)) (xIns .barInval 0 0) 0x215 0 false true true (fun _ _ _ => true) = true ∧
    (∀ tok ∈ [0, 15], barIns (withBar 64 (W 64 tok 0)) (xIns .barWait 0 0) 0x213 0 false false true (fun _ b v =>
      b.val && decide ((tok = 0) = (b.phase = v % 16))) = true) ∧
    (-- a barrier in a peer's local memory, and a global one
     barIns (withBar 64 (W 64 0 0)) (xIns .barWait 1 0) 0x213 1 false false true (fun _ b v => b.val && decide (b.phase = v % 16)) = true ∧
     (let s := wrPlaces (W 0x20000 0 0) none (((placesOf slotPart 0x20000 16).zip (leBytes 16 (barInitBits 1))).filter fun c => c.2 != 0)
      barIns s (xIns .barWait 2 0) 0x213 2 false false true (fun _ b v => b.val && decide (b.phase = v % 16)) = true)) ∧
    (let s := withBar 64 (W 64 0 0)
     onIssue s (fIns .barTest 0) fun x =>
      let t0 := markUnrec (readPoint (entry s x) x.g.id) x.g.id
      (match checkLanes t0 x .l 16 16 1 true false true (baseAddrs t0 x) with
        | .ok t ls =>
          (lostLanes (drainOver t x.g.id ((ls.filter fun k => k.loc.isNone).map fun k => (k.place, 16))) ls).1.isEmpty && ls.all fun k => k.loc.isSome
        | _ => false)) = true := by decide +kernel

/-- PresenceAndQueueFence: the three forms at the last 32 lines, and `qfence` with and without C. -/
theorem wit_PresenceAndQueueFence :
    (∀ i ∈ [fIns .presQ 0, fIns .presF 1, fIns .presClr 2], onIssue (W 520192 0 0) i (fun x => x.act.all fun l =>
      let a := rdA (entry (W 520192 0 0) x) x l
      decide (a % 128 = 0) && (match localTarget (entry (W 520192 0 0) x) x.g a 4096 with | some (.loc _ _) => true | _ => false)) = true) ∧
    (∀ m ∈ [0, 1], onIssue (W 0 0 0) (xIns .qfence m 0xFF) (fun x => openB (W 0 0 0) x 0x228 (m == 1) &&
      (cmdsIn (engineState (W 0 0 0) x 0x228 (m == 1)) x.g.id 0xFF).isEmpty) = true) := by decide +kernel

/-- The team with a window of name 3 over its first 4,096 bytes. -/
def withWindow (s : State) : State := { s with teams := s.teams.map fun t => { t with windows := [⟨3, 4096 * t.localBase, 4096, 0x20000, false, 0, [], []⟩] } }
/-- Windows: a free name, a name the team does not hold, and a window with nothing dirty. -/
theorem wit_Windows :
    (let s := W 0 0x20000 4096
     onIssue s (xIns .wmap 0 3) fun x =>
      let t := markUnrec (drainGroup (entry s x) x.g.id) x.g.id
      decide (rdA t x x.lead % 4096 = 0 ∧ rdC t x x.lead % 4096 = 0 ∧ rdC t x x.lead ≠ 0 ∧ rdB t x x.lead % 128 = 0 ∧ ctlBusy t x.g.id = false) &&
      (match teamOf t x.g, dispOf t x.g, localTarget t x.g (rdA t x x.lead) (rdC t x x.lead) with
        | some tm, some d, some (.loc _ _) => tm.windows.isEmpty && inLease d (va57 (rdB t x x.lead)) (rdC t x x.lead) && canonical (rdB t x x.lead)
        | _, _, _ => false)) = true ∧
    (∀ i ∈ [xIns .wflush 0 3, xIns .wflush 1 3, xIns .wunmap 0 3], ∀ b ∈ [false, true], (let s := if b then withWindow (W 0 0 0) else W 0 0 0
      onIssue s i fun x =>
        let m := markUnrec (entry s x) x.g.id
        let t := acquireNow (released m x) x.g.id
        !ctlBusy (entry s x) x.g.id && relB m x && (dispOf t x.g).isSome && (match teamOf t x.g with
          | some tm => (match tm.windows.find? fun v => v.name == 3 with
            | none => !b
            | some v => b && (writeBackAll t tm v (windowLines t tm v 3) v.written).2.2.isNone)
          | none => false)) = true) := by decide +kernel

/-! ### The matrix engine -/

/-- MODB of a multiply of i8 by i8 into i32 (R198, R218): KC 1, with more bits of the tail. -/
def mmaBits (more : Nat) : Nat := 0xA * 2 ^ 8 + 0xA * 2 ^ 12 + 2 ^ 25 + more
/-- ZA, ASRC, BID 0, CV 0. -/
def za : Nat := 2 ^ 29
def asrc : Nat := 2 ^ 32
/-- The checks of a multiply pass. -/
def mulB (t0 : State) (x : Issue) (y : XWord) (sp : Bool) : Bool :=
  (match slotCheck t0 x.g (matSlot y) (matTACC y) (!matZA y), teamOf t0 x.g with
    | .ok n, some tm => (match checkTiles t0 x false (mulTiles t0 x tm y sp) with
      | .ok t _ _ => matZA y || (tileSlots n (matTACC y)).all fun i => !slotBad t x.g.core i
      | _ => false)
    | _, _ => false)
def mulIssue (s : State) (y : XWord) (i : Instr) (sp conv : Bool) : Bool :=
  (if conv then onConv s i else onIssue s i) fun x =>
    let t0 := readPoint (entry s x) x.g.id
    mulB t0 x y sp
/-- Slot 0 of the group's core with a tag. -/
def withTag (tag : Nat) (s : State) : State := { s with cores := s.cores.map fun k => { k with slots := k.slots.map fun z => { z with tag := tag } } }
/-- MatrixMultiplies: A from a map and from registers, an accumulation on a tagged slot, sparse A, and a set of one group. -/
theorem wit_MatrixMultiplies :
    (let y := X 0 (mmaBits (za + asrc)) (.v 0) (.imm 0) (.imm 0) (.v 0); mulIssue (W 0 0 0) y (.mma y) false false) = true ∧
    (let y := X 0 (mmaBits asrc) (.v 0) (.imm 0) (.imm 0) (.v 0); mulIssue (withTag 1 (W 0 0 0)) y (.mma y) false false) = true ∧
    (let y := X 0 (mmaBits za) (.v 0) (.v 8) (.imm 0) (.v 0); mulIssue (W 0 0 0) y (.mma y) false true) = true ∧
    (let y := X 0 (mmaBits za) (.v 0) (.v 8) (.imm 0) (.v 128); mulIssue (W 0 0 0) y (.mmaSp y) true true) = true ∧
    (let y := X 0 (mmaBits za) (.v 0) (.v 8) (.imm 0) (.v 0)
     let s := W 0 0 0
     onConv s (.mmaT y) fun x => (match teamOf (entry s x) x.g with
      | some tm =>
        let c := cvOf tm 0
        let t0 := released (entry s x) x
        let ms := setMembers t0 x.g c.set
        relB (entry s x) x && x.g.mmaErr.isNone && c.set.getLsbD x.g.grpid && !c.signed.getLsbD x.g.grpid && decide ((bitsOf 32 c.set.toNat).length = 1 ∧ ms.length = 1) &&
        (mmaTWaiters t0 x.g 0).isEmpty && cvComplete { c with signed := c.signed ||| BitVec.ofNat 32 (2 ^ x.g.grpid) } tm.retired &&
        mulB t0 x y false
      | none => false)) = true := by decide +kernel

/-- MODB of a slot instruction (R224), and handles of tiles of one element. -/
def accBits (et tacc more : Nat) : Nat := tacc * 2 ^ 8 + et * 2 ^ 12 + more
def withHandle (s : State) : State :=
  { s with teams := s.teams.map fun t => { t with th := t.th.map fun h => { h with va := 0x20000, etype := 0xA, pitch := 512, rows := 1, cols := 1 } } }
/-- AccumulatorSlots: `azero`, MSTAT, the maps and handles. -/
theorem wit_AccumulatorSlots_set :
    (onIssue (W 0 0 0) (fIns .azero (0xA * 8)) fun x => match slotCheck (drainArray (entry (W 0 0 0) x) x.g.core) x.g 0 0xA false with
      | .ok _ => true | _ => false) = true ∧
    onIssue (W 0 0 0) (fIns .mstClr 0) (fun _ => true) = true ∧ onIssue (W 0 0 0) (fIns .mstRd 0) (fun _ => true) = true ∧
    (∀ i ∈ [xIns .omap 0 0, xIns .thdl 0 0], onIssue (W 4096 16 0) i (fun x =>
      let t := entry (W 4096 16 0) x
      decide (rdA t x x.lead % 16 = 0 ∧ rdB t x x.lead % 16 = 0) && canonical (rdA t x x.lead)) = true) := by decide +kernel
/-- AccumulatorSlots: `aload` (`w` false) and `astore` of an i32 tile of handle 0. -/
def tileIns (w : Bool) : Bool :=
  let s := withHandle (withTag 1 (W 0 0 0))
  let y := X 0 (accBits 0xA 0xA (2 ^ 23)) (.v 0) (.imm 0) (.v 0) (.v 0)
  onIssue s (if w then .astore y else .aload y) fun x =>
    let t0 := if w then astorePoint (entry s x) x (((teamOf (entry s x) x.g).map fun tm => (accTile (entry s x) x tm y).glob).getD false)
      else drainArray (readPoint (entry s x) x.g.id) x.g.core
    match teamOf t0 x.g with
    | some tm => (match slotCheck t0 x.g 0 0xA w, checkTiles t0 x w [accTile t0 x tm y] with
      | .ok n, .ok t _ _ => (findCore t0 x.g.core).isSome && (tileSlots n 0xA).all fun i => !slotBad t x.g.core i
      | _, _ => false)
    | none => false
theorem wit_AccumulatorSlots_tiles : ∀ w ∈ [false, true], tileIns w = true := by decide +kernel
/-- AccumulatorSlots: `aread` (`w` false) and `awrite` of one row. -/
def rowIns (w : Bool) (r0 : Nat) : Bool :=
  let s := withTag 1 (W 0 r0 0)
  let y := if w then X 0 (accBits 0xA 0xA 0) (.v 0) (.v 32) (.v 16) (.v 0) else X 0 (accBits 0xA 0xA 0) (.v 32) (.v 0) (.v 16) (.v 0)
  onConv s (if w then .awrite y else .aread y) fun x =>
    let t := drainArray (entry s x) x.g.core
    decide (((findGroup t x.g.id).map fun g => (g.core, g.id)) = some (x.g.core, x.g.id)) && decide (rdB t x x.lead + accN y ≤ accM y ∧ (findCore t x.g.core).isSome = true) &&
    (match slotCheck t x.g 0 0xA (!w) with | .ok n => (tileSlots n 0xA).all fun i => !slotBad t x.g.core i | _ => false)
/-- The first and the last row. -/
theorem wit_AccumulatorSlots_rows : ∀ w ∈ [false, true], ∀ r0 ∈ [0, 127], rowIns w r0 = true := by decide +kernel

/-! ### Ray queries, unit commands -/

/-- RayQueries: `rq.init` of one lane at the last stack, `rq.run` of queries in NONE, the others on queries in CAND at v8. -/
theorem wit_RayQueries_init :
    ∀ d ∈ [0, 0x3F800000], (let s := onG (setPair 36 d) (lane0 (W 0x100000 524032 0))
     let y : XWord := { X 0 0 (.v 32) (.v 8) (.v 16) (.v 24) with pred := 0 }
     onIssue s (.rqInit y) fun x => (rqInitErrs x (entry s x)).isEmpty && decide (x.act = [0]) &&
      (let live := x.act.filter fun l => rqState (rqNew x (entry s x) 32 l) == 1
       decide (live.length = if d = 0 then 0 else 1) &&
       (match checkLanes (entry s x) x .l 1 16 2 false true false (live.map fun l => (l, rdB (entry s x) x l)) with | .ok _ _ => true | _ => false))) = true := by
  decide +kernel
theorem wit_RayQueries_run :
    (let s := W 0 0 0
     let y := X 0 0xC0000000000 (.v 40) (.v 8) (.imm 32) (.v 0)
     onIssue s (.rqRun y) fun x =>
      let t := markUnrec (readPoint (entry s x) x.g.id) x.g.id
      let k0 := RqRun.start x.g.rq
      let k := (runLanes x 8 (rdB t x x.lead) (((dispOf t x.g).map leased).getD false) (x.act.filter fun l => !k0.ended.contains l) t k0).2
      decide (k.out.length = x.act.length) && k.faults.isEmpty && k.waits.isEmpty && !k.more && k.errs.isEmpty) = true := by decide +kernel
theorem wit_RayQueries_change :
    (∀ i ∈ [Instr.rqAcc (F 0 (.v 0) (.v 8) (.v 40) (.v 0)), fIns .rqRej 0, .rqSet (F 0 (.v 0) (.v 8) (.v 40) (.v 0)), fIns .rqEnd 0],
      onIssue (W 0 (2 ^ 49) 0) i (fun x => match queryRule i x (entry (W 0 (2 ^ 49) 0) x) with
        | some (q, ok, _) => q == 8 && x.act.all fun l => ok (readRq x.g l q)
        | none => false) = true) ∧
    onIssue (W 0 0 0) (fIns .rqGet 0) (fun _ => true) = true ∧
    (∀ a ∈ [0, 7], onIssue (W a 0 0) (fIns .statRd 0) (fun x => x.act.all fun l =>
      decide (rdA (entry (W a 0 0) x) x l ≤ 7) && statSel (rdB (entry (W a 0 0) x) x l)) = true) := by decide +kernel

/-- A command of a sampling unit, or `rc.sync`, with no barrier. -/
def unitOk (s : State) (i : Instr) : Bool :=
  onIssue s i fun x =>
    let r := match sampRule i with
      | some r => some r
      | none => (match i with | .rcSync y => some (y, 0x2A2, fun _ => []) | _ => none)
    match r with
    | some (y, opc, as) =>
      let t0 := engineState s x opc false
      let c := specOf t0 x opc y false
      let j := groupIssuer t0 x.g
      openB s x opc false && (as c).all (fun a => decide (a.1 % a.2.1 = 0) && (cmdGlobal j a.1 a.2.2).isSome) &&
      (match barOk (cmdBar t0 j c) with | some (t, b) => queueB t { newCmd t j c.qid c with bar := b, credit := 1 } | none => false)
    | none => false
/-- Network 0 of the group's space, READY, with a descriptor of zeros and H 0. -/
def withNet (s : State) : State := modNetwork s 0 fun n => { n with state := 1, part := 0, asid := 1, desc := List.replicate 256 0, w := 1 }
/-- UnitCommands: the commands at aligned addresses; queries and offers that take nothing; the forms of `rc.cfg`. -/
theorem wit_UnitCommands_queue :
    ∀ i ∈ [xIns .dice 4 (5 * 2 ^ 42 + 8 + 2 ^ 8), xIns .gridEmit 4 (5 * 2 ^ 42), xIns .smpBegin 4 (6 * 2 ^ 42), xIns .smpEnd 4 (6 * 2 ^ 42),
        xIns .smpRes 4 (6 * 2 ^ 42), xIns .rcSync 4 (7 * 2 ^ 42)], unitOk (W 0x10000 0x20000 0) i = true := by decide +kernel
/-- A descriptor whose offers go to slots at 0x400000, always (`r`) or never. -/
def netDesc (r : Bool) : List Byte := patch (patch (List.replicate 256 0) 8 (leBytes 4 (if r then 65536 else 0))) 120 (leBytes 8 0x400000)
def withNetD (r : Bool) (s : State) : State := modNetwork (withNet s) 0 fun n => { n with desc := netDesc r }
/-- The state of a query that issues anew. -/
def opened (s : State) (x : Issue) : State := modGroup s x.g.id fun g => { g with stamp := none }
/-- A query of lane 0 meets no error, and `rct` offers one sample or none. -/
theorem wit_UnitCommands_query :
    (let y : XWord := { X 0 0 (.v 32) (.v 16) (.v 0) (.v 0) with pred := 0 }
     let s := lane0 (withNetD false (W 0 0 0))
     onIssue s (.rcq y) fun x =>
      let t := opened (entry s x) x
      (match ownedNet t (((dispOf t x.g).map (·.part)).getD 0) (asidOf t x.g) 0 with
      | some n => decide (queryWindow x.g n = 1 ∧ 1 ≤ n.published + 1) && (queryLanes x.g n 1 16 x.act t [] []).2.2.isEmpty
      | none => false)) = true ∧
    (∀ r ∈ [false, true], (let y : XWord := { X 0 (7 * 2 ^ 42) (.v 32) (.v 16) (.v 8) (.v 0) with pred := 0 }
     let s := lane0 (withNetD r (W 0 0 0))
     onIssue s (.rct y) fun x =>
      let t1 := markUnrec (drainGroup (entry s x) x.g.id) x.g.id
      let t := opened t1 x
      (match ownedNet t (((dispOf t x.g).map (·.part)).getD 0) (asidOf t x.g) 0 with
        | some n =>
          let os := x.act.filterMap (laneOffer t x n 1 8)
          let u := (queryLanes x.g n 1 16 x.act t [] [])
          decide (queryWindow x.g n = 1 ∧ 1 ≤ n.published + 1 ∧ queueLen t1 x.g.core 7 < 64 ∧ (os = []) = (r = false)) && u.2.2.isEmpty &&
            (offerLanes x n os (keepFloor x.g u.1) [] []).2.2.isEmpty
        | none => false)) = true) := by decide +kernel
/-- `rc.cfg`: an attach answered STATE or BADDESC, a detach, and counters 0 and 7. -/
theorem wit_UnitCommands_config :
    onIssue (W 0x20000 0 0) (xIns .rcCfgAttach 0 0) (fun x =>
      let t := drainGroup (entry (W 0x20000 0 0) x) x.g.id
      (match (attachRun t (groupIssuer t x.g) 0 (rdA t x x.lead) (((dispOf t x.g).map leased).getD false)).2 with | .code _ => true | _ => false)) = true ∧
    (let s := withNet (W 0 0 0)
     onIssue s (xIns .rcCfgDetach 4 0) fun x =>
      let t := drainGroup (entry s x) x.g.id
      decide ((network t 0).state ≠ 2) && (ownedNet t (((dispOf t x.g).map (·.part)).getD 0) (asidOf t x.g) 0).isSome && !queriesIn t 0) = true ∧
    (∀ k ∈ [0, 7], (let s := withNet (W 0 k 0)
     onIssue s (xIns .rcCfgStat 8 0) fun x => decide (rdB (entry s x) x x.lead ≤ 7) &&
      (ownedNet (entry s x) (((dispOf (entry s x) x.g).map (·.part)).getD 0) (asidOf (entry s x) x.g) 0).isSome) = true) := by decide +kernel

/-! ### Tasks, tapes, groups, the system -/

/-- A task dispatch whose queue stands at 0x50000: 64 records at 0x60000, the first delivered, node 1 with PROD 1. -/
def dTask : Dispatch := { d8 12 with record := patch (d8 12).record 88 (leBytes 8 0x50000) }
def taskQ : List Byte := leBytes 8 0x60000 ++ leBytes 8 6 ++ leBytes 8 0 ++ leBytes 8 0 ++ leBytes 8 0x70000 ++ leBytes 4 4 ++ leBytes 4 1 ++ leBytes 208 0
/-- Its worker, with a task or waiting for one, with values in the pairs at v8, v16 and v24. -/
def WT (task : Bool) (a b c : Nat) : State :=
  wrPlaces (onG (fun g => let h := setPair 8 a (setPair 16 b (setPair 24 c g))
    if task then { h with state := .run, wait := .none, task := some ⟨0, 0, 0, 0, 0, 100, []⟩ } else h) (placed dTask)) none
    (((placesOf slotPart 0x50000 256).zip taskQ).filter fun c => c.2 != 0)
/-- TasksAndLaunches: a record at the last place of the space, with each override. -/
theorem wit_TasksAndLaunches_launch :
    ∀ m ∈ [4, 12, 20], (let s := W (2 ^ 57 - 256 - 2 ^ 57 + 2 ^ 64) 5 0
     onIssue s (xIns .launch m 0) fun x =>
      let t0 := engineState s x 0x2C0 true
      let c := specOf t0 x 0x2C0 (X m 0 (.v 0) (.v 8) (if m = 4 then .v 0 else .v 16) (.v 0)) false
      let j := groupIssuer t0 x.g
      openB s x 0x2C0 true && decide (c.a % 64 = 0) && (cmdGlobal j c.a 256).isSome &&
      (match barOk (cmdBar t0 j c) with | some (t, b) => queueB t { newCmd t j ctlQueue c with bar := b, credit := 1 } | none => false)) = true := by
  decide +kernel
/-- TasksAndLaunches: `spawn` of good records, for the ring and for node 1; `task.end`; the forms of `coal.flush` at their limits. -/
def spawnOk (a : Nat) : Bool :=
  let s := lane0 (WT true a 0 0)
  let y : XWord := { X 44 0 (.v 32) (.v 8) (.v 16) (.v 24) with pred := 0 }
  onIssue s (.spawn y) fun x => match dispOf (entry s x) x.g with
    | some d => (match readQueue (released (entry s x) x) d (dieOf x.g) with
      | (t, some q) =>
        let rs := x.act.map fun l => (l, spawnRec t x y l)
        let ring := rs.filter fun r => recCkey r.2 == 0
        rs.all (fun r => !malformedRec d q r.2) && relB (entry s x) x && (List.range 8).all (fun k => !appendMigs t d (dieOf x.g) k (rs.filter fun r => recCkey r.2 == k).length) &&
        (if ring = [] then true else (appendRing t d (dieOf x.g) (ring.map (·.2))).isSome)
      | _ => false)
    | none => false
theorem wit_TasksAndLaunches_spawn : ∀ a ∈ [0x10000, 0x10001], spawnOk a = true := by decide +kernel
theorem wit_TasksAndLaunches_end : onConv (WT true 0 0 0) (fIns .taskEnd 0) (fun x => relB (entry (WT true 0 0 0) x) x) = true := by decide +kernel
def coalOk (i : Instr) (a b : Nat) (f : Nat → Nat → Option Nat) : Bool :=
  let s := WT true a b 0
  onIssue s i fun x =>
    let t0 := released (entry s x) x
    let k := rdA t0 x x.lead
    relB (entry s x) x && (match dispOf t0 x.g with
      | some d => (match readQueue t0 d (dieOf x.g) with
        | (t, some q) => decide (1 ≤ k ∧ k ≤ 7 ∧ nodeThresh q k ≠ 0) && (f (nodeProd q k) (rdB t x x.lead)).isSome && !appendMigs t d (dieOf x.g) k 0
        | _ => false)
      | none => false)
theorem wit_TasksAndLaunches_flush :
    coalOk (xIns .coalFlushNow 0 0) 1 0 (fun p _ => some p) = true ∧
    coalOk (xIns .coalFlushDone 1 0) 1 0 (fun p _ => if p = 0 then none else some (p - 1)) = true ∧
    (∀ n ∈ [2 ^ 32 - 2], coalOk (xIns .coalFlushProd 2 0) 1 n (fun p m => if 2 ^ 32 ≤ p + m then none else some (p + m)) = true) := by decide +kernel

/-- Die 0 with one tape, of handle 0 and in a state, of the group's space. -/
def withTape0 (st : TState) (s : State) : State :=
  modDie s 0 fun d => { d with tapes := [⟨0, 0, 1, st, false, false, List.replicate 32 0, [], []⟩] }
/-- Tapes: `tape.rec` on an empty die, `tape.stop` of the tape that the group records, `tape.drop`, patches of slot 31 and of a guard before
the end, and `tape.play`, each of a READY tape. -/
theorem wit_Tapes_record :
    (let s := W 0x20000 0 0
     onIssue s (xIns .tapeRec 0 0) fun x =>
      let t := drainGroup (entry s x) x.g.id
      !unitHeld (entry s x) (dieOf x.g) .tape && decide (x.g.tape = .none) && (match findDie t (dieOf x.g) with
        | some d => (freeHandle d).isSome && !unitOff t d.num .tape && decide (tapeUsed d + 10 ≤ tapeStore) &&
          (match tableBytes x t (rdA t x x.lead) 8 256 with | .ok _ => true | _ => false)
        | none => false)) = true ∧
    (let s := withTape0 .recording (onG (fun g => { g with tape := .recording 0 }) (W 0 0 0))
     onIssue s (fIns .tapeStop 0) fun x =>
      let t := drainGroup (entry s x) x.g.id
      !unitHeld (entry s x) (dieOf x.g) .tape && decide ((findGroup t x.g.id).map Group.tape = some (.recording 0)) &&
      (match findTape t 0 with | some tp => !tp.full && !tp.unrec | none => false)) = true := by decide +kernel
theorem wit_Tapes_ready :
    ∀ i ∈ [xIns .tapeDrop 0 0, xIns .tapePatchSlot 0 0, xIns .tapePatchGuard 1 0, xIns .tapePatchGuard 0x11 0, xIns .tapePlay 0 0, xIns .tapePlay 1 0],
      (let s := withTape0 .ready (W 0 0x20000 31)
       onIssue s i fun x =>
        let t := drainGroup (entry s x) x.g.id
        let r := markUnrec (released t x) x.g.id
        !unitHeld (entry s x) 0 .tape && !unitOff t 0 .tape && !unitOff r 0 .tape && relB t x && (ownTape r (asidOf r x.g) (rdA (entry s x) x x.lead)).isSome &&
        (match ownTape t (asidOf t x.g) (rdA (entry s x) x x.lead) with
          | some tp => decide (tp.state = .ready) && decide (rdC t x x.lead ≤ 31) && decide (guardAddr 0 (rdB t x x.lead) = none) &&
            decide ((guardUnits tp).length < 64) && decide (playCode (some tp) = 0) && decide (x.g.tape = .none) &&
            (match guardValue t (groupIssuer t x.g) 0 (rdB t x x.lead) with | (_, .ok _) => true | _ => false) &&
            (match readSlots x (rdB r x x.lead) (rdC r x x.lead) (List.range 32) r tp.slots with | .ok _ => true | _ => false)
          | none => false)) = true := by decide +kernel

/-- GroupBarriers: the set of one group signed and a wait on each side of its token; the barriers of a team and of a cluster of two. -/
theorem wit_GroupBarriers :
    (∀ m ∈ [0, 1], (let s := W m 0 0
     onIssue s (fIns .cvSign 15) fun x => match teamOf (entry s x) x.g with
      | some tm =>
        let c := cvOf tm 15
        relB (entry s x) x && decide (m < 2 ^ ((dispOf (entry s x) x.g).map dispTgrps).getD 0 ∧ c.signed = 0 ∧ rdA (entry s x) x x.lead = m) &&
        (if m = 0 then c.set else BitVec.ofNat 32 m).getLsbD x.g.grpid
      | none => false) = true) ∧
    (∀ m ∈ [0, 15], onIssue (W m 0 0) (fIns .cvWait 0) (fun x => match teamOf (entry (W m 0 0) x) x.g with
      | some tm => decide (((cvOf tm 0).phase = rdA (entry (W m 0 0) x) x x.lead % 16) = (m = 0)) | none => false) = true) ∧
    onConv (W 0 0 0) (fIns .barTeam 0) (fun x => relB (entry (W 0 0 0) x) x) = true ∧
    onConv (W 0 0 0) (fIns .barCl 0) (fun x => relB (entry (W 0 0 0) x) x && (teamOf (entry (W 0 0 0) x) x.g).isSome &&
      (match dispOf (entry (W 0 0 0) x) x.g with | some d => decide (dispClsize d ≤ 1) | none => false)) = true ∧
    (let s := placed { d8 4 with record := patch (d8 4).record 24 [2] }
     onConv s (fIns .barCl 0) fun x => relB (entry s x) x && (teamOf (entry s x) x.g).isSome &&
      (match dispOf (entry s x) x.g with | some d => decide (1 < dispClsize d) | none => false)) = true := by decide +kernel
/-- PriorityAndQueries. -/
theorem wit_PriorityAndQueries :
    (∀ i ∈ [fIns .prioSet 0, fIns .loc 0, fIns .clk 0], onIssue (W 15 0 0) i (fun _ => true) = true) ∧
    (∀ d ∈ [0, 3], onIssue (W d 0 0) (fIns .dieQ 0) (fun x => x.act.all fun l => decide (rdA (entry (W d 0 0) x) x l ≤ 3)) = true) := by decide +kernel

/-- SystemRegisters: FPSTAT, FANS, the last word of TREC, a register of a die; `syswr` of SEED. -/
theorem wit_SystemRegisters :
    (∀ p ∈ [(0, 1), (7, 0x005), (0, 0x003), (3, 0x050)], (let s := W p.1 0 0
     onIssue s (fIns .sysrd p.2) fun x => let i := rdA (entry s x) x x.lead
      indexOk p.2 i && !dieSilent (entry s x) (dieOf x.g) p.2 i && (findGroup (drainArray (entry s x) x.g.core) x.g.id).isSome) = true) ∧
    (let s := W 0 0 0
     onIssue s (fIns .sysrd 0x045) fun x => indexOk 0x045 (rdA (entry s x) x x.lead) && !dieSilent (entry s x) (dieOf x.g) 0x045 (rdA (entry s x) x x.lead)) = true ∧
    (∀ r ∈ [0, 2, 0x040], (let s := W 0 5 0
     onIssue s (fIns .syswr r) fun x => let i := rdA (entry s x) x x.lead
      indexOk r i && !dieSilent (entry s x) (dieOf x.g) r i) = true) ∧
    (-- FTPOOL and ERRCNT of a die that has failed
     let s := modDie (W 1 0 0) 1 fun d => { d with state := .failed }
     ∀ e ∈ [(fIns .sysrd 0x052, 0x052), (fIns .sysrd 0x058, 0x058), (fIns .syswr 0x052, 0x052)], onIssue s e.1 (fun x =>
      let r := e.2
      indexOk r (rdA (entry s x) x x.lead) && dieSilent (entry s x) (dieOf x.g) r (rdA (entry s x) x x.lead) && !inFlight x.g) = true) := by decide +kernel
/-- TranslationAndCaches: `tlbinv` of one page and of all with FORCE; `cwb` and `cinv` of nothing, of a physical line at the top, of a page. -/
theorem wit_TranslationAndCaches_tlb :
    (let s := W 0x20000 65536 1
     onIssue s (xIns .tlbinv 0 0) fun x =>
      let t := acquireNow (released (entry s x) x) x.g.id
      relB (entry s x) x && decide (rdC (entry s x) x x.lead = 1) && !leaseHeld t 1 0x20000 65536 &&
        !epochsCut t (dieOf x.g) 1 (regionsOf 0x20000 65536)) = true ∧
    (let s := W 0x20000 0 1
     onIssue s (xIns .tlbinv 0 0) fun x => decide (rdB (entry s x) x x.lead = 0 ∧ rdC (entry s x) x x.lead = 1)) = true ∧
    onIssue (W 0 0 0) (xIns .tlbinv 7 0) (fun x => relB (entry (W 0 0 0) x) x && allReach (entry (W 0 0 0) x)) = true := by decide +kernel
theorem wit_TranslationAndCaches_lines :
    ∀ e ∈ [(xIns .cwb 0 0, 0x20000, 0), (xIns .cinv 0 0, 0x20000, 256), (xIns .cwb 1 0, 2 ^ 52 - 256, 256), (xIns .cinv 1 0, 0, 0)],
      (let s := W e.2.1 e.2.2 0
       onIssue s e.1 fun x =>
        let t := acquireNow (released (entry s x) x) x.g.id
        let a := rdA t x x.lead
        let n := rdB t x x.lead
        relB (entry s x) x && decide (a % 256 = 0 ∧ n % 256 = 0 ∧ n = e.2.2) && (groupPart t x.g).isSome && (match dispOf t x.g with
          | some d => decide (e.2.1 = 2 ^ 52 - 256 ∧ a + n ≤ 2 ^ 52) || decide (n = 0) ||
            canonical a && (match physRuns t (ctxOn d x.g.core) (va57 a) n, groupPart t x.g with
              | (u, .ok runs), some p => (runsCut u p (dieOf x.g) runs).isNone | _, _ => false)
          | none => false)) = true := by decide +kernel

/-- DomainsRoutesDies: a table of zeros, ROUTE 0 for die 0, die 1 in SERVICE, in FROST and FAILED, the forms of `smpcfg`. -/
theorem wit_DomainsRoutesDies_domain :
    (let s := { W 0x400000 0 0 with mem := [], dirty := [] }
     onIssue s (xIns .domSw 0 0) fun x =>
      let t := acquireNow (released (entry s x) x) x.g.id
      let a := rdA t x x.lead
      -- with nothing listed and nothing bad the table's 4,096 bytes are zeros
      relB (entry s x) x && t.mem.isEmpty && t.dirty.isEmpty && t.badWords.isEmpty && (match groupPart t x.g with
        | some p => decide (a % 4096 = 0) && isDevPa p a && (runsCut t p (dieOf x.g) [(a, 4096)]).isNone && !sysBusy t p.id && goodTable t p (List.replicate 4096 0)
        | none => false)) = true := by decide +kernel
theorem wit_DomainsRoutesDies_route :
    onIssue (W 0 0 0) (xIns .routeSw 0 0) (fun x =>
      let t := drainGroup (entry (W 0 0 0) x) x.g.id
      (match groupPart t x.g with | some p => !sysBusy t p.id && !badRoute t 0 (rdA t x x.lead) | none => false)) = true := by decide +kernel
theorem wit_DomainsRoutesDies_die :
    ∀ e ∈ [(xIns .dieRstFrost 0 0, DState.service), (xIns .dieRstReset 1 0, .frost), (xIns .dieRstReset 1 0, .failed), (xIns .dieRstThaw 2 0, .frost)],
      (let w := modDie (W 1 0 0) 1 fun d => { d with state := e.2 }
       let s : State := { w with partitions := [{ slotPart with channels := [0], slices := [0] }], dies := w.dies.map fun d => { d with route := 0x3F } }
       onIssue s e.1 fun x => match findDie (entry s x) (rdA (entry s x) x x.lead) with
        | some d => decide (rdA (entry s x) x x.lead ≠ dieOf x.g ∧ s.sysOps = [] ∧ d.state = e.2) && (decide (e.2 ≠ .service) || !dieInUse (entry s x) d.num) &&
          linkUp (entry s x) d.num true && linkUp (entry s x) d.num false
        | none => false) = true := by decide +kernel
theorem wit_DomainsRoutesDies_sampler :
    ∀ e ∈ [(xIns .smpcfgConf 0 0, 0x106, 0), (xIns .smpcfgConf 0 0, 0xFFF14, 0), (xIns .smpcfgRing 1 0, 0x8000, 1), (xIns .smpcfgAck 2 0, 4095, 0),
        (xIns .smpcfgReset 3 0, 0, 0), (xIns .smpcfgStat 4 0, 0, 2)],
      (let s := W e.2.1 e.2.2 0
       onIssue s e.1 fun x => match smpcfgRule e.1 with
        | some (y, bad, _) => diesReach (entry s x) (dieOf x.g) (xmod y 3 2) 0 && !unitHeld (entry s x) (xmod y 3 2) .sampler && !bad (rdA (entry s x) x x.lead) (rdB (entry s x) x x.lead)
        | none => false) = true := by decide +kernel
theorem wit_DomainsRoutesDies_lost :
    (let s := modDie (W 0x106 0 0) 1 fun d => { d with state := .failed }
     onIssue s (xIns .smpcfgConf 8 0) fun x => match smpcfgRule x.i with
        | some (y, _, _) => !inFlight x.g && !diesReach (entry s x) (dieOf x.g) (xmod y 3 2) 0
        | none => false) = true := by decide +kernel

/-- Dispatch 2 of the partition with one team that holds a group in a state. -/
def withOther (st : GState) (s : State) : State :=
  let d2 : Dispatch := { d8 4 with id := 2, record := patch (d8 4).record 22 [1] }
  let t2 : List Team := s.teams.map fun t => { t with disp := 2, localBase := 200, localG := 1, slots := [] }
  { s with dispatches := s.dispatches ++ [d2], clusters := s.clusters ++ [⟨2, 0, .running, ⟨0, []⟩⟩], teams := s.teams ++ t2,
           groups := s.groups ++ s.groups.map fun g => { g with id := 77, disp := 2, state := st, v := [], blocks := [40] } }
/-- Contexts: `ctxsave.pre`, `ctxrest.resume` in both forms, `ctxrest.end` of dispatch 2 from dispatch 1. -/
theorem wit_Contexts_dispatch :
    ∀ i ∈ [xIns .ctxsavePre 0 0, xIns .ctxrestResume 1 0, xIns .ctxrestResume 5 0, xIns .ctxrestEnd 2 0],
      (let s := withOther .held (W 2 0 0)
       onIssue s i fun x => match findDisp (entry s x) (rdA (entry s x) x x.lead) with
        | some d => decide ((dispOf (entry s x) x.g).map (·.part) = some d.part ∧ rdA (entry s x) x x.lead ≠ x.g.disp) &&
          (match findTeam (drainGroup (entry s x) x.g.id) d.id (rdB (drainGroup (entry s x) x.g.id) x x.lead) with
            | some tm => ((teamGroups s tm).any fun g => g.state == .held) && !savedMigs (drainGroup (entry s x) x.g.id) d
            | none => false)
        | none => false) = true := by decide +kernel
/-- What `ctxsave.dump` and `ctxrest.load` of team 0 of dispatch 2 ask, with a frame at 0x200000; `ok` is asked of the team, the partition and the
frame's pages. -/
def frameOpen (s : State) (i : Instr) (a : Acc) (ok : State → Team → Partition → List Nat → Bool) : Bool :=
  onIssue s i fun x =>
    let t := drainGroup (entry s x) x.g.id
    let va := rdC t x x.lead
    decide (va % frameSize = 0) && decide (rdA (entry s x) x x.lead ≠ x.g.disp) && (globTarget x.g va frameSize == some (.glob va)) &&
    (match findDisp t (rdA t x x.lead), dispOf t x.g, groupPart t x.g with
      | some d, some me, some p => (match findTeam t d.id (rdB t x x.lead) with
        | some tm => teamStill t tm && inLease me (va57 va) frameSize && (match xlateRun t (ctxOn me x.g.core) a (va57 va) frameSize with
          | (w, .ok tab) =>
            let u := settleSlots w p (blocksVia tab (va57 va) frameSize)
            allReach u && ok u tm p ((List.range 32).map fun i => paVia tab (va57 va + 65536 * i))
          | _ => false)
        | none => false)
      | _, _, _ => false)
theorem wit_Contexts_dump : frameOpen (withOther .held (W 2 0 0x200000)) (xIns .ctxsaveDump 1 0) .write (fun _ _ _ _ => true) = true := by decide +kernel
/-- The frame that `ctxsave.dump` writes passes the checks of `ctxrest.load`. -/
theorem wit_Contexts_load :
    (match exec (xIns .ctxsaveDump 1 0) (withOther .exit (W 2 0 0x200000)) with
    | .next s => frameOpen s (xIns .ctxrestLoad 0 0) .read fun u tm p pages =>
        !badPages u p pages && frameOk u tm (readFrame u p pages) && tm.frame.isNone
    | _ => false) = true := by decide +kernel

/-! ### Steps of the other agents -/

/-- The state after an instruction or step. -/
def run (i : Instr) (s : State) : State := match exec i s with | .next t => t | _ => s
/-- The group parked for a reason. -/
def parked (w : Wait) (s : State) : State := onG (fun g => { g with state := .park, wait := w }) s
/-- SchedulingSteps: a group selected, one that was ready for 1,024 clocks, a nap that is over, a grant of one block more. -/
theorem wit_SchedulingSteps :
    (let se := (grp twoGroups).sector
     (selectGroup twoGroups 0 se).isSome = true ∧ issuesEarlier twoGroups 0 se = false ∧ (selectGroup (reachSector twoGroups 0 se) 0 se).isSome = true) ∧
    (let s := modCore twoGroups 0 fun k => { k with busy := [9, 9, 9, 9].set (grp twoGroups).sector 3 }
     issuesEarlier s 0 (((grp twoGroups).sector + 1) % 4) = true) ∧
    (let s := onG (fun g => { g with readyClks := 1024, naps := [(3, 0)] }) (W 0 0 0)
     1024 ≤ (grp s).readyClks ∧ findGroup s (grp s).id = some (grp s) ∧ (3, 0) ∈ (grp s).naps ∧ 0 ≤ s.clk) ∧
    (let s := parked (.rgrow 5) (onG (fun g => { g with blocks := g.blocks.take 4 }) (W 0 0 0))
     findGroup s (grp s).id = some (grp s) ∧ (grp s).state = .park ∧ (grp s).wait = .rgrow 5 ∧ (growBlocks s (grp s) 5).isSome = true) := by decide +kernel

/-- States with a load, a store, a `red` and an atomic on their way. -/
def loading : State := run (fIns .ldG 2) (W 0x20000 0 7)
def storing : State := run (fIns .stG 2) (W 0x20000 0 7)
def reducing : State := let z := X 0x42 0 (.v 0) (.v 8) (.v 16) (.v 0); run (.red z) (W 0x20000 5 0)
def atomic : State := let z := X 0x42 0 (.v 32) (.v 8) (.v 16) (.v 0); run (.atom z) (W 0x20000 5 0)
def flight0 (s : State) (p : Flight → Bool) : Bool := match (grp s).flights with | f :: _ => p f | [] => false
def store0 (s : State) (p : PendStore → Bool) : Bool := match (grp s).stores with | w :: _ => p w | [] => false
/-- AccessSteps: a flight whose home moved, one that nothing holds, one that a sweep holds; the group's wait over. -/
theorem wit_AccessSteps_flight :
    findGroup loading (grp loading).id = some (grp loading) ∧ groupPart loading (grp loading) = some slotPart ∧
    flight0 loading (fun f => !flightDone f && !((flightLeft f).any fun a => moved slotPart a.pa a.home) &&
      !(freeLanes loading (grp loading) slotPart f).isEmpty) = true ∧
    flight0 loading (fun f => (freeLanes { loading with sweeping := [(0, sfold 0x20000)] } (grp loading) slotPart f).isEmpty) = true ∧
    (let s := onG (fun g => { g with flights := g.flights.map fun f => { f with lanes := f.lanes.map fun a => { a with home := 99 } } }) loading
     flight0 s (fun f => (flightLeft f).any fun a => moved slotPart a.pa a.home) = true) ∧
    (let s := { loading with sweeping := [(0, sfold 0x20000)] }
     flight0 s (fun f => (flightLeft f).any fun a => swept s slotPart a.pa) = true) ∧
    waitMet (parked .again loading) (grp (parked .again loading)) = true := by decide +kernel
/-- AccessSteps: replies without and with an error, of a load and of an atomic, every lane of which has been performed. -/
def replied (s : State) : State := match (grp s).flights with | f :: _ => f.lanes.foldl (fun s _ => run (.sliceAccess (grp s).id f.seq) s) s | [] => s
theorem wit_AccessSteps_reply :
    (∀ e ∈ [(replied loading, false), (replied atomic, true)], flight0 e.1 (fun f =>
        let rem (err : DWord) := ((f.lanes.map (·.lane)) ++ f.got.map (·.1) ++ f.rem).eraseDups.filter fun l => f.rem.contains l || err.getLsbD l
        flightDone f && decide (isAtomFlight f = e.2) && f.bad.isEmpty && f.dst.isSome && (rem 0).isEmpty && !(rem 0x80).isEmpty) = true) := by decide +kernel
/-- AccessSteps: a store and a `red` that nothing holds, answered or not. -/
theorem wit_AccessSteps_store :
    ∀ e ∈ [(storing, false), (reducing, true)], findGroup e.1 (grp e.1).id = some (grp e.1) ∧ (grp e.1).state = .run ∧
      store0 e.1 (fun w => !moved slotPart w.pa w.home && !storeBlocked (ordMode e.1 (grp e.1)) (grp e.1) w && !swept e.1 slotPart w.pa &&
        reachable e.1 slotPart (dieOf (grp e.1)) w.pa && decide (w.red.isSome = e.2) && decide ((grp e.1).relFence ≤ w.seq) && !badPlaces e.1 ((List.range w.size).map (w.place + ·))) = true := by
  decide +kernel

/-- MemorySideSteps. -/
def hot (pending : Bool) : HotPage := ⟨5, 9, false, pending⟩
def sampled (c : Nat) (ring notify : Option Nat) (s : State) : State :=
  modSampler s 0 fun p => { p with log2n := 6, counter := c, ring := ring, notify := notify, table := [(5, some (hot true))] }
theorem wit_MemorySideSteps_sampler :
    (∀ e ∈ [(0, false), (62, true), (63, false), (63, true)], (let c := e.1
      let s := modSampler (sampled c (some 0x8000) (some 0x9000) (W 0 0 0)) 0 fun p => { p with hot := e.2 }
      match findDie s 0 with
        | some d => decide (d.num = 0 ∧ d.sampler.log2n ≠ 0 ∧ (c = 63) = (2 ^ d.sampler.log2n ≤ d.sampler.counter + 1)) && !d.unitsOff.contains 6 && !d.unitsTest.contains 6 && decide (d.sampler.hot = e.2) &&
          ringRoom s d.num 0x8000 && ringRoom s d.num 0x9000 && decide (d.sampler.notify = some 0x9000) &&
          ((d.sampler.table.filterMap fun e => e.2.map fun h => (e.1, h)).find? fun e => e.2.pending).isSome
        | none => false) = true) := by decide +kernel
theorem wit_MemorySideSteps_links :
    ((moduleOf State.reset 0 .a 0).map fun x => x.retraining || x.disabled) = some false ∧
    (let s := modModule State.reset 3 .b 15 fun x => { x with retraining := true }
     (moduleOf s 3 .b 15).map (fun x => x.retraining && !x.disabled) = some true) ∧
    (let s := modModule State.reset 3 .b 15 fun x => { x with fails := 15 }
     (moduleOf s 3 .b 15).map (fun x => decide (x.fails + 1 < 16)) = some false) ∧
    (findCore State.reset 175).isSome = true ∧
    (let s := { State.reset with corrWords := [.mem 5, .lmem 3 8], badWords := [.reg 0 1 2] }
     ArrayLoc.mem 5 ∈ s.corrWords ∧ ArrayLoc.mem 5 ∉ s.badWords ∧ ArrayLoc.reg 0 1 2 ∈ s.badWords) := by decide +kernel
theorem wit_MemorySideSteps_window :
    (let s := modLine (withWindow (W 0 0 0)) 0 31 fun k => { k with win := 3, mask := 1 }
     decide ((getLine s 0 31).win = 3) && (match windowAt s 0 (128 * 31) with
      | some (t, w) => (match writeBackWindow s t w 31 with | .ok _ => true | _ => false)
      | none => false)) = true := by decide +kernel

/-- EngineSteps: a copy and a collective in their queues, a multiply in its array, room for a group that waits for it. -/
def cmd0 (s : State) (p : Cmd → Bool) : Bool := match s.cmds with | c :: _ => p c && (findCmd s c.id == some c) | [] => false
def copying : State := run (xIns .cpG2l 4 256) (W 1024 0x20000 0)
def collecting : State := run (xIns .coll 0x804 (2 ^ 44 + 16)) (withGroup0 (W 0x10000 0x20000 0))
theorem wit_EngineSteps_copy :
    cmd0 copying (fun c => decide (0x200 ≤ c.opc ∧ c.opc ≤ 0x205) && cmdReady copying c && (barReady copying c).2.isNone) = true ∧
    cmd0 collecting (fun c => decide (c.opc = 0x208) && cmdReady collecting c && collFirst collecting c && !unitHeld collecting (coreDie c.core) .collective &&
      !unitOff collecting (coreDie c.core) .collective && decide ((cmdRanks c).length = 1) && (match engRead collecting c (.glob (va57 c.b)) 64 with
        | (t, .ok bs) => (engWrite t c (.glob (va57 c.a)) ((collResult 0 0 8 c.len 0 [bs]).flatMap (leBytes 4))).2.isNone
        | _ => false)) = true := by decide +kernel
theorem wit_EngineSteps_array :
    (let y := X 0 (mmaBits (za + asrc)) (.v 0) (.imm 0) (.imm 0) (.v 0)
     (findCore (run (.mma y) (W 0 0 0)) 0).map (fun k => k.lcore == 0 && !k.array.isEmpty) = some true) ∧
    (∀ q ∈ [0, ctlQueue], (let s := parked (.queueRoom 0 q) (W 0 0 0)
      findGroup s (grp s).id = some (grp s) ∧ (grp s).state = .park ∧ (grp s).wait = .queueRoom 0 q ∧ ctlBusy s (grp s).id = false ∧ queueLen s 0 q < 64)) := by
  decide +kernel

/-- An `smp.end` in force (`c`) of session 0 of one pixel and one bin, in a state. -/
def engCmd (s : State) : Cmd := { newCmd s (groupIssuer s (grp s)) 6 ⟨0x299, 4, 6, 0, 0, 0, 0, 0⟩ with started := true }
def sampling (bin : Nat) (mapped : Bool) : State :=
  let s := W 0 0 0
  let d : List Byte := patch (patch (leBytes 4 (1 + 2 ^ 16) ++ List.replicate 252 0) 32 (leBytes 8 (if mapped then 0x400000 else 2 ^ 40))) 40 (leBytes 8 0x500000)
  { s with cmds := [engCmd s], nextId := s.nextId + 1, sessions := [{ sessionReset 0 with state := 2, desc := d, bins := [bin], endCmd := s.nextId }] }
/-- UnitSteps: a bin to activate, with its lists mapped and not; an active one without grids. -/
theorem wit_UnitSteps_bins :
    (∀ m ∈ [false, true], (let s := sampling 0 m
      match endOf s 0 with
        | some c =>
          let x := session s 0
          decide (binState x 0 = 0 ∧ 0 < x.bins.length) && binFree c 0 &&
            ((emptyRows c x.desc ((binPixels x.desc 0).1.headD 0) (binPixels x.desc 0).1.length (binPixels x.desc 0).2 (startStep s c 0)).2.isNone == m)
        | none => false) = true) ∧
    (let s := sampling 1 true
     match endOf s 0 with
      | some c =>
        let x := session s 0
        decide (binState x 0 = 1 ∧ Sparse.get 0 x.counts 0 = 0) && binFree c 1 && (match stepRead (startStep s c 1) c (refAt x.desc 0 0) 0 with
          | (t, .ok rs) => decide (rs = []) && (match readGrids c [] t [] with
            | (u, .ok gs) => (writeLists c x.desc (replayBin x 0 (sortGrids gs)).lists u).2.isNone
            | _ => false)
          | _ => false)
      | none => false) = true ∧
    (-- one reference, whose list is not mapped
     let s := { sampling 1 true with sessions := (sampling 1 true).sessions.map fun x =>
       { x with counts := [(0, 1)], desc := patch x.desc 40 (leBytes 8 (2 ^ 40)) } }
     match endOf s 0 with
      | some c =>
        let x := session s 0
        decide (binState x 0 = 1) && binFree c 1 && (match (stepRead (startStep s c 1) c (refAt x.desc 0 0) (8 * Sparse.get 0 x.counts 0)).2 with
          | .error _ => true | _ => false)
      | none => false) = true := by decide +kernel
/-- A network that closes, with its `rc.sync`, at a step. -/
def closing (training : Bool) (step : Nat) : State :=
  let s := withNet (W 0 0 0)
  modNetwork { s with cmds := [{ engCmd s with opc := 0x2A2 }] } 0 fun n =>
    { n with state := 2, training := training, step := step, cmd := some s.nextId, desc := patch (patch n.desc 4 (leBytes 4 1)) 12 (leBytes 4 64) }
/-- UnitSteps: an offer's command, training begun, a step, the publication of a table of no levels. -/
theorem wit_UnitSteps_cache :
    (let s := closing false 0
     (trainCmd s (network s 0)).isSome = true ∧ (network s 0).training = false ∧ (s.cmds.any fun d => d.opc == 0x2A1 && d.seq == 0) = false ∧
       stampedIn s 0 ((network s 0).w - 1) = false ∧ (findPart s 0).isSome = true) ∧
    (let s := closing true 0
     (trainCmd s (network s 0)).isSome = true ∧ (network s 0).training = true ∧ (network s 0).step < stepCount (network s 0).desc) ∧
    (let s := closing true 1
     (network s 0).training = true ∧ stepCount (network s 0).desc ≤ (network s 0).step ∧ tabEntries (network s 0).desc = 0) := by decide +kernel

/-- The worker that waits for a task, with a queue's HEAD 0, its TAIL, and its first record. -/
def awaits (tail rec0 : Nat) : State :=
  wrPlaces (parked .task (WT false 0 0 0)) none ((((placesOf slotPart (0x50000 + 24) 8).zip (leBytes 8 tail)) ++
    ((placesOf slotPart 0x60000 64).zip (leBytes 64 rec0))).filter fun c => c.2 != 0)
def readQ (s : State) : Option (List Byte) := (readQueue s dTask 0).2
/-- A record that the worker's dispatch accepts: its EDISP is that of record byte 20. -/
def goodRec : Nat := (recByte dTask 20) * 2 ^ 58
/-- TaskSteps: a good record, a malformed one, an empty queue. -/
theorem wit_TaskSteps_delivery :
    (∀ e ∈ [(goodRec, false), (goodRec + 2 ^ 57, true)],
      (let s := awaits 1 e.1
       decide (findGroup s (grp s).id = some (grp s)) && decide (dispOf s (grp s) = some dTask) && workerFree s (grp s) &&
       !vaMigs s (ctxOf dTask (dieOf (grp s))) .write (taskqVa dTask) 256 &&
       (match readQueue s dTask (dieOf (grp s)) with
        | (t, some q) => decide (qUsed q ≠ 0) && (match rdVa t (ctxOf dTask (dieOf (grp s))) (qRing q + 64 * (qHead q % qCount q)) 64 with
          | (u, some r) => malformedRec dTask q r == e.2 && (taskBlocks u (grp s) (recByte dTask 21)).isSome
          | _ => false)
        | _ => false)) = true) ∧
    (let s := awaits 0 0
     workerFree s (grp s) && (match readQueue s dTask (dieOf (grp s)) with
      | (t, some q) => decide (qUsed q = 0) && decide (liveRecords t dTask + liveTasks t dTask = 0)
      | _ => false)) = true := by decide +kernel
/-- A dispatch whose node 1 holds since clock 0, or holds batches. -/
def node1 (since : Option Nat) (bs : List (List (List Byte))) : State :=
  let s := awaits 0 0
  { s with clk := 2 ^ 14, dispatches := s.dispatches.map fun d => { d with nodes := [⟨1, since, bs⟩] } }
def disp0 (s : State) : Dispatch := (s.dispatches.head?).getD dTask
/-- TaskSteps: a task at its limit, a node whose time is over, batches, a wait for the ring in a task's end and in an instruction. -/
theorem wit_TaskSteps_waits :
    (let s := { WT true 0 0 0 with clk := 100 }
     (grp s).task.map (fun k => decide (k.start + k.limit ≤ s.clk)) = some true) ∧
    (let s := node1 (some 0) []
     findDisp s (disp0 s).id = some (disp0 s) ∧ ((disp0 s).nodes.find? fun n => n.node == 1) = some ⟨1, some 0, []⟩ ∧
       ((readQueue s (disp0 s) (partDie s (disp0 s).part)).2.map fun q => decide (0 + nodeF q 1 ≤ s.clk)) = some true) ∧
    (let s := node1 none [[]]
     findDisp s (disp0 s).id = some (disp0 s) ∧ ((disp0 s).nodes.find? fun n => n.node == 1) = some ⟨1, none, [[]]⟩ ∧
       appendMigs s (disp0 s) (partDie s (disp0 s).part) 0 0 = false) ∧
    (let s := parked .ring (onG (fun g => { g with task := some ⟨0, 0, 0, 0, 0, 100, [0]⟩ }) (W 0 0 0))
     findGroup s (grp s).id = some (grp s) ∧ (grp s).state = .park ∧ (grp s).wait = .ring ∧ (grp s).task.map (fun k => k.pend == []) = some false) ∧
    (let s := parked .ring (W 0 0 0)
     (grp s).state = .park ∧ (grp s).wait = .ring ∧ (grp s).task = none) := by decide +kernel

/-- OutsideWrites: an element at each of the ends of its register, a dispatch, a reported fault that is retried, one that is delivered. -/
def faulted (st : GState) : State :=
  let s := onG (fun g => { g with state := st }) (W 0 0 0)
  { s with faults := [⟨3, some (grp s).id, none, (grp s).disp, 1, 0x9000, 0x10, 1, 1, 0, 0, 0x1000⟩] }
theorem wit_OutsideWrites :
    (let s := faulted .fault
     findGroup s (grp s).id = some (grp s) ∧ (dispOf s (grp s)).isSome = true ∧
     (s.faults.find? fun f => f.tag == 3).map (fun w => decide (w.grp = some (grp s).id ∧ w.what = 0)) = some true ∧
     (grp s).rq = none ∧ (grp s).state = .fault) := by decide +kernel

/-- DieSteps: a freezing quiet die, one in reset, tests of a core, a unit and a way that begin and end, a held record with room. -/
theorem wit_DieSteps :
    (let s := modDie State.reset 3 fun d => { d with state := .freezing }
     dieQuiet s 3 = true) ∧
    (let s := modDie State.reset 3 fun d => { d with state := .reset }
     (findDie s 3).map (fun d => d.state == .reset) = some true) ∧
    (findCore State.reset 175).map (fun k => k.testing || k.retiredMark) = some false ∧
    (findDie State.reset 3).map (fun k => k.unitsTest.contains (unitNo .collective) || k.unitsOff.contains (unitNo .collective)
      || k.waysTest.contains (63, 15) || k.waysOff.contains (63, 15)) = some false ∧
    (let s := modCore State.reset 175 fun k => { k with testing := true }
     (findCore s 175).map (·.testing) = some true ∧ coreEmpty s 175 = true) ∧
    (let s := modDie State.reset 3 fun d => { d with unitsTest := [unitNo .collective], waysTest := [(63, 15)] }
     (findDie s 3).map (fun k => k.unitsTest.contains (unitNo .collective) && k.waysTest.contains (63, 15)) = some true) ∧
    (let s := { W 0 0 0 with sysnq := 0x8001, heldRecs := [⟨.sysfq, .group 0, 0, List.replicate 8 0⟩, ⟨.sysnq, .unit 0 5, 0, List.replicate 8 0⟩] }
     (heldHead .sysnq [] s.heldRecs).isSome = true ∧ (postRing s .sysnq).map (fun pa => ringRoom s 0 pa) = some true) := by decide +kernel
/-- DieSteps: a core under test with a team elsewhere in a frame; commands, a session and a network whose unit is under test. -/
def underTest (u : DieUnit) (s : State) : State := modDie s 0 fun d => { d with unitsTest := [unitNo u] }
theorem wit_DieSteps_held :
    (let s := modCore { W 0 0 0 with teams := (W 0 0 0).teams.map fun t => { t with frame := some 0x400000 } } 0 fun k => { k with testing := true }
     (findCore s 0).map (·.testing) = some true ∧ (s.teams.head?).map (fun t => t.frame.isSome) = some true) ∧
    (∀ e ∈ [(DieUnit.sampling, 0x299), (.dicing, 0x290), (.collective, 0x208)],
      (let s := underTest e.1 { W 0 0 0 with cmds := [{ engCmd (W 0 0 0) with opc := e.2 }] }
       cmd0 s fun c => unitHeld s (coreDie c.core) e.1 && (decide (cmdUnit c.opc = some e.1) || decide (c.opc = 0x208 ∧ e.1 = .collective))) = true) ∧
    (let s := underTest .sampling (sampling 0 true)
     (findCmd s (session s 0).endCmd).map (fun c => unitHeld s (coreDie c.core) .sampling) = some true) ∧
    unitHeld (underTest .equinox (closing true 0)) (nHome (network (closing true 0) 0).desc) .equinox = true := by decide +kernel

/-- The tables of address spaces at 0x800000, that of space 1 valid. -/
def withAstab (s : State) : State :=
  wrPlaces { s with astab := 0x800001 } none (((placesOf slotPart (0x800000 + 32) 32).zip slotAscr).filter fun c => c.2 != 0)
/-- A submission of a record at 0x30000 of a dispatch whose start address is as given. -/
def submitting (d : Dispatch) (pc : Nat) : State :=
  let s := withAstab (placed (d8 4))
  let s := wrPlaces s none (((placesOf slotPart 0x30000 256).zip (patch d.record 0 (leBytes 8 pc))).filter fun c => c.2 != 0)
  { s with submissions := [{ id := 9, part := 0, sub := .host 0, recVa := 0x30000, asid := 1, ascr := slotAscr, die := 0, sysRight := true,
                             asidBound := none, entry := 0, signal := (0, 0), ovr := none, preempt := 0 }] }
/-- DispatchSteps: a submission to accept, one to refuse (its start address is no multiple of 8), one whose space has no descriptor, one of a task
dispatch whose queue is not readable, and one whose record is not. -/
theorem wit_DispatchSteps_accept :
    (∀ e ∈ [(submitting (d8 4) 0x10000, true, true, true), (submitting (d8 4) 0x10004, false, true, true),
        ({ submitting (d8 4) 0x10000 with astab := 2 ^ 47 + 1 }, true, false, true),
        (submitting { dTask with record := patch dTask.record 88 (leBytes 8 (2 ^ 40)) } 0x10000, true, true, false)],
      (match e.1.submissions with
        | b :: _ =>
          let s0 := { e.1 with submissions := e.1.submissions.filter fun c => c.id != b.id }
          decide (e.1.submissions.find? (fun c => c.id == b.id) = some b) && !subMigs e.1 b && (match findPart s0 b.part, rdVa s0 (subCtx b) b.recVa 256 with
            | some p, (t, some raw) =>
              let d := Machine.submitted t b raw
              acceptable t b p d == e.2.1 && (readDescriptor t b.die (dispAsid d)).isSome == e.2.2.1 && (taskQueueOk t d b.die).2 == e.2.2.2
            | _, _ => false)
        | [] => false) = true) ∧
    (let s := submitting (d8 4) 0x10000
     match s.submissions with
      | b :: _ => let c := { b with recVa := 2 ^ 40 }
        let s := { s with submissions := [c] }
        !subMigs s c && (rdVa { s with submissions := [] } (subCtx c) c.recVa 256).2.isNone
      | [] => false) = true := by decide +kernel
/-- DispatchSteps: a page to walk, one that does not translate, none left. -/
def preparing (lease n : Nat) : State :=
  let s := placed (d8 4)
  { s with dispatches := s.dispatches.map fun d =>
      { d with state := .preparing, prepared := n, record := patch d.record 96 (leBytes 8 lease ++ leBytes 8 0x10000) } }
theorem wit_DispatchSteps_prepare :
    ∀ e ∈ [(preparing 0x20000 0, 1), (preparing (2 ^ 40) 0, 2), (preparing 0x20000 99, 0),
        ({ preparing 0x20000 0 with dies := (preparing 0x20000 0).dies.map fun d => { d with state := .failed } }, 3)], (let s := e.1
      let d := disp0 s
      decide (findDisp s d.id = some d) && d.state == .preparing && d.waitTag.isNone && (match (prepPages d)[d.prepared]? with
        | none => e.2 == 0
        | some va => (match (translate s (ctxOf d (partDie s d.part)) va .read).2 with | .ok _ => e.2 == 1 | .fault _ => e.2 == 2 | .rem => e.2 == 3 | _ => false))) = true := by
  decide +kernel
/-- DispatchSteps: a cluster to place, a group that exited, a dispatch that is over. -/
theorem wit_DispatchSteps_life :
    (let s0 := W 0 0 0
     let s := { s0 with groups := [], teams := [], clusters := [], dispatches := s0.dispatches.map fun d => { d with nextTeam := 0 } }
     let d := disp0 s
     decide (findDisp s d.id = some d) && (dispPart s d).isSome && mayPlace s d && decide (d.nextTeam / max 1 (dispClsize d) < dispNcl d) &&
       (match dispPart s d with
        | some p => (tryRectangles s p (dispClW d) (dispClH d) (placeCluster d (d.nextTeam / max 1 (dispClsize d)))).isSome
        | none => false)) = true ∧
    (let s := onG (fun g => { g with state := .exit }) (W 0 0 0)
     let g := grp s
     findGroup s g.id = some g ∧ g.state = .exit ∧ (teamOf (retireMember (setGroup s { g with state := .retired }) g) g).isSome = true) ∧
    (let s0 := W 0 0 0
     let s := { s0 with groups := [], teams := [], clusters := [] }
     let d := disp0 s
     findDisp (pruneClusters s) d.id = some d ∧ dispatchOver (pruneClusters s) d = true) := by decide +kernel
/-- DispatchSteps: a cluster to save, with a frame in the pool or without; one to resume; a pool that has frames again. -/
def saving (pool : Bool) : State :=
  let s := W 0 0 0
  let s := { s with clusters := s.clusters.map fun c => { c with state := .saving } }
  if pool then wrPlaces { s with savepool := 0x300001 } none [(placeOf slotPart 0x300000, 1), (placeOf slotPart 0x300040, 1)] else s
theorem wit_DispatchSteps_save :
    (∀ e ∈ [true, false], (let s := saving e
      findDisp s (disp0 s).id = some (disp0 s) ∧ clusterSavable s (disp0 s).id 0 = true ∧ framesReady s (frameTeams s (disp0 s).id 0) = e ∧
        s.poolEmptyPosted = false)) ∧
    (let s := { saving true with poolEmptyPosted := true }
     (s.clusters.head?).map (fun c => decide (c.disp = (disp0 s).id ∧ c.clid = 0) && clusterSavable s (disp0 s).id c.clid) = some true ∧
       framesReady s (frameTeams s (disp0 s).id 0) = true ∧ s.poolEmptyPosted = true) := by decide +kernel
theorem wit_DispatchSteps_resume :
    (let s0 := W 0 0 0
     let s := { s0 with groups := [], clusters := s0.clusters.map (fun c => { c with state := .saved }),
                        teams := s0.teams.map fun t => { t with frame := some 0x400000 } }
     decide (findDisp s (disp0 s).id = some (disp0 s)) && (resumeCluster s (disp0 s).id 0).isSome) = true := by decide +kernel

/-- A queue of 16 entries at 0x2000 of host memory, of address space 1, with a SIGNAL in progress or a WAIT, and its first entry. -/
def hostq (e : List Byte) (door : DWord) (signals : List (Nat × Nat × Nat × Nat)) (waiting : Option (Nat × Nat × Nat × Nat)) : State :=
  let s := withTape0 .ready (withAstab (placed (d8 4)))
  let h : HostQueue := { id := 5, part := 0, descPa := hostPa 0x1000, desc := leBytes 8 0x2000 ++ leBytes 8 (4 + 2 ^ 8 + 2 ^ 16) ++ leBytes 112 0, door := door,
                         next := 0, busy := [], waiting := waiting, signals := signals, play := none, failed := false }
  hostWrite { s with hostQueues := [h] } (hostPa 0x2000) e
def q5 (s : State) (p : HostQueue → Bool) : Bool :=
  match findQueue s 5 with | some h => powered s && p h | none => false
/-- HostQueueSteps: an entry of each kind, and a bad one. -/
theorem wit_HostQueueSteps_entries :
    (∀ k ∈ [1, 3, 4], (let s := hostq (leBytes 8 k ++ leBytes 8 0x30000) 1 [] none
      q5 s fun h => match startable s h with | some e => !entryBad e && decide (entryKind e = k) && (signalReady s h).isNone | none => false) = true) ∧
    (let s := hostq (leBytes 8 2) 1 [] none
     q5 s fun h => match startable s h with
      | some e => !entryBad e && decide (entryKind e = 2) && !hostMoves s h && playMay s h e &&
          !unitOff s (tapeDie (qNum e 8 2)) .tape && decide (qNum e 8 2 < 1024) && (match ownTape s (queueCtx s h).asid (qNum e 8 2) with
            | some t => playCode (some t) == 0 && (hostSlots (queueCtx s h) (qNum e 16 8) (qNum e 24 4) (List.range 32) s t.slots).2.isSome
            | none => false)
      | none => false) = true ∧
    (∀ k ∈ [0, 5, 65537], (let s := hostq (leBytes 8 k) 1 [] none
      q5 s fun h => match startable s h with | some e => entryBad e | none => false) = true) := by decide +kernel
/-- HostQueueSteps: a SIGNAL that is due, a WAIT that holds at its bound, by equality and by order. -/
theorem wit_HostQueueSteps_signal :
    (∀ e ∈ [(0x30000, 0, true), (0x30000, 1, true), (2 ^ 40, 0, false)], (let s := hostq [] 1 [(0, e.1, 7, e.2.1)] none
      q5 s fun h => match signalReady s h with
        | some g => decide (g.2.2.2 = e.2.1) && ((if e.2.1 = 1 then updVa s (queueCtx s h) g.2.1 8 (fun b => leBytes 8 (ofLeBytes b + g.2.2.1))
            else wrVa s (queueCtx s h) g.2.1 (leBytes 8 g.2.2.1)).isSome == e.2.2)
        | none => false) = true) ∧
    (∀ c ∈ [0, 1], (let s := hostq [] 1 [] (some (0x30000, 0, c, 0))
      q5 s fun h => match h.waiting with
        | some (va, v, cond, _) => (match rdVa s (queueCtx s h) va 8 with
          | (_, some b) => if cond = 0 then ofLeBytes b == v else decide (v ≤ ofLeBytes b)
          | _ => false)
        | none => false) = true) := by decide +kernel

/-- ManagementSteps. -/
def bare : State := { W 0 0 0 with partitions := [], dispatches := [], clusters := [], teams := [], groups := [], cur := none }
def spec1 : PartSpec :=
  { dies := [0], hbmStacks := [0, 1], chanImage := none, pbase := 0, slices := (List.range 16) ++ [63], sliceImage := none, lent := [63], expBase := 0,
    expLen := 2 ^ 30 }
theorem wit_ManagementSteps :
    State.reset.power = .boot ∧ powered State.reset = false ∧ powered bare = true ∧ partOk bare spec1 = true ∧
    (let s := hostWrite (W 0 0 0) (hostPa 0x1000) (leBytes 8 0x2000 ++ leBytes 8 (16 + 2 ^ 8 + 2 ^ 16))
     powered s = true ∧ (findPart s 0).isSome = true ∧ findQueue s 5 = none ∧ (s.hostQueues.filter fun h => h.part == 0).length < 64 ∧
       queueDescOk (hostBytes s (hostPa 0x1000) 128) = true) ∧
    ((W 0 0 0).dispatches.any fun d => d.part == 0 && d.state != .retired) = true ∧
    (let s := { bare with partitions := [slotPart] }
     (findPart s 0).isSome = true ∧ (s.dispatches.any (fun d => d.part == 0 && d.state != .retired) ||
       s.networks.any (fun n => n.state != 0 && n.part == 0)) = false) := by decide +kernel
theorem wit_ManagementSteps_outer :
    (∀ o ∈ [HostOp.load, .store], (let s := W 0 0 0
      manages ⟨o, 8, 8, 5, 0⟩ = false ∧ manages ⟨.capptr, 8, 8, 5, 0⟩ = true ∧ outerOk ⟨o, 2 ^ 51 + 8, 8, 5, 0⟩ = true ∧ paKind (2 ^ 51 + 8) = 1 ∧ (ringPart s (2 ^ 51 + 8)).isSome = true ∧
      outerOk ⟨o, 8, 8, 5, 0⟩ = true ∧ paKind 8 ≠ 1 ∧ (partOfPa s 8).isSome = true)) ∧
    (let p := { slotPart with expLen := 2 ^ 30 }
     let s := { W 0 0 0 with partitions := [p] }
     findPart s p.id = some p ∧ outerOk ⟨.load, 2 ^ 30 - 8, 8, 0, 0⟩ = true ∧ 2 ^ 30 - 8 + 8 ≤ p.expLen ∧ isDevPa p (p.expBase + (2 ^ 30 - 8)) = true) := by
  decide +kernel

/-- R399: after an uncorrectable error in its local memory the test of a core is due. -/
theorem test_selfTest_due :
    (findDie (countUncorr { State.reset with badWords := [.lmem 3 8] } 0 (lmemLocs 3 0 16)) 0).map (·.due) = some [.core 3] := by decide +kernel

/-- R397: a word written back from a bad word of local memory stays bad. -/
theorem test_carryBad : (carryBad { State.reset with badWords := [.lmem 3 8] } 3 [(0, 64), (9, 73)]).badWords = [.lmem 3 8, .mem 72] := by decide +kernel

end Sys2Proof.Tests
end

section
/-! SUPPORT. The frame's answer to a body that completes or traps, and what staged multiplies that are performed leave of the groups. -/
namespace Sys2Proof.Laws
open Sys2Proof.Machine Sys2Proof.Safety

/-! ### An instruction by its body's answer -/

/-- An instruction with an active lane runs its group-wide body (R14). -/
theorem groupWide_of_active {x : Issue} (h : x.act ≠ []) (s : State) (body : State → IRes) : groupWide x s body = body s := by
  simp [groupWide, h]

/-- An instruction whose body completes. -/
theorem issue_of_done {s t : State} {i : Instr} {x : Issue} {lat : List (Nat × Nat)} {body : Issue → State → IRes} (h : issueOf s i = some x)
    (hb : body x (entry s x) = .done t lat) : issue i s body = .next (completeIssue t x [] lat) := by
  rw [issue_done h (by simp [hb]), hb]; rfl

/-- An instruction whose body traps, of a group with no load or atomic in flight (R318, R419). -/
theorem issue_of_trap {s t : State} {i : Instr} {x : Issue} {k : TrapInfo} {body : Issue → State → IRes} (h : issueOf s i = some x)
    (hf : inFlight x.g = false) (hb : body x (entry s x) = .trap t k) : issue i s body = .next (takeTrap t x.g.id x.pc x.next k) := by
  rw [issue_eq h hf, hb]; rfl

/-! ### The groups that a state holds -/

/-- The numbers of a state's groups, in their order. -/
def groupIds (s : State) : List Nat := s.groups.map (·.id)

theorem findGroup_isSome_iff (s : State) (id : Nat) : (findGroup s id).isSome = true ↔ id ∈ groupIds s := by
  simp [findGroup, groupIds]

theorem groupIds_modGroup (s : State) (id : Nat) {f : Group → Group} (hf : ∀ g, (f g).id = g.id) : groupIds (modGroup s id f) = groupIds s := by
  simp only [groupIds, modGroup, List.map_map]
  refine List.map_congr_left fun g _ => ?_
  simp only [Function.comp_apply]
  split
  · exact hf g
  · rfl

/-- The conditions of a multiply merged into its groups' MSTAT (R220) leave the groups in their places. -/
theorem groupIds_mergeMstat (m : MFlags) (ids : List Nat) (s : State) :
    groupIds (ids.foldl (fun s g => modGroup s g fun g => { g with mstat := mergeMstat g.mstat m }) s) = groupIds s := by
  induction ids generalizing s with
  | nil => rfl
  | cons id ids ih => exact (ih _).trans (groupIds_modGroup s id fun _ => rfl)

/-- A staged multiply changes slots and MSTAT (R220), and leaves the groups in their places. -/
theorem groupIds_performStaged (s : State) (core : Nat) (st : Staged) : groupIds (performStaged s core st) = groupIds s := by
  unfold performStaged
  split
  · rfl
  · simp only [groupIds_mergeMstat]
    split <;> rfl

theorem groupIds_arrayStep (s : State) (core : Nat) : groupIds (arrayStep s core) = groupIds s := by
  unfold arrayStep
  split
  · exact groupIds_performStaged ..
  · rfl

theorem groupIds_drainArray (s : State) (core : Nat) : groupIds (drainArray s core) = groupIds s := by
  unfold drainArray
  generalize ((findCore s core).map (·.array.length)).getD 0 = n
  induction n generalizing s with
  | zero => rfl
  | succ n ih => rw [drainArrayFuel, ih, groupIds_arrayStep]

/-- A group is still found once its core's array has performed its work. -/
theorem findGroup_drainArray {s : State} {id : Nat} {g : Group} (core : Nat) (h : findGroup s id = some g) :
    ∃ g', findGroup (drainArray s core) id = some g' := by
  rw [← Option.isSome_iff_exists, findGroup_isSome_iff, groupIds_drainArray, ← findGroup_isSome_iff, h]; rfl

end Sys2Proof.Laws
end

section
/-! SUPPORT. The system registers: `sysrd` and `syswr` (R381, R382). -/
namespace Sys2Proof.Sysregs
open Sys2Proof.Machine Sys2Proof.Safety Sys2Proof.Laws

/-- The state that `sysrd` reads a register in: for MSTAT, after the array's work (R227). -/
def readState (s : State) (x : Issue) (r : Nat) : State := if r = 0x003 then drainArray s x.g.core else s

/-- The issuing group is found in the state that `sysrd` reads. -/
theorem findGroup_readState {s : State} {i : Instr} {x : Issue} (h : issueOf s i = some x) (r : Nat) :
    ∃ g, findGroup (readState (entry s x) x r) x.g.id = some g := by
  unfold readState
  split
  · exact findGroup_drainArray _ (findGroup_entry h)
  · exact ⟨_, findGroup_entry h⟩

variable {s : State} {f : FWord} {x : Issue}

/-- `syswr` of a register that answers writes it and completes (R382). -/
theorem exec_syswr (h : issueOf s (.syswr f) = some x) (ha : x.act ≠ []) (hi : indexOk (fmod f 0 10) (rdA (entry s x) x x.lead) = true)
    (hd : dieSilent (entry s x) (dieOf x.g) (fmod f 0 10) (rdA (entry s x) x x.lead) = false) :
    exec (.syswr f) s =
      .next (plain (writeReg (entry s x) x.g (fmod f 0 10) (rdA (entry s x) x x.lead) (rdB (entry s x) x x.lead)) x) :=
  issue_of_done h (by simp [groupWide_of_active ha, hi, hd])

/-- `sysrd` of a register that answers gives its value to every active lane and completes (R382). -/
theorem exec_sysrd (h : issueOf s (.sysrd f) = some x) (ha : x.act ≠ []) (hi : indexOk (fmod f 0 10) (rdA (entry s x) x x.lead) = true)
    (hd : dieSilent (entry s x) (dieOf x.g) (fmod f 0 10) (rdA (entry s x) x x.lead) = false) :
    exec (.sysrd f) s = .next (wideResult (readState (entry s x) x (fmod f 0 10)) x
      (groupReg (readState (entry s x) x (fmod f 0 10)) ((findGroup (readState (entry s x) x (fmod f 0 10)) x.g.id).getD x.g)
        (fmod f 0 10) (rdA (entry s x) x x.lead))) := by
  obtain ⟨g, hg⟩ := findGroup_readState h (fmod f 0 10)
  refine issue_of_done h ?_
  rw [hg]
  unfold readState at hg ⊢
  simp [groupWide_of_active ha, hi, hd, hg, doneWith]

/-- Either instruction of a register whose die does not answer, or is not reached, raises REMERR on the active lanes (R417). -/
theorem exec_of_dieSilent {j : Instr} (hj : j = .syswr f ∨ j = .sysrd f) (h : issueOf s j = some x) (ha : x.act ≠ [])
    (hf : inFlight x.g = false) (hi : indexOk (fmod f 0 10) (rdA (entry s x) x x.lead) = true)
    (hd : dieSilent (entry s x) (dieOf x.g) (fmod f 0 10) (rdA (entry s x) x x.lead) = true) :
    exec j s = .next (takeTrap (entry s x) x.g.id x.pc x.next { kind := kREMERR, mask := x.act }) := by
  obtain rfl | rfl := hj <;> exact issue_of_trap h hf (by simp [groupWide_of_active ha, hi, hd])

/-- FANS is write-only and reads zero (R4). -/
theorem groupReg_fans (s : State) (g : Group) (i : Nat) : groupReg s g 0x045 i = 0 := rfl

end Sys2Proof.Sysregs

open Sys2Proof.Sysregs

/-- Settles O46: the two instructions by whether the register's die answers; draining the array keeps the issuing group, so MSTAT is read of it. -/
theorem systemRegisters : Obligations.SystemRegisters := by
  intro s f x ha r i t hi
  refine ⟨fun hd => ⟨fun h => exec_syswr h ha hi hd, fun h => exec_sysrd h ha hi hd⟩,
    fun hd hf j hj h => exec_of_dieSilent hj h ha hf hi hd, fun hr => ?_⟩
  rw [hr]
  exact groupReg_fans ..
end

section
/-! SUPPORT. Words and back: bytes, operand codes, the frames' fields, the opcode map (R2, R9, R13, R17, R20, R22, R41). -/
namespace Sys2Proof.Words
open Sys2Proof.Machine

/-! ### Bytes -/

@[simp] theorem length_leBytes (n x : Nat) : (leBytes n x).length = n := by
  induction n generalizing x with
  | zero => rfl
  | succ n ih => simp [leBytes, ih]

theorem ofLeBytes_leBytes (n x : Nat) : ofLeBytes (leBytes n x) = x % 256 ^ n := by
  induction n generalizing x with
  | zero => simp [leBytes, ofLeBytes, Nat.mod_one]
  | succ n ih => rw [leBytes, ofLeBytes, ih, Nat.pow_succ', Nat.mod_mul, BitVec.toNat_ofNat]

/-- A word's bytes stand for it (R2). -/
theorem ofLeBytes_word {w : Nat} (h : w < 2 ^ 64) : ofLeBytes (leBytes 8 w) = w := by
  rw [ofLeBytes_leBytes]; exact Nat.mod_eq_of_lt h

/-! ### Operand codes (R22) -/

theorem opndOfCode_opndCode (o : Opnd) : opndOfCode (opndCode o) = some o := by
  cases o with
  | sp s => cases s <;> rfl
  | v n =>
    have := n.isLt
    change opndOfCode n.toNat = _
    simp (disch := omega) [opndOfCode, if_pos]
  | k n =>
    have := n.isLt
    change opndOfCode (0x100 + n.toNat) = _
    simp (disch := omega) [opndOfCode, if_pos]
  | b n =>
    have := n.isLt
    change opndOfCode (0x140 + n.toNat) = _
    simp (disch := omega) [opndOfCode, if_pos, if_neg]
  | imm n =>
    have := n.isLt
    change opndOfCode (0x180 + n.toNat) = _
    simp (disch := omega) [opndOfCode, if_pos, if_neg]
  | fpc n =>
    have := n.isLt
    change opndOfCode (0x1C0 + n.toNat) = _
    simp (disch := omega) [opndOfCode, if_pos, if_neg]

theorem opndCode_lt (o : Opnd) : opndCode o < 2 ^ 9 := by
  cases o with
  | sp s => cases s <;> decide
  | v n | k n | b n | imm n | fpc n => have := n.isLt; simp only [opndCode]; omega

theorem popOfCode_popCode (p : POp) : popOfCode (popCode p) = some p := by cases p <;> rfl

theorem popCode_lt (p : POp) : popCode p < 2 ^ 7 := by cases p <;> decide

/-! ### Fields of the frames -/

/-- A flag read as a bit is the field of one bit. -/
theorem testBit_of_fldN {w i : Nat} {b : Bool} (h : fldN w i 1 = b.toNat) : w.testBit i = b := by
  rw [Nat.testBit_eq_decide_div_mod_eq, ← Nat.shiftRight_eq_div_pow]
  change w >>> i % 2 = _ at h
  rw [h]; cases b <;> rfl

/-- A field below what is added is not touched. -/
theorem fldN_add_shift_low (a x : Nat) {lo j len : Nat} (h : j + len ≤ lo) : fldN (a + x <<< lo) j len = fldN a j len := by
  obtain ⟨k, rfl⟩ := Nat.exists_eq_add_of_le h
  simp only [fldN, Nat.shiftLeft_eq, Nat.shiftRight_eq_div_pow, Nat.pow_add]
  rw [show x * (2 ^ j * 2 ^ len * 2 ^ k) = 2 ^ j * (2 ^ len * (2 ^ k * x)) by ring, Nat.add_mul_div_left _ _ (Nat.two_pow_pos j),
    Nat.add_mul_mod_self_left]

/-- A field at or above the place of what is added is a field of it. -/
theorem fldN_add_shift_high {a lo : Nat} (x : Nat) (ha : a < 2 ^ lo) {j : Nat} (h : lo ≤ j) (len : Nat) :
    fldN (a + x <<< lo) j len = fldN x (j - lo) len := by
  obtain ⟨k, rfl⟩ := Nat.exists_eq_add_of_le h
  simp only [fldN, Nat.shiftLeft_eq, Nat.shiftRight_eq_div_pow, Nat.pow_add, Nat.add_sub_cancel_left]
  rw [← Nat.div_div_eq_div_mul, Nat.add_mul_div_right _ _ (Nat.two_pow_pos lo), Nat.div_eq_of_lt ha, Nat.zero_add]

theorem fldN_whole {x len : Nat} (h : x < 2 ^ len) : fldN x 0 len = x := Nat.mod_eq_of_lt h

theorem add_shift_lt {a x lo : Nat} (hi : Nat) {len : Nat} (ha : a < 2 ^ lo) (hx : x < 2 ^ len) (h : lo + len = hi := by rfl) :
    a + x <<< lo < 2 ^ hi := by
  subst h
  rw [Nat.shiftLeft_eq, Nat.pow_add]
  calc a + x * 2 ^ lo < 2 ^ lo + x * 2 ^ lo := by omega
    _ = 2 ^ lo * (x + 1) := by ring
    _ ≤ 2 ^ lo * 2 ^ len := Nat.mul_le_mul_left _ hx

theorem fldN_add_shift_top {a x lo len : Nat} (ha : a < 2 ^ lo) (hx : x < 2 ^ len) : fldN (a + x <<< lo) lo len = x := by
  rw [fldN_add_shift_high x ha le_rfl, Nat.sub_self, fldN_whole hx]

/-- The low two bits say the frame (R9), whatever stands above them. -/
theorem add_shift_mod_four (a x : Nat) {lo : Nat} (h : 2 ≤ lo) : (a + x <<< lo) % 4 = a % 4 := by
  simpa [fldN] using fldN_add_shift_low (j := 0) (len := 2) a x h

/-- The fields of a word packed as an F word is (R13). -/
theorem fields_packF {o d n a b c p m h : Nat} (ho : o < 2 ^ 10) (hd : d < 2 ^ 9) (hn : n < 2 ^ 1) (ha : a < 2 ^ 9) (hb : b < 2 ^ 9) (hc : c < 2 ^ 9)
    (hp : p < 2 ^ 4) (hm : m < 2 ^ 10) (hh : h < 2 ^ 1) :
    let w := o <<< 2 + d <<< 12 + n <<< 21 + a <<< 22 + b <<< 31 + c <<< 40 + p <<< 49 + m <<< 53 + h <<< 63
    w < 2 ^ 64 ∧ w % 4 = 0 ∧ fldN w 2 10 = o ∧ fldN w 12 9 = d ∧ fldN w 21 1 = n ∧ fldN w 22 9 = a ∧ fldN w 31 9 = b ∧ fldN w 40 9 = c ∧
      fldN w 49 4 = p ∧ fldN w 53 10 = m ∧ fldN w 63 1 = h := by
  intro w
  have b0 : o <<< 2 < 2 ^ 12 := by rw [Nat.shiftLeft_eq]; omega
  have b1 := add_shift_lt 21 b0 hd
  have b2 := add_shift_lt 22 b1 hn
  have b3 := add_shift_lt 31 b2 ha
  have b4 := add_shift_lt 40 b3 hb
  have b5 := add_shift_lt 49 b4 hc
  have b6 := add_shift_lt 53 b5 hp
  have b7 := add_shift_lt 63 b6 hm
  have b8 := add_shift_lt 64 b7 hh
  have e0 : fldN (o <<< 2) 2 10 = o := by rw [fldN, Nat.shiftLeft_shiftRight, Nat.mod_eq_of_lt ho]
  have e1 : o <<< 2 % 4 = 0 := by rw [Nat.shiftLeft_eq]; omega
  refine ⟨b8, ?_⟩
  simp (disch := decide) only [w, add_shift_mod_four, fldN_add_shift_low, e0, e1, fldN_add_shift_top b0 hd, fldN_add_shift_top b1 hn,
    fldN_add_shift_top b2 ha, fldN_add_shift_top b3 hb, fldN_add_shift_top b4 hc, fldN_add_shift_top b5 hp, fldN_add_shift_top b6 hm,
    fldN_add_shift_top b7 hh, and_self]

/-- The fields of a word packed as a head word of an X instruction is (R20). -/
theorem fields_packX {o d a b c p m : Nat} (ho : o < 2 ^ 10) (hd : d < 2 ^ 9) (ha : a < 2 ^ 9) (hb : b < 2 ^ 9) (hc : c < 2 ^ 9) (hp : p < 2 ^ 4)
    (hm : m < 2 ^ 12) :
    let w := 2 + o <<< 2 + d <<< 12 + a <<< 21 + b <<< 30 + c <<< 39 + p <<< 48 + m <<< 52
    w < 2 ^ 64 ∧ w % 4 = 2 ∧ fldN w 2 10 = o ∧ fldN w 12 9 = d ∧ fldN w 21 9 = a ∧ fldN w 30 9 = b ∧ fldN w 39 9 = c ∧ fldN w 48 4 = p ∧
      fldN w 52 12 = m := by
  intro w
  have bx : 2 < 2 ^ 2 := by decide
  have b0 := add_shift_lt 12 bx ho
  have b1 := add_shift_lt 21 b0 hd
  have b2 := add_shift_lt 30 b1 ha
  have b3 := add_shift_lt 39 b2 hb
  have b4 := add_shift_lt 48 b3 hc
  have b5 := add_shift_lt 52 b4 hp
  have b6 := add_shift_lt 64 b5 hm
  refine ⟨b6, ?_⟩
  simp (disch := decide) only [w, add_shift_mod_four, fldN_add_shift_low, fldN_add_shift_top bx ho, fldN_add_shift_top b0 hd,
    fldN_add_shift_top b1 ha, fldN_add_shift_top b2 hb, fldN_add_shift_top b3 hc, fldN_add_shift_top b4 hp, fldN_add_shift_top b5 hm, Nat.reduceMod,
    and_self]

/-- The fields of a half of a P word, packed (R17). -/
theorem fields_packHalf {o d a b : Nat} (ho : o < 2 ^ 7) (hd : d < 2 ^ 8) (ha : a < 2 ^ 8) (hb : b < 2 ^ 8) :
    let x := o + d <<< 7 + a <<< 15 + b <<< 23
    x < 2 ^ 31 ∧ fldN x 0 7 = o ∧ fldN x 7 8 = d ∧ fldN x 15 8 = a ∧ fldN x 23 8 = b := by
  intro x
  have b1 := add_shift_lt 15 ho hd
  have b2 := add_shift_lt 23 b1 ha
  have b3 := add_shift_lt 31 b2 hb
  refine ⟨b3, ?_⟩
  simp (disch := decide) only [x, fldN_add_shift_low, fldN_whole ho, fldN_add_shift_top ho hd, fldN_add_shift_top b1 ha, fldN_add_shift_top b2 hb,
    and_self]

/-- The fields of an F word (R13). -/
theorem fields_encodeF {opc : Nat} (f : FWord) (ho : opc < 2 ^ 10) :
    encodeF opc f < 2 ^ 64 ∧ encodeF opc f % 4 = 0 ∧ fldN (encodeF opc f) 2 10 = opc ∧ fldN (encodeF opc f) 12 9 = opndCode f.dst ∧
    fldN (encodeF opc f) 21 1 = f.nwb.toNat ∧ fldN (encodeF opc f) 22 9 = opndCode f.sa ∧ fldN (encodeF opc f) 31 9 = opndCode f.sb ∧
    fldN (encodeF opc f) 40 9 = opndCode f.sc ∧ fldN (encodeF opc f) 49 4 = f.pred.toNat ∧ fldN (encodeF opc f) 53 10 = f.mod.toNat ∧
    fldN (encodeF opc f) 63 1 = f.hold.toNat := by
  have hn : f.nwb.toNat < 2 ^ 1 := f.nwb.toNat_lt
  have hh : f.hold.toNat < 2 ^ 1 := f.hold.toNat_lt
  have := fields_packF ho (opndCode_lt f.dst) hn (opndCode_lt f.sa) (opndCode_lt f.sb) (opndCode_lt f.sc) f.pred.isLt f.mod.isLt hh
  unfold encodeF
  exact this

/-- The fields of the head word of an X instruction (R20). -/
theorem fields_encodeXHead {opc : Nat} (x : XWord) (ho : opc < 2 ^ 10) :
    encodeXHead opc x < 2 ^ 64 ∧ encodeXHead opc x % 4 = 2 ∧ fldN (encodeXHead opc x) 2 10 = opc ∧ fldN (encodeXHead opc x) 12 9 = opndCode x.dst ∧
    fldN (encodeXHead opc x) 21 9 = opndCode x.sa ∧ fldN (encodeXHead opc x) 30 9 = opndCode x.sb ∧
    fldN (encodeXHead opc x) 39 9 = opndCode x.sc ∧ fldN (encodeXHead opc x) 48 4 = x.pred.toNat ∧
    fldN (encodeXHead opc x) 52 12 = x.moda.toNat := by
  have := fields_packX ho (opndCode_lt x.dst) (opndCode_lt x.sa) (opndCode_lt x.sb) (opndCode_lt x.sc) x.pred.isLt x.moda.isLt
  unfold encodeXHead
  exact this

/-- The fields of the tail word of an X instruction (R20). -/
theorem fields_encodeXTail (x : XWord) :
    encodeXTail x < 2 ^ 64 ∧ fldN (encodeXTail x) 0 2 = 3 ∧ fldN (encodeXTail x) 2 62 = x.modb.toNat := by
  have h3 : 3 < 2 ^ 2 := by decide
  have hm := x.modb.isLt
  unfold encodeXTail
  exact ⟨add_shift_lt 64 h3 hm, by rw [fldN_add_shift_low _ _ (by decide), fldN_whole h3], fldN_add_shift_top h3 hm⟩

/-- The fields of a P word (R17). -/
theorem fields_encodeP (p : PWord) :
    encodeP p < 2 ^ 64 ∧ encodeP p % 4 = 1 ∧
    (fldN (encodeP p) 2 7 = popCode p.h0.op ∧ fldN (encodeP p) 9 8 = p.h0.dst.toNat ∧ fldN (encodeP p) 17 8 = p.h0.sa.toNat ∧
      fldN (encodeP p) 25 8 = p.h0.sb.toNat) ∧
    fldN (encodeP p) 33 7 = popCode p.h1.op ∧ fldN (encodeP p) 40 8 = p.h1.dst.toNat ∧ fldN (encodeP p) 48 8 = p.h1.sa.toNat ∧
      fldN (encodeP p) 56 8 = p.h1.sb.toNat := by
  obtain ⟨hx, o0, d0, a0, b0⟩ := fields_packHalf (popCode_lt p.h0.op) p.h0.dst.isLt p.h0.sa.isLt p.h0.sb.isLt
  obtain ⟨hy, o1, d1, a1, b1⟩ := fields_packHalf (popCode_lt p.h1.op) p.h1.dst.isLt p.h1.sa.isLt p.h1.sb.isLt
  have h1 : 1 < 2 ^ 2 := by decide
  have h33 := add_shift_lt 33 h1 hx
  unfold encodeP
  refine ⟨add_shift_lt 64 h33 hy, ?_⟩
  simp (disch := decide) only [add_shift_mod_four, fldN_add_shift_low, fldN_add_shift_high _ h33, fldN_add_shift_high _ h1, Nat.reduceSub, Nat.reduceMod,
    o0, d0, a0, b0, o1, d1, a1, b1, and_self]

/-! ### Frames decoded -/

/-- An F word of the opcode map decodes to its instruction (R13). -/
theorem decodeF_encodeF {opc : Nat} {f : FWord} {i : Instr} (ho : opc < 2 ^ 10) (hl : isFOpcode opc = true) (hi : fOfOpcode opc f = some i) :
    decodeF (encodeF opc f) = .ok i := by
  obtain ⟨-, -, h0, hd, hn, ha, hb, hc, hp, hm, hh⟩ := fields_encodeF f ho
  simp only [decodeF, operandCodes, h0, hd, ha, hb, hc, hp, hm, testBit_of_fldN hn, testBit_of_fldN hh, opndOfCode_opndCode, hl, BitVec.ofNat_toNat,
    BitVec.setWidth_eq, hi, Bool.not_true, Bool.false_and, Bool.false_eq_true, if_false]

/-- Head and tail of an X instruction of the opcode map decode to it (R20). -/
theorem decodeX_encodeX {opc : Nat} {x : XWord} {i : Instr} (ho : opc < 2 ^ 10) (hl : isXOpcode opc = true) (hi : xOfOpcode opc x = some i) :
    decodeX (encodeXHead opc x) (encodeXTail x) = .ok i := by
  obtain ⟨-, -, h0, hd, ha, hb, hc, hp, hm⟩ := fields_encodeXHead x ho
  obtain ⟨-, ht, hmb⟩ := fields_encodeXTail x
  simp only [decodeX, operandCodes, h0, hd, ha, hb, hc, hp, hm, ht, hmb, opndOfCode_opndCode, hl, BitVec.ofNat_toNat, BitVec.setWidth_eq, hi,
    Bool.not_true, Bool.and_false, Bool.false_eq_true, if_false, bne_self_eq_false]

/-- A P word decodes to its halves (R17). -/
theorem decodeP_encodeP (p : PWord) : decodeP (encodeP p) = .ok p := by
  obtain ⟨-, -, ⟨o0, d0, a0, b0⟩, o1, d1, a1, b1⟩ := fields_encodeP p
  unfold decodeP
  simp only [Nat.reduceAdd, o0, d0, a0, b0, o1, d1, a1, b1, popOfCode_popCode, BitVec.ofNat_toNat, BitVec.setWidth_eq]

/-! ### The opcode map (R41) -/

/-- No cause of an instruction's own fields holds of a well-formed one. -/
theorem causes_of_wellFormed_f {i : Instr} {opc : Nat} {f : FWord} (h : frameOf i = .f opc f) (hw : WellFormed i = true) : (sigOf i).causes = [] := by
  simp only [WellFormed, staticCauses, h, List.isEmpty_iff, Sig.causesF, List.append_eq_nil_iff] at hw
  exact hw.2

theorem causes_of_wellFormed_x {i : Instr} {opc : Nat} {x : XWord} (h : frameOf i = .x opc x) (hw : WellFormed i = true) : (sigOf i).causes = [] := by
  simp only [WellFormed, staticCauses, h, List.isEmpty_iff, Sig.causesX, List.append_eq_nil_iff] at hw
  exact hw.2

theorem causeIf_eq_nil {b : Bool} {c : Nat} : causeIf b c = [] ↔ b = false := by cases b <;> simp [causeIf]

/-- The opcode map of F words takes the opcode and fields of a well-formed instruction back to it: where a field picks among constructors, its
shape has cause 0x0D for every code but its own. -/
theorem fOfOpcode_of_frameOf {i : Instr} {opc : Nat} {f : FWord} (h : frameOf i = .f opc f) (hw : WellFormed i = true) :
    fOfOpcode opc f = some i := by
  have hc := causes_of_wellFormed_f h hw
  cases i <;> cases h
  case presQ | presF | presClr =>
    simp only [sigOf, sigPres, List.append_eq_nil_iff, causeIf_eq_nil, bne_eq_false_iff_eq] at hc
    simp only [fOfOpcode, hc.2]
  all_goals rfl

theorem isFOpcode_of_frameOf {i : Instr} {opc : Nat} {f : FWord} (h : frameOf i = .f opc f) : opc < 2 ^ 10 ∧ isFOpcode opc = true := by
  cases i <;> cases h <;> decide

/-- The same of the opcode map of X instructions. -/
theorem xOfOpcode_of_frameOf {i : Instr} {opc : Nat} {x : XWord} (h : frameOf i = .x opc x) (hw : WellFormed i = true) :
    xOfOpcode opc x = some i := by
  have hc := causes_of_wellFormed_x h hw
  cases i <;> cases h
  case rcCfgAttach | rcCfgDetach | rcCfgStat | coalFlushNow | coalFlushDone | coalFlushProd | tapePatchSlot | tapePatchGuard | dieRstFrost | dieRstReset |
      dieRstThaw | ctxsavePre | ctxsaveDump | ctxrestLoad | ctxrestResume | ctxrestEnd | smpcfgConf | smpcfgRing | smpcfgAck | smpcfgReset | smpcfgStat =>
    simp only [sigOf, sigRcCfg, sigCoal, sigPatchSlot, sigPatchGuard, sigDieRst, sigCtx, sigSmpcfg, List.append_eq_nil_iff, causeIf_eq_nil, bne_eq_false_iff_eq,
      Bool.or_eq_false_iff] at hc
    simp only [xOfOpcode, hc.2]
  all_goals rfl

theorem isXOpcode_of_frameOf {i : Instr} {opc : Nat} {x : XWord} (h : frameOf i = .x opc x) : opc < 2 ^ 10 ∧ isXOpcode opc = true := by
  cases i <;> cases h <;> decide

/-! ### Bytes decoded -/

theorem staticCauses_of_wellFormed {i : Instr} (h : WellFormed i = true) : staticCauses i = [] := List.isEmpty_iff.mp h

/-- A word that is no head decodes to what stands in it, and the bytes after it are left (R9). -/
theorem decode_word {i : Instr} {w : Nat} (hw : w < 2 ^ 64) (h4 : w % 4 ≠ 2) (hd : ∀ t, decodeWords w t = .ok i) (hs : WellFormed i = true)
    (hl : instrLen i = 8) (rest : List Byte) : decode (leBytes 8 w ++ rest) = .ok (i, rest) := by
  have ht : (leBytes 8 w ++ rest).take 8 = leBytes 8 w := List.take_left' (length_leBytes 8 w)
  have hr : (leBytes 8 w ++ rest).drop 8 = rest := List.drop_left' (length_leBytes 8 w)
  simp [decode, ht, hr, ofLeBytes_word hw, h4, hd, staticCauses_of_wellFormed hs, minCause, hl]

/-- A head word and its tail decode to what stands in them (R9, R20). -/
theorem decode_pair {i : Instr} {w t : Nat} (hw : w < 2 ^ 64) (ht : t < 2 ^ 64) (hd : decodeWords w t = .ok i) (hs : WellFormed i = true)
    (hl : instrLen i = 16) (rest : List Byte) : decode (leBytes 8 w ++ leBytes 8 t ++ rest) = .ok (i, rest) := by
  have he : (leBytes 8 w ++ (leBytes 8 t ++ rest)).drop 16 = rest := by simp [List.drop_append]
  simp [decode, he, ofLeBytes_word hw, ofLeBytes_word ht, hd, staticCauses_of_wellFormed hs, minCause, hl]

/-- By the frame of the instruction: the fields of its words are the instruction's, so the decoder finds its operands, and the opcode map takes
opcode and fields back to it. -/
theorem decode_encode {i : Instr} (hs : WellFormed i = true) (he : isEvent i = false) (rest : List Byte) :
    decode (encode i ++ rest) = .ok (i, rest) := by
  cases hf : frameOf i with
  | f opc f =>
    obtain ⟨ho, hl⟩ := isFOpcode_of_frameOf hf
    obtain ⟨hw, h4, -⟩ := fields_encodeF f ho
    have hd (t : Nat) : decodeWords (encodeF opc f) t = .ok i := by
      simp only [decodeWords, h4, decodeF_encodeF ho hl (fOfOpcode_of_frameOf hf hs)]
    simpa only [encode, hf] using decode_word hw (by omega) hd hs (by simp [instrLen, hf]) rest
  | x opc x =>
    obtain ⟨ho, hl⟩ := isXOpcode_of_frameOf hf
    obtain ⟨hw, h4, -⟩ := fields_encodeXHead x ho
    have hd : decodeWords (encodeXHead opc x) (encodeXTail x) = .ok i := by
      simp only [decodeWords, h4, decodeX_encodeX ho hl (xOfOpcode_of_frameOf hf hs)]
    simpa only [encode, hf] using decode_pair hw (fields_encodeXTail x).1 hd hs (by simp [instrLen, hf]) rest
  | p p =>
    obtain ⟨hw, h4, -⟩ := fields_encodeP p
    obtain rfl : i = .pWord p := by cases i <;> cases hf; rfl
    have hd (t : Nat) : decodeWords (encodeP p) t = .ok (.pWord p) := by simp only [decodeWords, h4, decodeP_encodeP]; rfl
    exact decode_word hw (by omega) hd hs rfl rest
  | event => simp [isEvent, hf] at he

/-- Bytes that are an instruction's own decode to it. -/
theorem decode_of_encode {i : Instr} {bytes : List Byte} (h : encode i = bytes) (hs : WellFormed i = true) (he : isEvent i = false) :
    decode bytes = .ok (i, []) := by
  have := decode_encode hs he []
  rwa [List.append_nil, h] at this

end Sys2Proof.Words

open Sys2Proof.Words

/-- Settles O2: decoding gives back every frame's fields, and with them the instruction. -/
theorem decodeEncode : Obligations.DecodeEncode := fun _ rest hs he => decode_encode hs he rest

/-- Settles O1: each word is the encoding of its instruction, which is well formed. -/
theorem specWords : Obligations.SpecWords := by
  refine ⟨?_, ?_, ?_, ?_, ?_, ?_, ?_, ?_, ?_, ?_, ?_, ?_, ?_⟩
  all_goals exact decode_of_encode (by decide) (by decide) (by decide)
end

section
/-! SUPPORT. The length of what words decode to, and the step that runs it (R9, R43). -/
namespace Sys2Proof.Words
open Sys2Proof.Machine

/-! ### The length of what a word decodes to (R9) -/

/-- The opcode map gives F words the instructions that stand in F words. -/
theorem frameOf_of_fOfOpcode {opc : Nat} {f : FWord} {i : Instr} (h : fOfOpcode opc f = some i) : frameOf i = .f opc f := by
  unfold fOfOpcode at h
  split at h <;> (try split at h) <;> cases h <;> rfl

/-- The opcode map gives X instructions their frame. -/
theorem frameOf_of_xOfOpcode {opc : Nat} {x : XWord} {i : Instr} (h : xOfOpcode opc x = some i) : frameOf i = .x opc x := by
  unfold xOfOpcode at h
  split at h <;> (try split at h) <;> cases h <;> rfl

theorem instrLen_of_decodeF {w : Nat} {i : Instr} (h : decodeF w = .ok i) : instrLen i = 8 := by
  unfold decodeF at h
  dsimp only at h
  split at h
  · cases h
  · split at h
    · cases h
    · split at h
      · rename_i hi; cases h; simp [instrLen, frameOf_of_fOfOpcode hi]
      · cases h

theorem instrLen_of_decodeX {w t : Nat} {i : Instr} (h : decodeX w t = .ok i) : instrLen i = 16 := by
  unfold decodeX at h
  dsimp only at h
  split at h
  · cases h
  · split at h
    · cases h
    · split at h
      · cases h
      · split at h
        · rename_i hi; cases h; simp [instrLen, frameOf_of_xOfOpcode hi]
        · cases h

/-- Words with the low bits of a head decode to 16 bytes, others to 8 (R9). -/
theorem instrLen_of_decodeWords {w t : Nat} {i : Instr} (h : decodeWords w t = .ok i) : instrLen i = if w % 4 = 2 then 16 else 8 := by
  unfold decodeWords at h
  split at h
  · rename_i h0; simp [h0, instrLen_of_decodeF h]
  · rename_i h1
    cases hp : decodeP w with
    | error c => simp [hp, Except.map] at h
    | ok p => simp only [hp, Except.map, Except.ok.injEq] at h; subst h; simp [h1, instrLen, frameOf]
  · rename_i h2; simp [h2, instrLen_of_decodeX h]
  · cases h

/-- Where the bytes of two words decode to an instruction, the words do. -/
theorem decodeWords_of_decode {w t : Nat} {i : Instr} {rest : List Byte} (hw : w < 2 ^ 64) (ht : t < 2 ^ 64)
    (h : decode (leBytes 8 w ++ leBytes 8 t) = .ok (i, rest)) : decodeWords w t = .ok i := by
  simp only [decode, List.length_append, length_leBytes, Nat.reduceAdd, Nat.reduceLT, if_false, List.take_left', List.drop_left', ofLeBytes_word hw,
    Nat.lt_irrefl, decide_false, Bool.and_false, Bool.false_eq_true, List.take_of_length_le (Nat.le_of_eq (length_leBytes 8 t)), ofLeBytes_word ht] at h
  split at h
  · cases h
  · rename_i j hj
    split at h
    · cases h
    · cases h; exact hj

end Sys2Proof.Words

open Sys2Proof.Machine Sys2Proof.Words

/-- Settles O3: the bytes' decoding is the words', whose frame says how long the instruction is. -/
theorem stepRunsDecoded : Obligations.StepRunsDecoded := by
  intro s t u g d pc w w' i rest hc hr ha hd hf hw hw' hb hx
  have hi := decodeWords_of_decode hw hw' hb
  have hl : instrLen i / 8 = if w % 4 = 2 then 2 else 1 := by rw [instrLen_of_decodeWords hi]; split <;> rfl
  have hfetch : fetchCur s = .instr t i := by simp [fetchCur, hc, hr, ha, hd, hf, hi]
  cases hcur : s.cur with
  | none => simp [hcur] at hc
  | some c => simp only [step, hcur, hfetch, hx, hl, trimmed]
end

section
/-! SUPPORT. The traps that meet an instruction before its own effect: ILLOP and REGRANGE (R42 to R44, R126). -/
namespace Sys2Proof.IssueTraps
open Sys2Proof.Machine Sys2Proof.Safety Sys2Proof.Laws

/-! ### The lowest cause -/

theorem minCause_eq_min? (l : List Nat) : minCause l = l.min? := by
  cases l with
  | nil => rfl
  | cons a l =>
    change l.foldl _ (some a) = some (l.foldl min a)
    induction l generalizing a with
    | nil => rfl
    | cons b l ih => rw [List.foldl_cons, List.foldl_cons, min_comm a b]; exact ih (min b a)

/-- The cause reported is the lowest that holds (R43). -/
theorem minCause_eq_some {l : List Nat} {c : Nat} (hc : c ∈ l) (hm : ∀ d ∈ l, c ≤ d) : minCause l = some c := by
  rw [minCause_eq_min?, List.min?_eq_some_iff]; exact ⟨hc, hm⟩

/-! ### The frame around every instruction -/

/-- Every instruction that a group issues runs in one of the two frames: a convergent one in that of R201 and R337. -/
theorem exec_frame {i : Instr} (he : isEvent i = false) (s : State) :
    ∃ body, exec i s = if convergent i then issueConv i s body else issue i s body := by
  cases i <;> cases he
  case mma y =>
    refine ⟨mulOp y 0x240, ?_⟩
    change execMma y s = _
    by_cases h : matASRC y = 1 ∧ matMXS y = 0 <;> simp [execMma, convergent, h]
  all_goals exact ⟨_, rfl⟩

section
variable {s : State} {i : Instr} {g : Group} {x : Issue} {t : TrapInfo} {body : Issue → State → IRes}

/-- A group with nothing in flight waits for nothing. -/
theorem prepare_of_inFlight (hf : inFlight g = false) : prepare s g i = s := by
  simp only [inFlight, Bool.or_eq_false_iff, bne_eq_false_iff_eq] at hf
  simp [prepare, waitSeq, hf.1]

/-- With no late error due, the trap of an issue is taken as it is. -/
theorem takeIssueTrap_of_lateTrap (hl : lateTrap s x.g = none) (u : State) : takeIssueTrap u x t = takeTrap u x.g.id x.pc x.next t := by
  have h : earliestLate x.g = none := by simpa [lateTrap] using hl
  simp [takeIssueTrap, h]

theorem issue_of_issueTrap (hc : s.cur.bind (findGroup s) = some g) (hf : inFlight g = false) (hx : mkIssue g i = some x)
    (ht : issueTrap s x = some t) : issue i s body = .next (takeIssueTrap s x t) := by
  have hg := found_of_cur hc
  simp [issue, hc, prepare_of_inFlight hf, settleTrap, attempt, hg, hx, ht, hf]

theorem issueConv_of_issueTrap (hc : s.cur.bind (findGroup s) = some g) (hf : inFlight g = false) (hx : mkIssue g i = some x)
    (hv : converged x = true) (ht : issueTrap s (joinConverged x) = some t) :
    issueConv i s body = .next (takeIssueTrap (setGroup s (joinConverged x).g) (joinConverged x) t) := by
  have hg := found_of_cur hc
  simp [issueConv, hc, prepare_of_inFlight hf, settleTrap, attemptConv, hg, hx, hv, ht, hf]

/-- A convergent instruction that is illegal traps before every lane has arrived, too (R42). -/
theorem issueConv_of_illopCause {c : Nat} (hc : s.cur.bind (findGroup s) = some g) (hf : inFlight g = false) (hx : mkIssue g i = some x)
    (hv : converged x = false) (hi : illopCause s x = some c) (ht : issueTrap s x = some t) :
    issueConv i s body = .next (takeIssueTrap (setGroup s x.g) x t) := by
  have hg := found_of_cur hc
  simp [issueConv, hc, prepare_of_inFlight hf, settleTrap, attemptConv, hg, hx, hv, hi, ht, hf]

/-! ### Which trap it is -/

theorem issueTrap_of_illopCause {c : Nat} (hl : lateTrap s x.g = none) (hc : illopCause s x = some c) :
    issueTrap s x = some { kind := 1, cause := c, mask := lanesAt x.g x.pc } := by simp [issueTrap, hl, hc, kILLOP]

theorem issueTrap_of_regRange (hl : lateTrap s x.g = none) (hc : illopCause s x = none) (hr : regRange s x = true) :
    issueTrap s x = some { kind := 2, mask := lanesAt x.g x.pc } := by simp [issueTrap, hl, hc, hr, kREGRANGE]

/-- What an issue says: its instruction, and for a convergent one that every lane has arrived. -/
theorem issueAt_some (h : issueAt g i = some x) :
    x.i = i ∧ (convergent i = false ∧ mkIssue g i = some x ∨
      convergent i = true ∧ ∃ y, mkIssue g i = some y ∧ converged y = true ∧ x = joinConverged y) := by
  unfold issueAt at h
  split at h
  · rename_i y hy
    have hi := (mkIssue_g hy).2
    split at h
    · rename_i hc
      split at h
      · rename_i hv; cases h; exact ⟨hi, .inr ⟨hc, y, hy, hv, rfl⟩⟩
      · cases h
    · rename_i hc; cases h; exact ⟨hi, .inl ⟨by simpa using hc, hy⟩⟩
  · cases h

/-- A trap of an issue is what the instruction's meaning answers, in either frame. -/
theorem exec_of_issueTrap (he : isEvent i = false) (hc : s.cur.bind (findGroup s) = some g) (hf : inFlight g = false) (hl : lateTrap s x.g = none)
    (hx : issueAt g i = some x) (ht : issueTrap s x = some t) : exec i s = .next (takeTrap (tried s x) x.g.id x.pc x.next t) := by
  obtain ⟨body, hb⟩ := exec_frame he s
  obtain ⟨hi, ⟨hv, hm⟩ | ⟨hv, y, hy, hcv, rfl⟩⟩ := issueAt_some hx
  · rw [hb, hv, if_neg Bool.false_ne_true, issue_of_issueTrap hc hf hm ht, takeIssueTrap_of_lateTrap hl, tried, hi, hv, if_neg Bool.false_ne_true]
  · rw [hb, hv, if_pos rfl, issueConv_of_issueTrap hc hf hy hcv ht, takeIssueTrap_of_lateTrap hl, tried, hi, hv, if_pos rfl]

end

/-! ### Privilege (R40, R381) -/

theorem mem_causeIf {b : Bool} {a c : Nat} : a ∈ causeIf b c ↔ b = true ∧ a = c := by cases b <;> simp [causeIf]

/-- The dispatch and the group give no cause below 0x0C (R43). -/
theorem le_of_mem_stateCauses {s : State} {x : Issue} {c : Nat} (h : c ∈ stateCauses s x) : 0x0C ≤ c := by
  simp only [stateCauses, List.mem_append, mem_causeIf] at h
  omega

/-- Without the system flag a privileged instruction has cause 0x0C (R40). -/
theorem mem_stateCauses_of_priv {s : State} {x : Issue} (hp : isPriv x.i = true) (hd : ∀ d, dispOf s x.g = some d → dispSys d = false) :
    0x0C ∈ stateCauses s x := by
  have hs : ((dispOf s x.g).map dispSys).getD false = false := by
    cases h : dispOf s x.g with
    | none => rfl
    | some d => exact hd d h
  simp [stateCauses, mem_causeIf, hp, hs]

/-- The registers that R381 marks privileged, by their numbers. -/
theorem sregInfo_priv :
    ∀ n ∈ [0x040, 0x041, 0x042, 0x043, 0x044, 0x045, 0x048, 0x050, 0x051, 0x052, 0x053, 0x054, 0x055, 0x058], (sregInfo n).any (·.priv) = true := by
  decide

/-- MOD names a system register with all its bits (R380). -/
theorem fmod_all (f : FWord) : fmod f 0 10 = f.mod.toNat := Words.fldN_whole f.mod.isLt

/-- An access to a privileged register is privileged. -/
theorem isPriv_of_sreg {f : FWord} {i : Instr} (hi : i = .sysrd f ∨ i = .syswr f) (h : (sregInfo (fmod f 0 10)).any (·.priv) = true) :
    isPriv i = true := by
  rw [fmod_all] at h
  cases hr : sregInfo f.mod.toNat with
  | none => simp [hr] at h
  | some r =>
    rw [hr] at h
    obtain rfl | rfl := hi <;> simpa [isPriv, hr] using h

end Sys2Proof.IssueTraps

open Sys2Proof.Machine Sys2Proof.Safety Sys2Proof.Laws Sys2Proof.IssueTraps

/-- Settles O9: the lowest cause makes the trap of the issue an ILLOP, no cause and a register out of range a REGRANGE, and either frame takes it. -/
theorem illegalInstructions : Obligations.IllegalInstructions := by
  intro s i g x he hc hf hl causes trap
  have illop (hi : x.i = i) {c : Nat} (hm : c ∈ causes) (hmin : ∀ d ∈ causes, c ≤ d) : illopCause s x = some c := by
    rw [illopCause, hi]; exact minCause_eq_some hm hmin
  refine ⟨fun hx => ⟨fun c hm hmin => ?_, fun h0 hr => ?_⟩, fun hv hx hcv c hm hmin => ?_⟩
  · exact exec_of_issueTrap he hc hf hl hx (issueTrap_of_illopCause hl (illop (issueAt_some hx).1 hm hmin))
  · have hn : illopCause s x = none := by rw [illopCause, (issueAt_some hx).1]; exact congrArg minCause h0
    exact exec_of_issueTrap he hc hf hl hx (issueTrap_of_regRange hl hn hr)
  · obtain ⟨body, hb⟩ := exec_frame he s
    have hi := illop (mkIssue_g hx).2 hm hmin
    rw [hb, hv, if_pos rfl, issueConv_of_illopCause hc hf hx hcv hi (issueTrap_of_illopCause hl hi), takeIssueTrap_of_lateTrap hl]
    rfl

/-- Settles O10: each instruction named is privileged and not convergent, and 0x0C is the lowest cause that the dispatch gives. -/
theorem privilege : Obligations.Privilege := by
  intro s i g x hp hc hf hx hl hd hlow
  obtain ⟨he, hv, hpriv⟩ : isEvent i = false ∧ convergent i = false ∧ isPriv i = true := by
    split at hp
    case h_21 f => exact ⟨rfl, rfl, isPriv_of_sreg (.inl rfl) (sregInfo_priv _ hp)⟩
    case h_22 f => exact ⟨rfl, rfl, isPriv_of_sreg (.inr rfl) (sregInfo_priv _ hp)⟩
    case h_23 => exact hp.elim
    all_goals exact ⟨rfl, rfl, rfl⟩
  obtain ⟨hg, hi⟩ := mkIssue_g hx
  have hcause : illopCause s x = some 0x0C := by
    refine minCause_eq_some (List.mem_append_right _ (mem_stateCauses_of_priv (hi ▸ hpriv) hd)) fun c hm => ?_
    rw [hi] at hm
    exact (List.mem_append.mp hm).elim (fun h => (hlow c h).le) le_of_mem_stateCauses
  have hx' : issueAt g i = some x := by simp [issueAt, hx, hv]
  have hid : x.g.id = g.id := by rw [hg, clearDeferral_eq]
  rw [exec_of_issueTrap he hc hf hl hx' (issueTrap_of_illopCause hl hcause), tried, hi, hv, hid]
  rfl
end

section
/-! SUPPORT. Floating-point instructions, `fcmp` and P words: their results where no enabled flag is raised, FPX where one is (R159, R161). -/
namespace Sys2Proof.FloatOps
open Sys2Proof.Machine Sys2Proof.Safety Sys2Proof.Laws

/-- The record of FPX: the lanes that raised an enabled flag, and their enabled flags together (R161). -/
def fpxInfo (x : Issue) (fl : List (Nat × FFlags)) (half : Bool) : TrapInfo :=
  { kind := 9, cause := (allFlags (fl.filter fun p => (fpxLanes x.g fl).contains p.1) &&& enabledFlags x.g).toNat, mask := fpxLanes x.g fl, half := half }

/-- The state with flags ORed into the group's FPSTAT (R159). -/
def noted (s : State) (x : Issue) (fl : FFlags) : State := modGroup s x.g.id fun g => orFpstat g fl

section
variable {s : State} {x : Issue} {vals : List (Nat × Nat)} {pd : Nat} {ps : List (Nat × Bool)} {fl : List (Nat × FFlags)}

theorem fpDone_of_none (h : fpxLanes x.g fl = []) : fpDone s x vals pd ps fl = laneDone (noted s x (allFlags fl)) x vals pd ps := by
  simp only [fpDone, h, noted]

theorem fpDone_of_some (h : fpxLanes x.g fl ≠ []) : fpDone s x vals pd ps fl = .trap (noted s x (allFlags fl)) (fpxInfo x fl false) := by
  unfold fpDone
  dsimp only
  split
  · contradiction
  · rfl

end

/-- Each floating-point instruction ends with its lanes' results and flags in the same way. -/
theorem fpLanes_body {i : Instr} {x : Issue} {s : State} {r : List (Nat × FRes)} (h : fpLanes i x s = some r) :
    ∃ body, (∀ t, exec i t = issue i t body) ∧ body x s = fpEnd x s r := by
  unfold fpLanes at h
  split at h
  case h_3 y =>
    obtain ⟨⟨d, st⟩, ht, rfl⟩ := Option.map_eq_some_iff.mp h
    refine ⟨_, fun _ => rfl, ?_⟩
    simp only [ht]
  case h_6 =>
    split at h
    · rename_i f op hr
      cases h
      unfold fpRule at hr
      split at hr <;> cases hr <;> exact ⟨_, fun _ => rfl, rfl⟩
    · rename_i f n _ hr
      cases h
      unfold approxRule at hr
      split at hr <;> cases hr <;> exact ⟨_, fun _ => rfl, rfl⟩
    · cases h
  all_goals cases h; exact ⟨_, fun _ => rfl, rfl⟩

/-- What changes the group after its flags are noted changes it with them. -/
theorem modGroup_noted (s : State) (x : Issue) (fl : FFlags) (f : Group → Group) :
    modGroup (noted s x fl) x.g.id f = modGroup s x.g.id fun g => f (orFpstat g fl) := by
  simp only [noted, modGroup, List.map_map]
  congr 2
  funext h
  by_cases hn : h.id = x.g.id <;> simp [hn, orFpstat]

/-- What a P word's body answers: FPX of half 0, else of half 1, else the results of both (R18). -/
theorem pWord_body (p : PWord) :
    ∃ body, (∀ t, exec (.pWord p) t = issue (.pWord p) t body) ∧ ∀ x s,
      let f0 := flagsOf (phalfLanes x p.h0)
      let f1 := flagsOf (phalfLanes x p.h1)
      let u := noted s x (allFlags f0 ||| allFlags f1)
      body x s =
        if fpxLanes x.g f0 ≠ [] then .trap u (fpxInfo x f0 false)
        else if fpxLanes x.g f1 ≠ [] then .trap u (fpxInfo x f1 true)
        else .done (modGroup u x.g.id fun g =>
          writeDst (writeDst g (.v p.h0.dst) 1 (valsOf (phalfLanes x p.h0))) (.v p.h1.dst) 1 (valsOf (phalfLanes x p.h1))) [] := by
  refine ⟨_, fun _ => rfl, fun x s => ?_⟩
  simp only [bne_iff_ne]
  rfl

end Sys2Proof.FloatOps

open Sys2Proof.Machine Sys2Proof.Safety Sys2Proof.Laws Sys2Proof.FloatOps

/-- Settles O16: with no enabled flag raised each body ends with its results. -/
theorem floatResults : Obligations.FloatResults := by
  refine ⟨?_, ?_, ?_⟩
  · intro s i x r hi hr hn
    obtain ⟨body, he, hb⟩ := fpLanes_body hr
    rw [he]
    exact issue_of_done hi (hb.trans (fpDone_of_none hn))
  · intro s f x hi r fl hn
    exact issue_of_done hi (fpDone_of_none hn)
  · intro s p x hi r0 r1 h0 h1
    obtain ⟨body, he, hb⟩ := pWord_body p
    have hd := (hb x (entry s x)).trans ((if_neg (not_not.mpr h0)).trans (if_neg (not_not.mpr h1)))
    rw [modGroup_noted] at hd
    rw [he]
    exact issue_of_done hi hd

/-- Settles O14: with an enabled flag raised each body ends in the trap of the lanes that raised one. -/
theorem fpxTrap : Obligations.FpxTrap := by
  intro s i x hi hf raised noted'
  refine ⟨?_, ?_, ?_⟩
  · intro r hr hn
    obtain ⟨body, he, hb⟩ := fpLanes_body hr
    rw [he]
    exact issue_of_trap hi hf (hb.trans (fpDone_of_some hn))
  · rintro f rfl fl hn
    have hfl : ((x.act.map fun l => (l, fcmpLane x (entry s x) f l)).map fun p => (p.1, p.2.foldl (fun a e => a ||| e.2) 0)) = fl := List.map_map ..
    refine issue_of_trap hi hf ?_
    dsimp only
    rw [hfl]
    exact fpDone_of_some hn
  · rintro p rfl f0 f1
    obtain ⟨body, he, hb⟩ := pWord_body p
    rw [he]
    exact ⟨fun h0 => issue_of_trap hi hf ((hb x _).trans (if_pos h0)),
      fun h0 h1 => issue_of_trap hi hf ((hb x _).trans ((if_neg (not_not.mpr h0)).trans (if_pos h1)))⟩
end

section
/-! SUPPORT. Results by lane: where they land, and the frame of the instructions that only give such results (R14, R15, R26, R27, R187). -/
namespace Sys2Proof.LaneResults
open Sys2Proof.Machine Sys2Proof.Safety Sys2Proof.Laws

/-! ### What an issue that reaches its effect says of its instruction -/

/-- No cause of R43 holds of an instruction that reaches its own effect. -/
theorem staticCauses_of_issueOf {s : State} {i : Instr} {x : Issue} (h : issueOf s i = some x) : staticCauses i = [] := by
  obtain ⟨g, -, -, -, ht⟩ := issueOf_some h
  have hc : illopCause s x = none := by
    unfold issueTrap at ht
    split at ht
    · cases ht
    · split at ht
      · cases ht
      · assumption
  rw [illopCause, IssueTraps.minCause_eq_min?, List.min?_eq_none_iff, issueOf_i h] at hc
  simp only [List.append_eq_nil_iff] at hc
  exact hc.1.1.1

/-- A destination is the DST field of a shape that has one, and NWB does not withhold it (R15). -/
theorem dstOf_some {i : Instr} {o : Opnd} {w : Nat} (h : dstOf i = some (o, w)) :
    ∃ k, (sigOf i).dst = .dst w k ∧ ((∃ opc f, frameOf i = .f opc f ∧ f.nwb = false ∧ f.dst = o) ∨ ∃ opc y, frameOf i = .x opc y ∧ y.dst = o) := by
  unfold dstOf at h
  split at h
  · rename_i k opc f hd hf
    split at h
    · cases h
    · cases h; exact ⟨k, hd, .inl ⟨opc, f, hf, by simp_all, rfl⟩⟩
  · rename_i k opc y hd hf
    cases h; exact ⟨k, hd, .inr ⟨opc, y, hf, rfl⟩⟩
  · cases h

/-- The registers of a destination are among those that the instruction writes. -/
theorem dstOf_writes {i : Instr} {o : Opnd} {w : Nat} (h : dstOf i = some (o, w)) : ∀ r ∈ opndRegs o w, r ∈ (regUse i).writes := by
  intro r hr
  obtain ⟨k, hd, ⟨opc, f, hf, hn, rfl⟩ | ⟨opc, y, hf, rfl⟩⟩ := dstOf_some h
  · simp [regUse, hf, Sig.regsF, hn, hd, Use.writes, hr]
  · simp [regUse, hf, Sig.regsX, hd, Use.writes, hr]

/-- The destination of a well-formed instruction ends at v255 (R26). -/
theorem dstOf_span {i : Instr} {n : BitVec 8} {w : Nat} (hs : staticCauses i = []) (h : dstOf i = some (.v n, w)) : n.toNat + w ≤ 256 := by
  obtain ⟨k, hd, hf⟩ := dstOf_some h
  have hc : runCauses (.v n) w k = [] := by
    obtain ⟨opc, f, hf, hn, ho⟩ | ⟨opc, y, hf, ho⟩ := hf
    · simp only [staticCauses, hf, Sig.causesF, hn, hd, ho, List.append_eq_nil_iff, Bool.false_eq_true, if_false] at hs
      exact hs.1.1.1.1.1
    · simp only [staticCauses, hf, Sig.causesX, hd, ho, List.append_eq_nil_iff] at hs
      exact hs.1.1.1.1
  simp only [runCauses, Words.causeIf_eq_nil, Bool.or_eq_false_iff, decide_eq_false_iff_not] at hc
  omega

/-! ### The group that results by lane leave -/

/-- The group with results by lane in DST and in a predicate. -/
def landed (g : Group) (i : Instr) (vals : List (Nat × Nat)) (pd : Nat) (ps : List (Nat × Bool)) : Group := putPreds (putDst g i vals) pd ps

/-- Results change v and k registers and predicates, and nothing else of a group. -/
theorem landed_eq (g : Group) (i : Instr) (vals : List (Nat × Nat)) (pd : Nat) (ps : List (Nat × Bool)) :
    landed g i vals pd ps = { g with v := (putDst g i vals).v, k := (putDst g i vals).k, preds := (landed g i vals pd ps).preds } := by
  unfold landed
  rw [putPreds_eq, putDst_eq]

/-- A predicate results in its own lane only, whatever the lane's number. -/
theorem predOf_setPred_other (g : Group) {n l m j : Nat} (b : Bool) (h : m ≠ n ∨ j ≠ l) : predOf (setPred g n l b) m j = predOf g m j := by
  by_cases hl : l < 64
  · rw [predOf_setPred _ _ _ _ _ _ hl, if_neg (by tauto)]
  · have hbit : BitVec.ofNat 64 (1 <<< l) = 0 := by
      rw [Nat.one_shiftLeft]
      exact BitVec.eq_of_toNat_eq (by simpa using Nat.mod_eq_zero_of_dvd (Nat.pow_dvd_pow 2 (Nat.le_of_not_lt hl)))
    have hput (p : DWord) : (if b then p ||| BitVec.ofNat 64 (1 <<< l) else p &&& ~~~BitVec.ofNat 64 (1 <<< l)) = p := by
      rw [hbit]
      split
      · exact BitVec.or_zero
      · exact BitVec.and_allOnes
    unfold predOf setPred
    by_cases hn : n = 7
    · simp [hn]
    · by_cases hm : m = n
      · subst hm; simp only [hn, if_false, hput, sparse_get_put_self]
      · simp [hn, sparse_get_put, hm]

theorem predOf_putPreds_frame (g : Group) {n : Nat} {ps : List (Nat × Bool)} {m j : Nat} (h : m ≠ n ∨ ∀ e ∈ ps, e.1 ≠ j) :
    predOf (putPreds g n ps) m j = predOf g m j := by
  unfold putPreds
  induction ps generalizing g with
  | nil => rfl
  | cons p t ih =>
    rw [List.foldl_cons, ih _ (h.imp_right fun h e he => h e (by simp [he]))]
    exact predOf_setPred_other g _ (h.imp_right fun h => (h p (by simp)).symm)

section
variable {s u : State} {i : Instr} {x : Issue} {vals : List (Nat × Nat)} {pd : Nat} {ps : List (Nat × Bool)}

/-- The frame of results by lane: they change the destination's registers and the predicate in active lanes alone. -/
theorem groupFrame_landed (g : Group) {act : List Nat} (hs : staticCauses i = []) (hv : ∀ e ∈ vals, e.1 ∈ act) (hp : ∀ e ∈ ps, e.1 ∈ act)
    (hpd : pd = 7 ∨ 512 + pd ∈ (regUse i).writes) : GroupFrame g (landed g i vals pd ps) (regUse i).writes act := by
  have hg := landed_eq g i vals pd ps
  refine ⟨fun l r hr h => ?_, fun r h => ?_, fun n l h => ?_, ?_, ?_, ?_⟩
  · rw [hg]
    change readV (putDst g i vals) l r = _
    unfold putDst
    split
    · rename_i o w ho
      refine readV_writeDst_other _ _ _ _ _ _ hr (by rintro n rfl; exact dstOf_span hs ho) ?_
      by_contra hc
      simp only [not_or, not_not, List.mem_map] at hc
      obtain ⟨⟨e, he, rfl⟩, hro⟩ := hc
      exact h ⟨hv e he, dstOf_writes ho r hro⟩
    · rfl
  · rw [hg]
    change readK (putDst g i vals) r = _
    unfold putDst
    split
    · rename_i o w ho
      exact readK_writeDst_other _ _ _ _ _ fun hro => h (dstOf_writes ho _ hro)
    · rfl
  · have hput : predOf (putDst g i vals) n l = predOf g n l := by rw [putDst_eq]; rfl
    rw [← hput, landed]
    rcases hpd with rfl | hpd
    · rw [putPreds_seven]
    · refine predOf_putPreds_frame _ ?_
      by_contra hc
      simp only [not_or, not_not, not_forall] at hc
      obtain ⟨rfl, e, he, rfl⟩ := hc
      exact h ⟨hp e he, hpd⟩
  · rw [hg]; simp
  · rw [hg]
  · rw [hg]; exact ⟨rfl, rfl⟩

/-- What completes an instruction keeps a frame: it changes latches, times, the chain, deferral and the pcv alone. -/
theorem groupFrame_completed {g h : Group} {ws act : List Nat} (dest : List (Nat × DWord)) (lat : List (Nat × Nat)) (hf : GroupFrame g h ws act) :
    GroupFrame g (completed h x dest lat) ws act := by
  obtain ⟨_, _, _, _, _, e⟩ := completed_eq h x dest lat
  rw [e]
  exact ⟨hf.v, hf.k, hf.p, hf.special, hf.blocks, hf.inFlight⟩

/-- A lane served stands at an address after completion, where the next instruction has one. -/
theorem pcvOf_completed_ne_exit {g : Group} {lat : List (Nat × Nat)} {l : Nat} (hl : l ∈ x.served) (hn : x.next ≠ exitPc) :
    pcvOf (completed g x [] lat) l ≠ exitPc := by
  by_cases hp : l < g.pcv.length
  · rwa [pcvOf_completed g x lat hp, if_pos hl]
  · obtain ⟨_, _, _, _, _, e⟩ := completed_eq g x [] lat
    rw [e]
    simp [pcvOf, movePcv, List.getElem?_eq_none (Nat.le_of_not_lt hp), exitPc]

/-- Results by lane leave the group as `completed` of `landed`, and of the rest of the state change only the words that an error is noted for. -/
theorem laneResult_eq (h : issueOf s i = some x) (hn : x.next ≠ exitPc) (hu : findGroup u x.g.id = some x.g) :
    findGroup (laneResult u x vals pd ps) x.g.id = some (completed (landed x.g i vals pd ps) x [] vals) ∧
    ∃ b c k, laneResult u x vals pd ps =
      { setGroup (modGroup u x.g.id fun g => landed g i vals pd ps) (completed (landed x.g i vals pd ps) x [] vals) with
        badWords := b, corrWords := c, dies := k } := by
  obtain ⟨l, hl, hw, -⟩ := issueOf_served h
  have hg := findGroup_modGroup (f := fun g => landed g i vals pd ps) hu fun g => by rw [landed_eq]
  have hw' : l < (landed x.g i vals pd ps).width := by rw [landed_eq]; exact hw
  have he := pcvOf_completed_ne_exit (g := landed x.g i vals pd ps) (lat := vals) hl hn
  rw [laneResult, issueOf_i h]
  exact ⟨findGroup_completeIssue [] vals hg hw' he, completeIssue_eq [] vals hg hw' he⟩

end

/-! ### The instructions that only give results in registers -/

/-- The predicate that an instruction writes; p7, which discards, where its shape names none (R15). -/
def predDst (i : Instr) : Nat := (sigOf i).pwrites.headD 7

theorem predDst_writes {i : Instr} (h : isEvent i = false) : predDst i = 7 ∨ 512 + predDst i ∈ (regUse i).writes := by
  by_cases h7 : predDst i = 7
  · exact .inl h7
  · refine .inr ?_
    have hm : 512 + predDst i ∈ (sigOf i).extraUse.writes := by
      refine List.mem_append_right _ (List.mem_flatMap.mpr ⟨predDst i, ?_, by simp [predReg, h7]⟩)
      unfold predDst at h7 ⊢
      cases hw : (sigOf i).pwrites with
      | nil => simp [hw] at h7
      | cons n t => simp
    cases hf : frameOf i with
    | f opc f => simp only [regUse, hf]; exact List.mem_append_right _ hm
    | x opc y => simp only [regUse, hf]; exact List.mem_append_right _ hm
    | p p => cases i <;> cases hf; exact absurd rfl h7
    | event => simp [isEvent, hf] at h

/-- Each such instruction ends with results of its active lanes. -/
theorem registerOnly_body {i : Instr} (h : registerOnly i = true) :
    ∃ body, (∀ t, exec i t = issue i t body) ∧ ∀ x s, shflBad i x s = [] → ∃ vals ps,
      body x s = laneDone (laneState i x s) x vals (predDst i) ps ∧ (∀ e ∈ vals, e.1 ∈ x.act) ∧ ∀ e ∈ ps, e.1 ∈ x.act := by
  unfold registerOnly at h
  split at h
  case h_6 f =>
    refine ⟨_, fun _ => rfl, fun x s hb => ?_⟩
    simp only [shflBad] at hb
    simp only [hb]
    exact ⟨_, _, rfl, by simp, by simp⟩
  case h_10 =>
    rcases (Bool.or_eq_true _ _).mp h with h | h
    · unfold intRule at h
      split at h <;> cases h <;> exact ⟨_, fun _ => rfl, fun x s _ => ⟨_, _, rfl, by simp, by simp⟩⟩
    · unfold bitRule at h
      split at h <;> cases h <;> exact ⟨_, fun _ => rfl, fun x s _ => ⟨_, _, rfl, by simp, by simp⟩⟩
  all_goals exact ⟨_, fun _ => rfl, fun x s _ => ⟨_, _, rfl, by simp [allLanes], by simp⟩⟩

theorem isEvent_of_registerOnly {i : Instr} (h : registerOnly i = true) : isEvent i = false := by
  cases i <;> cases h <;> rfl

/-- Corrected words change the list of such words and the dies' counts alone (R397). -/
theorem correctWords_eq (s : State) (ls : List ArrayLoc) : ∃ c k, ls.foldl correctWord s = { s with corrWords := c, dies := k } := by
  induction ls generalizing s with
  | nil => exact ⟨s.corrWords, s.dies, rfl⟩
  | cons a t ih =>
    obtain ⟨c, k, e⟩ := correctWord_eq s a
    obtain ⟨c', k', e'⟩ := ih (correctWord s a)
    exact ⟨c', k', by rw [List.foldl_cons, e', e]⟩

theorem laneState_eq (i : Instr) (x : Issue) (s : State) : ∃ c k, laneState i x s = { s with corrWords := c, dies := k } := by
  unfold laneState
  split
  · unfold correctLocs
    split
    · exact ⟨s.corrWords, s.dies, rfl⟩
    · exact correctWords_eq ..
  · exact ⟨s.corrWords, s.dies, rfl⟩

/-- Where an instruction only gives results by lane, the state differs from the one before by its group and the words that an error is noted for. -/
theorem laneResult_frame {s : State} {i : Instr} {x : Issue} (h : issueOf s i = some x) (hn : x.next ≠ exitPc) (vals : List (Nat × Nat)) (pd : Nat)
    (ps : List (Nat × Bool)) :
    let t := laneResult (laneState i x (entry s x)) x vals pd ps
    findGroup t x.g.id = some (completed (landed x.g i vals pd ps) x [] vals) ∧ MemorySame s t ∧ MachineFrame s t x.g.id := by
  obtain ⟨c', k', hu⟩ := laneState_eq i x (entry s x)
  have hf : findGroup (laneState i x (entry s x)) x.g.id = some x.g := by rw [hu]; exact findGroup_entry h
  obtain ⟨hg, b, c, k, ht⟩ := laneResult_eq (vals := vals) (pd := pd) (ps := ps) h hn hf
  refine ⟨hg, ?_, ?_⟩
  · rw [ht, hu]; exact ⟨fun _ => rfl, fun _ _ => rfl⟩
  · rw [ht, hu]
    refine ⟨fun id hid => ?_, fun _ => rfl, ⟨rfl, rfl, rfl, rfl, rfl, rfl, rfl⟩, rfl, rfl⟩
    have hl : (completed (landed x.g i vals pd ps) x [] vals).id ≠ id := by rw [completed_id, landed_eq]; exact hid.symm
    refine (findGroup_setGroup_other hl).trans ((findGroup_modGroup_other hid.symm fun g => by rw [landed_eq]).trans ?_)
    exact findGroup_setGroup_other hid.symm

end Sys2Proof.LaneResults

open Sys2Proof.Machine Sys2Proof.Safety Sys2Proof.Laws Sys2Proof.LaneResults

/-- Settles O18: what is read of the group that completion leaves is what was written to it. -/
theorem resultsLand : Obligations.ResultsLand := by
  intro s i x vals pd ps h hv hn hp hw
  obtain ⟨hact, hlanes⟩ := issueOf_act h
  have hs := staticCauses_of_issueOf h
  refine ⟨_, (laneResult_eq h hn (findGroup_entry h)).1, ?_⟩
  obtain ⟨_, _, _, _, _, e⟩ := completed_eq (landed x.g i vals pd ps) x [] vals
  have hregs (l : Nat) (o : Sys2Proof.Opnd) (w : Nat) :
      readRegs (completed (landed x.g i vals pd ps) x [] vals) l o w = readRegs (putDst x.g i vals) l o w := by
    rw [e, landed_eq]; rfl
  have hpreds (n l : Nat) : predOf (completed (landed x.g i vals pd ps) x [] vals) n l = predOf (putPreds (putDst x.g i vals) pd ps) n l := by
    rw [e]; rfl
  have h64 : ∀ e ∈ ps, e.1 < 64 := fun e he => by
    have := (hlanes e.1 (hp ▸ List.mem_map_of_mem he)).2
    omega
  refine ⟨fun n w hd e he => ?_, fun n w hd e he l => ?_, fun hpd e he => ?_, fun hpd n l => ?_, fun l => rfl⟩
  · rw [hregs, putDst, hd]
    exact readRegs_writeDst_v _ _ _ _ _ (dstOf_span hs hd) (hv ▸ hact) he
  · rw [hregs, putDst, hd]
    obtain ⟨t, rfl⟩ := List.head?_eq_some_iff.mp he
    exact readRegs_writeDst_k ..
  · rw [hpreds]
    exact predOf_putPreds _ _ _ _ h64 (by omega) (hp ▸ hact) he
  · rw [hpreds, hpd, putPreds_seven, putDst_eq]
    rfl

/-- Settles O19: the results are of active lanes, so only the destination's registers, the predicate and the pcv of the lanes served change. -/
theorem registerOnlyFrame : Obligations.RegisterOnlyFrame := by
  intro s i x hr h hb hn
  obtain ⟨body, he, hbody⟩ := registerOnly_body hr
  obtain ⟨vals, ps, hd, hv, hp⟩ := hbody x (entry s x) hb
  obtain ⟨hg, hm, hs⟩ := laneResult_frame h hn vals (predDst i) ps
  have hframe := groupFrame_landed x.g (staticCauses_of_issueOf h) hv hp (predDst_writes (isEvent_of_registerOnly hr))
  have hl := landed_eq x.g i vals (predDst i) ps
  obtain ⟨_, _, _, _, _, hc⟩ := completed_eq (landed x.g i vals (predDst i) ps) x [] vals
  refine ⟨_, _, (he s).trans (issue_of_done h hd), hm, hs, hg, groupFrame_completed [] vals hframe, ?_, ?_, fun l hlen => ?_⟩
  · rw [hc, hl]
  · rw [hc, hl]
  · rw [pcvOf_completed _ _ _ (by rw [hl]; exact hlen), hl]
    rfl
end

section
/-! SUPPORT. Folds of a physical address, and the slots, ranks and places of a partition's channels (R57, R59, R60). -/
namespace Sys2Proof.Interleave
open Sys2Proof.Machine

/-! ### Fields and folds (R57) -/

theorem fldN_eq (x lo len : Nat) : fldN x lo len = x / 2 ^ lo % 2 ^ len := by
  rw [fldN, Nat.shiftRight_eq_div_pow]

theorem fldN_lt (x lo len : Nat) : fldN x lo len < 2 ^ len := Nat.mod_lt _ (Nat.two_pow_pos _)

/-- A field of a word is the slice of its bits. -/
theorem fldN_toNat {w : Nat} (x : BitVec w) (lo len : Nat) : fldN x.toNat lo len = (x.extractLsb' lo len).toNat :=
  (BitVec.extractLsb'_toNat ..).symm

/-- Numbers that agree from a bit up have the same fields from there up. -/
theorem fldN_of_div_eq {a b n lo : Nat} (h : a / 2 ^ n = b / 2 ^ n) (hn : n ≤ lo) (len : Nat) : fldN a lo len = fldN b lo len := by
  obtain ⟨k, rfl⟩ := Nat.exists_eq_add_of_le hn
  simp only [fldN_eq, Nat.pow_add, ← Nat.div_div_eq_div_mul, h]

theorem rotl12_toNat (x : BitVec 12) {k : Nat} (h : k < 12) : rotl12 x.toNat k = (x.rotateLeft k).toNat := by
  have hs : x.toNat >>> (12 - k) < 2 ^ 12 := (Nat.shiftRight_le ..).trans_lt x.isLt
  rw [BitVec.toNat_rotateLeft, Nat.mod_eq_of_lt h, rotl12, show 4096 = 2 ^ 12 from rfl, Nat.or_mod_two_pow, Nat.mod_eq_of_lt hs]

/-- The count of one bits, as a count over the bits' numbers. -/
theorem popcN_eq_countP (w x : Nat) : popcN w x = (List.range w).countP x.testBit := by
  unfold popcN
  induction w with
  | zero => rfl
  | succ w ih => rw [List.range_succ, List.foldl_append, ih, List.countP_append]; simp [List.countP_singleton]; split <;> rfl

theorem cfold_lt (pa : Nat) : cfold pa < 4096 :=
  Nat.xor_lt_two_pow (n := 12) (Nat.xor_lt_two_pow (Nat.xor_lt_two_pow (fldN_lt ..) (fldN_lt ..)) (fldN_lt ..))
    ((fldN_lt ..).trans (by decide))

/-- Of addresses that agree above bit 19 the channel fold tells bits 19:8 apart. -/
theorem cfold_eq_iff {a b : Nat} (h : a / 2 ^ 20 = b / 2 ^ 20) : cfold a = cfold b ↔ fldN a 8 12 = fldN b 8 12 := by
  simp only [cfold, fldN_of_div_eq h (show 20 ≤ 20 by decide), fldN_of_div_eq h (show 20 ≤ 32 by decide), fldN_of_div_eq h (show 20 ≤ 44 by decide),
    Nat.xor_left_inj]

/-- Of addresses that agree above bit 19 the slice fold tells bits 19:8 apart. -/
theorem sfold_eq_iff {a b : Nat} (h : a / 2 ^ 20 = b / 2 ^ 20) : sfold a = sfold b ↔ fldN a 8 12 = fldN b 8 12 := by
  simp only [sfold, fldN_of_div_eq h (show 20 ≤ 20 by decide), fldN_of_div_eq h (show 20 ≤ 32 by decide), fldN_of_div_eq h (show 20 ≤ 44 by decide),
    Nat.xor_left_inj]

section
variable (pa : BitVec 52)

theorem cfold_toNat : cfold pa.toNat =
    (pa.extractLsb' 8 12 ^^^ pa.extractLsb' 20 12 ^^^ pa.extractLsb' 32 12 ^^^ (pa.extractLsb' 44 8).zeroExtend 12).toNat := by
  simp only [cfold, fldN_toNat, BitVec.toNat_xor, BitVec.zeroExtend_eq_setWidth, BitVec.toNat_setWidth_of_le (show 8 ≤ 12 by decide)]

theorem sfold_toNat : sfold pa.toNat =
    (pa.extractLsb' 8 12 ^^^ (pa.extractLsb' 20 12).rotateLeft 4 ^^^ (pa.extractLsb' 32 12).rotateLeft 8 ^^^
      (pa.extractLsb' 44 8).zeroExtend 12).toNat := by
  simp only [sfold, fldN_toNat, rotl12_toNat _ (show 4 < 12 by decide), rotl12_toNat _ (show 8 < 12 by decide), BitVec.toNat_xor,
    BitVec.zeroExtend_eq_setWidth, BitVec.toNat_setWidth_of_le (show 8 ≤ 12 by decide)]

end

theorem slotAddr_div {lo n : Nat} (hi : Nat) (hn : n < 4096) (hl : lo < 256) : (hi * 2 ^ 20 + n * 256 + lo) / 2 ^ 20 = hi := by omega

theorem fldN_slotAddr {lo n : Nat} (hi : Nat) (hn : n < 4096) (hl : lo < 256) : fldN (hi * 2 ^ 20 + n * 256 + lo) 8 12 = n := by
  rw [fldN_eq]; omega

/-! ### Ranks in a slot table -/

/-- Slots below `i` of a table that hold `c`. -/
def slotsBelow (t : List Nat) (c i : Nat) : Nat := ((t.take i).filter (· == c)).length

theorem slotsBelow_mono (t : List Nat) (c : Nat) {i j : Nat} (h : i ≤ j) : slotsBelow t c i ≤ slotsBelow t c j :=
  ((List.take_sublist_take_left h).filter _).length_le

theorem slotsBelow_succ {t : List Nat} {c i : Nat} (h : t[i]? = some c) : slotsBelow t c (i + 1) = slotsBelow t c i + 1 := by
  simp [slotsBelow, List.take_add_one, h, List.filter_append]

/-- A slot of `c` below another has a lower rank. -/
theorem slotsBelow_lt {t : List Nat} {c i j : Nat} (h : t[i]? = some c) (hij : i < j) : slotsBelow t c i < slotsBelow t c j :=
  calc slotsBelow t c i < slotsBelow t c (i + 1) := by rw [slotsBelow_succ h]; exact Nat.lt_succ_self _
    _ ≤ slotsBelow t c j := slotsBelow_mono t c hij

theorem slotsBelow_length (t : List Nat) (c : Nat) : slotsBelow t c t.length = (t.filter (· == c)).length := by
  rw [slotsBelow, List.take_length]

theorem slotsBelow_inj {t : List Nat} {c i j : Nat} (hi : t[i]? = some c) (hj : t[j]? = some c) (h : slotsBelow t c i = slotsBelow t c j) : i = j := by
  rcases Nat.lt_trichotomy i j with hl | he | hl
  · exact absurd h (slotsBelow_lt hi hl).ne
  · exact he
  · exact absurd h (slotsBelow_lt hj hl).ne'

theorem le_foldl_max {l : List Nat} {a n : Nat} (h : n ≤ a ∨ n ∈ l) : n ≤ l.foldl max a := by
  induction l generalizing a with
  | nil => simpa using h
  | cons b t ih =>
    refine ih ?_
    rcases h with h | h
    · exact .inl (h.trans (le_max_left ..))
    · rcases List.mem_cons.mp h with rfl | h
      · exact .inl (le_max_right ..)
      · exact .inr h

/-! ### Slots of a partition's channels (R59, R60) -/

section
variable {p : Partition} (hn : p.channels.Nodup) (ht : ∀ t, p.chanImage = some t → t.length = 4096) (hm : chanMax p ≠ 0)
include hn ht hm

/-- The rank of a slot is below the number of slots of its channel, which no channel exceeds the greatest of. -/
theorem chanRank_lt {i : Nat} (hi : i < 4096) : chanRank p i < chanCount p (chanSlot p i) ∧ chanCount p (chanSlot p i) ≤ chanMax p := by
  cases h : p.chanImage with
  | some t =>
    have hl := ht t h
    have hs : t[i]? = some (chanSlot p i) := by simp [chanSlot, slotEntry, h, List.getElem?_eq_getElem (hl.symm ▸ hi : i < t.length)]
    simp only [chanRank, chanCount, chanMax, h]
    refine ⟨?_, le_foldl_max (.inr ?_)⟩
    · rw [← slotsBelow_length t]
      exact slotsBelow_lt hs (hl.symm ▸ hi)
    · exact List.mem_map.mpr ⟨_, List.mem_eraseDups.mpr (List.mem_of_getElem? hs), rfl⟩
  | none =>
    have hm0 : p.channels.length ≠ 0 := fun h0 => hm (by simp [chanMax, h, h0])
    have hlt : i % p.channels.length < p.channels.length := Nat.mod_lt _ (Nat.pos_of_ne_zero hm0)
    have hj : p.channels.idxOf (chanSlot p i) = i % p.channels.length := by
      simp only [chanSlot, slotEntry, h, hm0, if_false, List.getElem?_eq_getElem hlt, Option.getD_some]
      exact hn.idxOf_getElem _ hlt
    simp only [chanRank, chanCount, chanMax, h, hm0, if_false, hj]
    have hd := Nat.div_add_mod' i p.channels.length
    refine ⟨(Nat.le_div_iff_mul_le (Nat.pos_of_ne_zero hm0)).mpr ?_, Nat.div_le_div_right (by omega)⟩
    rw [Nat.succ_mul]
    omega

/-- A slot is known by its channel and its rank. -/
theorem slot_eq_of_rank {i j : Nat} (hi : i < 4096) (hj : j < 4096) (hs : chanSlot p i = chanSlot p j) (hr : chanRank p i = chanRank p j) : i = j := by
  cases h : p.chanImage with
  | some t =>
    have hl := ht t h
    have hget {i : Nat} (hi : i < 4096) : t[i]? = some (chanSlot p i) := by
      simp [chanSlot, slotEntry, h, List.getElem?_eq_getElem (hl.symm ▸ hi : i < t.length)]
    simp only [chanRank, h, ← hs] at hr
    exact slotsBelow_inj (hget hi) (hs ▸ hget hj) hr
  | none =>
    have hm0 : p.channels.length ≠ 0 := fun h0 => hm (by simp [chanMax, h, h0])
    have hlt (i : Nat) : i % p.channels.length < p.channels.length := Nat.mod_lt _ (Nat.pos_of_ne_zero hm0)
    simp only [chanSlot, slotEntry, h, hm0, if_false, List.getElem?_eq_getElem (hlt _), Option.getD_some] at hs
    simp only [chanRank, h, hm0, if_false] at hr
    rw [← Nat.div_add_mod' i p.channels.length, ← Nat.div_add_mod' j p.channels.length, hr, hn.getElem_inj_iff.mp hs]

end

/-! ### Places of device memory (R60) -/

/-- A byte's offset in its channel (R60). -/
def devOffset (p : Partition) (a : Nat) : Nat :=
  ((a - p.pbase) / 2 ^ 20 * chanCount p (chanSlot p (cfold a)) + chanRank p (cfold a)) * 256 + a % 256

section
variable {p : Partition} {a : Nat}

theorem isDevPa_iff : isDevPa p a = true ↔ p.pbase ≤ a ∧ a < p.pbase + capacity p ∧ a < 2 ^ 51 := by
  simp [isDevPa, and_assoc]

theorem paKind_of_isDevPa (h : isDevPa p a = true) : paKind a = 0 := by
  have ha := (isDevPa_iff.mp h).2.2
  have hk : fldN a 50 2 = 0 ∨ fldN a 50 2 = 1 := by rw [fldN_eq]; omega
  rcases hk with hk | hk <;> simp [paKind, hk]

theorem placeOf_of_isDevPa (h : isDevPa p a = true) : placeOf p a = 2 ^ 31 * chanSlot p (cfold a) + devOffset p a := by
  simp only [placeOf, paKind_of_isDevPa h, if_true, devOffset, Nat.shiftRight_eq_div_pow, Nat.div_div_eq_div_mul, Nat.reducePow, Nat.reduceMul,
    Nat.add_assoc]

/-- A partition with a byte of device memory has slots. -/
theorem chanMax_ne_zero (h : isDevPa p a = true) : chanMax p ≠ 0 := fun h0 => by
  have := isDevPa_iff.mp h
  simp [capacity, h0] at this
  omega

/-- Offsets stay below a channel's 2^31 bytes. -/
theorem devOffset_lt (hn : p.channels.Nodup) (ht : ∀ t, p.chanImage = some t → t.length = 4096) (h : isDevPa p a = true) : devOffset p a < 2 ^ 31 := by
  have hm := chanMax_ne_zero h
  obtain ⟨hr, hc⟩ := chanRank_lt hn ht hm (cfold_lt a)
  obtain ⟨hb, hcap, -⟩ := isDevPa_iff.mp h
  rw [capacity, if_neg hm] at hcap
  have hrow : (a - p.pbase) / 2 ^ 20 + 1 ≤ 2 ^ 31 / (256 * chanMax p) := by omega
  have hq : (a - p.pbase) / 2 ^ 20 * chanCount p (chanSlot p (cfold a)) + chanRank p (cfold a) + 1 ≤ 2 ^ 31 / (256 * chanMax p) * chanMax p :=
    calc _ ≤ (a - p.pbase) / 2 ^ 20 * chanMax p + chanMax p := by
            have := Nat.mul_le_mul_left ((a - p.pbase) / 2 ^ 20) hc
            omega
      _ = ((a - p.pbase) / 2 ^ 20 + 1) * chanMax p := (Nat.succ_mul ..).symm
      _ ≤ _ := Nat.mul_le_mul_right _ hrow
  have hk : 2 ^ 31 / (256 * chanMax p) * chanMax p * 256 ≤ 2 ^ 31 := by
    rw [Nat.mul_assoc, Nat.mul_comm (chanMax p)]
    exact Nat.div_mul_le_self ..
  unfold devOffset
  omega

end

end Sys2Proof.Interleave

open Sys2Proof.Machine Sys2Proof.Interleave

/-- Settles O7: the folds field by field; of addresses that differ in bits 19:8 alone the other fields cancel. -/
theorem addressHashes : Obligations.AddressHashes := by
  refine ⟨fun pa => ⟨cfold_toNat pa, sfold_toNat pa, ?_⟩, fun hi lo n m hn hm hne _ hl => ?_⟩
  · rw [routeBit, sfold_toNat, popcN_eq_countP]
    rfl
  · have h := (slotAddr_div hi hn hl).trans (slotAddr_div hi hm hl).symm
    rw [Ne, Ne, cfold_eq_iff h, sfold_eq_iff h, fldN_slotAddr hi hn hl, fldN_slotAddr hi hm hl]
    exact ⟨hne, hne⟩

/-- Settles O8: a place gives the channel and the offset, the offset the row and the rank, these the slot, and the slot bits 19:8. -/
theorem deviceBytesApart : Obligations.DeviceBytesApart := by
  intro p a b hp hn ht ha hb h
  have hm := chanMax_ne_zero ha
  rw [placeOf_of_isDevPa ha, placeOf_of_isDevPa hb] at h
  have hoa := devOffset_lt hn ht ha
  have hob := devOffset_lt hn ht hb
  have hslot : chanSlot p (cfold a) = chanSlot p (cfold b) := by omega
  have hoff : devOffset p a = devOffset p b := by omega
  have hra := (chanRank_lt hn ht hm (cfold_lt a)).1
  have hrb := (chanRank_lt hn ht hm (cfold_lt b)).1
  simp only [devOffset, ← hslot] at hoff hrb
  have hlow : a % 256 = b % 256 := by omega
  have hq : (a - p.pbase) / 2 ^ 20 * chanCount p (chanSlot p (cfold a)) + chanRank p (cfold a) =
      (b - p.pbase) / 2 ^ 20 * chanCount p (chanSlot p (cfold a)) + chanRank p (cfold b) := by omega
  have hrank : chanRank p (cfold a) = chanRank p (cfold b) := by
    have := congrArg (· % chanCount p (chanSlot p (cfold a))) hq
    simpa [Nat.mul_add_mod_self_right, Nat.mod_eq_of_lt hra, Nat.mod_eq_of_lt hrb] using this
  have hrow : (a - p.pbase) / 2 ^ 20 = (b - p.pbase) / 2 ^ 20 :=
    Nat.eq_of_mul_eq_mul_right (Nat.zero_lt_of_lt hra) (by omega)
  have hfold := slot_eq_of_rank hn ht hm (cfold_lt a) (cfold_lt b) hslot hrank
  have hba := (isDevPa_iff.mp ha).1
  have hbb := (isDevPa_iff.mp hb).1
  have hhigh : a / 2 ^ 20 = b / 2 ^ 20 := by omega
  have hmid := (cfold_eq_iff hhigh).mp hfold
  rw [fldN_eq, fldN_eq] at hmid
  omega
end

section
/-! SUPPORT. Answers of a body that give one value to every active lane, values by lane, or a wait; `prio.set`, `loc`, `clk`, `die.q` (R14, R67, R109, R334). -/
namespace Sys2Proof.Laws
open Sys2Proof.Machine Sys2Proof.Safety

section
variable {s t : State} {i : Instr} {x : Issue} {body : Issue → State → IRes}

/-- An instruction whose body gives one value to every active lane. -/
theorem issue_of_doneWith {v : Nat} (h : issueOf s i = some x) (hb : body x (entry s x) = doneWith t x v) : issue i s body = .next (wideResult t x v) :=
  issue_of_done h hb

/-- An instruction whose body gives each active lane its own value. -/
theorem issue_of_perLane {f : Nat → Nat} (h : issueOf s i = some x) (hb : body x (entry s x) = perLane t x f) :
    issue i s body = .next (laneResult t x (x.act.map fun l => (l, f l)) 7 []) :=
  issue_of_done h hb

/-- An instruction whose body leaves its group waiting for the instruction's end (R334). -/
theorem issue_of_parkDone {w : Wait} (h : issueOf s i = some x) (hb : body x (entry s x) = .parkDone t w) :
    issue i s body = .next (parkedDone t x w) := by
  rw [issue_done h (by simp [hb]), hb]; rfl

/-- A release of a group with no store error goes on from the state in which its earlier accesses are performed (R139, R308). -/
theorem withRelease_of_releaseOk (h : releaseOk s x) (mask : List Nat) (k : State → IRes) : withRelease x s mask k = k (released s x) := by
  unfold releaseOk at h
  unfold withRelease reportStore
  rw [h]
  rfl

end

end Sys2Proof.Laws

open Sys2Proof.Machine Sys2Proof.Safety Sys2Proof.Laws

/-- Settles O45: `prio.set` ends group-wide, `clk` with one value, `loc` and `die.q` with a value for each lane. -/
theorem priorityAndQueries : Obligations.PriorityAndQueries := by
  intro s f x
  refine ⟨fun h ha => issue_of_done h ?_, fun h => issue_of_perLane h rfl, fun h => issue_of_doneWith h rfl,
    fun h hd => issue_of_perLane h ?_⟩
  · rw [groupWide_of_active ha, issueOf_i h]
  · have hn : x.act.filter (fun l => decide (3 < rdA (entry s x) x l)) = [] := by simpa using hd
    simp only [hn]
end

section
/-! SUPPORT. What a posted record leaves of dies and cores, and corrections of words read (R386, R397). -/
namespace Sys2Proof.Laws
open Sys2Proof.Machine Sys2Proof.Safety

/-! ### Records posted: the dies -/

/-- A record that is posted or held changes no die but for its count of delays. -/
theorem findDie_postRec {s : State} {d : Nat} {k : Die} (q : PostQueue) (die : Nat) (src : RecSource) (ws : List DWord) (h : findDie s d = some k) :
    ∃ o, findDie (postRec s q die src ws) d = some { k with ovf := o } := by
  obtain ⟨_, _, _, _, _, _, _, ds, e, hd⟩ := postRec_eq s q die src ws
  have hf : findDie (postRec s q die src ws) d = ds.find? fun x => x.num == d := by rw [e]; rfl
  rw [hf]
  rcases hd with rfl | rfl
  · exact ⟨k.ovf, h⟩
  · change ∃ o, findDie (bumpOvf s die) d = _
    by_cases hn : die = d
    · subst hn; exact ⟨_, findDie_modDie h fun _ => rfl⟩
    · exact ⟨k.ovf, (findDie_modDie_other (f := fun k => { k with ovf := min 0xFFFF (k.ovf + 1) }) hn fun _ => rfl).trans h⟩

theorem findDie_notify {s : State} {d : Nat} {k : Die} (die : Nat) (src : RecSource) (r : RecF) (h : findDie s d = some k) :
    ∃ o, findDie (notify s die src r) d = some { k with ovf := o } := findDie_postRec _ _ _ _ h

/-- A die whose state is set has it (R400). -/
theorem findDie_setDieState {s : State} {d : Nat} {k : Die} (x : DState) (h : findDie s d = some k) :
    ∃ o, findDie (setDieState s d x) d = some { k with state := x, ovf := o } :=
  findDie_notify _ _ _ (findDie_modDie (f := fun k => { k with state := x }) h fun _ => rfl)

theorem postRec_sysOps (s : State) (q : PostQueue) (die : Nat) (src : RecSource) (ws : List DWord) : (postRec s q die src ws).sysOps = s.sysOps := by
  obtain ⟨_, _, _, _, _, _, _, _, e, -⟩ := postRec_eq s q die src ws
  rw [e]

theorem setDieState_sysOps (s : State) (d : Nat) (x : DState) : (setDieState s d x).sysOps = s.sysOps := postRec_sysOps ..

/-! ### Records posted: the cores -/

/-- Every core of a state is one of another but for the copies in its caches. -/
def CopiesOnly (s t : State) : Prop := ∀ k ∈ t.cores, ∃ k' ∈ s.cores, ∃ a b, k = { k' with l1 := a, kc := b }

theorem CopiesOnly.of_eq {s t : State} (h : t.cores = s.cores) : CopiesOnly s t := fun k hk => ⟨k, h ▸ hk, k.l1, k.kc, rfl⟩

theorem CopiesOnly.trans {s t u : State} (h : CopiesOnly s t) (h' : CopiesOnly t u) : CopiesOnly s u := fun k hk => by
  obtain ⟨_, hk', a, b, rfl⟩ := h' k hk
  obtain ⟨k'', hk'', _, _, rfl⟩ := h _ hk'
  exact ⟨k'', hk'', a, b, rfl⟩

theorem copiesOnly_stampWrites (s : State) (ks : List Nat) : CopiesOnly s (stampWrites s ks) := fun k hk => by
  obtain ⟨k', hk', rfl⟩ := List.mem_map.mp hk
  refine ⟨k', hk', ?_⟩
  split
  · exact ⟨k'.l1, k'.kc, rfl⟩
  · exact ⟨_, _, rfl⟩

theorem copiesOnly_wrCoherent (s : State) (bs : List (Nat × Byte)) : CopiesOnly s (wrCoherent s bs) := by
  obtain ⟨_, _, h⟩ := wrPlaces_eq (stampWrites s (bs.map (·.1))) none bs
  refine (copiesOnly_stampWrites s (bs.map (·.1))).trans (.of_eq ?_)
  rw [wrCoherent, h]
  rfl

theorem copiesOnly_ringPush (s : State) (pa size : Nat) (bs : List Byte) : CopiesOnly s (ringPush s pa size bs) := by
  unfold ringPush
  split
  · exact .of_eq rfl
  · exact CopiesOnly.trans (copiesOnly_wrCoherent _ _) (copiesOnly_wrCoherent _ _)

theorem copiesOnly_postRec (s : State) (q : PostQueue) (die : Nat) (src : RecSource) (ws : List DWord) : CopiesOnly s (postRec s q die src ws) := by
  unfold postRec
  dsimp only
  split
  · exact .of_eq rfl
  · split
    · exact .of_eq rfl
    · split
      · exact copiesOnly_ringPush _ _ _ _
      · exact .of_eq rfl

theorem copiesOnly_setDieState (s : State) (d : Nat) (x : DState) : CopiesOnly s (setDieState s d x) :=
  copiesOnly_postRec (modDie s d fun y => { y with state := x }) _ _ _ _

/-! ### Words corrected -/

/-- Words that an access corrects change the list of such words and the dies' counts alone (R397). -/
theorem correctPlaces_eq (s : State) (ps : List Nat) : ∃ c k, correctPlaces s ps = { s with corrWords := c, dies := k } := by
  unfold correctPlaces
  split
  · exact ⟨s.corrWords, s.dies, rfl⟩
  · rw [← List.foldl_map (f := fun w => ArrayLoc.mem (8 * w)) (g := correctWord)]
    exact LaneResults.correctWords_eq ..

theorem sysBusy_correctPlaces (s : State) (ps : List Nat) (n : Nat) : sysBusy (correctPlaces s ps) n = sysBusy s n := by
  obtain ⟨_, _, e⟩ := correctPlaces_eq s ps
  rw [e]
  rfl

end Sys2Proof.Laws
end

section
/-! SUPPORT. `dom.sw`, `route.sw`, `die.rst` and `smpcfg` (R69, R70, R92, R402, R417). -/
namespace Sys2Proof.Domains
open Sys2Proof.Machine Sys2Proof.Safety Sys2Proof.Laws

section
variable {s : State} {x : Issue} {y : XWord} {p : Partition}

/-- `dom.sw` of a good table, while nothing is in progress, switches and waits (R69). -/
theorem exec_domSw {t u : State} {a : Nat} {tab : List Nat} (ha : x.act ≠ []) (h : issueOf s (.domSw y) = some x) (hr : releaseOk (entry s x) x)
    (ht : acquireNow (released (entry s x) x) x.g.id = t) (hva : rdA t x x.lead = a) (hu : correctPlaces t (placesOf p a 4096) = u)
    (htab : (rdPa u p a 4096).map (·.toNat) = tab) (hp : groupPart t x.g = some p) (hal : a % 4096 = 0) (hdev : isDevPa p a = true)
    (hcut : runsCut t p (dieOf x.g) [(a, 4096)] = none) (hbad : badPlaces t (placesOf p a 4096) = false) (hbusy : sysBusy t p.id = false)
    (hgood : goodTable u p tab = true) :
    exec (.domSw y) s = .next (parkedDone (switchDomain u p x.g.id tab).1 x (.sys sysDom p.id (switchDomain u p x.g.id tab).2)) := by
  have hfree : sysBusy u p.id = false := by rw [← hu, sysBusy_correctPlaces, hbusy]
  refine issue_of_parkDone h ?_
  rw [groupWide_of_active ha, withRelease_of_releaseOk hr]
  simp [ht, hva, hp, hal, hdev, hcut, hbad, hu, htab, hfree, hgood]

/-- `route.sw` of a value that may be installed drains the die, then sets its ROUTE (R70). -/
theorem exec_routeSw {t : State} (ha : x.act ≠ []) (h : issueOf s (.routeSw y) = some x) (ht : drainGroup (entry s x) x.g.id = t)
    (hp : groupPart t x.g = some p) (hbusy : sysBusy t p.id = false) (hroute : badRoute t (xmod y 0 2) (rdA t x x.lead) = false) :
    exec (.routeSw y) s = .next (wideResult (modDie (drainDie t (xmod y 0 2)) (xmod y 0 2) fun k =>
      { k with route := BitVec.ofNat 32 (rdA t x x.lead) }) x 0) := by
  refine issue_of_doneWith h ?_
  rw [groupWide_of_active ha]
  simp only [ht, hp, hbusy, hroute, Bool.false_eq_true, if_false]

/-- `die.rst` of another die, while nothing is in progress, goes on to its own form (R402). -/
theorem dieRstOp_of_free {e : Die} (k : State → Die → IRes) (ha : x.act ≠ []) (hd : findDie s (rdA s x x.lead) = some e)
    (ho : rdA s x x.lead ≠ dieOf x.g) (hs : s.sysOps = []) : dieRstOp x s k = k s e := by
  rw [dieRstOp, groupWide_of_active ha]
  simp [hd, ho, hs]

/-- The number of the die that is found is the one that was sought. -/
theorem num_of_findDie {d : Nat} {e : Die} (h : findDie s d = some e) : e.num = d := by
  simpa using List.find?_some (p := fun k : Die => k.num == d) h

/-! ### `die.rst.reset` -/

/-- A core whose SRAM a reset of its die discards (R402). -/
def coreDiscarded (k : Core) : Core :=
  { k with lmem := [], lines := [], slots := List.replicate 8 slotReset, array := [], l1 := [], kc := [], growers := [] }

/-- The machine once the SRAM of a die is discarded: no error stays in it, and no translation (R402). -/
def sramDiscarded (s : State) (d : Nat) : State :=
  let kept (b : ArrayLoc) : Bool := !(match b with | .mem _ => false | _ => arrayDie s b == d)
  let t : State := { s with
    cores := s.cores.map (fun k => if coreDie k.lcore = d then coreDiscarded k else k)
    badWords := s.badWords.filter kept, corrWords := s.corrWords.filter kept
    tlb := s.tlb.filter fun t => (if t.lvl ≤ 2 then coreDie t.unit else t.unit) != d }
  modDie t d fun k => { k with tapes := [], unitsOff := [], unitsTest := [], waysTest := [], sampler := { k.sampler with table := [] } }

/-- The machine in which a die's reset is in progress on behalf of a group (R402). -/
def resetBegun (s : State) (d g : Nat) : State :=
  let t := setDieState (sramDiscarded s d) d .reset
  { t with sysOps := t.sysOps ++ [(2, d, g)] }

theorem resetBegun_sysOps (d g : Nat) (hs : s.sysOps = []) : (resetBegun s d g).sysOps = [(2, d, g)] := by
  simp [resetBegun, setDieState_sysOps, sramDiscarded, modDie, hs]

theorem findDie_resetBegun {d : Nat} {e : Die} (g : Nat) (h : findDie s d = some e) :
    ∃ k, findDie (resetBegun s d g) d = some k ∧ k.state = .reset ∧ k.tapes = [] := by
  have hd : findDie (sramDiscarded s d) d = some _ := findDie_modDie h fun _ => rfl
  obtain ⟨o, ho⟩ := findDie_setDieState .reset hd
  exact ⟨_, ho, rfl, rfl⟩

theorem cores_resetBegun (d g : Nat) {k : Core} (hk : k ∈ (resetBegun s d g).cores) (hd : coreDie k.lcore = d) :
    k.lmem = [] ∧ k.array = [] ∧ k.slots = List.replicate 8 slotReset := by
  obtain ⟨k', hk', _, _, rfl⟩ := copiesOnly_setDieState _ _ _ k hk
  obtain ⟨k'', -, rfl⟩ := List.mem_map.mp hk'
  by_cases hc : coreDie k''.lcore = d
  · rw [if_pos hc]; exact ⟨rfl, rfl, rfl⟩
  · rw [if_neg hc] at hd; exact absurd hd hc

/-- `die.rst.reset` of a die in FROST or FAILED begins its reset, and the group waits (R402). -/
theorem exec_dieRstReset {e : Die} (ha : x.act ≠ []) (hd : findDie (entry s x) (rdA (entry s x) x x.lead) = some e)
    (ho : rdA (entry s x) x x.lead ≠ dieOf x.g) (hs : s.sysOps = []) (h : issueOf s (.dieRstReset y) = some x)
    (he : e.state = .frost ∨ e.state = .failed) :
    exec (.dieRstReset y) s = .next (parkedDone (resetBegun (entry s x) e.num x.g.id) x (.sys sysRst e.num 0)) := by
  refine issue_of_parkDone h ?_
  dsimp only
  rw [dieRstOp_of_free _ ha hd ho hs]
  rcases he with he | he <;> simp only [he] <;> rfl

/-- `die.rst.frost` of a die in SERVICE that nothing uses begins to freeze it, and the group waits (R402). -/
theorem exec_dieRstFrost {e : Die} (ha : x.act ≠ []) (hd : findDie (entry s x) (rdA (entry s x) x x.lead) = some e)
    (ho : rdA (entry s x) x x.lead ≠ dieOf x.g) (hs : s.sysOps = []) (h : issueOf s (.dieRstFrost y) = some x) (he : e.state = .service)
    (hu : dieInUse (entry s x) e.num = false) :
    let f := setDieState (entry s x) e.num .freezing
    let u := if (xmod y 2 1 == 1) = true then f else f.dispatches.foldl (fun s d => requestSave s d.id (.die e.num)) f
    exec (.dieRstFrost y) s = .next (parkedDone { u with sysOps := u.sysOps ++ [(2, e.num, x.g.id)] } x (.sys sysRst e.num 0)) := by
  refine issue_of_parkDone h ?_
  dsimp only
  rw [dieRstOp_of_free _ ha hd ho hs]
  simp only [he, hu, Bool.false_eq_true, if_false]
  rfl

/-- `die.rst.thaw` of a die in FROST with both links up puts it into SERVICE (R402). -/
theorem exec_dieRstThaw {e : Die} (ha : x.act ≠ []) (hd : findDie (entry s x) (rdA (entry s x) x x.lead) = some e)
    (ho : rdA (entry s x) x x.lead ≠ dieOf x.g) (hs : s.sysOps = []) (h : issueOf s (.dieRstThaw y) = some x) (he : e.state = .frost)
    (hup : linkUp (entry s x) e.num true = true) (hdn : linkUp (entry s x) e.num false = true) :
    exec (.dieRstThaw y) s = .next (wideResult (setDieState (entry s x) e.num .service) x 0) :=
  issue_of_doneWith h ((dieRstOp_of_free _ ha hd ho hs).trans (if_pos ⟨he, hup, hdn⟩))

/-! ### `smpcfg` -/

/-- Each form of `smpcfg` runs in the frame of all with the operands that it refuses and its effect (R92). -/
theorem exec_smpcfg {i : Instr} {bad : Nat → Nat → Bool} {f : Nat → Nat → Nat → State → Nat × State} (h : smpcfgRule i = some (y, bad, f)) (s : State) :
    exec i s = issue i s fun x s => smpcfgOp x s y bad f := by
  unfold smpcfgRule at h
  split at h <;> cases h
  case h_5 =>
    refine (show exec (.smpcfgStat y) s = issue (.smpcfgStat y) s _ from rfl).trans ?_
    refine congrArg _ (funext fun x => funext fun t => congrArg (smpcfgOp x t y _) (funext fun d => funext fun _ => funext fun b => funext fun u => ?_))
    match b with
    | 0 => rfl
    | 1 => rfl
    | n + 2 => rfl
  all_goals rfl

theorem smpcfgOp_done {bad : Nat → Nat → Bool} {f : Nat → Nat → Nat → State → Nat × State} (ha : x.act ≠ [])
    (hr : diesReach s (dieOf x.g) (xmod y 3 2) 0 = true) (hu : unitHeld s (xmod y 3 2) .sampler = false)
    (hb : bad (rdA s x x.lead) (rdB s x x.lead) = false) :
    smpcfgOp x s y bad f =
      doneWith (f (xmod y 3 2) (rdA s x x.lead) (rdB s x x.lead) s).2 x (f (xmod y 3 2) (rdA s x x.lead) (rdB s x x.lead) s).1 := by
  rw [smpcfgOp, groupWide_of_active ha]
  simp only [hr, hu, hb, Bool.not_true, Bool.false_eq_true, if_false]

theorem smpcfgOp_lost {bad : Nat → Nat → Bool} {f : Nat → Nat → Nat → State → Nat × State} (ha : x.act ≠ [])
    (hr : diesReach s (dieOf x.g) (xmod y 3 2) 0 = false) : smpcfgOp x s y bad f = .trap s { kind := kREMERR, mask := x.act } := by
  rw [smpcfgOp, groupWide_of_active ha]
  simp only [hr, Bool.not_false, if_true]

end

end Sys2Proof.Domains

open Sys2Proof.Machine Sys2Proof.Safety Sys2Proof.Laws Sys2Proof.Domains

/-- Settles O48: each instruction's own effect, once its frame has passed; a reset's record of its start changes no core but for cached copies. -/
theorem domainsRoutesDies : Obligations.DomainsRoutesDies := by
  refine ⟨fun s y x p ha => ⟨fun h hr => ?_, fun h => exec_routeSw ha h rfl⟩,
    fun s y x e ha hd ho hs => ⟨fun h he hu => ?_, fun h he => ?_, fun h he hup hdn => ?_⟩,
    fun s i x y bad f hi h ha => ⟨fun hr hu hb => ?_, fun hr hf => ?_⟩⟩
  · exact exec_domSw ha h hr rfl rfl rfl rfl
  · exact exec_dieRstFrost ha hd ho hs h he hu
  · have hd' := num_of_findDie hd ▸ hd
    exact ⟨_, exec_dieRstReset ha hd ho hs h he, resetBegun_sysOps _ _ hs, findDie_resetBegun x.g.id hd', fun _ hk => cores_resetBegun _ x.g.id hk⟩
  · exact exec_dieRstThaw ha hd ho hs h he hup hdn
  · exact (exec_smpcfg hi s).trans (issue_of_doneWith h (smpcfgOp_done ha hr hu hb))
  · exact (exec_smpcfg hi s).trans (issue_of_trap h hf (smpcfgOp_lost ha hr))
end

section
/-! SUPPORT. Steps of accesses in flight: what reaches a slice, what returns, and stores that are registered (R65, R137 to R139, R302, R310, R419). -/
namespace Sys2Proof.Accesses
open Sys2Proof.Machine Sys2Proof.Safety Sys2Proof.Laws

section
variable {s : State} {g : Group} {p : Partition}

/-! ### Accesses at their slices -/

section
variable {f : Flight} (hg : findGroup s g.id = some g) (hp : groupPart s g = some p)
  (hf : g.flights.find? (fun h => h.seq == f.seq && !flightDone h) = some f)
include hg hp hf

/-- A flight with an access whose home has moved is redirected (R65). -/
theorem sliceAccess_of_moved (hm : (flightLeft f).any (fun a => moved p a.pa a.home) = true) :
    sliceAccess s g.id f.seq = countRedirect (modFlight s g.id f.seq (rehome p)) (dieOf g) := by
  simp only [sliceAccess, hg, hp, hf, hm, if_true]

/-- A flight that stands at its homes has a lane performed, where one is free (R137, R302). -/
theorem sliceAccess_of_home (hm : (flightLeft f).any (fun a => moved p a.pa a.home) = false) :
    sliceAccess s g.id f.seq = if freeLanes s g p f = [] then s else performNext s g p f := by
  simp only [sliceAccess, hg, hp, hf, hm, Bool.false_eq_true, if_false, List.isEmpty_iff]

end

/-- Requests that a sweep holds are served once their sweeps are over (R65). -/
theorem exec_sweepWaitRelease {seq : Nat} {pas : List Nat} (hg : findGroup s g.id = some g) (hp : groupPart s g = some p)
    (hpas : (g.flights.filter fun h => h.seq == seq).flatMap (fun h => (flightLeft h).map (·.pa)) ++
      (g.stores.filter fun w => w.seq == seq).map (·.pa) = pas) (h : pas.any (swept s p) = true) :
    exec (.sweepWaitRelease g.id seq) s = .next (storeAck (sliceAccess (settleSlots s p pas) g.id seq) g.id seq false) := by
  change execSweepWaitRelease g.id seq s = _
  simp only [execSweepWaitRelease, event, hg, hp, hpas, h, Bool.not_true, Bool.false_eq_true, if_false]

/-- A group whose wait is over goes on, where it waits for no instruction of the system and no replay (R334). -/
theorem exec_parkedAccessResume (hg : findGroup s g.id = some g) (hs : g.state = .park) (hsys : ∀ w a v, g.wait ≠ .sys w a v)
    (htape : ∀ h b, g.wait ≠ .tape h b) (hw : waitMet s g = true) :
    exec (.parkedAccessResume g.id) s = .next (modGroup s g.id unparkGroup) := by
  have hr : resumable s g = true := by
    unfold resumable
    split
    · exact absurd ‹_› (hsys _ _ _)
    · exact absurd ‹_› (htape _ _)
    · simp [hs, hw]
  have hres : resumeParked s g = modGroup s g.id unparkGroup := by
    unfold resumeParked
    split
    · exact absurd ‹_› (hsys _ _ _)
    · exact absurd ‹_› (htape _ _)
    · rfl
  change execParkedAccessResume g.id s = _
  simp only [execParkedAccessResume, event, hg, hr, hres, if_true]

/-! ### Loads and atomics that return -/

/-- The lanes whose request had an error reply, of a flight that returns (R419). -/
def lostLanesOf (f : Flight) (err : DWord) : List Nat :=
  ((f.lanes.map (·.lane)) ++ f.got.map (·.1) ++ f.rem).eraseDups.filter fun l => f.rem.contains l || err.getLsbD l

/-- A group without a flight. -/
def withoutFlight (g : Group) (seq : Nat) : Group := { g with flights := g.flights.filter fun h => h.seq != seq }

theorem setTag_core (g : Group) (l : Nat) (o : Opnd) (words n : Nat) : (setTag g l o words n).core = g.core := by
  unfold setTag
  split
  · exact List.foldlRecOn (motive := fun h : Group => h.core = g.core) _ _ rfl fun _ h _ _ => h
  · exact List.foldlRecOn (motive := fun h : Group => h.core = g.core) _ _ rfl fun _ h _ _ => h
  · rfl

/-- The times of reads leave a group on its core. -/
theorem setTags_core (g : Group) (o : Opnd) (words : Nat) (ts : List (Nat × Nat)) : (setTags g o words ts).core = g.core := by
  unfold setTags
  split
  · split
    · rfl
    · exact setTag_core ..
  · exact List.foldlRecOn (motive := fun h : Group => h.core = g.core) _ _ rfl fun _ h _ _ => (setTag_core ..).trans h

/-- What a flight writes leaves its group on its core. -/
theorem writeFlight_core (g : Group) (f : Flight) (o : Opnd) : (writeFlight g f o).core = g.core := by
  rw [writeFlight, setTags_core, writeDst_eq]

/-- The copies that an acquire drops from its core's L1 (R308). -/
def acquired (t : State) (g : Group) (f : Flight) : State := if flightAcq f then invalidateL1 t g.core else t

section
variable {f : Flight} {err : DWord} (hg : findGroup s g.id = some g) (hf : g.flights.find? (fun h => h.seq == f.seq) = some f)
include hg hf

/-- Either reply to its kind of flight returns it. -/
theorem exec_reply {i : Instr} (hi : i = .loadReply g.id f.seq err ∧ isAtomFlight f = false ∨ i = .atomicReturn g.id f.seq err ∧ isAtomFlight f = true) :
    exec i s = .next (returnFlight s g.id f.seq err) := by
  have hmem := List.mem_of_find?_eq_some hf
  rcases hi with ⟨rfl, ha⟩ | ⟨rfl, ha⟩
  · have hany : g.flights.any (fun h => h.seq == f.seq && !isAtomFlight h) = true := List.any_eq_true.mpr ⟨f, hmem, by simp [ha]⟩
    change execLoadReply g.id f.seq err s = _
    simp [execLoadReply, event, hg, hany]
  · have hany : g.flights.any (fun h => h.seq == f.seq && isAtomFlight h) = true := List.any_eq_true.mpr ⟨f, hmem, by simp [ha]⟩
    change execAtomicReturn g.id f.seq err s = _
    simp [execAtomicReturn, event, hg, hany]

/-- A flight without an error writes its destination (R137, R302). -/
theorem returnFlight_of_good {o : Opnd} (hd : flightDone f = true) (hl : lostLanesOf f err = []) (hb : f.bad = []) (ho : f.dst = some o) :
    returnFlight s g.id f.seq err = acquired (setGroup s (writeFlight (withoutFlight g f.seq) f o)) g f := by
  unfold lostLanesOf at hl
  simp only [returnFlight, hg, hf, hd, hl, hb, ho, Bool.not_true, Bool.false_eq_true, if_false, and_self, if_true, acquired,
    writeFlight_core, withoutFlight]

/-- A flight with an error leaves it for the group's next instruction (R419). -/
theorem returnFlight_of_bad (hd : flightDone f = true) (h : lostLanesOf f err ≠ [] ∨ f.bad ≠ []) :
    returnFlight s g.id f.seq err =
      acquired (setGroup s { withoutFlight g f.seq with lateErrs := g.lateErrs ++ [lateErrOf f (lostLanesOf f err)] }) g f := by
  have hn : ¬ (lostLanesOf f err = [] ∧ f.bad = []) := by tauto
  unfold lostLanesOf at hn
  simp only [returnFlight, hg, hf, hd, Bool.not_true, Bool.false_eq_true, if_false, hn]
  rfl

end

/-! ### Stores -/

/-- The machine once a store has left its group. -/
def withoutStore (s : State) (gid seq : Nat) : State := modGroup s gid fun g => { g with stores := g.stores.filter fun u => u.seq != seq }

/-- The places of a store's bytes. -/
def storeRun (w : PendStore) : List Nat := (List.range w.size).map (w.place + ·)

/-- A store that its home does not answer or that no path reaches, and that no passed `fence.rel` vouches for (R139, R309). -/
def storeLost (t : State) (g : Group) (p : Partition) (w : PendStore) (err : Bool) : Bool :=
  decide (g.relFence ≤ w.seq) && (err || !reachable t p (dieOf g) w.pa)

/-- A `red` that meets an uncorrectable word (R397). -/
def redBad (t : State) (w : PendStore) : Bool := w.red.isSome && badPlaces t (storeRun w)

section
variable {w : PendStore} {err : Bool} (hg : findGroup s g.id = some g) (hp : groupPart s g = some p)
  (hw : g.stores.find? (fun u => u.seq == w.seq) = some w)
include hg hp hw

/-- A store that stands at its home with nothing before it is registered (R310). -/
theorem storeAck_of_free (hm : moved p w.pa w.home = false) (hb : storeBlocked (ordMode s g) g w = false) (hs : swept s p w.pa = false) :
    storeAck s g.id w.seq err = registerStore s g.id w.seq err := by
  simp only [storeAck, hg, hp, hw, hm, hb, hs, Bool.or_self, Bool.false_eq_true, if_false]

/-- A registration, by whether the store failed. -/
theorem registerStore_eq :
    registerStore s g.id w.seq err =
      (let t := withoutStore s g.id w.seq
       if storeLost t g p w err || redBad t w then
         let u := if redBad t w then countUncorr t (dieOf g) (memLocs (storeRun w)) else t
         if g.state = .exit ∨ g.state = .retired then
           notify u (dieOf g) (.group g.id)
             { kind := evStoreErr, acc := 2, asid := ((dispOf u g).map dispAsid).getD 0, daddr := w.va, team := g.teamid, disp := g.disp }
         else modGroup u g.id fun g => { g with storeErr := some (g.storeErr.getD w.va) }
       else
         let u := countTraffic t p (dieOf g) w.pa
         match w.red with
         | none => touchRead (storePlaces u g.core w.bytes) g.id
         | some (o, ty, b, c) => (performAtom u g.id g.core w.place o ty b.toNat c.toNat).2) := by
  have hsure : (!decide (w.seq < g.relFence)) = decide (g.relFence ≤ w.seq) := by rw [← decide_not]; simp only [Nat.not_lt]
  simp only [registerStore, hg, hp, hw, hsure]
  rfl

theorem registerStore_of_store (hl : storeLost (withoutStore s g.id w.seq) g p w err = false) (hr : w.red = none) :
    registerStore s g.id w.seq err = touchRead (storePlaces (countTraffic (withoutStore s g.id w.seq) p (dieOf g) w.pa) g.core w.bytes) g.id := by
  simp only [registerStore_eq hg hp hw, hl, redBad, hr, Option.isSome_none, Bool.false_and, Bool.or_self, Bool.false_eq_true, if_false]

theorem registerStore_of_red {o : AtomOp} {ty : AtomTy} {b c : DWord} (hl : storeLost (withoutStore s g.id w.seq) g p w err = false)
    (hb : redBad (withoutStore s g.id w.seq) w = false) (hr : w.red = some (o, ty, b, c)) :
    registerStore s g.id w.seq err =
      (performAtom (countTraffic (withoutStore s g.id w.seq) p (dieOf g) w.pa) g.id g.core w.place o ty b.toNat c.toNat).2 := by
  simp only [registerStore_eq hg hp hw, hl, hb, hr, Bool.or_self, Bool.false_eq_true, if_false]

/-- A store that failed leaves its group the error (R139). -/
theorem registerStore_of_failed
    (h : storeLost (withoutStore s g.id w.seq) g p w err = true ∨ redBad (withoutStore s g.id w.seq) w = true)
    (he : g.state ≠ .exit) (hr : g.state ≠ .retired) :
    registerStore s g.id w.seq err =
      modGroup (if redBad (withoutStore s g.id w.seq) w then countUncorr (withoutStore s g.id w.seq) (dieOf g) (memLocs (storeRun w))
        else withoutStore s g.id w.seq) g.id fun g => { g with storeErr := some (g.storeErr.getD w.va) } := by
  have hor : (storeLost (withoutStore s g.id w.seq) g p w err || redBad (withoutStore s g.id w.seq) w) = true := by simpa using h
  simp only [registerStore_eq hg hp hw, hor, he, hr, or_self, if_true, if_false]

end
end

end Sys2Proof.Accesses

open Sys2Proof.Machine Sys2Proof.Safety Sys2Proof.Laws Sys2Proof.Accesses

/-- Settles O51: a flight at its slice, a flight that returns, a store that is registered, each by what it meets. -/
theorem accessSteps : Obligations.AccessSteps := by
  refine ⟨fun s g p f hg hp => ⟨fun hf => ⟨fun hm => ?_, fun hm => ?_⟩, fun seq => exec_sweepWaitRelease hg hp rfl, fun hs hsys htape hw => ?_⟩,
    fun s g f i err hg hf hd hi => ⟨fun hl hb o ho => ?_, fun h => ?_⟩, fun s g p w err hg hp hw hm hb hs => ?_⟩
  · exact congrArg _ (sliceAccess_of_moved hg hp hf hm)
  · exact congrArg _ (sliceAccess_of_home hg hp hf hm)
  · exact exec_parkedAccessResume hg hs hsys htape hw
  · exact (exec_reply hg hf hi).trans (congrArg _ (returnFlight_of_good hg hf hd hl hb ho))
  · exact (exec_reply hg hf hi).trans (congrArg _ (returnFlight_of_bad hg hf hd h))
  · have hack : exec (.storeRegistrationAck g.id w.seq err) s = .next (registerStore s g.id w.seq err) :=
      congrArg _ (storeAck_of_free hg hp hw hm hb hs)
    exact ⟨fun hl hr => hack.trans (congrArg _ (registerStore_of_store hg hp hw hl hr)),
      fun o ty b c hl hbad hr => hack.trans (congrArg _ (registerStore_of_red hg hp hw hl hbad hr)),
      fun h he hr => hack.trans (congrArg _ (registerStore_of_failed hg hp hw h he hr))⟩
end

section
/-! SUPPORT. Steps of window lines, samplers, links, L1 copies and the scrubber (R52, R90, R91, R100, R311, R397, R398). -/
namespace Sys2Proof.MemorySide
open Sys2Proof.Machine Sys2Proof.Safety Sys2Proof.Laws

/-! ### Modules of a link (R52) -/

section
variable {s : State} {d m : Nat} {e : Edge} {x : Module}

/-- The modules of an edge of a die. -/
def edgeOf (k : Die) (e : Edge) : List Module := match e with | .a => k.edgeA | .b => k.edgeB

theorem moduleOf_some_iff : moduleOf s d e m = some x ↔ ∃ k, findDie s d = some k ∧ (edgeOf k e)[m]? = some x := by
  simp only [moduleOf, Option.bind_eq_some_iff]
  rfl

/-- An element changed at its place is found changed. -/
theorem getElem?_updAt {α : Type} {l : List α} {i : Nat} {a : α} (f : α → α) (h : l[i]? = some a) : (updAt i f l)[i]? = some (f a) := by
  simp [updAt, List.getElem?_mapIdx, h]

/-- A module changed is found changed. -/
theorem moduleOf_modModule (f : Module → Module) (h : moduleOf s d e m = some x) : moduleOf (modModule s d e m f) d e m = some (f x) := by
  obtain ⟨k, hk, hx⟩ := moduleOf_some_iff.mp h
  refine moduleOf_some_iff.mpr ⟨_, findDie_modDie hk fun k => by cases e <;> rfl, ?_⟩
  cases e <;> exact getElem?_updAt f hx

/-- A record that is posted or held leaves the modules as they are. -/
theorem moduleOf_notify (die : Nat) (src : RecSource) (r : RecF) (h : moduleOf s d e m = some x) : moduleOf (notify s die src r) d e m = some x := by
  obtain ⟨k, hk, hx⟩ := moduleOf_some_iff.mp h
  obtain ⟨o, ho⟩ := findDie_notify die src r hk
  exact moduleOf_some_iff.mpr ⟨_, ho, by cases e <;> exact hx⟩

/-- A resend of a working module counts its failure, and the sixteenth in a row starts its retraining. -/
theorem exec_flitCrcResend (ok : Bool) (h : moduleOf s d e m = some x) (hr : x.retraining = false) (hd : x.disabled = false) :
    ∃ t, exec (.flitCrcResend d e m ok) s = .next t ∧ moduleOf t d e m = some (
      if ok then { x with fails := 0 } else if x.fails + 1 < 16 then { x with fails := x.fails + 1 } else { x with fails := 0, retraining := true }) := by
  refine ⟨_, rfl, (moduleOf_modModule _ h).trans ?_⟩
  simp [hr, hd]

theorem exec_moduleRetrain (h : moduleOf s d e m = some x) (hd : x.disabled = false) :
    ∃ t, exec (.moduleRetrain d e m true) s = .next t ∧ moduleOf t d e m = some { x with retraining := false, fails := 0 } := by
  refine ⟨_, rfl, (moduleOf_modModule _ h).trans ?_⟩
  simp [hd]

theorem exec_moduleDisable (h : moduleOf s d e m = some x) (hr : x.retraining = true) (hd : x.disabled = false) :
    ∃ t, exec (.moduleDisable d e m) s = .next t ∧ moduleOf t d e m = some { x with retraining := false, disabled := true } := by
  have hc : ((moduleOf s d e m).map fun m => m.retraining && !m.disabled).getD false = true := by simp [h, hr, hd]
  change ∃ t, execModuleDisable d e m s = _ ∧ _
  rw [execModuleDisable.eq_def, event, if_pos hc]
  exact ⟨_, rfl, moduleOf_notify _ _ _ (moduleOf_modModule _ h)⟩

end

/-! ### Windows and samplers (R90, R91, R100) -/

section
variable {s u : State}

/-- A dirty window line that can be written back is. -/
theorem exec_windowEviction {c l : Nat} {t : Team} {w : Window} (hl : (getLine s c l).win = 3) (hw : windowAt s c (128 * l) = some (t, w))
    (hb : writeBackWindow s t w l = .ok u) : exec (.windowEviction c l) s = .next u := by
  change execWindowEviction c l s = _
  simp [execWindowEviction, event, hl, hw, hb]

variable {d : Die} {a : SampledAccess}

/-- The sampler works: it is on, and its unit is neither disabled nor under test (R90, R399). -/
def SamplerOn (d : Die) : Prop := d.sampler.log2n ≠ 0 ∧ d.unitsOff.contains 6 = false ∧ d.unitsTest.contains 6 = false

theorem samplerOn_iff : (decide (d.sampler.log2n = 0) || d.unitsOff.contains 6 || d.unitsTest.contains 6) = false ↔ SamplerOn d := by
  simp [SamplerOn, and_assoc]

/-- An access before the N-th is counted. -/
theorem sampleAccess_of_counted (hd : findDie s d.num = some d) (hon : SamplerOn d) (hc : d.sampler.counter + 1 < 2 ^ d.sampler.log2n) :
    sampleAccess s d.num a = modSampler s d.num fun p => { p with counter := p.counter + 1 } := by
  have := samplerOn_iff.mpr hon
  simp only [sampleAccess, hd, this, Bool.false_eq_true, if_false, hc, if_true]

/-- A die's sampler once its N-th access has been written to its ring, or counted as lost. -/
def sampleKept (s : State) (d : Die) (a : SampledAccess) : State :=
  let t := modSampler s d.num fun p => { p with counter := 0 }
  let lost := modSampler t d.num fun p => { p with smplost := min 0xFFFFFFFF (p.smplost + 1) }
  match d.sampler.ring with
  | some pa => if ringRoom t d.num pa then ringPush t pa 32 (sampleRec d.num a t.clk) else lost
  | none => lost

/-- The N-th access is sampled, and counts in the hot-page table where HOT is set. -/
theorem sampleAccess_of_sampled (hd : findDie s d.num = some d) (hon : SamplerOn d) (hc : 2 ^ d.sampler.log2n ≤ d.sampler.counter + 1) :
    sampleAccess s d.num a = if d.sampler.hot then hotUpdate (sampleKept s d a) d.num a else sampleKept s d a := by
  have hoff := samplerOn_iff.mpr hon
  simp only [sampleAccess, hd, hoff, Bool.false_eq_true, if_false, Nat.not_lt.mpr hc]
  rfl

/-- The pending notification of the lowest index is posted where its queue has room. -/
theorem hotPost_of_room {i pa : Nat} {h : HotPage} (hd : findDie s d.num = some d)
    (hf : (d.sampler.table.filterMap fun e => e.2.map fun h => (e.1, h)).find? (fun e => e.2.pending) = some (i, h))
    (hn : d.sampler.notify = some pa) (hr : ringRoom s d.num pa = true) :
    hotPost s d.num = ringPush (modSampler s d.num fun p =>
      { p with table := Sparse.put none p.table i (some { h with queued := true, pending := false }) }) pa 16 (hotNote i h) := by
  simp only [hotPost, hd, hf, hn, hr, if_true]

end

/-! ### L1 copies and the scrubber (R311, R397, R398) -/

section
variable {s : State}

/-- Every core of a state whose cores of one number change is found as it was or changed. -/
theorem findCore_modCore_eq (s : State) (c n : Nat) {f : Core → Core} (hf : ∀ k, (f k).lcore = k.lcore) :
    findCore (modCore s c f) n = (findCore s n).map fun k => if k.lcore = c then f k else k := by
  have hp : ((fun k : Core => k.lcore == n) ∘ fun k => if k.lcore = c then f k else k) = fun k => k.lcore == n := by
    funext k
    by_cases h : k.lcore = c <;> simp [h, hf]
  simp only [findCore, modCore, List.find?_map, hp]

/-- Cores that keep their local memory keep every byte of memory. -/
theorem memorySame_modCore (s : State) (c : Nat) {f : Core → Core} (hf : ∀ k, (f k).lcore = k.lcore) (hm : ∀ k, (f k).lmem = k.lmem) :
    MemorySame s (modCore s c f) := by
  refine ⟨fun _ => rfl, fun n o => ?_⟩
  simp only [rdLocal, findCore_modCore_eq s c n hf]
  cases findCore s n with
  | none => rfl
  | some k => by_cases h : k.lcore = c <;> simp [h, hm]

/-- An unowned copy leaves the L1 of its core, and memory stays. -/
theorem exec_l1Eviction {c : Nat} {k : Core} (pa : Nat) (hc : c < 176) (h : findCore s c = some k) :
    ∃ t, exec (.l1Eviction c pa) s = .next t ∧ MemorySame s t ∧ findCore t c = some { k with l1 := k.l1.filter fun e => e.1 / 128 != pa / 128 } := by
  change ∃ t, execL1Eviction c pa s = _ ∧ _
  rw [execL1Eviction, event, if_pos hc]
  exact ⟨_, rfl, memorySame_modCore s c (fun _ => rfl) fun _ => rfl, findCore_modCore h fun _ => rfl⟩

/-- A correctable word that the scrubber reads is corrected, and memory stays. -/
theorem exec_scrubberPass_of_correctable {a : ArrayLoc} (hc : a ∈ s.corrWords) (hb : a ∉ s.badWords) :
    ∃ t, exec (.scrubberPass a) s = .next t ∧ MemorySame s t ∧ t.corrWords = s.corrWords.filter (· != a) ∧ t.badWords = s.badWords := by
  change ∃ t, execScrubberPass a s = _ ∧ _
  rw [execScrubberPass, event, if_neg (by simpa using hb), correctWord, if_pos (by simpa using hc)]
  exact ⟨_, rfl, ⟨fun _ => rfl, fun _ _ => rfl⟩, rfl, rfl⟩

/-- An uncorrectable word that the scrubber reads is counted. -/
theorem exec_scrubberPass_of_bad {a : ArrayLoc} (hb : a ∈ s.badWords) :
    exec (.scrubberPass a) s = .next (countUncorr s (arrayDie s a) [a]) := by
  change execScrubberPass a s = _
  rw [execScrubberPass, event, if_pos (by simpa using hb)]

end

end Sys2Proof.MemorySide

open Sys2Proof.Machine Sys2Proof.Safety Sys2Proof.Laws Sys2Proof.MemorySide

/-- Settles O52: each agent's step by the state of the line, sampler, module, copy or word that it acts on. -/
theorem memorySideSteps : Obligations.MemorySideSteps := by
  refine ⟨fun s u c l t w hl hw hb => exec_windowEviction hl hw hb, fun s a d hd h0 hoff htest => ?_, fun s d i h pa hd hf hn hr => ?_,
    fun s d m e ok x h hr hd => exec_flitCrcResend ok h hr hd, fun s d m e x h hr hd => ?_, fun s c pa k hc h => exec_l1Eviction pa hc h,
    fun s a hc hb => exec_scrubberPass_of_correctable hc hb, fun s a hb => exec_scrubberPass_of_bad hb⟩
  · exact ⟨fun hc => congrArg _ (sampleAccess_of_counted hd ⟨h0, hoff, htest⟩ hc),
      fun hc => congrArg _ (sampleAccess_of_sampled hd ⟨h0, hoff, htest⟩ hc)⟩
  · exact congrArg _ (hotPost_of_room hd hf hn hr)
  · exact ⟨exec_moduleRetrain h hd, exec_moduleDisable h hr hd⟩
end

section
/-! SUPPORT. Operand addresses of loads and stores: the first error in the order of R136, and the trap that it makes (R72, R74, R135, R136). -/
namespace Sys2Proof.AddressTraps
open Sys2Proof.Machine Sys2Proof.Safety Sys2Proof.Laws

/-! ### The first error of several lanes (R136) -/

/-- The step by which `firstErr` goes over the errors: an error of a lower rank replaces the one held. -/
def lowerErr (m : Option (Nat × LaneErr)) (e : Nat × LaneErr) : Option (Nat × LaneErr) :=
  match m with
  | none => some e
  | some b => if errRank e.2.kind < errRank b.2.kind then some e else some b

theorem firstErr_eq (es : List (Nat × LaneErr)) :
    firstErr es = (es.foldl lowerErr none).map fun e => (e.2, (es.filter fun x => x.2.kind == e.2.kind).map (·.1)) := by
  have h : firstErr es = match es.foldl lowerErr none with
    | none => none
    | some e => some (e.2, (es.filter fun x => x.2.kind == e.2.kind).map (·.1)) := rfl
  rw [h]
  cases es.foldl lowerErr none <;> rfl

/-- An error of the lowest rank, once held, stays. -/
theorem foldl_lowerErr_some {es : List (Nat × LaneErr)} {b : Nat × LaneErr} (h : ∀ e ∈ es, errRank b.2.kind ≤ errRank e.2.kind) :
    es.foldl lowerErr (some b) = some b := by
  induction es with
  | nil => rfl
  | cons e es ih =>
    have he : lowerErr (some b) e = some b := if_neg (Nat.not_lt.mpr (h e (by simp)))
    rw [List.foldl_cons, he]
    exact ih fun e he => h e (by simp [he])

/-- Of errors among which one kind precedes every other, the first of that kind is found. -/
theorem foldl_lowerErr_find {k : Nat} {es : List (Nat × LaneErr)} {e : Nat × LaneErr} (m : Option (Nat × LaneErr))
    (hf : es.find? (fun e => e.2.kind == k) = some e) (hk : ∀ e ∈ es, e.2.kind ≠ k → errRank k < errRank e.2.kind)
    (hm : ∀ b, m = some b → errRank k < errRank b.2.kind) : es.foldl lowerErr m = some e := by
  induction es generalizing m with
  | nil => cases hf
  | cons a es ih =>
    rw [List.foldl_cons]
    by_cases ha : a.2.kind = k
    · obtain rfl : a = e := by simpa [List.find?_cons, ha] using hf
      have hl : lowerErr m a = some a := by
        cases m with
        | none => rfl
        | some b => exact if_pos (ha ▸ hm b rfl)
      rw [hl]
      refine foldl_lowerErr_some fun e he => ?_
      by_cases h : e.2.kind = k
      · rw [h, ha]
      · exact ha ▸ (hk e (by simp [he]) h).le
    · have hn := hk a (by simp) ha
      refine ih _ (by simpa [List.find?_cons, ha] using hf) (fun e he => hk e (by simp [he])) fun b hb => ?_
      cases m with
      | none => cases hb; exact hn
      | some c =>
        simp only [lowerErr] at hb
        split at hb <;> cases hb
        · exact hn
        · exact hm _ rfl

/-- The error reported is the first of the kind that precedes every other, with the lanes that raised that kind. -/
theorem firstErr_of_kind {k : Nat} {es : List (Nat × LaneErr)} {e : Nat × LaneErr} (hf : es.find? (fun e => e.2.kind == k) = some e)
    (hk : ∀ e ∈ es, e.2.kind ≠ k → errRank k < errRank e.2.kind) :
    firstErr es = some (e.2, (es.filter fun e => e.2.kind == k).map (·.1)) := by
  have hek : e.2.kind = k := by simpa using List.find?_some hf
  rw [firstErr_eq, foldl_lowerErr_find none hf hk (by simp), Option.map_some, hek]

/-! ### The errors of operand addresses -/

section
variable {s : State} {x : Issue} {sp : Space} {n acc k : Nat} {as : List (Nat × Nat)}

/-- The error of one lane's operand address, if it has one. -/
def addrErr (s : State) (g : Group) (sp : Space) (n : Nat) (e : Nat × Nat) : Option (Nat × LaneErr) :=
  match addrCheck s g sp n n e.2 with
  | .error r => some (e.1, r)
  | .ok _ => none

theorem addrErr_of_misaligned (g : Group) {e : Nat × Nat} (h : e.2 % n ≠ 0) : addrErr s g sp n e = some (e.1, ⟨kALIGN, 0, e.2⟩) := by
  simp [addrErr, addrCheck, h]

theorem addrErr_of_outside {g : Group} {e : Nat × Nat} (h : e.2 % n = 0) (hr : resolve s g sp e.2 n = none) :
    addrErr s g sp n e = some (e.1, ⟨kSEG, 0, e.2⟩) := by
  simp [addrErr, addrCheck, h, hr]

/-- An aligned access inside its space can be refused for its lease alone (R82, R136). -/
theorem addrErr_of_inside {g : Group} {e : Nat × Nat} {t : Target} {r : Nat × LaneErr} (h : e.2 % n = 0) (hr : resolve s g sp e.2 n = some t)
    (he : addrErr s g sp n e = some r) : r.2.kind = kLEASE := by
  simp only [addrErr, addrCheck, h, hr] at he
  cases t with
  | loc c o => simp at he
  | glob va =>
    cases hd : dispOf s g with
    | none => simp [hd] at he
    | some d =>
      simp only [hd] at he
      by_cases hl : sp = .c ∨ inLease d va n = true
      · simp [hl] at he
      · simp [hl] at he; simp [← he]

/-- The errors of one kind are those of the lanes that a condition on the address selects. -/
theorem filter_addrErr {q : Nat → Bool} (hq : ∀ e ∈ as, q e.2 = true → addrErr s x.g sp n e = some (e.1, ⟨k, 0, e.2⟩))
    (hn : ∀ e ∈ as, q e.2 = false → ∀ r, addrErr s x.g sp n e = some r → errRank k < errRank r.2.kind) :
    (as.filterMap (addrErr s x.g sp n)).filter (fun r => r.2.kind == k) = (as.filter fun e => q e.2).map fun e => (e.1, ⟨k, 0, e.2⟩) := by
  induction as with
  | nil => rfl
  | cons e as ih =>
    have ih := ih (fun e he => hq e (by simp [he])) fun e he => hn e (by simp [he])
    by_cases h : q e.2 = true
    · simp [hq e (by simp) h, h, ih]
    · have h' : q e.2 = false := by simpa using h
      cases he : addrErr s x.g sp n e with
      | none => simp [he, h', ih]
      | some r =>
        have hr : r.2.kind ≠ k := fun hk => absurd (hn e (by simp) h' r he) (by simp [hk])
        simp [he, h', hr, ih]

/-- Where a lane's address has an error of the kind that comes first, the checks stop with it and the lanes that raised it. -/
theorem checkLanes_of_addrErr {q : Nat → Bool} {reads write unsup : Bool}
    (hq : ∀ e ∈ as, q e.2 = true → addrErr s x.g sp n e = some (e.1, ⟨k, 0, e.2⟩))
    (hn : ∀ e ∈ as, q e.2 = false → ∀ r, addrErr s x.g sp n e = some r → errRank k < errRank r.2.kind) (hex : ∃ e ∈ as, q e.2 = true) :
    checkLanes s x sp n n acc reads write unsup as =
      .stop (raiseErr s x acc (if sp = .l ∨ sp = .lp then 0 else asidOf s x.g)
        ⟨k, 0, ((as.find? fun e => q e.2).map (·.2)).getD 0⟩ ((as.filter fun e => q e.2).map (·.1))) := by
  obtain ⟨e, he⟩ : ∃ e, as.find? (fun e => q e.2) = some e := by
    rw [← Option.isSome_iff_exists, List.find?_isSome]; exact hex
  have hfil := filter_addrErr hq hn
  have hfind : (as.filterMap (addrErr s x.g sp n)).find? (fun r => r.2.kind == k) = some (e.1, ⟨k, 0, e.2⟩) := by
    rw [← List.head?_filter, hfil, List.head?_map, List.head?_filter, he]; rfl
  have hrank : ∀ r ∈ as.filterMap (addrErr s x.g sp n), r.2.kind ≠ k → errRank k < errRank r.2.kind := fun r hr hk => by
    obtain ⟨a, ha, har⟩ := List.mem_filterMap.mp hr
    by_cases h : q a.2 = true
    · rw [hq a ha h] at har; cases har; exact absurd rfl hk
    · exact hn a ha (by simpa using h) r har
  have hes : (as.map fun e => (e.1, e.2, addrCheck s x.g sp n n e.2)).filterMap
      (fun r => match r.2.2 with | .error e => some (r.1, e) | .ok _ => none) = as.filterMap (addrErr s x.g sp n) := by
    rw [List.filterMap_map]; rfl
  have hfirst := firstErr_of_kind hfind hrank
  rw [hfil, List.map_map, ← hes] at hfirst
  unfold checkLanes
  simp only [he, Option.map_some, Option.getD_some]
  dsimp only at hfirst
  split
  · rename_i r m hr
    cases hr.symm.trans hfirst
    rfl
  · rename_i hr
    exact absurd (hr.symm.trans hfirst) (by simp)

/-- ALIGN and SEG are precise traps (R136, R383). -/
theorem raiseErr_of_precise {asid : Nat} {e : LaneErr} (mask : List Nat) (hl : e.kind ≠ kLEASE) (hx : e.kind ≠ kXLATE) :
    raiseErr s x acc asid e mask =
      .trap s { kind := e.kind, cause := e.cause, mask := mask, daddr := BitVec.ofNat 64 e.daddr, acc := acc, asid := asid } := by
  rw [raiseErr, if_neg hl, if_neg hx]

/-! ### Loads and stores -/

/-- A plain load or store runs its operation of its space on its active lanes (R133). -/
theorem exec_plainAccess {i : Instr} {f : FWord} (hi : loadRule i = some (f, sp) ∨ storeRule i = some (f, sp)) (s : State) :
    exec i s = issue i s fun x s => anyLane x s (if (loadRule i).isSome then loadOp x s sp f else storeOp x s sp f) := by
  rcases hi with hi | hi
  · unfold loadRule at hi
    split at hi <;> cases hi <;> rfl
  · unfold storeRule at hi
    split at hi <;> cases hi <;> rfl

/-- An access whose checks stop answers what they answer. -/
theorem plainAccess_of_stop {f : FWord} {r : IRes} (load : Bool)
    (h : ∀ reads write, checkLanes s x sp (widSize (fmod f 0 3)) (widSize (fmod f 0 3)) (if load then 1 else 2) reads write false
      (laneAddrs s x (fmod f 5 5) (widSize (fmod f 0 3))) = .stop r) :
    (if load then loadOp x s sp f else storeOp x s sp f) = r := by
  cases load
  · have := h false true
    simp only [Bool.false_eq_true, if_false] at this ⊢
    rw [storeOp]; simp only [this]
  · have := h true false
    simp only [if_true] at this ⊢
    rw [loadOp]; simp only [this]

/-- The trap of an access for the kind that comes first among its lanes' errors (R136). -/
theorem exec_of_addrErr {i : Instr} {f : FWord} {q : Nat → Bool} (hi : loadRule i = some (f, sp) ∨ storeRule i = some (f, sp))
    (h : issueOf s i = some x) (hf : inFlight x.g = false) (hs : n = widSize (fmod f 0 3)) (has : as = laneAddrs (entry s x) x (fmod f 5 5) n)
    (hl : k ≠ kLEASE) (hx : k ≠ kXLATE) (hq : ∀ e ∈ as, q e.2 = true → addrErr (entry s x) x.g sp n e = some (e.1, ⟨k, 0, e.2⟩))
    (hn : ∀ e ∈ as, q e.2 = false → ∀ r, addrErr (entry s x) x.g sp n e = some r → errRank k < errRank r.2.kind)
    (hex : ∃ e ∈ as, q e.2 = true) :
    exec i s = .next (takeTrap (entry s x) x.g.id x.pc x.next
      { kind := k, mask := (as.filter fun e => q e.2).map (·.1), daddr := BitVec.ofNat 64 (((as.find? fun e => q e.2).map (·.2)).getD 0),
        acc := if (loadRule i).isSome then 1 else 2, asid := if sp = .l ∨ sp = .lp then 0 else asidOf (entry s x) x.g }) := by
  have hact : x.act.isEmpty = false := by
    obtain ⟨e, he, -⟩ := hex
    rw [has, laneAddrs, List.mem_map] at he
    obtain ⟨l, hl, -⟩ := he
    cases hx : x.act with
    | nil => rw [hx] at hl; cases hl
    | cons => rfl
  rw [exec_plainAccess hi]
  refine issue_of_trap h hf ?_
  rw [anyLane, hact, if_neg Bool.false_ne_true]
  subst hs has
  exact plainAccess_of_stop _ fun _ _ => (checkLanes_of_addrErr hq hn hex).trans (congrArg _ (raiseErr_of_precise _ hl hx))

end

end Sys2Proof.AddressTraps

open Sys2Proof.Machine Sys2Proof.Safety Sys2Proof.AddressTraps

/-- Settles O24: ALIGN comes first in the order of R136, and among aligned lanes SEG precedes the one kind that is left, LEASE. -/
theorem loadAddressTraps : Obligations.LoadAddressTraps := by
  intro s i x f sp hi h hf n as acc asid trap
  refine ⟨fun ⟨e, he, hm⟩ => exec_of_addrErr (q := fun a => a % n != 0) hi h hf rfl rfl (by decide) (by decide) (fun e _ hq => addrErr_of_misaligned _ (by simpa using hq))
      (fun e _ hq r hr => ?_) ⟨e, he, by simpa using hm⟩,
    fun ha hex => exec_of_addrErr (q := fun a => (resolve (entry s x) x.g sp a n).isNone) hi h hf rfl rfl (by decide) (by decide)
      (fun e he hq => addrErr_of_outside (ha e he) (by simpa using hq)) (fun e he hq r hr => ?_) hex⟩
  · have h0 : e.2 % n = 0 := by simpa using hq
    cases ht : resolve (entry s x) x.g sp e.2 n with
    | none => rw [addrErr_of_outside h0 ht] at hr; cases hr; exact (by decide : errRank kALIGN < errRank kSEG)
    | some t => rw [addrErr_of_inside h0 ht hr]; decide
  · obtain ⟨t, ht⟩ : ∃ t, resolve (entry s x) x.g sp e.2 n = some t := by
      rw [← Option.isSome_iff_exists]; simpa [Option.isSome_iff_ne_none] using hq
    rw [addrErr_of_inside (ha e he) ht hr]
    decide
end

section
/-! SUPPORT. `rgrow`, `rshrink` and `segld`: blocks taken and given up, segments loaded (R75, R126, R128, R129). -/
namespace Sys2Proof.Blocks
open Sys2Proof.Machine Sys2Proof.Safety Sys2Proof.Laws

section
variable {s : State} {f : FWord} {x : Issue}

/-! ### Blocks that a group takes (R128) -/

/-- Blocks that are granted are as many as were asked for. -/
theorem growBlocks_ne_nil {g : Group} {n : Nat} {bs : List Nat} (h : growBlocks s g n = some bs) (hn : g.blocks.length < n) : bs ≠ [] := by
  dsimp only [growBlocks] at h
  split at h
  · rename_i hc
    cases h
    intro h0
    have := congrArg List.length h0
    rw [List.length_take, List.length_nil] at this
    omega
  · cases h

/-- A key that no entry has reads as the default. -/
theorem sparse_get_of_absent {α : Type} {d : α} {t : List (Nat × α)} {i : Nat} (h : ∀ e ∈ t, e.1 ≠ i) : Sparse.get d t i = d := by
  have hd := sparse_get_filter d t i i
  rwa [List.filter_eq_self.mpr (by simpa using h), if_pos rfl] at hd

/-- Registers of blocks just granted hold zero in every lane. -/
theorem readV_growTo (g : Group) (bs : List Nat) (l : Nat) {r : Nat} (ha : allocRegs g ≤ r) (hr : r < 256) : readV (growTo g bs) l r = 0 := by
  refine sparse_get_of_absent fun e he => ?_
  have := (List.mem_filter.mp he).2
  simp only [decide_eq_true_eq] at this
  omega

theorem findGroup_growGroup {id : Nat} {g : Group} (bs : List Nat) (h : findGroup s id = some g) :
    findGroup (growGroup s id bs) id = some (growTo g bs) := findGroup_modGroup h fun _ => rfl

/-- What `rgrow` leaves when it does not park: the blocks that it was granted, its predicate and its count (R128). -/
theorem exec_rgrow_of_out {bs : List Nat} {ok : Bool} {n : Nat} (h : issueOf s (.rgrow f) = some x) (ha : x.act ≠ [])
    (ho : rgrowOut (entry s x) x f = some (bs, ok, n)) :
    exec (.rgrow f) s = .next (plain (modGroup (if bs = [] then entry s x else growGroup (entry s x) x.g.id bs) x.g.id fun g =>
      putPreds (putDst g (.rgrow f) (allLanes x n)) (fmod f 0 3) (x.act.map fun l => (l, ok))) x) := by
  refine issue_of_done h ?_
  rw [groupWide_of_active ha, issueOf_i h]
  unfold rgrowOut at ho
  by_cases hc : rdA (entry s x) x x.lead = 0 ∨ 32 < rdA (entry s x) x x.lead
  · simp [hc] at ho
  · by_cases hb : rdA (entry s x) x x.lead ≤ x.g.blocks.length
    · simp only [hc, hb, if_true, if_false] at ho ⊢
      cases ho
      rfl
    · simp only [hc, hb, if_false] at ho ⊢
      cases hg : growBlocks (entry s x) x.g (rdA (entry s x) x x.lead) with
      | some bs' =>
        rw [hg] at ho
        cases ho
        simp only [growBlocks_ne_nil hg (by omega), if_false]
      | none =>
        simp only [hg] at ho ⊢
        by_cases ht : fmod f 3 1 = 1
        · simp only [ht, if_true] at ho ⊢
          cases ho
          rfl
        · simp [ht] at ho

/-- An `rgrow` that is neither granted nor refused joins the requests of its core and waits (R128, R130). -/
theorem exec_rgrow_of_wait (h : issueOf s (.rgrow f) = some x) (ha : x.act ≠ []) (h1 : 1 ≤ rdA (entry s x) x x.lead)
    (h32 : rdA (entry s x) x x.lead ≤ 32) (ho : rgrowOut (entry s x) x f = none) :
    exec (.rgrow f) s = .next (parkedDone (joinGrowers (entry s x) x.g) x (.rgrow (rdA (entry s x) x x.lead))) := by
  refine issue_of_parkDone h ?_
  have hc : ¬ (rdA (entry s x) x x.lead = 0 ∨ 32 < rdA (entry s x) x x.lead) := by omega
  rw [groupWide_of_active ha]
  unfold rgrowOut at ho
  by_cases hb : rdA (entry s x) x x.lead ≤ x.g.blocks.length
  · simp [hc, hb] at ho
  · cases hg : growBlocks (entry s x) x.g (rdA (entry s x) x x.lead) with
    | some bs => simp [hc, hb, hg] at ho
    | none =>
      by_cases ht : fmod f 3 1 = 1
      · simp [hc, hb, hg, ht] at ho
      · simp only [hc, hb, hg, ht, if_false]

/-- A target of 0 or above 32 raises REGRANGE with subcause COUNT (R128). -/
theorem exec_rgrow_of_count (h : issueOf s (.rgrow f) = some x) (ha : x.act ≠ []) (hf : inFlight x.g = false)
    (hc : rdA (entry s x) x x.lead = 0 ∨ 32 < rdA (entry s x) x x.lead) :
    exec (.rgrow f) s = .next (takeTrap (entry s x) x.g.id x.pc x.next { kind := 2, cause := 1, mask := lanesAt x.g x.pc }) :=
  issue_of_trap h hf (by rw [groupWide_of_active ha]; exact if_pos hc)

/-! ### Blocks that a group gives up (R129) -/

/-- The destination of `rshrink` would lie above the blocks that remain. -/
def shrinkCuts (i : Instr) (n b : Nat) : Bool :=
  match dstOf i with | some (.v r, _) => decide (n < b) && decide (8 * n ≤ r.toNat) | _ => false

theorem shrinkCuts_eq_false {i : Instr} {n b : Nat} (h : ∀ r w, dstOf i = some (.v r, w) → n < b → r.toNat < 8 * n) : shrinkCuts i n b = false := by
  unfold shrinkCuts
  split
  · rename_i r w hd
    by_cases hn : n < b
    · simp [Nat.not_le.mpr (h r w hd hn)]
    · simp [hn]
  · rfl

/-- `rshrink` gives up the blocks above its target, once what is in flight has returned, and answers the count that remains. -/
theorem exec_rshrink_of_kept (h : issueOf s (.rshrink f) = some x) (ha : x.act ≠ []) (h1 : 1 ≤ rdA (entry s x) x x.lead)
    (h32 : rdA (entry s x) x x.lead ≤ 32) (hk : shrinkCuts (.rshrink f) (rdA (entry s x) x x.lead) x.g.blocks.length = false) :
    let n := rdA (entry s x) x x.lead
    let b := x.g.blocks.length
    exec (.rshrink f) s = .next (plain (modGroup
      (if n < b then shrinkGroup (drainGroup (entry s x) x.g.id) x.g.id n else entry s x) x.g.id fun g =>
        putPreds (putDst g (.rshrink f) (allLanes x (min n b))) (fmod f 0 3) (x.act.map fun l => (l, decide (n < b)))) x) := by
  refine issue_of_done h ?_
  have hc : ¬ (rdA (entry s x) x x.lead = 0 ∨ 32 < rdA (entry s x) x x.lead) := by omega
  rw [groupWide_of_active ha, issueOf_i h]
  exact (if_neg hc).trans (if_neg (Bool.eq_false_iff.mp hk))

/-- A destination above the blocks that remain raises REGRANGE, with no effect. -/
theorem exec_rshrink_of_cut (h : issueOf s (.rshrink f) = some x) (ha : x.act ≠ []) (hf : inFlight x.g = false)
    (h1 : 1 ≤ rdA (entry s x) x x.lead) (h32 : rdA (entry s x) x x.lead ≤ 32)
    (hk : shrinkCuts (.rshrink f) (rdA (entry s x) x x.lead) x.g.blocks.length = true) :
    exec (.rshrink f) s = .next (takeTrap (entry s x) x.g.id x.pc x.next { kind := 2, mask := lanesAt x.g x.pc }) := by
  refine issue_of_trap h hf ?_
  have hc : ¬ (rdA (entry s x) x x.lead = 0 ∨ 32 < rdA (entry s x) x x.lead) := by omega
  rw [groupWide_of_active ha, issueOf_i h]
  exact (if_neg hc).trans (if_pos hk)

/-! ### Segments (R75) -/

section
variable (h : issueOf s (.segld f) = some x) (ha : x.act ≠ [])
include h ha

/-- The base and length that `segld` loads. -/
def segOf (s : State) (x : Issue) : DWord × DWord := (BitVec.ofNat 64 (rdA s x x.lead), BitVec.ofNat 64 (rdB s x x.lead))

theorem exec_segld_local (hs : fmod f 0 2 = 0) (hb : rdA (entry s x) x x.lead % 4096 = 0)
    (hr : rdA (entry s x) x x.lead + rdB (entry s x) x x.lead ≤ ((teamOf (entry s x) x.g).map (·.localG)).getD 0 * 4096) :
    exec (.segld f) s = .next (plain (modGroup (entry s x) x.g.id fun g => { g with segLocal := segOf (entry s x) x }) x) := by
  refine issue_of_done h ?_
  rw [groupWide_of_active ha]
  simp only [hs, hb, bne_self_eq_false, Bool.false_eq_true, false_or, Nat.not_lt.mpr hr, if_false, segOf]

theorem exec_segld_const (hs : fmod f 0 2 = 1) (hr : rdA (entry s x) x x.lead + rdB (entry s x) x x.lead ≤ 2 ^ 57) :
    exec (.segld f) s = .next (plain (modGroup (entry s x) x.g.id fun g => { g with segConst := segOf (entry s x) x }) x) := by
  refine issue_of_done h ?_
  rw [groupWide_of_active ha]
  simp only [hs, Nat.not_lt.mpr hr, if_false, segOf]

theorem exec_segld_glob (hs : 2 ≤ fmod f 0 2) (hr : rdA (entry s x) x x.lead + rdB (entry s x) x x.lead ≤ 2 ^ 57) :
    exec (.segld f) s = .next (plain (modGroup (entry s x) x.g.id fun g => { g with segGlob := segOf (entry s x) x }) x) := by
  refine issue_of_done h ?_
  rw [groupWide_of_active ha]
  dsimp only
  split
  · omega
  · omega
  · simp only [Nat.not_lt.mpr hr, if_false, segOf]

end
end

end Sys2Proof.Blocks

open Sys2Proof.Machine Sys2Proof.Safety Sys2Proof.Laws Sys2Proof.Blocks

/-- Settles O27: each instruction by its target; the blocks granted are as many as asked, so `rgrow` adds none exactly where it keeps its count. -/
theorem blocksAndSegments : Obligations.BlocksAndSegments := by
  refine ⟨fun s f x h ha => ⟨fun bs ok n ho => ⟨exec_rgrow_of_out h ha ho, fun hbs => ?_⟩, exec_rgrow_of_wait h ha, exec_rgrow_of_count h ha⟩,
    fun s f x h ha h1 h32 => ⟨fun hd => exec_rshrink_of_kept h ha h1 h32 (shrinkCuts_eq_false hd), fun r w hd hn hr hf => ?_⟩,
    fun s f x h ha => ⟨exec_segld_local h ha, exec_segld_const h ha, exec_segld_glob h ha⟩⟩
  · rw [if_neg hbs]
    exact ⟨_, findGroup_growGroup bs (findGroup_entry h), rfl, fun l r => readV_growTo x.g bs l⟩
  · exact exec_rshrink_of_cut h ha hf h1 h32 (by simp [shrinkCuts, hd, hn, hr])
end

section
/-! SUPPORT. Steps of the sampling unit and of the training engine (R265, R270, R271, R276, R284, R286, R289, R292). -/
namespace Sys2Proof.UnitWork
open Sys2Proof.Machine Sys2Proof.Safety

/-! ### Bins (R265, R270) -/

section
variable {s t u v : State} {sid b : Nat} {c : Cmd} (he : endOf s sid = some c)
include he

/-- A pending bin of a session that is sampled, with no other bin stopped in its course, is activated as its rows of empty lists are written. -/
theorem exec_binActivate (h0 : binState (session s sid) b = 0) (hb : b < (session s sid).bins.length) (hf : binFree c (2 * b) = true) :
    exec (.binActivate sid b) s = .next (
      match emptyRows c (session s sid).desc ((binPixels (session s sid).desc b).1.headD 0) (binPixels (session s sid).desc b).1.length
        (binPixels (session s sid).desc b).2 (startStep s c (2 * b)) with
      | (t, some e) => stopBin t c sid e
      | (t, none) => setBin (endStep t c) sid b 1) := by
  change execBinActivate sid b s = _
  simp only [execBinActivate, event, he, h0, hf, Nat.not_le.mpr hb, bne_self_eq_false, decide_false, Bool.not_true, Bool.or_self,
    Bool.false_eq_true, if_false] <;> rfl

/-- An active bin, with no other one stopped in its course, reads its references first. -/
theorem exec_binDone_of_read {r : Except EngStop (List Byte)} (h1 : binState (session s sid) b = 1) (hf : binFree c (2 * b + 1) = true)
    (hr : stepRead (startStep s c (2 * b + 1)) c (refAt (session s sid).desc b 0) (8 * Sparse.get 0 (session s sid).counts b) = (t, r)) :
    exec (.binDone sid b) s = .next (
      match r with
      | .error e => stopBin t c sid e
      | .ok rs =>
        match readGrids c ((List.range (Sparse.get 0 (session s sid).counts b)).map fun i =>
          (qNum rs (8 * i) 8, Sparse.get 0 (session s sid).homes (refKey b i) == 1)) t [] with
        | (u, .error e) => stopBin u c sid e
        | (u, .ok gs) =>
          match writeLists c (session s sid).desc (replayBin (session s sid) b (sortGrids gs)).lists u with
          | (v, some e) => stopBin v c sid e
          | (v, none) => commitBin v c sid b (replayBin (session s sid) b (sortGrids gs)) (dupOrder (sortGrids gs))) := by
  change execBinDone sid b s = _
  simp only [execBinDone, event, he, h1, hf, bne_self_eq_false, Bool.not_true, Bool.or_self, Bool.false_eq_true, if_false, hr]
  cases r <;> rfl

end

/-! ### The radiance cache (R286, R289, R292) -/

section
variable {s : State} {net : Nat} {c : Cmd}

/-- The offers of a group's `rct` are performed, and the group goes on without a value for its destination (R286). -/
theorem exec_rctOffer {grp : Nat} {p : Partition} (hc : s.cmds.find? (fun c => c.grp == grp && c.opc == 0x2A1) = some c)
    (hp : findPart s c.part = some p) :
    exec (.rctOffer grp) s = .next (exitIfDone (releaseGroup (modGroup (dropCmd (performOffers s c p) c.id) c.grp
      fun g => { g with parkInfo := g.parkInfo.map fun k => { k with dst := none } }) c.grp 0) c.grp) := by
  change execRctOffer grp s = _
  simp only [execRctOffer, event, hc, finishOffers, hp]

section
variable (hc : trainCmd s (network s net) = some c)
include hc

/-- Training begins once no offer to the network and no query of the closed window is left (R292). -/
theorem exec_equinoxTrain (ht : (network s net).training = false) (ho : s.cmds.any (fun d => d.opc == 0x2A1 && d.seq == net) = false)
    (hq : stampedIn s net ((network s net).w - 1) = false) :
    exec (.equinoxTrain net) s = .next (modNetwork s net fun n => { n with training := true }) := by
  change execEquinoxTrain net s = _
  simp only [execEquinoxTrain, event, hc, ht, ho, hq, Option.isNone_some, Bool.or_self, Bool.false_eq_true, if_false]

/-- A step of a window's training, until its last one is over (R289). -/
theorem exec_equinoxStep (ht : (network s net).training = true) (hn : (network s net).step < stepCount (network s net).desc) :
    exec (.equinoxStep net) s = .next (trainStep s c (network s net)) := by
  change execEquinoxStep net s = _
  simp only [execEquinoxStep, event, hc, ht, Nat.not_le.mpr hn, Bool.not_true, decide_false, Bool.or_self, Bool.false_eq_true, if_false]

/-- After the last step the tables are published, and the network is READY (R284). -/
theorem exec_publication {t : State} {i : Nat} (ht : (network s net).training = true)
    (hn : stepCount (network s net).desc ≤ (network s net).step)
    (hp : publishTab c (network s net).desc ((network s net).w - 1) (tabEntries (network s net).desc - c.progress) c.progress s = (t, i, none)) :
    let u := modNetwork (publishMlp t net ((network s net).w - 1)) net fun n => { n with state := 1, cmd := none, training := false }
    exec (.publication net) s = .next (wakeQueries (match findCmd u c.id with | some k => finishCmd u k | none => u) net) := by
  change execPublication net s = _
  simp only [execPublication, event, hc, ht, Nat.not_lt.mpr hn, hp, Bool.not_true, decide_false, Bool.or_self, Bool.false_eq_true, if_false] <;> rfl

end
end

end Sys2Proof.UnitWork

open Sys2Proof.Machine Sys2Proof.UnitWork

/-- Settles O54: a bin's step by the answer of each access, a network's by how far its training has come. -/
theorem unitSteps : Obligations.UnitSteps := by
  refine ⟨fun s sid b c he => ⟨fun t h0 hb hf hr => ?_, fun t e h0 hb hf hr => ?_, fun t u v rs gs h1 hf hr hg hw => ?_,
      fun t e h1 hf hr => exec_binDone_of_read he h1 hf hr⟩,
    fun s net c => ⟨fun grp p => exec_rctOffer, fun hc => ⟨exec_equinoxTrain hc, exec_equinoxStep hc, fun t i => exec_publication hc⟩⟩⟩
  · rw [exec_binActivate he h0 hb hf, hr]
  · rw [exec_binActivate he h0 hb hf, hr]
  · rw [exec_binDone_of_read he h1 hf hr]
    simp only [hg, hw]
end

section
/-! SUPPORT. Writes of registers from outside a group, and the answers to a fault of a group's own access (R81, R323, R339, R382, R386). -/
namespace Sys2Proof.Outside
open Sys2Proof.Machine Sys2Proof.Safety Sys2Proof.Laws

section
variable {s : State} {g : Group}

/-- A write of an element of a register takes effect (R382). -/
theorem exec_registerWrite {r i : Nat} (grp : Nat) (v : DWord) (h : indexOk r i = true) : exec (.registerWrite grp r i v) s = .next (setReg s grp r i v) := by
  change execRegisterWrite grp r i v s = _
  rw [execRegisterWrite, event, if_pos h]

/-- PRIO written from outside is capped by the dispatch's ceiling (R339). -/
theorem exec_prioWrite {d : Dispatch} (v : Word) (hg : findGroup s g.id = some g) (hd : dispOf s g = some d) :
    ∃ t, exec (.prioWrite g.id v) s = .next t ∧ findGroup t g.id = some { g with prio := BitVec.ofNat 32 (min v.toNat (dispPrioCeil d)) } := by
  refine ⟨setPrio s g v.toNat, ?_, ?_⟩
  · change execPrioWrite g.id v s = _
    simp only [execPrioWrite, event, hg]
  · rw [setPrio, hd]
    exact findGroup_modGroup hg fun _ => rfl

section
variable {w : FaultWait} (hw : s.faults.find? (fun f => f.tag == w.tag) = some w) (hgrp : w.grp = some g.id) (h0 : w.what = 0)
include hw hgrp h0

/-- A retry lets the group execute its instruction again (R81). -/
theorem exec_fansRetry : exec (.fansRetry w.tag) s = .next (modGroup (dropFault s w.tag) g.id unparkGroup) := by
  change execFansRetry w.tag s = _
  simp only [execFansRetry, event, retryFault, findFault, hw, hgrp, retryGroup, h0]

/-- A delivery makes the fault a precise XLATE, once the group's loads and atomics in flight have returned (R81, R383). -/
theorem exec_fansDeliver (hg : findGroup s g.id = some g) (hrq : g.rq = none) :
    exec (.fansDeliver w.tag) s =
      .next (takeTrap (drainReads (modGroup (dropFault s w.tag) g.id unparkGroup) g.id) g.id w.taddr (w.taddr + 8)
        { kind := 5, cause := w.cause, mask := lanesIn g w.mask, daddr := w.va, extra := BitVec.ofNat 64 w.tag, acc := w.acc, asid := w.asid }) := by
  have hg' : findGroup (dropFault s w.tag) g.id = some g := hg
  change execFansDeliver w.tag s = _
  simp only [execFansDeliver, event, deliverFault, findFault, hw, hgrp, Option.bind_some, hg', deliverGroup, h0, deliverOwn, hrq]
  rfl

end
end

end Sys2Proof.Outside

open Sys2Proof.Machine Sys2Proof.Outside

/-- Settles O56: each write as it is, and the two answers to a fault that names its group and its instruction alone. -/
theorem outsideWrites : Obligations.OutsideWrites :=
  fun _ _ hg => ⟨fun _ _ v h => exec_registerWrite _ v h, fun _ => rfl, fun _ v hd => exec_prioWrite v hg hd,
    fun _ hw hgrp h0 => ⟨exec_fansRetry hw hgrp h0, fun hrq _ => exec_fansDeliver hw hgrp h0 hg hrq⟩⟩
end

section
/-! SUPPORT. The start of a core's self-test (R399): the list of tests that are due. -/
namespace Sys2Proof.SelfTests
open Sys2Proof.Machine Sys2Proof.Safety Sys2Proof.Laws

/-- The machine in which no die has a unit's test due any more. -/
def dueCleared (s : State) (u : TestUnit) : State := { s with dies := s.dies.map fun d => { d with due := d.due.filter (· != u) } }

/-- The test of a core that takes teams starts with its clusters asked to be saved, and is due no more (R399). -/
theorem exec_selfTestStart_core {s : State} {c : Nat} {k : Core} (hc : findCore s c = some k) (ht : k.testing = false) (hr : k.retiredMark = false) :
    exec (.selfTestStart (.core c)) s = .next (s.dispatches.foldl (fun s d => requestSave s d.id (.core c))
      (modCore (dueCleared s (.core c)) c fun k => { k with testing := true })) := by
  have hc' : findCore (dueCleared s (.core c)) c = some k := hc
  have hn : ((findCore (dueCleared s (.core c)) c).map fun k => k.testing || k.retiredMark).getD true = false := by simp [hc', ht, hr]
  exact congrArg _ (if_neg (Bool.eq_false_iff.mp hn))

/-- A request to save clusters leaves the dies as they are (R393). -/
theorem dies_foldl_requestSave (ds : List Dispatch) (sc : PreemptScope) (s : State) :
    (ds.foldl (fun s d => requestSave s d.id sc) s).dies = s.dies := by
  induction ds generalizing s with
  | nil => rfl
  | cons d ds ih => exact ih _

/-- A machine on which the test of core 0 is due, as after an uncorrectable word found in it (R397, R399). -/
def coreTestDue : State := modDie State.reset 0 (Die.dueTest (.core 0))

end Sys2Proof.SelfTests

open Sys2Proof.Machine Sys2Proof.Safety Sys2Proof.SelfTests

/-- Refutes O57: a self-test that starts is taken from the tests that are due, and the state that the statement gives still has it among them. -/
theorem not_dieSteps : ¬ Obligations.DieSteps := by
  intro h
  obtain ⟨-, -, hstart, -⟩ := h coreTestDue
  have hc : findCore coreTestDue 0 = some (coreReset 0 0) := rfl
  have heq := (exec_selfTestStart_core hc rfl rfl).symm.trans (hstart 0 _ hc rfl rfl)
  have hdies := congrArg State.dies (Host.Outcome.next.inj heq)
  simp only [dies_foldl_requestSave] at hdies
  exact absurd (congrArg (fun l : List Die => l.map (·.due)) hdies) (by decide)
end

section
/-! SUPPORT. Acceptance, preparation and launch of dispatches, retirement and their end (R82, R93, R100, R321 to R324, R328, R334, R349, R376). -/
namespace Sys2Proof.DispatchLife
open Sys2Proof.Machine Sys2Proof.Safety

section
variable {s t u : State}

/-! ### Acceptance (R321) -/

section
variable {b : Submission} {raw : List Byte} {p : Partition}

/-- The machine that has taken a submission from those that wait. -/
def taken (s : State) (b : Submission) : State := { s with submissions := s.submissions.filter fun c => c.id != b.id }

/-- A submission that waits for no migration is accepted or refused. -/
theorem exec_dispatchAccept (hb : s.submissions.find? (fun c => c.id == b.id) = some b) (hm : subMigs s b = false) :
    exec (.dispatchAccept b.id) s = .next (acceptSub (taken s b) b) := by
  change execDispatchAccept b.id s = _
  simp only [execDispatchAccept, event, hb, hm, Bool.false_eq_true, if_false]
  rfl

/-- A record that cannot be read is refused. -/
theorem acceptSub_of_unread (hr : rdVa s (subCtx b) b.recVa 256 = (t, none)) : acceptSub s b = refuseTo t b.part b.sub b.entry 0 := by
  rw [acceptSub, hr]
  cases findPart s b.part <;> rfl

section
variable (hp : findPart s b.part = some p) (hr : rdVa s (subCtx b) b.recVa 256 = (t, some raw))
include hp hr

/-- A record that meets the limits of R320, R321 and R342 is accepted: its dispatch joins the others and prepares its leases. -/
theorem acceptSub_of_good (ha : acceptable t b p (submitted t b raw) = true) (hd : (readDescriptor t b.die (dispAsid (submitted t b raw))).isSome = true)
    (hq : taskQueueOk t (submitted t b raw) b.die = (u, true)) :
    let d := submitted t b raw
    let v := (wrVa u (subCtx b) (b.recVa + 44) (leBytes 4 d.id)).getD u
    let w := dropConst { v with dispatches := v.dispatches ++ [d], nextDisp := BitVec.ofNat 32 (d.id + 1) } d.id
    acceptSub s b = if leased d then w else startDispatch w d.id := by
  have hn : ¬ ((!acceptable t b p (submitted t b raw)) = true ∨ (readDescriptor t b.die (dispAsid (submitted t b raw))).isNone = true) := by
    simp [ha, Option.isSome_iff_ne_none.mp hd]
  rw [acceptSub]
  simp only [hp, hr, hn, if_false, hq]

/-- A record outside the limits, or of an address space without a descriptor, is refused. -/
theorem acceptSub_of_bad
    (h : acceptable t b p (submitted t b raw) = false ∨ readDescriptor t b.die (dispAsid (submitted t b raw)) = none) :
    acceptSub s b = refuseTo t b.part b.sub b.entry 0 := by
  have hy : (!acceptable t b p (submitted t b raw)) = true ∨ (readDescriptor t b.die (dispAsid (submitted t b raw))).isNone = true := by simpa using h
  rw [acceptSub]
  simp only [hp, hr, hy, if_true]

/-- A task dispatch whose queue descriptor is outside its limits is refused (R342). -/
theorem acceptSub_of_badQueue (ha : acceptable t b p (submitted t b raw) = true)
    (hd : (readDescriptor t b.die (dispAsid (submitted t b raw))).isSome = true) (hq : taskQueueOk t (submitted t b raw) b.die = (u, false)) :
    acceptSub s b = refuseTo u b.part b.sub b.entry 0 := by
  have hn : ¬ ((!acceptable t b p (submitted t b raw)) = true ∨ (readDescriptor t b.die (dispAsid (submitted t b raw))).isNone = true) := by
    simp [ha, Option.isSome_iff_ne_none.mp hd]
  rw [acceptSub]
  simp only [hp, hr, hn, if_false, hq]

end
end

/-! ### Preparation and launch (R82, R328) -/

section
variable {d : Dispatch} (hd : findDisp s d.id = some d)
include hd

/-- What a page of the preparation meets: it becomes resident, its fault is reported, or no path reaches its entry (R82). -/
def pageStep (d : Dispatch) (va : Nat) (t : State) (r : Xl) : State :=
  match r with
  | .ok _ => modDisp t d.id fun d => { d with prepared := d.prepared + 1, pins := d.pins ++ [va] }
  | .fault c => prepFault t d va c
  | .rem => refusePrepared t d
  | .mig => t

section
variable (hs : d.state = .preparing) (hw : d.waitTag = none)
include hs hw

/-- A preparation with no page left is over. -/
theorem exec_leasePreparation_over (hp : (prepPages d)[d.prepared]? = none) : exec (.leasePreparation d.id) s = .next (startDispatch s d.id) := by
  change execLeasePreparation d.id s = _
  simp only [execLeasePreparation, event, hd, hs, hw, hp, bne_self_eq_false, Option.isSome_none, Bool.or_self, Bool.false_eq_true, if_false]

theorem exec_leasePreparation_page {va : Nat} {r : Xl} (hp : (prepPages d)[d.prepared]? = some va)
    (hr : translate s (ctxOf d (partDie s d.part)) va .read = (t, r)) : exec (.leasePreparation d.id) s = .next (pageStep d va t r) := by
  change execLeasePreparation d.id s = _
  simp only [execLeasePreparation, event, hd, hs, hw, hp, hr, bne_self_eq_false, Option.isSome_none, Bool.or_self, Bool.false_eq_true, if_false]
  cases r <;> rfl

end

/-- The next cluster of the grid is placed whole on a rectangle that takes it (R328). -/
theorem exec_teamLaunch {p : Partition} (hp : dispPart s d = some p) (hm : mayPlace s d = true) (hn : d.nextTeam / max 1 (dispClsize d) < dispNcl d)
    (ht : tryRectangles s p (dispClW d) (dispClH d) (placeCluster d (d.nextTeam / max 1 (dispClsize d))) = some t) :
    exec (.teamLaunch d.id) s =
      .next (modDisp { t with clusters := t.clusters ++ [⟨d.id, d.nextTeam / max 1 (dispClsize d), .running, ⟨0, []⟩⟩] } d.id
        fun d => { d with nextTeam := d.nextTeam + dispClsize d }) := by
  have hc : ¬ (dispNcl d ≤ d.nextTeam / max 1 (dispClsize d) ∨ (!mayPlace s d) = true) := by simp [hm, hn]
  change execTeamLaunch d.id s = _
  simp only [execTeamLaunch, event, launchNext, hd, hp, hc, if_false, ht, Option.map_some, Option.getD_some]

end

/-! ### The end of groups and dispatches (R100, R334, R349, R376) -/

/-- A group that has exited retires, and with the last of its team the team's dirty windows are written back. -/
theorem exec_groupRetire {g : Group} {t : Team} (hg : findGroup s g.id = some g) (hs : g.state = .exit)
    (ht : teamOf (retireMember (setGroup s { g with state := .retired }) g) g = some t) :
    let u := retireMember (setGroup s { g with state := .retired }) g
    exec (.groupRetire g.id) s = .next (pruneClusters (if teamDone t then retireWindows false u t else u)) := by
  change execGroupRetire g.id s = _
  simp only [execGroupRetire, event, retireGroup, hg, hs, bne_self_eq_false, Bool.false_eq_true, if_false, ht]

theorem exec_dispatchEnd {d : Dispatch} (hd : findDisp (pruneClusters s) d.id = some d) (ho : dispatchOver (pruneClusters s) d = true) :
    exec (.dispatchEnd d.id) s = .next (reportEnd (freeDispatch (pruneClusters s) d) d) := by
  change execDispatchEnd d.id s = _
  simp only [execDispatchEnd, event, endDispatch, hd, ho, if_true]

/-! ### Pre-emption (R393 to R396) -/

section
variable {d : Dispatch} (hd : findDisp s d.id = some d)
include hd

theorem exec_preemptionRequest (sc : PreemptScope) :
    exec (.preemptionRequest d.id sc) s =
      .next (requestSave (if sc = .all then modDisp s d.id fun d => { d with preempt := 1, preemptFor := 0 } else s) d.id sc) := by
  change execPreemptionRequest d.id sc s = _
  simp only [execPreemptionRequest, event, hd]

/-- A cluster that waits for frames says so once (R396). -/
theorem saveCluster_of_empty {c : Nat} (hs : clusterSavable s d.id c = true) (hf : framesReady s (frameTeams s d.id c) = false)
    (hp : s.poolEmptyPosted = false) :
    saveCluster s d.id c = notify { s with poolEmptyPosted := true } (partDie s d.part) (.unit (partDie s d.part) unitSched) { kind := 0x28, disp := d.id } := by
  simp only [saveCluster, hs, hf, hp, hd, Bool.not_true, Bool.false_eq_true, if_false, Option.map_some, Option.getD_some]
  rfl

end

/-- A cluster for whose teams the pool holds frames is saved (R394). -/
theorem saveCluster_of_ready {disp c : Nat} (hs : clusterSavable s disp c = true) (hf : framesReady s (frameTeams s disp c) = true) :
    saveCluster s disp c = saveNow s disp c := by
  simp only [saveCluster, hs, hf, Bool.not_true, Bool.false_eq_true, if_false, if_true]

theorem exec_clusterResume {disp c : Nat} (h : resumeCluster s disp c = some t) : exec (.clusterResume disp c) s = .next t := by
  change execClusterResume disp c s = _
  rw [execClusterResume, event, h, Option.getD_some]

/-- Frames have come once every cluster that may be saved has enough of them. -/
theorem framesCame_of_ready (hp : s.poolEmptyPosted = true) (he : ∃ c ∈ s.clusters, clusterSavable s c.disp c.clid = true)
    (hf : ∀ c ∈ s.clusters, clusterSavable s c.disp c.clid = true → framesReady s (frameTeams s c.disp c.clid) = true) : framesCame s = true := by
  obtain ⟨c, hc, hs⟩ := he
  have hmem : c ∈ s.clusters.filter fun c => clusterSavable s c.disp c.clid := List.mem_filter.mpr ⟨hc, hs⟩
  have hall : (s.clusters.filter fun c => clusterSavable s c.disp c.clid).all (fun c => framesReady s (frameTeams s c.disp c.clid)) = true :=
    List.all_eq_true.mpr fun c h => hf c (List.mem_filter.mp h).1 (List.mem_filter.mp h).2
  simp only [framesCame, hp, hall, Bool.true_and, Bool.and_true, Bool.not_eq_true', List.isEmpty_eq_false_iff]
  exact List.ne_nil_of_mem hmem

theorem exec_savePoolFramesArrive (h : framesCame s = true) : exec .savePoolFramesArrive s = .next { s with poolEmptyPosted := false } := by
  change execSavePoolFramesArrive s = _
  rw [execSavePoolFramesArrive, event, if_pos h]

end

end Sys2Proof.DispatchLife

open Sys2Proof.Machine Sys2Proof.DispatchLife

/-- Settles O58: each step by what its submission, page, cluster, group or dispatch meets; the statement's dispatch is `submitted`. -/
theorem dispatchSteps : Obligations.DispatchSteps := by
  refine ⟨fun s => ⟨fun b p t raw u hb hm hp hr => ⟨fun ha hd hq => ?_, fun h => ?_, fun ha hd hq => ?_⟩, fun b t hb hm hr => ?_,
      fun d hd hs hw => ⟨exec_leasePreparation_over hd hs hw, fun va t pa hp hr => ?_, fun va t c hp hr => ?_, fun va t hp hr => ?_⟩,
      fun d p t hd => exec_teamLaunch hd, fun g t => exec_groupRetire, fun d => exec_dispatchEnd⟩,
    fun s d hd => ⟨exec_preemptionRequest hd, fun c hs => ⟨fun hf => ?_, fun hf hp => ?_⟩, fun c t => exec_clusterResume, fun he hf hp => ?_⟩⟩
  · exact (exec_dispatchAccept hb hm).trans (congrArg _ (acceptSub_of_good hp hr ha hd hq))
  · exact (exec_dispatchAccept hb hm).trans (congrArg _ (acceptSub_of_bad hp hr h))
  · exact (exec_dispatchAccept hb hm).trans (congrArg _ (acceptSub_of_badQueue hp hr ha hd hq))
  · exact (exec_dispatchAccept hb hm).trans (congrArg _ (acceptSub_of_unread hr))
  · exact exec_leasePreparation_page hd hs hw hp hr
  · exact exec_leasePreparation_page hd hs hw hp hr
  · exact exec_leasePreparation_page hd hs hw hp hr
  · exact congrArg _ (saveCluster_of_ready hs hf)
  · exact congrArg _ (saveCluster_of_empty hd hs hf hp)
  · exact exec_savePoolFramesArrive (framesCame_of_ready hp he hf)
end

section
/-! SUPPORT. Engine commands at issue: the frame of the recordable ones, and the answers that end it (R109, R139, R362). -/
namespace Sys2Proof.EngineIssue
open Sys2Proof.Machine Sys2Proof.Safety Sys2Proof.Laws

section
variable {s u : State} {i : Instr} {x : Issue} {y : XWord} {opc : Nat} {lr rel : Bool} {cmd : State → Issuer → CmdSpec → CRes}

/-- A group issues its commands itself. -/
@[simp] theorem groupIssuer_g (t : State) (g : Group) : (groupIssuer t g).g = g := by unfold groupIssuer; split <;> rfl

@[simp] theorem groupIssuer_host (t : State) (g : Group) : (groupIssuer t g).host = none := by unfold groupIssuer; split <;> rfl

/-- A flag of MODA, as the instruction's field and as the command's bit. -/
theorem xmod_one_eq_testBit (y : XWord) (n : Nat) : (xmod y n 1 == 1) = y.moda.toNat.testBit n := by
  rw [Nat.testBit_eq_decide_div_mod_eq, ← Nat.shiftRight_eq_div_pow]; rfl

/-- An instruction that is a release where `rel` says so. -/
theorem relIf_of_ok (h : rel = true → releaseOk (entry s x) x) (k : State → IRes) : relIf rel x (entry s x) k = k (releasedIf rel (entry s x) x) := by
  cases rel
  · rfl
  · exact withRelease_of_releaseOk (h rfl) _ k

/-- The answer of an engine command that issues: in the state after its release and the accesses before it, with the operands read there (R109). -/
def cmdAnswer (s : State) (x : Issue) (y : XWord) (opc : Nat) (lr rel : Bool) (cmd : State → Issuer → CmdSpec → CRes) : CRes :=
  cmd (engineState s x opc rel) (groupIssuer (engineState s x opc rel) x.g) (specOf (engineState s x opc rel) x opc y lr)

/-- An engine command that no earlier control command holds back gives its own answer (R109, R110). -/
theorem engineCmd_of_free (ha : x.act ≠ []) (hr : rel = true → releaseOk (entry s x) x)
    (hb : (isCtl opc && ctlBusy (engineState s x opc rel) x.g.id && !(opc == 0x228 && !y.moda.toNat.testBit 0)) = false) :
    engineCmd x (entry s x) y opc lr rel cmd =
      cmdRes x (cmdAnswer s x y opc lr rel cmd) (recordCmd x y (specOf (engineState s x opc rel) x opc y lr) lr) := by
  rw [engineCmd, groupWide_of_active ha, relIf_of_ok hr]
  exact if_neg (Bool.eq_false_iff.mp hb)

section
variable (h : issueOf s i = some x) (ho : engineOpen s x opc rel)

include ho in
theorem engineCmd_of_open :
    engineCmd x (entry s x) y opc lr rel cmd =
      cmdRes x (cmdAnswer s x y opc lr rel cmd) (recordCmd x y (specOf (engineState s x opc rel) x opc y lr) lr) := by
  obtain ⟨ha, hr, hb⟩ := ho
  exact engineCmd_of_free ha hr (by rw [hb, Bool.false_and])

include h ho

/-- An engine command that is performed or queued at once. -/
theorem issue_engineCmd_ok {v : Nat} (hc : cmdAnswer s x y opc lr rel cmd = .ok u v) :
    issue i s (fun x s => engineCmd x s y opc lr rel cmd) = .next (engineDone x y (specOf (engineState s x opc rel) x opc y lr) lr u v) :=
  issue_of_doneWith h (by rw [engineCmd_of_open ho, hc]; rfl)

/-- An engine command that completes when its group is released. -/
theorem issue_engineCmd_held {w : Wait} (hc : cmdAnswer s x y opc lr rel cmd = .held u w) :
    issue i s (fun x s => engineCmd x s y opc lr rel cmd) =
      .next (parkedDone (recordCmd x y (specOf (engineState s x opc rel) x opc y lr) lr u) x w) :=
  issue_of_parkDone h (by rw [engineCmd_of_open ho, hc]; rfl)

end
end

/-! ### The end of a command's issue -/

section
variable {t : State}

theorem enqueueCmd_of_open {c : Cmd} (h : queueOpen t c) : enqueueCmd t c = .ok (enqueued t c) 0 := by
  obtain ⟨hq, hl⟩ := h
  have hn : ¬ (64 ≤ queueLen t c.core c.queue ∨ (!linesFit t c.writes c.reads) = true) := by simp [hl, hq]
  exact if_neg hn

/-- A command whose barrier resolves joins its queue, where that has room. -/
theorem issueCmd_of_open {t0 : State} {j : Issuer} {c : CmdSpec} {r : BarRef} {mk : State → BarRef → Cmd} (hb : cmdBar t0 j c = .ok t r)
    (hq : queueOpen t (mk t r)) : issueCmd t0 j c mk = .ok (enqueued t (mk t r)) 0 := by
  rw [issueCmd, hb]; exact enqueueCmd_of_open hq

end

end Sys2Proof.EngineIssue
end

section
/-! SUPPORT. Linear copies, tensor copies and collectives at issue (R111 to R116, R119, R121). -/
namespace Sys2Proof.CopyIssue
open Sys2Proof.Machine Sys2Proof.Safety Sys2Proof.Laws Sys2Proof.EngineIssue

section
variable {s t t0 : State} {j : Issuer} {c : CmdSpec} {r : BarRef}

/-- An end in local memory that resolves, or one in global memory inside its space and leases, raises neither SEG nor LEASE. -/
theorem end_passes {global lease : Bool} {α β : Type} {l : Option α} {v : Option β}
    (h : if global then v.isSome = true ∧ lease = true else l.isSome = true) :
    (!global && l.isNone || global && v.isNone) = false ∧ (global && !lease) = false := by
  cases global <;> simp_all

/-- A linear copy whose ends pass their checks goes on to its barrier and its queue; one of no bytes to its barrier alone (R112 to R114). -/
theorem linearCmd_of_endsOk (hh : j.host = none) (he : copyEndsOk t0 j c) :
    linearCmd t0 j c = if c.len = 0 then (match cmdBar t0 j c with | .stop r => r | .ok s _ => .ok s 0)
      else issueCmd t0 j c fun s r => copyCommand t0 s j c r := by
  obtain ⟨ha, hb, hl, hd, hs⟩ := he
  obtain ⟨hd1, hd2⟩ := end_passes hd
  obtain ⟨hs1, hs2⟩ := end_passes hs
  simp only [copyLocals] at hd1 hs1
  simp only [linearCmd, ha, hb, hl, hh, hd1, hs1, hd2, hs2, bne_self_eq_false, Option.isSome_none, Bool.false_and, Bool.false_eq_true, if_false]
  rfl

/-- A linear copy of no bytes ends once its barrier resolves. -/
theorem linearCmd_of_empty (hh : j.host = none) (he : copyEndsOk t0 j c) (hb : cmdBar t0 j c = .ok t r) (hl : c.len = 0) :
    linearCmd t0 j c = .ok t 0 := by
  rw [linearCmd_of_endsOk hh he, if_pos hl, hb]

theorem linearCmd_of_open (hh : j.host = none) (he : copyEndsOk t0 j c) (hb : cmdBar t0 j c = .ok t r) (hl : c.len ≠ 0)
    (hq : queueOpen t (copyCommand t0 t j c r)) : linearCmd t0 j c = .ok (enqueued t (copyCommand t0 t j c r)) 0 := by
  rw [linearCmd_of_endsOk hh he, if_neg hl]; exact issueCmd_of_open hb hq

/-- The local end of a tensor copy: its source where it stores, else its destination (R115). -/
def tensorLocal (c : CmdSpec) : Nat := if c.opc = 0x205 then c.b else c.a

def tensorGlobal (c : CmdSpec) : Nat := if c.opc = 0x205 then c.a else c.b

theorem tensorEnds_eq (c : CmdSpec) : (if c.opc == 0x205 then (c.b, c.a) else (c.a, c.b)) = (tensorLocal c, tensorGlobal c) := by
  by_cases h : c.opc = 0x205 <;> simp [tensorLocal, tensorGlobal, h]

/-- A tensor copy's shape record is within its limits, and its ends are aligned and lie in their spaces and leases (R115). -/
structure TensorOk (t1 : State) (j : Issuer) (c : CmdSpec) (bs : List Byte) (co o : Nat) : Prop where
  aligned : tensorLocal c % 16 = 0 ∧ tensorGlobal c % 2 ^ min (shapeOf bs).elem 4 = 0
  shape : (shapeOf bs).bad bs = false
  loc : cmdLocal t1 j false (tensorLocal c) ((shapeOf bs).localSpan (c.opc == 0x205)) = some (co, o)
  glob : (shapeOf bs).empty = false →
    (cmdGlobal j (tensorGlobal c) (shapeOf bs).span).isSome = true ∧ issuerLeases t1 j (va57 (tensorGlobal c)) (shapeOf bs).span = true

/-- A tensor copy that passes its checks joins its queue (R115, R116). -/
theorem tensorCmd_of_open {t1 : State} {bs : List Byte} {co o : Nat} (hr : readShape t0 j c.len 5 = .ok (t1, bs)) (hk : TensorOk t1 j c bs co o)
    (hb : cmdBar t1 j c = .ok t r) (hq : queueOpen t (tensorCommand t j c bs co o r)) :
    tensorCmd t0 j c = .ok (enqueued t (tensorCommand t j c bs co o r)) 0 := by
  obtain ⟨⟨hla, hga⟩, hs, hl, hg⟩ := hk
  have hseg : (!(shapeOf bs).empty && (cmdGlobal j (tensorGlobal c) (shapeOf bs).span).isNone) = false := by
    cases he : (shapeOf bs).empty
    · simp [(hg he).1]
    · rfl
  have hlease : (!(shapeOf bs).empty && !issuerLeases t1 j (va57 (tensorGlobal c)) (shapeOf bs).span) = false := by
    cases he : (shapeOf bs).empty
    · simp [(hg he).2]
    · rfl
  simp only [tensorCmd, tensorEnds_eq, hr, hla, hga, hs, hl, hseg, hlease, bne_self_eq_false, Bool.false_eq_true, if_false]
  exact issueCmd_of_open hb hq

/-- The count of a collective, from its register with LR (R119). -/
def collCount (c : CmdSpec) : Nat := if c.moda.testBit 3 then c.len else fldN c.imm 0 28

/-- The COLLGRP register of a collective's device group (R118). -/
def collReg (t : State) (c : CmdSpec) : DWord := t.collgrp[fldN c.imm 28 4]?.getD 0

/-- The bytes of a collective's source and of its destination (R120). -/
def collBytes (t : State) (c : CmdSpec) : Nat × Nat :=
  let n := collElems (fldN c.moda 4 2) (collRanks (collReg t c)) (collCount c)
  (n.1 * collSize (fldN c.moda 8 4), n.2 * collSize (fldN c.moda 8 4))

/-- A collective's operands are aligned and lie in their spaces and leases, and its device group has this device once (R118, R119). -/
structure CollOk (t0 : State) (j : Issuer) (c : CmdSpec) (p : Partition) : Prop where
  aligned : c.a % collSize (fldN c.moda 8 4) = 0 ∧ c.b % collSize (fldN c.moda 8 4) = 0
  part : findPart t0 j.x.part = some p
  count : 1 ≤ collCount c ∧ collCount c < 2 ^ 28
  member : (collReg t0 c).getLsbD 0 = true ∧ ((rankList t0 p (collReg t0 c)).filter (· == t0.devnum)).length = 1
  dst : (cmdGlobal j c.a (collBytes t0 c).2).isSome = true ∧ issuerLeases t0 j (va57 c.a) (collBytes t0 c).2 = true
  src : (cmdGlobal j c.b (collBytes t0 c).1).isSome = true ∧ issuerLeases t0 j (va57 c.b) (collBytes t0 c).1 = true

/-- The command of a collective, with its ranks and the next sequence number of its device group (R119, R121). -/
def collCommand (t0 t : State) (j : Issuer) (c : CmdSpec) (p : Partition) (r : BarRef) : Cmd :=
  { newCmd t j c.qid c with
    bar := r, len := collCount c, credit := ((collBytes t0 c).2 + 31) / 32, shape := (rankList t0 p (collReg t0 c)).flatMap (leBytes 2),
    seq := t.collSeq[fldN c.imm 28 4]?.getD 0 }

/-- The sequence number of a collective's device group is taken (R121). -/
def seqTaken (c : CmdSpec) (t : State) : State := { t with collSeq := updAt (fldN c.imm 28 4) (· + 1) t.collSeq }

theorem collCmd_of_open {p : Partition} (hk : CollOk t0 j c p) (hb : cmdBar t0 j c = .ok t r) (hq : queueOpen t (collCommand t0 t j c p r)) :
    collCmd t0 j c = .ok (seqTaken c (enqueued t (collCommand t0 t j c p r))) 0 := by
  obtain ⟨⟨hala, halb⟩, hp, hcnt, ⟨hv, hd⟩, ⟨hga, hla⟩, ⟨hgb, hlb⟩⟩ := hk
  have hissue := issueCmd_of_open (mk := fun s b => collCommand t0 s j c p b) hb hq
  have hn : ¬ (collCount c = 0 ∨ 2 ^ 28 ≤ collCount c) := by omega
  rw [← Option.not_isNone, Bool.not_eq_true'] at hga hgb
  unfold collReg at hv hd
  unfold collBytes collReg at hga hgb hla hlb
  unfold collCommand collBytes collReg at hissue
  unfold collCount at *
  simp only [collCmd, hala, halb, hp, hn, hv, hd, hga, hgb, hla, hlb, hissue, bne_self_eq_false, Bool.not_true, Bool.or_self, Bool.false_eq_true, if_false]
  rfl

end

theorem copyCmd_of_linear {t : State} {j : Issuer} {c : CmdSpec} (h : isTensor c.opc = false) : copyCmd t j c = linearCmd t j c :=
  if_neg (Bool.eq_false_iff.mp h)

theorem copyCmd_of_tensor {t : State} {j : Issuer} {c : CmdSpec} (h : isTensor c.opc = true) : copyCmd t j c = tensorCmd t j c := if_pos h

/-- The linear copies are issued in one frame, each by its opcode. -/
theorem exec_copy {i : Instr} {y : XWord} {opc : Nat} (hi : copyRule i = some (y, opc)) (s : State) :
    exec i s = issue i s (fun x s => engineCmd x s y opc true false copyCmd) ∧ isTensor opc = false := by
  unfold copyRule at hi
  split at hi <;> cases hi <;> exact ⟨rfl, rfl⟩

theorem exec_tensor {i : Instr} {y : XWord} {opc : Nat} (hi : tensorRule i = some (y, opc)) (s : State) :
    exec i s = issue i s (fun x s => engineCmd x s y opc true false copyCmd) ∧ isTensor opc = true := by
  unfold tensorRule at hi
  split at hi <;> cases hi <;> exact ⟨rfl, rfl⟩

end Sys2Proof.CopyIssue

open Sys2Proof.Machine Sys2Proof.Safety Sys2Proof.EngineIssue Sys2Proof.CopyIssue

/-- Settles O32: each command's own checks pass, and what remains of its issue is its barrier and its queue. -/
theorem copiesAndCollectives : Obligations.CopiesAndCollectives := by
  refine ⟨fun s i x y opc t r hi h ho he hb => ?_, fun s i x y opc t1 t bs co o r hi h ho hr ha hg hbad hl he hb hq => ?_,
    fun s y x t r p h ho ha hb hp h1 h28 hv hd hga hgb hla hlb hbar hq => ?_⟩
  · obtain ⟨hx, ht⟩ := exec_copy hi s
    exact ⟨fun h0 => hx.trans (issue_engineCmd_ok h ho ((copyCmd_of_linear ht).trans (linearCmd_of_empty (groupIssuer_host ..) he hb h0))),
      fun h0 hq => hx.trans (issue_engineCmd_ok h ho ((copyCmd_of_linear ht).trans (linearCmd_of_open (groupIssuer_host ..) he hb h0 hq)))⟩
  · obtain ⟨hx, ht⟩ := exec_tensor hi s
    exact hx.trans (issue_engineCmd_ok h ho ((copyCmd_of_tensor ht).trans (tensorCmd_of_open hr ⟨⟨ha, hg⟩, hbad, hl, he⟩ hb hq)))
  · exact issue_engineCmd_ok h ho (collCmd_of_open ⟨⟨ha, hb⟩, hp, ⟨h1, h28⟩, ⟨hv, hd⟩, ⟨hga, hla⟩, ⟨hgb, hlb⟩⟩ hbar hq)
end

section
/-! SUPPORT. Transaction barriers: the phase after an update, and the barrier instructions (R103, R105 to R107). -/
namespace Sys2Proof.Barriers
open Sys2Proof.Machine Sys2Proof.Safety Sys2Proof.Laws Sys2Proof.EngineIssue

/-! ### Phases (R105) -/

/-- Nothing of a barrier's phase is pending. -/
def PhaseOver (b : Bar) : Prop := b.val = true ∧ b.arr = 0 ∧ b.sect = 0

theorem barSettle_of_over {b : Bar} (h : PhaseOver b) : barSettle b = ({ b with phase := (b.phase + 1) % 16, arr := b.reload }, true) := if_pos h

theorem barSettle_of_pending {b : Bar} (h : ¬ PhaseOver b) : barSettle b = (b, false) := if_neg h

theorem barUpdate_of_over {b : Bar} (h : PhaseOver b) (s : State) (r : BarRef) :
    barUpdate s r b = releaseBar (barWrite s r (barToBits (barRead s r) { b with phase := (b.phase + 1) % 16, arr := b.reload })) r := by
  rw [barUpdate, barSettle_of_over h]; rfl

theorem barUpdate_of_pending {b : Bar} (h : ¬ PhaseOver b) (s : State) (r : BarRef) :
    barUpdate s r b = barWrite s r (barToBits (barRead s r) b) := by
  rw [barUpdate, barSettle_of_pending h]; rfl

/-! ### Barrier commands on a barrier that resolves -/

section
variable {s t : State} {j : Issuer} {c : CmdSpec} {r : BarRef} {write reads : Bool}

theorem withBar_of_resolved (h : resolveBar s j (c.moda % 4) c.a 3 write reads = .ok t r) (k : State → BarRef → Bar → CRes) :
    withBar s j c write reads k = k t r (barOfBits (barRead t r)) := by
  rw [withBar, h]

theorem barInit_of_count (h : resolveBar s j (c.moda % 4) c.a 3 true false = .ok t r) (h1 : 1 ≤ c.b) (h20 : c.b < 2 ^ 20) :
    barInit s j c = .ok (trapBar (barWrite t r (barInitBits c.b)) r kBARERR) 0 := by
  have hn : ¬ (c.b = 0 ∨ 2 ^ 20 ≤ c.b) := by omega
  rw [barInit, withBar_of_resolved h, if_neg hn]

theorem barInval_of_resolved (h : resolveBar s j (c.moda % 4) c.a 3 true true = .ok t r) :
    barInval s j c = .ok (trapBar (barWrite t r (barToBits (barRead t r) { barOfBits (barRead t r) with val := false })) r kBARERR) 0 := by
  rw [barInval, withBar_of_resolved h]

/-- `bar.arrive` of a count that is pending answers the phase it arrived in; of a count of 0 it changes nothing. -/
theorem barArrive_of_pending (h : resolveBar s j (c.moda % 4) c.a 3 true true = .ok t r) (hv : (barOfBits (barRead t r)).val = true)
    (hn : c.b ≤ (barOfBits (barRead t r)).arr) :
    let b := barOfBits (barRead t r)
    barArrive s j c = .ok (if c.b = 0 then t else barUpdate t r { b with arr := b.arr - c.b }) b.phase := by
  simp only [barArrive, withBar_of_resolved h, hv, Nat.not_lt.mpr hn, Bool.not_true, decide_false, Bool.or_self, Bool.false_eq_true, if_false]
  split <;> rfl

/-- `bar.expect` of a count that SECT can take, with ARV of a barrier with an arrival pending. -/
theorem barExpect_of_room {arv : Bool} (harv : arv = c.moda.testBit 2) (h : resolveBar s j (c.moda % 4) c.a 3 true true = .ok t r)
    (hv : (barOfBits (barRead t r)).val = true) (hn : (barOfBits (barRead t r)).sect + (c.b : Int) < 2 ^ 31)
    (ha : arv = true → (barOfBits (barRead t r)).arr ≠ 0) :
    let b := barOfBits (barRead t r)
    barExpect s j c = .ok (barUpdate t r { b with sect := b.sect + (c.b : Int), arr := if arv then b.arr - 1 else b.arr }) 0 := by
  subst harv
  have harr : (c.moda.testBit 2 && (barOfBits (barRead t r)).arr == 0) = false := by
    cases hb : c.moda.testBit 2
    · rfl
    · simpa using ha hb
  simp only [barExpect, withBar_of_resolved h, hv, Int.not_le.mpr hn, harr, Bool.not_true, decide_false, Bool.or_self, Bool.false_eq_true, if_false]

section
variable (h : resolveBar s j (c.moda % 4) c.a 3 false true = .ok t r) (hv : (barOfBits (barRead t r)).val = true)
include h hv

/-- `bar.wait` on a phase that is over answers at once, as an acquire (R106). -/
theorem barWait_of_done (hp : (barOfBits (barRead t r)).phase ≠ c.b % 16) :
    barWait s j c = .ok (acquireNow t j.g.id) (barStatus (barOfBits (barRead t r)) c.b) := by
  have hne : ((barOfBits (barRead t r)).phase != c.b % 16) = true := bne_iff_ne.mpr hp
  simp only [barWait, withBar_of_resolved h, hv, hne, Bool.not_true, Bool.false_eq_true, if_false, if_true]

/-- On the phase of its token the group waits, on the barrier that it found (R106). -/
theorem barWait_of_pending (hp : (barOfBits (barRead t r)).phase = c.b % 16) :
    (∀ co o ad, r = .loc co o ad → barWait s j c = .held t (.bar o (some co) c.b c.a)) ∧
    (∀ va pa pl, r = .glob va pa pl → barWait s j c = .held t (.bar pl none c.b c.a)) := by
  have hne : ((barOfBits (barRead t r)).phase != c.b % 16) = false := by simpa using hp
  refine ⟨fun co o ad hr => ?_, fun va pa pl hr => ?_⟩ <;> subst hr <;>
    simp only [barWait, withBar_of_resolved h, hv, hne, Bool.not_true, Bool.false_eq_true, if_false]

end
end

/-! ### `bar.test` (R107) -/

/-- `bar.test` of lanes that pass their checks, whose requests are answered and whose global barriers are undamaged. -/
theorem exec_barTest {s t v : State} {f : FWord} {x : Issue} {ls : List LaneOk} (h : issueOf s (.barTest f) = some x) (ha : x.act ≠ [])
    (hc : checkLanes (markUnrec (readPoint (entry s x) x.g.id) x.g.id) x (spaceOf (fmod f 0 2)) 16 16 1 true false true
      (baseAddrs (markUnrec (readPoint (entry s x) x.g.id) x.g.id) x) = .ok t ls)
    (hl : lostLanes (drainOver t x.g.id ((ls.filter fun k => k.loc.isNone).map fun k => (k.place, 16))) ls = ([], v))
    (hb : ∀ k ∈ ls, k.loc = none → badPlaces v ((List.range 16).map (k.place + ·)) = false) :
    let vs := ls.map fun k => (k.lane, barStatus (barOfBits (laneBits (barReads v ls) k)) (rdB (barReads v ls) x k.lane))
    let u := modGroup (barReads v ls) x.g.id fun g => putDst g (.barTest f) vs
    exec (.barTest f) s = .next (plain (if vs.any (fun v => v.2.testBit 31) then acquireNow u x.g.id else touchRead u x.g.id) x) := by
  have hbad : ls.filter (fun k => k.loc.isNone && badPlaces v ((List.range 16).map (k.place + ·))) = [] := by
    simpa [List.filter_eq_nil_iff] using hb
  refine issue_of_done h ?_
  simp only [anyLane, List.isEmpty_eq_false_iff.mpr ha, Bool.false_eq_true, if_false, hc, hl, hbad, issueOf_i h]

end Sys2Proof.Barriers

open Sys2Proof.Machine Sys2Proof.Barriers

/-- Settles O33: an update ends the phase exactly where nothing of it is pending. -/
theorem barrierPhase : Obligations.BarrierPhase := by
  intro s r b
  by_cases h : PhaseOver b
  · rw [barUpdate_of_over h]; exact (if_pos h).symm
  · rw [barUpdate_of_pending h]; exact (if_neg h).symm

open Sys2Proof.Safety Sys2Proof.EngineIssue

/-- Settles O34: each instruction by the answer of its command on the barrier, at the end of its issue. -/
theorem barrierInstructions : Obligations.BarrierInstructions := by
  refine ⟨fun s y x t r => ⟨fun ⟨h, ho, hr⟩ h1 h20 => ?_, fun ⟨h, ho, hr⟩ hv hn => ?_, fun ⟨h, ho, hr⟩ hv hn ha => ?_, fun ⟨h, ho, hr⟩ => ?_⟩,
    fun s y x t r h ho hr hv => ⟨fun hp => ?_, fun hp => ⟨fun co o ad e => ?_, fun va pa pl e => ?_⟩⟩,
    fun s f x t ls h ha hc hl hb => exec_barTest h ha hc (Prod.ext hl rfl) hb⟩
  · exact issue_engineCmd_ok h ho (barInit_of_count hr h1 h20)
  · exact issue_engineCmd_ok h ho (barArrive_of_pending hr hv hn)
  · exact issue_engineCmd_ok h ho (barExpect_of_room (xmod_one_eq_testBit y 2) hr hv hn ha)
  · exact issue_engineCmd_ok h ho (barInval_of_resolved hr)
  · have hw := barWait_of_done (c := specOf (engineState s x 0x213 false) x 0x213 y false) hr hv hp
    rw [groupIssuer_g] at hw
    exact issue_engineCmd_ok h ho hw
  · exact issue_engineCmd_held h ho ((barWait_of_pending hr hv hp).1 co o ad e)
  · exact issue_engineCmd_held h ho ((barWait_of_pending hr hv hp).2 va pa pl e)
end

section
/-! SUPPORT. `pres` and `qfence` (R97, R110). -/
namespace Sys2Proof.Presence
open Sys2Proof.Machine Sys2Proof.Safety Sys2Proof.Laws Sys2Proof.EngineIssue

/-! ### `pres` (R97) -/

/-- A choice that every element of a list has collects the choices. -/
theorem filterMap_of_mapM {α β : Type} {f : α → Option β} {l : List α} {bs : List β} (h : l.mapM f = some bs) :
    l.filterMap f = bs ∧ ∀ a ∈ l, (f a).isSome = true := by
  induction l generalizing bs with
  | nil => cases h; exact ⟨rfl, by simp⟩
  | cons a l ih =>
    simp only [List.mapM_cons, Option.bind_eq_bind, Option.bind_eq_some_iff, Option.pure_def, Option.some.injEq] at h
    obtain ⟨b, hb, cs, hcs, rfl⟩ := h
    obtain ⟨hm, hs⟩ := ih hcs
    exact ⟨by rw [List.filterMap_cons_some hb, hm], by simpa [hb] using hs⟩

/-- A lane with the core and the first of the 32 lines that its operand names. -/
def presTarget (s : State) (x : Issue) (e : Nat × Nat) : Option (Nat × Nat × Nat) :=
  match localTarget s x.g e.2 4096 with | some (.loc c o) => some (e.1, c, o / 128) | _ => none

/-- The error of a lane's operand. -/
def presErr (s : State) (x : Issue) (e : Nat × Nat) : Option (Nat × LaneErr) :=
  if e.2 % 128 != 0 then some (e.1, ⟨kALIGN, 0, e.2⟩) else if (localTarget s x.g e.2 4096).isNone then some (e.1, ⟨kSEG, 0, e.2⟩) else none

theorem presErr_eq_none {s : State} {x : Issue} {e : Nat × Nat} (ha : e.2 % 128 = 0) (ht : (presTarget s x e).isSome = true) :
    presErr s x e = none := by
  unfold presTarget at ht
  cases hl : localTarget s x.g e.2 4096 with
  | none => simp [hl] at ht
  | some t => simp [presErr, ha, hl]

/-- Lines that are no longer FAILED (R96). -/
def linesCleared (s : State) (ts : List (Nat × Nat × Nat)) : State :=
  ts.foldl (fun s t => (List.range 32).foldl (fun s k => modLine s t.2.1 (t.2.2 + k) fun k => { k with failed := none }) s) s

/-- `pres` of lanes whose operands name lines of their own local memory. -/
theorem presOp_of_targets {s : State} {x : Issue} {ts : List (Nat × Nat × Nat)} (ha : ∀ l ∈ x.act, rdA s x l % 128 = 0)
    (ht : x.act.mapM (fun l => presTarget s x (l, rdA s x l)) = some ts) (bit : State → Nat → Nat → Bool) (clear : Bool) :
    presOp x s bit clear =
      .done (modGroup (if clear then linesCleared s ts else s) x.g.id fun g =>
        putDst g x.i (ts.map fun t => (t.1, maskOf ((List.range 32).filter fun k => bit s t.2.1 (t.2.2 + k))))) [] := by
  obtain ⟨hts, hsome⟩ := filterMap_of_mapM ht
  have hnone : (baseAddrs s x).filterMap (presErr s x) = [] := by
    rw [baseAddrs, List.filterMap_map, List.filterMap_eq_nil_iff]
    exact fun l hl => presErr_eq_none (ha l hl) (hsome l hl)
  have hall : (baseAddrs s x).filterMap (presTarget s x) = ts := by rw [baseAddrs, List.filterMap_map]; exact hts
  have hfirst : firstErr ((baseAddrs s x).filterMap (presErr s x)) = none := by rw [hnone]; rfl
  subst hall
  unfold presOp
  dsimp only
  split
  · next hf => exact absurd (hf.symm.trans hfirst) (Option.some_ne_none _)
  · rfl

/-- Any form of `pres`, by the bit that it asks of each line. -/
theorem issue_pres {s : State} {i : Instr} {x : Issue} {ts : List (Nat × Nat × Nat)} (ha : ∀ l ∈ x.act, rdA (entry s x) x l % 128 = 0)
    (ht : x.act.mapM (fun l => presTarget (entry s x) x (l, rdA (entry s x) x l)) = some ts) (h : issueOf s i = some x)
    (bit : State → Nat → Nat → Bool) (clear : Bool) :
    issue i s (fun x s => presOp x s bit clear) =
      .next (dstResult (if clear then linesCleared (entry s x) ts else entry s x) x
        (ts.map fun t => (t.1, maskOf ((List.range 32).filter fun k => bit (entry s x) t.2.1 (t.2.2 + k))))) :=
  issue_of_done h (presOp_of_targets ha ht bit clear)

/-! ### `qfence` (R110) -/

section
variable {t : State} {j : Issuer} {c : CmdSpec}

theorem qfenceCmd_of_order (h : c.moda.testBit 0 = false) :
    let cs := cmdsIn t j.g.id (c.imm % 256)
    qfenceCmd t j c =
      .ok (if cs = [] then t else modGroup t j.g.id fun g => { g with fences := g.fences ++ [(c.imm % 256, cs.map (·.id))] }) 0 := by
  simp only [qfenceCmd, h, Bool.false_eq_true, if_false]

/-- `qfence` with C, once no command of its queues is left. -/
theorem qfenceCmd_of_over (h : c.moda.testBit 0 = true) (hn : cmdsIn t j.g.id (c.imm % 256) = []) :
    qfenceCmd t j c =
      .ok (acquireNow (modGroup t j.g.id fun g => { g with failed := g.failed.filter fun e => !(c.imm % 256).testBit e.1 }) j.g.id)
        (j.g.failed.filter fun e => (c.imm % 256).testBit e.1).length := by
  simp only [qfenceCmd, h, hn, bne_self_eq_false, Bool.false_eq_true, if_false, if_true]

end

section
variable {s : State} {y : XWord} {x : Issue} (h : issueOf s (.qfence y) = some x) (ha : x.act ≠ [])
include h

include ha in
/-- Without C `qfence` waits for no control command: it only orders commands. -/
theorem exec_qfence_order (hc : xmod y 0 1 = 0) :
    let t := engineState s x 0x228 (xmod y 0 1 == 1)
    let c := specOf t x 0x228 y false
    let cs := cmdsIn t x.g.id (c.imm % 256)
    exec (.qfence y) s = .next (engineDone x y c false
      (if cs = [] then t else modGroup t x.g.id fun g => { g with fences := g.fences ++ [(c.imm % 256, cs.map (·.id))] }) 0) := by
  have hr : (xmod y 0 1 == 1) = false := by rw [hc]; rfl
  have hm : y.moda.toNat.testBit 0 = false := by rw [← xmod_one_eq_testBit, hr]
  have hq := qfenceCmd_of_order (t := engineState s x 0x228 (xmod y 0 1 == 1)) (j := groupIssuer (engineState s x 0x228 (xmod y 0 1 == 1)) x.g)
    (c := specOf (engineState s x 0x228 (xmod y 0 1 == 1)) x 0x228 y false) hm
  refine issue_of_doneWith h ((engineCmd_of_free ha (fun e => absurd (hr.symm.trans e) Bool.false_ne_true) (by rw [hm]; simp)).trans ?_)
  rw [cmdAnswer, hq, groupIssuer_g]
  rfl

theorem exec_qfence_wait (ho : engineOpen s x 0x228 true) (hc : xmod y 0 1 = 1)
    (hn : cmdsIn (engineState s x 0x228 true) x.g.id (xtail y 2 32 % 256) = []) :
    let t := engineState s x 0x228 true
    let mask := xtail y 2 32 % 256
    exec (.qfence y) s = .next (engineDone x y (specOf t x 0x228 y false) false
      (acquireNow (modGroup t x.g.id fun g => { g with failed := g.failed.filter fun e => !mask.testBit e.1 }) x.g.id)
      (x.g.failed.filter fun e => mask.testBit e.1).length) := by
  have hr : (xmod y 0 1 == 1) = true := by rw [hc]; rfl
  have hm : y.moda.toNat.testBit 0 = true := by rw [← xmod_one_eq_testBit, hr]
  have hq := qfenceCmd_of_over (t := engineState s x 0x228 true) (j := groupIssuer (engineState s x 0x228 true) x.g)
    (c := specOf (engineState s x 0x228 true) x 0x228 y false) hm (by rw [groupIssuer_g]; exact hn)
  rw [groupIssuer_g] at hq
  change issue (.qfence y) s (fun x s => engineCmd x s y 0x228 false (xmod y 0 1 == 1) qfenceCmd) = _
  rw [hr]
  exact issue_engineCmd_ok h ho hq

end

end Sys2Proof.Presence

open Sys2Proof.Machine Sys2Proof.Safety Sys2Proof.EngineIssue Sys2Proof.Presence

/-- Settles O35: a form of `pres` by the bit that it asks of each line; `qfence` by C. -/
theorem presenceAndQueueFence : Obligations.PresenceAndQueueFence := by
  refine ⟨fun s f x i ts h hi ha ht => ?_, fun s y x h ha ho => ⟨exec_qfence_order h ha, fun hc hn => ?_⟩⟩
  · rcases hi with rfl | rfl | rfl
    all_goals simp only [reduceCtorEq, if_true, if_false]
    · exact issue_pres ha ht h linePresent false
    · exact issue_pres ha ht h lineFailed false
    · exact issue_pres ha ht h lineFailed true
  · have hr : (xmod y 0 1 == 1) = true := by rw [hc]; rfl
    simp only [hr] at hn ⊢
    exact exec_qfence_wait h (ho hc) hc hn
end

section
/-! SUPPORT. `wmap`, `wflush` and `wunmap` (R98, R102). -/
namespace Sys2Proof.WindowOps
open Sys2Proof.Machine Sys2Proof.Safety Sys2Proof.Laws

section
variable {s : State} {x : Issue} {y : XWord} {tm : Team} {d : Dispatch}

/-! ### `wmap` -/

/-- The windows that teams hold on a core's local memory. -/
def windowCount (t : State) (c : Nat) : Nat := ((t.teams.filter fun u => u.core == c && u.frame.isNone).map (·.windows.length)).foldl (· + ·) 0

/-- A range of local memory whose lines are unfilled window lines (R98). -/
def linesUnfilled (t : State) (c : Nat) (ls : List Nat) : State := ls.foldl (fun s l => modLine s c l fun k => { k with win := 1, mask := 0 }) t

/-- The operands that `wmap` takes: a name of the team's that is free, over a free range of its own local memory, with the place of that range, and a
run of addresses inside the dispatch's leases (R102). -/
structure WmapOk (t : State) (x : Issue) (w : Nat) (tm : Team) (d : Dispatch) (c o : Nat) : Prop where
  aligned : rdA t x x.lead % 4096 = 0 ∧ rdC t x x.lead % 4096 = 0 ∧ rdB t x x.lead % 128 = 0
  team : teamOf t x.g = some tm
  disp : dispOf t x.g = some d
  range : rdC t x x.lead ≠ 0 ∧ localTarget t x.g (rdA t x x.lead) (rdC t x x.lead) = some (.loc c o)
  addrs : canonical (rdB t x x.lead) = true ∧ va57 (rdB t x x.lead) + rdC t x x.lead ≤ 2 ^ 57 ∧ inLease d (va57 (rdB t x x.lead)) (rdC t x x.lead) = true
  room : windowCount t c < 16
  free : tm.windows.all (fun v => !overlap v.base v.len o (rdC t x x.lead) && v.name != w) = true

theorem exec_wmap {t : State} {c o : Nat} (h : issueOf s (.wmap y) = some x) (ha : x.act ≠ [])
    (ht : markUnrec (drainGroup (entry s x) x.g.id) x.g.id = t) (hb : ctlBusy t x.g.id = false) (hk : WmapOk t x (xtail y 2 4) tm d c o) :
    exec (.wmap y) s = .next (wideResult (linesUnfilled (modTeamOf t x.g fun u =>
        { u with windows := u.windows ++ [⟨xtail y 2 4, o, rdC t x x.lead, va57 (rdB t x x.lead), false, 0, [], []⟩] })
      c (linesOfRange o (rdC t x x.lead))) x 0) := by
  obtain ⟨⟨ha4, hn4, hva⟩, htm, hd, ⟨hn, hl⟩, ⟨hc, hend, hlease⟩, hw, hfree⟩ := hk
  simp only [List.all_eq_true, Bool.and_eq_true, Bool.not_eq_true', bne_iff_ne] at hfree
  have hover : tm.windows.any (fun v => overlap v.base v.len o (rdC t x x.lead)) = false := by simpa using fun v hv => (hfree v hv).1
  have hname : tm.windows.any (fun v => v.name == xtail y 2 4) = false := by simpa using fun v hv => (hfree v hv).2
  unfold windowCount at hw
  refine issue_of_doneWith h ?_
  rw [wmapOp, groupWide_of_active ha]
  simp only [ht, hb, ha4, hn4, hn, hva, htm, hd, hl, hc, Nat.not_lt.mpr hend, hlease, Nat.not_le.mpr hw, hover, hname, bne_self_eq_false,
    Bool.not_true, Bool.false_eq_true, or_self, if_false]
  rfl

/-! ### `wflush` and `wunmap` -/

/-- Both instructions, in the frame of one (R102). -/
theorem exec_wflush_or_wunmap {i : Instr} {inv unmap : Bool}
    (hi : i = .wflush y ∧ inv = (xmod y 0 1 == 1) ∧ unmap = false ∨ i = .wunmap y ∧ inv = false ∧ unmap = true) (s : State) :
    exec i s = issue i s fun x s => wflushOp x s y inv unmap := by
  rcases hi with ⟨rfl, rfl, rfl⟩ | ⟨rfl, rfl, rfl⟩ <;> rfl

section
variable {t : State} {inv unmap : Bool} (ha : x.act ≠ []) (hb : ctlBusy s x.g.id = false) (hr : releaseOk (markUnrec s x.g.id) x)
  (ht : acquireNow (released (markUnrec s x.g.id) x) x.g.id = t) (htm : teamOf t x.g = some tm) (hd : dispOf t x.g = some d)
include ha hb hr ht htm hd

/-- A name that the team does not hold. -/
theorem wflushOp_of_unheld (hw : tm.windows.find? (fun v => v.name == xtail y 2 4) = none) :
    wflushOp x s y inv unmap = doneWith t x (2 <<< 24) := by
  rw [wflushOp, groupWide_of_active ha]
  simp only [hb, withRelease_of_releaseOk hr, ht, htm, hd, hw, Bool.false_eq_true, if_false]

/-- The window's lines after the write-back: with `.inv` the clean ones are unfilled again, and the window counts from 0 (R102). -/
def flushed (u : State) (tm : Team) (v : Window) (w : Nat) (inv : Bool) : State :=
  modWindow (if inv then linesUnfilled u tm.core (windowLines u tm v 2) else u) tm.disp tm.teamid w fun v => { v with written := 0, skip := [] }

/-- A window taken from its team, and its lines from the window. -/
def unmapped (u : State) (x : Issue) (tm : Team) (v : Window) (w : Nat) : State :=
  modTeamOf ((linesOfRange v.base v.len).foldl (fun s l => modLine s tm.core l fun k => { k with win := 0, mask := 0 }) u) x.g
    fun t => { t with windows := t.windows.filter fun z => z.name != w }

/-- A write-back that no fault stops, of a window that the team holds. -/
theorem wflushOp_of_written {v : Window} {u : State} {n : Nat} (hw : tm.windows.find? (fun v => v.name == xtail y 2 4) = some v)
    (hwb : writeBackAll t tm v (windowLines t tm v 3) v.written = (u, n, none)) :
    let code := if (windowLines u tm v 3).isEmpty then 0 else 1
    let u2 := flushed u tm v (xtail y 2 4) inv
    wflushOp x s y inv unmap = doneWith (if unmap = true ∧ code = 0 then unmapped u2 x tm v (xtail y 2 4) else u2) x (code <<< 24 + n % 2 ^ 24) := by
  rw [wflushOp, groupWide_of_active ha]
  simp only [hb, withRelease_of_releaseOk hr, ht, htm, hd, hw, hwb, Bool.false_eq_true, if_false]
  rfl

end
end

end Sys2Proof.WindowOps

open Sys2Proof.Machine Sys2Proof.Laws Sys2Proof.WindowOps

/-- Settles O36: `wmap` past its checks; `wflush` and `wunmap` by whether the team holds the name. -/
theorem windows : Obligations.Windows := by
  refine ⟨fun s y x tm d c o h ha hb ha4 hn4 hn hva htm hd hl hc hend hlease hroom hfree =>
      exec_wmap h ha rfl hb ⟨⟨ha4, hn4, hva⟩, htm, hd, ⟨hn, hl⟩, ⟨hc, hend, hlease⟩, hroom, hfree⟩,
    fun s y x i inv unmap tm d hi h ha hb hr htm hd => ⟨fun hw => ?_, fun v u n hw hwb => ?_⟩⟩
  · exact (exec_wflush_or_wunmap hi s).trans (issue_of_doneWith h (wflushOp_of_unheld ha hb hr rfl htm hd hw))
  · exact (exec_wflush_or_wunmap hi s).trans (issue_of_doneWith h (wflushOp_of_written ha hb hr rfl htm hd hw hwb))
end

section
/-! SUPPORT. Steps of the copy engines, the collective engine, the array, and room in a queue (R94, R95, R109, R113, R121, R194). -/
namespace Sys2Proof.EngineWork
open Sys2Proof.Machine

section
variable {s : State} {c : Cmd}

/-! ### Copies (R113) -/

/-- The copies of chapter 04 (R111, R115). -/
def CopyOpc (c : Cmd) : Prop := 0x200 ≤ c.opc ∧ c.opc ≤ 0x205

theorem copyOpc_cases (h : CopyOpc c) : c.opc = 0x200 ∨ c.opc = 0x201 ∨ c.opc = 0x202 ∨ c.opc = 0x203 ∨ c.opc = 0x204 ∨ c.opc = 0x205 := by
  unfold CopyOpc at h; omega

/-- A copy is performed by no unit of its die, and is never left to other steps. -/
theorem cmdRunnable_of_copy (h : CopyOpc c) (hr : cmdReady s c = true) : cmdRunnable s c = true := by
  rcases copyOpc_cases h with e | e | e | e | e | e <;> simp [cmdRunnable, hr, cmdElsewhere, cmdUnit, e]

theorem performCmd_of_copy (h : CopyOpc c) : performCmd s c = performCopy s c := by
  rcases copyOpc_cases h with e | e | e | e | e | e <;> simp [performCmd, cmdUnit, e]

/-- A copy that nothing holds is performed from where it stands, once its barrier's line is filled (R95, R99). -/
theorem exec_copyEnginePerform {s' : State} (hc : findCmd s c.id = some c) (h : CopyOpc c) (hr : cmdReady s c = true) (hb : barReady s c = (s', none)) :
    exec (.copyEnginePerform c.id) s = .next (performCopy s' c) := by
  change execCopyEnginePerform c.id s = _
  simp only [execCopyEnginePerform, event, hc, cmdRunnable_of_copy h hr, if_true, runCmd, hb, performCmd_of_copy h]

/-! ### Collectives (R120, R121) -/

/-- The ranks of a collective issued matching commands. -/
def PeersAgree (c : Cmd) (peers : List CollPeer) : Prop :=
  ∀ q ∈ peers, q.op = fldN c.moda 4 2 ∧ q.red = fldN c.moda 6 2 ∧ q.ty = fldN c.moda 8 4 ∧ q.count = c.len

/-- A collective whose ranks agree reads its source and writes what its operation gives of every rank's. -/
theorem startColl_of_agree {peers : List CollPeer} {t u : State} {bs : List Byte} (hp : PeersAgree c peers)
    (hr : engRead s c (.glob (va57 c.b)) ((collElems (fldN c.moda 4 2) (cmdRanks c).length c.len).1 * collSize (fldN c.moda 8 4)) = (t, .ok bs))
    (hw : engWrite t c (.glob (va57 c.a)) ((collResult (fldN c.moda 4 2) (fldN c.moda 6 2) (fldN c.moda 8 4) c.len ((cmdRanks c).idxOf s.devnum)
      ((peers.take ((cmdRanks c).idxOf s.devnum)).map (·.data) ++ [bs] ++ (peers.drop ((cmdRanks c).idxOf s.devnum)).map (·.data))).flatMap
        (leBytes (collSize (fldN c.moda 8 4)))) = (u, none)) :
    startColl s c peers = finishCmd u c := by
  have hn : peers.any (fun p => p.op != fldN c.moda 4 2 || p.red != fldN c.moda 6 2 || p.ty != fldN c.moda 8 4 || p.count != c.len) = false := by
    refine List.any_eq_false.mpr fun q hq => ?_
    obtain ⟨h1, h2, h3, h4⟩ := hp q hq
    simp [h1, h2, h3, h4]
  simp only [startColl, hn, hr, hw, Bool.false_eq_true, if_false]

theorem exec_collStart {peers : List CollPeer} (hc : findCmd s c.id = some c) (ho : c.opc = 0x208) (hr : cmdReady s c = true)
    (hf : collFirst s c = true) (hh : unitHeld s (coreDie c.core) .collective = false) (hu : unitOff s (coreDie c.core) .collective = false)
    (hl : peers.length + 1 = (cmdRanks c).length) : exec (.collStart c.id peers) s = .next (startColl s c peers) := by
  change execCollStart c.id peers s = _
  simp only [execCollStart, event, hc, ho, hr, hf, hh, hu, hl, bne_self_eq_false, Bool.not_true, Bool.or_self, Bool.false_eq_true, if_false]

/-! ### The array, and queues (R109, R194) -/

theorem exec_arrayPerform {k : Core} {st : Staged} {rest : List Staged} (hk : findCore s k.lcore = some k) (ha : k.array = st :: rest) :
    exec (.arrayPerform k.lcore) s = .next (performStaged (modCore s k.lcore fun k => { k with array := rest }) k.lcore st) := by
  change execArrayPerform k.lcore s = _
  simp only [execArrayPerform, event, arrayStep, hk, Option.map_some, ha]

/-- Room in the queue that a group waits for lets it execute its instruction again. -/
theorem exec_engineQueueRoom {g : Group} {q core : Nat} (hg : findGroup s g.id = some g) (hs : g.state = .park) (hw : g.wait = .queueRoom core q)
    (hc : q = ctlQueue → ctlBusy s g.id = false) (hl : queueLen s core q < 64) :
    exec (.engineQueueRoom g.id) s = .next (modGroup s g.id unparkGroup) := by
  have hfree : (q != ctlQueue || !ctlBusy s g.id) = true := by
    by_cases h : q = ctlQueue
    · simp [hc h]
    · simp [h]
  have hroom : queueHasRoom s g = true := by simp only [queueHasRoom, hw, hs, hfree, hl, beq_self_eq_true, decide_true, Bool.and_self]
  change execEngineQueueRoom g.id s = _
  simp only [execEngineQueueRoom, event, hg, hroom, if_true]

end

end Sys2Proof.EngineWork

open Sys2Proof.EngineWork

/-- Settles O53: a copy by `performCopy`, which the statement writes out; a collective by what its ranks agreed on; the other two by their own step. -/
theorem engineSteps : Obligations.EngineSteps :=
  fun _ => ⟨fun _ _ hc h0 h5 hr hb => exec_copyEnginePerform hc ⟨h0, h5⟩ hr hb,
    fun _ _ _ _ _ hc ho hr hf hh hu hl hp hread hwrite =>
      (exec_collStart hc ho hr hf hh hu hl).trans (congrArg _ (startColl_of_agree hp hread hwrite)),
    fun _ _ _ => exec_arrayPerform, fun _ _ _ => exec_engineQueueRoom⟩
end

section
/-! SUPPORT. Steps of the sectors and of the task queues: the group that is issued, grants of blocks, records delivered, rings with room
(R130, R192, R330, R331, R343, R346, R347, R350, R354, R356). -/
namespace Sys2Proof.GroupSteps
open Sys2Proof.Machine Sys2Proof.Safety Sys2Proof.Laws

section
variable {s : State} {g : Group}

/-! ### Sectors -/

/-- A sector that no other precedes issues the group that it selects on its clock, with those that join it (R330, R331). -/
theorem exec_issue_of_selected {c sector : Nat} (h0 : (selectGroup s c sector).isSome = true) (he : issuesEarlier s c sector = false)
    (hg : selectGroup (reachSector s c sector) c sector = some g) :
    let js := if g.width < 64 then joinGroups (sectorReady (reachSector s c sector) c sector) g else []
    exec (.issue c sector) s =
      .next { markIssued (reachSector s c sector) (g.id :: js.map (·.id)) with cur := some g.id, joined := js.map (·.id) } := by
  change execIssue c sector s = _
  have hn : ((selectGroup s c sector).isNone || issuesEarlier s c sector) = false := by
    rw [he, Bool.or_false, Option.isNone_eq_false_iff]; exact h0
  simp only [execIssue, event, hn, hg, Bool.false_eq_true, if_false]

theorem exec_issue_of_earlier {c sector : Nat} (he : issuesEarlier s c sector = true) : exec (.issue c sector) s = .next s := by
  change execIssue c sector s = _
  simp only [execIssue, event, he, Bool.or_true, if_true]

section
variable (hg : findGroup s g.id = some g)
include hg

/-- 1,024 clocks ready raise AGE (R330). -/
theorem exec_aging (hr : 1024 ≤ g.readyClks) :
    ∃ t, exec (.aging g.id) s = .next t ∧ findGroup t g.id = some { g with readyClks := g.readyClks - 1024, age := g.age + 1 } := by
  refine ⟨_, rfl, (findGroup_modGroup hg fun h => ?_).trans (congrArg some (if_pos hr))⟩
  split <;> rfl

/-- A nap that is over makes its lane live (R192). -/
theorem exec_napExpiry {l n : Nat} (hn : (l, n) ∈ g.naps) (hc : n ≤ s.clk) :
    exec (.napExpiry g.id l) s =
      .next (setGroup s { g with parked := g.parked &&& ~~~maskLanes [l], naps := g.naps.filter fun e => e.1 != l }) := by
  have hany : g.naps.any (fun n => n.1 == l && decide (n.2 ≤ s.clk)) = true := List.any_eq_true.mpr ⟨_, hn, by simp [hc]⟩
  change execNapExpiry g.id l s = _
  simp only [execNapExpiry, event, hg, hany, if_true]

/-- The blocks that a parked `rgrow` asks for are granted, and it completes (R130). -/
theorem exec_rgrowGrant {n : Nat} {bs : List Nat} (hs : g.state = .park) (hw : g.wait = .rgrow n) (hb : growBlocks s g n = some bs) :
    exec (.rgrowGrant g.id) s = .next (releaseGroup (leaveGrowers (growGroup s g.id bs) g) g.id n) := by
  change execRgrowGrant g.id s = _
  simp only [execRgrowGrant, event, hg, hs, hw, hb]

/-! ### Delivery of records (R343, R346, R347, R350) -/

section
variable {d : Dispatch} {t u : State} {q r : List Byte} (hd : dispOf s g = some d) (hw : workerFree s g = true)
  (hm : vaMigs s (ctxOf d (dieOf g)) .write (taskqVa d) 256 = false) (hq : readQueue s d (dieOf g) = (t, some q))
include hd hw hm hq

/-- A worker that finds no record leaves the line for blocks, and exits where none is to come (R347). -/
theorem deliverTask_of_empty (h0 : qUsed q = 0) :
    deliverTask s g.id = if liveRecords t d + liveTasks t d = 0 then exitGroup (leaveGrowers t g) g.id else leaveGrowers t g := by
  simp only [deliverTask, hg, hd, hw, hm, hq, h0, Bool.not_true, Bool.or_self, Bool.false_eq_true, if_false, if_true]

section
variable (h0 : qUsed q ≠ 0) (hr : rdVa t (ctxOf d (dieOf g)) (qRing q + 64 * (qHead q % qCount q)) 64 = (u, some r))
include h0 hr

/-- A malformed record is skipped and posted (R350). -/
theorem deliverTask_of_malformed (hb : malformedRec d q r = true) :
    deliverTask s g.id = notify (advanceHead u d (dieOf g) q) (dieOf g) (.unit (dieOf g) unitSched)
      { kind := evBadTask, extra := BitVec.ofNat 64 (recTidx r), team := g.teamid, disp := g.disp } := by
  simp only [deliverTask, hg, hd, hw, hm, hq, h0, hr, hb, Bool.not_true, Bool.or_self, Bool.false_eq_true, if_false, if_true]

/-- A worker whose record names blocks that are not free stands in line for them (R130, R346). -/
theorem deliverTask_of_wait (hb : malformedRec d q r = false) (hn : taskBlocks u g (recByte d 21) = none) :
    deliverTask s g.id = joinGrowers u g := by
  simp only [deliverTask, hg, hd, hw, hm, hq, h0, hr, hb, hn, Bool.not_true, Bool.or_self, Bool.false_eq_true, if_false]

/-- The record at HEAD goes to the worker with its registers (R343, R346). -/
theorem deliverTask_of_blocks {bs : List Nat} (hb : malformedRec d q r = false) (hn : taskBlocks u g (recByte d 21) = some bs) :
    deliverTask s g.id = modGroup (acquireNow (advanceHead (leaveGrowers u g) d (dieOf g) q) g.id) g.id
      fun h => deliverTo (acquireNow (advanceHead (leaveGrowers u g) d (dieOf g) q) g.id) d h bs r := by
  simp only [deliverTask, hg, hd, hw, hm, hq, h0, hr, hb, hn, Bool.not_true, Bool.or_self, Bool.false_eq_true, if_false]

end
end

/-! ### Limits, and room in the ring (R350, R354) -/

/-- A task at its limit ends with WDOG (R350). -/
theorem exec_taskWdog {k : TaskCtx} (hk : g.task = some k) (hl : k.start + k.limit ≤ s.clk) :
    exec (.taskWdog g.id) s = .next (endWith s g.id kWDOG ((issueAddr g).getD exitPc) 0 0 [] 0) := by
  change execTaskWdog g.id s = _
  simp only [execTaskWdog, event, hg, hk, hl, if_true]

section
variable (hs : g.state = .park) (hw : g.wait = .ring)
include hs hw

/-- A task over that waits for room ends with its successor's record appended (R348, R354). -/
theorem resumeRing_of_pending {k : TaskCtx} (hk : g.task = some k) (hp : k.pend ≠ []) : resumeRing s g.id = endTask s g.id := by
  simp [resumeRing, hg, hs, hw, hk, hp]

/-- A group that waits for room in an instruction tries it again (R354). -/
theorem resumeRing_of_instr (hk : ∀ k, g.task = some k → k.pend = []) : resumeRing s g.id = modGroup s g.id unparkGroup := by
  have hp : (g.task.map (fun t => t.pend != [])).getD false = false := by
    cases h : g.task with
    | none => rfl
    | some k => simp [hk k h]
  simp [resumeRing, hg, hs, hw, hp]

end
end

/-! ### Coalescing nodes (R356) -/

section
variable {d : Dispatch} {n : NodeSt} {k : Nat} (hd : findDisp s d.id = some d) (hn : d.nodes.find? (fun n => n.node == k) = some n)
include hd hn

/-- A node whose time is over starts its release. -/
theorem exec_nodeFlushTimer {f : Nat} {q : List Byte} (hf : n.since = some f) (hq : (readQueue s d (partDie s d.part)).2 = some q)
    (hc : f + nodeF q k ≤ s.clk) : exec (.nodeFlushTimer d.id k) s = .next (startRelease s d.id (partDie s d.part) k) := by
  change execNodeFlushTimer d.id k s = _
  simp only [execNodeFlushTimer, event, hd, hn, Option.bind_some, hf, hq, hc, if_true]

/-- Batches in release go on where no page that they need migrates. -/
theorem releaseNode_of_batches {die : Nat} (hb : n.batches ≠ []) (hm : appendMigs s d die 0 (n.batches.headD []).length = false) :
    releaseNode s d.id die k = pushBatches s d.id die k n.batches := by
  simp only [releaseNode, hd, Option.bind_some, hn, hb, hm, Option.map_some, Option.getD_some, decide_false, Bool.or_self, Bool.false_eq_true,
    if_false]

theorem exec_nodeRelease_or_ringRoom {i : Instr} (hi : i = .nodeRelease d.id k ∨ i = .ringRoomResume d.id (.node k)) (hb : n.batches ≠ [])
    (hm : appendMigs s d (partDie s d.part) 0 (n.batches.headD []).length = false) :
    exec i s = .next (pushBatches s d.id (partDie s d.part) k n.batches) := by
  have hr := releaseNode_of_batches hd hn hb hm
  rcases hi with rfl | rfl
  · change execNodeRelease d.id k s = _
    simp only [execNodeRelease, event, hd, hr]
  · change execRingRoomResume d.id (.node k) s = _
    simp only [execRingRoomResume, event, hd, hr]

end
end

end Sys2Proof.GroupSteps

open Sys2Proof.Machine Sys2Proof.GroupSteps

/-- Settles O50: a sector by what it selects on its clock; the other steps by what their group waits for. -/
theorem schedulingSteps : Obligations.SchedulingSteps := fun _ _ =>
  ⟨fun _ _ h0 he hg => exec_issue_of_selected h0 he hg, fun _ _ he => exec_issue_of_earlier he, fun hr hg => exec_aging hg hr,
    fun _ _ hg hn hc => exec_napExpiry hg hn hc, fun _ _ hg hs hw hb => exec_rgrowGrant hg hs hw hb⟩

/-- Settles O55: delivery by the record at HEAD and the blocks that are free for it; nodes and waits for the ring by what is left to append. -/
theorem taskSteps : Obligations.TaskSteps := fun _ _ _ hg =>
  ⟨fun _ _ hd hw hm hq =>
      ⟨fun _ _ h0 hr =>
        ⟨fun _ hb hn => congrArg _ (deliverTask_of_blocks hg hd hw hm hq h0 hr hb hn),
          fun hb hn => congrArg _ (deliverTask_of_wait hg hd hw hm hq h0 hr hb hn),
          fun hb => congrArg _ (deliverTask_of_malformed hg hd hw hm hq h0 hr hb)⟩,
        fun h0 => congrArg _ (deliverTask_of_empty hg hd hw hm hq h0)⟩,
    fun _ hk hl => exec_taskWdog hg hk hl,
    fun _ _ _ _ hd hn hf hq hc => exec_nodeFlushTimer hd hn hf hq hc,
    fun _ _ hd hn hb hm => ⟨exec_nodeRelease_or_ringRoom hd hn (.inl rfl) hb hm, exec_nodeRelease_or_ringRoom hd hn (.inr rfl) hb hm⟩,
    fun hs hw => ⟨fun _ hk hp => congrArg _ (resumeRing_of_pending hg hs hw hk hp), fun hk => congrArg _ (resumeRing_of_instr hg hs hw hk)⟩⟩
end

section
/-! SUPPORT. What performing a group's accesses in flight keeps: the group is found again as wide as it was, a store error that it holds stays,
and no byte of local memory changes (R137 to R139, R302, R308, R310). -/
namespace Sys2Proof.Draining
open Sys2Proof.Machine Sys2Proof.Safety Sys2Proof.Laws Sys2Proof.Accesses

/-! ### The relation -/

/-- What a group keeps while its accesses in flight are performed. -/
structure GroupKept (g h : Group) : Prop where
  width : h.width = g.width
  storeErr : ∀ a, g.storeErr = some a → h.storeErr = some a

theorem GroupKept.refl (g : Group) : GroupKept g g := ⟨rfl, fun _ h => h⟩

theorem GroupKept.trans {g h k : Group} (a : GroupKept g h) (b : GroupKept h k) : GroupKept g k :=
  ⟨b.width.trans a.width, fun e he => b.storeErr e (a.storeErr e he)⟩

/-- Every group is found again, and local memory stands. -/
structure Kept (s t : State) : Prop where
  group : ∀ {id g}, findGroup s id = some g → ∃ h, findGroup t id = some h ∧ GroupKept g h
  lmem : ∀ c o, rdLocal t c o = rdLocal s c o

theorem Kept.refl (s : State) : Kept s s := ⟨fun h => ⟨_, h, .refl _⟩, fun _ _ => rfl⟩

theorem Kept.trans {s t u : State} (a : Kept s t) (b : Kept t u) : Kept s u :=
  ⟨fun h => by
    obtain ⟨g', h', k'⟩ := a.group h
    obtain ⟨g'', h'', k''⟩ := b.group h'
    exact ⟨g'', h'', k'.trans k''⟩,
  fun c o => (b.lmem c o).trans (a.lmem c o)⟩

theorem Kept.foldl {α : Type} {f : State → α → State} (hf : ∀ s a, Kept s (f s a)) (l : List α) (s : State) : Kept s (l.foldl f s) := by
  induction l generalizing s with
  | nil => exact .refl s
  | cons a l ih => exact (hf s a).trans (ih _)

/-- A byte of local memory is read from the cores' local memories alone. -/
theorem rdLocal_of_cores {s t : State} {f : Core → Core} (h : t.cores = s.cores.map f) (hl : ∀ k, (f k).lcore = k.lcore)
    (hm : ∀ k, (f k).lmem = k.lmem) (c o : Nat) : rdLocal t c o = rdLocal s c o := by
  have hp : (fun k : Core => k.lcore == c) ∘ f = fun k => k.lcore == c := by funext k; simp [hl]
  simp only [rdLocal, findCore, h, List.find?_map, hp]
  cases s.cores.find? fun k => k.lcore == c with
  | none => rfl
  | some k => simp [hm]

theorem Kept.of_cores {s t : State} {f : Core → Core} (hg : t.groups = s.groups) (h : t.cores = s.cores.map f) (hl : ∀ k, (f k).lcore = k.lcore)
    (hm : ∀ k, (f k).lmem = k.lmem) : Kept s t :=
  ⟨fun {_ g} hs => ⟨g, by rwa [findGroup, hg], .refl g⟩, rdLocal_of_cores h hl hm⟩

theorem Kept.of_eq {s t : State} (hg : t.groups = s.groups) (hc : t.cores = s.cores) : Kept s t :=
  .of_cores (f := id) hg (by simp [hc]) (fun _ => rfl) fun _ => rfl

theorem kept_modCore (s : State) (c : Nat) {f : Core → Core} (hl : ∀ k, (f k).lcore = k.lcore) (hm : ∀ k, (f k).lmem = k.lmem) :
    Kept s (modCore s c f) :=
  .of_cores (f := fun k => if k.lcore = c then f k else k) rfl rfl (fun k => by split <;> simp [hl]) fun k => by split <;> simp [hm]

theorem kept_modGroup (s : State) (id : Nat) {f : Group → Group} (hi : ∀ g, (f g).id = g.id) (hf : ∀ g, GroupKept g (f g)) :
    Kept s (modGroup s id f) :=
  ⟨fun {n g} h => by
    by_cases hn : id = n
    · subst hn; exact ⟨_, findGroup_modGroup h hi, hf g⟩
    · exact ⟨g, (findGroup_modGroup_other hn hi).trans h, .refl g⟩,
  fun _ _ => rfl⟩

theorem kept_setGroup {s : State} {g h : Group} (hs : findGroup s g.id = some h) (hk : GroupKept h g) : Kept s (setGroup s g) :=
  ⟨fun {n k} hn => by
    by_cases he : g.id = n
    · subst he
      cases hs.symm.trans hn
      exact ⟨g, findGroup_setGroup hs, hk⟩
    · exact ⟨k, (findGroup_setGroup_other he).trans hn, .refl k⟩,
  fun _ _ => rfl⟩

/-! ### Memory -/

theorem kept_stampWrites (s : State) (ks : List Nat) : Kept s (stampWrites s ks) :=
  .of_cores rfl rfl (fun k => by split <;> rfl) fun k => by split <;> rfl

theorem kept_wrPlaces (s : State) (o : Option Nat) (bs : List (Nat × Byte)) : Kept s (wrPlaces s o bs) := by
  obtain ⟨_, _, e⟩ := wrPlaces_eq s o bs
  rw [e]
  exact .of_eq rfl rfl

theorem kept_wrCoherent (s : State) (bs : List (Nat × Byte)) : Kept s (wrCoherent s bs) :=
  ((kept_stampWrites s _).trans (kept_wrPlaces _ none bs)).trans (.of_eq rfl rfl)

theorem kept_dropCopies (s : State) (c : Nat) (ps : List Nat) : Kept s (dropCopies s c ps) := kept_modCore s c (fun _ => rfl) fun _ => rfl

theorem kept_storePlaces (s : State) (c : Nat) (bs : List (Nat × Byte)) : Kept s (storePlaces s c bs) :=
  (((kept_stampWrites s _).trans (kept_wrPlaces _ (some c) bs)).trans (kept_dropCopies _ c _)).trans (.of_eq rfl rfl)

theorem kept_ringPush (s : State) (pa size : Nat) (bs : List Byte) : Kept s (ringPush s pa size bs) := by
  unfold ringPush
  split
  · exact .refl s
  · exact (kept_wrCoherent s _).trans (kept_wrCoherent _ _)

theorem kept_notify (s : State) (die : Nat) (src : RecSource) (r : RecF) : Kept s (notify s die src r) := by
  unfold notify postRec
  dsimp only
  split
  · exact .of_eq rfl rfl
  · split
    · exact .of_eq rfl rfl
    · split
      · exact kept_ringPush ..
      · exact .of_eq rfl rfl

theorem kept_countUncorr (s : State) (d : Nat) (ls : List ArrayLoc) : Kept s (countUncorr s d ls) := by
  obtain ⟨_, e⟩ := countUncorr_eq s d ls
  rw [e]
  exact .of_eq rfl rfl

theorem kept_correctPlaces (s : State) (ps : List Nat) : Kept s (correctPlaces s ps) := by
  obtain ⟨_, _, e⟩ := correctPlaces_eq s ps
  rw [e]
  exact .of_eq rfl rfl

theorem kept_countPair (s : State) (d t rb : Nat) : Kept s (countPair s d t rb) := by
  unfold countPair
  refine .foldl (fun _ _ => ?_) _ s
  exact .of_eq rfl rfl

theorem kept_countTraffic (s : State) (p : Partition) (d pa : Nat) : Kept s (countTraffic s p d pa) := by
  unfold countTraffic
  split
  · exact .refl s
  · exact kept_countPair ..

theorem kept_writeBackHome (s : State) (line : Nat) : Kept s (writeBackHome s line) := by
  unfold writeBackHome
  exact .foldl (fun _ _ => by split <;> exact .of_eq rfl rfl) _ s

theorem kept_sweepSlots (s : State) (p : Partition) (slots : List Nat) : Kept s (sweepSlots s p slots) := by
  unfold sweepSlots
  exact .foldl (fun _ _ => (kept_countPair ..).trans (kept_writeBackHome ..)) _ s

theorem kept_settleSlots (s : State) (p : Partition) (pas : List Nat) : Kept s (settleSlots s p pas) := by
  unfold settleSlots
  split
  · exact .refl s
  · exact (kept_sweepSlots ..).trans (.of_eq rfl rfl)

theorem kept_drawOracle (s : State) : Kept s (drawOracle s).2 := by
  unfold drawOracle
  split
  · exact .refl s
  · exact .of_eq rfl rfl

/-! ### Reads -/

theorem kept_noteRead (s : State) (gid n : Nat) : Kept s (noteRead s gid n) := kept_modGroup s gid (fun _ => rfl) fun _ => ⟨rfl, fun _ h => h⟩

theorem kept_touchRead (s : State) (gid : Nat) : Kept s (touchRead s gid) := kept_modGroup s gid (fun _ => rfl) fun _ => ⟨rfl, fun _ h => h⟩

theorem kept_readChunk (s : State) (c low : Nat) (ps : List Nat) : Kept s (readChunk s c low ps).2.2 := by
  unfold readChunk
  split
  · exact .refl s
  · exact kept_modCore s c (fun _ => rfl) fun _ => rfl

theorem kept_readChunks (c low : Nat) (l : List (List Nat)) (s : State) : Kept s (readChunks c low l s).2.2 := by
  induction l generalizing s with
  | nil => exact .refl s
  | cons ps l ih => exact (kept_readChunk s c low ps).trans (ih _)

theorem kept_plainLoad (s : State) (gid low : Nat) (ps : List Nat) : Kept s (plainLoad s gid low ps).2.2 := by
  unfold plainLoad
  split
  · exact .refl s
  · exact (kept_readChunks ..).trans (kept_noteRead ..)

theorem kept_constChunk (s : State) (g : Group) (ps : List Nat) : Kept s (constChunk s g ps).2 := by
  unfold constChunk
  dsimp only
  split
  · exact kept_drawOracle s
  · exact (kept_drawOracle s).trans (kept_modCore _ _ (fun _ => rfl) fun _ => rfl)

theorem kept_constLoad (g : Group) (l : List (List Nat)) (s : State) : Kept s (constLoad g l s).2 := by
  induction l generalizing s with
  | nil => exact .refl s
  | cons ps l ih => exact (kept_constChunk s g ps).trans (ih _)

theorem kept_performLoad (s : State) (g : Group) (f : Flight) (a : LaneAcc) : Kept s (performLoad s g f a).2.2 := by
  unfold performLoad
  dsimp only
  split
  · exact kept_plainLoad ..
  · exact kept_constLoad ..
  · exact (kept_dropCopies ..).trans (kept_noteRead ..)

theorem kept_performAtom (s : State) (gid core place : Nat) (o : AtomOp) (t : AtomTy) (b c : Nat) : Kept s (performAtom s gid core place o t b c).2 := by
  have hr (ps : List Nat) : Kept s (recallPlaces s ps) := .of_eq rfl rfl
  have hd (ps : List Nat) : Kept s (dropCopies (recallPlaces s ps) core ps) := (hr ps).trans (kept_dropCopies ..)
  unfold performAtom
  dsimp only
  split
  · exact ((hd _).trans (kept_wrCoherent ..)).trans (kept_touchRead ..)
  · exact (hd _).trans (kept_touchRead ..)

/-! ### Flights and stores -/

theorem kept_modFlight (s : State) (gid seq : Nat) (f : Flight → Flight) : Kept s (modFlight s gid seq f) :=
  kept_modGroup s gid (fun _ => rfl) fun _ => ⟨rfl, fun _ h => h⟩

theorem kept_modStore (s : State) (gid seq : Nat) (f : PendStore → PendStore) : Kept s (modStore s gid seq f) :=
  kept_modGroup s gid (fun _ => rfl) fun _ => ⟨rfl, fun _ h => h⟩

theorem kept_performLane (s : State) (g : Group) (p : Partition) (f : Flight) (a : LaneAcc) : Kept s (performLane s g p f a) := by
  have hc : Kept s (correctPlaces (countTraffic s p (dieOf g) a.pa) ((List.range f.size).map (a.place + ·))) :=
    (kept_countTraffic ..).trans (kept_correctPlaces ..)
  unfold performLane
  dsimp only
  split
  · exact kept_modFlight ..
  · split
    · exact (kept_modFlight ..).trans (kept_countUncorr ..)
    · split
      · exact (hc.trans (kept_performAtom ..)).trans (kept_modFlight ..)
      · exact (hc.trans (kept_performLoad ..)).trans (kept_modFlight ..)

theorem kept_performAgg (s : State) (g : Group) (p : Partition) (f : Flight) (o : AtomOp) (t : AtomTy) (b : List (Nat × Nat)) :
    Kept s (performAgg s g p f o t b) := by
  have hm : Kept s (modFlight s g.id f.seq fun h => { h with left := [] }) := kept_modFlight ..
  unfold performAgg
  dsimp only
  split
  · exact hm
  · split
    · exact hm.trans (kept_modFlight ..)
    · split
      · exact (hm.trans (kept_modFlight ..)).trans (kept_countUncorr ..)
      · split
        · exact hm
        · exact (((hm.trans (kept_countTraffic ..)).trans (kept_correctPlaces ..)).trans (kept_performAtom ..)).trans (kept_modFlight ..)

theorem kept_performFlight (s : State) (gid seq : Nat) : Kept s (performFlight s gid seq) := by
  unfold performFlight
  split
  · exact .refl s
  · split
    · split
      · split
        · exact .refl s
        · exact kept_performAgg ..
      · exact .foldl (fun _ _ => kept_performLane ..) _ s
    · exact .refl s

/-- A store error that a group holds is the one that it keeps (R139). -/
theorem kept_registerStore (s : State) (gid seq : Nat) (err : Bool) : Kept s (registerStore s gid seq err) := by
  have hw : Kept s (withoutStore s gid seq) := kept_modGroup s gid (fun _ => rfl) fun _ => ⟨rfl, fun _ h => h⟩
  have he (t : State) (a : DWord) : Kept t (modGroup t gid fun g => { g with storeErr := some (g.storeErr.getD a) }) :=
    kept_modGroup t gid (fun _ => rfl) fun g => ⟨rfl, fun b h => by rw [h]; rfl⟩
  have hu (b : Bool) (d : Nat) (ls : List ArrayLoc) :
      Kept s (if b then countUncorr (withoutStore s gid seq) d ls else withoutStore s gid seq) := by
    split
    · exact hw.trans (kept_countUncorr ..)
    · exact hw
  unfold registerStore
  split
  · exact .refl s
  · split
    · dsimp only
      split
      · split
        · exact (hu _ _ _).trans (kept_notify ..)
        · exact (hu _ _ _).trans (he _ _)
      · split
        · exact ((hw.trans (kept_countTraffic ..)).trans (kept_storePlaces ..)).trans (kept_touchRead ..)
        · exact (hw.trans (kept_countTraffic ..)).trans (kept_performAtom ..)
    · exact .refl s

/-! ### Returns -/

/-- The times of reads change the times of a group's registers alone. -/
theorem setTag_eq (g : Group) (l : Nat) (o : Opnd) (words n : Nat) : setTag g l o words n = { g with tags := (setTag g l o words n).tags } := by
  unfold setTag
  split
  · exact List.foldlRecOn (motive := fun h : Group => h = { g with tags := h.tags }) _ _ rfl fun h hh _ _ => by rw [hh]
  · exact List.foldlRecOn (motive := fun h : Group => h = { g with tags := h.tags }) _ _ rfl fun h hh _ _ => by rw [hh]
  · rfl

theorem setTags_eq (g : Group) (o : Opnd) (words : Nat) (ts : List (Nat × Nat)) :
    setTags g o words ts = { g with tags := (setTags g o words ts).tags } := by
  unfold setTags
  split
  · split
    · rfl
    · exact setTag_eq ..
  · exact List.foldlRecOn (motive := fun h : Group => h = { g with tags := h.tags }) _ _ rfl fun h hh _ _ => by rw [setTag_eq h, hh]

theorem writeFlight_eq (g : Group) (f : Flight) (o : Opnd) :
    writeFlight g f o = { g with v := (writeFlight g f o).v, k := (writeFlight g f o).k, tags := (writeFlight g f o).tags } := by
  rw [writeFlight, setTags_eq, writeDst_eq]

/-- The group of a flight that has returned: its destination is written, or its error stands for the next instruction (R419). -/
def returned (g : Group) (f : Flight) (seq : Nat) (err : DWord) : Group :=
  if lostLanesOf f err = [] ∧ f.bad = [] then
    (match f.dst with | some o => writeFlight (withoutFlight g seq) f o | none => withoutFlight g seq)
  else { withoutFlight g seq with lateErrs := g.lateErrs ++ [lateErrOf f (lostLanesOf f err)] }

theorem returned_kept (g : Group) (f : Flight) (seq : Nat) (err : DWord) : (returned g f seq err).id = g.id ∧ GroupKept g (returned g f seq err) := by
  unfold returned
  split
  · split
    · rw [writeFlight_eq]; exact ⟨rfl, rfl, fun _ h => h⟩
    · exact ⟨rfl, rfl, fun _ h => h⟩
  · exact ⟨rfl, rfl, fun _ h => h⟩

/-- A flight that returns, if it has been performed, changes its group to `returned`, and an acquire drops copies of the L1 (R308). -/
theorem returnFlight_eq {s : State} {g : Group} {f : Flight} {gid seq : Nat} (err : DWord) (hg : findGroup s gid = some g)
    (hf : g.flights.find? (fun f => f.seq == seq) = some f) :
    returnFlight s gid seq err = if !flightDone f then s
      else if flightAcq f then invalidateL1 (setGroup s (returned g f seq err)) (returned g f seq err).core else setGroup s (returned g f seq err) := by
  simp only [returnFlight, hg, hf]
  rfl

theorem kept_returnFlight (s : State) (gid seq : Nat) (err : DWord) : Kept s (returnFlight s gid seq err) := by
  cases hg : findGroup s gid with
  | none => simp only [returnFlight, hg]; exact .refl s
  | some g =>
    cases hf : g.flights.find? fun f => f.seq == seq with
    | none => simp only [returnFlight, hg, hf]; exact .refl s
    | some f =>
      obtain ⟨hi, hk⟩ := returned_kept g f seq err
      have hset : Kept s (setGroup s (returned g f seq err)) := kept_setGroup (by rw [hi]; exact findGroup_self hg) hk
      rw [returnFlight_eq err hg hf]
      split
      · exact .refl s
      · split
        · exact hset.trans (kept_modCore _ _ (fun _ => rfl) fun _ => rfl)
        · exact hset

/-! ### Drains -/

theorem kept_redirectAll (s : State) (gid : Nat) : Kept s (redirectAll s gid) := by
  unfold redirectAll
  split
  · exact .refl s
  · split
    · exact .refl s
    · refine Kept.trans (Kept.trans (.foldl (fun s _ => ?_) _ s) (.foldl (fun s _ => ?_) _ _)) (kept_settleSlots ..)
      · exact Kept.trans (kept_modFlight ..) (.of_eq rfl rfl)
      · exact Kept.trans (kept_modStore ..) (.of_eq rfl rfl)

theorem kept_drainSeqs (s : State) (gid : Nat) (seqs : List Nat) : Kept s (drainSeqs s gid seqs) := by
  unfold drainSeqs
  split
  · exact .refl s
  · split
    · exact .refl s
    · refine ((kept_redirectAll s gid).trans (.foldl (fun s _ => ?_) _ _)).trans (.foldl (fun s _ => kept_returnFlight ..) _ _)
      split
      · exact kept_performFlight ..
      · exact kept_registerStore ..

theorem kept_drainTo (s : State) (gid n : Nat) : Kept s (drainTo s gid n) := by
  unfold drainTo
  split
  · exact .refl s
  · exact kept_drainSeqs ..

theorem kept_drainGroup (s : State) (gid : Nat) : Kept s (drainGroup s gid) := kept_drainTo ..

theorem kept_drainReads (s : State) (gid : Nat) : Kept s (drainReads s gid) := by
  unfold drainReads
  split
  · exact .refl s
  · exact kept_drainSeqs ..

theorem kept_drainForWrite (s : State) (gid : Nat) : Kept s (drainForWrite s gid) := by
  have hfence (g : Group) : Kept s (if pendingBelow g g.relFence then drainTo s gid g.relFence else s) := by
    split
    · exact kept_drainTo ..
    · exact .refl s
  have hreads (g : Group) (t : State) : Kept t (if ordMode t g then drainReads t gid else t) := by
    split
    · exact kept_drainReads ..
    · exact .refl t
  unfold drainForWrite
  split
  · exact .refl s
  · exact (hfence _).trans (hreads _ _)

/-- A group with no access unperformed has nothing to perform before a write (R312). -/
theorem drainForWrite_of_idle {s : State} {g : Group} (hg : findGroup s g.id = some g) (hf : g.flights = []) (hs : g.stores = []) :
    drainForWrite s g.id = s := by
  have hp : pendingBelow g g.relFence = false := by simp [pendingBelow, hf, hs]
  have hr : drainReads s g.id = s := by simp [drainReads, hg, hf, hs, storesFirst, sortNat, drainSeqs]
  simp [drainForWrite, hg, hp, hr]

end Sys2Proof.Draining
end

section
/-! SUPPORT. Plain loads and stores whose lanes pass their checks, and the fences (R133 to R139, R141, R309). -/
namespace Sys2Proof.PlainAccesses
open Sys2Proof.Machine Sys2Proof.Safety Sys2Proof.Laws Sys2Proof.AddressTraps Sys2Proof.Draining

section
variable {s t : State} {i : Instr} {x : Issue} {f : FWord} {sp : Space} {ls : List LaneOk}

/-! ### Loads and stores -/

theorem loadRule_of_storeRule (hi : storeRule i = some (f, sp)) : loadRule i = none := by
  unfold storeRule at hi
  split at hi <;> cases hi <;> rfl

/-- A load whose lanes pass their checks: a local one completes at issue, another leaves in flight (R137, R141). -/
theorem exec_load_of_checked (hi : loadRule i = some (f, sp)) (h : issueOf s i = some x) (ha : x.act ≠ [])
    (hc : checkLanes (entry s x) x sp (widSize (fmod f 0 3)) (widSize (fmod f 0 3)) 1 true false false
      (laneAddrs (entry s x) x (fmod f 5 5) (widSize (fmod f 0 3))) = .ok t ls) :
    exec i s = .next (
      if sp = .l ∨ sp = .lp then
        plain (localDone t x (localLoad t ls (widSize (fmod f 0 3)) (widWords (fmod f 0 3)) (widSigned (fmod f 0 3)))
          (localTimes t x ls (widSize (fmod f 0 3)))) x
      else
        plain (launchFlight (sampleLanes t x 0 ls) x (if sp = .c then .loadc else .load) (widSize (fmod f 0 3)) (widWords (fmod f 0 3))
          (widSigned (fmod f 0 3)) ((dstOf i).map (·.1)) ls false) x) := by
  have hact : x.act.isEmpty = false := by simpa using ha
  rw [exec_plainAccess (.inl hi)]
  simp only [hi, Option.isSome_some, if_true]
  split <;> rename_i hsp
  · exact issue_of_done h (by simp only [anyLane, hact, loadOp, hc, hsp, Bool.false_eq_true, if_false, if_true])
  · exact issue_of_done h (by simp only [anyLane, hact, loadOp, hc, hsp, issueOf_i h, Bool.false_eq_true, if_false])

/-- A store whose lanes pass their checks is performed or accepted lane after lane (R138, R139). -/
theorem exec_store_of_checked (hi : storeRule i = some (f, sp)) (h : issueOf s i = some x) (ha : x.act ≠ [])
    (hc : checkLanes (entry s x) x sp (widSize (fmod f 0 3)) (widSize (fmod f 0 3)) 2 false true false
      (laneAddrs (entry s x) x (fmod f 5 5) (widSize (fmod f 0 3))) = .ok t ls) :
    exec i s = .next (plain (storeLanes (sampleLanes t x 1 ls) x (widSize (fmod f 0 3)) ls (rdC t x) false) x) := by
  have hact : x.act.isEmpty = false := by simpa using ha
  rw [exec_plainAccess (.inr hi)]
  simp only [loadRule_of_storeRule hi, Option.isSome_none, Bool.false_eq_true, if_false]
  exact issue_of_done h (by simp only [anyLane, hact, storeOp, hc, Bool.false_eq_true, if_false])

/-! ### Fences -/

/-- A store error that the group holds is raised and cleared (R139). -/
theorem reportStore_of_storeErr {a : DWord} (h : (findGroup s x.g.id).bind (·.storeErr) = some a) (mask : List Nat) (k : State → IRes) :
    reportStore x s mask k = .trap (modGroup s x.g.id fun g => { g with storeErr := none })
      { kind := kREMERR, mask := mask, daddr := a, acc := 2, asid := ((dispOf s x.g).map dispAsid).getD 0 } := by
  simp only [reportStore, h]

theorem reportStore_of_clean (h : (findGroup s x.g.id).bind (·.storeErr) = none) (mask : List Nat) (k : State → IRes) :
    reportStore x s mask k = k s := by
  simp only [reportStore, h]

/-- The schedule's choice leaves every group. -/
theorem findGroup_drawOracle (s : State) (id : Nat) : findGroup (drawOracle s).2 id = findGroup s id := by
  unfold drawOracle
  split <;> rfl

/-- A `fence.rel` whose group then holds a store error has performed every earlier access. -/
theorem relPoint_of_storeErr {gid : Nat} {a : DWord} (h : (findGroup (drainGroup (drawOracle s).2 gid) gid).bind (·.storeErr) = some a) :
    relPoint s gid = drainGroup (drawOracle s).2 gid := by
  obtain ⟨g, hg, he⟩ := Option.bind_eq_some_iff.mp h
  simp [relPoint, hg, he]

/-- A `fence.rel` of a group that then holds no store error, by what the schedule says; the group holds none then either (R139, R309). -/
theorem relPoint_of_clean {g : Group} (hg : findGroup s g.id = some g)
    (h : (findGroup (drainGroup (drawOracle s).2 g.id) g.id).bind (·.storeErr) = none) :
    relPoint s g.id = (if (drawOracle s).1 = 0 ∨ g.stores.any (fun w => w.red.isSome) then drainGroup (drawOracle s).2 g.id
      else modGroup (drawOracle s).2 g.id fun g => { g with relFence := (drawOracle s).2.nextId }) ∧
    (findGroup (relPoint s g.id) g.id).bind (·.storeErr) = none := by
  have hg2 := (findGroup_drawOracle s g.id).trans hg
  obtain ⟨k, hk, hkept⟩ := (kept_drainGroup (drawOracle s).2 g.id).group hg2
  have hke : k.storeErr = none := by simpa [hk] using h
  have hge : g.storeErr = none := Option.eq_none_iff_forall_ne_some.mpr fun a ha => by simp [hkept.storeErr a ha] at hke
  have heq : relPoint s g.id = if (drawOracle s).1 = 0 ∨ g.stores.any (fun w => w.red.isSome) then drainGroup (drawOracle s).2 g.id
      else modGroup (drawOracle s).2 g.id fun g => { g with relFence := (drawOracle s).2.nextId } := by
    simp [relPoint, hk, hke, hg2]
  refine ⟨heq, ?_⟩
  rw [heq]
  split
  · exact h
  · have hm := findGroup_modGroup (f := fun g => { g with relFence := (drawOracle s).2.nextId }) hg2 fun _ => rfl
    rw [hm]; exact hge

end

end Sys2Proof.PlainAccesses

open Sys2Proof.Machine Sys2Proof.Safety Sys2Proof.Laws Sys2Proof.PlainAccesses

/-- Settles O23: the operation of the instruction's space on lanes that pass their checks. -/
theorem plainLoadsAndStores : Obligations.PlainLoadsAndStores :=
  ⟨fun _ _ _ _ _ _ _ hi h ha hc => exec_load_of_checked hi h ha hc, fun _ _ _ _ _ _ _ hi h ha hc => exec_store_of_checked hi h ha hc⟩

/-- Settles O30: what performs the earlier accesses keeps a store error that the group holds, so where none is there after it none was there before. -/
theorem fences : Obligations.Fences := by
  intro s f x
  refine ⟨fun h => issue_of_done h rfl, fun h => ⟨fun hn => ?_, fun a he hf => ?_⟩, fun h => ⟨fun hr => ?_, fun a he hf => ?_⟩⟩
  · obtain ⟨hrel, hclean⟩ := relPoint_of_clean (findGroup_entry h) hn
    exact issue_of_done h (by rw [reportStore_of_clean hclean, hrel])
  · have hrel := relPoint_of_storeErr he
    exact issue_of_trap h hf (by rw [hrel, reportStore_of_storeErr he]; rfl)
  · exact issue_of_done h (withRelease_of_releaseOk hr ..)
  · exact issue_of_trap h hf (reportStore_of_storeErr he ..)
end

section
/-! SUPPORT. Local loads and stores, and prefetches: what their checks give where no window line waits to be filled, and what they leave
(R95 to R99, R135 to R138, R144). -/
namespace Sys2Proof.LocalAccesses
open Sys2Proof.Machine Sys2Proof.Safety Sys2Proof.Laws Sys2Proof.AddressTraps Sys2Proof.LaneResults Sys2Proof.Draining
open Sys2Proof.PlainAccesses

/-! ### The checks of local accesses -/

theorem firstErr_eq_none {es : List (Nat × LaneErr)} (h : firstErr es = none) : es = [] := by
  cases es with
  | nil => rfl
  | cons e es =>
    have hsome (es : List (Nat × LaneErr)) (b : Nat × LaneErr) : ∃ c, es.foldl lowerErr (some b) = some c := by
      induction es generalizing b with
      | nil => exact ⟨b, rfl⟩
      | cons e es ih =>
        rw [List.foldl_cons, lowerErr]
        split <;> exact ih _
    obtain ⟨c, hc⟩ := hsome es e
    have hc : (e :: es).foldl lowerErr none = some c := hc
    rw [firstErr_eq, hc] at h
    cases h

section
variable {s : State} {g : Group} {sp : Space}

theorem resolve_of_local {a n : Nat} {t : Target} (hsp : sp = .l ∨ sp = .lp) (h : resolve s g sp a n = some t) : ∃ c o, t = .loc c o := by
  rcases hsp with rfl | rfl
  · simp only [resolve, localTarget] at h
    split at h
    · split at h
      · cases h; exact ⟨_, _, rfl⟩
      · cases h
    · cases h
  · simp only [resolve, peerTarget] at h
    split at h
    · cases h
    · obtain ⟨t, -, h⟩ := Option.bind_eq_some_iff.mp h
      split at h
      · cases h; exact ⟨_, _, rfl⟩
      · cases h

/-- A local access that its address check passes goes where `resolve` says. -/
theorem addrCheck_of_local {align n a : Nat} {t : Target} (hsp : sp = .l ∨ sp = .lp) (h : addrCheck s g sp align n a = .ok t) :
    ∃ c o, t = .loc c o ∧ resolve s g sp a n = some (.loc c o) := by
  unfold addrCheck at h
  split at h
  · cases h
  · cases hr : resolve s g sp a n with
    | none => simp [hr] at h
    | some u =>
      obtain ⟨c, o, rfl⟩ := resolve_of_local hsp hr
      simp only [hr, Except.ok.injEq] at h
      exact ⟨c, o, h.symm, rfl⟩

/-- Lines that wait for no fill need none. -/
theorem fillAll_of_filled {ls : List (Nat × Nat)} (h : ∀ e ∈ ls, (getLine s e.1 e.2).win ≠ 1) : fillAll s ls = ⟨s, [], none⟩ := by
  induction ls with
  | nil => rfl
  | cons e ls ih =>
    rw [fillAll, fillLines, if_neg (h e (by simp)), fillLines]
    exact ih fun e he => h e (by simp [he])

/-- What the checks of a lane's local access give. -/
def localOk (t : Nat × Nat × Target) : LaneOk :=
  ⟨t.1, t.2.1, match t.2.2 with | .loc c o => some (c, o) | .glob _ => none, 0, 0, 0⟩

/-- Local lanes are not translated. -/
theorem globLanes_of_local {x : Issue} {write unsup : Bool} {ts : List (Nat × Nat × Target)} (h : ∀ t ∈ ts, ∃ c o, t.2.2 = .loc c o) :
    globLanes s x write unsup ts = (s, ts.map localOk, [], false) := by
  induction ts with
  | nil => rfl
  | cons t ts ih =>
    obtain ⟨l, a, u⟩ := t
    obtain ⟨c, o, rfl⟩ : ∃ c o, u = .loc c o := h (l, a, u) (by simp)
    rw [globLanes, ih fun t ht => h t (by simp [ht])]
    rfl

/-- Where a lane's access goes, if its address check passes (R135). -/
def laneTarget (s : State) (g : Group) (sp : Space) (align n : Nat) (e : Nat × Nat) : Option (Nat × Nat × Target) :=
  match addrCheck s g sp align n e.2 with
  | .ok (.glob va) => some (e.1, (if sp = .c then va else e.2), .glob va)
  | .ok t => some (e.1, e.2, t)
  | .error _ => none

/-- The accesses of lanes at local addresses, each where `resolve` says. -/
structure AccessesAt (s : State) (g : Group) (sp : Space) (n : Nat) (as : List (Nat × Nat)) (ls : List LaneOk) : Prop where
  lanes : ls.map (fun k => (k.lane, k.va)) = as
  places : ∀ k ∈ ls, ∃ c o, k.loc = some (c, o) ∧ resolve s g sp k.va n = some (.loc c o)

/-- Local lanes whose address checks find no error each have a target in local memory. -/
theorem laneTargets_of_local {align n : Nat} {as : List (Nat × Nat)} (hsp : sp = .l ∨ sp = .lp)
    (h : ∀ e ∈ as, ∃ t, addrCheck s g sp align n e.2 = .ok t) :
    (∀ t ∈ as.filterMap (laneTarget s g sp align n), ∃ c o, t.2.2 = .loc c o) ∧
    AccessesAt s g sp n as ((as.filterMap (laneTarget s g sp align n)).map localOk) := by
  induction as with
  | nil => exact ⟨by simp, rfl, by simp⟩
  | cons e as ih =>
    obtain ⟨hts, hl, hp⟩ := ih fun e he => h e (by simp [he])
    obtain ⟨t, ht⟩ := h e (by simp)
    obtain ⟨c, o, rfl, hr⟩ := addrCheck_of_local hsp ht
    have he : laneTarget s g sp align n e = some (e.1, e.2, .loc c o) := by simp only [laneTarget, ht]
    rw [List.filterMap_cons_some he]
    refine ⟨?_, ?_, ?_⟩
    · simpa using hts
    · simpa [localOk] using hl
    · simpa [localOk, hr] using hp

theorem correctLocs_eq (s : State) (ls : List ArrayLoc) : ∃ c k, correctLocs s ls = { s with corrWords := c, dies := k } := by
  unfold correctLocs
  split
  · exact ⟨s.corrWords, s.dies, rfl⟩
  · exact LaneResults.correctWords_eq ..

/-- The checks of local accesses that pass: each lane goes where `resolve` says, and a read corrects words. -/
theorem checkLanes_of_local {t : State} {x : Issue} {align n acc : Nat} {reads write unsup : Bool} {as : List (Nat × Nat)} {ls : List LaneOk}
    (hsp : sp = .l ∨ sp = .lp) (hw : ∀ c k, (getLine s c k).win ≠ 1) (h : checkLanes s x sp align n acc reads write unsup as = .ok t ls) :
    AccessesAt s x.g sp n as ls ∧ t = if reads then correctLocs s (ls.flatMap (laneLocs n)) else s := by
  unfold checkLanes at h
  dsimp only at h
  split at h
  · cases h
  · rename_i hfirst
    have hok : ∀ e ∈ as, ∃ t, addrCheck s x.g sp align n e.2 = .ok t := fun e he => by
      cases ht : addrCheck s x.g sp align n e.2 with
      | ok t => exact ⟨t, rfl⟩
      | error r =>
        have := List.filterMap_eq_nil_iff.mp (firstErr_eq_none hfirst) _ (List.mem_map_of_mem he)
        simp [ht] at this
    obtain ⟨hloc, hat⟩ := laneTargets_of_local hsp hok
    generalize hts : List.filterMap _ (List.map _ as) = ts at h
    rw [List.filterMap_map] at hts
    obtain rfl : as.filterMap (laneTarget s x.g sp align n) = ts := hts
    split at h
    · cases h
    · rw [fillAll_of_filled fun e _ => hw e.1 e.2] at h
      dsimp only at h
      rw [globLanes_of_local hloc] at h
      dsimp only at h
      split at h
      · split at h
        · cases h
        · split at h <;> cases h
      · simp only [Bool.false_eq_true, if_false, ChkRes.ok.injEq] at h
        obtain ⟨rfl, rfl⟩ := h
        exact ⟨hat, rfl⟩

end

/-! ### Local memory written -/

/-- A write of consecutive entries leaves those of other keys. -/
theorem sparse_get_putMany_other {α : Type} [DecidableEq α] (d : α) (t : List (Nat × α)) {i j : Nat} (xs : List α)
    (h : ¬ (i ≤ j ∧ j < i + xs.length)) :
    Sparse.get d (Sparse.putMany d t i xs) j = Sparse.get d t j := by
  induction xs generalizing t i with
  | nil => rfl
  | cons x xs ih =>
    rw [List.length_cons] at h
    rw [Sparse.putMany, ih _ (by omega), sparse_get_put_ne _ _ _ (by omega)]

/-- What writes of local memory leave: the groups, main memory, and every byte of local memory for which `out` holds. -/
structure WritesLocal (out : Nat → Nat → Prop) (s t : State) : Prop where
  groups : t.groups = s.groups
  place : ∀ a, rdPlace t a = rdPlace s a
  lmem : ∀ c o, out c o → rdLocal t c o = rdLocal s c o

section
variable {out : Nat → Nat → Prop}

theorem WritesLocal.refl (s : State) : WritesLocal out s s := ⟨rfl, fun _ => rfl, fun _ _ _ => rfl⟩

theorem WritesLocal.trans {s t u : State} (a : WritesLocal out s t) (b : WritesLocal out t u) : WritesLocal out s u :=
  ⟨b.groups.trans a.groups, fun n => (b.place n).trans (a.place n), fun c o h => (b.lmem c o h).trans (a.lmem c o h)⟩

theorem WritesLocal.foldl {α : Type} {f : State → α → State} {l : List α} (hf : ∀ s, ∀ a ∈ l, WritesLocal out s (f s a)) (s : State) :
    WritesLocal out s (l.foldl f s) :=
  List.foldlRecOn (motive := WritesLocal out s) l f (.refl s) fun t h a ha => h.trans (hf t a ha)

theorem writesLocal_stampWrites (s : State) (ks : List Nat) : WritesLocal out s (stampWrites s ks) :=
  ⟨rfl, fun _ => rfl, fun c o _ => (kept_stampWrites s ks).lmem c o⟩

theorem writesLocal_modLine (s : State) (c l : Nat) (f : LineSt → LineSt) : WritesLocal out s (modLine s c l f) :=
  ⟨rfl, fun _ => rfl, fun c' o _ => (kept_modCore s c (f := fun k => { k with lines := Sparse.put lineReset k.lines l (f (lineOf k l)) })
    (fun _ => rfl) fun _ => rfl).lmem c' o⟩

theorem writesLocal_modCore_putMany (s : State) {c off : Nat} {bs : List Byte}
    (h : ∀ c' o, out c' o → ¬ (c' = c ∧ off ≤ o ∧ o < off + bs.length)) : WritesLocal out s (modCore s c fun k => { k with lmem := Sparse.putMany 0 k.lmem off bs }) := by
  refine ⟨rfl, fun _ => rfl, fun c' o ho => ?_⟩
  have ho := h c' o ho
  have hf := MemorySide.findCore_modCore_eq s c c' (f := fun k => { k with lmem := Sparse.putMany 0 k.lmem off bs }) fun _ => rfl
  simp only [rdLocal, hf]
  cases hk : findCore s c' with
  | none => rfl
  | some k =>
    have hkc : k.lcore = c' := by simpa using List.find?_some (p := fun k : Core => k.lcore == c') hk
    simp only [Option.map_some]
    split
    · exact sparse_get_putMany_other _ _ _ (by omega)
    · rfl

/-- A local write changes the bytes that it names, and with them the times of writes, the marks of window lines and the list of bad words (R98, R397). -/
theorem writesLocal_wrLocal (s : State) {c off : Nat} {bs : List Byte} (h : ∀ c' o, out c' o → ¬ (c' = c ∧ off ≤ o ∧ o < off + bs.length)) :
    WritesLocal out s (wrLocal s c off bs) := by
  have hput := (writesLocal_stampWrites s ((List.range bs.length).map fun i => lmemKey c (off + i))).trans (writesLocal_modCore_putMany _ h)
  have hmark (t : State) (i : Nat) : WritesLocal out t (if (getLine t c ((off + i) / 128)).win = 0 then t
      else modLine t c ((off + i) / 128) fun l =>
        { l with win := if l.win = 2 then 3 else l.win, mask := l.mask ||| BitVec.ofNat 128 (1 <<< ((off + i) % 128)) }) := by
    split
    · exact .refl t
    · exact writesLocal_modLine ..
  have hlines := hput.trans (.foldl (l := List.range bs.length) (fun t i _ => hmark t i) _)
  exact hlines.trans ⟨rfl, fun _ => rfl, fun _ _ _ => rfl⟩

end

/-! ### Local stores (R138) -/

section
variable {s : State} {g : Group} {x : Issue} {sp : Space} {n : Nat} {as : List (Nat × Nat)} {ls : List LaneOk} (hat : AccessesAt s g sp n as ls)
include hat

theorem AccessesAt.isSome : ∀ k ∈ ls, k.loc.isSome = true := fun k hk => by
  obtain ⟨c, o, hl, -⟩ := hat.places k hk
  rw [hl]; rfl

/-- Local lanes do not pass the access sampler (R90). -/
theorem sampleLanes_of_local (t : State) (ty : Nat) : sampleLanes t x ty ls = t :=
  List.foldlRecOn (motive := (· = t)) ls _ rfl fun u hu k hk => by
    have hn : k.loc.isNone = false := by rw [Option.isNone_eq_false_iff]; exact hat.isSome k hk
    simp only [hn, Bool.false_eq_true, if_false, hu]

/-- Local stores write, after what must come before a write (R312), the bytes at the places of their lanes. -/
theorem writesLocal_storeLanes (ha : as ≠ []) (t : State) (data : Nat → Nat) (rel : Bool) :
    WritesLocal (fun c o => ∀ e ∈ as, ∀ c' o', resolve s g sp e.2 n = some (.loc c' o') → ¬ (c = c' ∧ o' ≤ o ∧ o < o' + n))
      (drainForWrite t x.g.id) (storeLanes t x n ls data rel) := by
  have hany : ls.any (fun k => k.loc.isSome) = true := by
    cases ls with
    | nil => exact absurd hat.lanes.symm ha
    | cons k ls => exact List.any_eq_true.mpr ⟨k, by simp, hat.isSome k (by simp)⟩
  unfold storeLanes
  rw [if_pos hany]
  refine .foldl (fun u k hk => ?_) _
  obtain ⟨c, o, hl, hr⟩ := hat.places k hk
  simp only [hl]
  refine writesLocal_wrLocal u fun c' o' hout => ?_
  rw [Words.length_leBytes]
  exact hout (k.lane, k.va) (hat.lanes ▸ List.mem_map_of_mem (f := fun k => (k.lane, k.va)) hk) c o hr

end

/-! ### What only the group's own changes leave -/

/-- Between two states, one group and what is kept of memory errors may change, and no byte of memory. -/
structure OnlyGroup (id : Nat) (s t : State) : Prop where
  machine : MachineFrame s t id
  memory : MemorySame s t

theorem memorySame_trans {s t u : State} (a : MemorySame s t) (b : MemorySame t u) : MemorySame s u :=
  ⟨fun n => (b.1 n).trans (a.1 n), fun c o => (b.2 c o).trans (a.2 c o)⟩

theorem OnlyGroup.trans {id : Nat} {s t u : State} (a : OnlyGroup id s t) (b : OnlyGroup id t u) : OnlyGroup id s u := by
  obtain ⟨d, e, f, g, h, i, j⟩ := a.machine.regs
  obtain ⟨d', e', f', g', h', i', j'⟩ := b.machine.regs
  exact ⟨⟨fun n hn => (b.machine.groups n hn).trans (a.machine.groups n hn), fun c => (b.machine.slots c).trans (a.machine.slots c),
    ⟨d'.trans d, e'.trans e, f'.trans f, g'.trans g, h'.trans h, i'.trans i, j'.trans j⟩, b.machine.teams.trans a.machine.teams,
    b.machine.cmds.trans a.machine.cmds⟩, memorySame_trans a.memory b.memory⟩

theorem onlyGroup_words (id : Nat) (s : State) (b c : List ArrayLoc) (k : List Die) :
    OnlyGroup id s { s with badWords := b, corrWords := c, dies := k } :=
  ⟨⟨fun _ _ => rfl, fun _ => rfl, ⟨rfl, rfl, rfl, rfl, rfl, rfl, rfl⟩, rfl, rfl⟩, fun _ => rfl, fun _ _ => rfl⟩

theorem onlyGroup_correctLocs (id : Nat) (s : State) (ls : List ArrayLoc) : OnlyGroup id s (correctLocs s ls) := by
  obtain ⟨c, k, e⟩ := correctLocs_eq s ls
  rw [e]
  exact onlyGroup_words id s s.badWords c k

theorem onlyGroup_modGroup (s : State) (id : Nat) {f : Group → Group} (hf : ∀ g, (f g).id = g.id) : OnlyGroup id s (modGroup s id f) :=
  ⟨⟨fun _ hn => findGroup_modGroup_other hn.symm hf, fun _ => rfl, ⟨rfl, rfl, rfl, rfl, rfl, rfl, rfl⟩, rfl, rfl⟩, fun _ => rfl, fun _ _ => rfl⟩

theorem onlyGroup_setGroup (s : State) {g : Group} {id : Nat} (hg : g.id = id) : OnlyGroup id s (setGroup s g) :=
  ⟨⟨fun _ hn => findGroup_setGroup_other (by rw [hg]; exact hn.symm), fun _ => rfl, ⟨rfl, rfl, rfl, rfl, rfl, rfl, rfl⟩, rfl, rfl⟩,
    fun _ => rfl, fun _ _ => rfl⟩

theorem groupFrame_refl (g : Group) (ws act : List Nat) : GroupFrame g g ws act :=
  ⟨fun _ _ _ _ => rfl, fun _ _ => rfl, fun _ _ _ => rfl, ⟨rfl, rfl, rfl, rfl, rfl, rfl, rfl, rfl, rfl⟩, rfl, rfl, rfl⟩

/-- An instruction that completes with the next instruction at an address keeps a frame of its group, and changes nothing else. -/
theorem plain_frame {s t : State} {i : Instr} {x : Issue} {g h : Group} {ws act : List Nat} (hi : issueOf s i = some x) (hn : x.next ≠ exitPc)
    (hh : findGroup t x.g.id = some h) (hw : h.width = x.g.width) (hf : GroupFrame g h ws act) :
    ∃ k, findGroup (plain t x) x.g.id = some k ∧ GroupFrame g k ws act ∧ OnlyGroup x.g.id t (plain t x) := by
  obtain ⟨l, hl, hlw, -⟩ := issueOf_served hi
  have hlw : l < h.width := by rw [hw]; exact hlw
  have he := pcvOf_completed_ne_exit (g := h) (lat := []) hl hn
  have hid : h.id = x.g.id := by simpa using List.find?_some (p := fun h : Group => h.id == x.g.id) hh
  obtain ⟨b, c, d, e⟩ := completeIssue_eq [] [] hh hlw he
  refine ⟨_, findGroup_completeIssue [] [] hh hlw he, groupFrame_completed [] [] hf, ?_⟩
  rw [plain, e]
  exact (onlyGroup_setGroup t (by rw [completed_id, hid])).trans (onlyGroup_words _ _ b c d)

/-! ### Local loads (R137) -/

/-- A group whose destination a local load has written, with the times of its reads. -/
def loadedRegs (g : Group) (i : Instr) (vals times : List (Nat × Nat)) : Group :=
  match dstOf i with | some (o, w) => setTags (writeDst g o w vals) o w times | none => g

theorem loadedRegs_eq (g : Group) (i : Instr) (vals times : List (Nat × Nat)) :
    loadedRegs g i vals times = { putDst g i vals with tags := (loadedRegs g i vals times).tags } := by
  unfold loadedRegs putDst
  cases dstOf i with
  | none => rfl
  | some d => exact setTags_eq ..

/-- The group that a local load leaves, with the time of its latest read (R312). -/
def loaded (g : Group) (i : Instr) (vals times : List (Nat × Nat)) (n : Nat) : Group :=
  { loadedRegs g i vals times with lastT := max (loadedRegs g i vals times).lastT n }

theorem loaded_eq (g : Group) (i : Instr) (vals times : List (Nat × Nat)) (n : Nat) :
    loaded g i vals times n =
      { putDst g i vals with tags := (loaded g i vals times n).tags, lastT := (loaded g i vals times n).lastT } := by
  unfold loaded
  rw [loadedRegs_eq]

theorem loaded_width (g : Group) (i : Instr) (vals times : List (Nat × Nat)) (n : Nat) : (loaded g i vals times n).width = g.width := by
  rw [loaded_eq, putDst_eq]

/-- A local load changes its group alone, by `loaded`. -/
theorem localDone_frame {s : State} {x : Issue} (hg : findGroup s x.g.id = some x.g) (vals times : List (Nat × Nat)) :
    (∃ n, findGroup (localDone s x vals times) x.g.id = some (loaded x.g x.i vals times n)) ∧ OnlyGroup x.g.id s (localDone s x vals times) := by
  have hid (g : Group) : (loadedRegs g x.i vals times).id = g.id := by rw [loadedRegs_eq, putDst_eq]
  have hdone : localDone s x vals times =
      noteRead (modGroup s x.g.id fun g => loadedRegs g x.i vals times) x.g.id (times.foldl (fun m e => max m e.2) 0) := rfl
  rw [hdone]
  exact ⟨⟨_, findGroup_modGroup (findGroup_modGroup hg hid) fun _ => rfl⟩,
    (onlyGroup_modGroup s x.g.id hid).trans (onlyGroup_modGroup _ x.g.id fun _ => rfl)⟩

/-- Registers loaded in active lanes keep the frame of their instruction. -/
theorem groupFrame_loaded (g : Group) {i : Instr} {vals : List (Nat × Nat)} {act : List Nat} (times : List (Nat × Nat)) (n : Nat)
    (hs : staticCauses i = []) (hv : ∀ e ∈ vals, e.1 ∈ act) : GroupFrame g (loaded g i vals times n) (regUse i).writes act := by
  have hf : GroupFrame g (putDst g i vals) (regUse i).writes act :=
    groupFrame_landed (vals := vals) (pd := 7) (ps := []) g hs hv (by simp) (.inl rfl)
  rw [loaded_eq]
  exact ⟨hf.v, hf.k, hf.p, hf.special, hf.blocks, hf.inFlight⟩

/-! ### Prefetches (R144) -/

theorem prefetchLine_frame (s : State) (x : Issue) (va : Nat) : (prefetchLine s x va).groups = s.groups ∧ MemorySame s (prefetchLine s x va) := by
  have hsame : s.groups = s.groups ∧ MemorySame s s := ⟨rfl, fun _ => rfl, fun _ _ => rfl⟩
  unfold prefetchLine
  split
  · split
    · dsimp only
      split
      · exact ⟨rfl, MemorySide.memorySame_modCore s _ (fun _ => rfl) fun _ => rfl⟩
      · exact hsame
    · exact hsame
  · exact hsame

/-- Steps that each prefetch a line or do nothing. -/
theorem prefetches_frame {α : Type} (s : State) (x : Issue) (f : State → α → State) (l : List α)
    (hf : ∀ t a, f t a = t ∨ ∃ va, f t a = prefetchLine t x va) :
    (l.foldl f s).groups = s.groups ∧ MemorySame s (l.foldl f s) :=
  List.foldlRecOn (motive := fun t => t.groups = s.groups ∧ MemorySame s t) l f ⟨rfl, fun _ => rfl, fun _ _ => rfl⟩ fun t ⟨hg, hm⟩ a _ => by
    obtain ha | ⟨va, ha⟩ := hf t a
    · rw [ha]; exact ⟨hg, hm⟩
    · obtain ⟨hg', hm'⟩ := prefetchLine_frame t x va
      rw [ha]
      exact ⟨hg'.trans hg, memorySame_trans hm hm'⟩

/-! ### The frames -/

section
variable {s t : State} {i : Instr} {x : Issue} {f : FWord} {sp : Space} {ls : List LaneOk}

/-- The lanes that a local load gives values to are active. -/
theorem localLoad_lanes {size imm w words : Nat} {signed : Bool} (hat : AccessesAt s x.g sp size (laneAddrs s x imm w) ls) (t : State) :
    ∀ e ∈ localLoad t ls size words signed, e.1 ∈ x.act := fun e he => by
  obtain ⟨k, hk, rfl⟩ := List.mem_map.mp he
  have hlane : (k.lane, k.va) ∈ laneAddrs s x imm w := hat.lanes ▸ List.mem_map_of_mem (f := fun k => (k.lane, k.va)) hk
  obtain ⟨l, hl, hle⟩ := List.mem_map.mp hlane
  obtain rfl : l = k.lane := congrArg Prod.fst hle
  split <;> exact hl

/-- Values loaded in active lanes and the completion after them change the group alone, in the instruction's destination. -/
theorem plain_localDone_frame {vals : List (Nat × Nat)} (times : List (Nat × Nat)) (h : issueOf s i = some x) (hn : x.next ≠ exitPc)
    (ht : findGroup t x.g.id = some x.g) (hv : ∀ e ∈ vals, e.1 ∈ x.act) :
    ∃ g, findGroup (plain (localDone t x vals times) x) x.g.id = some g ∧ GroupFrame x.g g (regUse i).writes x.act ∧
      OnlyGroup x.g.id t (plain (localDone t x vals times) x) := by
  obtain ⟨⟨n, hd⟩, hload⟩ := localDone_frame ht vals times
  rw [issueOf_i h] at hd
  obtain ⟨g, hg, hframe, hplain⟩ := plain_frame h hn hd (loaded_width ..) (groupFrame_loaded x.g times n (staticCauses_of_issueOf h) hv)
  exact ⟨g, hg, hframe, hload.trans hplain⟩

/-- A local load whose lanes pass their checks changes its destination alone, in active lanes. -/
theorem exec_localLoad_frame (hi : loadRule i = some (f, sp)) (hsp : sp = .l ∨ sp = .lp) (h : issueOf s i = some x) (ha : x.act ≠ [])
    (hn : x.next ≠ exitPc) (hw : ∀ c k, (getLine (entry s x) c k).win ≠ 1)
    (hc : checkLanes (entry s x) x sp (widSize (fmod f 0 3)) (widSize (fmod f 0 3)) 1 true false false
      (laneAddrs (entry s x) x (fmod f 5 5) (widSize (fmod f 0 3))) = .ok t ls) :
    ∃ u g, exec i s = .next u ∧ findGroup u x.g.id = some g ∧ GroupFrame x.g g (regUse i).writes x.act ∧ OnlyGroup x.g.id s u := by
  obtain ⟨hat, ht⟩ := checkLanes_of_local hsp hw hc
  have ht : t = correctLocs (entry s x) (ls.flatMap (laneLocs (widSize (fmod f 0 3)))) := ht
  have honly : OnlyGroup x.g.id s t := by
    rw [ht]; exact (onlyGroup_setGroup s rfl).trans (onlyGroup_correctLocs ..)
  have hfound : findGroup t x.g.id = some x.g := by
    obtain ⟨_, _, e⟩ := correctLocs_eq (entry s x) (ls.flatMap (laneLocs (widSize (fmod f 0 3))))
    rw [ht, e]; exact findGroup_entry h
  have hexec := exec_load_of_checked hi h ha hc
  rw [if_pos hsp] at hexec
  obtain ⟨g, hg, hframe, hload⟩ := plain_localDone_frame _ h hn hfound (localLoad_lanes hat t)
  exact ⟨_, g, hexec, hg, hframe, honly.trans hload⟩

/-- A prefetch completes with no byte of memory and no register changed. -/
theorem exec_prf_frame (h : issueOf s (.prf f) = some x) (hn : x.next ≠ exitPc) :
    ∃ t g, exec (.prf f) s = .next t ∧ MemorySame s t ∧ findGroup t x.g.id = some g ∧ GroupFrame x.g g [] x.act := by
  have hentry : MemorySame s (entry s x) := (onlyGroup_setGroup s rfl).memory
  have hexec : exec (.prf f) s = .next (plain _ x) := issue_of_done h rfl
  generalize hu : List.foldl _ (entry s x) _ = u at hexec
  obtain ⟨hgroups, hmem⟩ : u.groups = (entry s x).groups ∧ MemorySame (entry s x) u := by
    rw [← hu]
    refine prefetches_frame _ x _ _ fun t a => ?_
    dsimp only
    split
    · split
      · exact .inr ⟨_, rfl⟩
      · exact .inl rfl
    · exact .inl rfl
  have hfound : findGroup u x.g.id = some x.g := by rw [findGroup, hgroups]; exact findGroup_entry h
  obtain ⟨g, hg, hframe, hplain⟩ := plain_frame h hn hfound rfl (groupFrame_refl x.g [] x.act)
  exact ⟨_, g, hexec, memorySame_trans (memorySame_trans hentry hmem) hplain.memory, hg, hframe⟩

end

end Sys2Proof.LocalAccesses

open Sys2Proof.Machine Sys2Proof.Safety Sys2Proof.Laws Sys2Proof.Draining Sys2Proof.PlainAccesses Sys2Proof.LocalAccesses

/-- Settles O25: no window line is filled, so the checks change nothing; the accesses that come first and the completion write no local memory, and the
stores write only at their targets. -/
theorem localStoreFrame : Obligations.LocalStoreFrame := by
  intro s i x f sp t ls hi hsp h ha hn hw n as hc b
  have hlines : ∀ c k, (getLine (entry s x) c k).win ≠ 1 := hw
  obtain ⟨hat, ht⟩ := checkLanes_of_local hsp hlines hc
  obtain rfl : t = entry s x := ht
  have has : as ≠ [] := by simpa [as, laneAddrs] using ha
  have hdrain := kept_drainForWrite (entry s x) x.g.id
  obtain ⟨k, hk, hkept⟩ := hdrain.group (findGroup_entry h)
  have hstores := writesLocal_storeLanes (x := x) hat has (entry s x) (rdC (entry s x) x) false
  have hfound : findGroup (storeLanes (entry s x) x n ls (rdC (entry s x) x) false) x.g.id = some k := by
    rw [findGroup, hstores.groups]; exact hk
  obtain ⟨g, hg, hframe, hplain⟩ := plain_frame h hn hfound hkept.width (groupFrame_refl k [] x.act)
  have hexec := exec_store_of_checked hi h ha hc
  rw [sampleLanes_of_local hat] at hexec
  exact ⟨drainForWrite_of_idle (findGroup_entry h), _, k, g, hexec, hk, hg, hframe, fun a => (hplain.memory.1 a).trans (hstores.place a),
    fun c o hout => (hplain.memory.2 c o).trans ((hstores.lmem c o hout).trans (hdrain.lmem c o))⟩

/-- Settles O26: a local load changes its group alone, in its destination; a prefetch changes copies of an L1. -/
theorem localLoadFrame : Obligations.LocalLoadFrame :=
  ⟨fun _ _ _ _ _ _ _ hi hsp h ha hn hw hc => by
    obtain ⟨u, g, hexec, hg, hframe, honly⟩ := exec_localLoad_frame hi hsp h ha hn hw hc
    exact ⟨u, g, hexec, hg, hframe, honly.machine, honly.memory⟩,
  fun _ _ _ h hn => exec_prf_frame h hn⟩
end

section
/-! SUPPORT. The lanes that floating-point instructions give results, and the frame of results that follow other changes of the group
(R15, R159, R186). -/
namespace Sys2Proof.FloatFrames
open Sys2Proof.Machine Sys2Proof.Safety Sys2Proof.Laws Sys2Proof.LaneResults Sys2Proof.LocalAccesses

/-! ### The lanes of floating-point results -/

theorem scanFrom_lanes (node : Nat → Nat → FRes) (y : Nat) (l : List (Nat × FV)) : (scanFrom node y l).map (·.lane) = l.map (·.1) := by
  induction l generalizing y with
  | nil => rfl
  | cons p t ih => simp [scanFrom, ih]

theorem scanExc_lanes (fl : FFlags) (l : List ScanStep) : (scanExc fl l).map (·.1) = l.map (·.lane) := by
  induction l generalizing fl with
  | nil => rfl
  | cons p t ih => simp [scanExc, ih]

/-- Results that each active lane forms for itself stand in the order of the lanes. -/
theorem perLane_lanes {α : Type} (act : List Nat) (f : Nat → α) : (act.map fun l => (l, f l)).map (·.1) = act :=
  (List.map_map ..).trans (List.map_id act)

theorem laneInputs_lanes (s : State) (x : Issue) (op ty : Nat) : (laneInputs s x op ty).map (·.1) = x.act := perLane_lanes ..

/-- Both forms of `lscan` give one result to each lane of its inputs, in their order. -/
theorem lscanLanes_lanes (x : Issue) (s : State) (f : FWord) : (lscanLanes x s f).map (·.1) = x.act := by
  rw [← laneInputs_lanes s x (fmod f 0 4) (fmod f 4 2), lscanLanes]
  cases laneInputs s x (fmod f 0 4) (fmod f 4 2) with
  | nil => rfl
  | cons p t =>
    dsimp only
    split
    · exact congrArg (p.1 :: ·) ((scanExc_lanes ..).trans (scanFrom_lanes ..))
    · exact congrArg (p.1 :: ·) ((List.map_map ..).trans (scanFrom_lanes ..))

/-- A floating-point instruction gives one result to each active lane, in lane order. -/
theorem fpLanes_lanes {i : Instr} {x : Issue} {s : State} {r : List (Nat × FRes)} (h : fpLanes i x s = some r) : r.map (·.1) = x.act := by
  unfold fpLanes at h
  split at h
  case h_3 =>
    obtain ⟨t, -, rfl⟩ := Option.map_eq_some_iff.mp h
    exact perLane_lanes ..
  case h_5 => cases h; exact lscanLanes_lanes ..
  case h_6 => split at h <;> cases h <;> exact perLane_lanes ..
  all_goals cases h; exact perLane_lanes ..

theorem mem_act_of_mem_valsOf {i : Instr} {x : Issue} {s : State} {r : List (Nat × FRes)} (h : fpLanes i x s = some r) : ∀ e ∈ valsOf r, e.1 ∈ x.act := by
  intro e he
  obtain ⟨p, hp, rfl⟩ := List.mem_map.mp he
  exact fpLanes_lanes h ▸ List.mem_map_of_mem hp

/-! ### The frames -/

/-- Results by lane leave the group as `completed` of `landed`, whatever changed in it before, and change nothing else. -/
theorem laneResult_onlyGroup {s u : State} {i : Instr} {x : Issue} {g : Group} {vals : List (Nat × Nat)} {pd : Nat} {ps : List (Nat × Bool)}
    (h : issueOf s i = some x) (hn : x.next ≠ exitPc) (hu : findGroup u x.g.id = some g) (hw : g.width = x.g.width) :
    findGroup (laneResult u x vals pd ps) x.g.id = some (completed (landed g i vals pd ps) x [] vals) ∧
    OnlyGroup x.g.id u (laneResult u x vals pd ps) := by
  have hid : ∀ g, (landed g i vals pd ps).id = g.id := fun g => by rw [landed_eq]
  have hgid : g.id = x.g.id := by simpa using List.find?_some (p := fun h : Group => h.id == x.g.id) hu
  obtain ⟨l, hl, hlw, -⟩ := issueOf_served h
  have hg := findGroup_modGroup hu hid
  have hlw : l < (landed g i vals pd ps).width := by rw [landed_eq, hw]; exact hlw
  have he := pcvOf_completed_ne_exit (g := landed g i vals pd ps) (lat := vals) hl hn
  have hc : laneResult u x vals pd ps = completeIssue (modGroup u x.g.id fun g => landed g i vals pd ps) x [] vals := by
    rw [laneResult, issueOf_i h]; rfl
  rw [hc]
  refine ⟨findGroup_completeIssue [] vals hg hlw he, ?_⟩
  obtain ⟨b, c, d, e⟩ := completeIssue_eq [] vals hg hlw he
  rw [e]
  exact (onlyGroup_modGroup u x.g.id hid).trans
    ((onlyGroup_setGroup _ (by rw [completed_id, hid, hgid])).trans (onlyGroup_words _ _ b c d))

/-- Results by lane after flags: the group is found with them in FPSTAT, and nothing else changes. -/
theorem fpResult_onlyGroup {s : State} {i : Instr} {x : Issue} (h : issueOf s i = some x) (hn : x.next ≠ exitPc) (vals : List (Nat × Nat)) (pd : Nat)
    (ps : List (Nat × Bool)) (fl : List (Nat × FFlags)) :
    findGroup (fpResult (entry s x) x vals pd ps fl) x.g.id = some (completed (landed (orFpstat x.g (allFlags fl)) i vals pd ps) x [] vals) ∧
    OnlyGroup x.g.id s (fpResult (entry s x) x vals pd ps fl) := by
  have hid : ∀ g, (orFpstat g (allFlags fl)).id = g.id := fun _ => rfl
  obtain ⟨hg, hresult⟩ := laneResult_onlyGroup (vals := vals) (pd := pd) (ps := ps) h hn (findGroup_modGroup (findGroup_entry h) hid) rfl
  exact ⟨hg, (onlyGroup_setGroup s rfl).trans ((onlyGroup_modGroup _ _ hid).trans hresult)⟩

section
variable (g : Group) (i : Instr) (x : Issue) (vals : List (Nat × Nat)) (pd : Nat) (ps : List (Nat × Bool)) (lat : List (Nat × Nat))

theorem fpstat_completed_landed : (completed (landed g i vals pd ps) x [] lat).fpstat = g.fpstat := by
  obtain ⟨_, _, _, _, _, hc⟩ := completed_eq (landed g i vals pd ps) x [] lat
  rw [hc, landed_eq]

theorem pcvOf_completed_landed {l : Nat} (hl : l < g.pcv.length) :
    pcvOf (completed (landed g i vals pd ps) x [] lat) l = if l ∈ x.served then x.next else pcvOf g l := by
  have hp : (landed g i vals pd ps).pcv = g.pcv := by rw [landed_eq]
  rw [pcvOf_completed _ _ _ (by rwa [hp]), pcvOf, hp, pcvOf]

end

/-- FPSTAT is no part of a group's frame. -/
theorem groupFrame_of_orFpstat {g h : Group} {fl : FFlags} {ws act : List Nat} (hf : GroupFrame (orFpstat g fl) h ws act) : GroupFrame g h ws act :=
  ⟨hf.v, hf.k, hf.p, hf.special, hf.blocks, hf.inFlight⟩

end Sys2Proof.FloatFrames

open Sys2Proof.Machine Sys2Proof.Safety Sys2Proof.Laws Sys2Proof.LaneResults Sys2Proof.FloatFrames

/-- Settles O20: the flags change FPSTAT alone, and the results after them are of active lanes. -/
theorem floatFrame : Obligations.FloatFrame := by
  intro s i x r h hr hx hn
  obtain ⟨hg, honly⟩ := fpResult_onlyGroup h hn (valsOf r) 7 [] (flagsOf r)
  have hframe := groupFrame_landed (ps := []) (orFpstat x.g (allFlags (flagsOf r))) (staticCauses_of_issueOf h) (mem_act_of_mem_valsOf hr)
    (by simp) (.inl rfl)
  exact ⟨_, _, floatResults.1 s i x r h hr hx, honly.memory, honly.machine, hg, groupFrame_of_orFpstat (groupFrame_completed [] _ hframe),
    fpstat_completed_landed .., fun _ hl => pcvOf_completed_landed _ _ _ _ _ _ _ hl⟩
end

section
/-! SUPPORT. Wrapping integer arithmetic and shifts as those of bit vectors (R162 to R165). -/
namespace Sys2Proof.WrappedIntegers
open Sys2Proof.Machine Sys2Proof.Safety

/-- The low bits of an integer are its bit vector's value. -/
theorem wrapI_eq_toNat (w : Nat) (x : Int) : wrapI w x = (BitVec.ofInt w x).toNat := (BitVec.toNat_ofInt x).symm

/-- Sign extension is the bit vector's signed reading. -/
theorem sextN_eq_toInt {w : Nat} (hw : 0 < w) (x : Nat) : sextN w x = (BitVec.ofNat w x).toInt := by
  obtain ⟨n, rfl⟩ : ∃ n, w = n + 1 := ⟨w - 1, by omega⟩
  simp only [sextN, BitVec.toInt_eq_toNat_cond, BitVec.toNat_ofNat, Nat.add_sub_cancel, pow_succ]
  split <;> split <;> omega

theorem ofNat_mod_two_pow (w x : Nat) : BitVec.ofNat w (x % 2 ^ w) = BitVec.ofNat w x := BitVec.eq_of_toNat_eq (by simp)

theorem ofInt_sub {w : Nat} (x y : Int) : BitVec.ofInt w (x - y) = BitVec.ofInt w x - BitVec.ofInt w y := by
  rw [Int.sub_eq_add_neg, BitVec.ofInt_add, BitVec.ofInt_neg, BitVec.sub_eq_add_neg]

/-- An operand stands for the same bit vector whether it is read as signed or as unsigned. -/
theorem ofInt_readInt {w : Nat} (hw : 0 < w) (uns : Bool) (x : Nat) : BitVec.ofInt w (readInt uns w x) = BitVec.ofNat w x := by
  cases uns with
  | true => rw [readInt, if_pos rfl, BitVec.ofInt_natCast, ofNat_mod_two_pow]
  | false => rw [readInt, if_neg Bool.false_ne_true, sextN_eq_toInt hw, BitVec.ofInt_toInt]

/-- Without SAT a result wraps (R162). -/
theorem intResult_of_unsat {f : FWord} (h : fmod f 3 1 = 0) (w : Nat) (uns : Bool) (r : Int) :
    intResult w uns (fmod f 3 1 == 1) r = (BitVec.ofInt w r).toNat := by
  rw [h]; exact wrapI_eq_toNat w r

/-- A shift to the right by the width or more fills every bit with the sign. -/
theorem sshiftRight_min {w : Nat} (x : BitVec w) (n : Nat) : x.sshiftRight (min n w) = x.sshiftRight n := by
  rcases le_total n w with h | h
  · rw [min_eq_left h]
  · ext i hi
    rw [min_eq_right h, BitVec.getElem_sshiftRight, BitVec.getElem_sshiftRight, dif_neg (by omega), dif_neg (by omega)]

theorem shlN_eq_shiftLeft (w x n : Nat) : shlN w (x % 2 ^ w) n = (BitVec.ofNat w x <<< n).toNat := by
  unfold shlN
  split
  · rw [BitVec.shiftLeft_eq_zero ‹_›]; rfl
  · rw [BitVec.toNat_shiftLeft, BitVec.toNat_ofNat]

theorem shrN_eq_ushiftRight (w x n : Nat) : shrN w (x % 2 ^ w) n = (BitVec.ofNat w x >>> n).toNat := by
  unfold shrN
  split
  · rw [BitVec.ushiftRight_eq_zero ‹_›]; rfl
  · rw [BitVec.toNat_ushiftRight, BitVec.toNat_ofNat]

theorem sarN_eq_sshiftRight {w : Nat} (hw : 0 < w) (x n : Nat) : sarN w (x % 2 ^ w) n = ((BitVec.ofNat w x).sshiftRight n).toNat := by
  rw [sarN, wrapI_eq_toNat, sextN_eq_toInt hw, ofNat_mod_two_pow, ← Int.shiftRight_eq_div_pow, ← BitVec.sshiftRight, sshiftRight_min]

theorem intW_pos (f : FWord) : 0 < intW f := by unfold intW; split <;> decide

end Sys2Proof.WrappedIntegers

open Sys2Proof.Machine Sys2Proof.Safety Sys2Proof.WrappedIntegers

/-- Settles O17: bit vectors add, multiply and negate as integers do, and either reading of an operand stands for the same bit vector. -/
theorem wrappingArithmetic : Obligations.WrappingArithmetic := by
  intro f a b hsat w int
  have hw : 0 < w := intW_pos f
  have ha := ofInt_readInt hw (fmod f 2 1 == 1) a
  have hb := ofInt_readInt hw (fmod f 2 1 == 1) b
  refine ⟨?_, ?_, ?_, ?_, shlN_eq_shiftLeft w a b, shrN_eq_ushiftRight w a b, sarN_eq_sshiftRight hw a b⟩ <;> rintro _ ⟨⟩ <;>
    refine (intResult_of_unsat hsat ..).trans ?_
  · rw [BitVec.ofInt_add, ha, hb]
  · rw [ofInt_sub, ha, hb]
  · rw [BitVec.ofInt_mul, ha, hb]
  · rw [BitVec.ofInt_neg, ha]
end

section
/-! SUPPORT. Software traps (R193), and the record that a trap writes in TREC (R385). -/
namespace Sys2Proof.SoftTraps
open Sys2Proof.Machine Sys2Proof.Safety Sys2Proof.Laws

/-! ### The record of a trap -/

/-- Word 0 of a record names its kind, its cause and its lane (R385). -/
theorem recWords_head (r : RecF) (clk : Nat) :
    let w := ((recWords r clk)[0]?.getD 0).toNat
    w % 256 = r.kind % 256 ∧ w / 2 ^ 8 % 256 = r.cause % 256 ∧ w / 2 ^ 16 % 64 = r.lane % 64 := by
  have hu := r.user.toNat_le
  have hn := r.nested.toNat_le
  have hh := r.half.toNat_le
  simp only [recWords, List.getElem?_cons_zero, Option.getD_some, BitVec.toNat_ofNat]
  omega

/-- TREC names the kind, the cause, the lane, the addresses and the lanes of the trap, in a user handler or not (R385, R388). -/
theorem trapGroup_trec (s : State) (g : Group) (pc next : DWord) (t : TrapInfo) :
    let r := (trapGroup s g pc next t).trec
    (r[0]?.getD 0).toNat % 256 = t.kind % 256 ∧ (r[0]?.getD 0).toNat / 2 ^ 8 % 256 = t.cause % 256 ∧
      (r[0]?.getD 0).toNat / 2 ^ 16 % 64 = t.lane.getD (t.mask.headD 0) % 64 ∧
      r[1]?.getD 0 = pc ∧ r[2]?.getD 0 = trapRaddr g pc next t ∧ r[3]?.getD 0 = maskLanes t.mask := by
  obtain ⟨user, nested, h⟩ : ∃ user nested, (trapGroup s g pc next t).trec = recWords (trapRecord g pc next t user nested) s.clk := by
    unfold trapGroup
    dsimp only
    split <;> exact ⟨_, _, rfl⟩
  obtain ⟨hkind, hcause, hlane⟩ := recWords_head (trapRecord g pc next t user nested) s.clk
  rw [h]
  exact ⟨hkind, hcause, hlane, rfl, rfl, rfl⟩

/-! ### `trap` and `brk` -/

section
variable {s : State} {i : Instr} {x : Issue} {f : FWord} {k : Nat}

/-- Either instruction is the software trap of its kind. -/
theorem exec_softTrap (hi : i = .trap f ∧ k = 10 ∨ i = .brk f ∧ k = 11) (s : State) : exec i s = issue i s (softTrap k f) := by
  rcases hi with ⟨rfl, rfl⟩ | ⟨rfl, rfl⟩ <;> rfl

/-- What a software trap is raised with (R193). -/
def softInfo (f : FWord) (x : Issue) (k : Nat) : TrapInfo := { kind := k, cause := fmod f 0 8, mask := x.act, nextPc := true }

theorem softTrap_of_inactive (h : x.act = []) (s : State) : softTrap k f x s = .done s [] := by simp [softTrap, h]

theorem softTrap_of_active (h : x.act ≠ []) (s : State) : softTrap k f x s = .trap s (softInfo f x k) := by
  simp [softTrap, softInfo, h]

end

end Sys2Proof.SoftTraps

open Sys2Proof.Machine Sys2Proof.Safety Sys2Proof.Laws Sys2Proof.SoftTraps

/-- Settles O13: an active lane makes the issue a trap, and the record's fields are those that the trap was raised with. -/
theorem softwareTraps : Obligations.SoftwareTraps := by
  intro s f x i k hi h
  refine ⟨fun ha => ?_, fun ha hf => ⟨?_, _, findGroup_takeTrap _ _ _ (findGroup_entry h), ?_⟩⟩
  · exact (exec_softTrap hi s).trans (issue_of_done h (softTrap_of_inactive ha _))
  · exact (exec_softTrap hi s).trans (issue_of_trap h hf (softTrap_of_active ha _))
  · obtain ⟨hkind, hcause, hlane, hpc, hnext, hmask⟩ := trapGroup_trec (entry s x) x.g x.pc x.next (softInfo f x k)
    have hk : k % 256 = k := by omega
    have hc : fmod f 0 8 % 256 = fmod f 0 8 := Nat.mod_mod _ _
    exact ⟨hkind.trans hk, hcause.trans hc, hlane, hpc, hnext, hmask⟩
end

section
/-! SUPPORT. The bodies of the integer, bitwise and lane instructions, by the rules that give their results (R162 to R172, R177, R183 to R185). -/
namespace Sys2Proof.ResultRules
open Sys2Proof.Machine Sys2Proof.Safety Sys2Proof.Laws

/-- Each integer instruction of the standard layout gives each active lane the result of its rule (R162, R163). -/
theorem exec_of_intRule {i : Instr} {f : FWord} {op : Int → Int → Int → Int} (h : intRule i = some (f, op)) (s : State) :
    exec i s = issue i s fun x s => intOp x s f op := by
  unfold intRule at h
  split at h <;> cases h
  case h_5 => -- `imulhi`: floor and Euclidean division agree for a positive divisor
    have hop : (fun a b _ => (a * b) / ((2 ^ intW f : Nat) : Int)) = (fun a b _ => Int.fdiv (a * b) (2 ^ intW f) : Int → Int → Int → Int) := by
      funext a b _
      rw [Int.fdiv_eq_ediv_of_nonneg _ (by positivity), Nat.cast_pow, Nat.cast_ofNat]
    rw [← hop]; rfl
  case h_7 => simp only [← min_def]; rfl
  case h_8 => simp only [← max_def]; rfl
  case h_9 => -- `iabs`
    have hop : (fun a _ _ => (a.natAbs : Int)) = (fun a _ _ => if a < 0 then -a else a : Int → Int → Int → Int) := by
      funext a _ _
      split <;> omega
    rw [← hop]; rfl
  all_goals rfl

/-- Each bitwise, counting or moving instruction gives each active lane the result of its rule (R163 to R167, R171). -/
theorem exec_of_bitRule {i : Instr} {op : Nat → Nat → Nat → Nat} (h : bitRule i = some op) (s : State) :
    exec i s = issue i s fun x s => bitOp x s op := by
  unfold bitRule at h
  split at h
  case h_21 => cases h
  all_goals obtain rfl := Option.some.inj h
  case h_19 f =>
    have hop : ((2 : Int) ^ fmod f 3 3) = ((2 ^ fmod f 3 3 : Nat) : Int) := by rw [Nat.cast_pow, Nat.cast_ofNat]
    rw [hop]; rfl
  all_goals rfl

section
variable {x : Issue} {s : State} {vals : List (Nat × Nat)} {pd : Nat} {ps : List (Nat × Bool)}

/-- `shfl` gives its results where no active lane reads an uncorrectable word of another lane, and MEMERR on the lanes that do (R183, R397). -/
theorem shfl_body {f : FWord} (h : laneOut (.shfl f) x (laneState (.shfl f) x s) = some (vals, pd, ps)) :
    ∃ body, (∀ t, exec (.shfl f) t = issue (.shfl f) t body) ∧
      (shflBad (.shfl f) x s = [] → body x s = laneDone (laneState (.shfl f) x s) x vals pd ps) ∧
      (shflBad (.shfl f) x s ≠ [] → body x s = .trap s { kind := 7, cause := 3, mask := shflBad (.shfl f) x s }) := by
  cases h
  refine ⟨_, fun _ => rfl, fun hb => ?_, fun hb => ?_⟩
  · simp only [shflBad] at hb
    simp only [hb, List.map_map]
    rfl
  · obtain ⟨l, ls, hl⟩ := List.exists_cons_of_ne_nil hb
    simp only [shflBad] at hl
    simp only [hl, shflBad]
    rfl

/-- Every lane instruction gives its results where no active lane reads an uncorrectable word of another lane, as only `shfl` may. -/
theorem laneOut_body {i : Instr} (h : laneOut i x (laneState i x s) = some (vals, pd, ps)) :
    ∃ body, (∀ t, exec i t = issue i t body) ∧ (shflBad i x s = [] → body x s = laneDone (laneState i x s) x vals pd ps) ∧
      (shflBad i x s ≠ [] → body x s = .trap s { kind := 7, cause := 3, mask := shflBad i x s }) := by
  unfold laneOut at h
  split at h
  case h_6 => exact shfl_body h
  all_goals cases h
  -- `icmp` and `fclass` map a list of results twice
  case h_2 | h_5 => exact ⟨_, fun _ => rfl, fun _ => by simp only [List.map_map]; rfl, fun hb => absurd rfl hb⟩
  all_goals exact ⟨_, fun _ => rfl, fun _ => rfl, fun hb => absurd rfl hb⟩

end

end Sys2Proof.ResultRules

open Sys2Proof.Machine Sys2Proof.Safety Sys2Proof.Laws Sys2Proof.ResultRules

/-- Settles O15: each body gives the results of its instruction's rule, and that of `shfl` traps where it reads an uncorrectable word. -/
theorem integerAndLaneResults : Obligations.IntegerAndLaneResults := by
  refine ⟨fun s i x f op hr h => ?_, fun s i x op hr h => ?_, ?_⟩
  · rw [exec_of_intRule hr]
    exact issue_of_perLane h rfl
  · rw [exec_of_bitRule hr]
    exact issue_of_perLane h rfl
  · intro s i x vals pd ps h u ho
    obtain ⟨body, he, hdone, htrap⟩ := laneOut_body ho
    rw [he]
    exact ⟨fun hb => issue_of_done h (hdone hb), fun hf hb => issue_of_trap h hf (htrap hb)⟩
end

section
/-! SUPPORT. Jumps: branches of all lanes to one target, branches of each lane to its own, and what a bad target traps (R188). -/
namespace Sys2Proof.Jumps
open Sys2Proof.Machine Sys2Proof.Safety Sys2Proof.Laws

section
variable {s t : State} {i : Instr} {x : Issue} {dest : List (Nat × Nat)}

/-- An instruction whose body sets the pcv of its active lanes. -/
theorem issue_of_jump {ps : List (Nat × DWord)} {body : Issue → State → IRes} (h : issueOf s i = some x) (hb : body x (entry s x) = .jump t ps) :
    issue i s body = .next (jumped t x ps) := by
  rw [issue_done h (by simp [hb]), hb]; rfl

/-! ### One target for all lanes -/

theorem jumpAll_of_canonical {a : DWord} (h : x.act = [] ∨ canonical a.toNat = true) (s : State) :
    jumpAll s x a = .jump s (x.act.map fun l => (l, a)) := if_pos (by simpa using h)

theorem jumpAll_of_not_canonical {a : DWord} (ha : x.act ≠ []) (h : canonical a.toNat = false) (s : State) :
    jumpAll s x a = .trap s (targetSeg x.act a.toNat) := if_neg (by simp [ha, h])

/-- A call is an X instruction of two words. -/
theorem next_of_call {y : XWord} (h : x.i = .call y) : x.next = x.pc + 16 := by rw [Issue.next, h]; rfl

theorem exec_bra_of_canonical {y : XWord} (h : issueOf s (.bra y) = some x) (hc : x.act = [] ∨ canonical (braTarget x y).toNat = true) :
    exec (.bra y) s = .next (jumped (entry s x) x (x.act.map fun l => (l, braTarget x y))) :=
  issue_of_jump h (jumpAll_of_canonical hc _)

/-- A call whose target is good writes the address after itself and jumps. -/
theorem exec_call_of_canonical {y : XWord} (h : issueOf s (.call y) = some x) (hc : x.act = [] ∨ canonical (braTarget x y).toNat = true) :
    exec (.call y) s =
      .next (jumped (modGroup (entry s x) x.g.id fun g => putDst g (.call y) (allLanes x (x.pc + 16).toNat)) x (x.act.map fun l => (l, braTarget x y))) :=
  issue_of_jump h (by simp only [jumpAll_of_canonical hc, issueOf_i h, next_of_call (issueOf_i h)])

/-- A bad target of `bra` or `call` raises SEG on the active lanes. -/
theorem exec_of_not_canonical {y : XWord} (hi : i = .bra y ∨ i = .call y) (h : issueOf s i = some x) (hf : inFlight x.g = false) (ha : x.act ≠ [])
    (hc : canonical (braTarget x y).toNat = false) :
    exec i s = .next (takeTrap (entry s x) x.g.id x.pc x.next (targetSeg x.act (braTarget x y).toNat)) := by
  have hj := jumpAll_of_not_canonical ha hc (entry s x)
  rcases hi with rfl | rfl
  · exact issue_of_trap h hf hj
  · exact issue_of_trap h hf (by simp only [hj])

/-! ### A target for each lane -/

/-- The targets that `ret` and `brx` read in the active lanes (R188). -/
def LaneTargets (s : State) (x : Issue) (f : FWord) (i : Instr) (dest : List (Nat × Nat)) : Prop :=
  i = .ret f ∧ dest = (x.act.map fun l => (l, rdA s x l)) ∨
  i = .brx f ∧ dest = (x.act.map fun l =>
    (l, if fmod f 0 1 = 1 then (x.pc + BitVec.ofInt 64 (sextN 32 (rdA s x l))).toNat else rdA s x l))

theorem LaneTargets.body {f : FWord} (h : LaneTargets s x f i dest) :
    ∃ body, (∀ t, exec i t = issue i t body) ∧ body x s = laneBranch s x dest := by
  rcases h with ⟨rfl, rfl⟩ | ⟨rfl, rfl⟩ <;> exact ⟨_, fun _ => rfl, rfl⟩

/-- The trap of the lanes whose targets fail a test, with the first such target as its address (R188, R385). -/
def badTargets (k : Nat) (q : Nat → Bool) (dest : List (Nat × Nat)) : TrapInfo :=
  { kind := k, mask := (dest.filter fun e => q e.2).map (·.1), daddr := BitVec.ofNat 64 (((dest.find? fun e => q e.2).map (·.2)).getD 0) }

theorem badTargets_of_filter {k : Nat} {q : Nat → Bool} {p : Nat × Nat} {ps : List (Nat × Nat)} (h : (dest.filter fun e => q e.2) = p :: ps) :
    badTargets k q dest = { kind := k, mask := (p :: ps).map (·.1), daddr := BitVec.ofNat 64 p.2 } := by
  have hd : (dest.find? fun e => q e.2) = some p := by rw [← List.head?_filter, h]; rfl
  rw [badTargets, h, hd]; rfl

theorem filter_misaligned_eq_nil (h : ∀ e ∈ dest, e.2 % 8 = 0) : (dest.filter fun e => e.2 % 8 != 0) = [] :=
  List.filter_eq_nil_iff.mpr fun e he => by simp [h e he]

/-- Some target fails a test, so those that do are not none. -/
theorem exists_filter_eq_cons {q : Nat → Bool} (h : ∃ e ∈ dest, q e.2 = true) : ∃ p ps, (dest.filter fun e => q e.2) = p :: ps :=
  List.exists_cons_of_ne_nil fun hn => by
    obtain ⟨e, he, hq⟩ := h
    exact List.filter_eq_nil_iff.mp hn e he hq

theorem laneBranch_of_good (h : ∀ e ∈ dest, e.2 % 8 = 0 ∧ canonical e.2 = true) :
    laneBranch s x dest = .jump s (dest.map fun e => (e.1, BitVec.ofNat 64 e.2)) := by
  have ha := filter_misaligned_eq_nil fun e he => (h e he).1
  have hc : (dest.filter fun e => !canonical e.2) = [] := List.filter_eq_nil_iff.mpr fun e he => by simp [(h e he).2]
  simp only [laneBranch, ha, hc]

theorem laneBranch_of_misaligned (h : ∃ e ∈ dest, e.2 % 8 ≠ 0) :
    laneBranch s x dest = .trap s (badTargets 4 (fun a => a % 8 != 0) dest) := by
  obtain ⟨p, ps, hp⟩ := exists_filter_eq_cons (q := fun a => a % 8 != 0) (by simpa using h)
  rw [badTargets_of_filter hp]
  simp only [laneBranch, hp]
  rfl

/-- ALIGN comes before SEG: where every target is aligned a bad one is SEG. -/
theorem laneBranch_of_not_canonical (ha : ∀ e ∈ dest, e.2 % 8 = 0) (h : ∃ e ∈ dest, canonical e.2 = false) :
    laneBranch s x dest = .trap s (badTargets 3 (fun a => !canonical a) dest) := by
  obtain ⟨p, ps, hp⟩ := exists_filter_eq_cons (q := fun a => !canonical a) (by simpa using h)
  rw [badTargets_of_filter hp]
  simp only [laneBranch, filter_misaligned_eq_nil ha, hp]
  rfl

end

end Sys2Proof.Jumps

open Sys2Proof.Machine Sys2Proof.Safety Sys2Proof.Laws Sys2Proof.Jumps

/-- Settles O21: good targets make each branch a jump; `exit` jumps to all ones, `yield` and `nap` complete. -/
theorem branches : Obligations.Branches := by
  refine ⟨fun s y x hc => ⟨fun h => exec_bra_of_canonical h hc, fun h => exec_call_of_canonical h hc⟩, fun s f x i dest h hd hg => ?_,
    fun s f x => ⟨fun h => issue_of_jump h rfl, fun h => issue_of_done h rfl, fun h => issue_of_done h rfl⟩⟩
  obtain ⟨body, he, hb⟩ := LaneTargets.body hd
  rw [he]
  exact issue_of_jump h (hb.trans (laneBranch_of_good hg))

/-- Settles O22: a bad target makes the branch's body a trap, ALIGN where any target is misaligned. -/
theorem branchTargetTraps : Obligations.BranchTargetTraps := by
  intro s x hf
  refine ⟨fun f i dest h hd => ?_, fun y i hi h ha hc => exec_of_not_canonical hi h hf ha hc⟩
  obtain ⟨body, he, hb⟩ := LaneTargets.body hd
  simp only [he]
  exact ⟨fun hm => issue_of_trap h hf (hb.trans (laneBranch_of_misaligned hm)),
    fun ha hs => issue_of_trap h hf (hb.trans (laneBranch_of_not_canonical ha hs))⟩
end

section
/-! SUPPORT. A convergent instruction whose body completes, and the multiplies of the matrix engine once their checks pass (R194, R201, R220 to
R222, R226). -/
namespace Sys2Proof.Laws
open Sys2Proof.Machine Sys2Proof.Safety

/-- A convergent instruction at which every lane has arrived, whose body completes (R201, R337). -/
theorem issueConv_of_done {s t : State} {i : Instr} {x : Issue} {lat : List (Nat × Nat)} {body : Issue → State → IRes} (h : convIssueOf s i = some x)
    (hb : body x (entry s x) = .done t lat) : issueConv i s body = .next (completeIssue t x [] lat) := by
  rw [issueConv_done h (by simp [hb]), hb]; rfl

end Sys2Proof.Laws

namespace Sys2Proof.Multiplies
open Sys2Proof.Machine Sys2Proof.Safety Sys2Proof.Laws

variable {s t0 t : State} {i : Instr} {x : Issue} {y : XWord} {n : Nat} {tm : Team} {p : Partition} {tabs : List PageTab}

/-- A tile whose slots are all good holds no bad slot. -/
theorem any_slotBad_of_all {c : Nat} {ns : List Nat} (h : ns.all (fun i => !slotBad t c i) = true) : ns.any (slotBad t c) = false := by
  simpa using h

/-! ### Staging -/

/-- A multiply whose checks pass is staged with the operands that it reads (R226). -/
theorem stageMul_of_mulOk {opc : Nat} (h : mulOk t0 x y (opc == 0x241) n tm t p tabs) (frags : Frags) (k : State → Staged → IRes) :
    stageMul x t0 y opc frags k =
      k (mulRead t0 t x y (opc == 0x241) n tm p tabs).1 (stagedOf y opc frags n (mulRead t0 t x y (opc == 0x241) n tm p tabs).2) := by
  obtain ⟨hslot, hteam, htiles, hgood⟩ := h
  have hbad : (!matZA y && (tileSlots n (matTACC y)).any (slotBad t x.g.core)) = false := by
    cases hz : matZA y with
    | true => rfl
    | false => exact any_slotBad_of_all (hgood hz)
  simp only [stageMul, hslot, hteam, htiles, hbad, Bool.false_eq_true, if_false]
  rfl

/-! ### `mma` and `mma.sp` (R220, R221) -/

/-- The fragment of A of a multiply of one group. -/
def ownFrags (t0 : State) (x : Issue) (y : XWord) : Frags := [((findGroup t0 x.g.id).getD x.g, vNum y.sa)]

theorem mulOp_of_mulOk {opc : Nat} (ha : x.act ≠ []) (h : mulOk (readPoint s x.g.id) x y (opc == 0x241) n tm t p tabs) :
    let rd := mulRead (readPoint s x.g.id) t x y (opc == 0x241) n tm p tabs
    mulOp y opc x s = .done (pushArray rd.1 x.g.core (stagedOf y opc (ownFrags (readPoint s x.g.id) x y) n rd.2)) [] := by
  rw [mulOp, groupWide_of_active ha]
  exact stageMul_of_mulOk h ..

/-- Either multiply of one group: `mma` waits for every lane of it except where A comes from a map without scales (R201). -/
theorem exec_mul_of_done {opc : Nat}
    (hi : i = .mma y ∧ opc = 0x240 ∧ (if matASRC y = 1 ∧ matMXS y = 0 then issueOf s i = some x else convIssueOf s i = some x) ∨
      i = .mmaSp y ∧ opc = 0x241 ∧ convIssueOf s i = some x) (hb : mulOp y opc x (entry s x) = .done t []) :
    exec i s = .next (plain t x) := by
  rcases hi with ⟨rfl, rfl, h⟩ | ⟨rfl, rfl, h⟩
  · change execMma y s = _
    unfold execMma
    split at h
    · rw [if_pos ‹_›]; exact issue_of_done h hb
    · rw [if_neg ‹_›]; exact issueConv_of_done h hb
  · exact issueConv_of_done (body := mulOp y 0x241) h hb

/-! ### `mma.t` (R222) -/

/-- The convergence register that an `mma.t` names, and the members of its set. -/
def namedCv (tm : Team) (y : XWord) : Cv := cvOf tm (xtail y 45 4)
def setSize (tm : Team) (y : XWord) : Nat := (bitsOf 32 (namedCv tm y).set.toNat).length

/-- The fragments of A of the members of the set, each group's as it named it when it signed. -/
def memberFrags (t0 : State) (x : Issue) (tm : Team) (y : XWord) : Frags :=
  (setMembers t0 x.g (namedCv tm y).set).map fun h => (h, if h.id = x.g.id then vNum y.sa else (h.mmaT.map fun m => vNum m.1.sa).getD 0)

/-- The group is the last of its set to sign: a member that has not signed, of a set of 1, 2, 4 or 8 groups that are all there, where those that wait
have named the same multiply. -/
structure LastSigner (s : State) (x : Issue) (tm : Team) (y : XWord) : Prop where
  team : teamOf s x.g = some tm
  noError : x.g.mmaErr.map (·.1) ≠ some (xtail y 45 4)
  member : (namedCv tm y).set.getLsbD x.g.grpid = true
  unsigned : (namedCv tm y).signed.getLsbD x.g.grpid = false
  size : [1, 2, 4, 8].contains (setSize tm y) = true
  agree : ∀ h ∈ mmaTWaiters (released s x) x.g (xtail y 45 4),
    ∃ z b, h.mmaT = some (z, b) ∧ z.modb = y.modb ∧ z.moda = y.moda ∧ b = rdB s x x.lead
  last : cvComplete { namedCv tm y with signed := (namedCv tm y).signed ||| BitVec.ofNat 32 (2 ^ x.g.grpid) } tm.retired = true
  present : (setMembers (released s x) x.g (namedCv tm y).set).length = setSize tm y

/-- The last signer, whose checks pass, performs the multiply over every member's fragment, and the phase completes. -/
theorem mmaTOp_of_lastSigner (ha : x.act ≠ []) (hr : releaseOk s x) (hl : LastSigner s x tm y)
    (h : mulOk (released s x) x y false n tm t p tabs) :
    let rd := mulRead (released s x) t x y false n tm p tabs
    mmaTOp y x s = .done (mmaTDone rd.1 x (xtail y 45 4) (stagedOf y 0x242 (memberFrags (released s x) x tm y) n rd.2)) [] := by
  obtain ⟨hteam, herr, hmember, hunsigned, hsize, hagree, hlast, hpresent⟩ := hl
  unfold setSize at hsize hpresent
  unfold namedCv at *
  rw [mmaTOp, groupWide_of_active ha]
  simp only [hteam, withRelease_of_releaseOk hr, herr, hmember, hunsigned, hsize, hlast, hpresent, Bool.not_true, bne_self_eq_false,
    Bool.false_eq_true, if_false, if_true]
  rw [if_neg]
  · exact stageMul_of_mulOk (opc := 0x242) h _ _
  · rw [List.any_eq_true]
    rintro ⟨g, hg, hdiff⟩
    obtain ⟨z, b, hz, hmodb, hmoda, hb⟩ := hagree g hg
    simp [hz, hmodb, hmoda, hb] at hdiff

end Sys2Proof.Multiplies

open Sys2Proof.Machine Sys2Proof.Laws Sys2Proof.Multiplies

/-- Settles O37: past its checks a multiply is staged with the operands that it reads, those of the last signer with every member's fragment. -/
theorem matrixMultiplies : Obligations.MatrixMultiplies := by
  refine ⟨fun s y x i opc n tm t p tabs hi ha hok => exec_mul_of_done hi (mulOp_of_mulOk ha hok),
    fun s y x n tm t p tabs h ha hteam hr => ?_⟩
  intro k c sb members t0 ms frags herr hmember hunsigned hsize hagree hlast hpresent hok
  exact issueConv_of_done (body := mmaTOp y) h
    (mmaTOp_of_lastSigner ha hr ⟨hteam, herr, hmember, hunsigned, hsize, hagree, hlast, hpresent⟩ hok)
end

section
/-! SUPPORT. Accumulator slots, MSTAT, operand maps and tile handles (R199, R203, R223, R225, R227, R228). -/
namespace Sys2Proof.Slots
open Sys2Proof.Machine Sys2Proof.Safety Sys2Proof.Laws Sys2Proof.Multiplies

variable {s t0 t : State} {x : Issue} {f : FWord} {y : XWord} {n : Nat} {tm : Team} {k : Core} {p : Partition} {tabs : List PageTab}

/-- A tile's slots rewritten: its uncorrectable elements are good again (R226), and `lacc` elements have their side classes (R196). -/
def rewritten (t : State) (core n tacc : Nat) (els : List (BitVec 128)) (sides : List Nat) : State :=
  putSlot (healSlot t core n tacc) core n tacc els (if tacc = 0xB then sides else [])

/-! ### `azero`, `mst.clr` and `mst.rd` (R223, R227) -/

theorem exec_azero (h : issueOf s (.azero f) = some x) (ha : x.act ≠ []) (ht : drainArray (entry s x) x.g.core = t)
    (hslot : slotCheck t x.g (fmod f 0 3) (fmod f 3 4) false = .ok n) :
    exec (.azero f) s =
      .next (plain (putSlot (healSlot t x.g.core n (fmod f 3 4)) x.g.core n (fmod f 3 4) (zerosOf (fmod f 3 4)) []) x) :=
  issue_of_done h (by simp only [groupWide_of_active ha, ht, hslot])

theorem exec_mstClr (h : issueOf s (.mstClr f) = some x) (ha : x.act ≠ []) :
    exec (.mstClr f) s = .next (plain (modGroup (drainArray (entry s x) x.g.core) x.g.id fun g => { g with mstat := mstatReset }) x) :=
  issue_of_done h (groupWide_of_active ha ..)

theorem exec_mstRd (h : issueOf s (.mstRd f) = some x) (ha : x.act ≠ []) (ht : drainArray (entry s x) x.g.core = t) :
    exec (.mstRd f) s = .next (wideResult t x (((findGroup t x.g.id).map fun g => g.mstat.toNat).getD 0)) :=
  issue_of_doneWith h (by simp only [groupWide_of_active ha, ht])

/-! ### `aload` and `astore` (R225, R232) -/

theorem exec_aload (h : issueOf s (.aload y) = some x) (ha : x.act ≠ [])
    (ht0 : drainArray (readPoint (entry s x) x.g.id) x.g.core = t0) (hteam : teamOf t0 x.g = some tm)
    (hslot : slotCheck t0 x.g (xtail y 18 3) (accTACC y) false = .ok n) (htile : checkTiles t0 x false [accTile t0 x tm y] = .ok t p tabs) :
    let u := sampleTiles (touchRead t x.g.id) x 0 [accTile t0 x tm y]
    let e := enterAll (accET y) (accTACC y) (readTile u x.g p (tabs.headD []) (accTile t0 x tm y))
    exec (.aload y) s = .next (plain (noteMstat (rewritten u x.g.core n (accTACC y) e.1 e.2.1) x.g.id e.2.2) x) := by
  refine issue_of_done h ?_
  simp only [groupWide_of_active ha, ht0, hteam, hslot, htile]
  rfl

/-- The elements of some of a slot's values as they leave it, under the group's FLUSHCTL (R216). -/
def leaving (y : XWord) (x : Issue) (es : List (BitVec 128 × Nat)) : List Nat × MFlags := leaveAll y x.g.flushctl.toNat es

theorem exec_astore (h : issueOf s (.astore y) = some x) (ha : x.act ≠ [])
    (ht0 : astorePoint (entry s x) x (((teamOf (entry s x) x.g).map fun tm => (accTile (entry s x) x tm y).glob).getD false) = t0)
    (hteam : teamOf t0 x.g = some tm) (hslot : slotCheck t0 x.g (xtail y 18 3) (accTACC y) true = .ok n)
    (hcore : findCore t0 x.g.core = some k) (htile : checkTiles t0 x true [accTile t0 x tm y] = .ok t p tabs)
    (hgood : (tileSlots n (accTACC y)).all (fun i => !slotBad t x.g.core i) = true) :
    let e := leaving y x (slotPairs k n (accTACC y))
    exec (.astore y) s = .next (plain (noteMstat (writeTile
      (sampleTiles (correctAcc t x.g.core (tileSlots n (accTACC y))) x 1 [accTile t0 x tm y]) x p (tabs.headD []) (accTile t0 x tm y) e.1)
        x.g.id e.2) x) := by
  refine issue_of_done h ?_
  simp only [groupWide_of_active ha, ht0, hteam, hslot, hcore, htile, any_slotBad_of_all hgood, Bool.false_eq_true, if_false]
  rfl

/-! ### `aread` and `awrite` (R199, R225) -/

theorem exec_aread (h : convIssueOf s (.aread y) = some x) (ha : x.act ≠ []) (ht : drainArray (entry s x) x.g.core = t)
    (hcore : findCore t x.g.core = some k) (hrows : rdB t x x.lead + accN y ≤ accM y)
    (hslot : slotCheck t x.g (xtail y 18 3) (accTACC y) true = .ok n)
    (hgood : (tileSlots n (accTACC y)).all (fun i => !slotBad t x.g.core i) = true) :
    let e := leaving y x (((slotPairs k n (accTACC y)).drop (128 * rdB t x x.lead)).take (128 * accN y))
    exec (.aread y) s = .next (plain (noteMstat (modGroup (correctAcc t x.g.core (tileSlots n (accTACC y))) x.g.id fun g =>
      writeFrag g (vNum y.dst) (bytesOfElems (etBits (accET y)) e.1)) x.g.id e.2) x) := by
  refine issueConv_of_done (body := areadOp y) h ?_
  simp only [areadOp, groupWide_of_active ha, ht, hcore, Nat.not_lt.mpr hrows, hslot, any_slotBad_of_all hgood, Bool.false_eq_true, if_false]
  rfl

/-- A slot's values before an `awrite`: zeros where its tag changes (R225). -/
def valuesBefore (k : Core) (n tacc : Nat) : List (BitVec 128 × Nat) :=
  if (tileSlots n tacc).all (fun i => (slotAt k i).tag == slotTag tacc) then slotPairs k n tacc else (zerosOf tacc).map fun e => (e, 0)

/-- Rows of a slot's values replaced, from row `r0`. -/
def withRows (r0 rows : Nat) (old new : List (BitVec 128 × Nat)) : List (BitVec 128 × Nat) :=
  old.take (128 * r0) ++ new.take (128 * rows) ++ old.drop (128 * (r0 + rows))

/-- The elements of the fragment of an `awrite` as they enter the slot (R216). -/
def entered (y : XWord) (g : Group) : List (BitVec 128) × List Nat × MFlags :=
  enterAll (accET y) (accTACC y)
    (elemsOfBytes (etBits (accET y)) (readFrag g (vNum y.sa) (fragWords (accN y * 128) (etBits (accET y)))))

theorem exec_awrite {g : Group} (h : convIssueOf s (.awrite y) = some x) (ha : x.act ≠ []) (ht : drainArray (entry s x) x.g.core = t)
    (hg : (findGroup t x.g.id).getD x.g = g) (hid : g.core = x.g.core ∧ g.id = x.g.id) (hcore : findCore t x.g.core = some k)
    (hrows : rdB t x x.lead + accN y ≤ accM y) (hslot : slotCheck t g (xtail y 18 3) (accTACC y) false = .ok n) :
    let e := entered y g
    let new := withRows (rdB t x x.lead) (accN y) (valuesBefore k n (accTACC y)) (e.1.zip e.2.1)
    exec (.awrite y) s =
      .next (plain (noteMstat (rewritten t x.g.core n (accTACC y) (new.map (·.1)) (new.map (·.2))) x.g.id e.2.2) x) := by
  refine issueConv_of_done (body := awriteOp y) h ?_
  simp only [awriteOp, groupWide_of_active ha, ht, hg, hid, hcore, Nat.not_lt.mpr hrows, hslot, if_false]
  rfl

/-! ### `omap` and `thdl` (R203, R228) -/

/-- An operand map as `omap` writes it: its scale half with SC. -/
def mapWritten (y : XWord) (a p : Nat) (m : OMap) : OMap :=
  if xtail y 11 1 = 1 then { m with sbase := BitVec.ofNat 32 a, spitch := BitVec.ofNat 32 p }
  else { m with base := BitVec.ofNat 32 a, pitch := BitVec.ofNat 32 p, etype := xtail y 5 4, swz := xtail y 9 2 }

/-- A tile handle as `thdl` writes it: its scale half with SC, and no translation. -/
def handleWritten (y : XWord) (a p b : Nat) (h : THandle) : THandle :=
  if xtail y 10 1 = 1 then { h with pages := [], sva := BitVec.ofNat 64 a, spitch := BitVec.ofNat 64 p }
  else { h with
    pages := [], va := BitVec.ofNat 64 a, pitch := BitVec.ofNat 64 p, etype := xtail y 6 4, rows := BitVec.ofNat 32 (b % 65536),
    cols := BitVec.ofNat 32 (b / 65536) }

section
variable (ha : x.act ≠ []) (hbase : rdA (entry s x) x x.lead % 16 = 0) (hpitch : rdB (entry s x) x x.lead % 16 = 0)
include ha hbase hpitch

theorem exec_omap (h : issueOf s (.omap y) = some x) :
    exec (.omap y) s = .next (plain (modTeamOf (entry s x) x.g fun t =>
      { t with om := updAt (xtail y 2 3) (mapWritten y (rdA (entry s x) x x.lead) (rdB (entry s x) x x.lead)) t.om }) x) := by
  refine issue_of_done h ?_
  simp only [groupWide_of_active ha, hbase, hpitch, bne_self_eq_false, Bool.false_eq_true, or_self, if_false]
  rfl

theorem exec_thdl (h : issueOf s (.thdl y) = some x) (hc : canonical (rdA (entry s x) x x.lead) = true) :
    exec (.thdl y) s = .next (plain (modTeamOf (entry s x) x.g fun t =>
      { t with th := updAt (xtail y 2 4) (handleWritten y (rdA (entry s x) x x.lead) (rdB (entry s x) x x.lead) (rdC (entry s x) x x.lead)) t.th }) x) := by
  refine issue_of_done h ?_
  simp only [groupWide_of_active ha, hbase, hpitch, hc, bne_self_eq_false, Bool.not_true, Bool.false_eq_true, or_self, if_false]
  rfl

end

end Sys2Proof.Slots

open Sys2Proof.Slots

/-- Settles O38: each instruction past its checks; what a slot holds is read after the array has performed its work. -/
theorem accumulatorSlots : Obligations.AccumulatorSlots := by
  refine ⟨fun s f x ha => ⟨fun n h hslot => exec_azero h ha rfl hslot, fun h => exec_mstClr h ha, fun h => exec_mstRd h ha rfl⟩,
    fun s y x n tm t p tabs ha => ⟨fun h hteam hslot htile => exec_aload h ha rfl hteam hslot htile,
      fun k h hteam hslot hcore htile hgood => exec_astore h ha rfl hteam hslot hcore htile hgood⟩,
    fun s y x n k ha hcore hrows => ⟨fun h hslot hgood => exec_aread h ha rfl hcore hrows hslot hgood,
      fun h hslot hgc hgi => exec_awrite h ha rfl rfl ⟨hgc, hgi⟩ hcore hrows hslot⟩,
    fun s y x ha hbase hpitch => ⟨fun h => exec_omap ha hbase hpitch h, fun h hc => exec_thdl ha hbase hpitch h hc⟩⟩
end

section
/-! SUPPORT. The ray-query instructions and `stat.rd` past their checks (R254 to R257, R274). -/
namespace Sys2Proof.RayTraversal
open Sys2Proof.Machine Sys2Proof.Safety Sys2Proof.Laws

variable {s t u : State} {i : Instr} {x : Issue} {y : XWord} {f : FWord}

theorem firstErr_nil : firstErr [] = none := rfl

/-! ### `rq.init` (R254) -/

/-- The stacks that `rq.init` writes: those of the lanes whose queries are not empty. -/
def liveStacks (s : State) (x : Issue) (y : XWord) : List (Nat × Nat) :=
  (x.act.filter fun l => rqState (rqNew x s (vOf y.dst) l) == 1).map fun l => (l, rdB s x l)

theorem exec_rqInit {ls : List LaneOk} (h : issueOf s (.rqInit y) = some x) (herr : rqInitErrs x (entry s x) = [])
    (hstacks : checkLanes (entry s x) x .l 1 16 2 false true false (liveStacks (entry s x) x y) = .ok t ls) :
    exec (.rqInit y) s = .next (plain
      (x.act.foldl (rqInitLane x (vOf y.dst) (entry s x) ls) (if ls = [] then t else drainForWrite t x.g.id)) x) := by
  refine issue_of_done h ?_
  unfold liveStacks at hstacks
  simp only [herr, firstErr_nil, hstacks]

/-! ### `rq.run` (R255) -/

/-- A traversal all of whose lanes have returned: none stopped for good, waits, faulted or has more to do. -/
structure AllReturned (k : RqRun) : Prop where
  faults : k.faults = []
  waits : k.waits = []
  more : k.more = false
  errs : k.errs = []

/-- The lanes of a traversal that have not ended run on from a state. -/
def runRest (t : State) (x : Issue) (y : XWord) : State × RqRun :=
  runLanes x (vOf y.sa) (rdB t x x.lead) (((dispOf t x.g).map leased).getD false)
    (x.act.filter fun l => !(RqRun.start x.g.rq).ended.contains l) t (RqRun.start x.g.rq)

theorem rqRunOp_of_allReturned {k : RqRun} (ha : x.act ≠ []) (hrun : runRest (markUnrec (readPoint s x.g.id) x.g.id) x y = (u, k))
    (hk : AllReturned k) :
    rqRunOp y x s = .done (modGroup u x.g.id fun g => { writeBlock g (vOf y.dst) k.out with rq := none }) [] := by
  obtain ⟨hfaults, hwaits, hmore, herrs⟩ := hk
  have hblocks : k.out.filter (fun o => !k.errs.any fun e => e.1 == o.1) = k.out := by simp [herrs]
  have hnone : (List.range 64).filterMap (fun l => (k.errs.find? fun e => e.1 == l).map fun e => (l, e.2.1)) = [] := by simp [herrs]
  unfold runRest at hrun
  simp only [rqRunOp, groupWide_of_active ha, hrun, hfaults, hwaits, hmore, hblocks, hnone, firstErr_nil]

theorem exec_rqRun {k : RqRun} (h : issueOf s (.rqRun y) = some x) (ha : x.act ≠ [])
    (hrun : runRest (markUnrec (readPoint (entry s x) x.g.id) x.g.id) x y = (u, k)) (hk : AllReturned k) :
    exec (.rqRun y) s = .next (plain (modGroup u x.g.id fun g => { writeBlock g (vOf y.dst) k.out with rq := none }) x) :=
  issue_of_done h (rqRunOp_of_allReturned ha hrun hk)

/-! ### `rq.acc`, `rq.rej`, `rq.set` and `rq.end` (R256, R257) -/

section
variable {q : Nat} {ok : Rq → Bool} {change : Nat → Rq → Rq}

theorem rqEach_of_permitted (h : ∀ l ∈ x.act, ok (readRq x.g l q) = true) :
    rqEach x s q ok change =
      .done (modGroup s x.g.id fun g => x.act.foldl (fun g l => writeRq g l q (change l (readRq g l q))) g) [] := by
  have hall : x.act.filter (fun l => !ok (readRq x.g l q)) = [] := List.filter_eq_nil_iff.mpr fun l hl => by simp [h l hl]
  rw [rqEach, hall]

/-- The flags that `rq.set.flags` writes: no active lane sets both OPQ and NOPQ (R257). -/
def FlagsPermitted (i : Instr) (x : Issue) (s : State) : Prop :=
  ∀ w, i = .rqSet w → fmod w 0 4 = 2 → ∀ l ∈ x.act, rdB s x l % 4 ≠ 3

/-- Each instruction with a rule changes the queries by it; `rq.set` does once its values pass. -/
theorem exists_body_of_queryRule (hr : queryRule i x s = some (q, ok, change)) (hset : FlagsPermitted i x s) :
    ∃ body, (∀ t, exec i t = issue i t body) ∧ body x s = rqEach x s q ok change := by
  unfold queryRule at hr
  split at hr
  case h_1 | h_2 | h_4 => cases hr; exact ⟨_, fun _ => rfl, rfl⟩
  case h_3 f =>
    cases hr
    have hgood : (if fmod f 0 4 = 2 then x.act.filter (fun l => rdB s x l % 4 == 3) else []) = [] := by
      split
      · exact List.filter_eq_nil_iff.mpr fun l hl => by simpa using hset f rfl ‹_› l hl
      · rfl
    exact ⟨_, fun _ => rfl, by simp only [hgood]⟩
  case h_5 => cases hr

theorem exec_of_queryRule (h : issueOf s i = some x) (hr : queryRule i x (entry s x) = some (q, ok, change))
    (hok : ∀ l ∈ x.act, ok (readRq x.g l q) = true) (hset : FlagsPermitted i x (entry s x)) :
    exec i s = .next (plain
      (modGroup (entry s x) x.g.id fun g => x.act.foldl (fun g l => writeRq g l q (change l (readRq g l q))) g) x) := by
  obtain ⟨body, hexec, hbody⟩ := exists_body_of_queryRule hr hset
  rw [hexec]
  exact issue_of_done h (hbody.trans (rqEach_of_permitted hok))

end

/-! ### `rq.get` and `stat.rd` (R257, R274) -/

theorem exec_rqGet (h : issueOf s (.rqGet f) = some x) :
    exec (.rqGet f) s =
      .next (laneResult (entry s x) x (x.act.map fun l => (l, rqField (fmod f 0 4) (readRq x.g l (vOf f.sa)))) 7 []) :=
  issue_of_perLane h rfl

theorem exec_statRd (h : issueOf s (.statRd f) = some x)
    (hsel : ∀ l ∈ x.act, rdA (entry s x) x l ≤ 7 ∧ statSel (rdB (entry s x) x l) = true) :
    exec (.statRd f) s = .next (laneResult (entry s x) x
      (x.act.map fun l => (l, Sparse.get 0 (session (entry s x) (rdA (entry s x) x l)).counters (rdB (entry s x) x l) % 2 ^ 64)) 7 []) := by
  have hgood : x.act.filter (fun l => decide (7 < rdA (entry s x) x l) || !statSel (rdB (entry s x) x l)) = [] :=
    List.filter_eq_nil_iff.mpr fun l hl => by simp [hsel l hl]
  refine issue_of_perLane h ?_
  simp only [hgood, bne_self_eq_false, Bool.false_eq_true, if_false]

end Sys2Proof.RayTraversal

open Sys2Proof.RayTraversal

/-- Settles O39: each instruction past its checks; those that change queries share one rule, and `rq.set` checks its values before it. -/
theorem rayQueries : Obligations.RayQueries :=
  ⟨fun _ _ _ _ _ h herr hstacks => exec_rqInit h herr hstacks,
    fun _ _ _ _ _ h ha hrun hfaults hwaits hmore herrs => exec_rqRun h ha hrun ⟨hfaults, hwaits, hmore, herrs⟩,
    fun _ _ _ _ _ _ h hr hok hset => exec_of_queryRule h hr hok hset,
    fun _ _ _ => ⟨exec_rqGet, exec_statRd⟩⟩
end

section
/-! SUPPORT. Commands of the dicing and sampling units, queries of the radiance cache, and `rc.cfg` past their checks (R260 to R275, R283 to R293). -/
namespace Sys2Proof.UnitIssue
open Sys2Proof.Machine Sys2Proof.Safety Sys2Proof.Laws Sys2Proof.EngineIssue

section
variable {s t u : State} {i : Instr} {x : Issue} {y : XWord}

/-! ### Commands (R272, R275, R292) -/

section
variable {t0 : State} {j : Issuer} {c : CmdSpec} {r : BarRef} {opc : Nat}

/-- An address operand given as its value, its alignment and its bytes passes ALIGN and SEG (R275). -/
def AddrPasses (j : Issuer) (a : Nat × Nat × Nat) : Prop := a.1 % a.2.1 = 0 ∧ (cmdGlobal j a.1 a.2.2).isSome = true

/-- An address operand without the access type that a record of its error names. -/
def bounds (a : SampAddr) : Nat × Nat × Nat := (a.addr, a.align, a.len)

theorem sampErr_of_passes {as : List SampAddr} (h : ∀ a ∈ as.map bounds, AddrPasses j a) (t : State) : sampErr t j as = none := by
  have hp : ∀ a ∈ as, a.addr % a.align = 0 ∧ (cmdGlobal j a.addr a.len).isSome = true := List.forall_mem_map.mp h
  have halign : as.find? (fun a => a.addr % a.align != 0) = none := List.find?_eq_none.mpr fun a ha => by simp [(hp a ha).1]
  have hseg : as.find? (fun a => (cmdGlobal j a.addr a.len).isNone) = none := List.find?_eq_none.mpr fun a ha => by
    simp [← Option.not_isSome, (hp a ha).2]
  rw [sampErr, halign, hseg]
  rfl

/-- A unit's command with a credit of one sector; that of `rc.sync` carries the network that it names (R272, R292). -/
def unitCommand (t : State) (j : Issuer) (c : CmdSpec) (r : BarRef) (opc : Nat) : Cmd :=
  { newCmd t j c.qid c with bar := r, credit := 1, seq := if opc = 0x2A2 then fldN c.moda 3 2 else 0 }

theorem unitCommand_of_ne (h : opc ≠ 0x2A2) (t : State) (j : Issuer) (c : CmdSpec) (r : BarRef) :
    unitCommand t j c r opc = { newCmd t j c.qid c with bar := r, credit := 1 } := by
  rw [unitCommand, if_neg h]
  rfl

/-- The command of an instruction of chapter 11 asks of its addresses what its rule lists. -/
theorem exists_addrs_of_sampRule {as : CmdSpec → List (Nat × Nat × Nat)} (h : sampRule i = some (y, opc, as)) :
    opc ≠ 0x2A2 ∧ ∃ addrs : CmdSpec → List SampAddr, (∀ c, (addrs c).map bounds = as c) ∧
      ∀ s, exec i s = issue i s fun x s => engineCmd x s y opc false false fun t j c => sampCmd (addrs c) t j c := by
  unfold sampRule at h
  split at h <;> cases h <;> exact ⟨by decide, _, fun _ => rfl, fun _ => rfl⟩

theorem sampCmd_of_open {as : List SampAddr} (ha : ∀ a ∈ as.map bounds, AddrPasses j a) (ho : opc ≠ 0x2A2) (hb : cmdBar t0 j c = .ok t r)
    (hq : queueOpen t (unitCommand t j c r opc)) : sampCmd as t0 j c = .ok (enqueued t (unitCommand t j c r opc)) 0 := by
  rw [unitCommand_of_ne ho] at hq ⊢
  rw [sampCmd, sampErr_of_passes ha]
  exact issueCmd_of_open hb hq

theorem rcSyncCmd_of_open (hb : cmdBar t0 j c = .ok t r) (hq : queueOpen t (unitCommand t j c r 0x2A2)) :
    rcSyncCmd t0 j c = .ok (enqueued t (unitCommand t j c r 0x2A2)) 0 := issueCmd_of_open hb hq

end

/-! ### Queries (R283, R285, R286) -/

section
variable {n : Network} {out : List (Nat × List Nat)}

/-- The state in which a group's query runs: the stamp of an earlier wait is taken off (R283). -/
def unstamped (x : Issue) (t : State) : State := modGroup t x.g.id fun g => { g with stamp := none }

/-- The network that a query names, where the caller's space owns it (R278). -/
def callerNet (x : Issue) (y : XWord) (t : State) : Option Network :=
  ownedNet t (((dispOf t x.g).map (·.part)).getD 0) (asidOf t x.g) (xmod y 0 2)

/-- The offers that a query makes: those of its lanes whose targets and keys are taken (R286, R287). -/
def offersOf (x : Issue) (y : XWord) (n : Network) (t : State) : List (Nat × Nat × Nat) :=
  x.act.filterMap (laneOffer t x n (queryWindow x.g n) (vOf y.sb))

theorem queryStop_nil (x : Issue) (s : State) : queryStop x s [] [] = none := rfl

/-- A query goes on once its version is published and no lane's reads or offers meet an error (R286). -/
theorem queryOp_of_published {v : State} {offers : Bool} {os : List (Nat × Nat × Nat)} {pas : List (Nat × Nat)} (ha : x.act ≠ [])
    (hn : callerNet x y (unstamped x s) = some n) (hw : queryWindow x.g n ≤ n.published + 1)
    (hos : (if offers then offersOf x y n (unstamped x s) else []) = os)
    (hq : queryLanes x.g n (queryWindow x.g n) (vOf y.sa) x.act (unstamped x s) [] [] = (u, out, []))
    (hl : offerLanes x n os (keepFloor x.g u) [] [] = (v, pas, []))
    (k : State → Network → Nat → List (Nat × List Nat) → List (Nat × Nat × Nat) → List (Nat × Nat) → IRes) :
    queryOp x s y offers k = k v n (queryWindow x.g n) out os pas := by
  unfold callerNet unstamped at hn
  unfold offersOf unstamped at hos
  unfold unstamped at hq
  simp only [queryOp, groupWide_of_active ha, hn, hos, hq, hl, queryStop_nil, if_neg (Nat.not_lt.mpr hw)]

theorem exec_rcq (h : issueOf s (.rcq y) = some x) (ha : x.act ≠ []) (hn : callerNet x y (unstamped x (entry s x)) = some n)
    (hw : queryWindow x.g n ≤ n.published + 1)
    (hq : queryLanes x.g n (queryWindow x.g n) (vOf y.sa) x.act (unstamped x (entry s x)) [] [] = (u, out, [])) :
    exec (.rcq y) s = .next (plain (writeQuery x (queryWindow x.g n) (vOf y.dst) [] out (keepFloor x.g u)) x) :=
  issue_of_done h (queryOp_of_published ha hn hw rfl hq rfl _)

/-- The state in which an `rct` runs: its group's accesses are performed, and a recording group's tape is marked (R286, R362). -/
def offerPoint (s : State) (x : Issue) : State := markUnrec (drainGroup (entry s x) x.g.id) x.g.id

/-- An `rct` counts its lanes, its offers and the targets that are no good (R293). -/
def offersCounted (x : Issue) (y : XWord) (n : Network) (os : List (Nat × Nat × Nat)) (v : State) : State :=
  addPending (addPending (addPending v n.net 0 x.act.length) n.net 1 os.length) n.net 3
    (x.act.filter fun l => !goodTarget (regBlock x.g l (vOf y.sb) 3)).length

/-- An `rct` has written its results, and its offers pass the access sampler (R90, R285). -/
def offersWritten (x : Issue) (y : XWord) (n : Network) (os : List (Nat × Nat × Nat)) (out : List (Nat × List Nat)) (z : State) : State :=
  writeQuery x (queryWindow x.g n) (vOf y.dst) (os.map (·.1)) out (sampleOffers z x n os)

theorem exec_rct {v : State} {os : List (Nat × Nat × Nat)} {pas : List (Nat × Nat)} (h : issueOf s (.rct y) = some x) (ha : x.act ≠ [])
    (hroom : queueLen (offerPoint s x) x.g.core 7 < 64) (hn : callerNet x y (unstamped x (offerPoint s x)) = some n)
    (hw : queryWindow x.g n ≤ n.published + 1) (hos : offersOf x y n (unstamped x (offerPoint s x)) = os)
    (hq : queryLanes x.g n (queryWindow x.g n) (vOf y.sa) x.act (unstamped x (offerPoint s x)) [] [] = (u, out, []))
    (hl : offerLanes x n os (keepFloor x.g u) [] [] = (v, pas, [])) :
    let z := offersCounted x y n os v
    let r := offersWritten x y n os out z
    exec (.rct y) s = .next (if os = [] then plain r x
      else parkedDone { r with cmds := r.cmds ++ [offersCmd z x y n (queryWindow x.g n) os pas], nextId := r.nextId + 1 } x .offers) := by
  intro z r
  have hgo : ¬ 64 ≤ queueLen (offerPoint s x) x.g.core 7 := Nat.not_le.mpr hroom
  have hbody := queryOp_of_published (offers := true) ha hn hw hos hq hl
  split
  · exact issue_of_done h ((if_neg hgo).trans ((hbody _).trans (if_pos ‹_›)))
  · exact issue_of_parkDone h ((if_neg hgo).trans ((hbody _).trans (if_neg ‹_›)))

end

/-! ### `rc.cfg` (R293) -/

theorem exec_rcCfgAttach {n : Nat} (h : issueOf s (.rcCfgAttach y) = some x) (ha : x.act ≠ []) (ht : drainGroup (entry s x) x.g.id = t)
    (hr : attachRun t (groupIssuer t x.g) (xmod y 0 2) (rdA t x x.lead) (((dispOf t x.g).map leased).getD false) = (u, .code n)) :
    exec (.rcCfgAttach y) s = .next (wideResult u x (n <<< 24)) := by
  subst ht
  refine issue_of_doneWith h ?_
  simp only [groupWide_of_active ha, hr]

theorem exec_rcCfgDetach {n : Network} (h : issueOf s (.rcCfgDetach y) = some x) (ha : x.act ≠ []) (ht : drainGroup (entry s x) x.g.id = t)
    (hc : (network t (xmod y 0 2)).state ≠ 2) (hn : callerNet x y t = some n) (hq : queriesIn t (xmod y 0 2) = false) :
    exec (.rcCfgDetach y) s =
      .next (wideResult (modNetwork t (xmod y 0 2) fun n => { networkReset (xmod y 0 2) with lasterr := n.lasterr }) x 0) := by
  subst ht
  refine issue_of_doneWith h ?_
  unfold callerNet at hn
  simp only [groupWide_of_active ha, if_neg hc, hn, hq, Bool.false_eq_true, if_false]

theorem exec_rcCfgStat {n : Network} (h : issueOf s (.rcCfgStat y) = some x) (ha : x.act ≠ []) (hk : rdB (entry s x) x x.lead ≤ 7)
    (hn : callerNet x y (entry s x) = some n) :
    exec (.rcCfgStat y) s = .next (wideResult (entry s x) x (netCounter n (rdB (entry s x) x x.lead))) := by
  refine issue_of_doneWith h ?_
  unfold callerNet at hn
  simp only [groupWide_of_active ha, if_neg (Nat.not_lt.mpr hk), hn]

end

end Sys2Proof.UnitIssue

open Sys2Proof.Machine Sys2Proof.EngineIssue Sys2Proof.UnitIssue

/-- Settles O40: a command's addresses pass, and what remains of its issue is its barrier and its queue; a query's version is published; each form of
`rc.cfg` past its checks. -/
theorem unitCommands : Obligations.UnitCommands := by
  refine ⟨fun s i x y opc as t r hi h ho ha hb hq => ?_, fun s y x n u v out pas ha hw => ?_, fun s y x ha => ?_⟩
  · rcases hi with hi | ⟨rfl, rfl, -⟩
    · obtain ⟨hopc, addrs, hbounds, hexec⟩ := exists_addrs_of_sampRule hi
      rw [← hbounds] at ha
      rw [hexec]
      exact issue_engineCmd_ok h ho (sampCmd_of_open ha hopc hb hq)
    · exact issue_engineCmd_ok h ho (rcSyncCmd_of_open hb hq)
  · exact ⟨fun h hn hq => exec_rcq h ha hn hw hq, fun h hroom hn hq hl => exec_rct h ha hroom hn hw rfl hq hl⟩
  · exact ⟨fun u n h hr => exec_rcCfgAttach h ha rfl hr, fun n h hc hn hq => exec_rcCfgDetach h ha rfl hc hn hq,
      fun n h hk hn => exec_rcCfgStat h ha hk hn⟩
end

section
/-! SUPPORT. Memory keeps its canonical form (O6). `Laws/Memory` knows it for the stores and the write-backs; every other function of the model that
answers a state keeps it because the functions that it calls do: one lemma per function, in the order of the model. -/
set_option Elab.async false

namespace Sys2Proof.Machine

/-- The state that a body's answer carries. -/
def IRes.state : IRes → State
  | .done s _ | .jump s _ | .trap s _ | .park s _ | .parkDone s _ | .replay s .. | .gone s => s

/-- The state that the checks of an access leave. -/
def ChkRes.state : ChkRes → State
  | .ok s _ => s
  | .stop r => r.state

/-- The state that the filling of a line leaves. -/
def FillRes.state : FillRes → State
  | .ok s | .err s _ | .mig s _ => s

/-- The state that the filling of some lines leaves. -/
def FillAll.state (r : FillAll) : State := r.s

/-- The state that the checks of a command leave. -/
def CRes.state : CRes → State
  | .ok s _ | .err s .. | .wait s _ | .held s _ | .noLocal s | .gone s => s

/-- The state that the checks of a barrier leave. -/
def BarRes.state : BarRes → State
  | .ok s _ => s
  | .stop r => r.state

/-- The state that the checks of some tiles leave. -/
def TileRes.state : TileRes → State
  | .ok s .. => s
  | .stop r => r.state

/-- The state that a successor's update leaves. -/
def SuccRes.state : SuccRes → State
  | .over s _ | .held s => s

/-- The state that a replayed unit leaves. -/
def URes.state : URes → State
  | .hold s | .stop s _ | .fault s .. | .next s => s

/-- The state that a line's write-back leaves. -/
def WbRes.state : WbRes → State
  | .ok s | .fault s .. | .mig s => s

/-- The state that a fetch leaves. -/
def Fetched.state : Fetched → State
  | .instr s _ | .over s => s

end Sys2Proof.Machine

namespace Sys2Proof.CanonicalMemory
open Sys2Proof.Machine Sys2Proof.Laws

/-- The state that a visit of a ray query leaves. -/
def visitState : Except (State × RqStop) (State × Rq × Option Cand) → State
  | .ok z => z.1
  | .error z => z.1

/-- The next state, where there is one, has memory in its canonical form. -/
def StepKeeps (o : Host.Outcome State Fault Refusal) : Prop := ∀ t, o = .next t → Memory.wf t

section
variable {s : State}

/-- The form rests on main memory and the dirty bytes alone: what changes neither keeps it. -/
theorem memory_wf_same {t : State} (h : Memory.wf s) (hm : t.mem = s.mem := by rfl) (hd : t.dirty = s.dirty := by rfl) : Memory.wf t :=
  (memory_wf_congr hm hd).trans h

theorem memory_wf_ite {t : State} {c : Prop} [Decidable c] (hs : Memory.wf s) (ht : Memory.wf t) : Memory.wf (if c then s else t) := by
  split
  · exact hs
  · exact ht

theorem iresKeeps_ite {a b : IRes} {c : Prop} [Decidable c] (ha : Memory.wf a.state) (hb : Memory.wf b.state) :
    Memory.wf (if c then a else b).state := by
  split
  · exact ha
  · exact hb

theorem memory_wf_getD {o : Option State} (h : Memory.wf s) (ho : ∀ t, o = some t → Memory.wf t) : Memory.wf (o.getD s) := by
  cases o with
  | none => exact h
  | some t => exact ho t rfl

theorem sparse_wfFrom_map {α : Type} [DecidableEq α] {d : α} {f : Nat × α → Nat × α} (hk : ∀ e, (f e).1 = e.1) (hd : ∀ e, e.2 ≠ d → (f e).2 ≠ d)
    {t : List (Nat × α)} {lo : Nat} (h : Sparse.wfFrom d lo t = true) : Sparse.wfFrom d lo (t.map f) = true := by
  induction t generalizing lo with
  | nil => rfl
  | cons e t ih =>
    simp only [Sparse.wfFrom, Bool.and_eq_true, decide_eq_true_eq] at h
    obtain ⟨⟨hlo, he⟩, ht⟩ := h
    simp only [List.map_cons, Sparse.wfFrom, Bool.and_eq_true, decide_eq_true_eq, hk]
    exact ⟨⟨hlo, hd e he⟩, ih ht⟩

/-- A change of the dirty bytes that keeps their places, and leaves every one of them there, keeps the form. -/
theorem memory_wf_dirtyMap {f : Nat × Option Dirty → Nat × Option Dirty} (hk : ∀ e, (f e).1 = e.1) (hd : ∀ e, e.2 ≠ none → (f e).2 ≠ none)
    (h : Memory.wf s) : Memory.wf { s with dirty := s.dirty.map f } := by
  rw [memory_wf_iff] at h ⊢
  exact ⟨h.1, sparse_wfFrom_map hk hd h.2⟩

/-- What every step of a fold keeps, the fold keeps. -/
theorem foldl_keeps {α β : Type} {P : β → Prop} {f : β → α → β} (hf : ∀ b a, P b → P (f b a)) (l : List α) {b : β} (h : P b) : P (l.foldl f b) := by
  induction l generalizing b with
  | nil => exact h
  | cons a t ih => exact ih (hf b a h)

/-- The same where a step may fail. -/
theorem foldl_bind_keeps {α β : Type} {P : β → Prop} {f : β → α → Option β} (hf : ∀ b a, P b → ∀ c, f b a = some c → P c) (l : List α) {b : β}
    (h : P b) : ∀ c, l.foldl (fun o a => o.bind fun b => f b a) (some b) = some c → P c :=
  foldl_keeps (P := fun o => ∀ c, o = some c → P c)
    (fun o a ho c hc => by
      obtain ⟨b, hb, hc⟩ := Option.bind_eq_some_iff.mp hc
      exact hf b a (ho b hb) c hc) l (by rintro c ⟨⟩; exact h)

/-- A value of an `Except` that a function was applied to. -/
theorem exceptMap_eq_ok {ε α β : Type} {f : α → β} {x : Except ε α} {z : β} (h : x.map f = .ok z) : ∃ y, x = .ok y ∧ f y = z := by
  cases x with
  | error e => cases h
  | ok y => exact ⟨y, rfl, by cases h; rfl⟩

/-! ### Groups, records and sums -/

theorem memory_wf_setGroup {g} (h : Memory.wf s) : Memory.wf (setGroup s g) := memory_wf_same h

theorem memory_wf_modGroup {id f} (h : Memory.wf s) : Memory.wf (modGroup s id f) := memory_wf_same h

theorem memory_wf_modCore {c f} (h : Memory.wf s) : Memory.wf (modCore s c f) := memory_wf_same h

theorem memory_wf_modDie {d f} (h : Memory.wf s) : Memory.wf (modDie s d f) := memory_wf_same h

theorem memory_wf_modTeam {disp teamid f} (h : Memory.wf s) : Memory.wf (modTeam s disp teamid f) := memory_wf_same h

theorem memory_wf_modCluster {disp clid f} (h : Memory.wf s) : Memory.wf (modCluster s disp clid f) := memory_wf_same h

theorem memory_wf_modDisp {id f} (h : Memory.wf s) : Memory.wf (modDisp s id f) := memory_wf_same h

theorem memory_wf_modPart {id f} (h : Memory.wf s) : Memory.wf (modPart s id f) := memory_wf_same h

theorem memory_wf_modCmd {id f} (h : Memory.wf s) : Memory.wf (modCmd s id f) := memory_wf_same h

theorem memory_wf_modSession {i f} (h : Memory.wf s) : Memory.wf (modSession s i f) := memory_wf_same h

theorem memory_wf_modNetwork {i f} (h : Memory.wf s) : Memory.wf (modNetwork s i f) := memory_wf_same h

theorem memory_wf_modQueue {i f} (h : Memory.wf s) : Memory.wf (modQueue s i f) := memory_wf_same h

theorem memory_wf_drawOracle (h : Memory.wf s) : Memory.wf (drawOracle s).2 := by
  fun_cases drawOracle s <;> grind -linarith [memory_wf_same]

theorem memory_wf_drawFree (h : Memory.wf s) : Memory.wf (drawFree s).2 := memory_wf_same h

theorem memory_wf_modTeamOf {g f} (h : Memory.wf s) : Memory.wf (modTeamOf s g f) := memory_wf_modTeam h

/-! ### Main memory and the caches -/

theorem memory_wf_noteBad {ls} (h : Memory.wf s) : Memory.wf (noteBad s ls) := by
  fun_cases noteBad s ls
  grind -linarith [memory_wf_modDie, memory_wf_foldl]

theorem memory_wf_countUncorr {die ls} (h : Memory.wf s) : Memory.wf (countUncorr s die ls) := memory_wf_modDie (memory_wf_noteBad h)

theorem memory_wf_healPlaces {ps} (h : Memory.wf s) : Memory.wf (healPlaces s ps) := memory_wf_same h

theorem memory_wf_correctWord {a} (h : Memory.wf s) : Memory.wf (correctWord s a) := memory_wf_ite (memory_wf_modDie (memory_wf_same h)) h

theorem memory_wf_correctLocs {ls} (h : Memory.wf s) : Memory.wf (correctLocs s ls) :=
  memory_wf_ite h (memory_wf_foldl (fun _ _ h => memory_wf_correctWord h) _ h)

theorem memory_wf_correctWhere {f} (h : Memory.wf s) : Memory.wf (correctWhere s f) := memory_wf_foldl (fun _ _ h => memory_wf_correctWord h) _ h

theorem memory_wf_correctPlaces {ps} (h : Memory.wf s) : Memory.wf (correctPlaces s ps) :=
  memory_wf_ite h (memory_wf_foldl (fun _ _ h => memory_wf_correctWord h) _ h)

theorem memory_wf_stampWrites {ks} (h : Memory.wf s) : Memory.wf (stampWrites s ks) := memory_wf_same h

theorem memory_wf_dropCopies {c ps} (h : Memory.wf s) : Memory.wf (dropCopies s c ps) := memory_wf_modCore h

theorem memory_wf_recallPlaces {ps} (h : Memory.wf s) : Memory.wf (recallPlaces s ps) :=
  memory_wf_dirtyMap (by intro e; split <;> rfl) (by rintro ⟨i, _ | d⟩ he <;> grind) h

theorem memory_wf_touchRead {gid} (h : Memory.wf s) : Memory.wf (touchRead s gid) := memory_wf_modGroup h

theorem memory_wf_noteRead {gid n} (h : Memory.wf s) : Memory.wf (noteRead s gid n) := memory_wf_modGroup h

theorem memory_wf_readChunk {c low ps} (h : Memory.wf s) : Memory.wf (readChunk s c low ps).2.2 := by
  fun_cases readChunk s c low ps <;> grind -linarith [memory_wf_modCore]

theorem memory_wf_readChunks {c low a2} (h : Memory.wf s) : Memory.wf (readChunks c low a2 s).2.2 := by
  fun_induction readChunks c low a2 s <;> grind -linarith [memory_wf_readChunk]

theorem memory_wf_plainLoad {gid low ps} (h : Memory.wf s) : Memory.wf (plainLoad s gid low ps).2.2 := by
  fun_cases plainLoad s gid low ps <;> grind -linarith [memory_wf_readChunks, memory_wf_noteRead]

theorem memory_wf_invalidateL1 {c} (h : Memory.wf s) : Memory.wf (invalidateL1 s c) := memory_wf_modCore h

theorem memory_wf_countLine {p l} (h : Memory.wf s) : Memory.wf (countLine s p l) := memory_wf_countPair _ _ _ h

theorem memory_wf_errorReply {pas} (h : Memory.wf s) : Memory.wf (errorReply s pas).2 := by
  fun_cases errorReply s pas <;> grind -linarith [memory_wf_drawOracle]

theorem memory_wf_countTraffic {p d pa} (h : Memory.wf s) : Memory.wf (countTraffic s p d pa) := memory_wf_ite h (memory_wf_countPair _ _ _ h)

theorem memory_wf_countBlocks {p d pas} (h : Memory.wf s) : Memory.wf (countBlocks s p d pas) :=
  memory_wf_foldl (fun _ _ h => memory_wf_countTraffic h) _ h

theorem memory_wf_modLine {c l f} (h : Memory.wf s) : Memory.wf (modLine s c l f) := memory_wf_modCore h

theorem memory_wf_wrLocal {c off bs} (h : Memory.wf s) : Memory.wf (wrLocal s c off bs) :=
  memory_wf_same (memory_wf_foldl (fun _ _ h => memory_wf_ite h (memory_wf_modLine h)) _ (memory_wf_modCore (memory_wf_stampWrites h)))

theorem memory_wf_markMem {ps} (h : Memory.wf s) : Memory.wf (markMem s ps) := memory_wf_same h

theorem memory_wf_carryBad {c ms} (h : Memory.wf s) : Memory.wf (carryBad s c ms) := memory_wf_ite h (memory_wf_markMem h)

/-! ### Rings and error records -/

theorem memory_wf_bumpOvf {die} (h : Memory.wf s) : Memory.wf (bumpOvf s die) := memory_wf_modDie h

theorem memory_wf_notify {die src r} (h : Memory.wf s) : Memory.wf (notify s die src r) := memory_wf_postRec _ _ _ _ h

theorem memory_wf_setDieState {d x} (h : Memory.wf s) : Memory.wf (setDieState s d x) := memory_wf_notify (memory_wf_modDie h)

theorem memory_wf_poolPop {die pa} (h : Memory.wf s) : ∀ z, poolPop s die pa = some z → Memory.wf z.2 := by
  fun_cases poolPop s die pa <;> grind -linarith [memory_wf_wrPa]

theorem memory_wf_poolPush {die pa frame} (h : Memory.wf s) : Memory.wf (poolPush s die pa frame) := memory_wf_ite (memory_wf_ringPush _ _ _ h) h

/-! ### Translation -/

theorem memory_wf_lowWater {die pool} (h : Memory.wf s) : Memory.wf (lowWater s die pool) := by
  fun_cases lowWater s die pool <;> grind -linarith [memory_wf_notify, memory_wf_modDie]

theorem memory_wf_takeFrame {die} (h : Memory.wf s) : ∀ z, takeFrame s die = some z → Memory.wf z.2.2 := by
  unfold takeFrame
  split
  · rintro z ⟨⟩
  · intro z hz
    obtain ⟨r, hr, rfl⟩ := Option.map_eq_some_iff.mp hz
    exact memory_wf_poolPop h r hr

theorem memory_wf_firstTouch {p die e ea} (h : Memory.wf s) : ∀ z, firstTouch s p die e ea = some z → Memory.wf z.2 := by
  fun_cases firstTouch s p die e ea <;> grind -linarith [→ memory_wf_takeFrame, memory_wf_drawOracle, memory_wf_lowWater, memory_wf_wrPa,
    memory_wf_poolPush]

theorem memory_wf_pteOr {p ea bit} (h : Memory.wf s) : Memory.wf (pteOr s p ea bit) := memory_wf_ite h (memory_wf_wrPa _ _ _ h)

theorem memory_wf_tlbPut {t} (h : Memory.wf s) : Memory.wf (tlbPut s t) := memory_wf_same h

theorem memory_wf_tlbFill {x t} (h : Memory.wf s) : Memory.wf (tlbFill s x t) := memory_wf_foldl (fun _ _ h => memory_wf_tlbPut h) _ h

theorem memory_wf_fillPath {p x va} (h : Memory.wf s) : Memory.wf (fillPath s p x va) := memory_wf_foldl (fun _ _ h => memory_wf_tlbPut h) _ h

theorem memory_wf_useLeaf {p x va a l e ea} (h : Memory.wf s) : Memory.wf (useLeaf s p x va a l e ea).1 := by
  fun_cases useLeaf s p x va a l e ea <;> grind -linarith [memory_wf_pteOr, memory_wf_tlbFill]

theorem memory_wf_walkXl {p x va a} (h : Memory.wf s) : Memory.wf (walkXl s p x va a).1 := by
  fun_cases walkXl s p x va a <;> grind -linarith [memory_wf_countTraffic, memory_wf_useLeaf, memory_wf_fillPath, → memory_wf_firstTouch,
    memory_wf_lowWater, memory_wf_foldl]

theorem memory_wf_useCached {p x va a t} (h : Memory.wf s) : Memory.wf (useCached s p x va a t).1 := by
  fun_cases useCached s p x va a t <;> grind -linarith [memory_wf_tlbFill, memory_wf_pteOr]

theorem memory_wf_translate {x va a} (h : Memory.wf s) : Memory.wf (Machine.translate s x va a).1 := by
  fun_cases Machine.translate s x va a <;> grind -linarith [memory_wf_walkXl, memory_wf_drawOracle, memory_wf_useCached]

/-! ### The samplers -/

theorem memory_wf_modSampler {die f} (h : Memory.wf s) : Memory.wf (modSampler s die f) := memory_wf_modDie h

theorem memory_wf_hotUpdate {die a} (h : Memory.wf s) : Memory.wf (hotUpdate s die a) := by
  fun_cases hotUpdate s die a <;> grind -linarith [memory_wf_modSampler, memory_wf_ringPush]

theorem memory_wf_sampleAccess {die a} (h : Memory.wf s) : Memory.wf (sampleAccess s die a) := by
  unfold sampleAccess
  grind -linarith [memory_wf_modSampler, memory_wf_ringPush, memory_wf_hotUpdate]

theorem memory_wf_hotPost {die} (h : Memory.wf s) : Memory.wf (hotPost s die) := by
  fun_cases hotPost s die <;> grind -linarith [memory_wf_ringPush, memory_wf_modSampler]

/-! ### Accesses in flight -/

theorem memory_wf_countRedirect {die} (h : Memory.wf s) : Memory.wf (countRedirect s die) := memory_wf_modDie h

theorem memory_wf_modFlight {gid seq f} (h : Memory.wf s) : Memory.wf (modFlight s gid seq f) := memory_wf_modGroup h

theorem memory_wf_modStore {gid seq f} (h : Memory.wf s) : Memory.wf (modStore s gid seq f) := memory_wf_modGroup h

theorem memory_wf_constChunk {g ps} (h : Memory.wf s) : Memory.wf (constChunk s g ps).2 := by
  fun_cases constChunk s g ps <;> grind -linarith [memory_wf_drawOracle, memory_wf_modCore]

theorem memory_wf_dropConst {disp} (h : Memory.wf s) : Memory.wf (dropConst s disp) := memory_wf_same h

theorem memory_wf_constLoad {g a1} (h : Memory.wf s) : Memory.wf (constLoad g a1 s).2 := by
  fun_induction constLoad g a1 s <;> grind -linarith [memory_wf_constChunk]

theorem memory_wf_performLoad {g f a} (h : Memory.wf s) : Memory.wf (performLoad s g f a).2.2 := by
  fun_cases performLoad s g f a <;> grind -linarith [memory_wf_plainLoad, memory_wf_constLoad, memory_wf_noteRead, memory_wf_dropCopies]

theorem memory_wf_performAtom {gid core place o t b c} (h : Memory.wf s) : Memory.wf (performAtom s gid core place o t b c).2 := by
  fun_cases performAtom s gid core place o t b c <;> grind -linarith [memory_wf_dropCopies, memory_wf_recallPlaces, memory_wf_touchRead,
    memory_wf_wrCoherent]

theorem memory_wf_performLane {g p f a} (h : Memory.wf s) : Memory.wf (performLane s g p f a) := by
  fun_cases performLane s g p f a <;> grind -linarith [memory_wf_modFlight, memory_wf_countUncorr, memory_wf_correctPlaces, memory_wf_countTraffic,
    memory_wf_performAtom, memory_wf_performLoad]

theorem memory_wf_performAgg {g p f o t b} (h : Memory.wf s) : Memory.wf (performAgg s g p f o t b) := by
  fun_cases performAgg s g p f o t b <;> grind -linarith [memory_wf_modFlight, memory_wf_countUncorr, memory_wf_correctPlaces, memory_wf_countTraffic,
    memory_wf_performAtom]

theorem memory_wf_performNext {g p f} (h : Memory.wf s) : Memory.wf (performNext s g p f) := by
  fun_cases performNext s g p f <;> grind -linarith [memory_wf_performAgg, memory_wf_drawOracle, memory_wf_performLane]

theorem memory_wf_performFlight {gid seq} (h : Memory.wf s) : Memory.wf (performFlight s gid seq) := by
  fun_cases performFlight s gid seq <;> grind -linarith [memory_wf_performAgg, memory_wf_performLane, memory_wf_foldl]

theorem memory_wf_returnFlight {gid seq errLanes} (h : Memory.wf s) : Memory.wf (returnFlight s gid seq errLanes) := by
  fun_cases returnFlight s gid seq errLanes <;> grind -linarith [memory_wf_setGroup, memory_wf_invalidateL1]

theorem memory_wf_registerStore {gid seq err} (h : Memory.wf s) : Memory.wf (registerStore s gid seq err) := by
  fun_cases registerStore s gid seq err <;> grind -linarith [memory_wf_modGroup, memory_wf_countUncorr, memory_wf_notify, memory_wf_countTraffic,
    memory_wf_touchRead, memory_wf_storePlaces, memory_wf_performAtom]

theorem memory_wf_sliceAccess {gid seq} (h : Memory.wf s) : Memory.wf (sliceAccess s gid seq) := by
  fun_cases sliceAccess s gid seq <;> grind -linarith [memory_wf_countRedirect, memory_wf_modFlight, memory_wf_performNext]

theorem memory_wf_storeAck {gid seq err} (h : Memory.wf s) : Memory.wf (storeAck s gid seq err) := by
  fun_cases storeAck s gid seq err <;> grind -linarith [memory_wf_countRedirect, memory_wf_modStore, memory_wf_registerStore]

theorem memory_wf_redirectAll {gid} (h : Memory.wf s) : Memory.wf (redirectAll s gid) := by
  fun_cases redirectAll s gid <;> grind -linarith [memory_wf_countRedirect, memory_wf_modFlight, memory_wf_modStore, memory_wf_settleSlots,
    memory_wf_foldl]

theorem memory_wf_drainSeqs {gid seqs} (h : Memory.wf s) : Memory.wf (drainSeqs s gid seqs) := by
  fun_cases drainSeqs s gid seqs <;> grind -linarith [memory_wf_performFlight, memory_wf_registerStore, memory_wf_redirectAll, memory_wf_returnFlight,
    memory_wf_foldl]

theorem memory_wf_drainTo {gid n} (h : Memory.wf s) : Memory.wf (drainTo s gid n) := by
  fun_cases drainTo s gid n <;> grind -linarith [memory_wf_drainSeqs]

theorem memory_wf_drainGroup {gid} (h : Memory.wf s) : Memory.wf (drainGroup s gid) := memory_wf_drainTo h

theorem memory_wf_drainOver {gid runs} (h : Memory.wf s) : Memory.wf (drainOver s gid runs) := by
  fun_cases drainOver s gid runs <;> grind -linarith [memory_wf_drainGroup]

theorem memory_wf_readPoint {gid} (h : Memory.wf s) : Memory.wf (readPoint s gid) := by
  fun_cases readPoint s gid <;> grind -linarith [memory_wf_drawOracle, memory_wf_drainGroup]

theorem memory_wf_drainReads {gid} (h : Memory.wf s) : Memory.wf (drainReads s gid) := by
  fun_cases drainReads s gid <;> grind -linarith [memory_wf_drainSeqs]

theorem memory_wf_drainForWrite {gid} (h : Memory.wf s) : Memory.wf (drainForWrite s gid) := by
  fun_cases drainForWrite s gid <;> grind -linarith [memory_wf_drainTo, memory_wf_drainReads]

theorem memory_wf_acquireNow {gid} (h : Memory.wf s) : Memory.wf (acquireNow s gid) := by
  fun_cases acquireNow s gid <;> grind -linarith [memory_wf_touchRead, memory_wf_drainTo, memory_wf_invalidateL1, memory_wf_modGroup, memory_wf_foldl]

/-! ### Memory at virtual addresses -/

theorem memory_wf_xlatePages {x a a3 a4} (h : Memory.wf s) : Memory.wf (xlatePages s x a a3 a4).1 := by
  fun_induction xlatePages s x a a3 a4 <;> grind -linarith [memory_wf_translate]

theorem memory_wf_xlateRun {x a va n} (h : Memory.wf s) : Memory.wf (xlateRun s x a va n).1 := memory_wf_xlatePages h

theorem memory_wf_runLost {p die t va n} (h : Memory.wf s) : Memory.wf (runLost s p die t va n).2 := by
  fun_cases runLost s p die t va n <;> grind -linarith [memory_wf_errorReply]

theorem memory_wf_rdVa {x va n} (h : Memory.wf s) : Memory.wf (rdVa s x va n).1 := by
  fun_cases rdVa s x va n <;> grind -linarith [memory_wf_xlateRun, memory_wf_settleSlots, memory_wf_runLost, memory_wf_countBlocks,
    memory_wf_countUncorr, memory_wf_correctPlaces]

theorem memory_wf_wrVa {x va bs} (h : Memory.wf s) : ∀ z, wrVa s x va bs = some z → Memory.wf z := by
  fun_cases wrVa s x va bs <;> grind -linarith [memory_wf_xlateRun, memory_wf_runLost, memory_wf_wrCoherent, memory_wf_settleSlots,
    memory_wf_countBlocks]

theorem memory_wf_updVa {x va n f} (h : Memory.wf s) : ∀ z, updVa s x va n f = some z → Memory.wf z := by
  fun_cases updVa s x va n f <;> grind -linarith [memory_wf_xlateRun, memory_wf_settleSlots, memory_wf_runLost, memory_wf_wrCoherent,
    memory_wf_correctPlaces, memory_wf_countBlocks]

/-! ### The ends of groups and teams -/

theorem memory_wf_leaveGrowers {g} (h : Memory.wf s) : Memory.wf (leaveGrowers s g) := memory_wf_modCore h

theorem memory_wf_raiseFault {gid taddr asid va cause acc mask what} (h : Memory.wf s) : Memory.wf (raiseFault s gid taddr asid va cause acc mask
    what) := by
  fun_cases raiseFault s gid taddr asid va cause acc mask what <;> grind -linarith [memory_wf_postRec, memory_wf_setGroup, memory_wf_same]

theorem memory_wf_postErrors {gid} (h : Memory.wf s) : Memory.wf (postErrors s gid) := by
  fun_cases postErrors s gid <;> grind -linarith [memory_wf_notify, memory_wf_modGroup, memory_wf_foldl]

theorem memory_wf_endTapes {u} (h : Memory.wf s) : Memory.wf (endTapes s u) := by
  fun_cases endTapes s u <;> grind -linarith [memory_wf_same]

theorem memory_wf_exitGroup {gid} (h : Memory.wf s) : Memory.wf (exitGroup s gid) := by
  fun_cases exitGroup s gid <;> grind -linarith [memory_wf_postErrors, memory_wf_drainGroup, memory_wf_endTapes, memory_wf_setGroup]

theorem memory_wf_workerWaits {gid} (h : Memory.wf s) : Memory.wf (workerWaits s gid) := memory_wf_modGroup h

theorem memory_wf_endWith {gid kind taddr asid acc mask daddr} (h : Memory.wf s) : Memory.wf (endWith s gid kind taddr asid acc mask daddr) := by
  fun_cases endWith s gid kind taddr asid acc mask daddr <;> grind -linarith [memory_wf_drainGroup, memory_wf_notify, memory_wf_modGroup,
    memory_wf_endTapes, memory_wf_leaveGrowers, memory_wf_workerWaits, memory_wf_postErrors, memory_wf_exitGroup, memory_wf_same]

/-! ### Tasks and nodes -/

theorem memory_wf_readQueue {d die} (h : Memory.wf s) : Memory.wf (readQueue s d die).1 := memory_wf_rdVa h

theorem memory_wf_appendRing {d die rs} (h : Memory.wf s) : ∀ z, appendRing s d die rs = some z → Memory.wf z.2 := by
  intro z hz
  have hq := memory_wf_readQueue (d := d) (die := die) h
  unfold appendRing at hz
  split at hz
  next s' q hr =>
    rw [hr] at hq
    split at hz
    · cases hz
    · obtain ⟨u, hu, rfl⟩ := Option.map_eq_some_iff.mp hz
      obtain ⟨t, ht, hu⟩ := Option.bind_eq_some_iff.mp hu
      exact memory_wf_wrVa (foldl_bind_keeps (P := fun t => Memory.wf t = true) (fun _ _ h => memory_wf_wrVa h) _ hq t ht) u hu
  next => cases hz

theorem memory_wf_modNode {disp k f} (h : Memory.wf s) : Memory.wf (modNode s disp k f) := memory_wf_modDisp h

theorem memory_wf_setHeld {d die k n} (h : Memory.wf s) : Memory.wf (setHeld s d die k n) := by
  fun_cases setHeld s d die k n
  grind -linarith [→ memory_wf_wrVa, memory_wf_getD]

theorem memory_wf_pushBatch {disp die k b} (h : Memory.wf s) : ∀ z, pushBatch s disp die k b = some z → Memory.wf z := by
  fun_cases pushBatch s disp die k b <;> grind -linarith [→ memory_wf_appendRing, memory_wf_readQueue, memory_wf_setHeld]

theorem memory_wf_pushBatches {disp die k a4} (h : Memory.wf s) : Memory.wf (pushBatches s disp die k a4) := by
  fun_induction pushBatches s disp die k a4 <;> grind -linarith [memory_wf_modNode, → memory_wf_pushBatch]

theorem memory_wf_releaseNode {disp die k} (h : Memory.wf s) : Memory.wf (releaseNode s disp die k) := by
  fun_cases releaseNode s disp die k <;> grind -linarith [memory_wf_pushBatches]

theorem memory_wf_startRelease {disp die k} (h : Memory.wf s) : Memory.wf (startRelease s disp die k) := by
  fun_cases startRelease s disp die k <;> grind -linarith [memory_wf_readQueue, memory_wf_rdVa, memory_wf_releaseNode, memory_wf_modNode]

theorem memory_wf_appendNode {disp die k r} (h : Memory.wf s) : Memory.wf (appendNode s disp die k r) := by
  unfold appendNode
  split
  · exact h
  next d _ =>
    have hq := memory_wf_readQueue (d := d) (die := die) h
    split <;> rename_i hr <;> rw [hr] at hq
    · dsimp only
      split
      · exact hq
      next t ht =>
        obtain ⟨u, hu, ht⟩ := Option.bind_eq_some_iff.mp ht
        have ht := memory_wf_wrVa (memory_wf_wrVa hq u hu) t ht
        exact memory_wf_ite (memory_wf_startRelease (memory_wf_ite (memory_wf_modNode ht) ht)) (memory_wf_ite (memory_wf_modNode ht) ht)
    · exact hq

theorem memory_wf_successorUpdate {g t d} (h : Memory.wf s) : Memory.wf (successorUpdate s g t d).state := by
  fun_cases successorUpdate s g t d <;> grind -linarith [SuccRes.state, memory_wf_notify, memory_wf_translate, memory_wf_raiseFault,
    memory_wf_modGroup, memory_wf_errorReply, memory_wf_sampleAccess, memory_wf_countUncorr, memory_wf_correctPlaces, memory_wf_wrPa,
    memory_wf_invalidateL1, memory_wf_readQueue]

theorem memory_wf_endTask {gid} (h : Memory.wf s) : Memory.wf (endTask s gid) := by
  fun_cases endTask s gid <;> grind -linarith [SuccRes.state, memory_wf_workerWaits, memory_wf_modGroup, memory_wf_appendNode, → memory_wf_appendRing,
    memory_wf_successorUpdate]

theorem memory_wf_endTaskByExit {gid} (h : Memory.wf s) : Memory.wf (endTaskByExit s gid) := by
  fun_cases endTaskByExit s gid <;> grind -linarith [memory_wf_drainGroup, memory_wf_workerWaits, memory_wf_postErrors, memory_wf_endTask]

theorem memory_wf_exitIfDone {gid} (h : Memory.wf s) : Memory.wf (exitIfDone s gid) := by
  fun_cases exitIfDone s gid <;> grind -linarith [memory_wf_endTaskByExit, memory_wf_exitGroup]

/-! ### How an instruction issues and ends -/

theorem memory_wf_takeTrap {gid pc next t} (h : Memory.wf s) : Memory.wf (takeTrap s gid pc next t) := by
  fun_cases takeTrap s gid pc next t <;> grind -linarith [memory_wf_countUncorr, memory_wf_setGroup, memory_wf_postRec]

theorem memory_wf_healRegs {x} (h : Memory.wf s) : Memory.wf (healRegs s x) := memory_wf_ite h (memory_wf_same h)

theorem memory_wf_correctRegs {x} (h : Memory.wf s) : Memory.wf (correctRegs s x) := memory_wf_ite h (memory_wf_correctWhere h)

theorem memory_wf_completeIssue {x dest lat} (h : Memory.wf s) : Memory.wf (completeIssue s x dest lat) := by
  fun_cases completeIssue s x dest lat <;> grind -linarith [memory_wf_exitIfDone, memory_wf_correctRegs, memory_wf_healRegs, memory_wf_setGroup,
    memory_wf_foldl]

theorem memory_wf_releaseGroup {gid val} (h : Memory.wf s) : Memory.wf (releaseGroup s gid val) := memory_wf_modGroup h

theorem memory_wf_trapParked {gid t} (h : Memory.wf s) : Memory.wf (trapParked s gid t) := by
  fun_cases trapParked s gid t <;> grind -linarith [memory_wf_takeTrap, memory_wf_modGroup]

theorem memory_wf_finish {x} {r : IRes} (h : Memory.wf r.state) : Memory.wf (finish x r) := by
  cases r with
  | done s l => exact memory_wf_completeIssue h
  | jump s d => exact memory_wf_completeIssue h
  | trap s t => exact memory_wf_takeTrap h
  | park s w => exact memory_wf_modGroup h
  | parkDone s w => exact memory_wf_modGroup h
  | replay s => exact memory_wf_raiseFault h
  | gone s => exact h

theorem memory_wf_takeIssueTrap {x t} (h : Memory.wf s) : Memory.wf (takeIssueTrap s x t) :=
  memory_wf_takeTrap (memory_wf_ite (memory_wf_modGroup h) h)

theorem memory_wf_prepare {g i} (h : Memory.wf s) : Memory.wf (prepare s g i) := by
  fun_cases prepare s g i <;> grind -linarith [memory_wf_drainTo]

theorem memory_wf_attempt {i gid} {body : Issue → State → IRes} (h : Memory.wf s) (hbody : ∀ x t, Memory.wf t → Memory.wf (body x t).state) :
    Memory.wf (attempt i s gid body).1 := by
  fun_cases attempt i s gid body <;> grind -linarith [memory_wf_takeIssueTrap, memory_wf_setGroup, memory_wf_finish]

theorem memory_wf_settleTrap {gid} {a : State → State × Bool} (h : Memory.wf s) (ha : ∀ t, Memory.wf t → Memory.wf (a t).1) : Memory.wf (settleTrap s
    gid a) := by
  fun_cases settleTrap s gid a <;> grind -linarith [memory_wf_drainReads]

theorem stepKeeps_issue {i} {body : Issue → State → IRes} (h : Memory.wf s) (hbody : ∀ x t, Memory.wf t → Memory.wf (body x t).state) :
    StepKeeps (issue i s body) := by
  unfold issue
  split
  · rintro t ⟨⟩
  · rintro t ⟨⟩
    exact memory_wf_settleTrap (memory_wf_prepare h) fun _ h => memory_wf_attempt h hbody

theorem memory_wf_attemptConv {i gid} {body : Issue → State → IRes} (h : Memory.wf s) (hbody : ∀ x t, Memory.wf t → Memory.wf (body x t).state) :
    Memory.wf (attemptConv i s gid body).1 := by
  fun_cases attemptConv i s gid body <;> grind -linarith [memory_wf_takeIssueTrap, memory_wf_setGroup, memory_wf_finish]

theorem stepKeeps_issueConv {i} {body : Issue → State → IRes} (h : Memory.wf s) (hbody : ∀ x t, Memory.wf t → Memory.wf (body x t).state) :
    StepKeeps (issueConv i s body) := by
  unfold issueConv
  split
  · rintro t ⟨⟩
  · rintro t ⟨⟩
    exact memory_wf_settleTrap (memory_wf_prepare h) fun _ h => memory_wf_attemptConv h hbody

theorem memory_wf_reportStore {x mask} {body : State → IRes} (h : Memory.wf s) (hbody : ∀ t, Memory.wf t → Memory.wf (body t).state) : Memory.wf
    (reportStore x s mask body).state := by
  fun_cases reportStore x s mask body <;> grind -linarith [IRes.state, memory_wf_modGroup]

theorem memory_wf_withRelease {x mask} {body : State → IRes} (h : Memory.wf s) (hbody : ∀ t, Memory.wf t → Memory.wf (body t).state) : Memory.wf
    (withRelease x s mask body).state :=
  memory_wf_reportStore (memory_wf_drainGroup h) fun _ h => by grind -linarith [memory_wf_modGroup]

theorem stepKeeps_event {f : State → State} (hf : ∀ t, Memory.wf t → Memory.wf (f t)) (h : Memory.wf s) : StepKeeps (event f s) := by
  rintro t ⟨⟩
  exact hf s h

/-! ### Operands -/

theorem memory_wf_doneWith {x v} (h : Memory.wf s) : Memory.wf (doneWith s x v).state := memory_wf_modGroup h

theorem memory_wf_groupWide {x} {body : State → IRes} (h : Memory.wf s) (hbody : ∀ t, Memory.wf t → Memory.wf (body t).state) : Memory.wf (groupWide x
    s body).state := by
  fun_cases groupWide x s body <;> grind -linarith [IRes.state]

theorem memory_wf_laneDone {x vals pd ps} (h : Memory.wf s) : Memory.wf (laneDone s x vals pd ps).state := memory_wf_modGroup h

theorem memory_wf_perLane {x f} (h : Memory.wf s) : Memory.wf (perLane s x f).state := memory_wf_laneDone h

/-! ### Flags -/

theorem memory_wf_fpDone {x vals pd ps fl} (h : Memory.wf s) : Memory.wf (fpDone s x vals pd ps fl).state := by
  fun_cases fpDone s x vals pd ps fl <;> grind -linarith [IRes.state, memory_wf_modGroup, memory_wf_laneDone]

/-! ### Integer and logic instructions -/

theorem memory_wf_intOp {x f op} (h : Memory.wf s) : Memory.wf (intOp x s f op).state := memory_wf_perLane h

theorem memory_wf_bitOp {x op} (h : Memory.wf s) : Memory.wf (bitOp x s op).state := memory_wf_perLane h

@[simp] theorem stepKeeps_execIadd {f} (h : Memory.wf s) : StepKeeps (execIadd f s) := stepKeeps_issue h fun _ _ h => memory_wf_intOp h

@[simp] theorem stepKeeps_execIsub {f} (h : Memory.wf s) : StepKeeps (execIsub f s) := stepKeeps_issue h fun _ _ h => memory_wf_intOp h

@[simp] theorem stepKeeps_execIadd3 {f} (h : Memory.wf s) : StepKeeps (execIadd3 f s) := stepKeeps_issue h fun _ _ h => memory_wf_intOp h

@[simp] theorem stepKeeps_execImul {f} (h : Memory.wf s) : StepKeeps (execImul f s) := stepKeeps_issue h fun _ _ h => memory_wf_intOp h

@[simp] theorem stepKeeps_execImulhi {f} (h : Memory.wf s) : StepKeeps (execImulhi f s) := stepKeeps_issue h fun _ _ h => memory_wf_intOp h

@[simp] theorem stepKeeps_execImad {f} (h : Memory.wf s) : StepKeeps (execImad f s) := stepKeeps_issue h fun _ _ h => memory_wf_intOp h

@[simp] theorem stepKeeps_execImin {f} (h : Memory.wf s) : StepKeeps (execImin f s) := stepKeeps_issue h fun _ _ h => memory_wf_intOp h

@[simp] theorem stepKeeps_execImax {f} (h : Memory.wf s) : StepKeeps (execImax f s) := stepKeeps_issue h fun _ _ h => memory_wf_intOp h

@[simp] theorem stepKeeps_execIabs {f} (h : Memory.wf s) : StepKeeps (execIabs f s) := stepKeeps_issue h fun _ _ h => memory_wf_intOp h

@[simp] theorem stepKeeps_execIneg {f} (h : Memory.wf s) : StepKeeps (execIneg f s) := stepKeeps_issue h fun _ _ h => memory_wf_intOp h

@[simp] theorem stepKeeps_execImadw {f} (h : Memory.wf s) : StepKeeps (execImadw f s) := stepKeeps_issue h fun _ _ h => memory_wf_perLane h

@[simp] theorem stepKeeps_execAnd {f} (h : Memory.wf s) : StepKeeps (execAnd f s) := stepKeeps_issue h fun _ _ h => memory_wf_bitOp h

@[simp] theorem stepKeeps_execOr {f} (h : Memory.wf s) : StepKeeps (execOr f s) := stepKeeps_issue h fun _ _ h => memory_wf_bitOp h

@[simp] theorem stepKeeps_execXor {f} (h : Memory.wf s) : StepKeeps (execXor f s) := stepKeeps_issue h fun _ _ h => memory_wf_bitOp h

@[simp] theorem stepKeeps_execNot {f} (h : Memory.wf s) : StepKeeps (execNot f s) := stepKeeps_issue h fun _ _ h => memory_wf_bitOp h

@[simp] theorem stepKeeps_execLfn3 {f} (h : Memory.wf s) : StepKeeps (execLfn3 f s) := stepKeeps_issue h fun _ _ h => memory_wf_bitOp h

@[simp] theorem stepKeeps_execShl {f} (h : Memory.wf s) : StepKeeps (execShl f s) := stepKeeps_issue h fun _ _ h => memory_wf_bitOp h

@[simp] theorem stepKeeps_execShr {f} (h : Memory.wf s) : StepKeeps (execShr f s) := stepKeeps_issue h fun _ _ h => memory_wf_bitOp h

@[simp] theorem stepKeeps_execSar {f} (h : Memory.wf s) : StepKeeps (execSar f s) := stepKeeps_issue h fun _ _ h => memory_wf_bitOp h

@[simp] theorem stepKeeps_execFsh {f} (h : Memory.wf s) : StepKeeps (execFsh f s) := stepKeeps_issue h fun _ _ h => memory_wf_bitOp h

@[simp] theorem stepKeeps_execFext {f} (h : Memory.wf s) : StepKeeps (execFext f s) := stepKeeps_issue h fun _ _ h => memory_wf_bitOp h

@[simp] theorem stepKeeps_execFdep {f} (h : Memory.wf s) : StepKeeps (execFdep f s) := stepKeeps_issue h fun _ _ h => memory_wf_bitOp h

@[simp] theorem stepKeeps_execBsel {f} (h : Memory.wf s) : StepKeeps (execBsel f s) := stepKeeps_issue h fun _ _ h => memory_wf_bitOp h

@[simp] theorem stepKeeps_execPopc {f} (h : Memory.wf s) : StepKeeps (execPopc f s) := stepKeeps_issue h fun _ _ h => memory_wf_bitOp h

@[simp] theorem stepKeeps_execClz {f} (h : Memory.wf s) : StepKeeps (execClz f s) := stepKeeps_issue h fun _ _ h => memory_wf_bitOp h

@[simp] theorem stepKeeps_execCtz {f} (h : Memory.wf s) : StepKeeps (execCtz f s) := stepKeeps_issue h fun _ _ h => memory_wf_bitOp h

@[simp] theorem stepKeeps_execBrev {f} (h : Memory.wf s) : StepKeeps (execBrev f s) := stepKeeps_issue h fun _ _ h => memory_wf_bitOp h

@[simp] theorem stepKeeps_execSel {f} (h : Memory.wf s) : StepKeeps (execSel f s) := stepKeeps_issue h fun _ _ h => memory_wf_perLane h

@[simp] theorem stepKeeps_execIcmp {f} (h : Memory.wf s) : StepKeeps (execIcmp f s) := stepKeeps_issue h fun _ _ h => memory_wf_laneDone h

@[simp] theorem stepKeeps_execSetp {f} (h : Memory.wf s) : StepKeeps (execSetp f s) := stepKeeps_issue h fun _ _ h => memory_wf_laneDone h

@[simp] theorem stepKeeps_execMov {f} (h : Memory.wf s) : StepKeeps (execMov f s) := stepKeeps_issue h fun _ _ h => memory_wf_perLane h

@[simp] theorem stepKeeps_execLi {y} (h : Memory.wf s) : StepKeeps (execLi y s) := stepKeeps_issue h fun _ _ h => memory_wf_perLane h

@[simp] theorem stepKeeps_execLea {f} (h : Memory.wf s) : StepKeeps (execLea f s) := stepKeeps_issue h fun _ _ h => memory_wf_perLane h

@[simp] theorem stepKeeps_execRand {f} (h : Memory.wf s) : StepKeeps (execRand f s) := stepKeeps_issue h fun _ _ h => memory_wf_perLane h

/-! ### Floating point -/

theorem memory_wf_fpEnd {x r} (h : Memory.wf s) : Memory.wf (fpEnd x s r).state := memory_wf_fpDone h

theorem memory_wf_fpOp {x f op} (h : Memory.wf s) : Memory.wf (fpOp x s f op).state := memory_wf_fpEnd h

@[simp] theorem stepKeeps_execFadd {f} (h : Memory.wf s) : StepKeeps (execFadd f s) := stepKeeps_issue h fun _ _ h => memory_wf_fpOp h

@[simp] theorem stepKeeps_execFsub {f} (h : Memory.wf s) : StepKeeps (execFsub f s) := stepKeeps_issue h fun _ _ h => memory_wf_fpOp h

@[simp] theorem stepKeeps_execFmul {f} (h : Memory.wf s) : StepKeeps (execFmul f s) := stepKeeps_issue h fun _ _ h => memory_wf_fpOp h

@[simp] theorem stepKeeps_execFma {f} (h : Memory.wf s) : StepKeeps (execFma f s) := stepKeeps_issue h fun _ _ h => memory_wf_fpOp h

@[simp] theorem stepKeeps_execFdiv {f} (h : Memory.wf s) : StepKeeps (execFdiv f s) := stepKeeps_issue h fun _ _ h => memory_wf_fpOp h

@[simp] theorem stepKeeps_execFsqrt {f} (h : Memory.wf s) : StepKeeps (execFsqrt f s) := stepKeeps_issue h fun _ _ h => memory_wf_fpOp h

@[simp] theorem stepKeeps_execFround {f} (h : Memory.wf s) : StepKeeps (execFround f s) := stepKeeps_issue h fun _ _ h => memory_wf_fpOp h

@[simp] theorem stepKeeps_execFscale {f} (h : Memory.wf s) : StepKeeps (execFscale f s) := stepKeeps_issue h fun _ _ h => memory_wf_fpEnd h

@[simp] theorem stepKeeps_execFmin {f} (h : Memory.wf s) : StepKeeps (execFmin f s) := stepKeeps_issue h fun _ _ h => memory_wf_fpOp h

@[simp] theorem stepKeeps_execFmax {f} (h : Memory.wf s) : StepKeeps (execFmax f s) := stepKeeps_issue h fun _ _ h => memory_wf_fpOp h

@[simp] theorem stepKeeps_execFminx {f} (h : Memory.wf s) : StepKeeps (execFminx f s) := stepKeeps_issue h fun _ _ h => memory_wf_fpOp h

@[simp] theorem stepKeeps_execFmaxx {f} (h : Memory.wf s) : StepKeeps (execFmaxx f s) := stepKeeps_issue h fun _ _ h => memory_wf_fpOp h

theorem memory_wf_approxOp {op x f} (h : Memory.wf s) : Memory.wf (approxOp op x s f).state := memory_wf_fpOp h

@[simp] theorem stepKeeps_execFrcp {f} (h : Memory.wf s) : StepKeeps (execFrcp f s) := stepKeeps_issue h fun _ _ h => memory_wf_approxOp h

@[simp] theorem stepKeeps_execFrsq {f} (h : Memory.wf s) : StepKeeps (execFrsq f s) := stepKeeps_issue h fun _ _ h => memory_wf_approxOp h

@[simp] theorem stepKeeps_execFex2 {f} (h : Memory.wf s) : StepKeeps (execFex2 f s) := stepKeeps_issue h fun _ _ h => memory_wf_approxOp h

@[simp] theorem stepKeeps_execFlg2 {f} (h : Memory.wf s) : StepKeeps (execFlg2 f s) := stepKeeps_issue h fun _ _ h => memory_wf_approxOp h

@[simp] theorem stepKeeps_execFsin {f} (h : Memory.wf s) : StepKeeps (execFsin f s) := stepKeeps_issue h fun _ _ h => memory_wf_approxOp h

@[simp] theorem stepKeeps_execFcos {f} (h : Memory.wf s) : StepKeeps (execFcos f s) := stepKeeps_issue h fun _ _ h => memory_wf_approxOp h

@[simp] theorem stepKeeps_execFcmp {f} (h : Memory.wf s) : StepKeeps (execFcmp f s) := stepKeeps_issue h fun _ _ h => memory_wf_fpDone h

@[simp] theorem stepKeeps_execFclass {f} (h : Memory.wf s) : StepKeeps (execFclass f s) := stepKeeps_issue h fun _ _ h => memory_wf_laneDone h

@[simp] theorem stepKeeps_execCvt {y} (h : Memory.wf s) : StepKeeps (execCvt y s) :=
  stepKeeps_issue h fun _ _ h => by grind -linarith [IRes.state, memory_wf_fpEnd]

@[simp] theorem stepKeeps_execMxscale {f} (h : Memory.wf s) : StepKeeps (execMxscale f s) := stepKeeps_issue h fun _ _ h => memory_wf_fpEnd h

/-! ### Cross-lane instructions and control transfers -/

@[simp] theorem stepKeeps_execShfl {f} (h : Memory.wf s) : StepKeeps (execShfl f s) :=
  stepKeeps_issue h fun _ _ h => by grind -linarith [IRes.state, memory_wf_correctLocs, memory_wf_laneDone]

@[simp] theorem stepKeeps_execVote {f} (h : Memory.wf s) : StepKeeps (execVote f s) := stepKeeps_issue h fun _ _ h => memory_wf_laneDone h

@[simp] theorem stepKeeps_execMatchLanes {f} (h : Memory.wf s) : StepKeeps (execMatchLanes f s) := stepKeeps_issue h fun _ _ h => memory_wf_laneDone h

@[simp] theorem stepKeeps_execElect {f} (h : Memory.wf s) : StepKeeps (execElect f s) := stepKeeps_issue h fun _ _ h => memory_wf_laneDone h

@[simp] theorem stepKeeps_execLred {f} (h : Memory.wf s) : StepKeeps (execLred f s) := stepKeeps_issue h fun _ _ h => memory_wf_fpEnd h

@[simp] theorem stepKeeps_execLscan {f} (h : Memory.wf s) : StepKeeps (execLscan f s) := stepKeeps_issue h fun _ _ h => memory_wf_fpEnd h

@[simp] theorem stepKeeps_execPWord {p} (h : Memory.wf s) : StepKeeps (execPWord p s) :=
  stepKeeps_issue h fun _ _ h => by grind -linarith [IRes.state, memory_wf_modGroup]

/-! ### The checks of an access -/

theorem memory_wf_raiseErr {x acc asid e mask} (h : Memory.wf s) : Memory.wf (raiseErr s x acc asid e mask).state := by
  fun_cases raiseErr s x acc asid e mask <;> grind -linarith [IRes.state, memory_wf_endWith]

theorem memory_wf_modWindow {disp teamid w f} (h : Memory.wf s) : Memory.wf (modWindow s disp teamid w f) := memory_wf_modTeam h

theorem memory_wf_holdPage {t w va pa} (h : Memory.wf s) : Memory.wf (holdPage s t w va pa) := memory_wf_modWindow h

theorem memory_wf_sampleCore {p d c va ty} (h : Memory.wf s) : Memory.wf (sampleCore s p d c va ty) := memory_wf_sampleAccess h

theorem memory_wf_fillLine {c line} (h : Memory.wf s) : Memory.wf (fillLine s c line).state := by
  fun_cases fillLine s c line <;> grind -linarith [FillRes.state, memory_wf_translate, memory_wf_noteBad, memory_wf_countTraffic,
    memory_wf_correctPlaces, memory_wf_sampleCore, memory_wf_holdPage, memory_wf_modCore, memory_wf_modLine, memory_wf_foldl]

theorem memory_wf_fillLines {c a2} (h : Memory.wf s) : Memory.wf (fillLines s c a2).state := by
  fun_induction fillLines s c a2 <;> grind -linarith [FillRes.state, memory_wf_fillLine]

theorem memory_wf_fillAll {a1} (h : Memory.wf s) : Memory.wf (fillAll s a1).state := by
  fun_induction fillAll s a1 <;> grind -linarith [FillAll.state, FillRes.state, memory_wf_fillLines]

theorem memory_wf_globCheck {x write unsup va daddr} (h : Memory.wf s) : Memory.wf (globCheck s x write unsup va daddr).1 := by
  fun_cases globCheck s x write unsup va daddr <;> grind -linarith [memory_wf_translate]

theorem memory_wf_globLanes {x write unsup a4} (h : Memory.wf s) : Memory.wf (globLanes s x write unsup a4).1 := by
  fun_induction globLanes s x write unsup a4 <;> grind -linarith [memory_wf_globCheck]

theorem memory_wf_checkLanes {x sp align n acc reads write unsup as} (h : Memory.wf s) : Memory.wf (checkLanes s x sp align n acc reads write unsup
    as).state := by
  fun_cases checkLanes s x sp align n acc reads write unsup as <;> grind -linarith [ChkRes.state, FillAll.state, IRes.state, memory_wf_raiseErr,
    memory_wf_fillAll, memory_wf_globLanes, memory_wf_noteBad, memory_wf_correctLocs]

theorem memory_wf_lostLanes {ls} (h : Memory.wf s) : Memory.wf (lostLanes s ls).2 :=
  foldl_keeps (P := fun r : List LaneOk × State => Memory.wf r.2) (fun r k h => by grind -linarith [memory_wf_errorReply]) ls h

theorem memory_wf_lostTrap {x acc k ks} (h : Memory.wf s) : Memory.wf (lostTrap s x acc k ks).state := h

theorem memory_wf_sampleLanes {x ty ls} (h : Memory.wf s) : Memory.wf (sampleLanes s x ty ls) :=
  memory_wf_foldl (fun _ _ h => memory_wf_ite (memory_wf_sampleAccess h) h) _ h

/-! ### Loads and stores -/

theorem memory_wf_takeSeq (h : Memory.wf s) : Memory.wf (takeSeq s).2 := memory_wf_same h

theorem memory_wf_launchFlight {x op size words signed dst ls rel} (h : Memory.wf s) : Memory.wf (launchFlight s x op size words signed dst ls rel) := by
  fun_cases launchFlight s x op size words signed dst ls rel
  grind -linarith [memory_wf_takeSeq, memory_wf_modGroup]

theorem memory_wf_localDone {x vals times} (h : Memory.wf s) : Memory.wf (localDone s x vals times) := memory_wf_noteRead (memory_wf_modGroup h)

theorem memory_wf_pendStore {x k size bs red rel} (h : Memory.wf s) : Memory.wf (pendStore s x k size bs red rel) := by
  fun_cases pendStore s x k size bs red rel
  grind -linarith [memory_wf_takeSeq, memory_wf_modGroup]

theorem memory_wf_storeLanes {x size ls data rel} (h : Memory.wf s) : Memory.wf (storeLanes s x size ls data rel) := by
  fun_cases storeLanes s x size ls data rel
  grind -linarith [memory_wf_wrLocal, memory_wf_pendStore, memory_wf_drainForWrite, memory_wf_foldl]

theorem memory_wf_loadOp {x sp f} (h : Memory.wf s) : Memory.wf (loadOp x s sp f).state := by
  fun_cases loadOp x s sp f <;> grind -linarith [ChkRes.state, IRes.state, memory_wf_checkLanes, memory_wf_localDone, memory_wf_launchFlight,
    memory_wf_sampleLanes]

theorem memory_wf_storeOp {x sp f} (h : Memory.wf s) : Memory.wf (storeOp x s sp f).state := by
  fun_cases storeOp x s sp f <;> grind -linarith [ChkRes.state, IRes.state, memory_wf_checkLanes, memory_wf_storeLanes, memory_wf_sampleLanes]

theorem memory_wf_anyLane {x} {r : IRes} (h : Memory.wf s) (hr : Memory.wf r.state) : Memory.wf (anyLane x s r).state := by
  fun_cases anyLane x s r <;> grind -linarith [IRes.state]

@[simp] theorem stepKeeps_execLdL {f} (h : Memory.wf s) : StepKeeps (execLdL f s) :=
  stepKeeps_issue h fun _ _ h => memory_wf_anyLane h (memory_wf_loadOp h)

@[simp] theorem stepKeeps_execLdLp {f} (h : Memory.wf s) : StepKeeps (execLdLp f s) :=
  stepKeeps_issue h fun _ _ h => memory_wf_anyLane h (memory_wf_loadOp h)

@[simp] theorem stepKeeps_execLdG {f} (h : Memory.wf s) : StepKeeps (execLdG f s) :=
  stepKeeps_issue h fun _ _ h => memory_wf_anyLane h (memory_wf_loadOp h)

@[simp] theorem stepKeeps_execLdC {f} (h : Memory.wf s) : StepKeeps (execLdC f s) :=
  stepKeeps_issue h fun _ _ h => memory_wf_anyLane h (memory_wf_loadOp h)

@[simp] theorem stepKeeps_execStL {f} (h : Memory.wf s) : StepKeeps (execStL f s) :=
  stepKeeps_issue h fun _ _ h => memory_wf_anyLane h (memory_wf_storeOp h)

@[simp] theorem stepKeeps_execStLp {f} (h : Memory.wf s) : StepKeeps (execStLp f s) :=
  stepKeeps_issue h fun _ _ h => memory_wf_anyLane h (memory_wf_storeOp h)

@[simp] theorem stepKeeps_execStG {f} (h : Memory.wf s) : StepKeeps (execStG f s) :=
  stepKeeps_issue h fun _ _ h => memory_wf_anyLane h (memory_wf_storeOp h)

theorem memory_wf_prefetchLine {x va} (h : Memory.wf s) : Memory.wf (prefetchLine s x va) := by
  fun_cases prefetchLine s x va <;> grind -linarith [memory_wf_modCore]

@[simp] theorem stepKeeps_execPrf {f} (h : Memory.wf s) : StepKeeps (execPrf f s) :=
  stepKeeps_issue h fun _ _ h => by grind -linarith [IRes.state, memory_wf_prefetchLine, memory_wf_foldl]

theorem memory_wf_dropRegs {gid n} (h : Memory.wf s) : Memory.wf (dropRegs s gid n) := memory_wf_same h

theorem memory_wf_shrinkGroup {gid n} (h : Memory.wf s) : Memory.wf (shrinkGroup s gid n) := memory_wf_dropRegs (memory_wf_modGroup h)

theorem memory_wf_growGroup {gid bs} (h : Memory.wf s) : Memory.wf (growGroup s gid bs) := memory_wf_dropRegs (memory_wf_modGroup h)

theorem memory_wf_joinGrowers {g} (h : Memory.wf s) : Memory.wf (joinGrowers s g) := memory_wf_modCore h

theorem memory_wf_countTrap {x} (h : Memory.wf s) : Memory.wf (countTrap x s).state := h

@[simp] theorem stepKeeps_execRgrow {f} (h : Memory.wf s) : StepKeeps (execRgrow f s) :=
  stepKeeps_issue h fun _ _ h => memory_wf_groupWide h (fun _ h => by grind -linarith [IRes.state, memory_wf_modGroup, memory_wf_countTrap,
    memory_wf_growGroup, memory_wf_joinGrowers])

@[simp] theorem stepKeeps_execRgrowGrant {grp} (h : Memory.wf s) : StepKeeps (execRgrowGrant grp s) :=
  stepKeeps_event (fun _ h => by grind -linarith [memory_wf_releaseGroup, memory_wf_leaveGrowers, memory_wf_growGroup]) h

@[simp] theorem stepKeeps_execRshrink {f} (h : Memory.wf s) : StepKeeps (execRshrink f s) :=
  stepKeeps_issue h fun _ _ h => memory_wf_groupWide h (fun _ h => by grind -linarith [IRes.state, memory_wf_countTrap, memory_wf_shrinkGroup,
    memory_wf_drainGroup, memory_wf_modGroup])

@[simp] theorem stepKeeps_execSegld {f} (h : Memory.wf s) : StepKeeps (execSegld f s) :=
  stepKeeps_issue h fun _ _ h => memory_wf_groupWide h (fun _ h => by grind -linarith [IRes.state, memory_wf_modGroup])

/-! ### Atomics, ordering and reduction objects -/

theorem memory_wf_relIf {b x} {k : State → IRes} (h : Memory.wf s) (hk : ∀ t, Memory.wf t → Memory.wf (k t).state) : Memory.wf (relIf b x s k).state
    := by
  fun_cases relIf b x s k <;> grind -linarith [IRes.state, memory_wf_withRelease]

theorem memory_wf_localAtom {c off o t b v} (h : Memory.wf s) : Memory.wf (localAtom s c off o t b v).2 := by
  fun_cases localAtom s c off o t b v <;> grind -linarith [memory_wf_wrLocal]

theorem memory_wf_localAtoms {o t b c a5} (h : Memory.wf s) : Memory.wf (localAtoms s o t b c a5).1 := by
  fun_induction localAtoms s o t b c a5 <;> grind -linarith [memory_wf_localAtom]

theorem memory_wf_localEnd {acq x vals} (h : Memory.wf s) : Memory.wf (localEnd acq x s vals) :=
  memory_wf_ite (memory_wf_acquireNow (memory_wf_touchRead (memory_wf_localDone h))) (memory_wf_touchRead (memory_wf_localDone h))

theorem memory_wf_atomOp {x y red} (h : Memory.wf s) : Memory.wf (atomOp x s y red).state := by
  fun_cases atomOp x s y red <;> grind -linarith [ChkRes.state, IRes.state, memory_wf_anyLane, memory_wf_relIf, memory_wf_checkLanes,
    memory_wf_localAtoms, memory_wf_drainForWrite, memory_wf_touchRead, memory_wf_localEnd, memory_wf_sampleLanes, memory_wf_pendStore,
    memory_wf_launchFlight, memory_wf_foldl]

@[simp] theorem stepKeeps_execAtom {y} (h : Memory.wf s) : StepKeeps (execAtom y s) := stepKeeps_issue h fun _ _ h => memory_wf_atomOp h

@[simp] theorem stepKeeps_execRed {y} (h : Memory.wf s) : StepKeeps (execRed y s) := stepKeeps_issue h fun _ _ h => memory_wf_atomOp h

@[simp] theorem stepKeeps_execAtomAgg {y} (h : Memory.wf s) : StepKeeps (execAtomAgg y s) := by
  refine stepKeeps_issue h fun x s h => ?_
  split
  · refine memory_wf_anyLane h (memory_wf_relIf h fun s h => ?_)
    grind -linarith [ChkRes.state, IRes.state, memory_wf_checkLanes, memory_wf_localAtom, memory_wf_drainForWrite, memory_wf_localEnd,
      memory_wf_launchFlight, memory_wf_sampleLanes]
  · exact h

theorem memory_wf_ldxOp {x f acq} (h : Memory.wf s) : Memory.wf (ldxOp x s f acq).state := by
  fun_cases ldxOp x s f acq
  grind -linarith [ChkRes.state, IRes.state, memory_wf_anyLane, memory_wf_checkLanes, memory_wf_localDone,
    memory_wf_acquireNow, memory_wf_launchFlight, memory_wf_sampleLanes]

theorem memory_wf_stxOp {x f rel} (h : Memory.wf s) : Memory.wf (stxOp x s f rel).state :=
  memory_wf_anyLane h (memory_wf_relIf h (fun _ h => by grind -linarith [ChkRes.state, IRes.state, memory_wf_checkLanes, memory_wf_storeLanes,
    memory_wf_sampleLanes]))

@[simp] theorem stepKeeps_execLdx {f} (h : Memory.wf s) : StepKeeps (execLdx f s) := stepKeeps_issue h fun _ _ h => memory_wf_ldxOp h

@[simp] theorem stepKeeps_execStx {f} (h : Memory.wf s) : StepKeeps (execStx f s) := stepKeeps_issue h fun _ _ h => memory_wf_stxOp h

@[simp] theorem stepKeeps_execLdAcq {f} (h : Memory.wf s) : StepKeeps (execLdAcq f s) := stepKeeps_issue h fun _ _ h => memory_wf_ldxOp h

@[simp] theorem stepKeeps_execStRel {f} (h : Memory.wf s) : StepKeeps (execStRel f s) := stepKeeps_issue h fun _ _ h => memory_wf_stxOp h

@[simp] theorem stepKeeps_execFenceAcq {f} (h : Memory.wf s) : StepKeeps (execFenceAcq f s) :=
  stepKeeps_issue h fun _ _ h => memory_wf_acquireNow (memory_wf_drainReads h)

theorem memory_wf_relPoint {gid} (h : Memory.wf s) : Memory.wf (relPoint s gid) := by
  fun_cases relPoint s gid <;> grind -linarith [memory_wf_drawOracle, memory_wf_drainGroup, memory_wf_modGroup]

@[simp] theorem stepKeeps_execFenceRel {f} (h : Memory.wf s) : StepKeeps (execFenceRel f s) :=
  stepKeeps_issue h fun _ _ h => memory_wf_reportStore (memory_wf_relPoint h) (fun _ h => h)

@[simp] theorem stepKeeps_execFenceAr {f} (h : Memory.wf s) : StepKeeps (execFenceAr f s) :=
  stepKeeps_issue h fun _ _ h => memory_wf_withRelease h (fun _ h => memory_wf_acquireNow h)

theorem memory_wf_droPut {p u off n x} (h : Memory.wf s) : Memory.wf (droPut s p u off n x) := memory_wf_wrCoherent _ h

theorem memory_wf_droUpdate {p u t} (h : Memory.wf s) : Memory.wf (droUpdate s p u t).2 := by
  fun_cases droUpdate s p u t <;> grind -linarith [memory_wf_droPut, memory_wf_correctLocs]

theorem memory_wf_droCheck {x write} {k : State → Partition → List LaneOk → IRes} (h : Memory.wf s) (hk : ∀ t p ls, Memory.wf t → Memory.wf (k t p
    ls).state) : Memory.wf (droCheck x s write k).state := by
  fun_cases droCheck x s write k <;> grind -linarith [ChkRes.state, IRes.state, memory_wf_checkLanes, memory_wf_settleSlots, memory_wf_drainOver,
    memory_wf_lostLanes, memory_wf_lostTrap, memory_wf_noteBad, memory_wf_correctPlaces, memory_wf_foldl]

theorem memory_wf_droPages {x va a3 a4} (h : Memory.wf s) : Memory.wf (droPages s x va a3 a4).1 := by
  fun_induction droPages s x va a3 a4 <;> grind -linarith [memory_wf_globCheck]

theorem memory_wf_droLanes {x p t a4} (h : Memory.wf s) : Memory.wf (droLanes s x p t a4).1 := by
  fun_induction droLanes s x p t a4 <;> grind -linarith [memory_wf_droPages]

@[simp] theorem stepKeeps_execDroAdd {y} (h : Memory.wf s) : StepKeeps (execDroAdd y s) := by
  refine stepKeeps_issue h fun x s h => memory_wf_anyLane h (memory_wf_withRelease h fun s h => memory_wf_droCheck h fun s p ls h => ?_)
  have hu := memory_wf_droLanes (x := x) (p := p) (t := xmod y 0 2) (a4 := ls) h
  dsimp only
  split
  · exact memory_wf_raiseErr (memory_wf_foldl (fun _ _ h => memory_wf_noteBad h) _ hu)
  split
  · exact hu
  · exact memory_wf_touchRead (memory_wf_modGroup (foldl_keeps (P := fun r : State × List (Nat × Nat) => Memory.wf r.1)
      (fun _ _ h => memory_wf_droUpdate h) _ (memory_wf_settleSlots _ _ (memory_wf_sampleLanes hu))))

@[simp] theorem stepKeeps_execDroGet {y} (h : Memory.wf s) : StepKeeps (execDroGet y s) :=
  stepKeeps_issue h fun _ _ h => memory_wf_anyLane h (memory_wf_droCheck h (fun _ _ _ h => by grind -linarith [IRes.state, memory_wf_acquireNow,
    memory_wf_modGroup]))

/-! ### Barriers -/

theorem memory_wf_releaseAcq {gid val} (h : Memory.wf s) : Memory.wf (releaseAcq s gid val) := memory_wf_acquireNow (memory_wf_releaseGroup h)

theorem memory_wf_completeCv {disp teamid n} (h : Memory.wf s) : Memory.wf (completeCv s disp teamid n) := by
  fun_cases completeCv s disp teamid n <;> grind -linarith [memory_wf_modTeam, memory_wf_releaseAcq, memory_wf_trapParked, memory_wf_modGroup,
    memory_wf_foldl]

theorem memory_wf_checkCv {disp teamid n} (h : Memory.wf s) : Memory.wf (checkCv s disp teamid n) := by
  fun_cases checkCv s disp teamid n <;> grind -linarith [memory_wf_completeCv]

@[simp] theorem stepKeeps_execCvSign {f} (h : Memory.wf s) : StepKeeps (execCvSign f s) :=
  stepKeeps_issue h fun _ _ h => memory_wf_groupWide h (fun _ h => by grind -linarith [IRes.state, memory_wf_withRelease, memory_wf_modGroup,
    memory_wf_modTeamOf, memory_wf_checkCv])

@[simp] theorem stepKeeps_execCvWait {f} (h : Memory.wf s) : StepKeeps (execCvWait f s) :=
  stepKeeps_issue h fun _ _ h => memory_wf_groupWide h (fun _ h => by grind -linarith [IRes.state, memory_wf_acquireNow, memory_wf_modGroup])

theorem memory_wf_checkTeamBar {disp teamid} (h : Memory.wf s) : Memory.wf (checkTeamBar s disp teamid) := by
  fun_cases checkTeamBar s disp teamid <;> grind -linarith [memory_wf_modTeam, memory_wf_releaseAcq, memory_wf_foldl]

theorem memory_wf_checkClusterBar {disp clid} (h : Memory.wf s) : Memory.wf (checkClusterBar s disp clid) := by
  fun_cases checkClusterBar s disp clid <;> grind -linarith [memory_wf_modCluster, memory_wf_releaseAcq, memory_wf_foldl]

theorem memory_wf_afterArrive {x before now w} {check : State → State} (hcheck : ∀ t, Memory.wf t → Memory.wf (check t)) (h : Memory.wf s) : Memory.wf
    (afterArrive x before now check s w).state := by
  fun_cases afterArrive x before now check s w <;> grind -linarith [IRes.state, memory_wf_acquireNow]

theorem memory_wf_barTeamOp {x} (h : Memory.wf s) : Memory.wf (barTeamOp x s).state :=
  memory_wf_groupWide h fun _ h => memory_wf_withRelease h (fun _ h => memory_wf_afterArrive (fun _ h => memory_wf_checkTeamBar h)
    (memory_wf_modTeamOf h))

@[simp] theorem stepKeeps_execBarTeam {f} (h : Memory.wf s) : StepKeeps (execBarTeam f s) := stepKeeps_issueConv h fun _ _ h => memory_wf_barTeamOp h

theorem memory_wf_barClOp {x} (h : Memory.wf s) : Memory.wf (barClOp x s).state := by
  fun_cases barClOp x s <;> grind -linarith [IRes.state, memory_wf_barTeamOp, memory_wf_groupWide, memory_wf_withRelease, memory_wf_modCluster,
    memory_wf_afterArrive, memory_wf_checkClusterBar]

@[simp] theorem stepKeeps_execBarCl {f} (h : Memory.wf s) : StepKeeps (execBarCl f s) := stepKeeps_issueConv h fun _ _ h => memory_wf_barClOp h

theorem memory_wf_retireMember {g} (h : Memory.wf s) : Memory.wf (retireMember s g) := by
  fun_cases retireMember s g <;> grind -linarith [memory_wf_modTeamOf, memory_wf_checkCv, memory_wf_checkClusterBar, memory_wf_checkTeamBar,
    memory_wf_foldl]

theorem memory_wf_setPrio {g n} (h : Memory.wf s) : Memory.wf (setPrio s g n) := memory_wf_modGroup h

@[simp] theorem stepKeeps_execPrioSet {f} (h : Memory.wf s) : StepKeeps (execPrioSet f s) :=
  stepKeeps_issue h fun _ _ h => memory_wf_groupWide h (fun _ h => memory_wf_setPrio (memory_wf_modGroup h))

@[simp] theorem stepKeeps_execPrioWrite {grp value} (h : Memory.wf s) : StepKeeps (execPrioWrite grp value s) :=
  stepKeeps_event (fun _ h => by grind -linarith [memory_wf_setPrio]) h

/-! ### Commands of the engines -/

theorem memory_wf_barWrite {r b} (h : Memory.wf s) : Memory.wf (barWrite s r b) := by
  fun_cases barWrite s r b <;> grind -linarith [memory_wf_wrLocal, memory_wf_wrCoherent]

theorem memory_wf_releaseBar {r} (h : Memory.wf s) : Memory.wf (releaseBar s r) := memory_wf_foldl (fun _ _ h => memory_wf_releaseAcq h) _ h

theorem memory_wf_trapBar {r kind} (h : Memory.wf s) : Memory.wf (trapBar s r kind) := memory_wf_foldl (fun _ _ h => memory_wf_trapParked h) _ h

theorem memory_wf_barUpdate {r b} (h : Memory.wf s) : Memory.wf (barUpdate s r b) := by
  fun_cases barUpdate s r b <;> grind -linarith [memory_wf_barWrite, memory_wf_releaseBar]

theorem memory_wf_barCredits {r err a3} (h : Memory.wf s) : Memory.wf (barCredits s r err a3) := by
  fun_induction barCredits s r err a3 <;> grind -linarith [memory_wf_barUpdate]

theorem memory_wf_barErr {r} (h : Memory.wf s) : Memory.wf (barErr s r) := memory_wf_ite (memory_wf_barUpdate h) h

theorem memory_wf_cmdXlate {i write unsup va daddr} (h : Memory.wf s) : Memory.wf (cmdXlate s i write unsup va daddr).1 := by
  fun_cases cmdXlate s i write unsup va daddr <;> grind -linarith [memory_wf_translate, memory_wf_settleSlots]

theorem memory_wf_resolveBar {i bsp a acc write reads} (h : Memory.wf s) : Memory.wf (resolveBar s i bsp a acc write reads).state := by
  fun_cases resolveBar s i bsp a acc write reads <;> grind -linarith [BarRes.state, CRes.state, FillRes.state, memory_wf_cmdXlate,
    memory_wf_errorReply, memory_wf_noteBad, memory_wf_correctLocs, memory_wf_fillLines]

theorem memory_wf_enqueueCmd {c} (h : Memory.wf s) : Memory.wf (enqueueCmd s c).state := by
  fun_cases enqueueCmd s c <;> grind -linarith [CRes.state, IRes.state, memory_wf_modLine, memory_wf_foldl, memory_wf_same]

theorem memory_wf_dropCmd {id} (h : Memory.wf s) : Memory.wf (dropCmd s id) := memory_wf_same h

theorem memory_wf_countFailed {c f} (h : Memory.wf s) : Memory.wf (countFailed s c f) := memory_wf_notify (memory_wf_modGroup h)

theorem memory_wf_barNow {c} (h : Memory.wf s) : Memory.wf (barNow s c).1 := by
  fun_cases barNow s c <;> grind -linarith [FillRes.state, memory_wf_fillLines, memory_wf_translate]

theorem memory_wf_creditCmd {c n failed} (h : Memory.wf s) : Memory.wf (creditCmd s c n failed) := by
  fun_cases creditCmd s c n failed <;> grind -linarith [memory_wf_countFailed, memory_wf_barNow, memory_wf_trapBar, memory_wf_countUncorr,
    memory_wf_barErr, memory_wf_barCredits]

theorem memory_wf_creditUpTo {c n} (h : Memory.wf s) : Memory.wf (creditUpTo s c n) := memory_wf_ite h (memory_wf_modCmd (memory_wf_creditCmd h))

theorem memory_wf_finishCmd {c} (h : Memory.wf s) : Memory.wf (finishCmd s c) := memory_wf_dropCmd (memory_wf_creditCmd h)

theorem memory_wf_failCmd {c unwritten f} (h : Memory.wf s) : Memory.wf (failCmd s c unwritten f) :=
  memory_wf_dropCmd (memory_wf_creditCmd (memory_wf_foldl (fun _ _ h => memory_wf_modLine h) _ h))

theorem memory_wf_cmdErr {x acc e} (h : Memory.wf s) : Memory.wf (cmdErr x s acc e).state := by
  fun_cases cmdErr x s acc e <;> grind -linarith [IRes.state, memory_wf_raiseErr]

theorem memory_wf_cmdRes {x} {r : CRes} {note : State → State} (h : Memory.wf r.state) (hnote : ∀ t, Memory.wf t → Memory.wf (note t)) :
    Memory.wf (cmdRes x r note).state := by
  cases r with
  | ok s v => exact memory_wf_doneWith (hnote s h)
  | err s a e => exact memory_wf_cmdErr h
  | wait s w => exact h
  | held s w => exact hnote s h
  | noLocal s => exact h
  | gone s => exact h

/-! ### Placing, clusters and credits -/

theorem memory_wf_healCore {c lo n slots} (h : Memory.wf s) : Memory.wf (healCore s c lo n slots) := memory_wf_same h

theorem memory_wf_clearRun {c base n slots} (h : Memory.wf s) : Memory.wf (clearRun s c base n slots) := memory_wf_healCore (memory_wf_modCore h)

theorem memory_wf_placeGroups {d teamid c is} (h : Memory.wf s) : ∀ z, placeGroups d teamid c is s = some z → Memory.wf z := by
  induction is generalizing s with
  | nil => rintro z ⟨⟩; exact h
  | cons i is ih =>
    unfold placeGroups
    split
    · rintro z ⟨⟩
    · exact ih (memory_wf_same h)

theorem memory_wf_placeTeam {d clid rank c} (h : Memory.wf s) : ∀ z, placeTeam s d clid rank c = some z → Memory.wf z := by
  unfold placeTeam
  split
  · rintro z ⟨⟩
  split
  next base slots _ _ =>
    exact memory_wf_placeGroups (memory_wf_same (memory_wf_clearRun (c := c) (base := base) (n := dispLocalG d) (slots := slots) h))
  · rintro z ⟨⟩

theorem memory_wf_tryRectangles {p w h'} {f : State → List Nat → Option State} (h : Memory.wf s)
    (hf : ∀ t a, Memory.wf t → ∀ z, f t a = some z → Memory.wf z) : ∀ z, tryRectangles s p w h' f = some z → Memory.wf z := by
  intro z hz
  obtain ⟨cs, -, hz⟩ := List.exists_of_findSome?_eq_some hz
  exact hf _ cs (memory_wf_drawOracle h) z hz

theorem memory_wf_placeCluster {d clid cs} (h : Memory.wf s) : ∀ z, placeCluster d clid s cs = some z → Memory.wf z :=
  foldl_bind_keeps (P := fun t => Memory.wf t = true) (fun _ _ h => memory_wf_placeTeam h) _ h

theorem memory_wf_launchNext {disp} (h : Memory.wf s) : ∀ z, launchNext s disp = some z → Memory.wf z := by
  fun_cases launchNext s disp
  case case4 =>
    intro z hz
    obtain ⟨u, hu, rfl⟩ := Option.map_eq_some_iff.mp hz
    exact memory_wf_modDisp (memory_wf_same (memory_wf_tryRectangles h (fun _ _ h => memory_wf_placeCluster h) u hu))
  all_goals rintro z ⟨⟩

@[simp] theorem stepKeeps_execTeamLaunch {disp} (h : Memory.wf s) : StepKeeps (execTeamLaunch disp s) :=
  stepKeeps_event (fun _ h => by grind -linarith [→ memory_wf_launchNext, memory_wf_getD]) h

/-! ### Local memory and priorities -/

@[simp] theorem stepKeeps_execLoc {f} (h : Memory.wf s) : StepKeeps (execLoc f s) := stepKeeps_issue h fun _ _ h => memory_wf_perLane h

theorem memory_wf_physRuns {x va n} (h : Memory.wf s) : Memory.wf (physRuns s x va n).1 := by
  fun_cases physRuns s x va n <;> grind -linarith [memory_wf_xlateRun]

theorem memory_wf_sweepRuns {p runs} {f : State → Partition → ℕ × ℕ → State} (h : Memory.wf s) (hf : ∀ t p a, Memory.wf t → Memory.wf (f t p a)) :
    Memory.wf (sweepRuns s p runs f).2 := by
  fun_cases sweepRuns s p runs f
  grind -linarith [memory_wf_settleSlots, memory_wf_foldl]

theorem memory_wf_cwbOp {x y} {f : State → Partition → ℕ × ℕ → State} (h : Memory.wf s) (hf : ∀ t p a, Memory.wf t → Memory.wf (f t p a)) : Memory.wf
    (cwbOp x s y f).state :=
  memory_wf_groupWide h fun _ h => memory_wf_withRelease h (fun _ h => by grind -linarith [IRes.state, memory_wf_acquireNow, memory_wf_raiseErr,
    memory_wf_doneWith, memory_wf_sweepRuns, memory_wf_physRuns])

@[simp] theorem stepKeeps_execCwb {y} (h : Memory.wf s) : StepKeeps (execCwb y s) :=
  stepKeeps_issue h fun _ _ h => memory_wf_cwbOp h (fun _ _ _ h => memory_wf_writeBackFrom _ _ h)

@[simp] theorem stepKeeps_execCinv {y} (h : Memory.wf s) : StepKeeps (execCinv y s) :=
  stepKeeps_issue h fun _ _ h => memory_wf_cwbOp h (fun _ _ _ h => memory_wf_dropLine _ h)

theorem memory_wf_switchDomain {p gid t} (h : Memory.wf s) : Memory.wf (switchDomain s p gid t).1 := memory_wf_modPart (memory_wf_same h)

theorem memory_wf_domEnd {gid part val} (h : Memory.wf s) : Memory.wf (domEnd s gid part val) := by
  fun_cases domEnd s gid part val <;> grind -linarith [memory_wf_sweepSlots, memory_wf_modPart, memory_wf_releaseGroup, memory_wf_same]

@[simp] theorem stepKeeps_execDomSw {y} (h : Memory.wf s) : StepKeeps (execDomSw y s) :=
  stepKeeps_issue h fun _ _ h => memory_wf_groupWide h (fun _ h => memory_wf_withRelease h (fun _ h => by grind -linarith [IRes.state,
    memory_wf_acquireNow, memory_wf_raiseErr, memory_wf_noteBad, memory_wf_correctPlaces, memory_wf_doneWith, memory_wf_switchDomain]))

@[simp] theorem stepKeeps_execSweepWaitRelease {grp seq} (h : Memory.wf s) : StepKeeps (execSweepWaitRelease grp seq s) :=
  stepKeeps_event (fun _ h => by grind -linarith [memory_wf_storeAck, memory_wf_sliceAccess, memory_wf_settleSlots]) h

theorem memory_wf_drainDie {d} (h : Memory.wf s) : Memory.wf (drainDie s d) := memory_wf_foldl (fun _ _ h => memory_wf_drainGroup h) _ h

@[simp] theorem stepKeeps_execRouteSw {y} (h : Memory.wf s) : StepKeeps (execRouteSw y s) :=
  stepKeeps_issue h fun _ _ h => memory_wf_groupWide h (fun _ h => by grind -linarith [IRes.state, memory_wf_drainGroup, memory_wf_doneWith,
    memory_wf_modDie, memory_wf_drainDie])

theorem memory_wf_modModule {d e m f} (h : Memory.wf s) : Memory.wf (modModule s d e m f) := memory_wf_modDie h

@[simp] theorem stepKeeps_execFlitCrcResend {die edge module ok} (h : Memory.wf s) : StepKeeps (execFlitCrcResend die edge module ok s) :=
  stepKeeps_event (fun _ h => memory_wf_modModule h) h

@[simp] theorem stepKeeps_execModuleRetrain {die edge module trained} (h : Memory.wf s) : StepKeeps (execModuleRetrain die edge module trained s) :=
  stepKeeps_event (fun _ h => memory_wf_modModule h) h

@[simp] theorem stepKeeps_execModuleDisable {die edge module} (h : Memory.wf s) : StepKeeps (execModuleDisable die edge module s) :=
  stepKeeps_event (fun _ h => memory_wf_ite (memory_wf_notify (memory_wf_modModule h)) h) h

@[simp] theorem stepKeeps_execL1Eviction {core pa} (h : Memory.wf s) : StepKeeps (execL1Eviction core pa s) :=
  stepKeeps_event (fun _ h => by grind -linarith [memory_wf_modCore, memory_wf_writeBackFrom]) h

@[simp] theorem stepKeeps_execScrubberPass {loc} (h : Memory.wf s) : StepKeeps (execScrubberPass loc s) :=
  stepKeeps_event (fun _ h => memory_wf_ite (memory_wf_countUncorr h) (memory_wf_correctWord h)) h

/-! ### Recording a tape -/

theorem memory_wf_modTape {a1 f} (h : Memory.wf s) : Memory.wf (modTape s a1 f) := memory_wf_modDie h

theorem memory_wf_freeTape {a1} (h : Memory.wf s) : Memory.wf (freeTape s a1) := memory_wf_modDie h

theorem memory_wf_appendUnits {a1 us} (h : Memory.wf s) : Memory.wf (appendUnits s a1 us) := by
  fun_cases appendUnits s a1 us <;> grind -linarith [memory_wf_modTape]

theorem memory_wf_recordCmd {x y c lr} (h : Memory.wf s) : Memory.wf (recordCmd x y c lr s) := by
  fun_cases recordCmd x y c lr s <;> grind -linarith [memory_wf_appendUnits]

theorem memory_wf_unrecordWait {gid} (h : Memory.wf s) : Memory.wf (unrecordWait s gid) := by
  fun_cases unrecordWait s gid <;> grind -linarith [memory_wf_modTape]

theorem memory_wf_markUnrec {gid} (h : Memory.wf s) : Memory.wf (markUnrec s gid) := by
  fun_cases markUnrec s gid <;> grind -linarith [memory_wf_modTape]

theorem memory_wf_cmdPoint {gid opc} (h : Memory.wf s) : Memory.wf (cmdPoint s gid opc) :=
  memory_wf_ite (memory_wf_drainGroup h) (memory_wf_readPoint h)

theorem memory_wf_engineCmd {x y opc lr rel} {cmd : State → Issuer → CmdSpec → CRes} (h : Memory.wf s) (hcmd : ∀ t a a', Memory.wf t → Memory.wf (cmd
    t a a').state) : Memory.wf (engineCmd x s y opc lr rel cmd).state :=
  memory_wf_groupWide h fun _ h => memory_wf_relIf h (fun _ h => by grind -linarith [IRes.state, memory_wf_cmdPoint, memory_wf_cmdRes,
    memory_wf_recordCmd])

/-! ### The barrier instructions -/

theorem memory_wf_barErrRes (h : Memory.wf s) : Memory.wf (barErrRes s).state := h

theorem memory_wf_withBar {i c write reads} {k : State → BarRef → Bar → CRes} (h : Memory.wf s) (hk : ∀ t a a', Memory.wf t → Memory.wf (k t a
    a').state) : Memory.wf (withBar s i c write reads k).state := by
  fun_cases withBar s i c write reads k <;> grind -linarith [BarRes.state, CRes.state, IRes.state, memory_wf_resolveBar]

theorem memory_wf_barInit {i c} (h : Memory.wf s) : Memory.wf (barInit s i c).state :=
  memory_wf_withBar h fun _ _ _ h => by grind -linarith [CRes.state, IRes.state, memory_wf_barErrRes, memory_wf_trapBar, memory_wf_barWrite]

theorem memory_wf_barArrive {i c} (h : Memory.wf s) : Memory.wf (barArrive s i c).state :=
  memory_wf_withBar h fun _ _ _ h => by grind -linarith [CRes.state, IRes.state, memory_wf_barErrRes, memory_wf_barUpdate]

theorem memory_wf_barExpect {i c} (h : Memory.wf s) : Memory.wf (barExpect s i c).state :=
  memory_wf_withBar h fun _ _ _ h => by grind -linarith [CRes.state, IRes.state, memory_wf_barErrRes, memory_wf_barUpdate]

theorem memory_wf_barWait {i c} (h : Memory.wf s) : Memory.wf (barWait s i c).state :=
  memory_wf_withBar h fun _ _ _ h => by grind -linarith [CRes.state, IRes.state, memory_wf_barErrRes, memory_wf_acquireNow]

theorem memory_wf_barInval {i c} (h : Memory.wf s) : Memory.wf (barInval s i c).state :=
  memory_wf_withBar h fun _ _ _ h => memory_wf_trapBar (memory_wf_barWrite h)

@[simp] theorem stepKeeps_execBarInit {y} (h : Memory.wf s) : StepKeeps (execBarInit y s) :=
  stepKeeps_issue h fun _ _ h => memory_wf_engineCmd h (fun _ _ _ h => memory_wf_barInit h)

@[simp] theorem stepKeeps_execBarArrive {y} (h : Memory.wf s) : StepKeeps (execBarArrive y s) :=
  stepKeeps_issue h fun _ _ h => memory_wf_engineCmd h (fun _ _ _ h => memory_wf_barArrive h)

@[simp] theorem stepKeeps_execBarExpect {y} (h : Memory.wf s) : StepKeeps (execBarExpect y s) :=
  stepKeeps_issue h fun _ _ h => memory_wf_engineCmd h (fun _ _ _ h => memory_wf_barExpect h)

@[simp] theorem stepKeeps_execBarWait {y} (h : Memory.wf s) : StepKeeps (execBarWait y s) :=
  stepKeeps_issue h fun _ _ h => memory_wf_engineCmd h (fun _ _ _ h => memory_wf_barWait h)

@[simp] theorem stepKeeps_execBarInval {y} (h : Memory.wf s) : StepKeeps (execBarInval y s) :=
  stepKeeps_issue h fun _ _ h => memory_wf_engineCmd h (fun _ _ _ h => memory_wf_barInval h)

theorem memory_wf_barReads {ls} (h : Memory.wf s) : Memory.wf (barReads s ls) :=
  memory_wf_foldl (fun _ _ h => memory_wf_ite (memory_wf_correctPlaces h) h) _ h

@[simp] theorem stepKeeps_execBarTest {f} (h : Memory.wf s) : StepKeeps (execBarTest f s) :=
  stepKeeps_issue h fun _ _ h => by grind -linarith [ChkRes.state, IRes.state, memory_wf_anyLane, memory_wf_markUnrec, memory_wf_readPoint,
    memory_wf_checkLanes, memory_wf_drainOver, memory_wf_lostLanes, memory_wf_lostTrap, memory_wf_noteBad, memory_wf_barReads, memory_wf_modGroup,
    memory_wf_acquireNow, memory_wf_touchRead]

theorem memory_wf_presOp {x bit clear} (h : Memory.wf s) : Memory.wf (presOp x s bit clear).state := by
  fun_cases presOp x s bit clear <;> grind -linarith [IRes.state, memory_wf_modLine, memory_wf_modGroup, memory_wf_foldl]

@[simp] theorem stepKeeps_execPresQ {f} (h : Memory.wf s) : StepKeeps (execPresQ f s) := stepKeeps_issue h fun _ _ h => memory_wf_presOp h

@[simp] theorem stepKeeps_execPresF {f} (h : Memory.wf s) : StepKeeps (execPresF f s) := stepKeeps_issue h fun _ _ h => memory_wf_presOp h

@[simp] theorem stepKeeps_execPresClr {f} (h : Memory.wf s) : StepKeeps (execPresClr f s) := stepKeeps_issue h fun _ _ h => memory_wf_presOp h

theorem memory_wf_qfenceCmd {i c} (h : Memory.wf s) : Memory.wf (qfenceCmd s i c).state := by
  fun_cases qfenceCmd s i c <;> grind -linarith [CRes.state, IRes.state, memory_wf_modGroup, memory_wf_acquireNow]

@[simp] theorem stepKeeps_execQfence {y} (h : Memory.wf s) : StepKeeps (execQfence y s) :=
  stepKeeps_issue h fun _ _ h => memory_wf_engineCmd h (fun _ _ _ h => memory_wf_qfenceCmd h)

/-! ### Windows -/

theorem memory_wf_storeLineAt {t d p w line pa} (h : Memory.wf s) : Memory.wf (storeLineAt s t d p w line pa).state := by
  fun_cases storeLineAt s t d p w line pa <;> grind -linarith [WbRes.state, memory_wf_errorReply, memory_wf_settleSlots, memory_wf_countTraffic,
    memory_wf_sampleCore, memory_wf_correctLocs, memory_wf_carryBad, memory_wf_wrCoherent, memory_wf_modLine]

theorem memory_wf_writeBackWindow {t w line} (h : Memory.wf s) : Memory.wf (writeBackWindow s t w line).state := by
  fun_cases writeBackWindow s t w line <;> grind -linarith [WbRes.state, memory_wf_translate, memory_wf_storeLineAt, memory_wf_holdPage,
    memory_wf_same]

theorem memory_wf_writeBackHeld {t w line} (h : Memory.wf s) : Memory.wf (writeBackHeld s t w line).state := by
  fun_cases writeBackHeld s t w line <;> grind -linarith [WbRes.state, memory_wf_storeLineAt, memory_wf_writeBackWindow]

theorem memory_wf_writeBackOld {t w line} (h : Memory.wf s) : Memory.wf (writeBackOld s t w line) := by
  fun_cases writeBackOld s t w line <;> grind -linarith [WbRes.state, memory_wf_storeLineAt]

theorem memory_wf_writeBackAll {t w a3 a4} (h : Memory.wf s) : Memory.wf (writeBackAll s t w a3 a4).1 := by
  fun_induction writeBackAll s t w a3 a4 <;> grind -linarith [WbRes.state, memory_wf_writeBackWindow]

/-- The state with which a write-back stopped. -/
theorem memory_wf_writeBackAll_stop {t w ls n} (h : Memory.wf s) : ∀ r, (writeBackAll s t w ls n).2.2 = some r → Memory.wf r.state := by
  fun_induction writeBackAll s t w ls n <;> grind -linarith [WbRes.state, memory_wf_writeBackWindow]

theorem memory_wf_wmapOp {x y} (h : Memory.wf s) : Memory.wf (wmapOp x s y).state := by
  refine memory_wf_groupWide h fun s h => ?_
  have hd := memory_wf_markUnrec (gid := x.g.id) (memory_wf_drainGroup (gid := x.g.id) h)
  dsimp only
  split
  · exact hd
  split
  · exact memory_wf_raiseErr hd
  split
  · exact memory_wf_raiseErr hd
  split
  · grind -linarith [memory_wf_raiseErr, memory_wf_doneWith, memory_wf_modTeamOf, memory_wf_modLine, memory_wf_foldl]
  · exact memory_wf_raiseErr hd

@[simp] theorem stepKeeps_execWmap {y} (h : Memory.wf s) : StepKeeps (execWmap y s) := stepKeeps_issue h fun _ _ h => memory_wf_wmapOp h

theorem memory_wf_wflushOp {x y inv unmap} (h : Memory.wf s) : Memory.wf (wflushOp x s y inv unmap).state := by
  refine memory_wf_groupWide h fun s h => ?_
  dsimp only
  split
  · exact h
  refine memory_wf_withRelease (memory_wf_markUnrec h) fun s h => ?_
  have hq := memory_wf_acquireNow (gid := x.g.id) h
  split
  next t d _ _ =>
    split
    · exact memory_wf_doneWith hq
    next v _ =>
      split <;> rename_i hw
      · exact memory_wf_modWindow (memory_wf_writeBackAll_stop hq _ (congrArg (·.2.2) hw) : Memory.wf (WbRes.mig _).state)
      · have hf : Memory.wf (WbRes.fault _ _ _).state := memory_wf_writeBackAll_stop hq _ (congrArg (·.2.2) hw)
        split
        · exact memory_wf_endWith hf
        · exact memory_wf_raiseFault (memory_wf_modWindow hf)
      · have hb := congrArg Prod.fst hw ▸ memory_wf_writeBackAll hq
        refine memory_wf_doneWith ?_
        exact memory_wf_ite
          (memory_wf_modTeamOf (memory_wf_foldl (fun _ _ h => memory_wf_modLine h) _ (memory_wf_modWindow
            (memory_wf_ite (memory_wf_foldl (fun _ _ h => memory_wf_modLine h) _ hb) hb))))
          (memory_wf_modWindow (memory_wf_ite (memory_wf_foldl (fun _ _ h => memory_wf_modLine h) _ hb) hb))
  · exact hq

@[simp] theorem stepKeeps_execWunmap {y} (h : Memory.wf s) : StepKeeps (execWunmap y s) := stepKeeps_issue h fun _ _ h => memory_wf_wflushOp h

@[simp] theorem stepKeeps_execWflush {y} (h : Memory.wf s) : StepKeeps (execWflush y s) := stepKeeps_issue h fun _ _ h => memory_wf_wflushOp h

@[simp] theorem stepKeeps_execWindowEviction {core line} (h : Memory.wf s) : StepKeeps (execWindowEviction core line s) :=
  stepKeeps_event (fun _ h => by grind -linarith [WbRes.state, memory_wf_writeBackWindow]) h

/-! ### The caches of translations -/

theorem memory_wf_bumpEpochs {base is} (h : Memory.wf s) : Memory.wf (bumpEpochs s base is) := by
  fun_cases bumpEpochs s base is <;> grind -linarith [memory_wf_wrPa, memory_wf_foldl]

theorem memory_wf_smpcfgOp {x y bad} {f : ℕ → ℕ → ℕ → State → ℕ × State} (h : Memory.wf s) (hf : ∀ a a' a'' t, Memory.wf t → Memory.wf (f a a' a''
    t).2) : Memory.wf (smpcfgOp x s y bad f).state :=
  memory_wf_groupWide h fun _ h => by grind -linarith [IRes.state, memory_wf_raiseErr, memory_wf_doneWith]

@[simp] theorem stepKeeps_execSmpcfgConf {y} (h : Memory.wf s) : StepKeeps (execSmpcfgConf y s) :=
  stepKeeps_issue h fun _ _ h => memory_wf_smpcfgOp h (fun _ _ _ _ h => by grind -linarith [memory_wf_modSampler])

@[simp] theorem stepKeeps_execSmpcfgRing {y} (h : Memory.wf s) : StepKeeps (execSmpcfgRing y s) :=
  stepKeeps_issue h fun _ _ h => memory_wf_smpcfgOp h (fun _ _ _ _ h => by grind -linarith [memory_wf_modSampler])

@[simp] theorem stepKeeps_execSmpcfgAck {y} (h : Memory.wf s) : StepKeeps (execSmpcfgAck y s) :=
  stepKeeps_issue h fun _ _ h => memory_wf_smpcfgOp h (fun _ _ _ _ h => by grind -linarith [memory_wf_modSampler])

@[simp] theorem stepKeeps_execSmpcfgReset {y} (h : Memory.wf s) : StepKeeps (execSmpcfgReset y s) :=
  stepKeeps_issue h fun _ _ h => memory_wf_smpcfgOp h (fun _ _ _ _ h => by grind -linarith [memory_wf_modSampler])

@[simp] theorem stepKeeps_execSmpcfgStat {y} (h : Memory.wf s) : StepKeeps (execSmpcfgStat y s) :=
  stepKeeps_issue h fun _ _ h => memory_wf_smpcfgOp h (fun _ _ _ _ h => by grind -linarith )

@[simp] theorem stepKeeps_execAccessSample {die a} (h : Memory.wf s) : StepKeeps (execAccessSample die a s) :=
  stepKeeps_event (fun _ h => memory_wf_sampleAccess h) h

@[simp] theorem stepKeeps_execHotPagePendingPost {die} (h : Memory.wf s) : StepKeeps (execHotPagePendingPost die s) :=
  stepKeeps_event (fun _ h => memory_wf_hotPost h) h

@[simp] theorem stepKeeps_execLoadReply {grp seq errLanes} (h : Memory.wf s) : StepKeeps (execLoadReply grp seq errLanes s) :=
  stepKeeps_event (fun _ h => memory_wf_ite (memory_wf_returnFlight h) h) h

@[simp] theorem stepKeeps_execAtomicReturn {grp seq errLanes} (h : Memory.wf s) : StepKeeps (execAtomicReturn grp seq errLanes s) :=
  stepKeeps_event (fun _ h => memory_wf_ite (memory_wf_returnFlight h) h) h

@[simp] theorem stepKeeps_execStoreRegistrationAck {grp seq err} (h : Memory.wf s) : StepKeeps (execStoreRegistrationAck grp seq err s) :=
  stepKeeps_event (fun _ h => memory_wf_storeAck h) h

@[simp] theorem stepKeeps_execSliceAccess {grp seq} (h : Memory.wf s) : StepKeeps (execSliceAccess grp seq s) :=
  stepKeeps_event (fun _ h => memory_wf_sliceAccess h) h

/-! ### Acceptance of a dispatch -/

theorem memory_wf_doneEntry {q e} (h : Memory.wf s) : Memory.wf (doneEntry s q e) := memory_wf_modQueue h

theorem memory_wf_postRefused {part sub entry disp} (h : Memory.wf s) : Memory.wf (postRefused s part sub entry disp) := memory_wf_postRec _ _ _ _ h

theorem memory_wf_refuseTo {part sub entry disp} (h : Memory.wf s) : Memory.wf (refuseTo s part sub entry disp) := by
  fun_cases refuseTo s part sub entry disp <;> grind -linarith [memory_wf_postRefused, memory_wf_doneEntry, memory_wf_failCmd]

theorem memory_wf_requestSave {disp sc} (h : Memory.wf s) : Memory.wf (requestSave s disp sc) := memory_wf_same h

theorem memory_wf_preemptFor {victim disp} (h : Memory.wf s) : Memory.wf (preemptFor s victim disp) := by
  fun_cases preemptFor s victim disp <;> grind -linarith [memory_wf_requestSave, memory_wf_modDisp]

@[simp] theorem stepKeeps_execPreemptionRequest {disp scope} (h : Memory.wf s) : StepKeeps (execPreemptionRequest disp scope s) :=
  stepKeeps_event (fun _ h => by grind -linarith [memory_wf_modDisp, memory_wf_requestSave]) h

theorem memory_wf_taskQueueOk {d die} (h : Memory.wf s) : Memory.wf (taskQueueOk s d die).1 := by
  fun_cases taskQueueOk s d die <;> grind -linarith [memory_wf_readQueue]

theorem memory_wf_startDispatch {id} (h : Memory.wf s) : Memory.wf (startDispatch s id) := by
  fun_cases startDispatch s id <;> grind -linarith [memory_wf_preemptFor, memory_wf_modDisp]

theorem memory_wf_acceptSub {b} (h : Memory.wf s) : Memory.wf (acceptSub s b) := by
  fun_cases acceptSub s b <;> grind -linarith [memory_wf_rdVa, memory_wf_refuseTo, memory_wf_taskQueueOk, → memory_wf_wrVa, memory_wf_dropConst,
    memory_wf_startDispatch, memory_wf_getD, memory_wf_same]

@[simp] theorem stepKeeps_execDispatchAccept {sub} (h : Memory.wf s) : StepKeeps (execDispatchAccept sub s) :=
  stepKeeps_event (fun _ h => by grind -linarith [memory_wf_acceptSub, memory_wf_same]) h

theorem memory_wf_prepFault {d va cause} (h : Memory.wf s) : Memory.wf (prepFault s d va cause) := by
  fun_cases prepFault s d va cause
  grind -linarith [memory_wf_modDisp, memory_wf_postRec, memory_wf_same]

theorem memory_wf_refusePrepared {d} (h : Memory.wf s) : Memory.wf (refusePrepared s d) := memory_wf_refuseTo (memory_wf_same h)

@[simp] theorem stepKeeps_execLeasePreparation {disp} (h : Memory.wf s) : StepKeeps (execLeasePreparation disp s) :=
  stepKeeps_event (fun _ h => by grind -linarith [memory_wf_startDispatch, memory_wf_translate, memory_wf_modDisp, memory_wf_prepFault,
    memory_wf_refusePrepared]) h

/-! ### Copies -/

theorem memory_wf_engFill {c o n} (h : Memory.wf s) : Memory.wf (engFill s c o n).1 := by
  fun_cases engFill s c o n <;> grind -linarith [FillRes.state, memory_wf_fillLines]

theorem memory_wf_sampleRun {p c ty va n} (h : Memory.wf s) : Memory.wf (sampleRun s p c ty va n) :=
  memory_wf_ite h (memory_wf_foldl (fun _ _ h => memory_wf_sampleAccess h) _ h)

theorem memory_wf_engCheck {c write va n} (h : Memory.wf s) : Memory.wf (engCheck s c write va n).1 := by
  fun_cases engCheck s c write va n <;> grind -linarith [memory_wf_xlateRun]

theorem memory_wf_engXlate {c write va n} (h : Memory.wf s) : Memory.wf (engXlate s c write va n).1 := by
  fun_cases engXlate s c write va n <;> grind -linarith [memory_wf_engCheck, memory_wf_errorReply, memory_wf_sampleRun, memory_wf_settleSlots,
    memory_wf_countBlocks]

theorem memory_wf_engRead {c e n} (h : Memory.wf s) : Memory.wf (engRead s c e n).1 := by
  fun_cases engRead s c e n <;> grind -linarith [memory_wf_engFill, memory_wf_countUncorr, memory_wf_correctLocs, memory_wf_engXlate,
    memory_wf_correctPlaces]

theorem memory_wf_engWrite {c e bs} (h : Memory.wf s) : Memory.wf (engWrite s c e bs).1 := by
  fun_cases engWrite s c e bs <;> grind -linarith [memory_wf_engFill, memory_wf_wrLocal, memory_wf_engXlate, memory_wf_wrCoherent]

theorem memory_wf_startStep {c key} (h : Memory.wf s) : Memory.wf (startStep s c key) := memory_wf_modCmd h

theorem memory_wf_endStep {c} (h : Memory.wf s) : Memory.wf (endStep s c) := memory_wf_modCmd h

theorem memory_wf_nextElem {c} (h : Memory.wf s) : Memory.wf (nextElem s c).1 := memory_wf_modCmd h

theorem memory_wf_noteElem {c bs} (h : Memory.wf s) : Memory.wf (noteElem s c bs) := memory_wf_modCmd h

theorem memory_wf_stepRead {c va n} (h : Memory.wf s) : Memory.wf (stepRead s c va n).1 := by
  fun_cases stepRead s c va n <;> grind -linarith [memory_wf_nextElem, memory_wf_engRead, memory_wf_noteElem]

theorem memory_wf_stepWrite {c va bs} (h : Memory.wf s) : Memory.wf (stepWrite s c va bs).1 := by
  fun_cases stepWrite s c va bs <;> grind -linarith [memory_wf_nextElem, memory_wf_engWrite, memory_wf_noteElem]

theorem memory_wf_holdCmd {c cause va acc} (h : Memory.wf s) : Memory.wf (holdCmd s c cause va acc) := by
  fun_cases holdCmd s c cause va acc
  grind -linarith [memory_wf_modCmd, memory_wf_postRec, memory_wf_same]

theorem memory_wf_stopCmd {c e unwritten} (h : Memory.wf s) : Memory.wf (stopCmd s c e unwritten) := by
  fun_cases stopCmd s c e unwritten <;> grind -linarith [memory_wf_modCmd, memory_wf_failCmd, memory_wf_endWith, memory_wf_holdCmd]

theorem memory_wf_rebar {c} (h : Memory.wf s) : Memory.wf (rebar s c) := by
  fun_cases rebar s c <;> grind -linarith [memory_wf_translate, memory_wf_modCmd, memory_wf_stopCmd]

theorem memory_wf_freeCmd {id} (h : Memory.wf s) : Memory.wf (freeCmd s id) := by
  fun_cases freeCmd s id <;> grind -linarith [memory_wf_modCmd, memory_wf_rebar]

theorem memory_wf_barReady {c} (h : Memory.wf s) : Memory.wf (barReady s c).1 := by
  fun_cases barReady s c <;> grind -linarith [memory_wf_engFill]

theorem memory_wf_copyRun {c a1 a2} (h : Memory.wf s) : Memory.wf (copyRun c a1 a2 s).1 := by
  fun_induction copyRun c a1 a2 s <;> grind -linarith [memory_wf_engRead, memory_wf_engWrite]

theorem memory_wf_landCopy {c i} (h : Memory.wf s) : Memory.wf (landCopy s c i) := memory_wf_creditUpTo (memory_wf_modCmd h)

theorem memory_wf_performCopy {c} (h : Memory.wf s) : Memory.wf (performCopy s c) := by
  fun_cases performCopy s c <;> grind -linarith [memory_wf_copyRun, memory_wf_finishCmd, memory_wf_landCopy, memory_wf_stopCmd]

theorem memory_wf_readShape_ok {i a acc} (h : Memory.wf s) : ∀ z, readShape s i a acc = .ok z → Memory.wf z.1 := by
  fun_cases readShape s i a acc <;> grind -linarith [CRes.state, FillRes.state, IRes.state, memory_wf_fillLines, memory_wf_noteBad,
    memory_wf_correctLocs]

theorem memory_wf_readShape_error {i a acc} (h : Memory.wf s) : ∀ z, readShape s i a acc = .error z → Memory.wf z.state := by
  fun_cases readShape s i a acc <;> grind -linarith [CRes.state, FillRes.state, IRes.state, memory_wf_fillLines, memory_wf_noteBad,
    memory_wf_correctLocs]

theorem memory_wf_cmdBar {i c} (h : Memory.wf s) : Memory.wf (cmdBar s i c).state := by
  fun_cases cmdBar s i c <;> grind -linarith [BarRes.state, CRes.state, memory_wf_resolveBar]

theorem memory_wf_issueCmd {i spec mk} (h : Memory.wf s) : Memory.wf (issueCmd s i spec mk).state := by
  fun_cases issueCmd s i spec mk <;> grind -linarith [BarRes.state, CRes.state, IRes.state, memory_wf_cmdBar, memory_wf_enqueueCmd]

theorem memory_wf_linearCmd {i c} (h : Memory.wf s) : Memory.wf (linearCmd s i c).state := by
  fun_cases linearCmd s i c <;> grind -linarith [BarRes.state, CRes.state, IRes.state, memory_wf_cmdBar, memory_wf_issueCmd]

theorem memory_wf_tensorCmd {i c} (h : Memory.wf s) : Memory.wf (tensorCmd s i c).state := by
  fun_cases tensorCmd s i c <;> grind -linarith [CRes.state, IRes.state, → memory_wf_readShape_ok, → memory_wf_readShape_error, memory_wf_issueCmd]

theorem memory_wf_copyCmd {i c} (h : Memory.wf s) : Memory.wf (copyCmd s i c).state := by
  fun_cases copyCmd s i c <;> grind -linarith [CRes.state, IRes.state, memory_wf_tensorCmd, memory_wf_linearCmd]

@[simp] theorem stepKeeps_execCpG2l {y} (h : Memory.wf s) : StepKeeps (execCpG2l y s) :=
  stepKeeps_issue h fun _ _ h => memory_wf_engineCmd h (fun _ _ _ h => memory_wf_copyCmd h)

@[simp] theorem stepKeeps_execCpL2g {y} (h : Memory.wf s) : StepKeeps (execCpL2g y s) :=
  stepKeeps_issue h fun _ _ h => memory_wf_engineCmd h (fun _ _ _ h => memory_wf_copyCmd h)

@[simp] theorem stepKeeps_execCpG2g {y} (h : Memory.wf s) : StepKeeps (execCpG2g y s) :=
  stepKeeps_issue h fun _ _ h => memory_wf_engineCmd h (fun _ _ _ h => memory_wf_copyCmd h)

@[simp] theorem stepKeeps_execCpL2l {y} (h : Memory.wf s) : StepKeeps (execCpL2l y s) :=
  stepKeeps_issue h fun _ _ h => memory_wf_engineCmd h (fun _ _ _ h => memory_wf_copyCmd h)

@[simp] theorem stepKeeps_execCpT2l {y} (h : Memory.wf s) : StepKeeps (execCpT2l y s) :=
  stepKeeps_issue h fun _ _ h => memory_wf_engineCmd h (fun _ _ _ h => memory_wf_copyCmd h)

@[simp] theorem stepKeeps_execCpL2t {y} (h : Memory.wf s) : StepKeeps (execCpL2t y s) :=
  stepKeeps_issue h fun _ _ h => memory_wf_engineCmd h (fun _ _ _ h => memory_wf_copyCmd h)

/-! ### Collectives -/

theorem memory_wf_collCmd {i c} (h : Memory.wf s) : Memory.wf (collCmd s i c).state := by
  have hc (f) := memory_wf_issueCmd (i := i) (spec := c) (mk := f) h
  fun_cases collCmd s i c
  case case10 ht =>
    have ht := congrArg CRes.state ht ▸ hc _
    exact memory_wf_same ht
  case case11 => exact hc _
  all_goals exact h

@[simp] theorem stepKeeps_execColl {y} (h : Memory.wf s) : StepKeeps (execColl y s) :=
  stepKeeps_issue h fun _ _ h => memory_wf_engineCmd h (fun _ _ _ h => memory_wf_collCmd h)

theorem memory_wf_startColl {c peers} (h : Memory.wf s) : Memory.wf (startColl s c peers) := by
  fun_cases startColl s c peers <;> grind -linarith [memory_wf_failCmd, memory_wf_engRead, memory_wf_stopCmd, memory_wf_engWrite, memory_wf_finishCmd]

@[simp] theorem stepKeeps_execCollStart {cmd peers} (h : Memory.wf s) : StepKeeps (execCollStart cmd peers s) :=
  stepKeeps_event (fun _ h => by grind -linarith [memory_wf_failCmd, memory_wf_startColl]) h

/-! ### Tiles of the matrix units -/

theorem memory_wf_modHandle {g n f} (h : Memory.wf s) : Memory.wf (modHandle s g n f) := memory_wf_modTeamOf h

theorem memory_wf_handlePage {x c write n va} (h : Memory.wf s) : Memory.wf (handlePage s x c write n va).1 := by
  fun_cases handlePage s x c write n va <;> grind -linarith [memory_wf_translate, memory_wf_modHandle]

theorem memory_wf_tileXlate {x c write a3 a5 a6} (h : Memory.wf s) : Memory.wf (tileXlate x c write a3 s a5 a6).1 := by
  fun_induction tileXlate x c write a3 s a5 a6 <;> grind -linarith [memory_wf_handlePage]

theorem memory_wf_tilesXlate {x c write a3 a5 a6} (h : Memory.wf s) : Memory.wf (tilesXlate x c write a3 s a5 a6).1 := by
  fun_induction tilesXlate x c write a3 s a5 a6 <;> grind -linarith [memory_wf_tileXlate]

theorem memory_wf_settleTiles {p ts} (h : Memory.wf s) : Memory.wf (settleTiles s p ts) := memory_wf_settleSlots _ _ h

theorem memory_wf_drainTiles {g p ts} (h : Memory.wf s) : Memory.wf (drainTiles s g p ts) := by
  fun_cases drainTiles s g p ts <;> grind -linarith [memory_wf_drainOver]

theorem memory_wf_tilesLost {ts} (h : Memory.wf s) : Memory.wf (tilesLost s ts).2 :=
  foldl_keeps (P := fun r : List Tile × State => Memory.wf r.2) (fun r k h => by grind -linarith [memory_wf_errorReply]) ts h

theorem memory_wf_checkTiles {x write ts} (h : Memory.wf s) : Memory.wf (checkTiles s x write ts).state := by
  have hs {t : State} (h : Memory.wf t) {acc es} {r : IRes} (hr : (firstErr es).map (fun (e, ls) =>
      if e.kind = kMEMERR ∧ e.cause = 1 then
        IRes.trap t { kind := kMEMERR, cause := 1, mask := x.act, daddr := BitVec.ofNat 64 e.daddr, acc := acc,
                      extra := BitVec.ofNat 64 (failedKind t x 1 e.daddr) }
      else raiseErr t x acc (ls.headD 0) e x.act) = some r) : Memory.wf r.state := by
    obtain ⟨e, -, rfl⟩ := Option.map_eq_some_iff.mp hr
    dsimp only
    split
    · exact h
    · exact memory_wf_raiseErr h
  fun_cases checkTiles s x write ts
  case case1 hr => exact hs h hr
  all_goals clear hs
  all_goals grind -linarith [FillAll.state, IRes.state, TileRes.state, memory_wf_raiseErr, memory_wf_fillAll, memory_wf_tilesXlate, memory_wf_settleTiles,
    memory_wf_drainTiles, memory_wf_tilesLost, memory_wf_noteBad, memory_wf_correctLocs]

theorem memory_wf_sampleTiles {x ty ts} (h : Memory.wf s) : Memory.wf (sampleTiles s x ty ts) :=
  memory_wf_foldl (fun _ _ h => memory_wf_ite (memory_wf_foldl (fun _ _ h => memory_wf_sampleAccess h) _ h) h) _ h

theorem memory_wf_pendRun {x p tab va bs} (h : Memory.wf s) : Memory.wf (pendRun s x p tab va bs) :=
  memory_wf_ite h (memory_wf_foldl (fun _ _ h => memory_wf_pendStore h) _ h)

theorem memory_wf_writeTile {x p tab t xs} (h : Memory.wf s) : Memory.wf (writeTile s x p tab t xs) := by
  refine memory_wf_foldl (fun s e h => ?_) _ h
  dsimp only
  split
  · exact h
  split
  · exact memory_wf_pendRun h
  · exact foldl_keeps (P := fun r : State × Nat => Memory.wf r.1) (fun _ _ h => memory_wf_wrLocal h) _ h

theorem memory_wf_correctAcc {core ns} (h : Memory.wf s) : Memory.wf (correctAcc s core ns) := memory_wf_correctWhere h

theorem memory_wf_healSlot {core n tacc} (h : Memory.wf s) : Memory.wf (healSlot s core n tacc) := memory_wf_same h

theorem memory_wf_putSlot {core n tacc els sides} (h : Memory.wf s) : Memory.wf (putSlot s core n tacc els sides) := memory_wf_modCore h

theorem memory_wf_performStaged {core st} (h : Memory.wf s) : Memory.wf (performStaged s core st) := by
  fun_cases performStaged s core st <;> grind -linarith [memory_wf_putSlot, memory_wf_healSlot, memory_wf_modGroup, memory_wf_foldl]

theorem memory_wf_arrayStep {core} (h : Memory.wf s) : Memory.wf (arrayStep s core) := by
  fun_cases arrayStep s core <;> grind -linarith [memory_wf_performStaged, memory_wf_modCore]

theorem memory_wf_drainArrayFuel {core a1} (h : Memory.wf s) : Memory.wf (drainArrayFuel core a1 s) := by
  fun_induction drainArrayFuel core a1 s <;> grind -linarith [memory_wf_arrayStep]

theorem memory_wf_drainArray {core} (h : Memory.wf s) : Memory.wf (drainArray s core) := memory_wf_drainArrayFuel h

/-! ### The matrix units -/

theorem memory_wf_regTrap {x c} (h : Memory.wf s) : Memory.wf (regTrap x s c).state := h

theorem memory_wf_accTrap {x} (h : Memory.wf s) : Memory.wf (accTrap x s).state := h

theorem memory_wf_stageMul {x y opc frags} {k : State → Staged → IRes} (h : Memory.wf s) (hk : ∀ t a, Memory.wf t → Memory.wf (k t a).state) :
    Memory.wf (stageMul x s y opc frags k).state := by
  fun_cases stageMul x s y opc frags k <;> grind -linarith [IRes.state, TileRes.state, memory_wf_regTrap, memory_wf_checkTiles, memory_wf_accTrap,
    memory_wf_correctAcc, memory_wf_sampleTiles, memory_wf_touchRead]

theorem memory_wf_pushArray {core st} (h : Memory.wf s) : Memory.wf (pushArray s core st) := memory_wf_modCore h

theorem memory_wf_mulOp {y opc x} (h : Memory.wf s) : Memory.wf (mulOp y opc x s).state :=
  memory_wf_groupWide h fun _ h => memory_wf_stageMul (memory_wf_readPoint h) (fun _ _ h => memory_wf_pushArray h)

@[simp] theorem stepKeeps_execMma {y} (h : Memory.wf s) : StepKeeps (execMma y s) := by
  fun_cases execMma y s <;> grind -linarith [IRes.state, stepKeeps_issue, memory_wf_mulOp, stepKeeps_issueConv]

@[simp] theorem stepKeeps_execMmaSp {y} (h : Memory.wf s) : StepKeeps (execMmaSp y s) := stepKeeps_issueConv h fun _ _ h => memory_wf_mulOp h

@[simp] theorem stepKeeps_execArrayPerform {core} (h : Memory.wf s) : StepKeeps (execArrayPerform core s) :=
  stepKeeps_event (fun _ h => memory_wf_arrayStep h) h

theorem memory_wf_mmaTFail {x n cause} (h : Memory.wf s) : Memory.wf (mmaTFail x s n cause).state :=
  memory_wf_modTeamOf (memory_wf_foldl (fun _ _ h => memory_wf_modGroup h) _ (memory_wf_foldl (fun _ _ h => memory_wf_trapParked (memory_wf_modGroup
    h)) _ h))

theorem memory_wf_mmaTDone {x n st} (h : Memory.wf s) : Memory.wf (mmaTDone s x n st) :=
  memory_wf_acquireNow (memory_wf_foldl (fun _ _ h => memory_wf_releaseAcq h) _ (memory_wf_completeCv (memory_wf_foldl (fun _ _ h =>
    memory_wf_modGroup h) _ (memory_wf_drainArray (memory_wf_pushArray h)))))

theorem memory_wf_mmaTPerform {y n x ms} (h : Memory.wf s) : Memory.wf (mmaTPerform y n x s ms).state :=
  memory_wf_stageMul h fun _ _ h => memory_wf_mmaTDone h

theorem memory_wf_mmaTOp {y x} (h : Memory.wf s) : Memory.wf (mmaTOp y x s).state :=
  memory_wf_groupWide h fun _ h => by grind -linarith [IRes.state, memory_wf_withRelease, memory_wf_modGroup, memory_wf_mmaTFail,
    memory_wf_mmaTPerform, memory_wf_modTeamOf]

@[simp] theorem stepKeeps_execMmaT {y} (h : Memory.wf s) : StepKeeps (execMmaT y s) := stepKeeps_issueConv h fun _ _ h => memory_wf_mmaTOp h

theorem memory_wf_noteMstat {g f} (h : Memory.wf s) : Memory.wf (noteMstat s g f) := memory_wf_modGroup h

@[simp] theorem stepKeeps_execAzero {f} (h : Memory.wf s) : StepKeeps (execAzero f s) :=
  stepKeeps_issue h fun _ _ h => memory_wf_groupWide h (fun _ h => by grind -linarith [IRes.state, memory_wf_drainArray, memory_wf_regTrap,
    memory_wf_putSlot, memory_wf_healSlot])

@[simp] theorem stepKeeps_execAload {y} (h : Memory.wf s) : StepKeeps (execAload y s) :=
  stepKeeps_issue h fun _ _ h => memory_wf_groupWide h (fun _ h => by grind -linarith [IRes.state, TileRes.state, memory_wf_drainArray,
    memory_wf_readPoint, memory_wf_regTrap, memory_wf_checkTiles, memory_wf_sampleTiles, memory_wf_touchRead, memory_wf_noteMstat, memory_wf_putSlot,
    memory_wf_healSlot])

theorem memory_wf_astorePoint {x glob} (h : Memory.wf s) : Memory.wf (astorePoint s x glob) :=
  memory_wf_drainArray (memory_wf_ite h (memory_wf_drainForWrite h))

@[simp] theorem stepKeeps_execAstore {y} (h : Memory.wf s) : StepKeeps (execAstore y s) :=
  stepKeeps_issue h fun _ _ h => memory_wf_groupWide h (fun _ h => by grind -linarith [IRes.state, TileRes.state, memory_wf_astorePoint,
    memory_wf_regTrap, memory_wf_checkTiles, memory_wf_accTrap, memory_wf_correctAcc, memory_wf_noteMstat, memory_wf_writeTile,
    memory_wf_sampleTiles])

theorem memory_wf_areadOp {y x} (h : Memory.wf s) : Memory.wf (areadOp y x s).state :=
  memory_wf_groupWide h fun _ h => by grind -linarith [IRes.state, memory_wf_drainArray, memory_wf_regTrap, memory_wf_accTrap, memory_wf_correctAcc,
    memory_wf_noteMstat, memory_wf_modGroup]

@[simp] theorem stepKeeps_execAread {y} (h : Memory.wf s) : StepKeeps (execAread y s) := stepKeeps_issueConv h fun _ _ h => memory_wf_areadOp h

theorem memory_wf_awriteOp {y x} (h : Memory.wf s) : Memory.wf (awriteOp y x s).state :=
  memory_wf_groupWide h fun _ h => by grind -linarith [IRes.state, memory_wf_drainArray, memory_wf_regTrap, memory_wf_noteMstat, memory_wf_putSlot,
    memory_wf_healSlot]

@[simp] theorem stepKeeps_execAwrite {y} (h : Memory.wf s) : StepKeeps (execAwrite y s) := stepKeeps_issueConv h fun _ _ h => memory_wf_awriteOp h

@[simp] theorem stepKeeps_execOmap {y} (h : Memory.wf s) : StepKeeps (execOmap y s) :=
  stepKeeps_issue h fun _ _ h => memory_wf_groupWide h (fun _ h => by grind -linarith [IRes.state, memory_wf_modTeamOf])

@[simp] theorem stepKeeps_execThdl {y} (h : Memory.wf s) : StepKeeps (execThdl y s) :=
  stepKeeps_issue h fun _ _ h => memory_wf_groupWide h (fun _ h => by grind -linarith [IRes.state, memory_wf_modTeamOf])

@[simp] theorem stepKeeps_execMstRd {f} (h : Memory.wf s) : StepKeeps (execMstRd f s) :=
  stepKeeps_issue h fun _ _ h => memory_wf_groupWide h (fun _ h => memory_wf_doneWith (memory_wf_drainArray h))

@[simp] theorem stepKeeps_execMstClr {f} (h : Memory.wf s) : StepKeeps (execMstClr f s) :=
  stepKeeps_issue h fun _ _ h => memory_wf_groupWide h (fun _ h => memory_wf_modGroup (memory_wf_drainArray h))

/-! ### `launch` -/

theorem memory_wf_launchCmd {i c} (h : Memory.wf s) : Memory.wf (launchCmd s i c).state := by
  fun_cases launchCmd s i c <;> grind -linarith [CRes.state, IRes.state, memory_wf_issueCmd]

@[simp] theorem stepKeeps_execLaunch {y} (h : Memory.wf s) : StepKeeps (execLaunch y s) :=
  stepKeeps_issue h fun _ _ h => memory_wf_engineCmd h (fun _ _ _ h => memory_wf_launchCmd h)

theorem memory_wf_performLaunch {c} (h : Memory.wf s) : Memory.wf (performLaunch s c) := by
  fun_cases performLaunch s c <;> grind -linarith [memory_wf_engXlate, memory_wf_stopCmd, memory_wf_modCmd, memory_wf_acceptSub]

/-! ### Dicing and bins -/

theorem memory_wf_sampErr {i as} (h : Memory.wf s) : ∀ z, sampErr s i as = some z → Memory.wf z.state := by
  unfold sampErr
  split
  · rintro z ⟨⟩; exact h
  · intro z hz
    obtain ⟨a, -, rfl⟩ := Option.map_eq_some_iff.mp hz
    exact h

theorem memory_wf_sampCmd {as i c} (h : Memory.wf s) : Memory.wf (sampCmd as s i c).state := by
  fun_cases sampCmd as s i c <;> grind -linarith [CRes.state, IRes.state, → memory_wf_sampErr, memory_wf_issueCmd]

theorem memory_wf_diceCmd {i c} (h : Memory.wf s) : Memory.wf (diceCmd s i c).state := memory_wf_sampCmd h

theorem memory_wf_emitCmd {i c} (h : Memory.wf s) : Memory.wf (emitCmd s i c).state := memory_wf_sampCmd h

theorem memory_wf_beginCmd {i c} (h : Memory.wf s) : Memory.wf (beginCmd s i c).state := memory_wf_sampCmd h

theorem memory_wf_endCmd {i c} (h : Memory.wf s) : Memory.wf (endCmd s i c).state := memory_wf_sampCmd h

theorem memory_wf_resCmd {i c} (h : Memory.wf s) : Memory.wf (resCmd s i c).state := memory_wf_sampCmd h

@[simp] theorem stepKeeps_execDice {y} (h : Memory.wf s) : StepKeeps (execDice y s) :=
  stepKeeps_issue h fun _ _ h => memory_wf_engineCmd h (fun _ _ _ h => memory_wf_diceCmd h)

@[simp] theorem stepKeeps_execGridEmit {y} (h : Memory.wf s) : StepKeeps (execGridEmit y s) :=
  stepKeeps_issue h fun _ _ h => memory_wf_engineCmd h (fun _ _ _ h => memory_wf_emitCmd h)

@[simp] theorem stepKeeps_execSmpBegin {y} (h : Memory.wf s) : StepKeeps (execSmpBegin y s) :=
  stepKeeps_issue h fun _ _ h => memory_wf_engineCmd h (fun _ _ _ h => memory_wf_beginCmd h)

@[simp] theorem stepKeeps_execSmpEnd {y} (h : Memory.wf s) : StepKeeps (execSmpEnd y s) :=
  stepKeeps_issue h fun _ _ h => memory_wf_engineCmd h (fun _ _ _ h => memory_wf_endCmd h)

@[simp] theorem stepKeeps_execSmpRes {y} (h : Memory.wf s) : StepKeeps (execSmpRes y s) :=
  stepKeeps_issue h fun _ _ h => memory_wf_engineCmd h (fun _ _ _ h => memory_wf_resCmd h)

theorem memory_wf_sampFail {c n} (h : Memory.wf s) : Memory.wf (sampFail s c n) := memory_wf_failCmd h

theorem memory_wf_putPieces {c k a2 a3 a4 a5} (h : Memory.wf s) : Memory.wf (putPieces c k a2 a3 a4 a5 s).1 := by
  fun_induction putPieces c k a2 a3 a4 a5 s <;> grind -linarith [memory_wf_engWrite]

theorem memory_wf_readPatch {c} (h : Memory.wf s) : Memory.wf (readPatch s c).1 := by
  fun_cases readPatch s c <;> grind -linarith [memory_wf_engRead]

theorem memory_wf_writeGrid {c} (h : Memory.wf s) : Memory.wf (writeGrid s c) := by
  fun_cases writeGrid s c <;> grind -linarith [memory_wf_putPieces, memory_wf_stopCmd, memory_wf_modCmd, memory_wf_finishCmd, memory_wf_modSession]

theorem memory_wf_performDice {c} (h : Memory.wf s) : Memory.wf (performDice s c) := by
  fun_cases performDice s c <;> grind -linarith [memory_wf_writeGrid, memory_wf_sampFail, memory_wf_readPatch, memory_wf_stopCmd, memory_wf_modCmd]

theorem memory_wf_refsReady {c a1} (h : Memory.wf s) : Memory.wf (refsReady c a1 s).1 := by
  fun_induction refsReady c a1 s <;> grind -linarith [memory_wf_engCheck]

theorem memory_wf_appendRefs {c sid bins} (h : Memory.wf s) : Memory.wf (appendRefs s c sid bins) :=
  memory_wf_foldl (fun _ _ h => memory_wf_modSession (memory_wf_engWrite h)) _ h

theorem memory_wf_performEmit {c} (h : Memory.wf s) : Memory.wf (performEmit s c) := by
  fun_cases performEmit s c <;> grind -linarith [memory_wf_startStep, memory_wf_sampFail, memory_wf_stepRead, memory_wf_stopCmd, memory_wf_finishCmd,
    memory_wf_modSession, memory_wf_refsReady, memory_wf_appendRefs]

theorem memory_wf_cmdSeed {c} (h : Memory.wf s) : Memory.wf (cmdSeed s c).2 := by
  fun_cases cmdSeed s c <;> grind -linarith [memory_wf_drawFree]

theorem memory_wf_performBegin {c} (h : Memory.wf s) : Memory.wf (performBegin s c) := by
  fun_cases performBegin s c <;> grind -linarith [memory_wf_sampFail, memory_wf_engRead, memory_wf_stopCmd, memory_wf_cmdSeed, memory_wf_finishCmd,
    memory_wf_modSession]

theorem memory_wf_performEnd {c} (h : Memory.wf s) : Memory.wf (performEnd s c) := by
  fun_cases performEnd s c <;> grind -linarith [memory_wf_modCmd, memory_wf_sampFail, memory_wf_modSession]

theorem memory_wf_setBin {sid b v} (h : Memory.wf s) : Memory.wf (setBin s sid b v) := memory_wf_modSession h

theorem memory_wf_stopBin {c sid e} (h : Memory.wf s) : Memory.wf (stopBin s c sid e) :=
  memory_wf_ite (memory_wf_stopCmd h) (memory_wf_modSession (memory_wf_stopCmd h))

theorem memory_wf_emptyRows {c d x0 w a4} (h : Memory.wf s) : Memory.wf (emptyRows c d x0 w a4 s).1 := by
  fun_induction emptyRows c d x0 w a4 s <;> grind -linarith [memory_wf_stepWrite]

@[simp] theorem stepKeeps_execBinActivate {sid bin} (h : Memory.wf s) : StepKeeps (execBinActivate sid bin s) :=
  stepKeeps_event (fun _ h => by grind -linarith [memory_wf_startStep, memory_wf_emptyRows, memory_wf_stopBin, memory_wf_setBin, memory_wf_endStep]) h

theorem memory_wf_readGrid {c a home} (h : Memory.wf s) : Memory.wf (readGrid s c a home).1 := by
  fun_cases readGrid s c a home <;> grind -linarith [memory_wf_stepRead]

theorem memory_wf_readGrids {c a1 a3} (h : Memory.wf s) : Memory.wf (readGrids c a1 s a3).1 := by
  fun_induction readGrids c a1 s a3 <;> grind -linarith [memory_wf_readGrid]

theorem memory_wf_writeLists {c d a2} (h : Memory.wf s) : Memory.wf (writeLists c d a2 s).1 := by
  fun_induction writeLists c d a2 s <;> grind -linarith [memory_wf_stepWrite]

theorem memory_wf_commitBin {c sid b w dup} (h : Memory.wf s) : Memory.wf (commitBin s c sid b w dup) :=
  memory_wf_ite (memory_wf_finishCmd (memory_wf_modSession (memory_wf_modSession (memory_wf_setBin (memory_wf_endStep h))))) (memory_wf_modSession
    (memory_wf_setBin (memory_wf_endStep h)))

@[simp] theorem stepKeeps_execBinDone {sid bin} (h : Memory.wf s) : StepKeeps (execBinDone sid bin s) := by
  refine stepKeeps_event (fun s h => ?_) h
  dsimp only
  split
  · exact h
  split
  · exact h
  · grind -linarith [memory_wf_startStep, memory_wf_stepRead, memory_wf_stopBin, memory_wf_readGrids, memory_wf_writeLists, memory_wf_commitBin]

theorem memory_wf_pixelSum {c x px py a4 a6} (h : Memory.wf s) : Memory.wf (pixelSum c x px py a4 s a6).1 := by
  fun_induction pixelSum c x px py a4 s a6 <;> grind -linarith [memory_wf_stepRead]

theorem memory_wf_resolvePixels {c x a2 a3} (h : Memory.wf s) : Memory.wf (resolvePixels c x a2 a3 s).1 := by
  fun_induction resolvePixels c x a2 a3 s <;> grind -linarith [memory_wf_pixelSum, memory_wf_startStep, memory_wf_stepWrite, memory_wf_endStep]

theorem memory_wf_performRes {c} (h : Memory.wf s) : Memory.wf (performRes s c) := by
  fun_cases performRes s c <;> grind -linarith [memory_wf_sampFail, memory_wf_resolvePixels, memory_wf_stopCmd, memory_wf_modCmd,
    memory_wf_modSession, memory_wf_finishCmd]

@[simp] theorem stepKeeps_execStatRd {f} (h : Memory.wf s) : StepKeeps (execStatRd f s) :=
  stepKeeps_issue h fun _ _ h => by grind -linarith [IRes.state, memory_wf_perLane]

theorem memory_wf_killBins {grps} (h : Memory.wf s) : Memory.wf (killBins s grps) := memory_wf_same h

/-! ### Ray queries -/

theorem memory_wf_arenaRead {g va n} (h : Memory.wf s) : Memory.wf (arenaRead s g va n).1 := by
  fun_cases arenaRead s g va n <;> grind -linarith [memory_wf_xlateRun, memory_wf_drainOver, memory_wf_settleSlots, memory_wf_runLost,
    memory_wf_noteBad, memory_wf_plainLoad, memory_wf_correctPlaces, memory_wf_sampleCore, memory_wf_modGroup]

theorem memory_wf_keepFloor {g} (h : Memory.wf s) : Memory.wf (keepFloor g s) := memory_wf_modGroup h

theorem memory_wf_stackAt {g store r j} (h : Memory.wf s) : Memory.wf (stackAt s g store r j).1 := by
  fun_cases stackAt s g store r j <;> grind -linarith [FillRes.state, memory_wf_fillLines, memory_wf_noteBad, memory_wf_drainForWrite,
    memory_wf_correctLocs]

theorem memory_wf_stackRead {g r j} (h : Memory.wf s) : Memory.wf (stackRead s g r j).1 := by
  fun_cases stackRead s g r j <;> grind -linarith [memory_wf_stackAt]

theorem memory_wf_rqPush {g e} {x : State × Rq} (h : Memory.wf x.1) : ∀ z, rqPush g e x = .ok z → Memory.wf z.1 := by
  fun_cases rqPush g e x <;> grind -linarith [memory_wf_stackAt, memory_wf_wrLocal]

theorem memory_wf_rqPush2 {g first e f} {x : State × Rq} (h : Memory.wf x.1) : ∀ z, rqPush2 g first e f x = .ok z → Memory.wf z.1 := by
  cases first with
  | false => exact memory_wf_rqPush h
  | true =>
    intro z hz
    simp only [rqPush2, if_true] at hz
    split at hz
    next y hy => exact memory_wf_rqPush (memory_wf_rqPush h y hy) z hz
    next => cases hz

theorem memory_wf_instRecord {g r e} (h : Memory.wf s) : Memory.wf (instRecord s g r e).1 := by
  fun_cases instRecord s g r e <;> grind -linarith [memory_wf_arenaRead]

/-- Bytes that are read only where a condition says so. -/
theorem memory_wf_arenaRead_ite {g a n} {c : Prop} [Decidable c] {p : State × Except RqStop (List Byte)} (h : Memory.wf s)
    (hp : (if c then arenaRead s g a n else (s, .ok [])) = p) : Memory.wf p.1 := by
  subst hp
  split
  · exact memory_wf_arenaRead h
  · exact h

theorem memory_wf_visitNode {g r e} (h : Memory.wf s) : Memory.wf (visitState (visitNode s g r e)) := by
  have hi := memory_wf_instRecord (g := g) (r := r) (e := e) h
  fun_cases visitNode s g r e <;> rw [‹instRecord s g r e = _›] at hi
  case case1 => exact hi
  all_goals
    have ha := memory_wf_arenaRead (g := g) (va := arenaAt r e.off) (n := 128) hi
    rw [‹arenaRead _ g (arenaAt r e.off) 128 = _›] at ha
  case case2 => exact ha
  case case3 => exact ha
  all_goals have hk := memory_wf_arenaRead_ite ha ‹_›
  case case4 => exact hk
  case case5 => exact hk
  case case6 => exact hk
  case case7 hp => exact memory_wf_rqPush2 hk _ hp
  case case8 => exact hk

theorem memory_wf_leafRecords {g e blk inst skip cand n i r} (h : Memory.wf s) :
    ∀ z, leafRecords g e blk inst skip cand n i s r = .ok z → Memory.wf z.1 := by
  induction n generalizing i r with
  | zero => rintro z ⟨⟩; exact h
  | succ n ih =>
    intro z hz
    unfold leafRecords at hz
    dsimp only at hz
    split at hz
    · exact ih z hz
    split at hz
    · split at hz
      · exact ih z hz
      · obtain ⟨y, hy, rfl⟩ := exceptMap_eq_ok hz
        exact memory_wf_rqPush2 h y hy
    split at hz
    · exact ih z hz
    split at hz
    · exact ih z hz
    split at hz
    · split at hz
      · cases hz; exact h
      · exact ih z hz
    split at hz
    · cases hz; exact h
    · obtain ⟨y, hy, rfl⟩ := exceptMap_eq_ok hz
      exact memory_wf_rqPush h y hy

theorem memory_wf_visitLeaf {g r e skip cand} (h : Memory.wf s) : Memory.wf (visitState (visitLeaf s g r e skip cand)) := by
  have hi := memory_wf_instRecord (g := g) (r := r) (e := e) h
  fun_cases visitLeaf s g r e skip cand <;> rw [‹instRecord s g r e = _›] at hi
  case case1 => exact hi
  all_goals
    have ha := memory_wf_arenaRead (g := g) (va := arenaAt r e.off) (n := 16) hi
    rw [‹arenaRead _ g (arenaAt r e.off) 16 = _›] at ha
  case case2 => exact ha
  case case3 => exact ha
  case case4 => exact ha
  all_goals
    have hb (n) := memory_wf_arenaRead (g := g) (va := arenaAt r e.off + 16) (n := n) ha
    replace hb := congrArg Prod.fst ‹arenaRead _ g (arenaAt r e.off + 16) _ = _› ▸ hb _
  case case5 => exact hb
  case case6 hz => exact memory_wf_leafRecords hb _ hz
  case case7 => exact hb

theorem memory_wf_visit {g r} (h : Memory.wf s) : Memory.wf (visitState (visit s g r)) := by
  have hs := memory_wf_stackRead (g := g) (r := r) (j := rqDepth r - 1) h
  fun_cases visit s g r
  case case1 => exact h
  all_goals rw [‹stackRead s g r (rqDepth r - 1) = _›] at hs
  case case2 => exact hs
  case case3 => exact memory_wf_visitNode hs
  case case4 => exact memory_wf_visitLeaf hs
  case case5 => exact hs

theorem memory_wf_runLane {g lim n done r} (h : Memory.wf s) : Memory.wf (runLane g lim n done s r).1 := by
  fun_induction runLane g lim n done s r <;> grind -linarith [visitState, memory_wf_visit]

theorem memory_wf_rqLane {g budget made r} (h : Memory.wf s) : Memory.wf (rqLane g budget made s r).1 := by
  fun_cases rqLane g budget made s r <;> grind -linarith [memory_wf_runLane]

theorem memory_wf_runLanes {x q budget lease a4 a6} (h : Memory.wf s) : Memory.wf (runLanes x q budget lease a4 s a6).1 := by
  fun_induction runLanes x q budget lease a4 s a6 <;> grind -linarith [memory_wf_rqLane, memory_wf_keepFloor, memory_wf_modGroup]

theorem memory_wf_rqFail {x lease e acc m} (h : Memory.wf s) : Memory.wf (rqFail x s lease e acc m).state := by
  fun_cases rqFail x s lease e acc m <;> grind -linarith [IRes.state, memory_wf_raiseErr]

theorem memory_wf_rqRunOp {y x} (h : Memory.wf s) : Memory.wf (rqRunOp y x s).state :=
  memory_wf_groupWide h fun _ h => by grind -linarith [IRes.state, memory_wf_markUnrec, memory_wf_readPoint, memory_wf_runLanes, memory_wf_modGroup,
    memory_wf_rqFail, memory_wf_same]

@[simp] theorem stepKeeps_execRqRun {y} (h : Memory.wf s) : StepKeeps (execRqRun y s) := stepKeeps_issue h fun _ _ h => memory_wf_rqRunOp h

theorem memory_wf_rqInitLane {x q ls l} {t : State} (_ : Memory.wf s) (ht : Memory.wf t) : Memory.wf (rqInitLane x q s ls t l) := by
  fun_cases rqInitLane x q s ls t l <;> grind -linarith [memory_wf_modGroup, memory_wf_wrLocal]

@[simp] theorem stepKeeps_execRqInit {y} (h : Memory.wf s) : StepKeeps (execRqInit y s) :=
  stepKeeps_issue h fun _ _ h => by grind -linarith [ChkRes.state, IRes.state, memory_wf_raiseErr, memory_wf_checkLanes, memory_wf_rqInitLane,
    memory_wf_drainForWrite, memory_wf_foldl]

theorem memory_wf_rqEach {x q ok f} (h : Memory.wf s) : Memory.wf (rqEach x s q ok f).state := by
  fun_cases rqEach x s q ok f <;> grind -linarith [IRes.state, memory_wf_modGroup, memory_wf_foldl]

@[simp] theorem stepKeeps_execRqAcc {f} (h : Memory.wf s) : StepKeeps (execRqAcc f s) := stepKeeps_issue h fun _ _ h => memory_wf_rqEach h

@[simp] theorem stepKeeps_execRqRej {f} (h : Memory.wf s) : StepKeeps (execRqRej f s) := stepKeeps_issue h fun _ _ h => memory_wf_rqEach h

@[simp] theorem stepKeeps_execRqGet {f} (h : Memory.wf s) : StepKeeps (execRqGet f s) := stepKeeps_issue h fun _ _ h => memory_wf_perLane h

@[simp] theorem stepKeeps_execRqSet {f} (h : Memory.wf s) : StepKeeps (execRqSet f s) :=
  stepKeeps_issue h fun _ _ h => by grind -linarith [IRes.state, memory_wf_rqEach]

@[simp] theorem stepKeeps_execRqEnd {f} (h : Memory.wf s) : StepKeeps (execRqEnd f s) := stepKeeps_issue h fun _ _ h => memory_wf_rqEach h

/-! ### The radiance cache -/

theorem memory_wf_tableRead {g va n} (h : Memory.wf s) : Memory.wf (tableRead s g va n).1 := memory_wf_arenaRead h

theorem memory_wf_cornerFeats {g d v a3 a5 a6} (h : Memory.wf s) : Memory.wf (cornerFeats g d v a3 s a5 a6).1 := by
  fun_induction cornerFeats g d v a3 s a5 a6 <;> grind -linarith [memory_wf_tableRead]

theorem memory_wf_queryLane {g n w blk} (h : Memory.wf s) : Memory.wf (queryLane s g n w blk).1 := by
  fun_cases queryLane s g n w blk <;> grind -linarith [memory_wf_cornerFeats, memory_wf_noteBad, memory_wf_correctWhere]

theorem memory_wf_queryLanes {g n w base a4 a6 a7} (h : Memory.wf s) : Memory.wf (queryLanes g n w base a4 s a6 a7).1 := by
  fun_induction queryLanes g n w base a4 s a6 a7 <;> grind -linarith [memory_wf_queryLane]

theorem memory_wf_offerCheck {x va} (h : Memory.wf s) : Memory.wf (offerCheck s x va).1 := by
  fun_cases offerCheck s x va <;> grind -linarith [memory_wf_translate]

theorem memory_wf_offerLanes {x n a2 a4 a5} (h : Memory.wf s) : Memory.wf (offerLanes x n a2 s a4 a5).1 := by
  fun_induction offerLanes x n a2 s a4 a5 <;> grind -linarith [memory_wf_offerCheck]

theorem memory_wf_addPending {net k n} (h : Memory.wf s) : Memory.wf (addPending s net k n) := memory_wf_modNetwork h

theorem memory_wf_writeQuery {x w d taken out} (h : Memory.wf s) : Memory.wf (writeQuery x w d taken out s) := memory_wf_modGroup h

theorem memory_wf_queryStop {x es fs} (h : Memory.wf s) : ∀ z, queryStop x s es fs = some z → Memory.wf z.state := by
  fun_cases queryStop x s es fs <;> grind -linarith [IRes.state, memory_wf_raiseErr]

theorem memory_wf_queryOp {x y offers} {k : State → Network → ℕ → List (ℕ × List ℕ) → List (ℕ × ℕ × ℕ) → List (ℕ × ℕ) → IRes} (h : Memory.wf s) (hk :
    ∀ t a a' a'' a''' a'''', Memory.wf t → Memory.wf (k t a a' a'' a''' a'''').state) : Memory.wf (queryOp x s y offers k).state :=
  memory_wf_groupWide h fun _ h => by grind -linarith [IRes.state, memory_wf_modGroup, memory_wf_queryLanes, memory_wf_offerLanes,
    memory_wf_keepFloor, → memory_wf_queryStop, memory_wf_getD]

@[simp] theorem stepKeeps_execRcq {y} (h : Memory.wf s) : StepKeeps (execRcq y s) :=
  stepKeeps_issue h fun _ _ h => memory_wf_queryOp h (fun _ _ _ _ _ _ h => memory_wf_writeQuery h)

theorem memory_wf_sampleOffers {x n os} (h : Memory.wf s) : Memory.wf (sampleOffers s x n os) := by
  fun_cases sampleOffers s x n os <;> grind -linarith [memory_wf_sampleCore, memory_wf_foldl]

@[simp] theorem stepKeeps_execRct {y} (h : Memory.wf s) : StepKeeps (execRct y s) :=
  stepKeeps_issue h fun _ _ h => by grind -linarith [IRes.state, memory_wf_markUnrec, memory_wf_drainGroup, memory_wf_queryOp, memory_wf_addPending,
    memory_wf_sampleOffers, memory_wf_writeQuery, memory_wf_same]

theorem memory_wf_performOffer {net p pa bs} (h : Memory.wf s) : Memory.wf (performOffer s net p pa bs) :=
  memory_wf_ite (memory_wf_addPending (memory_wf_countUncorr (memory_wf_correctPlaces h))) (memory_wf_ite (memory_wf_wrCoherent _
    (memory_wf_correctPlaces h)) (memory_wf_addPending (memory_wf_correctPlaces h)))

theorem memory_wf_performOffers {c p} (h : Memory.wf s) : Memory.wf (performOffers s c p) :=
  memory_wf_foldl (fun _ _ h => memory_wf_performOffer h) _ h

theorem memory_wf_finishOffers {c} (h : Memory.wf s) : Memory.wf (finishOffers s c) := by
  fun_cases finishOffers s c <;> grind -linarith [memory_wf_modGroup, memory_wf_dropCmd, memory_wf_performOffers, memory_wf_exitIfDone,
    memory_wf_releaseGroup]

@[simp] theorem stepKeeps_execRctOffer {grp} (h : Memory.wf s) : StepKeeps (execRctOffer grp s) :=
  stepKeeps_event (fun _ h => by grind -linarith [memory_wf_finishOffers]) h

theorem memory_wf_rcSyncCmd {i c} (h : Memory.wf s) : Memory.wf (rcSyncCmd s i c).state := memory_wf_issueCmd h

@[simp] theorem stepKeeps_execRcSync {y} (h : Memory.wf s) : StepKeeps (execRcSync y s) :=
  stepKeeps_issue h fun _ _ h => memory_wf_engineCmd h (fun _ _ _ h => memory_wf_rcSyncCmd h)

theorem memory_wf_syncFail {c code} (h : Memory.wf s) : Memory.wf (syncFail s c code) := memory_wf_failCmd (memory_wf_ite h (memory_wf_modNetwork h))

theorem memory_wf_performSync {c} (h : Memory.wf s) : Memory.wf (performSync s c) := by
  fun_cases performSync s c <;> grind -linarith [memory_wf_syncFail, memory_wf_modNetwork, memory_wf_modCmd]

theorem memory_wf_wakeQueries {net} (h : Memory.wf s) : Memory.wf (wakeQueries s net) := memory_wf_same h

theorem memory_wf_faultNetwork {net} (h : Memory.wf s) : Memory.wf (faultNetwork s net) := by
  fun_cases faultNetwork s net
  grind -linarith [memory_wf_modNetwork, memory_wf_wakeQueries, memory_wf_same]

theorem memory_wf_stopTrain {c net e} (h : Memory.wf s) : Memory.wf (stopTrain s c net e) :=
  memory_wf_ite (memory_wf_stopCmd h) (memory_wf_faultNetwork (memory_wf_stopCmd h))

@[simp] theorem stepKeeps_execEquinoxTrain {net} (h : Memory.wf s) : StepKeeps (execEquinoxTrain net s) :=
  stepKeeps_event (fun _ h => memory_wf_ite h (memory_wf_modNetwork h)) h

theorem memory_wf_readSamples {c d win a3 a4 a6} (h : Memory.wf s) : Memory.wf (readSamples c d win a3 a4 s a6).1 := by
  fun_induction readSamples c d win a3 a4 s a6 <;> grind -linarith [memory_wf_stepRead]

theorem memory_wf_readMasters {c d a2 a4} (h : Memory.wf s) : Memory.wf (readMasters c d a2 s a4).1 := by
  fun_induction readMasters c d a2 s a4 <;> grind -linarith [memory_wf_stepRead]

theorem memory_wf_mastersReady {c d a2} (h : Memory.wf s) : Memory.wf (mastersReady c d a2 s).1 := by
  fun_induction mastersReady c d a2 s <;> grind -linarith [memory_wf_engCheck]

theorem memory_wf_applyStep {c net t gs} (h : Memory.wf s) : Memory.wf (applyStep s c net t gs) :=
  memory_wf_modNetwork (memory_wf_foldl (fun _ _ h => memory_wf_engWrite h) _ h)

theorem memory_wf_trainStep {c n} (h : Memory.wf s) : Memory.wf (trainStep s c n) := by
  fun_cases trainStep s c n <;> grind -linarith [memory_wf_stopTrain, memory_wf_countUncorr, memory_wf_correctWhere, memory_wf_modNetwork,
    memory_wf_endStep, memory_wf_startStep, memory_wf_readSamples, memory_wf_readMasters, memory_wf_mastersReady, memory_wf_applyStep, memory_wf_same]

@[simp] theorem stepKeeps_execEquinoxStep {net} (h : Memory.wf s) : StepKeeps (execEquinoxStep net s) :=
  stepKeeps_event (fun _ h => by grind -linarith [memory_wf_trainStep]) h

theorem memory_wf_publishMlp {net v} (h : Memory.wf s) : Memory.wf (publishMlp s net v) := by
  fun_cases publishMlp s net v
  grind -linarith [memory_wf_modNetwork, memory_wf_same]

theorem memory_wf_publishTab {c d v a3 a4} (h : Memory.wf s) : Memory.wf (publishTab c d v a3 a4 s).1 := by
  fun_induction publishTab c d v a3 a4 s <;> grind -linarith [memory_wf_engRead, memory_wf_engWrite]

@[simp] theorem stepKeeps_execPublication {net} (h : Memory.wf s) : StepKeeps (execPublication net s) :=
  stepKeeps_event (fun _ h => by grind -linarith [memory_wf_publishTab, memory_wf_stopTrain, memory_wf_modCmd, memory_wf_modNetwork,
    memory_wf_publishMlp, memory_wf_wakeQueries, memory_wf_finishCmd]) h

theorem memory_wf_saveEquinox {n} (h : Memory.wf s) : Memory.wf (saveEquinox s n) := by
  fun_cases saveEquinox s n <;> grind -linarith [→ memory_wf_wrVa, memory_wf_getD]

theorem memory_wf_areasReady {i c a2} (h : Memory.wf s) : Memory.wf (areasReady i c a2 s).1 := by
  fun_induction areasReady i c a2 s <;> grind -linarith [memory_wf_engCheck]

theorem memory_wf_initFeats {c d img a3 a4} (h : Memory.wf s) : Memory.wf (initFeats c d img a3 a4 s) := by
  fun_induction initFeats c d img a3 a4 s <;> grind -linarith [memory_wf_engWrite]

theorem memory_wf_attachNet {c net d wimg timg} (h : Memory.wf s) : Memory.wf (attachNet s c net d wimg timg) :=
  memory_wf_publishMlp (memory_wf_modNetwork (memory_wf_foldl (fun _ _ h => memory_wf_engWrite h) _ (memory_wf_initFeats (memory_wf_same h))))

theorem memory_wf_attachRun {i net va lease} (h : Memory.wf s) : Memory.wf (attachRun s i net va lease).1 := by
  fun_cases attachRun s i net va lease <;> grind -linarith [memory_wf_engRead, memory_wf_areasReady, memory_wf_attachNet]

@[simp] theorem stepKeeps_execRcCfgAttach {y} (h : Memory.wf s) : StepKeeps (execRcCfgAttach y s) :=
  stepKeeps_issue h fun _ _ h => memory_wf_groupWide h (fun _ h => by grind -linarith [IRes.state, memory_wf_drainGroup, memory_wf_attachRun,
    memory_wf_doneWith, memory_wf_modGroup, memory_wf_raiseFault])

@[simp] theorem stepKeeps_execRcCfgDetach {y} (h : Memory.wf s) : StepKeeps (execRcCfgDetach y s) :=
  stepKeeps_issue h fun _ _ h => memory_wf_groupWide h (fun _ h => by grind -linarith [IRes.state, memory_wf_drainGroup, memory_wf_doneWith,
    memory_wf_modNetwork])

@[simp] theorem stepKeeps_execRcCfgStat {y} (h : Memory.wf s) : StepKeeps (execRcCfgStat y s) :=
  stepKeeps_issue h fun _ _ h => memory_wf_groupWide h (fun _ h => by grind -linarith [IRes.state, memory_wf_doneWith])

/-! ### Retirement -/

theorem memory_wf_wbFail {t va cause} (h : Memory.wf s) : Memory.wf (wbFail s t va cause) :=
  memory_wf_notify (memory_wf_postRec _ _ _ _ (memory_wf_same h))

theorem memory_wf_retireWindows {again t} (h : Memory.wf s) : Memory.wf (retireWindows again s t) := by
  fun_cases retireWindows again s t
  grind -linarith [WbRes.state, memory_wf_modWindow, memory_wf_wbFail, memory_wf_writeBackWindow,
    memory_wf_foldl]

theorem memory_wf_pruneClusters (h : Memory.wf s) : Memory.wf (pruneClusters s) :=
  memory_wf_ite h (memory_wf_same (memory_wf_foldl (fun _ _ h => memory_wf_retireWindows h) _ h))

theorem memory_wf_retireGroup {gid} (h : Memory.wf s) : Memory.wf (retireGroup s gid) := by
  fun_cases retireGroup s gid <;> grind -linarith [memory_wf_retireMember, memory_wf_setGroup, memory_wf_retireWindows, memory_wf_pruneClusters]

@[simp] theorem stepKeeps_execGroupRetire {grp} (h : Memory.wf s) : StepKeeps (execGroupRetire grp s) :=
  stepKeeps_event (fun _ h => memory_wf_retireGroup h) h

theorem memory_wf_freeDispatch {d} (h : Memory.wf s) : Memory.wf (freeDispatch s d) := by
  fun_cases freeDispatch s d
  grind -linarith [memory_wf_same]

theorem memory_wf_storeSignal {q entry sig} (h : Memory.wf s) : Memory.wf (storeSignal s q entry sig) := by
  fun_cases storeSignal s q entry sig <;> grind -linarith [→ memory_wf_wrVa, memory_wf_postRefused]

theorem memory_wf_finishEntry {q entry sig} (h : Memory.wf s) : Memory.wf (finishEntry s q entry sig) := by
  fun_cases finishEntry s q entry sig <;> grind -linarith [memory_wf_modQueue, memory_wf_doneEntry, memory_wf_storeSignal]

theorem memory_wf_reportEnd {d} (h : Memory.wf s) : Memory.wf (reportEnd s d) := by
  fun_cases reportEnd s d <;> grind -linarith [memory_wf_finishEntry, memory_wf_finishCmd]

theorem memory_wf_endDispatch {disp} (h : Memory.wf s) : Memory.wf (endDispatch s disp) := by
  fun_cases endDispatch s disp <;> grind -linarith [memory_wf_reportEnd, memory_wf_freeDispatch]

@[simp] theorem stepKeeps_execDispatchEnd {disp} (h : Memory.wf s) : StepKeeps (execDispatchEnd disp s) :=
  stepKeeps_event (fun _ h => memory_wf_endDispatch (memory_wf_pruneClusters h)) h

/-! ### Replay of a tape -/

theorem memory_wf_tableBytes_ok {x va align n} (h : Memory.wf s) : ∀ z, tableBytes x s va align n = .ok z → Memory.wf z.1 := by
  fun_cases tableBytes x s va align n <;> grind -linarith [IRes.state, memory_wf_raiseErr, memory_wf_arenaRead, memory_wf_keepFloor]

theorem memory_wf_tableBytes_error {x va align n} (h : Memory.wf s) : ∀ z, tableBytes x s va align n = .error z → Memory.wf z.state := by
  fun_cases tableBytes x s va align n <;> grind -linarith [IRes.state, memory_wf_raiseErr, memory_wf_arenaRead, memory_wf_keepFloor]

theorem memory_wf_tapeOp {x die} {body : State → IRes} (h : Memory.wf s) (hbody : ∀ t, Memory.wf t → Memory.wf (body t).state) : Memory.wf (tapeOp x s
    die body).state :=
  memory_wf_groupWide h fun _ h => by grind -linarith [IRes.state, memory_wf_drainGroup]

@[simp] theorem stepKeeps_execTapeRec {y} (h : Memory.wf s) : StepKeeps (execTapeRec y s) :=
  stepKeeps_issue h fun _ _ h => memory_wf_tapeOp h (fun _ h => by grind -linarith [IRes.state, memory_wf_doneWith, → memory_wf_tableBytes_ok, →
    memory_wf_tableBytes_error, memory_wf_modDie, memory_wf_modGroup, memory_wf_getD])

@[simp] theorem stepKeeps_execTapeStop {f} (h : Memory.wf s) : StepKeeps (execTapeStop f s) :=
  stepKeeps_issue h fun _ _ h => memory_wf_tapeOp h (fun _ h => by grind -linarith [IRes.state, memory_wf_modGroup, memory_wf_doneWith,
    memory_wf_freeTape, memory_wf_modTape])

theorem memory_wf_guardRead {i va n} (h : Memory.wf s) : Memory.wf (guardRead s i va n).1 := by
  fun_cases guardRead s i va n <;> grind -linarith [memory_wf_xlateRun, memory_wf_settleSlots, memory_wf_runLost, memory_wf_noteBad,
    memory_wf_correctPlaces]

theorem memory_wf_epochRead {i a} (h : Memory.wf s) : Memory.wf (epochRead s i a).1 := by
  fun_cases epochRead s i a <;> grind -linarith [memory_wf_settleSlots, memory_wf_noteBad, memory_wf_correctPlaces]

theorem memory_wf_guardValue {i kind a} (h : Memory.wf s) : Memory.wf (guardValue s i kind a).1 := by
  fun_cases guardValue s i kind a <;> grind -linarith [CRes.state, IRes.state, memory_wf_guardRead, → memory_wf_readShape_ok, →
    memory_wf_readShape_error, memory_wf_epochRead]

theorem memory_wf_withTape {x a2 busy} {k : Tape → IRes} (h : Memory.wf s) (hk : ∀ a, Memory.wf (k a).state) : Memory.wf (withTape x s a2 busy
    k).state := by
  fun_cases withTape x s a2 busy k <;> grind -linarith [IRes.state, memory_wf_doneWith]

@[simp] theorem stepKeeps_execTapePatchSlot {y} (h : Memory.wf s) : StepKeeps (execTapePatchSlot y s) :=
  stepKeeps_issue h fun _ _ h => memory_wf_tapeOp h (fun _ h => by grind -linarith [IRes.state, memory_wf_withTape, memory_wf_doneWith,
    memory_wf_modTape])

theorem memory_wf_insertGuard {x y t v} (h : Memory.wf s) : Memory.wf (insertGuard x s y t v).state := by
  fun_cases insertGuard x s y t v <;> grind -linarith [IRes.state, memory_wf_doneWith, memory_wf_modTape]

@[simp] theorem stepKeeps_execTapePatchGuard {y} (h : Memory.wf s) : StepKeeps (execTapePatchGuard y s) :=
  stepKeeps_issue h fun _ _ h => memory_wf_tapeOp h (fun _ h => by grind -linarith [IRes.state, memory_wf_raiseErr, memory_wf_withTape,
    memory_wf_insertGuard, memory_wf_guardValue])

@[simp] theorem stepKeeps_execTapeDrop {y} (h : Memory.wf s) : StepKeeps (execTapeDrop y s) :=
  stepKeeps_issue h fun _ _ h => memory_wf_tapeOp h (fun _ h => memory_wf_withTape h (fun _ => memory_wf_doneWith (memory_wf_freeTape h)))

theorem memory_wf_stopCause {k} (h : Memory.wf s) : Memory.wf (stopCause s k).2 := by
  fun_cases stopCause s k <;> grind -linarith [memory_wf_drawFree]

theorem memory_wf_replayFault {i cause va acc} (h : Memory.wf s) : Memory.wf (replayFault s i cause va acc).state := by
  fun_cases replayFault s i cause va acc <;> grind -linarith [URes.state]

theorem memory_wf_replayErr {i acc e} (h : Memory.wf s) : Memory.wf (replayErr s i acc e).state := by
  fun_cases replayErr s i acc e <;> grind -linarith [URes.state, memory_wf_replayFault, memory_wf_stopCause, memory_wf_countUncorr]

theorem memory_wf_replayGuard {i u} (h : Memory.wf s) : Memory.wf (replayGuard s i u).state := by
  fun_cases replayGuard s i u <;> grind -linarith [URes.state, memory_wf_guardValue, memory_wf_acquireNow, memory_wf_replayErr]

theorem memory_wf_replayQfence {i c} (h : Memory.wf s) : Memory.wf (replayQfence s i c).state := by
  fun_cases replayQfence s i c <;> grind -linarith [CRes.state, IRes.state, memory_wf_qfenceCmd, memory_wf_modGroup]

theorem memory_wf_tapeCommand {i c} (h : Memory.wf s) : Memory.wf (tapeCommand s i c).state := by
  fun_cases tapeCommand s i c <;> grind -linarith [CRes.state, IRes.state, memory_wf_copyCmd, memory_wf_collCmd, memory_wf_barInit,
    memory_wf_barArrive, memory_wf_barExpect, memory_wf_barWait, memory_wf_barInval, memory_wf_replayQfence, memory_wf_diceCmd, memory_wf_emitCmd,
    memory_wf_beginCmd, memory_wf_endCmd, memory_wf_resCmd, memory_wf_rcSyncCmd, memory_wf_launchCmd]

theorem memory_wf_xlateFirst_ok {i a1} (h : Memory.wf s) : ∀ z, xlateFirst i a1 s = .ok z → Memory.wf z := by
  fun_induction xlateFirst i a1 s <;> grind -linarith [URes.state, memory_wf_translate, memory_wf_replayErr, memory_wf_replayFault]

theorem memory_wf_xlateFirst_error {i a1} (h : Memory.wf s) : ∀ z, xlateFirst i a1 s = .error z → Memory.wf z.state := by
  fun_induction xlateFirst i a1 s <;> grind -linarith [URes.state, memory_wf_translate, memory_wf_replayErr, memory_wf_replayFault]

theorem memory_wf_replayIssue {i a2 c} (h : Memory.wf s) : Memory.wf (replayIssue s i a2 c).state := by
  fun_cases replayIssue s i a2 c <;> grind -linarith [CRes.state, IRes.state, URes.state, memory_wf_tapeCommand, memory_wf_modTape,
    memory_wf_replayErr]

theorem memory_wf_replayCommand {i t slots u ext} (h : Memory.wf s) : Memory.wf (replayCommand s i t slots u ext).state := by
  fun_cases replayCommand s i t slots u ext <;> grind -linarith [CRes.state, IRes.state, URes.state, memory_wf_tapeCommand, → memory_wf_xlateFirst_ok,
    → memory_wf_xlateFirst_error, memory_wf_replayIssue]

theorem memory_wf_replayRun {a0 slots a2 a3 a4 a5} (h : Memory.wf s) : Memory.wf (replayRun a0 slots a2 a3 a4 a5 s).1 := by
  fun_induction replayRun a0 slots a2 a3 a4 a5 s <;> grind -linarith [URes.state, memory_wf_countUncorr, memory_wf_correctWord, memory_wf_replayGuard,
    memory_wf_replayCommand]

theorem memory_wf_afterReplay {a1 sticky} (h : Memory.wf s) : Memory.wf (afterReplay s a1 sticky) := memory_wf_modTape h

theorem memory_wf_endPlay {gid a2 val sticky} (h : Memory.wf s) : Memory.wf (endPlay s gid a2 val sticky) :=
  memory_wf_exitIfDone (memory_wf_releaseGroup (memory_wf_modGroup (memory_wf_afterReplay h)))

theorem memory_wf_stopPlay {gid a2 n x} (h : Memory.wf s) : Memory.wf (stopPlay s gid a2 n x) := by
  fun_cases stopPlay s gid a2 n x <;> grind -linarith [memory_wf_endPlay, memory_wf_postRec]

theorem memory_wf_playAt {gid a2 n slots was held} (h : Memory.wf s) : Memory.wf (playAt s gid a2 n slots was held) := memory_wf_modGroup h

theorem memory_wf_playGroup {gid} (h : Memory.wf s) : Memory.wf (playGroup s gid) := by
  fun_cases playGroup s gid <;> grind -linarith [URes.state, memory_wf_stopPlay, memory_wf_replayRun, memory_wf_endPlay, memory_wf_playAt,
    memory_wf_raiseFault, memory_wf_modGroup]

theorem memory_wf_readSlots_ok {x table mask a3 a5} (h : Memory.wf s) : ∀ z, readSlots x table mask a3 s a5 = .ok z → Memory.wf z.1 := by
  fun_induction readSlots x table mask a3 s a5 <;> grind -linarith [IRes.state, → memory_wf_tableBytes_ok, → memory_wf_tableBytes_error]

theorem memory_wf_readSlots_error {x table mask a3 a5} (h : Memory.wf s) : ∀ z, readSlots x table mask a3 s a5 = .error z → Memory.wf z.state := by
  fun_induction readSlots x table mask a3 s a5 <;> grind -linarith [IRes.state, → memory_wf_tableBytes_ok, → memory_wf_tableBytes_error]

@[simp] theorem stepKeeps_execTapePlay {y} (h : Memory.wf s) : StepKeeps (execTapePlay y s) := by
  refine stepKeeps_issue h fun x s h => memory_wf_tapeOp h fun s h => memory_wf_withRelease h fun s h => ?_
  have hm := memory_wf_markUnrec (gid := x.g.id) h
  dsimp only
  split
  · split
    next hr =>
      split at hr
      · cases hr
      · exact memory_wf_readSlots_error hm _ hr
    next hr =>
      refine memory_wf_playGroup (memory_wf_modGroup (memory_wf_modTape ?_))
      split at hr
      · cases hr
        exact hm
      · exact memory_wf_readSlots_ok hm _ hr
  · exact memory_wf_doneWith hm

theorem memory_wf_endHostPlay {q p sticky} (h : Memory.wf s) : Memory.wf (endHostPlay s q p sticky) :=
  memory_wf_finishEntry (memory_wf_modQueue (memory_wf_afterReplay h))

theorem memory_wf_stopHostPlay {q p n asid x} (h : Memory.wf s) : Memory.wf (stopHostPlay s q p n asid x) :=
  memory_wf_endHostPlay (memory_wf_postRec _ _ _ _ h)

theorem memory_wf_hostFault {q asid die cause va acc} (h : Memory.wf s) : Memory.wf (hostFault s q asid die cause va acc) :=
  memory_wf_postRec _ _ _ _ (memory_wf_same h)

theorem memory_wf_playHost {q} (h : Memory.wf s) : Memory.wf (playHost s q) := by
  fun_cases playHost s q <;> grind -linarith [URes.state, memory_wf_modQueue, memory_wf_replayRun, memory_wf_endHostPlay, memory_wf_stopHostPlay,
    memory_wf_hostFault]

/-! ### Context frames -/

theorem memory_wf_loadCmds {t f} (h : Memory.wf s) : Memory.wf (loadCmds s t f) := memory_wf_same h

theorem memory_wf_releaseMoved {f t c} (h : Memory.wf s) : Memory.wf (releaseMoved f t c s) :=
  memory_wf_foldl (fun _ _ h => memory_wf_releaseAcq h) _ h

theorem memory_wf_loadFrame {t f} (h : Memory.wf s) : Memory.wf (loadFrame s t f) := by
  fun_cases loadFrame s t f
  grind -linarith [memory_wf_modTeam, memory_wf_modCluster, memory_wf_releaseMoved, memory_wf_modCore, memory_wf_same]

theorem memory_wf_loadBads {t offs} (h : Memory.wf s) : Memory.wf (loadBads s t offs) := memory_wf_ite h (memory_wf_same h)

theorem memory_wf_writeFrame {p pages f} (h : Memory.wf s) : Memory.wf (writeFrame s p pages f) :=
  memory_wf_same (memory_wf_wrCoherent _ (memory_wf_wrCoherent _ h))

theorem memory_wf_writeContext {p pages t f} (h : Memory.wf s) : Memory.wf (writeContext s p pages t f) :=
  memory_wf_markMem (memory_wf_writeFrame (memory_wf_correctWhere h))

/-! ### Commands are performed -/

theorem memory_wf_performCmd {c} (h : Memory.wf s) : Memory.wf (performCmd s c) := by
  fun_cases performCmd s c <;> grind -linarith [memory_wf_sampFail, memory_wf_performCopy, memory_wf_performDice, memory_wf_performEmit,
    memory_wf_performBegin, memory_wf_performEnd, memory_wf_performRes, memory_wf_performSync, memory_wf_performLaunch]

theorem memory_wf_runCmd {c} (h : Memory.wf s) : Memory.wf (runCmd s c) := by
  fun_cases runCmd s c <;> grind -linarith [memory_wf_barReady, memory_wf_stopCmd, memory_wf_performCmd]

@[simp] theorem stepKeeps_execCopyEnginePerform {cmd} (h : Memory.wf s) : StepKeeps (execCopyEnginePerform cmd s) :=
  stepKeeps_event (fun _ h => by grind -linarith [memory_wf_runCmd]) h

theorem memory_wf_deliverCmd {c cause va acc} (h : Memory.wf s) : Memory.wf (deliverCmd s c cause va acc) := by
  fun_cases deliverCmd s c cause va acc <;> grind -linarith [memory_wf_failCmd, memory_wf_modSession, memory_wf_faultNetwork]

theorem memory_wf_resumeParked {g} (h : Memory.wf s) : Memory.wf (resumeParked s g) := by
  fun_cases resumeParked s g <;> grind -linarith [memory_wf_exitIfDone, memory_wf_domEnd, memory_wf_releaseGroup, memory_wf_playGroup,
    memory_wf_modGroup]

@[simp] theorem stepKeeps_execParkedAccessResume {grp} (h : Memory.wf s) : StepKeeps (execParkedAccessResume grp s) :=
  stepKeeps_event (fun _ h => by grind -linarith [memory_wf_resumeParked]) h

@[simp] theorem stepKeeps_execEngineQueueRoom {grp} (h : Memory.wf s) : StepKeeps (execEngineQueueRoom grp s) :=
  stepKeeps_event (fun _ h => by grind -linarith [memory_wf_modGroup]) h

/-! ### Faults and their answers -/

theorem memory_wf_dropFault {tag} (h : Memory.wf s) : Memory.wf (dropFault s tag) := memory_wf_same h

theorem memory_wf_replayAgain {gid} (h : Memory.wf s) : Memory.wf (replayAgain s gid) := memory_wf_modGroup h

theorem memory_wf_retrySucc {gid} (h : Memory.wf s) : Memory.wf (retrySucc s gid) := memory_wf_endTask (memory_wf_modGroup h)

theorem memory_wf_retryGroup {w gid} (h : Memory.wf s) : Memory.wf (retryGroup s w gid) := by
  fun_cases retryGroup s w gid <;> grind -linarith [memory_wf_retrySucc, memory_wf_playGroup, memory_wf_replayAgain, memory_wf_modGroup]

theorem memory_wf_retryFault {tag} (h : Memory.wf s) : Memory.wf (retryFault s tag) := by
  fun_cases retryFault s tag <;> grind -linarith [memory_wf_dropFault, memory_wf_retryGroup, memory_wf_freeCmd, memory_wf_playHost, memory_wf_modDisp]

@[simp] theorem stepKeeps_execFansRetry {tag} (h : Memory.wf s) : StepKeeps (execFansRetry tag s) :=
  stepKeeps_event (fun _ h => memory_wf_retryFault h) h

theorem memory_wf_deliverOwn {w g} (h : Memory.wf s) : Memory.wf (deliverOwn s w g) := by
  fun_cases deliverOwn s w g <;> grind -linarith [memory_wf_setGroup, memory_wf_takeTrap, memory_wf_drainReads, memory_wf_modGroup]

theorem memory_wf_deliverSucc {g} (h : Memory.wf s) : Memory.wf (deliverSucc s g) := memory_wf_endTask (memory_wf_modGroup (memory_wf_notify h))

theorem memory_wf_deliverWindow {w g} (h : Memory.wf s) : Memory.wf (deliverWindow s w g) := memory_wf_modGroup (memory_wf_modTeamOf h)

theorem memory_wf_deliverGroup {w g} (h : Memory.wf s) : Memory.wf (deliverGroup s w g) := by
  fun_cases deliverGroup s w g <;> grind -linarith [memory_wf_deliverSucc, memory_wf_deliverWindow, memory_wf_releaseGroup, memory_wf_stopPlay,
    memory_wf_replayAgain, memory_wf_deliverOwn]

theorem memory_wf_deliverHost {w} (h : Memory.wf s) : Memory.wf (deliverHost s w) := by
  fun_cases deliverHost s w <;> grind -linarith [memory_wf_stopHostPlay]

theorem memory_wf_deliverFault {tag} (h : Memory.wf s) : Memory.wf (deliverFault s tag) := by
  fun_cases deliverFault s tag <;> grind -linarith [memory_wf_dropFault, memory_wf_deliverGroup, memory_wf_deliverCmd, memory_wf_modCmd,
    memory_wf_deliverHost, memory_wf_refusePrepared]

@[simp] theorem stepKeeps_execFansDeliver {tag} (h : Memory.wf s) : StepKeeps (execFansDeliver tag s) :=
  stepKeeps_event (fun _ h => memory_wf_deliverFault h) h

theorem memory_wf_answerFault {v} (h : Memory.wf s) : Memory.wf (answerFault s v) := memory_wf_ite (memory_wf_deliverFault h) (memory_wf_retryFault h)

/-! ### System registers -/

@[simp] theorem stepKeeps_execSysrd {f} (h : Memory.wf s) : StepKeeps (execSysrd f s) :=
  stepKeeps_issue h fun _ _ h => memory_wf_groupWide h (fun _ h => by grind -linarith [IRes.state, memory_wf_drainArray, memory_wf_doneWith])

theorem memory_wf_setReg {gid r i v} (h : Memory.wf s) : Memory.wf (setReg s gid r i v) := by
  fun_cases setReg s gid r i v <;> grind -linarith [memory_wf_modGroup, memory_wf_modDie, memory_wf_same]

@[simp] theorem stepKeeps_execRegisterWrite {grp sreg index value} (h : Memory.wf s) : StepKeeps (execRegisterWrite grp sreg index value s) :=
  stepKeeps_event (fun _ h => memory_wf_ite (memory_wf_setReg h) h) h

theorem memory_wf_setSeed {v} (h : Memory.wf s) : Memory.wf (setSeed s v) := memory_wf_same h

@[simp] theorem stepKeeps_execSeedWrite {value} (h : Memory.wf s) : StepKeeps (execSeedWrite value s) :=
  stepKeeps_event (fun _ h => memory_wf_setSeed h) h

theorem memory_wf_writeReg {g r i v} (h : Memory.wf s) : Memory.wf (writeReg s g r i v) := by
  fun_cases writeReg s g r i v <;> grind -linarith [memory_wf_setPrio, memory_wf_setSeed, memory_wf_answerFault, memory_wf_setReg]

@[simp] theorem stepKeeps_execSyswr {f} (h : Memory.wf s) : StepKeeps (execSyswr f s) :=
  stepKeeps_issue h fun _ _ h => memory_wf_groupWide h (fun _ h => by grind -linarith [IRes.state, memory_wf_writeReg])

@[simp] theorem stepKeeps_execClk {f} (h : Memory.wf s) : StepKeeps (execClk f s) := stepKeeps_issue h fun _ _ h => memory_wf_doneWith h

@[simp] theorem stepKeeps_execIret {f} (h : Memory.wf s) : StepKeeps (execIret f s) :=
  stepKeeps_issueConv h fun _ _ h => memory_wf_exitIfDone (memory_wf_modGroup h)

/-! ### Contexts -/

theorem memory_wf_dropGroupFaults {gid} (h : Memory.wf s) : Memory.wf (dropGroupFaults s gid) :=
  memory_wf_ite (memory_wf_replayAgain (memory_wf_same h)) (memory_wf_same h)

theorem memory_wf_saveGroup {gid} (h : Memory.wf s) : Memory.wf (saveGroup s gid) :=
  memory_wf_modGroup (memory_wf_unrecordWait (memory_wf_dropGroupFaults (memory_wf_drainGroup h)))

theorem memory_wf_saveTeam {t} (h : Memory.wf s) : Memory.wf (saveTeam s t) := by
  fun_cases saveTeam s t
  case case1 => exact h
  all_goals
    obtain ⟨r, -, hr⟩ := Option.bind_eq_some_iff.mp ‹_ = some _›
    have hp := memory_wf_poolPop h _ hr
  case case2 => exact hp
  case case3 => grind -linarith [memory_wf_writeContext, memory_wf_loadBads, memory_wf_modTeam, memory_wf_same]

theorem memory_wf_dropCmdFaults {gids} (h : Memory.wf s) : Memory.wf (dropCmdFaults s gids) := memory_wf_same h

theorem memory_wf_saveNow {disp clid} (h : Memory.wf s) : Memory.wf (saveNow s disp clid) := by
  fun_cases saveNow s disp clid <;> grind -linarith [memory_wf_retireGroup, memory_wf_killBins, memory_wf_saveEquinox, memory_wf_drainArray,
    memory_wf_dropCmdFaults, memory_wf_saveGroup, memory_wf_modCluster, memory_wf_saveTeam, memory_wf_foldl, memory_wf_same]

theorem memory_wf_saveCluster {disp clid} (h : Memory.wf s) : Memory.wf (saveCluster s disp clid) :=
  memory_wf_ite h (memory_wf_ite (memory_wf_saveNow h) (memory_wf_ite h (memory_wf_notify (memory_wf_same h))))

@[simp] theorem stepKeeps_execClusterSave {disp clid} (h : Memory.wf s) : StepKeeps (execClusterSave disp clid s) :=
  stepKeeps_event (fun _ h => memory_wf_saveCluster h) h

@[simp] theorem stepKeeps_execSavePoolFramesArrive (h : Memory.wf s) : StepKeeps (execSavePoolFramesArrive s) :=
  stepKeeps_event (fun _ h => memory_wf_ite (memory_wf_same h) h) h

theorem memory_wf_placeSaved {core a1} (h : Memory.wf s) : ∀ z, placeSaved core a1 s = some z → Memory.wf z := by
  fun_induction placeSaved core a1 s <;> grind -linarith [memory_wf_modGroup]

theorem memory_wf_resumeTeam {t core} (h : Memory.wf s) : ∀ z, resumeTeam s t core = some z → Memory.wf z := by
  fun_cases resumeTeam s t core
  case case1 => rintro z ⟨⟩; exact memory_wf_modTeam h
  case case3 =>
    intro z hz
    obtain ⟨u, hu, rfl⟩ := Option.map_eq_some_iff.mp hz
    have hu := memory_wf_placeSaved h u hu
    grind -linarith [memory_wf_modTeam, memory_wf_clearRun, memory_wf_invalidateL1, memory_wf_loadBads, memory_wf_loadFrame, memory_wf_poolPush]
  all_goals rintro z ⟨⟩

theorem memory_wf_resumeOn {disp clid cs} (h : Memory.wf s) : ∀ z, resumeOn disp clid s cs = some z → Memory.wf z := by
  intro z hz
  obtain ⟨u, hu, rfl⟩ := Option.map_eq_some_iff.mp hz
  exact memory_wf_same (foldl_bind_keeps (P := fun t => Memory.wf t = true) (fun _ _ h => memory_wf_resumeTeam h) _ h u hu)

theorem memory_wf_resumeCluster {disp clid} (h : Memory.wf s) : ∀ z, resumeCluster s disp clid = some z → Memory.wf z := by
  fun_cases resumeCluster s disp clid
  case case1 =>
    intro z hz
    obtain ⟨p, -, hz⟩ := Option.bind_eq_some_iff.mp hz
    split at hz
    · exact memory_wf_tryRectangles h (fun _ _ h => memory_wf_resumeOn h) z hz
    · cases hz
  case case2 => rintro z ⟨⟩

@[simp] theorem stepKeeps_execClusterResume {disp clid} (h : Memory.wf s) : StepKeeps (execClusterResume disp clid s) :=
  stepKeeps_event (fun _ h => by grind -linarith [→ memory_wf_resumeCluster, memory_wf_getD]) h

theorem memory_wf_ctxOp {x} {k : State → Dispatch → IRes} (h : Memory.wf s) (hk : ∀ t a, Memory.wf t → Memory.wf (k t a).state) : Memory.wf (ctxOp x s
    k).state :=
  memory_wf_groupWide h fun _ h => by grind -linarith [IRes.state, memory_wf_doneWith, memory_wf_drainGroup]

@[simp] theorem stepKeeps_execCtxsavePre {y} (h : Memory.wf s) : StepKeeps (execCtxsavePre y s) :=
  stepKeeps_issue h fun _ _ h => memory_wf_ctxOp h (fun _ _ h => by grind -linarith [IRes.state, memory_wf_doneWith, memory_wf_requestSave,
    memory_wf_modDisp])

theorem memory_wf_frameOp {x d a} {k : State → Team → Partition → List ℕ → IRes} (h : Memory.wf s) (hk : ∀ t u p a, Memory.wf t → Memory.wf (k t u p
    a).state) : Memory.wf (frameOp x s d a k).state := by
  fun_cases frameOp x s d a k <;> grind -linarith [IRes.state, memory_wf_doneWith, memory_wf_raiseErr, memory_wf_xlateRun, memory_wf_settleSlots]

theorem memory_wf_frameAddr {x} {k : State → IRes} (h : Memory.wf s) (hk : ∀ t, Memory.wf t → Memory.wf (k t).state) : Memory.wf (frameAddr x s
    k).state :=
  memory_wf_groupWide h fun _ h => by grind -linarith [IRes.state, memory_wf_raiseErr]

@[simp] theorem stepKeeps_execCtxsaveDump {y} (h : Memory.wf s) : StepKeeps (execCtxsaveDump y s) :=
  stepKeeps_issue h fun _ _ h => memory_wf_frameAddr h (fun _ h => memory_wf_ctxOp h (fun _ _ h => memory_wf_frameOp h (fun _ _ _ _ h =>
    memory_wf_doneWith (memory_wf_writeContext h))))

@[simp] theorem stepKeeps_execCtxrestLoad {y} (h : Memory.wf s) : StepKeeps (execCtxrestLoad y s) :=
  stepKeeps_issue h fun _ _ h => memory_wf_frameAddr h (fun _ h => memory_wf_ctxOp h (fun _ _ h => memory_wf_frameOp h (fun _ _ _ _ h => by
    grind -linarith [IRes.state, memory_wf_raiseErr, memory_wf_noteBad, memory_wf_doneWith, memory_wf_writeFrame, memory_wf_loadCmds,
    memory_wf_loadBads, memory_wf_loadFrame])))

theorem memory_wf_resumeHeld {t} (h : Memory.wf s) : Memory.wf (resumeHeld s t) :=
  memory_wf_foldl (fun _ _ h => memory_wf_exitIfDone (memory_wf_modGroup h)) _ h

@[simp] theorem stepKeeps_execCtxrestResume {y} (h : Memory.wf s) : StepKeeps (execCtxrestResume y s) :=
  stepKeeps_issue h fun _ _ h => memory_wf_ctxOp h (fun _ _ h => by grind -linarith [IRes.state, memory_wf_doneWith, memory_wf_resumeHeld,
    memory_wf_modDisp])

theorem memory_wf_discardCmd {c} (h : Memory.wf s) : Memory.wf (discardCmd s c) := by
  fun_cases discardCmd s c <;> grind -linarith [memory_wf_dropCmd, memory_wf_failCmd]

theorem memory_wf_retireSavedWindows {t} (h : Memory.wf s) : Memory.wf (retireSavedWindows s t) := by
  fun_cases retireSavedWindows s t <;> grind -linarith [memory_wf_translate, memory_wf_errorReply, memory_wf_wbFail, memory_wf_settleSlots,
    memory_wf_countTraffic, memory_wf_markMem, memory_wf_wrCoherent, memory_wf_foldl]

theorem memory_wf_endSavedTeam {t} (h : Memory.wf s) : Memory.wf (endSavedTeam s t) := by
  fun_cases endSavedTeam s t <;> grind -linarith [memory_wf_retireSavedWindows, memory_wf_poolPush, memory_wf_modTeam]

theorem memory_wf_drainPart {part} (h : Memory.wf s) : Memory.wf (drainPart s part) := memory_wf_foldl (fun _ _ h => memory_wf_drainGroup h) _ h

theorem memory_wf_endGroup {g} (h : Memory.wf s) : Memory.wf (endGroup s g) := by
  fun_cases endGroup s g <;> grind -linarith [memory_wf_leaveGrowers, memory_wf_dropGroupFaults, memory_wf_domEnd, memory_wf_drainPart,
    memory_wf_retireGroup, memory_wf_exitGroup, memory_wf_same]

theorem memory_wf_endByRest {d} (h : Memory.wf s) : Memory.wf (endByRest s d) := by
  fun_cases endByRest s d
  grind -linarith [memory_wf_modDisp, memory_wf_discardCmd, memory_wf_endSavedTeam, memory_wf_pruneClusters,
    memory_wf_endGroup, memory_wf_foldl, memory_wf_same]

@[simp] theorem stepKeeps_execCtxrestEnd {y} (h : Memory.wf s) : StepKeeps (execCtxrestEnd y s) :=
  stepKeeps_issue h fun _ _ h => memory_wf_ctxOp h (fun _ _ h => by grind -linarith [IRes.state, memory_wf_endByRest])

/-! ### Control of the caches -/

theorem memory_wf_jumpAll {x t} (h : Memory.wf s) : Memory.wf (jumpAll s x t).state := by
  fun_cases jumpAll s x t <;> grind -linarith [IRes.state]

@[simp] theorem stepKeeps_execBra {y} (h : Memory.wf s) : StepKeeps (execBra y s) := stepKeeps_issue h fun _ _ h => memory_wf_jumpAll h

@[simp] theorem stepKeeps_execCall {y} (h : Memory.wf s) : StepKeeps (execCall y s) :=
  stepKeeps_issue h fun _ _ h => by grind -linarith [IRes.state, memory_wf_jumpAll, memory_wf_modGroup]

theorem memory_wf_laneBranch {x dest} (h : Memory.wf s) : Memory.wf (laneBranch s x dest).state := by
  fun_cases laneBranch s x dest <;> grind -linarith [IRes.state]

@[simp] theorem stepKeeps_execBrx {f} (h : Memory.wf s) : StepKeeps (execBrx f s) := stepKeeps_issue h fun _ _ h => memory_wf_laneBranch h

@[simp] theorem stepKeeps_execRet {f} (h : Memory.wf s) : StepKeeps (execRet f s) := stepKeeps_issue h fun _ _ h => memory_wf_laneBranch h

@[simp] theorem stepKeeps_execExit {f} (h : Memory.wf s) : StepKeeps (execExit f s) := stepKeeps_issue h fun _ _ h => h

@[simp] theorem stepKeeps_execYield {f} (h : Memory.wf s) : StepKeeps (execYield f s) := stepKeeps_issue h fun _ _ h => memory_wf_modGroup h

@[simp] theorem stepKeeps_execNap {f} (h : Memory.wf s) : StepKeeps (execNap f s) := stepKeeps_issue h fun _ _ h => memory_wf_modGroup h

@[simp] theorem stepKeeps_execNapExpiry {grp lane} (h : Memory.wf s) : StepKeeps (execNapExpiry grp lane s) :=
  stepKeeps_event (fun _ h => by grind -linarith [memory_wf_setGroup]) h

theorem memory_wf_softTrap {kind f x} (h : Memory.wf s) : Memory.wf (softTrap kind f x s).state := by
  fun_cases softTrap kind f x s <;> grind -linarith [IRes.state]

@[simp] theorem stepKeeps_execTrap {f} (h : Memory.wf s) : StepKeeps (execTrap f s) := stepKeeps_issue h fun _ _ h => memory_wf_softTrap h

@[simp] theorem stepKeeps_execBrk {f} (h : Memory.wf s) : StepKeeps (execBrk f s) := stepKeeps_issue h fun _ _ h => memory_wf_softTrap h

/-! ### Task delivery -/

theorem memory_wf_spawnNode {x k rs} (h : Memory.wf s) : Memory.wf (spawnNode x k rs s) := memory_wf_foldl (fun _ _ h => memory_wf_appendNode h) _ h

@[simp] theorem stepKeeps_execSpawn {y} (h : Memory.wf s) : StepKeeps (execSpawn y s) := by
  refine stepKeeps_issue h fun x s h => memory_wf_groupWide h fun s h => ?_
  split
  · exact h
  next d _ =>
    refine memory_wf_withRelease h fun s h => ?_
    have hq := memory_wf_readQueue (d := d) (die := dieOf x.g) h
    split <;> rename_i hr <;> rw [hr] at hq
    · exact hq
    · grind -linarith [IRes.state, → memory_wf_appendRing, memory_wf_foldl, memory_wf_spawnNode, memory_wf_modGroup]

@[simp] theorem stepKeeps_execTaskEnd {f} (h : Memory.wf s) : StepKeeps (execTaskEnd f s) :=
  stepKeeps_issueConv h fun _ _ h => memory_wf_groupWide h (fun _ h => memory_wf_withRelease h (fun _ h => memory_wf_endTask h))

theorem memory_wf_advanceHead {d die q} (h : Memory.wf s) : Memory.wf (advanceHead s d die q) := by
  fun_cases advanceHead s d die q
  grind -linarith [→ memory_wf_wrVa, memory_wf_getD]

theorem memory_wf_deliverTask {gid} (h : Memory.wf s) : Memory.wf (deliverTask s gid) := by
  fun_cases deliverTask s gid <;> grind -linarith [memory_wf_readQueue, memory_wf_exitGroup, memory_wf_leaveGrowers, memory_wf_rdVa, memory_wf_notify,
    memory_wf_advanceHead, memory_wf_joinGrowers, memory_wf_acquireNow, memory_wf_modGroup]

@[simp] theorem stepKeeps_execTaskDelivery {grp} (h : Memory.wf s) : StepKeeps (execTaskDelivery grp s) :=
  stepKeeps_event (fun _ h => memory_wf_deliverTask h) h

@[simp] theorem stepKeeps_execTaskWdog {grp} (h : Memory.wf s) : StepKeeps (execTaskWdog grp s) :=
  stepKeeps_event (fun _ h => by grind -linarith [memory_wf_endWith]) h

theorem memory_wf_coalOp {x now f} (h : Memory.wf s) : Memory.wf (coalOp x s now f).state :=
  memory_wf_groupWide h fun _ h => memory_wf_withRelease h (fun _ h => by grind -linarith [IRes.state, memory_wf_readQueue, → memory_wf_wrVa,
    memory_wf_startRelease, memory_wf_doneWith, memory_wf_getD])

@[simp] theorem stepKeeps_execCoalFlushNow {y} (h : Memory.wf s) : StepKeeps (execCoalFlushNow y s) :=
  stepKeeps_issue h fun _ _ h => memory_wf_coalOp h

@[simp] theorem stepKeeps_execCoalFlushDone {y} (h : Memory.wf s) : StepKeeps (execCoalFlushDone y s) :=
  stepKeeps_issue h fun _ _ h => memory_wf_coalOp h

@[simp] theorem stepKeeps_execCoalFlushProd {y} (h : Memory.wf s) : StepKeeps (execCoalFlushProd y s) :=
  stepKeeps_issue h fun _ _ h => memory_wf_coalOp h

@[simp] theorem stepKeeps_execNodeFlushTimer {disp node} (h : Memory.wf s) : StepKeeps (execNodeFlushTimer disp node s) :=
  stepKeeps_event (fun _ h => by grind -linarith [memory_wf_readQueue, memory_wf_startRelease]) h

@[simp] theorem stepKeeps_execNodeRelease {disp node} (h : Memory.wf s) : StepKeeps (execNodeRelease disp node s) :=
  stepKeeps_event (fun _ h => by grind -linarith [memory_wf_releaseNode]) h

theorem memory_wf_resumeRing {gid} (h : Memory.wf s) : Memory.wf (resumeRing s gid) := by
  fun_cases resumeRing s gid <;> grind -linarith [memory_wf_endTask, memory_wf_modGroup]

@[simp] theorem stepKeeps_execRingRoomResume {disp who} (h : Memory.wf s) : StepKeeps (execRingRoomResume disp who s) :=
  stepKeeps_event (fun _ h => by grind -linarith [memory_wf_resumeRing, memory_wf_releaseNode]) h

/-! ### Invalidation of translations -/

theorem memory_wf_performOld {asid} (h : Memory.wf s) : Memory.wf (performOld s asid) :=
  memory_wf_foldl (fun _ _ h => memory_wf_finishOffers h) _ (memory_wf_foldl (fun _ _ h => memory_wf_drainGroup h) _ h)

theorem memory_wf_flushWindows {asid va n} (h : Memory.wf s) : Memory.wf (flushWindows s asid va n) := by
  fun_cases flushWindows s asid va n
  grind -linarith [WbRes.state, memory_wf_writeBackHeld, memory_wf_writeBackOld, memory_wf_foldl]

theorem memory_wf_dropTranslations {asid va n} (h : Memory.wf s) : Memory.wf (dropTranslations s asid va n) := memory_wf_same h

theorem memory_wf_rewalkGroup {asid g} (h : Memory.wf s) : Memory.wf (rewalkGroup asid s g) := by
  fun_cases rewalkGroup asid s g <;> grind -linarith [memory_wf_modGroup, memory_wf_endTask, memory_wf_unrecordWait]

theorem memory_wf_rewalk {asid} (h : Memory.wf s) : Memory.wf (rewalk s asid) :=
  memory_wf_foldl (fun _ _ h => memory_wf_rewalkGroup h) _ (memory_wf_foldl (fun _ _ h => memory_wf_freeCmd h) _ h)

theorem memory_wf_invalidateSpace {asid va n} (h : Memory.wf s) : Memory.wf (invalidateSpace s asid va n) := by
  fun_cases invalidateSpace s asid va n
  grind -linarith [memory_wf_dropTranslations, memory_wf_flushWindows, memory_wf_performOld,
    memory_wf_rewalk, memory_wf_rebar, memory_wf_foldl, memory_wf_same]

theorem memory_wf_tlbinvSpace {die asid va n} (h : Memory.wf s) : Memory.wf (tlbinvSpace s die asid va n).2 := by
  fun_cases tlbinvSpace s die asid va n <;> grind -linarith [memory_wf_invalidateSpace, memory_wf_bumpEpochs]

@[simp] theorem stepKeeps_execTlbinv {y} (h : Memory.wf s) : StepKeeps (execTlbinv y s) := by
  refine stepKeeps_issue h fun x s h => memory_wf_groupWide h fun s h => ?_
  have herr (k d) : Memory.wf (raiseErr s x 0 (asidOf s x.g) ⟨k, 0, d⟩ x.act).state := memory_wf_raiseErr h
  refine iresKeeps_ite (herr ..) (iresKeeps_ite (herr ..) (iresKeeps_ite (herr ..) (iresKeeps_ite (herr ..)
    (iresKeeps_ite (memory_wf_doneWith h) (memory_wf_withRelease h fun s h => ?_)))))
  have hq := memory_wf_acquireNow (gid := x.g.id) h
  refine iresKeeps_ite (memory_wf_doneWith hq) (iresKeeps_ite hq
    (memory_wf_doneWith (foldl_keeps (P := fun r : Nat × State => Memory.wf r.2) (fun r a h => ?_) _ hq)))
  exact memory_wf_tlbinvSpace h

/-! ### Dies and self-tests -/

@[simp] theorem stepKeeps_execDieQ {f} (h : Memory.wf s) : StepKeeps (execDieQ f s) :=
  stepKeeps_issue h fun _ _ h => by grind -linarith [IRes.state, memory_wf_perLane]

theorem memory_wf_dieRstOp {x} {k : State → Die → IRes} (h : Memory.wf s) (hk : ∀ t a, Memory.wf t → Memory.wf (k t a).state) : Memory.wf (dieRstOp x
    s k).state :=
  memory_wf_groupWide h fun _ h => by grind -linarith [IRes.state, memory_wf_doneWith]

theorem memory_wf_startRst {x d} (h : Memory.wf s) : Memory.wf (startRst x s d).state := memory_wf_same h

theorem memory_wf_endRst {d status} (h : Memory.wf s) : Memory.wf (endRst s d status) := by
  fun_cases endRst s d status <;> grind -linarith [memory_wf_releaseGroup, memory_wf_same]

@[simp] theorem stepKeeps_execDieRstFrost {y} (h : Memory.wf s) : StepKeeps (execDieRstFrost y s) :=
  stepKeeps_issue h fun _ _ h => memory_wf_dieRstOp h (fun _ _ h => by grind -linarith [IRes.state, memory_wf_doneWith, memory_wf_setDieState,
    memory_wf_startRst, memory_wf_requestSave, memory_wf_foldl])

@[simp] theorem stepKeeps_execDieRstReset {y} (h : Memory.wf s) : StepKeeps (execDieRstReset y s) :=
  stepKeeps_issue h fun _ _ h => memory_wf_dieRstOp h (fun _ _ h => by grind -linarith [IRes.state, memory_wf_doneWith, memory_wf_modDie,
    memory_wf_startRst, memory_wf_setDieState, memory_wf_same])

@[simp] theorem stepKeeps_execDieRstThaw {y} (h : Memory.wf s) : StepKeeps (execDieRstThaw y s) :=
  stepKeeps_issue h fun _ _ h => memory_wf_dieRstOp h (fun _ _ h => by grind -linarith [IRes.state, memory_wf_doneWith, memory_wf_setDieState])

@[simp] theorem stepKeeps_execDieQuiesce {die} (h : Memory.wf s) : StepKeeps (execDieQuiesce die s) := by
  refine stepKeeps_event (fun s h => ?_) h
  dsimp only
  split
  · exact h
  · exact memory_wf_endRst (memory_wf_setDieState (memory_wf_modDie (memory_wf_same
      (memory_wf_dirtyMap (f := fun e => (e.1, e.2.map _)) (fun _ => rfl) (by rintro ⟨i, _ | d⟩ he <;> simp_all) (memory_wf_drainDie (d := die) h)))))

@[simp] theorem stepKeeps_execDieResetDone {die pass} (h : Memory.wf s) : StepKeeps (execDieResetDone die pass s) :=
  stepKeeps_event (fun _ h => memory_wf_ite h (memory_wf_ite (memory_wf_endRst (memory_wf_setDieState (memory_wf_modDie h))) (memory_wf_endRst
    (memory_wf_setDieState h)))) h

theorem memory_wf_postTest {die kind what} (h : Memory.wf s) : Memory.wf (postTest s die kind what) := memory_wf_notify h

theorem memory_wf_flushSlice {slice} (h : Memory.wf s) : Memory.wf (flushSlice s slice) :=
  memory_wf_foldl (fun _ _ h => memory_wf_foldl (fun _ _ h => memory_wf_writeBackFrom _ _ h) _ h) _ h

theorem memory_wf_startTest {u} (h : Memory.wf s) : Memory.wf (startTest s u) := by
  fun_cases startTest s u <;> grind -linarith [memory_wf_modCore, memory_wf_requestSave, memory_wf_modDie, memory_wf_flushSlice, memory_wf_foldl,
    memory_wf_same]

@[simp] theorem stepKeeps_execSelfTestStart {u} (h : Memory.wf s) : StepKeeps (execSelfTestStart u s) :=
  stepKeeps_event (fun _ h => memory_wf_startTest h) h

theorem memory_wf_retireCore {c} (h : Memory.wf s) : Memory.wf (retireCore s c) := by
  fun_cases retireCore s c <;> grind -linarith [memory_wf_modDie, memory_wf_modCore, memory_wf_same]

theorem memory_wf_rewalkWaits (h : Memory.wf s) : Memory.wf (rewalkWaits s) := memory_wf_foldl (fun _ _ h => memory_wf_rewalk h) _ h

theorem memory_wf_endTest {u pass} (h : Memory.wf s) : Memory.wf (endTest s u pass) := by
  fun_cases endTest s u pass <;> grind -linarith [memory_wf_modCore, memory_wf_postTest, memory_wf_retireCore, memory_wf_modDie,
    memory_wf_rewalkWaits]

@[simp] theorem stepKeeps_execSelfTestDone {u pass} (h : Memory.wf s) : StepKeeps (execSelfTestDone u pass s) :=
  stepKeeps_event (fun _ h => memory_wf_endTest h) h

@[simp] theorem stepKeeps_execQueueRoomPost {q} (h : Memory.wf s) : StepKeeps (execQueueRoomPost q s) :=
  stepKeeps_event (fun _ h => by grind -linarith [memory_wf_ringPush, memory_wf_same]) h

/-! ### The host -/

theorem stepKeeps_hostStep {f : State → State} (h : Memory.wf s) (hf : ∀ t, Memory.wf t → Memory.wf (f t)) : StepKeeps (hostStep s f) :=
  stepKeeps_event (fun _ h => by grind -linarith ) h

theorem memory_wf_answer {ws} (h : Memory.wf s) : Memory.wf (answer s ws) := memory_wf_same h

theorem memory_wf_hostWrite {pa bs} (h : Memory.wf s) : Memory.wf (hostWrite s pa bs) := by
  fun_cases hostWrite s pa bs <;> grind -linarith [memory_wf_wrPa]

@[simp] theorem stepKeeps_execQcreate {queue part descPa} (h : Memory.wf s) : StepKeeps (execQcreate queue part descPa s) :=
  stepKeeps_hostStep h fun _ h => memory_wf_ite (memory_wf_answer h) (memory_wf_answer (memory_wf_same h))

@[simp] theorem stepKeeps_execQdoor {queue t} (h : Memory.wf s) : StepKeeps (execQdoor queue t s) :=
  stepKeeps_hostStep h fun _ h => by grind -linarith [memory_wf_postRefused, memory_wf_modQueue]

theorem memory_wf_takeEntry {a1} (h : Memory.wf s) : Memory.wf (takeEntry s a1) := memory_wf_hostWrite (memory_wf_modQueue h)

theorem memory_wf_refuseEntry {a1} (h : Memory.wf s) : Memory.wf (refuseEntry s a1) := memory_wf_postRefused (memory_wf_takeEntry h)

theorem memory_wf_onEntry {queue kind} {f : State → HostQueue → List Byte → State} (h : Memory.wf s) (hf : ∀ t a a', Memory.wf t → Memory.wf (f t a
    a')) : Memory.wf (onEntry s queue kind f) := by
  fun_cases onEntry s queue kind f <;> grind -linarith [memory_wf_refuseEntry]

theorem memory_wf_markBusy {a1} (h : Memory.wf s) : Memory.wf (markBusy s a1) := memory_wf_modQueue h

@[simp] theorem stepKeeps_execDispatch {queue} (h : Memory.wf s) : StepKeeps (execDispatch queue s) := by
  fun_cases execDispatch queue s
  grind -linarith [stepKeeps_hostStep, memory_wf_onEntry, memory_wf_markBusy, memory_wf_takeEntry, memory_wf_same]

theorem memory_wf_hostSlots {x table mask a3 a5} (h : Memory.wf s) : Memory.wf (hostSlots x table mask a3 s a5).1 := by
  fun_induction hostSlots x table mask a3 s a5 <;> grind -linarith [memory_wf_rdVa]

theorem memory_wf_startPlay {a1 e} (h : Memory.wf s) : Memory.wf (startPlay s a1 e) := by
  fun_cases startPlay s a1 e <;> grind -linarith [memory_wf_hostSlots, memory_wf_refuseEntry, memory_wf_modTape, memory_wf_markBusy,
    memory_wf_takeEntry, memory_wf_playHost, memory_wf_modQueue, memory_wf_finishEntry]

@[simp] theorem stepKeeps_execHostTapePlay {queue} (h : Memory.wf s) : StepKeeps (execHostTapePlay queue s) :=
  stepKeeps_hostStep h fun _ h => by grind -linarith [memory_wf_playHost, memory_wf_onEntry, memory_wf_startPlay]

theorem memory_wf_performSignal {a1 g} (h : Memory.wf s) : Memory.wf (performSignal s a1 g) := by
  fun_cases performSignal s a1 g
  grind -linarith [→ memory_wf_updVa, → memory_wf_wrVa, memory_wf_postRefused, memory_wf_doneEntry,
    memory_wf_modQueue]

@[simp] theorem stepKeeps_execSignal {queue} (h : Memory.wf s) : StepKeeps (execSignal queue s) :=
  stepKeeps_hostStep h fun _ h => by grind -linarith [memory_wf_performSignal, memory_wf_onEntry, memory_wf_modQueue, memory_wf_markBusy,
    memory_wf_takeEntry]

@[simp] theorem stepKeeps_execWait {queue} (h : Memory.wf s) : StepKeeps (execWait queue s) :=
  stepKeeps_hostStep h fun _ h => memory_wf_onEntry h (fun _ _ _ h => memory_wf_modQueue (memory_wf_markBusy (memory_wf_takeEntry h)))

@[simp] theorem stepKeeps_execWaitMet {queue} (h : Memory.wf s) : StepKeeps (execWaitMet queue s) :=
  stepKeeps_hostStep h fun _ h => by grind -linarith [memory_wf_doneEntry, memory_wf_modQueue]

theorem memory_wf_recount {d} (h : Memory.wf s) : Memory.wf (recount s d) := by
  fun_cases recount s d
  grind -linarith [memory_wf_modDie, memory_wf_same]

@[simp] theorem stepKeeps_execPartcreate {spec} (h : Memory.wf s) : StepKeeps (execPartcreate spec s) :=
  stepKeeps_hostStep h fun _ h => memory_wf_ite (memory_wf_answer h) (memory_wf_answer (memory_wf_same (memory_wf_foldl (fun _ _ h =>
    memory_wf_recount h) _ h)))

theorem memory_wf_dropPlays {part} (h : Memory.wf s) : Memory.wf (dropPlays s part) := memory_wf_foldl (fun _ _ h => memory_wf_modTape h) _ h

@[simp] theorem stepKeeps_execPartdestroy {part} (h : Memory.wf s) : StepKeeps (execPartdestroy part s) :=
  stepKeeps_hostStep h fun _ h => memory_wf_ite (memory_wf_answer h) (memory_wf_answer (memory_wf_same (memory_wf_dropPlays h)))

@[simp] theorem stepKeeps_execDevnum {n} (h : Memory.wf s) : StepKeeps (execDevnum n s) :=
  stepKeeps_hostStep h fun _ h => memory_wf_ite (memory_wf_answer (memory_wf_same h)) (memory_wf_answer h)

theorem memory_wf_manageRead {a} (h : Memory.wf s) : Memory.wf (manageRead s a) := by
  fun_cases manageRead s a <;> grind -linarith [memory_wf_answer]

theorem memory_wf_outerAccess {p pa a} (h : Memory.wf s) : Memory.wf (outerAccess s p pa a) := by
  fun_cases outerAccess s p pa a <;> grind -linarith [memory_wf_settleSlots, memory_wf_answer, memory_wf_wrCoherent, memory_wf_countUncorr,
    memory_wf_correctPlaces]

@[simp] theorem stepKeeps_execHostCoherentAccess {a} (h : Memory.wf s) : StepKeeps (execHostCoherentAccess a s) :=
  stepKeeps_hostStep h fun _ h => by grind -linarith [memory_wf_manageRead, memory_wf_answer, memory_wf_outerAccess]

@[simp] theorem stepKeeps_execKflRemoteRequest {part a} (h : Memory.wf s) : StepKeeps (execKflRemoteRequest part a s) :=
  stepKeeps_hostStep h fun _ h => by grind -linarith [memory_wf_answer, memory_wf_outerAccess]

@[simp] theorem stepKeeps_execPowerOn (h : Memory.wf s) : StepKeeps (execPowerOn s) :=
  stepKeeps_event (fun _ h => memory_wf_ite h (memory_wf_same h)) h

@[simp] theorem stepKeeps_execStatus (h : Memory.wf s) : StepKeeps (execStatus s) := stepKeeps_event (fun _ h => memory_wf_answer h) h

@[simp] theorem stepKeeps_execAttest {nonce} (h : Memory.wf s) : StepKeeps (execAttest nonce s) := stepKeeps_hostStep h fun _ h => memory_wf_answer h

@[simp] theorem stepKeeps_execPcap {watts} (h : Memory.wf s) : StepKeeps (execPcap watts s) :=
  stepKeeps_hostStep h fun _ h => memory_wf_ite (memory_wf_answer (memory_wf_same h)) (memory_wf_answer h)

@[simp] theorem stepKeeps_execClockThrottle {num den} (h : Memory.wf s) : StepKeeps (execClockThrottle num den s) :=
  stepKeeps_hostStep h fun _ h => memory_wf_ite (memory_wf_same h) h

@[simp] theorem stepKeeps_execThermalCritical {die temp} (h : Memory.wf s) : StepKeeps (execThermalCritical die temp s) :=
  stepKeeps_hostStep h fun _ h => memory_wf_same h

/-! ### The scheduler -/

theorem memory_wf_countIssues {ids} (h : Memory.wf s) : Memory.wf (countIssues s ids) := by
  fun_cases countIssues s ids <;> grind -linarith [memory_wf_modDie]

theorem memory_wf_markIssued {ids} (h : Memory.wf s) : Memory.wf (markIssued s ids) := memory_wf_same (memory_wf_countIssues h)

theorem memory_wf_tick {n} (h : Memory.wf s) : Memory.wf (tick s n) := memory_wf_same h

theorem memory_wf_reachSector {core sector} (h : Memory.wf s) : Memory.wf (reachSector s core sector) := memory_wf_ite (memory_wf_tick h) h

@[simp] theorem stepKeeps_execIssue {core sector} (h : Memory.wf s) : StepKeeps (execIssue core sector s) :=
  stepKeeps_event (fun _ h => by grind -linarith [memory_wf_reachSector, memory_wf_markIssued, memory_wf_same]) h

@[simp] theorem stepKeeps_execAging {grp} (h : Memory.wf s) : StepKeeps (execAging grp s) := stepKeeps_event (fun _ h => memory_wf_modGroup h) h

/-! ### The life of a dispatch -/

theorem stepKeeps_exec {i} (h : Memory.wf s) : StepKeeps (exec i s) := by
  cases i <;> simp [exec, h]

/-! ### Fetching and decoding -/

theorem memory_wf_fetchTrap {gid t} (h : Memory.wf s) : Memory.wf (fetchTrap s gid t) :=
  memory_wf_settleTrap h fun _ h => by grind -linarith [memory_wf_takeTrap, memory_wf_modGroup]

theorem memory_wf_fetchFault {g d pc va cause} (h : Memory.wf s) : Memory.wf (fetchFault s g d pc va cause) :=
  memory_wf_ite (memory_wf_endWith h) (memory_wf_raiseFault (memory_wf_modGroup h))

theorem memory_wf_fetchWord_ok {g d pc a} (h : Memory.wf s) : ∀ z, fetchWord s g d pc a = .ok z → Memory.wf z.1 := by
  fun_cases fetchWord s g d pc a <;> grind -linarith [memory_wf_fetchTrap, memory_wf_translate, memory_wf_fetchFault, memory_wf_modGroup,
    memory_wf_noteBad, memory_wf_sampleAccess, memory_wf_countTraffic, memory_wf_correctPlaces]

theorem memory_wf_fetchWord_error {g d pc a} (h : Memory.wf s) : ∀ z, fetchWord s g d pc a = .error z → Memory.wf z := by
  fun_cases fetchWord s g d pc a <;> grind -linarith [memory_wf_fetchTrap, memory_wf_translate, memory_wf_fetchFault, memory_wf_modGroup,
    memory_wf_noteBad, memory_wf_sampleAccess, memory_wf_countTraffic, memory_wf_correctPlaces]

theorem memory_wf_fetchWords_ok {g d pc} (h : Memory.wf s) : ∀ z, fetchWords s g d pc = .ok z → Memory.wf z.1 := by
  fun_cases fetchWords s g d pc <;> grind -linarith [→ memory_wf_fetchWord_ok, → memory_wf_fetchWord_error]

theorem memory_wf_fetchWords_error {g d pc} (h : Memory.wf s) : ∀ z, fetchWords s g d pc = .error z → Memory.wf z := by
  fun_cases fetchWords s g d pc <;> grind -linarith [→ memory_wf_fetchWord_ok, → memory_wf_fetchWord_error]

theorem memory_wf_fetchCur (h : Memory.wf s) : Memory.wf (fetchCur s).state := by
  fun_cases fetchCur s <;> grind -linarith [Fetched.state, → memory_wf_fetchWords_ok, → memory_wf_fetchWords_error, memory_wf_fetchTrap]

theorem memory_wf_endIssue {clocks} (h : Memory.wf s) : Memory.wf (endIssue s clocks) := by
  fun_cases endIssue s clocks <;> grind -linarith [memory_wf_modCore, memory_wf_same]

theorem stepKeeps_trimmed {o} (h : StepKeeps o) : StepKeeps (trimmed o) := by
  unfold trimmed
  split
  · rintro t ⟨⟩
    exact memory_wf_trimSlices (h _ rfl)
  · exact h

/-! ### The step -/

theorem stepKeeps_step (h : Memory.wf s) : StepKeeps (step s) := by
  unfold step
  refine stepKeeps_trimmed ?_
  split
  · have hf := memory_wf_fetchCur h
    split <;> rename_i hr <;> rw [hr] at hf
    · rintro t ⟨⟩
      exact memory_wf_endIssue hf
    · split
      next hu =>
        rintro t ⟨⟩
        exact memory_wf_endIssue (stepKeeps_exec hf _ hu)
      next => exact stepKeeps_exec hf
  · split
    · split
      · exact stepKeeps_exec (memory_wf_same h)
      · rintro t ⟨⟩
        exact memory_wf_same h
    · split
      · exact stepKeeps_exec h
      · rintro t ⟨⟩
        exact memory_wf_tick h

end
end Sys2Proof.CanonicalMemory

open Sys2Proof.CanonicalMemory

/-- Settles O6: a step fetches, executes one instruction or event, and trims the slices, and each of these keeps the form. -/
theorem memoryStaysCanonical : Obligations.MemoryStaysCanonical := by
  unfold Obligations.MemoryStaysCanonical
  exact fun s t h ht => stepKeeps_step h t ht
end

section
/-! SUPPORT. The first step after reset (O5). -/
namespace Sys2Proof.Reset
open Sys2Proof.Machine

/-- Nothing runs and nothing waits, so the first step is the device's power-on. -/
theorem step_reset : step State.reset = .next { State.reset with power := .on } := rfl

end Sys2Proof.Reset

open Sys2Proof.Machine Sys2Proof.Laws Sys2Proof.Reset

/-- Settles O5: each part is the reset state's own value, and the last its first step. -/
theorem afterReset : Obligations.AfterReset := by
  unfold Obligations.AfterReset
  exact ⟨memory_wf_reset, fun _ => rfl, rfl, rfl, rfl, rfl, rfl, by decide, step_reset⟩
end

section
/-! SUPPORT. The group that a sector issues (O4). -/
namespace Sys2Proof.Selection
open Sys2Proof.Machine

/-- The order among groups of one priority: the one that issued least recently, groups that never issued by their launch. -/
def olderThan (a b : Group) : Prop :=
  match a.lastIssue, b.lastIssue with
  | none, none => a.born < b.born ∨ (a.born = b.born ∧ a.id < b.id)
  | none, some _ => True
  | some _, none => False
  | some m, some n => m < n

theorem selectsBefore_iff {a b : Group} : selectsBefore a b = true ↔ effPrio b < effPrio a ∨ (effPrio a = effPrio b ∧ olderThan a b) := by
  unfold selectsBefore olderThan
  by_cases he : effPrio a = effPrio b
  · cases a.lastIssue <;> cases b.lastIssue <;> simp [he]
  · simp [he]

theorem olderThan_trans {a b c : Group} (hab : olderThan a b) (hbc : olderThan b c) : olderThan a c := by
  unfold olderThan at *
  cases ha : a.lastIssue <;> cases hb : b.lastIssue <;> cases hc : c.lastIssue <;> simp only [ha, hb, hc] at * <;> omega

/-- What comes before a group comes before all that the group comes before. -/
theorem selectsBefore_trans {a b c : Group} (hab : selectsBefore a b = true) (hbc : selectsBefore b c = true) : selectsBefore a c = true := by
  rw [selectsBefore_iff] at *
  rcases hab with hab | ⟨hab, ho⟩ <;> rcases hbc with hbc | ⟨hbc, ho'⟩
  · exact .inl (by omega)
  · exact .inl (by omega)
  · exact .inl (by omega)
  · exact .inr ⟨by omega, olderThan_trans ho ho'⟩

theorem selectsBefore_irrefl (a : Group) : selectsBefore a a = false := by
  unfold selectsBefore
  cases a.lastIssue <;> simp

/-- The group found so far is one of those seen, and none of them comes before it. -/
def IsFirst (l : List Group) (g : Group) : Prop := g ∈ l ∧ ∀ h ∈ l, selectsBefore h g = false

theorem isFirst_append {l : List Group} {b g : Group} (h : IsFirst l b) : IsFirst (l ++ [g]) (if selectsBefore g b then g else b) := by
  obtain ⟨hb, hl⟩ := h
  split
  next hg =>
    refine ⟨by simp, fun h hh => ?_⟩
    rcases List.mem_append.mp hh with hh | hh
    · exact Bool.eq_false_iff.mpr fun hc => Bool.eq_false_iff.mp (hl h hh) (selectsBefore_trans hc hg)
    · rw [List.mem_singleton.mp hh, selectsBefore_irrefl]
  next hg =>
    refine ⟨by simp [hb], fun h hh => ?_⟩
    rcases List.mem_append.mp hh with hh | hh
    · exact hl h hh
    · rw [List.mem_singleton.mp hh]
      exact Bool.eq_false_iff.mpr hg

/-- The step of `firstOf`. -/
def pickFirst (m : Option Group) (g : Group) : Option Group :=
  match m with | none => some g | some b => if selectsBefore g b then some g else some b

theorem pickFirst_some (b g : Group) : pickFirst (some b) g = some (if selectsBefore g b then g else b) := (apply_ite some ..).symm

theorem isFirst_of_foldl {l seen : List Group} {b g : Group} (hb : IsFirst seen b) (h : l.foldl pickFirst (some b) = some g) :
    IsFirst (seen ++ l) g := by
  induction l generalizing seen b with
  | nil =>
    cases Option.some.inj h
    simpa using hb
  | cons a l ih =>
    rw [List.foldl_cons, pickFirst_some] at h
    have := ih (isFirst_append hb) h
    rwa [List.append_assoc] at this

theorem isFirst_of_firstOf {l : List Group} {g : Group} (h : firstOf l = some g) : IsFirst l g := by
  cases l with
  | nil => cases h
  | cons a l => exact isFirst_of_foldl (seen := [a]) ⟨by simp, by simp [selectsBefore_irrefl]⟩ h

/-- With no chain in progress the sector issues the first of its ready groups. -/
theorem isFirst_of_selectGroup {s : State} {c sector : Nat} {g : Group} (hg : selectGroup s c sector = some g)
    (hc : ∀ h ∈ sectorReady s c sector, h.chain = none) : IsFirst (sectorReady s c sector) g := by
  unfold selectGroup at hg
  dsimp only at hg
  split at hg
  · have he : (sectorReady s c sector).filter (inChain s) = [] :=
      List.filter_eq_nil_iff.mpr fun h hh => by simp [inChain, hc h hh]
    rw [he] at hg
    cases hg
  · exact isFirst_of_firstOf hg

theorem mem_of_selectGroup {s : State} {c sector : Nat} {g : Group} (hg : selectGroup s c sector = some g) : g ∈ sectorReady s c sector := by
  unfold selectGroup at hg
  dsimp only at hg
  split at hg
  · exact (List.mem_filter.mp (isFirst_of_firstOf hg).1).1
  · exact (isFirst_of_firstOf hg).1

end Sys2Proof.Selection

open Sys2Proof.Machine Sys2Proof.Selection

/-- Settles O4: the group selected is first in the order of selection, which is that of R330. -/
theorem highestPriorityIssues : Obligations.HighestPriorityIssues := by
  intro s c sector g hg
  refine ⟨mem_of_selectGroup hg, fun hc h hh => ?_⟩
  have hb : ¬(effPrio g < effPrio h ∨ (effPrio h = effPrio g ∧ olderThan h g)) :=
    selectsBefore_iff.not.mp (Bool.eq_false_iff.mp ((isFirst_of_selectGroup hg hc).2 h hh))
  refine ⟨Nat.le_of_not_lt fun hlt => hb (.inl hlt), fun he => ?_⟩
  have ho : ¬ olderThan h g := fun ho => hb (.inr ⟨he, ho⟩)
  unfold olderThan at ho
  cases hi : g.lastIssue <;> cases hj : h.lastIssue <;> simp [hi, hj] at ho ⊢ <;> omega
end

section
/-! SUPPORT. What a trap saves (R385, R388), and where its group goes (O11). -/
namespace Sys2Proof.TrapEntry
open Sys2Proof.Machine Sys2Proof.Safety Sys2Proof.Laws

/-- Word 0 of a record says whether the trap goes to the user handler and whether it came from there (R385). -/
theorem recWords_flags (r : RecF) (clk : Nat) :
    ((recWords r clk)[0]?.getD 0).getLsbD 26 = r.user ∧ ((recWords r clk)[0]?.getD 0).getLsbD 25 = r.nested := by
  have hh := r.half.toNat_le
  simp only [recWords, List.getElem?_cons_zero, Option.getD_some, BitVec.getLsbD_ofNat, Nat.testBit_eq_decide_div_mod_eq]
  cases r.user <;> cases r.nested <;> simp <;> omega

section
variable {s : State} {g : Group} {pc next : DWord} {t : TrapInfo}

/-- A trap ends the chain, which its group leaves as `restartChain` does. -/
theorem trapGroup_kept :
    let h := trapGroup s g pc next t
    h.lat = [] ∧ h.latw = [] ∧ h.chain = none ∧ h.deferred = 0 ∧ h.v = g.v ∧ h.k = g.k ∧ h.preds = g.preds ∧ h.segLocal = g.segLocal ∧
      h.segConst = g.segConst ∧ h.segGlob = g.segGlob ∧ h.fpstat = g.fpstat ∧ h.fptrap = g.fptrap ∧ h.flushctl = g.flushctl ∧ h.task = g.task := by
  unfold trapGroup
  dsimp only
  rw [restartChain_eq g]
  split <;> exact ⟨rfl, rfl, rfl, rfl, rfl, rfl, rfl, rfl, rfl, rfl, rfl, rfl, rfl, rfl⟩

/-- A trap whose handler its dispatch names and its group is not in goes there. -/
theorem trapGroup_user {d : Dispatch} (hd : dispOf s g = some d) (hu : userKind t = true) (hh : dispHandler d ≠ 0) (hs : g.state ≠ .handler) :
    let r := trapRecord g pc next t true false
    let pcs := (restartChain g).pcv.mapIdx fun l a => if a != exitPc && t.mask.contains l then r.raddr else a
    let h := trapGroup s g pc next t
    h.state = .handler ∧ h.shadow = some ⟨pcs, g.preds, g.deferred, s.nextId⟩ ∧ h.trec = recWords r s.clk ∧
      h.pcv = (restartChain g).pcv.map fun a => if a = exitPc then a else BitVec.ofNat 64 (dispHandler d - dispHandler d % 8) := by
  intro r pcs h
  have hn : (g.state == .handler) = false := by simpa using hs
  have hp : (restartChain g).preds = g.preds := by rw [restartChain_eq]
  have hf : (restartChain g).deferred = g.deferred := by rw [restartChain_eq]
  simp only [h, trapGroup, hd, Option.map_some, Option.getD_some, hu, hn, bne_iff_ne.mpr hh, Bool.not_false, Bool.and_self, if_true, dropConv, hp, hf,
    true_and, and_true]
  exact ⟨rfl, rfl⟩

theorem trapGroup_nested (hs : g.state = .handler) :
    (trapGroup s g pc next t).state = .held ∧ (trapGroup s g pc next t).trec = recWords (trapRecord g pc next t false true) s.clk := by
  simp [trapGroup, hs]

theorem trapRaddr_eq : trapRaddr g pc next t = if t.nextPc then next else (g.chain.map (·.head)).getD pc := by
  unfold trapRaddr
  cases g.chain <;> rfl

/-- The pcv of a lane after its chain restarts. -/
theorem getElem?_pcv_restartChain {l : Nat} (hl : l < g.pcv.length) (he : pcvOf g l ≠ exitPc) : (restartChain g).pcv[l]? = some (restartPc g l) := by
  have hlen : l < (restartChain g).pcv.length := by
    unfold restartChain
    split <;> simpa using hl
  rw [← pcvOf_restartChain hl he, pcvOf, List.getElem?_eq_getElem hlen, Option.getD_some]

end

end Sys2Proof.TrapEntry

open Sys2Proof.Machine Sys2Proof.Safety Sys2Proof.Laws Sys2Proof.TrapEntry

/-- Settles O11: the group after the trap is `trapGroup`, in the handler or held. -/
theorem trapEntry : Obligations.TrapEntry := by
  intro s g d pc next t hg hd hu hh u restart
  have hf := findGroup_takeTrap pc next t hg
  obtain ⟨hlat, hlatw, hchain, hdef, hregs⟩ := trapGroup_kept (s := s) (g := g) (pc := pc) (next := next) (t := t)
  refine ⟨fun hs => ?_, fun hs => ?_⟩
  · obtain ⟨hstate, hshadow, htrec, hpcv⟩ := trapGroup_user (pc := pc) (next := next) hd hu hh hs
    obtain ⟨huser, hnested⟩ := recWords_flags (trapRecord g pc next t true false) s.clk
    refine ⟨_, _, hf, hstate, hlat, hlatw, hchain, hshadow, rfl, rfl, ?_, ?_, ?_, ?_, ?_, fun l hl he hr => ?_, hdef, hregs⟩ <;> rw [htrec]
    · exact huser
    · exact hnested
    · rfl
    · rfl
    · exact trapRaddr_eq
    · have hp : (restartChain g).pcv[l]? = some (restart l) := getElem?_pcv_restartChain hl he
      have hw : (recWords (trapRecord g pc next t true false) s.clk)[2]?.getD 0 = (trapRecord g pc next t true false).raddr := rfl
      constructor
      · rw [List.getElem?_mapIdx, hp, hw]
        by_cases hm : l ∈ t.mask <;> simp [hr, hm]
      · rw [pcvOf, hpcv, List.getElem?_map, hp]
        simp [hr]
  · obtain ⟨hstate, htrec⟩ := trapGroup_nested (s := s) (pc := pc) (next := next) (t := t) hs
    obtain ⟨huser, hnested⟩ := recWords_flags (trapRecord g pc next t false true) s.clk
    exact ⟨_, hf, hstate, hdef, htrec ▸ hnested, htrec ▸ huser⟩
end

section
/-! SUPPORT. `iret` and its form that skips (R389). -/
namespace Sys2Proof.HandlerReturn
open Sys2Proof.Machine Sys2Proof.Safety Sys2Proof.Laws

theorem joinConverged_id (x : Issue) : (joinConverged x).g.id = x.g.id := rfl

/-- The group of a convergent issue, found in the state in which its own effect begins. -/
theorem findGroup_entry_of_conv {s : State} {i : Instr} {x : Issue} (h : convIssueOf s i = some x) :
    findGroup (entry s x) x.g.id = some x.g := by
  obtain ⟨g, y, hc, hy, -, -, rfl, -⟩ := convIssueOf_some h
  have hid : (joinConverged y).g.id = g.id := by
    rw [joinConverged_id, (mkIssue_g hy).1]
    unfold clearDeferral
    split <;> rfl
  exact findGroup_setGroup (hid ▸ found_of_cur hc)

section
variable {g : Group} {sh : Shadow} {skip : Bool} {len l : Nat}

theorem returnFromTrap_eq (hs : g.shadow = some sh) :
    let h := returnFromTrap g skip len
    h.state = .run ∧ h.preds = sh.preds ∧ h.deferred = sh.deferred ∧ h.shadow = none ∧ h.chain = g.chain ∧ h.width = g.width := by
  simp [returnFromTrap, hs]

theorem returnFromTrap_id (g : Group) : (returnFromTrap g skip len).id = g.id := by
  unfold returnFromTrap
  split <;> rfl

/-- Where a lane that had not exited goes on. -/
theorem pcvOf_returnFromTrap (hs : g.shadow = some sh) (hl : l < sh.pcv.length) (he : pcvOf g l ≠ exitPc) :
    pcvOf (returnFromTrap g skip len) l =
      if skip = true ∧ (g.trec[3]?.getD 0).getLsbD l = true then g.trec[1]?.getD 0 + BitVec.ofNat 64 len else sh.pcv[l]?.getD 0 := by
  have hx : laneExited g l = false := beq_eq_false_iff_ne.mpr he
  simp [returnFromTrap, hs, pcvOf, hl, hx]

/-- A group with a lane that has not exited goes on. -/
theorem exitIfDone_of_live {s : State} (hf : findGroup s g.id = some g) (hl : l < g.width) (he : pcvOf g l ≠ exitPc) : exitIfDone s g.id = s := by
  have hn : ¬ (lanesOf g).all (laneExited g) = true := by
    simp only [List.all_eq_true, not_forall]
    exact ⟨l, by simpa [lanesOf] using hl, by simpa [laneExited] using he⟩
  simp [exitIfDone, hf, hn]

end

end Sys2Proof.HandlerReturn

open Sys2Proof.Machine Sys2Proof.Safety Sys2Proof.Laws Sys2Proof.HandlerReturn

/-- Settles O12: the group after the return is `returnFromTrap`, and a lane that goes on keeps it from ending. -/
theorem handlerReturn : Obligations.HandlerReturn := by
  intro s f x sh d h hs hd ⟨l, hw, hp, hsl, he, h0, h1⟩
  let len := if fmod f 0 1 = 1 then ((dispOf (entry s x) x.g).map fun d => lengthAt (entry s x) d (dieOf x.g) (x.g.trec[1]?.getD 0)).getD 8 else 8
  let g := returnFromTrap { x.g with chain := none } (decide (fmod f 0 1 = 1)) len
  let t := modGroup (entry s x) x.g.id fun g => returnFromTrap { g with chain := none } (decide (fmod f 0 1 = 1)) len
  have hg : findGroup t x.g.id = some g := findGroup_modGroup (findGroup_entry_of_conv h) fun g => returnFromTrap_id _
  have hpc {l} (hl : l < sh.pcv.length) (he : pcvOf x.g l ≠ exitPc) := pcvOf_returnFromTrap (g := { x.g with chain := none })
    (skip := decide (fmod f 0 1 = 1)) (len := len) hs hl he
  obtain ⟨hstate, hpreds, hdef, hshadow, hchain, hwidth⟩ :=
    returnFromTrap_eq (g := { x.g with chain := none }) (skip := decide (fmod f 0 1 = 1)) (len := len) hs
  have hid : g.id = x.g.id := returnFromTrap_id _
  have hlive : pcvOf g l ≠ exitPc := by
    rw [hpc hsl he]
    have hbit : fmod f 0 1 = 0 ∨ fmod f 0 1 = 1 := Nat.mod_two_eq_zero_or_one _
    rcases hbit with hb | hb
    · simpa [hb] using h0 hb
    · obtain ⟨hmask, hpcv⟩ := h1 hb
      rwa [if_neg fun hc => Bool.eq_false_iff.mp hmask hc.2]
  have hgo : exitIfDone t x.g.id = t := by
    rw [← hid] at hg ⊢
    exact exitIfDone_of_live hg (hwidth ▸ hw) hlive
  have hexec : exec (.iret f) s = .next t := (issueConv_done h (by simp)).trans (congrArg Host.Outcome.next hgo)
  refine ⟨t, g, hexec, hg, hstate, hpreds, hdef, hshadow, hchain, fun l hl he => ?_⟩
  have hlen : fmod f 0 1 = 1 → len = lengthAt (entry s x) d (dieOf x.g) (x.g.trec[1]?.getD 0) := fun h1 => by
    simp [len, h1, show dispOf (entry s x) x.g = some d from hd]
  rw [hpc hl he]
  by_cases hb : fmod f 0 1 = 1
  · simp [hb, hlen hb]
  · simp [hb]
end

section
/-! SUPPORT. Atomics and the ordered accesses (R300 to R303, R307, R308) whose release and checks pass. -/
namespace Sys2Proof.Atomics
open Sys2Proof.Machine Sys2Proof.Safety Sys2Proof.Laws Sys2Proof.EngineIssue

section
variable {s t : State} {x : Issue} {i : Instr} {y : XWord} {f : FWord} {o : AtomOp} {ty : AtomTy} {ls : List LaneOk}

theorem anyLane_of_active (h : x.act ≠ []) (s : State) (r : IRes) : anyLane x s r = r := by simp [anyLane, h]

/-- `atom` and `red` are one operation. -/
theorem exec_atomOrRed (hi : i = .atom y ∨ i = .red y) (s : State) : exec i s = issue i s fun x s => atomOp x s y (decide (i = .red y)) := by
  rcases hi with rfl | rfl
  · simp only [reduceCtorEq, decide_false]; rfl
  · simp only [decide_true]; rfl

/-- `ld.acq` is `ldx` as an acquire. -/
theorem exec_orderedLoad {acq : Bool} (hi : i = .ldx f ∧ acq = false ∨ i = .ldAcq f ∧ acq = true) (s : State) :
    exec i s = issue i s fun x s => ldxOp x s f acq := by
  rcases hi with ⟨rfl, rfl⟩ | ⟨rfl, rfl⟩ <;> rfl

/-- `st.rel` is `stx` as a release. -/
theorem exec_orderedStore {rel : Bool} (hi : i = .stx f ∧ rel = false ∨ i = .stRel f ∧ rel = true) (s : State) :
    exec i s = issue i s fun x s => stxOp x s f rel := by
  rcases hi with ⟨rfl, rfl⟩ | ⟨rfl, rfl⟩ <;> rfl

end

end Sys2Proof.Atomics

open Sys2Proof.Machine Sys2Proof.Safety Sys2Proof.Laws Sys2Proof.EngineIssue Sys2Proof.Atomics

/-- Settles O28: with its checks passed, an atomic's body is its operation on the lanes that the checks give. -/
theorem atomics : Obligations.Atomics := by
  refine ⟨fun s y x i o ty t ls hi ho hty h ha => ?_, fun s y x o ty t k ls l rest ho hty h hact => ?_⟩
  · dsimp only
    intro hr hc
    rw [exec_atomOrRed hi]
    split <;> rename_i hsp
    · exact issue_of_done h (by
        simp only [atomOp, ho, hty, anyLane_of_active ha, relIf_of_ok hr, hc, bne_iff_ne.mpr hsp, if_true, decide_eq_true_eq])
    have hg : (spaceOf (xmod y 0 2) != .g) = false := by simpa using hsp
    split <;> rename_i hred
    · exact issue_of_done h (by
        simp only [atomOp, ho, hty, anyLane_of_active ha, relIf_of_ok hr, hc, hg, hred, decide_true, if_true, Bool.false_eq_true, if_false])
    · exact issue_of_done h (by
        simp only [atomOp, ho, hty, anyLane_of_active ha, relIf_of_ok hr, hc, hg, hred, decide_false, Bool.false_eq_true, if_false, issueOf_i h])
  · have ha : x.act ≠ [] := hact ▸ nofun
    dsimp only
    intro hr hc
    split <;> rename_i hloc
    · exact issue_of_done h (by simp only [ho, hty, anyLane_of_active ha, relIf_of_ok hr, hc, hact, List.map_cons, List.map_map, hloc]; rfl)
    · exact issue_of_done h (by simp only [ho, hty, anyLane_of_active ha, relIf_of_ok hr, hc, hact, List.map_cons, hloc, issueOf_i h])

/-- Settles O29: the same of the ordered accesses, of which `ldx` and `ld.acq` are one operation, and `stx` and `st.rel`. -/
theorem orderedLoadsAndStores : Obligations.OrderedLoadsAndStores := by
  refine ⟨fun s f x i acq t ls hi h ha => ?_, fun s f x i rel t ls hi h ha hr => ?_⟩
  · dsimp only
    intro hc
    rw [exec_orderedLoad hi]
    split <;> rename_i hsp
    · exact issue_of_done h (by simp only [ldxOp, anyLane_of_active ha, hc, bne_iff_ne.mpr hsp, if_true])
    · have hg : (spaceOf (fmod f 3 2) != .g) = false := by simpa using hsp
      exact issue_of_done h (by simp only [ldxOp, anyLane_of_active ha, hc, hg, Bool.false_eq_true, if_false, issueOf_i h])
  · dsimp only
    intro hc
    rw [exec_orderedStore hi]
    exact issue_of_done h (by simp only [stxOp, anyLane_of_active ha, relIf_of_ok hr, hc])
end

section
/-! SUPPORT. Deterministic reduction objects whose headers pass their checks (R304 to R306). -/
namespace Sys2Proof.ReductionObjects
open Sys2Proof.Machine Sys2Proof.Safety Sys2Proof.Laws Sys2Proof.Atomics

section
variable {s t : State} {x : Issue} {p : Partition} {ls : List LaneOk} {write : Bool}

/-- Headers that answer, and with no uncorrectable word among them, are corrected and met. -/
theorem droCheck_of_met {k : State → Partition → List LaneOk → IRes} (hc : checkLanes s x .g 64 64 3 true write true (baseAddrs s x) = .ok t ls)
    (hp : groupPart t x.g = some p) (hm : (droMet t x p ls).1 = []) (hb : ∀ k ∈ ls, badPlaces (droSettled t x p ls) (placesOf p k.pa 64) = false) :
    droCheck x s write k = k (droReady t x p ls) p ls := by
  have hlost : lostLanes (settleSlots (drainOver t x.g.id (ls.map fun k => (k.place, 64))) p (ls.map (·.pa))) ls = ([], droSettled t x p ls) :=
    Prod.ext hm rfl
  have hbad : (ls.filter fun k => badPlaces (droSettled t x p ls) (placesOf p k.pa 64)) = [] := List.filter_eq_nil_iff.mpr fun k hk => by simp [hb k hk]
  simp only [droCheck, hc, hp, hlost, hbad]
  rfl

theorem firstOfAll_nil : firstOfAll [] = none := rfl

end

end Sys2Proof.ReductionObjects

open Sys2Proof.Machine Sys2Proof.Safety Sys2Proof.Laws Sys2Proof.Atomics Sys2Proof.ReductionObjects

/-- Settles O31: with the headers met, `dro.add` meets no error in its updates, and `dro.get` finds every object FULL and of its type. -/
theorem reductionObjects : Obligations.ReductionObjects := by
  refine ⟨fun s y x t u ls us p h ha hr => ?_, fun s y x t ls p h ha hc hp => ?_⟩
  · dsimp only
    intro hc hp hm hb hl hn
    refine issue_of_done h ?_
    have hbads : (if u.badWords = [] then [] else droBads p (xmod y 0 2) us u) = [] := by rw [hn, ite_self]
    simp only [anyLane_of_active ha, withRelease_of_releaseOk hr, droCheck_of_met hc hp hm hb, hl, hbads, List.map_nil, List.append_nil,
      firstOfAll_nil, Bool.false_eq_true, if_false, issueOf_i h]
  · dsimp only
    intro hm hk
    refine issue_of_done h ?_
    have hfilter {q : LaneOk → Bool} (hq : ∀ k ∈ ls, q k = false) : ls.filter q = [] := List.filter_eq_nil_iff.mpr fun k hk => by simp [hq k hk]
    have htype : (ls.filter fun k => !(droFlags (droReady t x p ls) p k.pa).testBit 0 ||
        rdPaNum (droReady t x p ls) p (k.pa + 4) 1 != xmod y 0 2) = [] := hfilter fun k hl => by
      obtain ⟨-, hval, hty, -⟩ := hk k hl
      simp [hval, hty]
    have hfull : (ls.filter fun k => !(droFlags (droReady t x p ls) p k.pa).testBit 1) = [] := hfilter fun k hl => by
      obtain ⟨-, -, -, hf⟩ := hk k hl
      simp [hf]
    simp only [anyLane_of_active ha, droCheck_of_met hc hp hm fun k hl => (hk k hl).1, htype, hfull, issueOf_i h]
end

section
/-! SUPPORT. The group that a dispatch launches (R322). -/
namespace Sys2Proof.LaunchedGroup
open Sys2Proof.Machine Sys2Proof.Laws

section
variable (s : State) (d : Dispatch) (team grp c : Nat) (r : Nat × Nat × List Nat)

/-- A worker parks at once; what else R322 gives it is what any group has. -/
theorem newGroup_fields :
    let g := newGroup s d team grp c r
    g.width = 2 ^ (3 + recByte d 20) ∧ g.pcv = List.replicate g.width (BitVec.ofNat 64 (recNum d 0 8)) ∧ g.blocks = r.2.2 ∧ g.v = [] ∧ g.preds = [] ∧
    g.segLocal = (0, BitVec.ofNat 64 (4096 * dispLocalG d)) ∧ g.segConst = (BitVec.ofNat 64 (recNum d 8 8), BitVec.ofNat 64 (recNum d 16 4)) ∧
    g.segGlob = (if (dispFlags d).testBit 5 then (BitVec.ofNat 64 (recNum d 72 8), BitVec.ofNat 64 (recNum d 80 8)) else (0, BitVec.ofNat 64 (2 ^ 57))) ∧
    g.flushctl = 0 ∧ g.fpstat = 0 ∧ g.fptrap = 0 ∧ g.mstat = mstatReset ∧ g.prio = BitVec.ofNat 32 (dispPrioCeil d) ∧
    g.state = (if dispTask d then .park else .run) := by
  unfold newGroup
  cases dispTask d <;> exact ⟨rfl, rfl, rfl, rfl, rfl, rfl, rfl, rfl, rfl, rfl, rfl, rfl, rfl, rfl⟩

theorem readK_newGroup (n : Nat) :
    readK (newGroup s d team grp c r) n =
      if n = 1 then BitVec.ofNat 32 (recNum d 56 8 / 2 ^ 32) else if n = 0 then BitVec.ofNat 32 (recNum d 56 8) else 0 := by
  unfold newGroup
  cases dispTask d <;> exact (readK_writeK _ 1 n _).trans (congrArg _ (readK_writeK _ 0 n _))

end

end Sys2Proof.LaunchedGroup

open Sys2Proof.Machine Sys2Proof.LaunchedGroup

/-- Settles O41: the fields of the group, its register file empty but for `k0` and `k1`. -/
theorem launchState : Obligations.LaunchState := by
  intro s d team grp c r g
  have hk := readK_newGroup s d team grp c r
  obtain ⟨-, hpcv, hblocks, hv, hpreds, hrest⟩ := newGroup_fields s d team grp c r
  refine ⟨fun l hl => ?_, hblocks, fun l n => ?_, hk 0, hk 1, fun n hn => ?_, fun n l hn => ?_, hrest⟩
  · rw [pcvOf, hpcv, List.getElem?_replicate_of_lt hl, Option.getD_some]
  · rw [readV, hv]; rfl
  · rw [hk n, if_neg (by omega), if_neg (by omega)]
  · rw [predOf, hpreds, if_neg (by omega)]; exact BitVec.getLsbD_zero
end

section
/-! SUPPORT. Performing a group's accesses in flight leaves every dispatch. -/
namespace Sys2Proof.KeptDispatches
open Sys2Proof.Machine Sys2Proof.Laws
set_option Elab.async false

theorem dispatches_foldl {α : Type} {f : State → α → State} (hf : ∀ s a, (f s a).dispatches = s.dispatches) (l : List α) (s : State) :
    (l.foldl f s).dispatches = s.dispatches := by
  induction l generalizing s with
  | nil => rfl
  | cons a l ih => exact (ih _).trans (hf s a)

theorem dispatches_drawOracle (s : State) : (drawOracle s).2.dispatches = s.dispatches := by
  fun_cases drawOracle s <;> grind -linarith

theorem dispatches_wrPlaces (s : State) (owner : Option Nat) (a2 : List (Nat × Byte)) : (wrPlaces s owner a2).dispatches = s.dispatches := by
  obtain ⟨_, _, e⟩ := wrPlaces_eq s owner a2
  rw [e]

theorem dispatches_countUncorr (s : State) (die : Nat) (ls : List ArrayLoc) : (countUncorr s die ls).dispatches = s.dispatches := by
  obtain ⟨_, e⟩ := countUncorr_eq s die ls
  rw [e]

theorem dispatches_healPlaces (s : State) (ps : List Nat) : (healPlaces s ps).dispatches = s.dispatches := rfl

theorem dispatches_correctPlaces (s : State) (ps : List Nat) : (correctPlaces s ps).dispatches = s.dispatches := by
  obtain ⟨_, _, e⟩ := correctPlaces_eq s ps
  rw [e]

theorem dispatches_stampWrites (s : State) (ks : List Nat) : (stampWrites s ks).dispatches = s.dispatches := rfl

theorem dispatches_dropCopies (s : State) (c : Nat) (ps : List Nat) : (dropCopies s c ps).dispatches = s.dispatches := rfl

theorem dispatches_storePlaces (s : State) (c : Nat) (bs : List (Nat × Byte)) : (storePlaces s c bs).dispatches = s.dispatches :=
  dispatches_wrPlaces (stampWrites s _) (some _) _

theorem dispatches_recallPlaces (s : State) (ps : List Nat) : (recallPlaces s ps).dispatches = s.dispatches := rfl

theorem dispatches_wrCoherent (s : State) (bs : List (Nat × Byte)) : (wrCoherent s bs).dispatches = s.dispatches :=
  dispatches_wrPlaces (stampWrites s _) none _

theorem dispatches_touchRead (s : State) (gid : Nat) : (touchRead s gid).dispatches = s.dispatches := rfl

theorem dispatches_noteRead (s : State) (gid n : Nat) : (noteRead s gid n).dispatches = s.dispatches := rfl

theorem dispatches_readChunk (s : State) (c low : Nat) (ps : List Nat) : (readChunk s c low ps).2.2.dispatches = s.dispatches := by
  fun_cases readChunk s c low ps <;> grind -linarith [modCore_dispatches]

theorem dispatches_readChunks (c low : Nat) (a2 : List (List Nat)) (s : State) : (readChunks c low a2 s).2.2.dispatches = s.dispatches := by
  fun_induction readChunks c low a2 s <;> grind -linarith [dispatches_readChunk]

theorem dispatches_plainLoad (s : State) (gid low : Nat) (ps : List Nat) : (plainLoad s gid low ps).2.2.dispatches = s.dispatches := by
  fun_cases plainLoad s gid low ps <;> grind -linarith [dispatches_readChunks, dispatches_noteRead]

theorem dispatches_invalidateL1 (s : State) (c : Nat) : (invalidateL1 s c).dispatches = s.dispatches := rfl

theorem dispatches_countPair (s : State) (d t rb : Nat) : (countPair s d t rb).dispatches = s.dispatches := by
  fun_cases countPair s d t rb
  grind -linarith [modDie_dispatches, dispatches_foldl]

theorem dispatches_countLine (s : State) (p : Partition) (l : Nat × Nat) : (countLine s p l).dispatches = s.dispatches := dispatches_countPair ..

theorem dispatches_writeBackHome (s : State) (line : Nat) : (writeBackHome s line).dispatches = s.dispatches := by
  fun_cases writeBackHome s line
  grind -linarith [dispatches_foldl]

theorem dispatches_sweepSlots (s : State) (p : Partition) (slots : List Nat) : (sweepSlots s p slots).dispatches = s.dispatches := by
  fun_cases sweepSlots s p slots
  grind -linarith [dispatches_writeBackHome, dispatches_countLine, dispatches_foldl]

theorem dispatches_settleSlots (s : State) (p : Partition) (pas : List Nat) : (settleSlots s p pas).dispatches = s.dispatches := by
  fun_cases settleSlots s p pas <;> grind -linarith [dispatches_sweepSlots]

theorem dispatches_countTraffic (s : State) (p : Partition) (d pa : Nat) : (countTraffic s p d pa).dispatches = s.dispatches := by
  fun_cases countTraffic s p d pa <;> grind -linarith [dispatches_countPair]

theorem dispatches_postRec (s : State) (q : PostQueue) (die : Nat) (src : RecSource) (ws : List DWord) :
    (postRec s q die src ws).dispatches = s.dispatches := by
  obtain ⟨_, _, _, _, _, _, _, _, e, -⟩ := postRec_eq s q die src ws
  rw [e]

theorem dispatches_notify (s : State) (die : Nat) (src : RecSource) (r : RecF) : (notify s die src r).dispatches = s.dispatches :=
  dispatches_postRec ..

theorem dispatches_countRedirect (s : State) (die : Nat) : (countRedirect s die).dispatches = s.dispatches := rfl

theorem dispatches_modFlight (s : State) (gid seq : Nat) (f : Flight → Flight) : (modFlight s gid seq f).dispatches = s.dispatches := rfl

theorem dispatches_modStore (s : State) (gid seq : Nat) (f : PendStore → PendStore) : (modStore s gid seq f).dispatches = s.dispatches := rfl

theorem dispatches_constChunk (s : State) (g : Group) (ps : List Nat) : (constChunk s g ps).2.dispatches = s.dispatches := by
  fun_cases constChunk s g ps <;> grind -linarith [dispatches_drawOracle, modCore_dispatches]

theorem dispatches_constLoad (g : Group) (a1 : List (List Nat)) (s : State) : (constLoad g a1 s).2.dispatches = s.dispatches := by
  fun_induction constLoad g a1 s <;> grind -linarith [dispatches_constChunk]

theorem dispatches_performLoad (s : State) (g : Group) (f : Flight) (a : LaneAcc) : (performLoad s g f a).2.2.dispatches = s.dispatches := by
  fun_cases performLoad s g f a <;> grind -linarith [dispatches_plainLoad, dispatches_constLoad, dispatches_noteRead, dispatches_dropCopies]

theorem dispatches_performAtom (s : State) (gid core place : Nat) (o : AtomOp) (t : AtomTy) (b c : Nat) :
    (performAtom s gid core place o t b c).2.dispatches = s.dispatches := by
  unfold performAtom
  dsimp only
  split
  · exact dispatches_wrCoherent ..
  · rfl

theorem dispatches_performLane (s : State) (g : Group) (p : Partition) (f : Flight) (a : LaneAcc) :
    (performLane s g p f a).dispatches = s.dispatches := by
  fun_cases performLane s g p f a <;> grind -linarith [dispatches_modFlight, dispatches_countUncorr, dispatches_correctPlaces,
    dispatches_countTraffic, dispatches_performAtom, dispatches_performLoad]

theorem dispatches_performAgg (s : State) (g : Group) (p : Partition) (f : Flight) (o : AtomOp) (t : AtomTy) (b : List (Nat × Nat)) :
    (performAgg s g p f o t b).dispatches = s.dispatches := by
  unfold performAgg
  dsimp only
  split
  · rfl
  split
  · rfl
  split
  · exact dispatches_countUncorr ..
  split
  · rfl
  · exact (dispatches_performAtom ..).trans ((dispatches_correctPlaces ..).trans (dispatches_countTraffic ..))

theorem dispatches_performFlight (s : State) (gid seq : Nat) : (performFlight s gid seq).dispatches = s.dispatches := by
  fun_cases performFlight s gid seq <;> grind -linarith [dispatches_performAgg, dispatches_performLane, dispatches_foldl]

theorem dispatches_returnFlight (s : State) (gid seq : Nat) (errLanes : DWord) : (returnFlight s gid seq errLanes).dispatches = s.dispatches := by
  unfold returnFlight
  split
  · rfl
  split
  · rfl
  split
  · rfl
  · dsimp only
    split <;> rfl

theorem dispatches_registerStore (s : State) (gid seq : Nat) (err : Bool) : (registerStore s gid seq err).dispatches = s.dispatches := by
  fun_cases registerStore s gid seq err <;> grind -linarith [dispatches_countUncorr, dispatches_notify, dispatches_countTraffic,
    dispatches_touchRead, dispatches_storePlaces, dispatches_performAtom, modGroup_dispatches]

theorem dispatches_redirectAll (s : State) (gid : Nat) : (redirectAll s gid).dispatches = s.dispatches := by
  fun_cases redirectAll s gid <;> grind -linarith [dispatches_countRedirect, dispatches_modFlight, dispatches_modStore, dispatches_settleSlots,
    dispatches_foldl]

theorem dispatches_drainSeqs (s : State) (gid : Nat) (seqs : List Nat) : (drainSeqs s gid seqs).dispatches = s.dispatches := by
  fun_cases drainSeqs s gid seqs <;> grind -linarith [dispatches_performFlight, dispatches_registerStore, dispatches_redirectAll,
    dispatches_returnFlight, dispatches_foldl]

theorem dispatches_drainTo (s : State) (gid n : Nat) : (drainTo s gid n).dispatches = s.dispatches := by
  fun_cases drainTo s gid n <;> grind -linarith [dispatches_drainSeqs]

theorem dispatches_drainGroup (s : State) (gid : Nat) : (drainGroup s gid).dispatches = s.dispatches := by
  fun_cases drainGroup s gid
  grind -linarith [dispatches_drainTo]

/-- A group's dispatch is the same before and after. -/
theorem dispOf_released (s : State) (x : Issue) (g : Group) : dispOf (Safety.released s x) g = dispOf s g := by
  unfold dispOf findDisp
  rw [Safety.released, modGroup_dispatches, dispatches_drainGroup]

end Sys2Proof.KeptDispatches
end

section
/-! SUPPORT. Convergence registers and the hidden barriers (R335 to R337). -/
namespace Sys2Proof.GroupBarriers
open Sys2Proof.Machine Sys2Proof.Safety Sys2Proof.Laws

section
variable {s t : State} {i : Instr} {x : Issue} {body : Issue → State → IRes}

/-- A convergent instruction whose body leaves its group waiting for the instruction's end (R334). -/
theorem issueConv_of_parkDone {w : Wait} (h : convIssueOf s i = some x) (hb : body x (entry s x) = .parkDone t w) :
    issueConv i s body = .next (parkedDone t x w) := by
  rw [issueConv_done h (by simp [hb]), hb]; rfl

/-- The last arrival goes on as an acquire, any other waits. -/
theorem issueConv_of_afterArrive {before : Nat} {now : State → Nat} {check : State → State} {w : Wait} (h : convIssueOf s i = some x)
    (hb : body x (entry s x) = afterArrive x before now check t w) :
    issueConv i s body = .next (if now (check t) ≠ before then plain (acquireNow (check t) x.g.id) x else parkedDone t x w) := by
  unfold afterArrive at hb
  dsimp only at hb
  split <;> rename_i hp
  · exact issueConv_of_done h (hb.trans (if_pos (bne_iff_ne.mpr hp)))
  · exact issueConv_of_parkDone h (hb.trans (if_neg (by simpa using hp)))

/-- An arrival at the team's barrier. -/
theorem barTeamOp_of_releaseOk (ha : x.act ≠ []) (hr : releaseOk s x) :
    let a := modTeamOf (released s x) x.g fun t => { t with bar := { t.bar with arrived := x.g.grpid :: t.bar.arrived } }
    barTeamOp x s = afterArrive x (teamPhase a x.g) (fun s => teamPhase s x.g) (fun s => checkTeamBar s x.g.disp x.g.teamid) a .barTeam := by
  simp only [barTeamOp, groupWide_of_active ha, withRelease_of_releaseOk hr]

/-- In a cluster of one team the team's barrier is the cluster's. -/
theorem barClOp_of_alone {tm : Team} {d : Dispatch} (ht : teamOf s x.g = some tm) (hd : dispOf s x.g = some d) (hn : dispClsize d ≤ 1) :
    barClOp x s = barTeamOp x s := by
  simp only [barClOp, ht, hd, hn, if_true]

/-- An arrival at the barrier of a cluster of teams. -/
theorem barClOp_of_releaseOk {tm : Team} {d : Dispatch} (ha : x.act ≠ []) (hr : releaseOk s x) (ht : teamOf s x.g = some tm)
    (hd : dispOf s x.g = some d) (hn : 1 < dispClsize d) :
    let a := modCluster (released s x) x.g.disp tm.clid fun c =>
      { c with bar := { c.bar with arrived := barKey (dispClsize d) tm x.g.grpid :: c.bar.arrived } }
    barClOp x s = afterArrive x (clusterPhase a x.g) (fun s => clusterPhase s x.g) (fun s => checkClusterBar s x.g.disp tm.clid) a .barCl := by
  simp only [barClOp, ht, hd, Nat.not_le.mpr hn, if_false, groupWide_of_active ha, withRelease_of_releaseOk hr]

/-- A set that a signature gives is one of the team's and, where others have signed, theirs (R336). -/
theorem signRefused_eq_false {m signed set : Word} {n : Nat} (h : m ≠ 0 → m.toNat < n ∧ (signed = 0 ∨ m = set)) :
    (m != 0 && (decide (n ≤ m.toNat) || signed != 0 && m != set)) = false := by
  by_cases hm : m = 0
  · simp [hm]
  · obtain ⟨hn, rfl | rfl⟩ := h hm <;> simp [hn]

end

end Sys2Proof.GroupBarriers

open Sys2Proof.Machine Sys2Proof.Safety Sys2Proof.Laws Sys2Proof.KeptDispatches Sys2Proof.GroupBarriers

/-- Settles O44: a signature past its checks, a wait by the phase, an arrival at either barrier. -/
theorem groupBarriers : Obligations.GroupBarriers := by
  refine ⟨fun s f x tm ha ht => ⟨fun h hr hm hset hsig => ?_, fun h => ⟨fun hp => ?_, fun hp => ?_⟩⟩,
    fun s f x ha hr => ⟨fun i tm d hi h => ?_, fun tm d h ht hd hn => ?_⟩⟩
  · have hdisp := dispOf_released (entry s x) x x.g
    refine issue_of_done h ?_
    simp only [groupWide_of_active ha, ht, withRelease_of_releaseOk hr, hdisp, signRefused_eq_false hm, hset, hsig, issueOf_i h,
      Bool.not_true, Bool.false_eq_true, if_false]
  · exact issue_of_done h (by simp only [groupWide_of_active ha, ht, bne_iff_ne.mpr hp, if_true, issueOf_i h])
  · have hn : ((cvOf tm (fmod f 0 4)).phase != rdA (entry s x) x x.lead % 16) = false := by simpa using hp
    exact issue_of_parkDone h (by simp only [groupWide_of_active ha, ht, hn, Bool.false_eq_true, if_false])
  · rcases hi with rfl | ⟨rfl, ht, hd, hn⟩
    · exact issueConv_of_afterArrive h (barTeamOp_of_releaseOk ha hr)
    · exact issueConv_of_afterArrive (body := barClOp) h ((barClOp_of_alone ht hd hn).trans (barTeamOp_of_releaseOk ha hr))
  · exact issueConv_of_afterArrive (body := barClOp) h (barClOp_of_releaseOk ha hr ht hd hn)
end

section
/-! SUPPORT. Launches, spawned records, the end of a task and flushed nodes (R347, R354, R357, R358). -/
namespace Sys2Proof.TaskIssue
open Sys2Proof.Machine Sys2Proof.Safety Sys2Proof.Laws Sys2Proof.EngineIssue

section
variable {s t u : State} {x : Issue} {y : XWord} {i : Instr} {d : Dispatch} {q : List Byte}

/-- A record that is aligned and inside its space. -/
theorem launchCmd_of_open {j : Issuer} {c : CmdSpec} {r : BarRef} (ha : c.a % 64 = 0) (hg : (cmdGlobal j c.a 256).isSome = true)
    (hb : cmdBar s j c = .ok t r) (hq : queueOpen t { newCmd t j ctlQueue c with bar := r, credit := 1 }) :
    launchCmd s j c = .ok (enqueued t { newCmd t j ctlQueue c with bar := r, credit := 1 }) 0 := by
  have hn : (c.a % 64 != 0) = false := by simp [ha]
  have hs : (cmdGlobal j c.a 256).isNone = false := by rw [← Option.not_isSome, hg]; rfl
  simp only [launchCmd, hn, hs, Bool.false_eq_true, if_false]
  exact issueCmd_of_open (mk := fun s r => { newCmd s j ctlQueue c with bar := r, credit := 1 }) hb hq

theorem filter_eq_nil_of_false {α : Type} {p : α → Bool} {l : List α} (h : ∀ a ∈ l, p a = false) : l.filter p = [] :=
  List.filter_eq_nil_iff.mpr fun a ha => by simp [h a ha]

/-- Each form of `coal.flush` is one operation on a node. -/
theorem exec_coalFlush {now : Bool} {f : Nat → Nat → Option Nat}
    (hi : i = .coalFlushNow y ∧ now = true ∧ (f = fun p _ => some p) ∨
      i = .coalFlushDone y ∧ now = false ∧ (f = fun p _ => if p = 0 then none else some (p - 1)) ∨
      i = .coalFlushProd y ∧ now = false ∧ (f = fun p m => if 2 ^ 32 ≤ p + m then none else some (p + m))) (s : State) :
    exec i s = issue i s fun x s => coalOp x s now f := by
  rcases hi with ⟨rfl, rfl, rfl⟩ | ⟨rfl, rfl, rfl⟩ | ⟨rfl, rfl, rfl⟩ <;> rfl

end

end Sys2Proof.TaskIssue

open Sys2Proof.Machine Sys2Proof.Safety Sys2Proof.Laws Sys2Proof.EngineIssue Sys2Proof.TaskIssue

/-- Settles O42: each instruction past its checks. -/
theorem tasksAndLaunches : Obligations.TasksAndLaunches := by
  refine ⟨fun s y x t r h ho => ?_, fun s y x d t u q base h ha hd hr hq => ?_, fun s f x h ha hr => ?_, fun s y x i now f d t q n hi h ha hr => ?_⟩
  · intro t0 c j cmd hal hg hb hq
    exact issue_engineCmd_ok h ho (launchCmd_of_open hal hg hb hq)
  · dsimp only
    intro hm hmig hring
    refine issue_of_done h ?_
    have hbad : ((x.act.map fun l => (l, spawnRec t x y l)).filter fun r => malformedRec d q r.2) = [] := filter_eq_nil_of_false hm
    have hmigs : (List.range 8).any (fun k => ((x.act.map fun l => (l, spawnRec t x y l)).filter fun r => recCkey r.2 == k) != [] &&
        appendMigs t d (dieOf x.g) k ((x.act.map fun l => (l, spawnRec t x y l)).filter fun r => recCkey r.2 == k).length) = false := by
      refine List.any_eq_false.mpr fun k hk => ?_
      rw [Bool.and_eq_true, bne_iff_ne]
      exact fun hc => Bool.eq_false_iff.mp (hmig k (List.mem_range.mp hk) hc.1) hc.2
    simp only [groupWide_of_active ha, hd, withRelease_of_releaseOk hr, hq, hbad, hmigs, hring, issueOf_i h, List.map_nil, bne_self_eq_false,
      Bool.false_eq_true, if_false]
  · exact (issueConv_done h (by simp only [groupWide_of_active ha, withRelease_of_releaseOk hr]; nofun)).trans
      (by simp only [groupWide_of_active ha, withRelease_of_releaseOk hr]; rfl)
  · dsimp only
    intro hd hq hk1 hk7 hth hf hmig
    rw [exec_coalFlush hi]
    refine issue_of_doneWith h ?_
    have hk : ¬ (rdA (released (entry s x) x) x x.lead = 0 ∨ 7 < rdA (released (entry s x) x) x x.lead) := by omega
    simp only [coalOp, groupWide_of_active ha, withRelease_of_releaseOk hr, hd, hq, if_neg hk, if_neg hth, hf, hmig,
      Bool.false_eq_true, if_false, Bool.and_eq_true, Bool.or_eq_true, bne_iff_ne, beq_iff_eq]
end

section
/-! SUPPORT. The tape instructions (R360 to R366) on tapes in the state that each asks. -/
namespace Sys2Proof.TapeIssue
open Sys2Proof.Machine Sys2Proof.Safety Sys2Proof.Laws

section
variable {s t u : State} {x : Issue} {y : XWord} {f : FWord} {h die : Nat} {tp : Tape}

theorem tapeOp_of_open (ho : tapeOpen s x die) (body : State → IRes) : tapeOp x (entry s x) die body = body (drainGroup (entry s x) x.g.id) := by
  obtain ⟨ha, hu⟩ := ho
  simp only [tapeOp, groupWide_of_active ha, hu, Bool.false_eq_true, if_false]

/-- The caller's tape, in a state that the instruction does not find BUSY. -/
theorem withTape_of_own {busy : TState → Bool} {k : Tape → IRes} (hu : unitOff t (tapeDie h) .tape = false)
    (ht : ownTape t (asidOf t x.g) h = some tp) (hb : busy tp.state = false) : withTape x t h busy k = k tp := by
  simp only [withTape, hu, ht, hb, Bool.false_eq_true, if_false]

/-- An instruction that leaves its group to what comes of it. -/
theorem issue_of_gone {i : Instr} {body : Issue → State → IRes} (hi : issueOf s i = some x) (hb : body x (entry s x) = .gone t) :
    issue i s body = .next t := by
  rw [issue_done hi (by simp [hb]), hb]; rfl

/-! ### Recording (R362, R365) -/

theorem exec_tapeRec {d : Die} {bs : List Byte} (hi : issueOf s (.tapeRec y) = some x) (ho : tapeOpen s x (dieOf x.g))
    (hn : ∀ k, x.g.tape ≠ .recording k) (ht : drainGroup (entry s x) x.g.id = t) (hd : findDie t (dieOf x.g) = some d) (hh : freeHandle d = some h)
    (hu : unitOff t d.num .tape = false) (hs : tapeUsed d + 10 ≤ tapeStore) (hb : tableBytes x t (rdA t x x.lead) 8 256 = .ok (u, bs)) :
    exec (.tapeRec y) s = .next (wideResult (modGroup (modDie u d.num fun d =>
      { d with tapes := d.tapes ++ [⟨h, ((dispOf u x.g).map (·.part)).getD 0, asidOf u x.g, .recording, false, false, numsOf 8 bs, [], []⟩] })
      x.g.id fun g => { g with tape := .recording h }) x h) := by
  subst ht
  refine issue_of_doneWith hi ?_
  have hfull : (unitOff (drainGroup (entry s x) x.g.id) d.num .tape || decide (tapeStore < tapeUsed d + 10)) = false := by simp [hu, hs]
  rw [tapeOp_of_open ho]
  cases hg : x.g.tape with
  | recording k => exact absurd hg (hn k)
  | _ => simp only [hd, hh, hfull, hb, Bool.false_eq_true, if_false]

theorem exec_tapeStop (hi : issueOf s (.tapeStop f) = some x) (ho : tapeOpen s x (dieOf x.g)) (ht : drainGroup (entry s x) x.g.id = t)
    (hg : (findGroup t x.g.id).map Group.tape = some (.recording h)) (hu : (modGroup t x.g.id fun g => { g with tape := .none }) = u)
    (hf : findTape u h = some tp) (hfull : tp.full = false) (hrec : tp.unrec = false) :
    exec (.tapeStop f) s = .next (wideResult (modTape u h fun t => { t with state := .ready }) x tp.units.length) := by
  subst ht hu
  refine issue_of_doneWith hi ?_
  rw [tapeOp_of_open ho]
  simp only [hg, hf, hfull, hrec, Bool.false_eq_true, if_false]

theorem exec_tapeDrop (hi : issueOf s (.tapeDrop y) = some x) (hh : rdA (entry s x) x x.lead = h) (ho : tapeOpen s x (tapeDie h))
    (ht : drainGroup (entry s x) x.g.id = t) (hu : unitOff t (tapeDie h) .tape = false) (hown : ownTape t (asidOf t x.g) h = some tp)
    (hr : tp.state ≠ .recording) (hp : tp.state ≠ .playing) : exec (.tapeDrop y) s = .next (wideResult (freeTape t tp.handle) x 0) := by
  subst ht hh
  refine issue_of_doneWith hi ?_
  dsimp only
  rw [tapeOp_of_open ho, withTape_of_own hu hown (by simp [hr, hp])]

/-! ### Patching (R365) -/

theorem exec_tapePatchSlot (hs : tp.state = .ready) (hi : issueOf s (.tapePatchSlot y) = some x) (hh : rdA (entry s x) x x.lead = h)
    (ho : tapeOpen s x (tapeDie h)) (ht : drainGroup (entry s x) x.g.id = t) (hu : unitOff t (tapeDie h) .tape = false)
    (hown : ownTape t (asidOf t x.g) h = some tp) (hn : rdC t x x.lead ≤ 31) :
    exec (.tapePatchSlot y) s = .next (wideResult (modTape t tp.handle fun t' =>
      { t' with slots := updAt (rdC t x x.lead) (fun _ => BitVec.ofNat 64 (rdB t x x.lead)) t'.slots }) x 0) := by
  subst ht hh
  refine issue_of_doneWith hi ?_
  dsimp only
  rw [tapeOp_of_open ho, if_neg (Nat.not_lt.mpr hn), withTape_of_own hu hown (by simp [hs])]

/-- A guard that has room and a place. -/
theorem insertGuard_of_room {v : Nat} (hn : (guardUnits tp).length < 64)
    (hr : ((findDie u (tapeDie tp.handle)).map tapeUsed).getD tapeStore + 1 ≤ tapeStore) (hp : xtail y 2 18 ≤ tp.units.length)
    (hk : tp.units[xtail y 2 18]?.map unitKind ≠ some 2) :
    insertGuard x u y tp v = doneWith (modTape u tp.handle fun t' =>
      { t' with units := t'.units.take (xtail y 2 18) ++ guardUnit (xmod y 1 2) (xmod y 3 1) (guardUnits tp).length (rdB u x x.lead) v ::
          t'.units.drop (xtail y 2 18) }) x (guardUnits tp).length := by
  have hfull : ¬ (64 ≤ (guardUnits tp).length ∨ tapeStore < ((findDie u (tapeDie tp.handle)).map tapeUsed).getD tapeStore + 1) := by omega
  have hpos : ¬ (tp.units.length < xtail y 2 18 ∨ tp.units[xtail y 2 18]?.map unitKind = some 2) := by
    simp only [not_or, Nat.not_lt]
    exact ⟨hp, hk⟩
  simp only [insertGuard, if_neg hfull, if_neg hpos]

theorem exec_tapePatchGuard {v : Nat} (hs : tp.state = .ready) (hi : issueOf s (.tapePatchGuard y) = some x) (hh : rdA (entry s x) x x.lead = h)
    (ho : tapeOpen s x (tapeDie h)) (ht : drainGroup (entry s x) x.g.id = t) (hu : unitOff t (tapeDie h) .tape = false)
    (hown : ownTape t (asidOf t x.g) h = some tp) (ha : guardAddr (xmod y 1 2) (rdB t x x.lead) = none)
    (hv : (if xmod y 4 1 = 0 then (t, .ok (rdC t x x.lead)) else guardValue t (groupIssuer t x.g) (xmod y 1 2) (rdB t x x.lead)) = (u, .ok v))
    {r : State} {n : Nat} (hg : insertGuard x u y tp v = doneWith r x n) : exec (.tapePatchGuard y) s = .next (wideResult r x n) := by
  subst ht hh
  refine issue_of_doneWith hi ?_
  dsimp only
  rw [tapeOp_of_open ho]
  simp only [ha]
  rw [withTape_of_own hu hown (by simp [hs])]
  split at hv <;> rename_i hc
  · cases hv
    rw [if_pos hc]
    exact hg
  · rw [if_neg hc, hv]
    exact hg

/-! ### Playing (R366) -/

theorem exec_tapePlay {slots : List DWord} (hi : issueOf s (.tapePlay y) = some x) (hh : rdA (entry s x) x x.lead = h) (ho : tapeOpen s x (tapeDie h))
    (hr : releaseOk (drainGroup (entry s x) x.g.id) x) (ht : markUnrec (released (drainGroup (entry s x) x.g.id) x) x.g.id = t)
    (hu : unitOff t (tapeDie h) .tape = false) (hown : ownTape t (asidOf t x.g) h = some tp) (hc : playCode (some tp) = 0)
    (hs : (if xmod y 0 1 = 1 then .ok (t, tp.slots) else readSlots x (rdB t x x.lead) (rdC t x x.lead) (List.range 32) t tp.slots) = .ok (u, slots)) :
    exec (.tapePlay y) s = .next (playGroup (modGroup (modTape u tp.handle fun t => { t with state := .playing, tokens := [] }) x.g.id fun g =>
      { parkGroup g (.tape tp.handle false) with
        parkInfo := some (parkInfoOf x),
        tape := .playing tp.handle 0 slots (match x.g.tape with | .recording r => some r | _ => none) }) x.g.id) := by
  subst ht hh
  refine issue_of_gone hi ?_
  dsimp only
  rw [tapeOp_of_open ho, withRelease_of_releaseOk hr]
  simp only [hu, hown, hc, hs, Bool.false_eq_true, if_false] <;> rfl

end

end Sys2Proof.TapeIssue

open Sys2Proof.Machine Sys2Proof.Safety Sys2Proof.Laws Sys2Proof.TapeIssue

/-- Settles O43: each tape instruction past its checks. -/
theorem tapes : Obligations.Tapes := by
  refine ⟨fun s x => ⟨fun y d h u bs hi ho hn hd hh hu hs hb => exec_tapeRec hi ho hn rfl hd hh hu hs hb,
      fun f h tp hi ho hg hf hfull hrec => exec_tapeStop hi ho rfl hg rfl hf hfull hrec,
      fun y tp hi ho hu hown hr hp => exec_tapeDrop hi rfl ho rfl hu hown hr hp⟩,
    fun s y x tp hs ho => ⟨fun hi ⟨hu, hown⟩ hn => exec_tapePatchSlot hs hi rfl ho rfl hu hown hn,
      fun u v hi ⟨hu, hown⟩ ha hv hn hr hp hk => exec_tapePatchGuard hs hi rfl ho rfl hu hown ha hv (insertGuard_of_room hn hr hp hk),
      fun u slots hi hr ⟨hu, hown⟩ hc hs => exec_tapePlay hi rfl ho hr rfl hu hown hc hs⟩⟩
end

section
/-! SUPPORT. `ctxsave` and `ctxrest` (R391, R395). -/
namespace Sys2Proof.ContextOps
open Sys2Proof.Machine Sys2Proof.Safety Sys2Proof.Laws

section
variable {s t u w : State} {x : Issue} {y : XWord} {d me : Dispatch} {tm : Team} {p : Partition} {a : Acc} {tab : PageTab}

/-- A dispatch that the caller may name: another one of its partition. -/
structure Named (s : State) (x : Issue) (d : Dispatch) : Prop where
  act : x.act ≠ []
  found : findDisp s (rdA s x x.lead) = some d
  part : (dispOf s x.g).map (·.part) = some d.part
  other : rdA s x x.lead ≠ x.g.disp

theorem ctxOp_of_named (h : Named s x d) (body : State → Dispatch → IRes) : ctxOp x s body = body (drainGroup s x.g.id) d := by
  obtain ⟨ha, hf, hp, ho⟩ := h
  have hd : (findDisp s (rdA s x x.lead)).filter (fun d => ((dispOf s x.g).map (·.part)) == some d.part) = some d := by
    rw [hf, Option.filter_some, if_pos (by simp [hp])]
  simp only [ctxOp, groupWide_of_active ha, hd, if_neg ho]

/-- A frame's address that is aligned and in the caller's space. -/
theorem frameAddr_of_aligned {va : Nat} (ha : x.act ≠ []) (hal : rdC s x x.lead % frameSize = 0)
    (hg : globTarget x.g (rdC s x x.lead) frameSize = some (.glob va)) (k : State → IRes) : frameAddr x s k = k s := by
  have hn : (rdC s x x.lead % frameSize != 0) = false := by simp [hal]
  simp only [frameAddr, groupWide_of_active ha, hn, hg, Bool.false_eq_true, if_false]

/-- The frame of a team that stands still, with its pages translated and answering. -/
theorem frameOp_of_open (htm : findTeam t d.id (rdB t x x.lead) = some tm) (hme : dispOf t x.g = some me) (hp : groupPart t x.g = some p)
    (hs : teamStill t tm = true) (hl : inLease me (va57 (rdC t x x.lead)) frameSize = true)
    (hx : xlateRun t (ctxOn me x.g.core) a (va57 (rdC t x x.lead)) frameSize = (w, .ok tab))
    (hu : settleSlots w p (blocksVia tab (va57 (rdC t x x.lead)) frameSize) = u)
    (hr : allReach u = true ∨ unreachable u p (dieOf x.g) tab (va57 (rdC t x x.lead)) frameSize = false)
    (k : State → Team → Partition → List Nat → IRes) :
    frameOp x t d a k = k u tm p ((List.range 32).map fun i => paVia tab (va57 (rdC t x x.lead) + 65536 * i)) := by
  subst hu
  have hreach : (!allReach (settleSlots w p (blocksVia tab (va57 (rdC t x x.lead)) frameSize)) &&
      unreachable (settleSlots w p (blocksVia tab (va57 (rdC t x x.lead)) frameSize)) p (dieOf x.g) tab (va57 (rdC t x x.lead)) frameSize) = false := by
    rcases hr with hr | hr <;> simp [hr]
  simp only [frameOp, htm, hme, hp, hs, hl, hx, hreach, Bool.not_true, Bool.false_eq_true, if_false]

end

end Sys2Proof.ContextOps

open Sys2Proof.Machine Sys2Proof.Safety Sys2Proof.Laws Sys2Proof.ContextOps

/-- Settles O49: each form past its checks. -/
theorem contexts : Obligations.Contexts := by
  refine ⟨fun s y x d ha hf hp ho => ?_, fun s y x d me tm p a w tab va' ha hf hp ho => ?_⟩
  · have hop := ctxOp_of_named ⟨ha, hf, hp, ho⟩
    refine ⟨fun h => ?_, fun h hm => ?_, fun tm h hm htm hheld => ?_, fun h hmig => ?_⟩
    · split <;> rename_i hsv
      · exact issue_of_doneWith h ((hop _).trans (if_pos hsv))
      · exact issue_of_parkDone h ((hop _).trans (if_neg hsv))
    · have hm : ¬ xmod y 2 1 = 1 := by rw [hm]; decide
      split <;> rename_i hsv
      · exact issue_of_doneWith h ((hop _).trans ((if_neg hm).trans (if_pos hsv)))
      · exact issue_of_doneWith h ((hop _).trans ((if_neg hm).trans (if_neg hsv)))
    · exact issue_of_doneWith h ((hop _).trans (by simp only [hm, htm, hheld, if_true]))
    · exact issue_of_parkDone h ((hop _).trans (if_neg (Bool.eq_false_iff.mp hmig)))
  · dsimp only
    intro hal hg htm hme hpt hst hl hx hr
    have hop := ctxOp_of_named ⟨ha, hf, hp, ho⟩
    have hfr := frameOp_of_open htm hme hpt hst hl hx rfl hr
    refine ⟨fun h hacc => ?_, fun h hacc hbad hok => ⟨fun hn => ?_, fun pa q hpa hq => ?_⟩⟩
    · subst hacc
      exact issue_of_doneWith h ((frameAddr_of_aligned ha hal hg _).trans ((hop _).trans (hfr _)))
    · subst hacc
      refine issue_of_doneWith h ((frameAddr_of_aligned ha hal hg _).trans ((hop _).trans ((hfr _).trans ?_)))
      simp only [hbad, hok, hn, Option.bind_none, Bool.not_true, Bool.false_eq_true, if_false]
    · subst hacc
      refine issue_of_doneWith h ((frameAddr_of_aligned ha hal hg _).trans ((hop _).trans ((hfr _).trans ?_)))
      simp only [hbad, hok, hpa, hq, Option.bind_some, Option.map_some, Bool.not_true, Bool.false_eq_true, if_false]
end

section
/-! SUPPORT. The host queues (R405 to R408). -/
namespace Sys2Proof.HostQueues
open Sys2Proof.Machine Sys2Proof.Safety Sys2Proof.Laws

section
variable {s t : State} {h : HostQueue} {e : List Byte} {kind : Nat} {f : State → HostQueue → List Byte → State}

theorem hostStep_of_powered (hp : powered s = true) (f : State → State) : hostStep s f = .next (f s) := by simp [hostStep, event, hp]

/-- The next entry, where it is a good one of the kind. -/
theorem onEntry_of_kind (hq : findQueue s h.id = some h) (hs : startable s h = some e) (hb : entryBad e = false) (hk : entryKind e = kind) :
    onEntry s h.id kind f = f s h e := by
  simp only [onEntry, hq, hs, hb, hk, Bool.false_eq_true, if_false, if_true]

/-- A bad entry is refused, whatever step comes to it. -/
theorem onEntry_of_bad (hq : findQueue s h.id = some h) (hs : startable s h = some e) (hb : entryBad e = true) :
    onEntry s h.id kind f = refuseEntry s h := by
  simp only [onEntry, hq, hs, hb, if_true]

/-- A tape that can be played, and whose patch table can be read. -/
theorem startPlay_of_ready {tp : Tape} {slots : List DWord} (hu : unitOff s (tapeDie (qNum e 8 2)) .tape = false) (hn : qNum e 8 2 < 1024)
    (ht : ownTape s (queueCtx s h).asid (qNum e 8 2) = some tp) (hc : playCode (some tp) = 0)
    (hs : hostSlots (queueCtx s h) (qNum e 16 8) (qNum e 24 4) (List.range 32) s tp.slots = (t, some slots)) :
    startPlay s h e = playHost (modQueue (modTape (markBusy (takeEntry t h) h) (qNum e 8 2) fun t => { t with state := .playing, tokens := [] }) h.id
      fun k => { k with play := some ⟨qNum e 8 2, 0, slots, h.next, qNum e 32 8, BitVec.ofNat 64 (qNum e 40 8)⟩ }) h.id := by
  have hopen : (unitOff s (tapeDie (qNum e 8 2)) .tape || decide (1024 ≤ qNum e 8 2)) = false := by simp [hu, hn]
  simp only [startPlay, hopen, ht, hc, hs, Bool.false_eq_true, if_false]

end

end Sys2Proof.HostQueues

open Sys2Proof.Machine Sys2Proof.Safety Sys2Proof.Laws Sys2Proof.HostQueues

/-- Settles O59: a step of a queue finds the queue, and its next entry where that may start. -/
theorem hostQueueSteps : Obligations.HostQueueSteps := by
  intro s h hp hq
  refine ⟨fun t => ?_, fun e hs hb => ⟨fun hk => ?_, fun tp u slots hk hm hmay hu hn ht hc hsl => ?_, fun hk hn => ?_,
    fun hk => ?_⟩, fun e hs hb => ?_, fun g hg => ⟨fun u hk hw => ?_, fun u hk hw => ?_, fun hk hw => ?_⟩, fun va v cond e t b hw hr hc => ?_⟩
  · change execQdoor h.id t s = _
    simp only [execQdoor, hostStep_of_powered hp, hq]
  · change execDispatch h.id s = _
    simp only [execDispatch, hostStep_of_powered hp, onEntry_of_kind hq hs hb hk]
  · change execHostTapePlay h.id s = _
    simp only [execHostTapePlay, hostStep_of_powered hp, hq, hm, onEntry_of_kind hq hs hb hk, hmay, startPlay_of_ready hu hn ht hc hsl, Bool.false_eq_true,
      if_false, if_true]
  · change execSignal h.id s = _
    simp only [execSignal, hostStep_of_powered hp, hq, hn, onEntry_of_kind hq hs hb hk]
  · change execWait h.id s = _
    simp only [execWait, hostStep_of_powered hp, onEntry_of_kind hq hs hb hk]
  · change execDispatch h.id s = _
    simp only [execDispatch, hostStep_of_powered hp, onEntry_of_bad hq hs hb, refuseEntry]
  · change execSignal h.id s = _
    simp only [execSignal, hostStep_of_powered hp, hq, hg, performSignal, if_neg hk, hw]
  · change execSignal h.id s = _
    simp only [execSignal, hostStep_of_powered hp, hq, hg, performSignal, if_pos hk, hw]
  · change execSignal h.id s = _
    simp only [execSignal, hostStep_of_powered hp, hq, hg, performSignal, if_neg hk, hw]
  · have hholds : waitHolds s h = true := by
      simp only [waitHolds, hw, hr]
      split at hc <;> rename_i hcond <;> simp [hcond, hc]
    change execWaitMet h.id s = _
    simp only [execWaitMet, hostStep_of_powered hp, hq, hw, hholds, if_true]
end

section
/-! SUPPORT. The management channel and accesses from outside (R404, R405, R409 to R416). -/
namespace Sys2Proof.Management
open Sys2Proof.Machine Sys2Proof.Safety Sys2Proof.Laws Sys2Proof.HostQueues

section
variable {s : State}

/-- A device that does not accept work takes no step of the host's (R411). -/
theorem hostStep_of_unpowered (hp : powered s = false) (f : State → State) : hostStep s f = .next s := by simp [hostStep, event, hp]

/-- Cores that a new partition counts are left out of dies and of no partition. -/
theorem recount_partitions (ds : List Nat) (s : State) : (ds.foldl recount s).partitions = s.partitions := by
  induction ds generalizing s with
  | nil => rfl
  | cons d ds ih => exact (ih (recount s d)).trans rfl

/-- The end of replays changes tapes only. -/
theorem foldl_readyTape_partitions (ps : List HostPlay) (s : State) :
    (ps.foldl (fun s p => modTape s p.handle fun t => { t with state := .ready, tokens := [] }) s).partitions = s.partitions := by
  induction ps generalizing s with
  | nil => rfl
  | cons p ps ih => exact (ih _).trans rfl

/-- QCREATE where nothing refuses it. -/
theorem execQcreate_of_ok {q part : Nat} {a : DWord} (hp : powered s = true) (hpart : (findPart s part).isSome = true) (hq : findQueue s q = none)
    (hn : (s.hostQueues.filter fun h => h.part == part).length < 64) (hd : queueDescOk (hostBytes s (hostPa a.toNat) 128) = true) :
    execQcreate q part a s = .next { s with
      hostQueues := s.hostQueues ++ [
        { id := q, part := part, descPa := hostPa a.toNat, desc := hostBytes s (hostPa a.toNat) 128,
          door := BitVec.ofNat 64 (qNum (hostBytes s (hostPa a.toNat) 128) 16 8), next := qNum (hostBytes s (hostPa a.toNat) 128) 16 8, busy := [],
          waiting := none, signals := [], play := none, failed := false }],
      reply := [0] } := by
  have hpart' : (findPart s part).isNone = false := by rw [Option.isNone_eq_false_iff]; exact hpart
  have hn' : decide (64 ≤ (s.hostQueues.filter fun h => h.part == part).length) = false := by simpa using hn
  simp only [execQcreate, hostStep_of_powered hp, hpart', hq, Option.isSome_none, hn', hd, Bool.not_true, Bool.or_self, Bool.false_eq_true, if_false]
  rfl

/-- PARTCREATE of what it accepts: the partition stands last, with the lowest free number. -/
theorem execPartcreate_of_ok {spec : PartSpec} (hp : powered s = true) (hok : partOk s spec = true) :
    ∃ t p, execPartcreate spec s = .next t ∧ t.partitions = s.partitions ++ [p] ∧ p.id = freePart s ∧
      t.reply = [0, BitVec.ofNat 64 (freePart s)] ∧ p.dies = spec.dies ∧ p.slices = sortNat spec.slices ∧ p.pbase = spec.pbase ∧ p.lent = spec.lent ∧
      p.gen = 0 ∧ p.channels = stackChannels (sortNat spec.hbmStacks) ∧ p.expBase = spec.expBase ∧ p.expLen = spec.expLen := by
  simp only [execPartcreate, hostStep_of_powered hp, hok, Bool.not_true, Bool.false_eq_true, if_false]
  exact ⟨_, _, rfl, congrArg (· ++ _) (recount_partitions spec.dies s), rfl, rfl, rfl, rfl, rfl, rfl, rfl, rfl, rfl, rfl⟩

/-- PARTDESTROY of a partition with nothing that holds it. -/
theorem execPartdestroy_of_idle {p : Nat} (hp : powered s = true) (hf : (findPart s p).isSome = true)
    (hd : s.dispatches.any (fun d => d.part == p && d.state != .retired) = false) (hn : s.networks.any (fun n => n.state != 0 && n.part == p) = false) :
    ∃ t, execPartdestroy p s = .next t ∧ findPart t p = none ∧ t.reply = [0] ∧ ∀ h ∈ t.hostQueues, h.part ≠ p := by
  have hf' : (findPart s p).isNone = false := by rw [Option.isNone_eq_false_iff]; exact hf
  simp only [execPartdestroy, hostStep_of_powered hp, hf', hd, hn, Bool.or_self, Bool.false_eq_true, if_false]
  refine ⟨_, rfl, ?_, rfl, fun h hh => ?_⟩
  · simp [answer, findPart]
  · simpa [answer] using (List.mem_filter.mp hh).2

/-- PARTDESTROY is refused while a dispatch or an attached network holds the partition. -/
theorem execPartdestroy_of_busy {p : Nat} (hp : powered s = true)
    (hb : (s.dispatches.any (fun d => d.part == p && d.state != .retired) || s.networks.any (fun n => n.state != 0 && n.part == p)) = true) :
    execPartdestroy p s = .next { s with reply := [1] } := by
  simp only [execPartdestroy, hostStep_of_powered hp, Bool.or_assoc, hb, Bool.or_true, if_true]
  rfl

/-- The companion processor's access, at its own memory or at a home slice, of a size that it may have. -/
theorem execHostCoherentAccess_of_part {a : HostAccess} {p : Partition} (hp : powered s = true) (hm : manages a = false) (ho : outerOk a = true)
    (hpart : paKind a.addr = 1 ∧ ringPart s a.addr = some p ∨ paKind a.addr ≠ 1 ∧ partOfPa s a.addr = some p) :
    execHostCoherentAccess a s = .next (outerAccess s p a.addr a) := by
  simp only [execHostCoherentAccess, hostStep_of_powered hp, hm, ho, Bool.not_true, Bool.false_eq_true, if_false]
  rcases hpart with ⟨hk, hpart⟩ | ⟨hk, hpart⟩ <;> simp [hk, hpart]

/-- Another device's access below EXPLEN (R410). -/
theorem execKflRemoteRequest_of_inside {a : HostAccess} {p : Partition} (hp : powered s = true) (hf : findPart s p.id = some p) (hm : manages a = false)
    (ho : outerOk a = true) (hlen : a.addr + a.size ≤ p.expLen) (hdev : isDevPa p (p.expBase + a.addr) = true) :
    execKflRemoteRequest p.id a s = .next (outerAccess s p (p.expBase + a.addr) a) := by
  have hin : (manages a || !outerOk a || decide (p.expLen < a.addr + a.size) || !isDevPa p (p.expBase + a.addr)) = false := by
    simpa [hm, ho, hdev] using hlen
  simp only [execKflRemoteRequest, hostStep_of_powered hp, hf, hin, Bool.false_eq_true, if_false]

/-- Steps of the host's, requests of the management channel and accesses from outside leave a device that does not accept work as it is (R411). -/
theorem exec_of_unpowered (hp : powered s = false) :
    (∀ q part a, exec (.qcreate q part a) s = .next s) ∧ (∀ q t, exec (.qdoor q t) s = .next s) ∧
    (∀ q, ∀ i ∈ [Instr.dispatch q, .hostTapePlay q, .signal q, .wait q, .waitMet q], exec i s = .next s) ∧
    (∀ spec, exec (.partcreate spec) s = .next s) ∧ (∀ p, exec (.partdestroy p) s = .next s) ∧ (∀ n, exec (.devnum n) s = .next s) ∧
    (∀ n, exec (.attest n) s = .next s) ∧ (∀ w, exec (.pcap w) s = .next s) ∧ (∀ a, exec (.hostCoherentAccess a) s = .next s) ∧
    ∀ p a, exec (.kflRemoteRequest p a) s = .next s := by
  have hno (f) := hostStep_of_unpowered hp f
  refine ⟨fun q part a => ?_, fun q t => ?_, fun q => ?_, fun spec => ?_, fun p => ?_, fun n => ?_, fun n => ?_, fun w => ?_, fun a => ?_, fun p a => ?_⟩
  · change execQcreate q part a s = _
    exact hno _
  · change execQdoor q t s = _
    exact hno _
  · simp only [List.forall_mem_cons, List.not_mem_nil, false_implies, implies_true, and_true]
    change execDispatch q s = _ ∧ execHostTapePlay q s = _ ∧ execSignal q s = _ ∧ execWait q s = _ ∧ execWaitMet q s = _
    exact ⟨hno _, hno _, hno _, hno _, hno _⟩
  · change execPartcreate spec s = _
    exact hno _
  · change execPartdestroy p s = _
    exact hno _
  · change execDevnum n s = _
    exact hno _
  · change execAttest n s = _
    exact hno _
  · change execPcap w s = _
    exact hno _
  · change execHostCoherentAccess a s = _
    exact hno _
  · change execKflRemoteRequest p a s = _
    exact hno _

end

end Sys2Proof.Management

open Sys2Proof.Machine Sys2Proof.Safety Sys2Proof.Laws Sys2Proof.HostQueues Sys2Proof.Management

/-- Settles O60: request by request, on a device in service, and none on one that does not accept work. -/
theorem managementSteps : Obligations.ManagementSteps := by
  intro s
  refine ⟨fun hb => ?_, ?_, exec_of_unpowered, fun hp => ⟨fun q part a hpart hq hn hd => execQcreate_of_ok hp hpart hq hn hd,
    fun spec hok => execPartcreate_of_ok hp hok, fun p hf => ⟨execPartdestroy_of_busy hp, fun hi => ?_⟩, fun n => ?_, fun n => ?_, fun w => ?_,
    fun n m hn hm => ?_, fun d c => ?_, fun a hm => ?_, fun a p hm ho hpart => execHostCoherentAccess_of_part hp hm ho hpart,
    fun a p hf hm ho hlen hdev => execKflRemoteRequest_of_inside hp hf hm ho hlen hdev⟩⟩
  · change execPowerOn s = _
    simp [execPowerOn, event, hb]
  · change ∃ t, execStatus s = .next t ∧ _
    refine ⟨_, rfl, ?_⟩
    dsimp only [answer]
    rcases s.power with _ | _ | ⟨c, i⟩
    · rfl
    · rfl
    · rcases eq_or_ne c 5 with rfl | hc
      · rfl
      · simp [hc]
  · obtain ⟨hd, hn⟩ := Bool.or_eq_false_iff.mp hi
    exact execPartdestroy_of_idle hp hf hd hn
  · change execDevnum n s = _
    simp only [execDevnum, hostStep_of_powered hp]
    split <;> rfl
  · change execAttest n s = _
    exact hostStep_of_powered hp _
  · change execPcap w s = _
    simp only [execPcap, hostStep_of_powered hp]
    split <;> rfl
  · change execClockThrottle n m s = _
    simp only [execClockThrottle, hostStep_of_powered hp, hn, hm, and_self, if_true]
  · change ∃ t, execThermalCritical d c s = .next t ∧ _
    exact ⟨_, hostStep_of_powered hp _, rfl, rfl, rfl, rfl, rfl⟩
  · change execHostCoherentAccess a s = _
    simp only [execHostCoherentAccess, hostStep_of_powered hp, hm, if_true]
end
